-- ==== Sys2Proof/Word.lean ====
section
/-! DEFINITION. The words and numbers of the Norvica 2380: bytes, generations and the small
index ranges (slots, stations, contexts, tags), and tables indexed by them. -/

namespace Sys2Proof

/-- One byte of a record or a frame. -/
abbrev Byte := BitVec 8

/-- A generation or claim serial: 0 to 4,294,967,295, wrapping to 0 (R45). -/
abbrev Gen := BitVec 32

/-- A slot of the directory, 0 to 47 (R37). -/
abbrev Slot := Fin 48

/-- A station number, 0 to 7 (R42). -/
abbrev Station := Fin 8

/-- A stream context, 0 to 63 (R18). -/
abbrev Ctx := Fin 64

/-- A lifetime class: 0 HOT, 1 WARM, 2 COOL, 3 COLD (R8, R10). -/
abbrev LifeClass := Fin 4

/-- A directive tag, 0 to 255 (R160). -/
abbrev DTag := Fin 256

/-- A request tag, 0 to 15 (R109). -/
abbrev ReqTag := Fin 16

/-- A table of `n` like things, numbered from 0. -/
abbrev Tab (n : Nat) (α : Type) := Vector α n

end Sys2Proof
end

