-- ==== Sys2Proof/Config.lean ====
section
/-! DEFINITION. The free values of the model: values the spec names but does not state.
None has a body, so no proof can lean on a value of one. -/

namespace Sys2Proof.Config

/-- The byte that carries a negative excess in the response to READ-ROSTER. R48 lets an excess
be below 0; Table 11-2 gives no encoding for a negative field. Free value, log entry 19. -/
opaque excessBelowZero : Int → Byte

/-- The byte READ-STATUS carries for the receiver's state while the receiver is off (DORMANT):
R81 lists HUNT and RECEIVING only. Free value, log entry 20. -/
opaque receiverOffCode : Byte

/-- The bytes a PEER notice carries after station number 255 (entry state, takeover-failed,
effective quota): R182 names no roster entry for a no-adopter report. Free values, log entry 21. -/
opaque noAdopterField : Nat → Byte

/-- The shut-cause (as its place in the list of Table 5-2, 0 for FULL) of a CLOSING slot whose
snapshot entry carries shut-cause code 0. Table 5-2 gives codes 1 to 7 and R133 does not check
the field. Free value, log entry 22. -/
opaque causeOfSnapshotCodeZero : Fin 7

/-- The requested quota R47 uses for a station that an installed snapshot shows PRESENT with the
requested-quota bits 0, which Table 5-3 reads as absent. Free value, log entry 23. -/
opaque quotaOfAbsentRequest : Nat

end Sys2Proof.Config
end

