-- ==== Sys2Proof/Syntax.lean ====
section
/-! DEFINITION. The commands of the Norvica 2380: one constructor for each row of
spec/opcode_table.json, with the row's operands. -/

namespace Sys2Proof

/-- The outcome field of a completion (R157): OK and FAILED for OPEN-READY and PLACE-DONE, CLOSED
and FAILED for CLOSE-DONE. `undef` is an outcome the link does not define (R164). -/
inductive CompletionOutcome where
  | ok | failed | closed | undef
  deriving DecidableEq, Repr

/-- The two trackers of the back-end link controller (R161, R162). -/
inductive Tracker where
  | opens | closes
  deriving DecidableEq, Repr

/-- A command: something that acts on the station. Each constructor is a row of
spec/opcode_table.json; its rule is the one the table names. -/
inductive Instr where
  /-- R4: a write descriptor, as the six bytes of Table 1-1, is presented on the descriptor lane. -/
  | descriptorPasses (b0 b1 b2 b3 b4 b5 : Byte)
  /-- R5: the intake unit takes the head of the intake queue. -/
  | takeIntakeHead
  /-- R7: the longest-waiting held result enters the result queue. -/
  | resultEntersQueue
  /-- R181: the slice processor takes the record on offer. -/
  | outboundRecordTaken
  /-- R177: a control record, as its request code and the bytes after it, that fails the first check. -/
  | controlRequestBadCode (code : Byte) (args : List Byte)
  /-- R178: CONFIGURE, the bytes after the request code. -/
  | configure (args : List Byte)
  /-- R14: SET-CLASSIFIER, the bytes after the request code. -/
  | setClassifier (args : List Byte)
  /-- R168: SET-MODE, the bytes after the request code. -/
  | setMode (args : List Byte)
  /-- R31: PARK-STREAM, the bytes after the request code. -/
  | parkStream (args : List Byte)
  /-- R33: UNPARK-STREAM, the bytes after the request code. -/
  | unparkStream (args : List Byte)
  /-- R180: READ-STREAM, the bytes after the request code. -/
  | readStream (args : List Byte)
  /-- R180: READ-SLOT, the bytes after the request code. -/
  | readSlot (args : List Byte)
  /-- R180: READ-ROSTER, the bytes after the request code (none in a well-formed record). -/
  | readRoster (args : List Byte)
  /-- R180: READ-STATUS, the bytes after the request code (none in a well-formed record). -/
  | readStatus (args : List Byte)
  /-- R180: READ-FAULT, the bytes after the request code (none in a well-formed record). -/
  | readFault (args : List Byte)
  /-- R186: CLEAR-FAULT, the bytes after the request code (none in a well-formed record). -/
  | clearFault (args : List Byte)
  /-- R108: RESTORE-SLOT, the bytes after the request code. -/
  | restoreSlot (args : List Byte)
  /-- R174: DEPART, the bytes after the request code (none in a well-formed record). -/
  | depart (args : List Byte)
  /-- R141: WAKE, the bytes after the request code (none in a well-formed record). -/
  | wake (args : List Byte)
  /-- R142: REJOIN, the bytes after the request code (none in a well-formed record). -/
  | rejoin (args : List Byte)
  /-- R28: the deadline timer of a stream expires. -/
  | deadlineExpiry (c : Ctx)
  /-- R30: the idle timer of a context expires. -/
  | idleTimerExpiry (c : Ctx)
  /-- R66: a PLACE is issued. -/
  | issuePlace
  /-- R68: a PLACE-DONE arrives. -/
  | placeDone (tag : DTag) (o : CompletionOutcome)
  /-- R83: the receiver reads these line bits (recessive is true) after an opening delimiter. -/
  | receptionEnd (bits : List Bool)
  /-- R51: a receive entry that is not CLEAN, or is marked lost-after, is taken. -/
  | receiveEntryNotClean
  /-- R123: a ROLL is taken from the receive queue. -/
  | roll
  /-- R125: a SEAL is taken from the receive queue. -/
  | seal
  /-- R55: a BEACON is taken from the receive queue. -/
  | beacon
  /-- R129: a JOIN is taken from the receive queue. -/
  | join
  /-- R141: a LEAVE is taken from the receive queue. -/
  | leave
  /-- R139: an ABSENT is taken from the receive queue. -/
  | absent
  /-- R99: a CLAIM is taken from the receive queue. -/
  | claim
  /-- R102: a SHUT is taken from the receive queue. -/
  | shut
  /-- R106: a SHUT-DONE is taken from the receive queue. -/
  | shutDone
  /-- R108: a RESTORE is taken from the receive queue. -/
  | restore
  /-- R146: a TAKEOVER is taken from the receive queue. -/
  | takeover
  /-- R152: a TAKEOVER-END is taken from the receive queue. -/
  | takeoverEnd
  /-- R113: a RECALL is taken from the receive queue. -/
  | recall
  /-- R115: a DEFER is taken from the receive queue. -/
  | defer
  /-- R136: a CATCHUP-ASK is taken from the receive queue. -/
  | catchupAsk
  /-- R132: a CATCHUP-OFFER is taken from the receive queue. -/
  | catchupOffer
  /-- R132: a SNAPSHOT part is taken from the receive queue. -/
  | snapshot
  /-- R133: a SNAPSHOT-END is taken from the receive queue. -/
  | snapshotEnd
  /-- R87: the medium has become quiet; the line may already be dominant when the transmitter would begin. -/
  | contention (lineDominant : Bool)
  /-- R88: the transmitter reads dominant where it drove recessive in arbitration. -/
  | arbitrationLost
  /-- R89: the transmission completes with its closing delimiter. -/
  | transmissionComplete
  /-- R89: the transmitter reads a difference after arbitration and aborts. -/
  | transmissionAbort
  /-- R90: the line has stayed recessive for the yield gap. -/
  | yieldGapExpiry
  /-- R86: the frame held longest joins the transmit queue. -/
  | heldFrameJoins
  /-- R92: the beacon timer expires. -/
  | beaconTimerExpiry
  /-- R94: the last-heard time of a station reaches 3P. -/
  | lastHeardExpiry (st : Station)
  /-- R124: the seal deadline expires. -/
  | sealDeadlineExpiry
  /-- R127: the listen timer expires. -/
  | listenTimerExpiry
  /-- R132: the offer timer expires. -/
  | offerTimerExpiry
  /-- R132: the part gap timer expires. -/
  | partGapTimerExpiry
  /-- R135: the retry timer expires. -/
  | retryTimerExpiry
  /-- R136: the offer delay expires. -/
  | offerDelayExpiry
  /-- R115: the answer timer of an ASKED recall entry expires. -/
  | answerTimerExpiry
  /-- R116: the backoff timer of a recall expires. -/
  | backoffTimerExpiry
  /-- R116: the cooling period expires. -/
  | coolingPeriodExpiry
  /-- R159: the head of the directive queue passes (ACCEPT is asserted). -/
  | directiveSent
  /-- R161: the oldest held OPEN-ORDER is issued. -/
  | issueOpenOrder
  /-- R103: a CLOSE-ORDER is issued. -/
  | issueCloseOrder
  /-- R101: an OPEN-READY arrives; the slot is the byte it carries. -/
  | openReady (slot : Byte) (serial : Gen) (o : CompletionOutcome)
  /-- R104: a CLOSE-DONE arrives; the slot is the byte it carries. -/
  | closeDone (slot : Byte) (serial : Gen) (o : CompletionOutcome)
  /-- R165: a PORT-CLEAN arrives. -/
  | portClean
  /-- R104: the close timeout of the close tracker place of an incarnation expires. -/
  | closeTimeoutExpiry (slot : Slot) (serial : Gen)
  /-- R163: the release hold of a released tracker place expires. -/
  | releaseHoldExpiry (t : Tracker) (slot : Slot) (serial : Gen)
  /-- R170: the PFW line is asserted. -/
  | pfwAsserted
  /-- R170: the PFW line is deasserted. -/
  | pfwDeasserted
  /-- R171: the PRESSURE line is asserted. -/
  | pressureAsserted
  /-- R171: the PRESSURE line is deasserted. -/
  | pressureDeasserted
  /-- R172: the episode timer expires. -/
  | episodeTimerExpiry
  /-- R176: power is applied. -/
  | powerOnReset
  /-- R176: DRIVE_RST is asserted. -/
  | driveReset
  /-- R176: STN_RST is asserted. -/
  | stationReset
  /-- R176: the last reset line is deasserted; the operands are the straps STN and ADOPT_DIS. -/
  | resetEnd (stn : Station) (adoptDis : Bool)
  /-- R81: the receiver in HUNT reads an opening delimiter begun by another station. -/
  | openingDelimiterRead
  deriving DecidableEq, Repr

end Sys2Proof
end

