-- ==== Sys2Proof/Machine/Types.lean ====
section
/-! DEFINITION. The data types of the station's state: records, frames, the replica, and the
entries of its tables and queues. Plain data only. -/

namespace Sys2Proof.Machine

/-! ### Intake unit and classifier (Chapter 1) -/

/-- A write descriptor as received (Table 1-1, R2). -/
structure Descriptor where
  tag : BitVec 16
  function : BitVec 8
  nspace : BitVec 4
  hint : Option (BitVec 3)
  length : BitVec 16
  deriving DecidableEq, Repr

/-- The reasons of a REFUSED result, in the order of Table 1-2 (codes 1 to 6). -/
inductive Reason where
  | oversize | powerFail | notMember | blocked | parked | noPlacement
  deriving DecidableEq, Repr

/-- How a descriptor ended (R3). -/
inductive Status where
  | placed
  | placeFailed
  | refused (why : Reason)
  deriving DecidableEq, Repr

/-- A contiguous run of PU in one incarnation. -/
structure Extent where
  slot : Slot
  serial : Gen
  offset : Nat
  length : Nat
  deriving DecidableEq, Repr

/-- A result record (Table 1-2). `stream` is absent (sent as 255) when the descriptor reached no
stream; each extent carries its failed-mark. -/
structure ResultRec where
  tag : BitVec 16
  status : Status
  stream : Option Ctx
  extents : List (Extent × Bool)
  deriving DecidableEq, Repr

/-- A result that waits for room in the result queue, where it stands (R7): the intake-queue head,
a refused descriptor's pending store entry, or the completion table entry of extent 1. -/
inductive Waiter where
  | intakeHead
  | store (r : ResultRec)
  | completion (t : DTag)
  deriving DecidableEq, Repr

/-- The statuses of a control response (Table 11-2, codes 0 to 3). -/
inductive RespStatus where
  | done | accepted | wrongState | badArgument
  deriving DecidableEq, Repr

/-- A control response: the request code answered, the status and the content bytes (Table 11-2). -/
structure Response where
  code : Byte
  status : RespStatus
  content : List Byte
  deriving DecidableEq, Repr

/-- Which record is on offer on the outbound lane (R181). -/
inductive Offer where
  | response | notice | result
  deriving DecidableEq, Repr

/-- The match modes, in the order of R8 (Table 11-1 codes 0 to 5). -/
inductive MatchMode where
  | perFunction | perNamespace | perHint | perNamespaceHint | common | refuse
  deriving DecidableEq, Repr

/-- A classifier entry (R8); an absent function or namespace is ANY. -/
structure ClassEntry where
  enabled : Bool
  function : Option (BitVec 8)
  nspace : Option (BitVec 4)
  mode : MatchMode
  defaultClass : LifeClass
  deriving DecidableEq, Repr

/-- A stream key (R9, R19). -/
structure Key where
  mode : MatchMode
  function : BitVec 8
  nspace : Option (BitVec 4)
  hint : Option (BitVec 3)
  deriving DecidableEq, Repr

/-! ### Stream table (Chapter 2) -/

/-- The states of a stream context, in the order of R18. -/
inductive CtxState where
  | unassigned | idle | waiting | bound | draining | parked
  deriving DecidableEq, Repr

/-- A pending store entry that is in a stream's list (R22). A tail has a head extent and no deadline. -/
structure PendingEntry where
  tag : BitVec 16
  length : Nat
  remaining : Nat
  acc : BitVec 16
  deadline : Option Nat
  headExtent : Option Extent
  deriving DecidableEq, Repr

/-- The five counters of a context (R34). -/
structure Counters where
  pu : Nat
  placed : Nat
  refused : Nat
  split : Nat
  spilled : Nat
  deriving DecidableEq, Repr

/-- A stream context (R18). Its place in the table is its index. -/
structure Context where
  state : CtxState
  key : Option Key
  cls : Option LifeClass
  slot : Option (Slot × Gen)
  pending : List PendingEntry
  inFlight : Nat
  lastWrite : Option (BitVec 32)
  counters : Counters
  /-- The idle timer: absent when stopped, else the ticks left (R30). -/
  idle : Option Nat
  deriving DecidableEq, Repr

/-! ### The replica (Chapter 3) -/

/-- The drive parameters B, C and P (P in steps of 0.5 ms), also the parameter digest of 5.3. -/
structure Params where
  b : BitVec 8
  c : BitVec 16
  p : BitVec 8
  deriving DecidableEq, Repr

/-- Slot kind, with the class a NORMAL slot carries (R38). -/
inductive SlotKind where
  | normal (c : LifeClass)
  | mixed
  deriving DecidableEq, Repr

/-- The causes of a SHUT, in the order of Table 5-2 (codes 1 to 7). -/
inductive ShutCause where
  | full | idle | recalled | pressure | leaving | fault | adopted
  deriving DecidableEq, Repr

/-- A directory entry (R38): each state with exactly the fields present in it. `attempts` is
close-attempts, 0 or 1. -/
inductive DirEntry where
  | unfunded
  | free
  | opened (holder : Station) (kind : SlotKind) (serial : Gen)
  | closing (holder : Station) (kind : SlotKind) (serial : Gen) (cause : ShutCause) (attempts : Fin 2)
  | orphaned (former : Station) (kind : SlotKind) (serial : Gen) (attempts : Fin 2)
  | quarantined
  deriving DecidableEq, Repr

/-- The roster states, in the order of Table 5-3. -/
inductive RosterState where
  | unknown | present | absent | departed
  deriving DecidableEq, Repr

/-- A roster entry (R42). The effective quota is computed (R47). -/
structure RosterEntry where
  state : RosterState
  quota : Option (BitVec 4)
  adoptDis : Option Bool
  takeoverFailed : Bool
  deriving DecidableEq, Repr

/-- The replica (R37). It is sealed when it has drive parameters. -/
structure Replica where
  params : Option Params
  dir : Tab 48 DirEntry
  roster : Tab 8 RosterEntry
  runs : Tab 8 (Option Station)
  gen : Gen
  deriving DecidableEq, Repr

/-- Readiness of a held slot (R49). -/
inductive Readiness where
  | awaitingOpen | ready | openFailed
  deriving DecidableEq, Repr

/-- Outcomes of a SHUT-DONE (Table 5-2, codes 1 to 3). -/
inductive ShutOutcome where
  | closed | retrying | quarantined
  deriving DecidableEq, Repr

/-- A close-report: the outcome of a close not yet reported (R49). -/
inductive CloseReport where
  | closed | failed
  deriving DecidableEq, Repr

/-- A holding extension (R49), with the sent marks of R134 on its shut-due and close-report. -/
structure Ext where
  serial : Gen
  readiness : Readiness
  cursor : Nat
  residents : List Ctx
  inFlight : Nat
  lastFill : Option (BitVec 32)
  closeOrderIssued : Bool
  shutDue : Option ShutCause
  shutRecall : Option (ReqTag × Station)
  closeReport : Option CloseReport
  /-- The SHUT of the shut due has been sent and its loopback not yet taken (R134). -/
  shutSent : Bool
  /-- The SHUT-DONE of the close-report has been sent, with this outcome (R134). -/
  reportSent : Option ShutOutcome
  deriving DecidableEq, Repr

/-! ### Frames (Chapter 5) -/

/-- Outcomes of a TAKEOVER-END (Table 5-2, codes 1 and 2). -/
inductive RunOutcome where
  | done | failed
  deriving DecidableEq, Repr

/-- Reasons of a DEFER (Table 5-2, codes 1 to 3). -/
inductive DeferReason where
  | stale | noneOver | allShutting
  deriving DecidableEq, Repr

/-- The placement modes (R167). -/
inductive Mode where
  | run | hold
  deriving DecidableEq, Repr

/-- One station of a SEAL's list (Table 5-2). -/
structure SealEntry where
  station : Station
  quota : BitVec 4
  adoptDis : Bool
  deriving DecidableEq, Repr

/-- The body of a frame, by kind (Table 5-2). A SEAL's list, a BEACON's fields, a SNAPSHOT's
content and a SNAPSHOT-END's fields are composed at the contention check; until then a queued
frame holds empty ones. -/
inductive Body where
  | roll (st : Station) (quota : BitVec 4) (adoptDis : Bool) (digest : Params)
  | seal (list : List SealEntry) (params : Params)
  | beacon (st : Station) (gen : Gen) (catchup : Bool) (mode : Mode)
  | join (st : Station) (quota : BitVec 4) (adoptDis : Bool) (digest : Params)
  | leave (st : Station)
  | absent (named : Station)
  | claim (slot : Slot) (kind : SlotKind)
  | shut (slot : Slot) (cause : ShutCause) (answers : Option (ReqTag × Station))
  | shutDone (slot : Slot) (o : ShutOutcome)
  | restore (slot : Slot)
  | takeover (h : Station)
  | takeoverEnd (h : Station) (o : RunOutcome)
  | recall (tag : ReqTag) (requester target : Station)
  | defer (tag : ReqTag) (why : DeferReason)
  | catchupAsk (tag : ReqTag) (asker : Station)
  | catchupOffer (tag : ReqTag) (asker responder : Station)
  | snapshot (tag : ReqTag) (part : Fin 7) (content : List Byte)
  | snapshotEnd (tag : ReqTag) (gen : Gen) (count : Byte) (sum : BitVec 16)
  deriving DecidableEq, Repr

/-- The eighteen frame kinds, in the order of their codes (Table 5-2). -/
inductive Kind where
  | roll | seal | beacon | join | leave | absent | claim | shut | shutDone | restore | takeover
  | takeoverEnd | recall | defer | catchupAsk | catchupOffer | snapshot | snapshotEnd
  deriving DecidableEq, Repr

/-- A queued frame: its destination (none is ALL) and its body. -/
structure QFrame where
  dest : Option Station
  body : Body
  deriving DecidableEq, Repr

/-- A frame on the medium or received CLEAN: sender, destination, base generation where present,
and body (R82). -/
structure Frame where
  sender : Station
  dest : Option Station
  base : Option Gen
  body : Body
  deriving DecidableEq, Repr

/-- How a reception ended (R82). Only a CLEAN one yields fields. -/
inductive Ending where
  | clean (f : Frame)
  | checkError
  | aborted
  | overlong
  deriving DecidableEq, Repr

/-- A receive queue entry (R83). -/
structure RxEntry where
  status : Ending
  lostAfter : Bool
  own : Bool
  deriving DecidableEq, Repr

/-- The receiver (R81); off in DORMANT (R96). -/
inductive Receiver where
  | off
  | hunt
  | receiving (byteCount : Nat)
  deriving DecidableEq, Repr

/-- How far this station's receiver has read its own transmission back (R83, R89). -/
inductive Readback where
  /-- The reception of the frame goes on. -/
  | reading
  /-- The reception has ended, with every bit compared read as driven: the closing delimiter was reached. -/
  | closing
  /-- The reception has ended at, or after, a bit read otherwise than driven: the attempt will be aborted. -/
  | short
  deriving DecidableEq, Repr

/-- A transmission in progress: the frame as stamped, whether it was withdrawn after its contention event
(R91), and how far it has been read back. -/
structure Sending where
  frame : Frame
  withdrawn : Bool
  readback : Readback := .reading
  deriving DecidableEq, Repr

/-- The beacon timer (R92): it stays expired until the next completed transmission. -/
inductive BeaconTimer where
  | stopped
  | running (left : Nat)
  | expired
  deriving DecidableEq, Repr

/-- The BEACON fields of a last-heard record (R93). -/
structure BeaconInfo where
  gen : Gen
  catchup : Bool
  mode : Mode
  deriving DecidableEq, Repr

/-- A last-heard record (R93); time in ticks. `reported` says this silence was reported (R94). -/
structure Heard where
  time : Nat
  beacon : Option BeaconInfo
  reported : Bool
  deriving DecidableEq, Repr

/-! ### Requests, catch-up and serving (Chapters 6 and 7) -/

/-- Phases of a RECALL entry (section 6.6); RELEASING records the slot it waits on. -/
inductive RecallPhase where
  | queued | asked | backoff
  | releasing (slot : Slot)
  deriving DecidableEq, Repr

/-- A RECALL entry of the request list (R109). `timer` is the answer timer in ASKED and the
backoff timer in BACKOFF, in ticks left. -/
structure RecallEntry where
  tag : ReqTag
  phase : RecallPhase
  target : Station
  began : Gen
  tries : Nat
  timer : Option Nat
  deriving DecidableEq, Repr

/-- Phases of a CATCHUP-ASK entry (section 7.4). -/
inductive AskPhase where
  | asking
  | offers
  | receiving (responder : Station) (nextPart : Nat)
  deriving DecidableEq, Repr

/-- A CATCHUP-ASK entry of the request list (R130). `timer` is the offer timer in OFFERS and the
part gap timer in RECEIVING, in ticks left. -/
structure AskEntry where
  tag : ReqTag
  phase : AskPhase
  began : Gen
  tries : Nat
  timer : Option Nat
  deriving DecidableEq, Repr

/-- The one place of the request list (R109). -/
inductive Request where
  | recall (e : RecallEntry)
  | ask (e : AskEntry)
  deriving DecidableEq, Repr

/-- A catch-up log entry (R131): the frame, and whether part 0 had been taken. -/
structure LogEntry where
  frame : Frame
  afterPart0 : Bool
  deriving DecidableEq, Repr

/-- Where a responder's serving stands (R136, R137): its offer delay runs; its offer is queued or on
the medium (`beaten` when another's offer for it has been taken); its snapshot is queued. -/
inductive ServePhase where
  | delay (left : Nat)
  | offered (beaten : Bool)
  | sending
  deriving DecidableEq, Repr

/-- A responder's serving (R136). -/
structure Serving where
  tag : ReqTag
  asker : Station
  phase : ServePhase
  deriving DecidableEq, Repr

/-! ### Placement engine (Chapter 4) -/

/-- Outcome of a completion table entry (R56). -/
inductive PlaceOutcome where
  | outstanding | ok | failed
  deriving DecidableEq, Repr

/-- The tail field of extent 1 of a split descriptor (R56). A tail whose extent 1 failed is REFUSED
with no reason of its own (R69). -/
inductive TailState where
  | waiting
  | issued
  | refused (why : Option Reason)
  deriving DecidableEq, Repr

/-- A completion table entry (R56); its place in the table is its directive tag. -/
structure CompEntry where
  tag : BitVec 16
  length : Nat
  stream : Ctx
  extent : Extent
  /-- The extent that takes a tail (extent 2); else extent 1. -/
  second : Bool
  outcome : PlaceOutcome
  tail : Option TailState
  partner : Option DTag
  result : Option ResultRec
  deriving DecidableEq, Repr

/-- Phases of a claim list entry (R56). -/
inductive ClaimPhase where
  | queued | opening
  deriving DecidableEq, Repr

/-- A claim list entry (R56). -/
structure ClaimEntry where
  slot : Slot
  kind : SlotKind
  claimant : Option Ctx
  phase : ClaimPhase
  deriving DecidableEq, Repr

/-! ### Membership and takeover (Chapters 7 and 8) -/

/-- The membership states, in the order of section 7.1. -/
inductive MemberState where
  | unconfigured | census | listen | joining | catchup | member | isolated | barred | dormant
  deriving DecidableEq, Repr

/-- The last reset kind (R120). -/
inductive LastReset where
  | powerOnOrDrive | station
  deriving DecidableEq, Repr

/-- The pressure modes (R167). -/
inductive PressureMode where
  | level | edge
  deriving DecidableEq, Repr

/-- What CONFIGURE stored (R178): the drive parameters as configured, the requested quota, the
wake-listen factor, the pressure mode, I and D in ms, and the close timeout in P. -/
structure StationCfg where
  params : Params
  quota : BitVec 4
  wakeFactor : Nat
  pressureMode : PressureMode
  idleMs : Nat
  deadlineMs : Nat
  closeTimeout : Nat
  deriving DecidableEq, Repr

/-- A census list entry (R120). -/
structure CensusEntry where
  quota : BitVec 4
  adoptDis : Bool
  deriving DecidableEq, Repr

/-- Phases of a duty record (R144). -/
inductive DutyPhase where
  | queued
  | running
  | ending (o : RunOutcome)
  deriving DecidableEq, Repr

/-- A duty record (R144); its place in the table is its former holder. `lastTimeout` is the slot
whose close timeout last raised the count, which R151 names. -/
structure Duty where
  phase : DutyPhase
  timeouts : Nat
  lastTimeout : Option Slot
  deriving DecidableEq, Repr

/-- An adoption list entry (R144). -/
structure Adoption where
  slot : Slot
  serial : Gen
  former : Station
  deriving DecidableEq, Repr

/-! ### Back-end link (Chapter 9) -/

/-- A directive (R157). -/
inductive Directive where
  | openOrder (slot : Slot) (serial : Gen) (kind : SlotKind)
  | place (tag : DTag) (descTag : BitVec 16) (e : Extent) (stream : Ctx)
  | closeOrder (slot : Slot) (serial : Gen) (cause : ShutCause)
  deriving DecidableEq, Repr

/-- An OPEN-ORDER held by the link controller (R161). -/
structure OpenOrder where
  slot : Slot
  serial : Gen
  kind : SlotKind
  deriving DecidableEq, Repr

/-- A tracker place (R161 to R163): its incarnation, and what runs for it. -/
inductive PlaceTimer where
  /-- Not released; the close timeout left (no timeout for an OPEN-ORDER). -/
  | live (timeout : Option Nat)
  /-- Released; the release hold left. -/
  | released (hold : Nat)
  deriving DecidableEq, Repr

/-- A place of the open or the close tracker. -/
structure TrackPlace where
  slot : Slot
  serial : Gen
  timer : PlaceTimer
  deriving DecidableEq, Repr

/-- The two states of the link controller (R165). -/
inductive LinkState where
  | portWait | operating
  deriving DecidableEq, Repr

/-! ### Fault capture (Chapter 11) -/

/-- The seventeen fault causes, in the order of the table of R184. -/
inductive Cause where
  | busCheck | busOverrun | busAbort | genSkew | beaconSkew | unexpectedAnswer | recallExhausted
  | catchupFailed | catchupExhausted | namedAbsent | paramMismatch | openFailed | placeFailed
  | closeFailed | closeTimeout | takeoverFailed | unknownCompletion
  deriving DecidableEq, Repr

/-- A captured fault report (R184). The slot is the byte named, since a completion may name a slot
beyond 47 (R164). -/
structure FaultRec where
  cause : Cause
  slot : Option Byte
  stream : Option Ctx
  peer : Option Station
  kind : Option Kind
  gen : Gen
  deriving DecidableEq, Repr

/-- The last-request record (R185); `ask` is false for RECALL, true for CATCHUP-ASK. -/
structure LastReq where
  ask : Bool
  tag : ReqTag
  target : Option Station
  began : Gen
  tries : Nat
  deriving DecidableEq, Repr

/-- What a TAKEOVER notice reports (R182). -/
inductive TakeoverNews where
  | begun | done | failed
  deriving DecidableEq, Repr

/-- A notice's type and content (R182). -/
inductive NoticeBody where
  | fault (r : FaultRec)
  | membership (m : MemberState) (attempts : Nat)
  | peer (st : Station) (state : RosterState) (takeoverFailed : Bool) (quota : Nat)
  | noAdopter
  | takeover (h : Station) (news : TakeoverNews)
  | quarantine (slot : Slot) (serial : Gen)
  | drained (c : Ctx) (counters : Counters)
  | pressure (onset : Bool) (count : Nat)
  deriving DecidableEq, Repr

/-- A notice with its lost mark (R183). -/
structure Notice where
  body : NoticeBody
  lost : Bool
  deriving DecidableEq, Repr

/-- The kinds of reset (R176). -/
inductive ResetKind where
  | powerOn | drive | station
  deriving DecidableEq, Repr

end Sys2Proof.Machine
end

