-- ==== Sys2Proof/Machine/State.lean ====
section
/-! DEFINITION. The state of the station: one structure for each block of the part, joined with
the reset in progress and the queue of waiting commands; the reasons a step can stop; and the
state right after a power-on reset has ended. -/

namespace Sys2Proof.Machine

/-- The intake unit (Chapter 1). -/
structure Intake where
  /-- The intake queue, head first (R4). -/
  queue : List Descriptor
  /-- The result queue, oldest first (R7). -/
  results : List ResultRec
  /-- The results that wait for room in the result queue, longest waiting first (R7). -/
  waiters : List Waiter
  /-- The control-response holding place (R1). -/
  response : Option Response
  /-- The record on offer on the outbound lane (R181). -/
  offer : Option Offer
  deriving DecidableEq, Repr

/-- The classifier (Chapter 1). -/
structure Classifier where
  entries : Tab 32 ClassEntry
  hintMap : Tab 8 LifeClass
  deriving DecidableEq, Repr

/-- The stream table (Chapter 2). -/
structure Streams where
  ctxs : Tab 64 Context
  /-- The count acceptance numbers come from (R22). -/
  accept : BitVec 16
  /-- Station time in ms (R18). -/
  timeMs : BitVec 32
  /-- Ticks of 1/8 ms within the millisecond (the model's own). -/
  sub : Nat
  deriving DecidableEq, Repr

/-- The placement engine (Chapter 4). -/
structure Placement where
  /-- The completion table, by directive tag; a tag is in use while it has an entry (R56, R160). -/
  comp : Tab 256 (Option CompEntry)
  claims : List ClaimEntry
  deriving DecidableEq, Repr

/-- The directory engine (Chapters 3, 6 and 7). -/
structure Directory where
  rep : Replica
  ext : Tab 48 (Option Ext)
  /-- The held slots that are CLOSING, in the order their SHUTs were applied (R103). -/
  closing : List Slot
  ignored : Nat
  request : Option Request
  reqTag : ReqTag
  /-- The cooling period (R116). -/
  cooling : Option Nat
  log : List LogEntry
  /-- The snapshot buffer: the bodies of the parts stored, in part order (R132, R137). -/
  snap : List (List Byte)
  /-- The generation G the responder's buffer was filled at (R137). -/
  snapGen : Gen
  serving : Option Serving
  deriving DecidableEq, Repr

/-- The bus controller (Chapter 5). -/
structure Bus where
  tx : List QFrame
  held : List QFrame
  sending : Option Sending
  ownEnding : Bool
  rx : List RxEntry
  receiver : Receiver
  mediumBusy : Bool
  yieldOwed : Bool
  beacon : BeaconTimer
  heard : Tab 8 Heard
  deriving DecidableEq, Repr

/-- The membership controller (Chapters 7, 8 and 10). -/
structure Members where
  state : MemberState
  lastReset : LastReset
  cfg : Option StationCfg
  stn : Station
  adoptDis : Bool
  census : Tab 8 (Option CensusEntry)
  attempts : Nat
  sealTimer : Option Nat
  listenTimer : Option Nat
  retryTimer : Option Nat
  departing : Bool
  duty : Tab 8 (Option Duty)
  adoption : List Adoption
  noAdopter : Bool
  deriving DecidableEq, Repr

/-- The back-end link controller (Chapter 9). -/
structure Link where
  state : LinkState
  queue : List Directive
  heldOpens : List OpenOrder
  opens : List TrackPlace
  closes : List TrackPlace
  deriving DecidableEq, Repr

/-- The line monitor (Chapter 10); the pressure mode is in the configured parameters. -/
structure Lines where
  mode : Mode
  /-- The power-fail state is WARNED. -/
  warned : Bool
  /-- The pressure state is ACTIVE. -/
  pressure : Bool
  episode : Option Nat
  episodes : Nat
  pfwLine : Bool
  pressureLine : Bool
  deriving DecidableEq, Repr

/-- The fault capture unit (Chapter 11). The first-fault record is locked while it is present. -/
structure Faults where
  first : Option FaultRec
  second : Bool
  counts : Tab 17 Nat
  lastReq : Option LastReq
  frozen : Bool
  notices : List Notice
  lost : Nat
  deriving DecidableEq, Repr

/-- The station. -/
structure State where
  intake : Intake
  cls : Classifier
  str : Streams
  plc : Placement
  dir : Directory
  bus : Bus
  mem : Members
  link : Link
  line : Lines
  flt : Faults
  /-- The reset in progress, with its kind so far (R176). -/
  rst : Option ResetKind
  /-- The commands that wait, first in, first out. -/
  pending : List Instr
  deriving DecidableEq, Repr

/-- No command faults the station: the spec's faults are records of the fault capture unit (R184)
and part of State. The type has no constructor; a step that ended here is impossible (safe). -/
inductive Fault where
  deriving DecidableEq, Repr

/-- Why a step can be refused. -/
inductive Refusal where
  /-- Raised by an arm of exec for a command that has no meaning yet (safe: the model stops). No arm
  raises it: every command has its meaning. -/
  | notModelled (mnemonic : String)
  deriving DecidableEq, Repr

/-! ### Reset values -/

/-- R15: the intake unit after any reset. -/
def Intake.reset : Intake :=
  { queue := [], results := [], waiters := [], response := none, offer := none }

/-- R16: an unprogrammed classifier entry. -/
def ClassEntry.reset : ClassEntry :=
  { enabled := false, function := none, nspace := none, mode := .common, defaultClass := 0 }

/-- R16: the classifier after any reset. -/
def Classifier.reset : Classifier :=
  { entries := Vector.replicate 32 ClassEntry.reset, hintMap := Vector.replicate 8 0 }

/-- All five counters 0. -/
def Counters.zero : Counters := { pu := 0, placed := 0, refused := 0, split := 0, spilled := 0 }

/-- R36: a context from 1 to 63 after any reset. -/
def Context.unassigned : Context :=
  { state := .unassigned, key := none, cls := none, slot := none, pending := [], inFlight := 0,
    lastWrite := none, counters := Counters.zero, idle := none }

/-- R36: context 0 after any reset: IDLE with class 0 and no residency. -/
def Context.commonReset : Context := { Context.unassigned with state := .idle, cls := some 0 }

/-- R36: the stream table after any reset. -/
def Streams.reset : Streams :=
  { ctxs := (Vector.replicate 64 Context.unassigned).set 0 Context.commonReset, accept := 0,
    timeMs := 0, sub := 0 }

/-- R56: the placement engine after any reset; R160, R165: every tag is free. -/
def Placement.reset : Placement := { comp := Vector.replicate 256 none, claims := [] }

/-- R37, R42: the roster entry of an empty replica. -/
def RosterEntry.unknown : RosterEntry :=
  { state := .unknown, quota := none, adoptDis := none, takeoverFailed := false }

/-- R37: an empty replica. -/
def Replica.empty : Replica :=
  { params := none, dir := Vector.replicate 48 .unfunded,
    roster := Vector.replicate 8 RosterEntry.unknown, runs := Vector.replicate 8 none, gen := 0 }

/-- Section 3.7, R109, R116, R137: the directory engine after any reset. -/
def Directory.reset : Directory :=
  { rep := Replica.empty, ext := Vector.replicate 48 none, closing := [], ignored := 0,
    request := none, reqTag := 0, cooling := none, log := [], snap := [], snapGen := 0,
    serving := none }

/-- R95: a last-heard record after any reset. -/
def Heard.fresh : Heard := { time := 0, beacon := none, reported := false }

/-- R95: the bus controller after any reset. -/
def Bus.reset : Bus :=
  { tx := [], held := [], sending := none, ownEnding := false, rx := [], receiver := .hunt,
    mediumBusy := true, yieldOwed := false, beacon := .stopped,
    heard := Vector.replicate 8 Heard.fresh }

/-- R120, R144, section 10.5: the membership controller after a reset of the given last reset kind,
with the straps as read. -/
def Members.reset (k : LastReset) (stn : Station) (adoptDis : Bool) : Members :=
  { state := .unconfigured, lastReset := k, cfg := none, stn := stn, adoptDis := adoptDis,
    census := Vector.replicate 8 none, attempts := 0, sealTimer := none, listenTimer := none,
    retryTimer := none, departing := false, duty := Vector.replicate 8 none, adoption := [],
    noAdopter := false }

/-- R165: the link controller after any reset. -/
def Link.reset : Link :=
  { state := .portWait, queue := [], heldOpens := [], opens := [], closes := [] }

/-- R167, R170: the line monitor after any reset, with the lines at these levels. -/
def Lines.reset (pfwLine pressureLine : Bool) : Lines :=
  { mode := .run, warned := pfwLine, pressure := false, episode := none, episodes := 0,
    pfwLine := pfwLine, pressureLine := pressureLine }

/-- R187: the fault capture unit after power-on reset and drive reset. -/
def Faults.reset : Faults :=
  { first := none, second := false, counts := Vector.replicate 17 0, lastReq := none,
    frozen := false, notices := [], lost := 0 }

/-- The station right after a power-on reset has ended. DESIGN CHOICE (log entry 4, unsafe): the
straps read 0 and no, and the lines PFW and PRESSURE are deasserted. -/
def State.reset : State :=
  { intake := Intake.reset, cls := Classifier.reset, str := Streams.reset, plc := Placement.reset,
    dir := Directory.reset, bus := Bus.reset, mem := Members.reset .powerOnOrDrive 0 false,
    link := Link.reset, line := Lines.reset false false, flt := Faults.reset, rst := none,
    pending := [] }

end Sys2Proof.Machine
end

