-- ==== Sys2Proof/Machine/Framing.lean ====
section
/-! DEFINITION. The placement bus line and its frames: stuffing and the delimiters (R77), the check
value (R79), the envelope and the bodies of Table 5-2, the receiver's reading of the line bits
(R81) and the judgement of a reception (R82). A line bit is true when recessive. -/

namespace Sys2Proof.Machine

/-! ### Bytes and multi-byte fields (most significant first, R79) -/

/-- The bits of a byte, most significant first. -/
def byteBits (b : Byte) : List Bool :=
  [b.getMsbD 0, b.getMsbD 1, b.getMsbD 2, b.getMsbD 3, b.getMsbD 4, b.getMsbD 5, b.getMsbD 6,
    b.getMsbD 7]

/-- The number whose bits these are, most significant first. -/
def bitsNat (bits : List Bool) : Nat := bits.foldl (fun n b => 2 * n + b.toNat) 0

/-- Whole bytes of a run of bits; bits left over are dropped. -/
def bitsBytes : List Bool → List Byte
  | b7 :: b6 :: b5 :: b4 :: b3 :: b2 :: b1 :: b0 :: rest =>
    BitVec.ofNat 8 (bitsNat [b7, b6, b5, b4, b3, b2, b1, b0]) :: bitsBytes rest
  | _ => []

/-- A number as a byte (its low eight bits). -/
def byteOf (n : Nat) : Byte := BitVec.ofNat 8 n

/-- A 16-bit field, most significant byte first. -/
def be16 (w : BitVec 16) : List Byte := [byteOf (w.toNat / 256), byteOf w.toNat]

/-- A generation, most significant byte first. -/
def be32 (g : Gen) : List Byte :=
  [byteOf (g.toNat / 16777216), byteOf (g.toNat / 65536), byteOf (g.toNat / 256), byteOf g.toNat]

/-- A 16-bit field read most significant byte first. -/
def ofBe16 (b1 b0 : Byte) : BitVec 16 := BitVec.ofNat 16 (b1.toNat * 256 + b0.toNat)

/-- A generation read most significant byte first. -/
def ofBe32 (b3 b2 b1 b0 : Byte) : Gen :=
  BitVec.ofNat 32 (b3.toNat * 16777216 + b2.toNat * 65536 + b1.toNat * 256 + b0.toNat)

/-! ### The check value (R79) -/

/-- One bit through the remainder register of x^16 + x^12 + x^5 + 1. -/
def checkBit (r : BitVec 16) (b : Bool) : BitVec 16 :=
  if r.msb != b then (r <<< 1) ^^^ 0x1021#16 else r <<< 1

/-- R79: the remainder over these bytes, the register starting at 65,535. -/
def checkValue (bytes : List Byte) : BitVec 16 :=
  (bytes.flatMap byteBits).foldl checkBit 0xFFFF#16

/-! ### Stuffing (R77) -/

/-- The length of the run that ends in `b`, after a run of `n` bits of value `v` (`n = 0`: no run). -/
def runAfter (v : Bool) (n : Nat) (b : Bool) : Nat := if n ≠ 0 ∧ b = v then n + 1 else 1

/-- Inserts a bit of the opposite value after every run of four equal bits; the stuff bit starts a
new run. -/
def stuffFrom (v : Bool) (n : Nat) : List Bool → List Bool
  | [] => []
  | b :: bs =>
    if runAfter v n b = 4 then b :: (!b) :: stuffFrom (!b) 1 bs
    else b :: stuffFrom b (runAfter v n b) bs

/-- Removes the bit after every run of four equal bits. -/
def unstuffFrom (v : Bool) (n : Nat) : List Bool → List Bool
  | [] => []
  | b :: bs =>
    if n = 4 then unstuffFrom b 1 bs else b :: unstuffFrom b (runAfter v n b) bs

/-- Six dominant bits, then one recessive. -/
def openingDelimiter : List Bool := [false, false, false, false, false, false, true]

/-- One dominant bit, then six recessive. -/
def closingDelimiter : List Bool := [false, true, true, true, true, true, true]

/-- Eight dominant bits. -/
def abortSequence : List Bool := List.replicate 8 false

/-! ### Frame kinds (Table 5-2) -/

/-- Table 5-2: the code of a kind. -/
def Kind.code : Kind → Nat
  | .roll => 1
  | .seal => 2
  | .beacon => 3
  | .join => 4
  | .leave => 5
  | .absent => 6
  | .claim => 7
  | .shut => 8
  | .shutDone => 9
  | .restore => 10
  | .takeover => 11
  | .takeoverEnd => 12
  | .recall => 13
  | .defer => 14
  | .catchupAsk => 15
  | .catchupOffer => 16
  | .snapshot => 17
  | .snapshotEnd => 18

/-- The kind a code names. -/
def Kind.ofCode (n : Nat) : Option Kind :=
  [Kind.roll, .seal, .beacon, .join, .leave, .absent, .claim, .shut, .shutDone, .restore, .takeover,
    .takeoverEnd, .recall, .defer, .catchupAsk, .catchupOffer, .snapshot, .snapshotEnd].find?
      (fun k => k.code = n)

/-- Table 5-2: the directory-kind frames. -/
def Kind.isDirectory : Kind → Bool
  | .claim | .shut | .shutDone | .restore | .absent | .join | .leave | .takeover | .takeoverEnd =>
    true
  | .roll | .seal | .beacon | .recall | .defer | .catchupAsk | .catchupOffer | .snapshot
  | .snapshotEnd => false

/-- R80: generation-present is 1 for the directory-kind frames other than JOIN. -/
def Kind.hasBase : Kind → Bool
  | .claim | .shut | .shutDone | .restore | .absent | .leave | .takeover | .takeoverEnd => true
  | .join | .roll | .seal | .beacon | .recall | .defer | .catchupAsk | .catchupOffer | .snapshot
  | .snapshotEnd => false

/-- R80: DEFER, SNAPSHOT and SNAPSHOT-END are addressed to one station; every other kind goes to ALL. -/
def Kind.addressed : Kind → Bool
  | .defer | .snapshot | .snapshotEnd => true
  | .claim | .shut | .shutDone | .restore | .absent | .leave | .takeover | .takeoverEnd | .join | .roll
  | .seal | .beacon | .recall | .catchupAsk | .catchupOffer => false

/-- The kind of a body. -/
def Body.kind : Body → Kind
  | .roll .. => .roll
  | .seal .. => .seal
  | .beacon .. => .beacon
  | .join .. => .join
  | .leave .. => .leave
  | .absent .. => .absent
  | .claim .. => .claim
  | .shut .. => .shut
  | .shutDone .. => .shutDone
  | .restore .. => .restore
  | .takeover .. => .takeover
  | .takeoverEnd .. => .takeoverEnd
  | .recall .. => .recall
  | .defer .. => .defer
  | .catchupAsk .. => .catchupAsk
  | .catchupOffer .. => .catchupOffer
  | .snapshot .. => .snapshot
  | .snapshotEnd .. => .snapshotEnd

/-- Table 5-2: the code of a SHUT cause. -/
def ShutCause.code : ShutCause → Nat
  | .full => 1
  | .idle => 2
  | .recalled => 3
  | .pressure => 4
  | .leaving => 5
  | .fault => 6
  | .adopted => 7

/-- The SHUT cause a code names. -/
def ShutCause.ofCode : Nat → Option ShutCause
  | 1 => some .full
  | 2 => some .idle
  | 3 => some .recalled
  | 4 => some .pressure
  | 5 => some .leaving
  | 6 => some .fault
  | 7 => some .adopted
  | _ => none

/-- Table 5-2: the code of a SHUT-DONE outcome. -/
def ShutOutcome.code : ShutOutcome → Nat
  | .closed => 1
  | .retrying => 2
  | .quarantined => 3

/-- The SHUT-DONE outcome a code names. -/
def ShutOutcome.ofCode : Nat → Option ShutOutcome
  | 1 => some .closed
  | 2 => some .retrying
  | 3 => some .quarantined
  | _ => none

/-- Table 5-2: the code of a TAKEOVER-END outcome. -/
def RunOutcome.code : RunOutcome → Nat
  | .done => 1
  | .failed => 2

/-- The TAKEOVER-END outcome a code names. -/
def RunOutcome.ofCode : Nat → Option RunOutcome
  | 1 => some .done
  | 2 => some .failed
  | _ => none

/-- Table 5-2: the code of a DEFER reason. -/
def DeferReason.code : DeferReason → Nat
  | .stale => 1
  | .noneOver => 2
  | .allShutting => 3

/-- The DEFER reason a code names. -/
def DeferReason.ofCode : Nat → Option DeferReason
  | 1 => some .stale
  | 2 => some .noneOver
  | 3 => some .allShutting
  | _ => none

/-! ### Bodies (Table 5-2) -/

/-- B, C and P, carried as they stand. -/
def Params.bytes (p : Params) : List Byte := [p.b] ++ be16 p.c ++ [p.p]

/-- Body bytes of a frame (Table 5-2). -/
def Body.bytes : Body → List Byte
  | .roll st q a d => [byteOf st, byteOf (q.toNat + 16 * a.toNat)] ++ d.bytes
  | .seal l p =>
    [byteOf l.length] ++
      l.map (fun e => byteOf (32 * e.station + 2 * e.quota.toNat + e.adoptDis.toNat)) ++ p.bytes
  | .beacon st g c m =>
    [byteOf st] ++ be32 g ++ [byteOf (c.toNat + (match m with | .run => 0 | .hold => 2))]
  | .join st q a d => [byteOf st, byteOf (q.toNat + 16 * a.toNat)] ++ d.bytes
  | .leave st => [byteOf st]
  | .absent st => [byteOf st]
  | .claim k kind => [byteOf k, match kind with | .normal c => byteOf c | .mixed => byteOf 128]
  | .shut k cause answers =>
    [byteOf k, byteOf cause.code] ++
      (match answers with | some (t, r) => [byteOf (16 * t + r)] | none => [])
  | .shutDone k o => [byteOf k, byteOf o.code]
  | .restore k => [byteOf k]
  | .takeover h => [byteOf h]
  | .takeoverEnd h o => [byteOf h, byteOf o.code]
  | .recall t r g => [byteOf t, byteOf r, byteOf g]
  | .defer t why => [byteOf t, byteOf why.code]
  | .catchupAsk t a => [byteOf t, byteOf a]
  | .catchupOffer t a r => [byteOf t, byteOf a, byteOf r]
  | .snapshot _ _ content => content
  | .snapshotEnd t g n sum => [byteOf t] ++ be32 g ++ [n] ++ be16 sum

/-- A station byte: 0 to 7. -/
def stationOf (b : Byte) : Option Station := if h : b.toNat < 8 then some ⟨b.toNat, h⟩ else none

/-- A slot byte: 0 to 47. -/
def slotOf (b : Byte) : Option Slot := if h : b.toNat < 48 then some ⟨b.toNat, h⟩ else none

/-- A tag byte: 0 to 15. -/
def tagOf (b : Byte) : Option ReqTag := if h : b.toNat < 16 then some ⟨b.toNat, h⟩ else none

/-- A requested quota: 1 to 12. -/
def quotaOf (n : Nat) : Option (BitVec 4) := if 1 ≤ n ∧ n ≤ 12 then some (BitVec.ofNat 4 n) else none

/-- The low three bits of a number, as a station. -/
def lowStation (n : Nat) : Station := ⟨n % 8, Nat.mod_lt _ (by decide)⟩

/-- Bits 7:4 of a byte, as a request tag. -/
def highTag (b : Byte) : ReqTag := ⟨b.toNat / 16 % 16, Nat.mod_lt _ (by decide)⟩

/-- B, C and P from their four bytes. -/
def paramsOf (b c1 c0 p : Byte) : Params := { b := b, c := ofBe16 c1 c0, p := p }

/-- One byte of a SEAL's list. -/
def sealEntryOf (b : Byte) : Option SealEntry :=
  (quotaOf (b.toNat / 2 % 16)).map fun q =>
    { station := lowStation (b.toNat / 32), quota := q, adoptDis := b.toNat % 2 == 1 }

/-- The parsing of a SEAL's list of `n` stations and its parameters. -/
def sealOf : Nat → List Byte → List SealEntry → Option Body
  | 0, [b, c1, c0, p], acc => some (.seal acc (paramsOf b c1 c0 p))
  | 0, _, _ => none
  | n + 1, x :: rest, acc => (sealEntryOf x).bind fun e => sealOf n rest (acc ++ [e])
  | _ + 1, [], _ => none

/-- The body a kind reads from body bytes: none where the length is not the kind's, or a field holds
no value Table 5-2 gives it (R82). Bits Table 5-2 gives no field are not read (log entry 14). -/
def Body.parse (k : Kind) (bytes : List Byte) : Option Body :=
  match k, bytes with
  | .roll, [st, q, b, c1, c0, p] =>
    (stationOf st).bind fun s => (quotaOf (q.toNat % 16)).map fun q' =>
      .roll s q' (q.toNat / 16 % 2 == 1) (paramsOf b c1 c0 p)
  | .seal, n :: rest => if 1 ≤ n.toNat ∧ n.toNat ≤ 8 then sealOf n.toNat rest [] else none
  | .beacon, [st, g3, g2, g1, g0, f] =>
    (stationOf st).map fun s =>
      .beacon s (ofBe32 g3 g2 g1 g0) (f.toNat % 2 == 1) (if f.toNat / 2 % 2 = 1 then .hold else .run)
  | .join, [st, q, b, c1, c0, p] =>
    (stationOf st).bind fun s => (quotaOf (q.toNat % 16)).map fun q' =>
      .join s q' (q.toNat / 16 % 2 == 1) (paramsOf b c1 c0 p)
  | .leave, [st] => (stationOf st).map .leave
  | .absent, [st] => (stationOf st).map .absent
  | .claim, [k, x] =>
    (slotOf k).bind fun k' =>
      if x.toNat / 128 = 1 then (if x.toNat % 4 = 0 then some (.claim k' .mixed) else none)
      else some (.claim k' (.normal ⟨x.toNat % 4, Nat.mod_lt _ (by decide)⟩))
  | .shut, [k, c] =>
    (slotOf k).bind fun k' => (ShutCause.ofCode c.toNat).bind fun c' =>
      if c' = .recalled then none else some (.shut k' c' none)
  | .shut, [k, c, t] =>
    (slotOf k).bind fun k' => (ShutCause.ofCode c.toNat).bind fun c' =>
      if c' = .recalled then some (.shut k' c' (some (highTag t, lowStation t.toNat))) else none
  | .shutDone, [k, o] =>
    (slotOf k).bind fun k' => (ShutOutcome.ofCode o.toNat).map fun o' => .shutDone k' o'
  | .restore, [k] => (slotOf k).map .restore
  | .takeover, [h] => (stationOf h).map .takeover
  | .takeoverEnd, [h, o] =>
    (stationOf h).bind fun h' => (RunOutcome.ofCode o.toNat).map fun o' => .takeoverEnd h' o'
  | .recall, [t, r, g] =>
    (tagOf t).bind fun t' => (stationOf r).bind fun r' => (stationOf g).map fun g' => .recall t' r' g'
  | .defer, [t, w] =>
    (tagOf t).bind fun t' => (DeferReason.ofCode w.toNat).map fun w' => .defer t' w'
  | .catchupAsk, [t, a] =>
    (tagOf t).bind fun t' => (stationOf a).map fun a' => .catchupAsk t' a'
  | .catchupOffer, [t, a, r] =>
    (tagOf t).bind fun t' => (stationOf a).bind fun a' => (stationOf r).map fun r' =>
      .catchupOffer t' a' r'
  | .snapshot, x :: rest =>
    if h : x.toNat % 8 < 7 then
      if rest.length = (if x.toNat % 8 < 6 then 45 else 16) then
        some (.snapshot (highTag x) ⟨x.toNat % 8, h⟩ (x :: rest))
      else none
    else none
  | .snapshotEnd, [t, g3, g2, g1, g0, n, s1, s0] =>
    (tagOf t).map fun t' => .snapshotEnd t' (ofBe32 g3 g2 g1 g0) n (ofBe16 s1 s0)
  | _, _ => none

/-! ### The envelope (Table 5-1) -/

/-- Byte 0 of Table 5-1: arbitration field, broadcast, destination, generation-present. -/
def envelopeByte (sender : Station) (dest : Option Station) (hasBase : Bool) : Byte :=
  byteOf (32 * sender + (match dest with | none => 16 | some d => 2 * d) + hasBase.toNat)

/-- The bytes of a frame from byte 0 through its last body byte (Table 5-1). -/
def Frame.checkedBytes (f : Frame) : List Byte :=
  [envelopeByte f.sender f.dest f.base.isSome, byteOf f.body.kind.code] ++
    (match f.base with | some g => be32 g | none => []) ++ [byteOf f.body.bytes.length] ++ f.body.bytes

/-- The bytes of a frame, check value included. -/
def Frame.bytes (f : Frame) : List Byte := f.checkedBytes ++ be16 (checkValue f.checkedBytes)

/-- The line bits of a frame after its opening delimiter: its stuffed bytes and the closing delimiter. -/
def Frame.lineBits (f : Frame) : List Bool :=
  stuffFrom false 0 (f.bytes.flatMap byteBits) ++ closingDelimiter

/-- R89: the line bits after the opening delimiter that the transmitter compares with what it drives: all
through the first bit of the closing delimiter, whose six recessive bits are not compared. -/
def Frame.comparedBits (f : Frame) : List Bool := f.lineBits.take (f.lineBits.length - 6)

/-- R80, R82: the destination the broadcast bit and destination field of byte 0 give a kind. -/
def destOf (k : Kind) (b0 : Byte) : Option (Option Station) :=
  if k.addressed then
    if b0.toNat / 16 % 2 = 0 then some (some (lowStation (b0.toNat / 2))) else none
  else if b0.toNat / 16 % 2 = 1 ∧ b0.toNat / 2 % 8 = 0 then some none else none

/-- The part of a frame after its base generation: body length, body and check value (R82). -/
def parseRest (k : Kind) (rest : List Byte) : Option Body :=
  match rest with
  | len :: more =>
    if more.length = len.toNat + 2 ∧ len.toNat ≤ 48 then Body.parse k (more.take len.toNat) else none
  | [] => none

/-- R82, but for the check value: the fields of received bytes. -/
def Frame.parse (bytes : List Byte) : Option Frame :=
  match bytes with
  | b0 :: kb :: rest =>
    (Kind.ofCode kb.toNat).bind fun k => (destOf k b0).bind fun dest =>
      if (b0.toNat % 2 == 1) != k.hasBase then none
      else if k.hasBase then
        match rest with
        | g3 :: g2 :: g1 :: g0 :: rest' =>
          (parseRest k rest').map fun body =>
            { sender := lowStation (b0.toNat / 32), dest := dest,
              base := some (ofBe32 g3 g2 g1 g0), body := body }
        | _ => none
      else
        (parseRest k rest).map fun body =>
          { sender := lowStation (b0.toNat / 32), dest := dest, base := none, body := body }
  | _ => none

/-- R82: the check value agrees: the last two bytes are the remainder of those before them. -/
def checkAgrees (bytes : List Byte) : Bool :=
  bytes.drop (bytes.length - 2) == be16 (checkValue (bytes.take (bytes.length - 2)))

/-- R82: the judgement of a reception that ended at a closing delimiter, from its unstuffed bits. -/
def judge (bits : List Bool) : Ending :=
  if bits.length % 8 = 0 ∧ 48 ≤ bits.length ∧ checkAgrees (bitsBytes bits) then
    match Frame.parse (bitsBytes bits) with
    | some f => .clean f
    | none => .checkError
  else .checkError

/-! ### The receiver (R81) -/

/-- The patterns that end a reception (R81). -/
inductive LineEnd where
  | closing
  | codeError (opening : Bool)
  | abort
  | overlong
  deriving DecidableEq, Repr

/-- R81: how the line bits after an opening delimiter end a reception, with the number of bits read.
`v` and `n` are the run the last bit ended, `data` the data bits and `read` the line bits so far. A bit of
a closing delimiter counts as data until the delimiter is recognised, so that it may complete a 58th byte:
the model's choice (log entry 49). -/
def scan (v : Bool) (n data read : Nat) : List Bool → Option (LineEnd × Nat)
  | [] => none
  | b :: bs =>
    let n' := runAfter v n b
    if b ∧ n' = 5 then some (.closing, read + 1)
    else if b ∧ v = false ∧ 5 ≤ n then some (.codeError (n = 6), read + 1)
    else if b = false ∧ n' = 7 then some (.abort, read + 1)
    else
      let data' := if n = 4 ∨ 5 ≤ n' then data else data + 1
      if data' = 464 ∧ data ≠ 464 then some (.overlong, read + 1) else scan b n' data' (read + 1) bs

/-- The unstuffed bits of a frame whose closing delimiter was recognised at its `k`th line bit: the
delimiter's dominant bit and five recessive bits are not the frame's (R77). -/
def frameBits (bits : List Bool) (k : Nat) : List Bool := unstuffFrom false 0 (bits.take (k - 6))

/-- R81, R82: what line bits after an opening delimiter yield: the ending, and whether a new reception
begins at once. None while the reception goes on. -/
def receive (bits : List Bool) : Option (Ending × Bool) :=
  match scan false 0 0 0 bits with
  | none => none
  | some (.closing, k) => some (judge (frameBits bits k), false)
  | some (.codeError opening, _) => some (.checkError, opening)
  | some (.abort, _) => some (.aborted, false)
  | some (.overlong, _) => some (.overlong, false)

/-- The bits end a reception exactly at the last of them, at most one delimiter bit later (the sixth
recessive bit of a closing delimiter). -/
def endsReception (bits : List Bool) : Bool :=
  match scan false 0 0 0 bits with
  | some (.closing, k) => bits.length ≤ k + 1
  | some (_, k) => bits.length = k
  | none => false

/-! ### Frames a station can send -/

/-- A frame has the form Table 5-2 and R80 give its kind. -/
def Frame.wellFormed (f : Frame) : Bool :=
  (f.base.isSome == f.body.kind.hasBase) && (f.dest.isSome == f.body.kind.addressed) &&
    (match f.body with
    | .roll _ q _ _ => 1 ≤ q.toNat && q.toNat ≤ 12
    | .join _ q _ _ => 1 ≤ q.toNat && q.toNat ≤ 12
    | .seal l _ =>
      1 ≤ l.length && l.length ≤ 8 && l.all (fun e => 1 ≤ e.quota.toNat && e.quota.toNat ≤ 12)
    | .shut _ c a => (c == .recalled) == a.isSome
    | .snapshot t p content =>
      content.length == (if p.val < 6 then 46 else 17) &&
        content.head? == some (byteOf (16 * t + p))
    | .beacon .. | .leave _ | .absent _ | .claim .. | .shutDone .. | .restore _ | .takeover _
    | .takeoverEnd .. | .recall .. | .defer .. | .catchupAsk .. | .catchupOffer ..
    | .snapshotEnd .. => true)

end Sys2Proof.Machine
end

