-- ==== Sys2Proof/Machine/Replica.lean ====
section
/-! DEFINITION. The replica as data that frames change (Chapter 3): the quantities every station
computes from it (R47, R48), the adopter (R143), the validity of a directory-kind frame (R52), its
application (R45, R54), and sealing (R40, R125). By R46 nothing here reads anything but the replica
and the frame. -/

namespace Sys2Proof.Machine

/-- The entry of a table at an index, replaced. -/
def put {n : Nat} {α : Type} (t : Tab n α) (i : Fin n) (x : α) : Tab n α := t.set i.val x i.isLt

/-- Every entry of a table, changed by a function of its index. -/
def mapIdx {n : Nat} {α β : Type} (t : Tab n α) (f : Fin n → α → β) : Tab n β :=
  Vector.ofFn fun i => f i t[i]

/-- The slots 0 to 47, ascending. -/
def allSlots : List Slot := List.finRange 48

/-- The station numbers 0 to 7, ascending. -/
def allStations : List Station := List.finRange 8

/-- The stream contexts 0 to 63, ascending. -/
def allCtxs : List Ctx := List.finRange 64

/-! ### Reading a directory entry -/

/-- The station that holds an OPEN or CLOSING slot. -/
def DirEntry.holder? : DirEntry → Option Station
  | .opened h _ _ => some h
  | .closing h _ _ _ _ => some h
  | .unfunded | .free | .orphaned .. | .quarantined => none

/-- The kind of a slot in OPEN, CLOSING or ORPHANED. -/
def DirEntry.kind? : DirEntry → Option SlotKind
  | .opened _ k _ => some k
  | .closing _ k _ _ _ => some k
  | .orphaned _ k _ _ => some k
  | .unfunded | .free | .quarantined => none

/-- The claim serial of a slot in OPEN, CLOSING or ORPHANED. -/
def DirEntry.serial? : DirEntry → Option Gen
  | .opened _ _ g => some g
  | .closing _ _ g _ _ => some g
  | .orphaned _ _ g _ => some g
  | .unfunded | .free | .quarantined => none

/-- The slot is OPEN. -/
def DirEntry.isOpen : DirEntry → Bool
  | .opened .. => true
  | .unfunded | .free | .closing .. | .orphaned .. | .quarantined => false

/-- The slot is CLOSING. -/
def DirEntry.isClosing : DirEntry → Bool
  | .closing .. => true
  | .unfunded | .free | .opened .. | .orphaned .. | .quarantined => false

/-- The slot is ORPHANED with this former holder. -/
def DirEntry.orphanOf (h : Station) : DirEntry → Bool
  | .orphaned f _ _ _ => f == h
  | .unfunded | .free | .opened .. | .closing .. | .quarantined => false

namespace Replica

/-- The station is PRESENT in the roster. -/
def isPresent (r : Replica) (st : Station) : Bool := r.roster[st].state == .present

/-- The station holds the slot (OPEN or CLOSING). -/
def holds (r : Replica) (st : Station) (k : Slot) : Bool := r.dir[k].holder? == some st

/-- R47: the held count of a station. -/
def heldCount (r : Replica) (st : Station) : Nat := (allSlots.filter (r.holds st)).length

/-- R48: the FREE count. -/
def freeCount (r : Replica) : Nat := (allSlots.filter fun k => r.dir[k] == .free).length

/-- The budget B of a sealed replica (0 in an empty one, which has none). -/
def budget (r : Replica) : Nat := match r.params with | some p => p.b.toNat | none => 0

/-- The capacity C of a sealed replica (0 in an empty one, which has none). -/
def capacity (r : Replica) : Nat := match r.params with | some p => p.c.toNat | none => 0

/-- The PRESENT stations, ascending. -/
def presentList (r : Replica) : List Station := allStations.filter r.isPresent

/-- The requested quota R47 uses: the roster's, or a free value for a PRESENT station that an
installed snapshot shows with none (log entry 23). -/
def requested (r : Replica) (st : Station) : Nat :=
  match r.roster[st].quota with | some q => q.toNat | none => Config.quotaOfAbsentRequest

/-- R47 step 3: the visits in ascending station number, with the remainder standing. -/
def quotaWalk (r : Replica) : List Station → Nat → List (Station × Nat)
  | [], _ => []
  | st :: rest, left =>
    (st, 1 + min (r.requested st - 1) left) ::
      quotaWalk r rest (left - min (r.requested st - 1) left)

/-- R47: the effective quota of a station. -/
def quota (r : Replica) (st : Station) : Nat :=
  match (r.quotaWalk r.presentList (r.budget - r.presentList.length)).find? (fun e => e.1 == st) with
  | some e => e.2
  | none => 0

/-- R48: the deficit of a station. -/
def deficit (r : Replica) (st : Station) : Nat := r.quota st - r.heldCount st

/-- R48: the excess of a station. -/
def excess (r : Replica) (st : Station) : Int := (r.heldCount st : Int) - (r.quota st : Int)

/-- R48: the reserve a station sees. -/
def reserve (r : Replica) (me : Station) : Nat :=
  ((r.presentList.filter (· != me)).map r.deficit).sum

/-- R143: the adopter. -/
def adopter (r : Replica) : Option Station :=
  allStations.find? fun st =>
    r.isPresent st && r.roster[st].adoptDis == some false && !r.roster[st].takeoverFailed

/-- Some slot is ORPHANED with this former holder. -/
def hasOrphan (r : Replica) (h : Station) : Bool := allSlots.any fun k => r.dir[k].orphanOf h

/-- Some run names the station. -/
def runNames (r : Replica) (st : Station) : Bool := allStations.any fun h => r.runs[h] == some st

/-- The station holds an OPEN or CLOSING MIXED slot. -/
def holdsMixed (r : Replica) (st : Station) : Bool :=
  allSlots.any fun k => r.holds st k && r.dir[k].kind? == some .mixed

/-! ### Sealing (R40, R42, R125) -/

/-- R40: the directory of a replica sealed with budget `b`. -/
def sealedDir (b : Nat) : Tab 48 DirEntry :=
  Vector.ofFn fun i => if i.val < b then .free else .unfunded

/-- R42: the roster after the stations of a SEAL's list are made PRESENT, in list order. -/
def sealedRoster (l : List SealEntry) : Tab 8 RosterEntry :=
  l.foldl (fun t e => put t e.station
    { state := .present, quota := some e.quota, adoptDis := some e.adoptDis, takeoverFailed := false })
    Replica.empty.roster

/-- R37, R40, R42, R44, R45: the replica a SEAL seals. -/
def ofSeal (l : List SealEntry) (p : Params) : Replica :=
  { params := some p, dir := sealedDir p.b.toNat, roster := sealedRoster l,
    runs := Vector.replicate 8 none, gen := 0 }

/-! ### Application (R45, R52, R54) -/

/-- R43: an OPEN or CLOSING slot of this holder becomes ORPHANED, keeping kind, class, serial and
close-attempts; R148: an OPEN one enters with close-attempts 0. -/
def orphanEntry (h : Station) : DirEntry → DirEntry
  | .opened h' k g => if h' = h then .orphaned h' k g 0 else .opened h' k g
  | .closing h' k g c a => if h' = h then .orphaned h' k g a else .closing h' k g c a
  | .unfunded => .unfunded
  | .free => .free
  | .orphaned f k g a => .orphaned f k g a
  | .quarantined => .quarantined

/-- R43, R44: every slot the station holds is ORPHANED and every run naming it is emptied. -/
def orphan (r : Replica) (h : Station) : Replica :=
  { r with
    dir := mapIdx r.dir fun _ e => orphanEntry h e,
    runs := mapIdx r.runs fun _ a => if a = some h then none else a }

/-- The roster entry of a station, changed. -/
def setRoster (r : Replica) (st : Station) (f : RosterEntry → RosterEntry) : Replica :=
  { r with roster := put r.roster st (f r.roster[st]) }

/-- The directory entry of a slot, replaced. -/
def setSlot (r : Replica) (k : Slot) (e : DirEntry) : Replica := { r with dir := put r.dir k e }

/-- R102: the entry a SHUT leaves: the holder of an OPEN slot stays, with close-attempts 0; the
sender becomes holder of an ORPHANED one, with its close-attempts. -/
def shutEntry (sender : Station) (cause : ShutCause) : DirEntry → DirEntry
  | .opened h k g => .closing h k g cause 0
  | .orphaned _ k g a => .closing sender k g cause a
  | .unfunded => .unfunded
  | .free => .free
  | .closing h k g c a => .closing h k g c a
  | .quarantined => .quarantined

/-- R106: the entry a SHUT-DONE leaves. -/
def shutDoneEntry (o : ShutOutcome) (e : DirEntry) : DirEntry :=
  match o, e with
  | .closed, _ => .free
  | .quarantined, _ => .quarantined
  | .retrying, .closing h k g c _ => .closing h k g c 1
  | .retrying, e => e

/-- The effect of a directory-kind frame on a replica whose generation has been advanced (R54); the
other kinds have none. -/
def effect (r : Replica) (sender : Station) : Body → Replica
  | .claim k kind => r.setSlot k (.opened sender kind r.gen)
  | .shut k cause _ => r.setSlot k (shutEntry sender cause r.dir[k])
  | .shutDone k o => r.setSlot k (shutDoneEntry o r.dir[k])
  | .restore k => r.setSlot k .free
  | .absent st => (r.orphan st).setRoster st fun e => { e with state := .absent }
  | .leave _ => r.setRoster sender fun e => { e with state := .departed }
  | .join _ q a _ =>
    (if r.isPresent sender then r.orphan sender else r).setRoster sender fun _ =>
      { state := .present, quota := some q, adoptDis := some a, takeoverFailed := false }
  | .takeover h => { r with runs := put r.runs h (some sender) }
  | .takeoverEnd h o =>
    let r' := { r with runs := put r.runs h none }
    match o with
    | .failed => r'.setRoster sender fun e => { e with takeoverFailed := true }
    | .done => r'
  | .roll .. => r
  | .seal .. => r
  | .beacon .. => r
  | .recall .. => r
  | .defer .. => r
  | .catchupAsk .. => r
  | .catchupOffer .. => r
  | .snapshot .. => r
  | .snapshotEnd .. => r

/-- R45: the generation is advanced, then the effect is made; frames that are not directory-kind
change nothing. -/
def apply (r : Replica) (sender : Station) (b : Body) : Replica :=
  if b.kind.isDirectory then ({ r with gen := r.gen + 1 } : Replica).effect sender b else r

/-- R52: the validity of a directory-kind frame against a replica. JOIN is not checked. -/
def valid (r : Replica) (sender : Station) : Body → Bool
  | .claim k kind =>
    k.val < r.budget && r.dir[k] == .free &&
      (match kind with | .mixed => !r.holdsMixed sender | .normal _ => true)
  | .shut k cause _ =>
    match cause with
    | .adopted =>
      match r.dir[k] with
      | .orphaned f _ _ _ => r.runs[f] == some sender
      | .unfunded | .free | .opened .. | .closing .. | .quarantined => false
    | .full | .idle | .recalled | .pressure | .leaving | .fault =>
      match r.dir[k] with
      | .opened h _ _ => h == sender
      | .unfunded | .free | .closing .. | .orphaned .. | .quarantined => false
  | .shutDone k o =>
    match r.dir[k] with
    | .closing h _ _ _ a =>
      h == sender &&
        (match o with | .closed => true | .retrying => a == 0 | .quarantined => a == 1)
    | .unfunded | .free | .opened .. | .orphaned .. | .quarantined => false
  | .restore k => r.dir[k] == .quarantined
  | .absent st => r.isPresent st && st != sender
  | .leave _ => r.heldCount sender == 0 && !r.runNames sender
  | .takeover h => r.runs[h] == none && r.hasOrphan h && r.adopter == some sender
  | .takeoverEnd h o =>
    r.runs[h] == some sender && (match o with | .done => !r.hasOrphan h | .failed => true)
  | .join .. => true
  | .roll .. => false
  | .seal .. => false
  | .beacon .. => false
  | .recall .. => false
  | .defer .. => false
  | .catchupAsk .. => false
  | .catchupOffer .. => false
  | .snapshot .. => false
  | .snapshotEnd .. => false

/-- R52: a MEMBER station applies a frame from a PRESENT sender when its base generation is the
replica's and its effect is valid; a JOIN always. -/
def applies (r : Replica) (f : Frame) : Bool :=
  f.body.kind == .join || (f.base == some r.gen && r.valid f.sender f.body)

end Replica

/-! ### Snapshots (Table 5-3, R133, R137) -/

/-- Table 5-3: the 45 bits of a directory entry, as a number. -/
def DirEntry.pack : DirEntry → Nat
  | .unfunded => 0
  | .free => 1 * 2 ^ 42
  | .opened h k g => 2 * 2 ^ 42 + h * 2 ^ 39 + kindBits k + g.toNat
  | .closing h k g c a => 3 * 2 ^ 42 + h * 2 ^ 39 + kindBits k + a * 2 ^ 35 + c.code * 2 ^ 32 + g.toNat
  | .orphaned f k g a => 4 * 2 ^ 42 + f * 2 ^ 39 + kindBits k + a * 2 ^ 35 + g.toNat
  | .quarantined => 5 * 2 ^ 42
where
  /-- Kind and class, bits 38 to 36 of the 45. -/
  kindBits : SlotKind → Nat
    | .normal c => c * 2 ^ 36
    | .mixed => 2 ^ 38

/-- The shut-cause of the three bits of a snapshot entry: code 0 is a free value (log entry 22). -/
def snapshotCause (n : Nat) : ShutCause :=
  match ShutCause.ofCode n with
  | some c => c
  | none =>
    match ShutCause.ofCode (Config.causeOfSnapshotCodeZero.val + 1) with
    | some c => c
    | none => .full

/-- Table 5-3: the directory entry of 45 bits; none for a state code that is not of the table. -/
def DirEntry.unpack (n : Nat) : Option DirEntry :=
  let st : Station := ⟨n / 2 ^ 39 % 8, Nat.mod_lt _ (by decide)⟩
  let kind : SlotKind :=
    if n / 2 ^ 38 % 2 = 1 then .mixed else .normal ⟨n / 2 ^ 36 % 4, Nat.mod_lt _ (by decide)⟩
  let a : Fin 2 := ⟨n / 2 ^ 35 % 2, Nat.mod_lt _ (by decide)⟩
  let g : Gen := BitVec.ofNat 32 (n % 2 ^ 32)
  match n / 2 ^ 42 % 8 with
  | 0 => some .unfunded
  | 1 => some .free
  | 2 => some (.opened st kind g)
  | 3 => some (.closing st kind g (snapshotCause (n / 2 ^ 32 % 8)) a)
  | 4 => some (.orphaned st kind g a)
  | 5 => some .quarantined
  | _ => none

/-- A number as `n` bytes, most significant first. -/
def natBytes : Nat → Nat → List Byte
  | 0, _ => []
  | n + 1, x => byteOf (x / 256 ^ n) :: natBytes n x

/-- Bytes as a number, most significant first. -/
def bytesNat (l : List Byte) : Nat := l.foldl (fun x b => 256 * x + b.toNat) 0

/-- The eight directory entries of part `k`, packed back to back into 45 bytes. -/
def packPart (r : Replica) (k : Nat) : List Byte :=
  natBytes 45 ((List.range 8).foldl
    (fun x j => x * 2 ^ 45 + (match r.dir[8 * k + j]? with | some e => e.pack | none => 0)) 0)

/-- Table 5-3: the code of a roster state. -/
def RosterState.code : RosterState → Nat
  | .unknown => 0
  | .present => 1
  | .absent => 2
  | .departed => 3

/-- Table 5-3: a roster byte. -/
def RosterEntry.pack (e : RosterEntry) : Byte :=
  byteOf (64 * e.state.code + 4 * (match e.quota with | some q => q.toNat | none => 0) +
    2 * (match e.adoptDis with | some a => a.toNat | none => 0) + e.takeoverFailed.toNat)

/-- Table 5-3: the roster entry of a byte; requested-quota bits 0 read as absent. -/
def RosterEntry.unpack (b : Byte) : RosterEntry :=
  let n := b.toNat
  { state := (match n / 64 with | 0 => .unknown | 1 => .present | 2 => .absent | _ => .departed),
    quota := if n / 4 % 16 = 0 then none else some (BitVec.ofNat 4 (n / 4 % 16)),
    adoptDis := if n / 4 % 16 = 0 then none else some (n / 2 % 2 == 1),
    takeoverFailed := n % 2 == 1 }

/-- Table 5-3: the nibble of a run. -/
def runNibble (a : Option Station) : Nat := match a with | some s => 8 + s.val | none => 0

/-- Table 5-3: the run of a nibble. -/
def runOfNibble (n : Nat) : Option Station :=
  if n / 8 % 2 = 1 then some ⟨n % 8, Nat.mod_lt _ (by decide)⟩ else none

/-- Part 6: roster bytes, run bytes, B, C and P. -/
def packTail (r : Replica) : List Byte :=
  (allStations.map fun st => r.roster[st].pack) ++
    ([0, 1, 2, 3].map fun j => byteOf (16 * runNibble r.runs[(2 * j : Fin 8)] + runNibble r.runs[(2 * j + 1 : Fin 8)])) ++
    (match r.params with | some p => p.bytes | none => [0, 0, 0, 0])

/-- The bodies of the seven SNAPSHOT parts of a replica, for a request tag. -/
def snapshotParts (tag : ReqTag) (r : Replica) : List (List Byte) :=
  (List.range 7).map fun k => byteOf (16 * tag + k) :: (if k < 6 then packPart r k else packTail r)

/-- R79, Table 5-3: the check sum over the bodies of the parts, in part order. -/
def snapshotSum (parts : List (List Byte)) : BitVec 16 := checkValue parts.flatten

/-- The eight entries of 45 bytes, none where a state code is not of Table 5-3. -/
def unpackPart (content : List Byte) : List (Option DirEntry) :=
  (List.range 8).map fun j => DirEntry.unpack (bytesNat content / 2 ^ (45 * (7 - j)) % 2 ^ 45)

/-- The directory of parts 0 to 5: none where a state code is not of Table 5-3. -/
def unpackDir (parts : List (List Byte)) : Option (Tab 48 DirEntry) :=
  let l := (parts.take 6).flatMap fun p => unpackPart (p.drop 1)
  if l.length = 48 ∧ l.all Option.isSome then
    some (Vector.ofFn fun i => match l[i.val]? with | some (some e) => e | _ => .unfunded)
  else none

/-- The replica that stored parts describe, at generation `g`, without the checks of R133 on it. -/
def unpackSnapshot (parts : List (List Byte)) (g : Gen) : Option Replica :=
  match unpackDir parts, (parts[6]?).map (List.drop 1) with
  | some dir, some (r0 :: r1 :: r2 :: r3 :: r4 :: r5 :: r6 :: r7 :: n0 :: n1 :: n2 :: n3 :: [b, c1, c0, p]) =>
    some
      { params := some (paramsOf b c1 c0 p), dir := dir,
        roster := #v[RosterEntry.unpack r0, RosterEntry.unpack r1, RosterEntry.unpack r2,
          RosterEntry.unpack r3, RosterEntry.unpack r4, RosterEntry.unpack r5, RosterEntry.unpack r6,
          RosterEntry.unpack r7],
        runs := #v[runOfNibble (n0.toNat / 16), runOfNibble n0.toNat, runOfNibble (n1.toNat / 16),
          runOfNibble n1.toNat, runOfNibble (n2.toNat / 16), runOfNibble n2.toNat,
          runOfNibble (n3.toNat / 16), runOfNibble n3.toNat],
        gen := g }
  | _, _ => none

/-- R133: the snapshot is well formed. -/
def Replica.snapshotOk (r : Replica) : Bool :=
  match r.params with
  | none => false
  | some p =>
    8 ≤ p.b.toNat && p.b.toNat ≤ 48 && 1024 ≤ p.c.toNat && 1 ≤ p.p.toNat && p.p.toNat ≤ 16 &&
      allSlots.all fun k =>
        ((r.dir[k] == .unfunded) == decide (p.b.toNat ≤ k.val)) &&
          (match r.dir[k].holder? with | some h => r.isPresent h | none => true)

end Sys2Proof.Machine
end

