-- ==== Sys2Proof/Machine/Ops.lean ====
section
/-! DEFINITION. The shared operations on the station's state: block updates, notices and fault
reports (R183, R184), the transmit queue (R86, R91), the contexts and their idle timers (R25,
R30), residency, and the delivery of results (R7). -/

namespace Sys2Proof.Machine

/-! ### Block updates -/

def State.onIntake (s : State) (f : Intake → Intake) : State := { s with intake := f s.intake }
def State.onCls (s : State) (f : Classifier → Classifier) : State := { s with cls := f s.cls }
def State.onStr (s : State) (f : Streams → Streams) : State := { s with str := f s.str }
def State.onPlc (s : State) (f : Placement → Placement) : State := { s with plc := f s.plc }
def State.onDir (s : State) (f : Directory → Directory) : State := { s with dir := f s.dir }
def State.onBus (s : State) (f : Bus → Bus) : State := { s with bus := f s.bus }
def State.onMem (s : State) (f : Members → Members) : State := { s with mem := f s.mem }
def State.onLink (s : State) (f : Link → Link) : State := { s with link := f s.link }
def State.onLine (s : State) (f : Lines → Lines) : State := { s with line := f s.line }
def State.onFlt (s : State) (f : Faults → Faults) : State := { s with flt := f s.flt }

/-! ### Counts and durations -/

/-- A count that stays at its greatest value once it reaches it. -/
def satAdd (top x n : Nat) : Nat := min (x + n) top

/-- Ticks of 1/8 ms in P: P is counted in steps of 0.5 ms (R178). 0 before CONFIGURE, when no timer
that is a multiple of P can start. -/
def State.pTicks (s : State) : Nat :=
  match s.mem.cfg with | some c => 4 * c.params.p.toNat | none => 0

/-- The idle time I in ticks (R30). -/
def State.idleTicks (s : State) : Nat := match s.mem.cfg with | some c => 8 * c.idleMs | none => 0

/-- The deadline D in ticks (R28). -/
def State.deadlineTicks (s : State) : Nat :=
  match s.mem.cfg with | some c => 8 * c.deadlineMs | none => 0

/-- The close timeout in ticks (R103, R178). -/
def State.closeTicks (s : State) : Nat :=
  match s.mem.cfg with | some c => c.closeTimeout * s.pTicks | none => 0

/-! ### Notices and faults (R183, R184) -/

/-- R183: marks the newest notice. -/
def markLast : List Notice → List Notice
  | [] => []
  | [n] => [{ n with lost := true }]
  | n :: m :: rest => n :: markLast (m :: rest)

/-- R183: a notice joins the queue, or is dropped and counted as lost. -/
def Faults.post (f : Faults) (b : NoticeBody) : Faults :=
  if f.notices.length < 16 then { f with notices := f.notices ++ [{ body := b, lost := false }] }
  else { f with notices := markLast f.notices, lost := satAdd 65535 f.lost 1 }

/-- A notice is posted. -/
def State.post (s : State) (b : NoticeBody) : State := s.onFlt (·.post b)

/-- The place of a cause in the table of R184. -/
def Cause.index : Cause → Fin 17
  | .busCheck => 0
  | .busOverrun => 1
  | .busAbort => 2
  | .genSkew => 3
  | .beaconSkew => 4
  | .unexpectedAnswer => 5
  | .recallExhausted => 6
  | .catchupFailed => 7
  | .catchupExhausted => 8
  | .namedAbsent => 9
  | .paramMismatch => 10
  | .openFailed => 11
  | .placeFailed => 12
  | .closeFailed => 13
  | .closeTimeout => 14
  | .takeoverFailed => 15
  | .unknownCompletion => 16

/-- R184: a fault report: the count, then the capture with its FAULT notice or the second-fault mark. -/
def Faults.report (f : Faults) (r : FaultRec) : Faults :=
  let f1 := { f with counts := put f.counts r.cause.index (satAdd 65535 f.counts[r.cause.index] 1) }
  match f.first with
  | none => ({ f1 with first := some r } : Faults).post (.fault r)
  | some _ => { f1 with second := true }

/-- A block reports a fault; the report carries the generation of the replica at that moment. -/
def State.report (s : State) (c : Cause) (slot : Option Byte := none) (stream : Option Ctx := none)
    (peer : Option Station := none) (kind : Option Kind := none) : State :=
  s.onFlt (·.report
    { cause := c, slot := slot, stream := stream, peer := peer, kind := kind, gen := s.dir.rep.gen })

/-- A slot as the byte a report names. -/
def slotByte (k : Slot) : Option Byte := some (byteOf k.val)

/-- R185: a request is loaded into the last-request record, unless it is frozen. -/
def Faults.loadRequest (f : Faults) (r : LastReq) : Faults :=
  if f.frozen then f else { f with lastReq := some r }

/-- R116, R132: the record's target and tries follow the request, unless it is frozen or has been
replaced by a request of another kind or tag. After CLEAR-FAULT (R186) the record follows a request that
began while it was frozen only where kind and tag happen to be the record's: the model's choice (log
entry 52). -/
def Faults.followRequest (f : Faults) (ask : Bool) (tag : ReqTag) (g : LastReq → LastReq) : Faults :=
  if f.frozen then f
  else
    match f.lastReq with
    | some r => if r.ask = ask ∧ r.tag = tag then { f with lastReq := some (g r) } else f
    | none => f

/-- R185: the last-request record freezes. -/
def Faults.freeze (f : Faults) : Faults := { f with frozen := true }

/-! ### The transmit queue (R86, R91) -/

/-- R86: a frame joins the tail; a producer whose frame finds eight entries, or frames held before it,
holds it. -/
def Bus.queue (b : Bus) (q : QFrame) : Bus :=
  if b.tx.length < 8 ∧ b.held = [] then { b with tx := b.tx ++ [q] }
  else { b with held := b.held ++ [q] }

/-- A frame to ALL is queued. -/
def State.queueFrame (s : State) (b : Body) : State := s.onBus (·.queue { dest := none, body := b })

/-- A frame to one station is queued. -/
def State.queueTo (s : State) (d : Station) (b : Body) : State :=
  s.onBus (·.queue { dest := some d, body := b })

/-- R86, R91: the frames a test picks are withdrawn, from any position and from their producers'
hands. A head on the medium stays until its attempt ends, marked. -/
def Bus.withdraw (b : Bus) (p : QFrame → Bool) : Bus :=
  match b.sending, b.tx with
  | some sg, h :: rest =>
    { b with tx := h :: rest.filter (fun q => !p q), held := b.held.filter (fun q => !p q),
             sending := some { sg with withdrawn := sg.withdrawn || p h } }
  | _, _ => { b with tx := b.tx.filter (fun q => !p q), held := b.held.filter (fun q => !p q) }

/-- R91, R151: the frames a test picks are withdrawn, but for a head on the medium, which stays as it is
and unmarked. -/
def Bus.withdrawUnsent (b : Bus) (p : QFrame → Bool) : Bus :=
  match b.sending, b.tx with
  | some _, h :: rest =>
    { b with tx := h :: rest.filter (fun q => !p q), held := b.held.filter (fun q => !p q) }
  | _, _ => b.withdraw p

/-- The frames a test of their bodies picks are withdrawn. -/
def State.withdraw (s : State) (p : Body → Bool) : State := s.onBus (·.withdraw fun q => p q.body)

/-- The frames that wait: queued or held, but for a head on the medium that was withdrawn. -/
def Bus.waiting (b : Bus) : List QFrame :=
  (match b.sending, b.tx with
    | some sg, _ :: rest => if sg.withdrawn then rest else b.tx
    | _, _ => b.tx) ++ b.held

/-- Some waiting frame has a body the test picks. -/
def State.isQueued (s : State) (p : Body → Bool) : Bool := s.bus.waiting.any fun q => p q.body

/-- The head leaves the transmit queue. -/
def Bus.popTx (b : Bus) : Bus := { b with tx := b.tx.drop 1 }

/-! ### The replica as this station sees it -/

/-- The station's own number. -/
def State.me (s : State) : Station := s.mem.stn

/-- The station holds the slot. -/
def State.holdsSlot (s : State) (k : Slot) : Bool := s.dir.rep.holds s.me k

/-- The station's SHUT for a slot it holds has been applied: the replica shows it CLOSING under it. -/
def State.shutApplied (s : State) (k : Slot) : Bool :=
  s.holdsSlot k && s.dir.rep.dir[k].isClosing

/-- R37: the replica is replaced. -/
def State.setRep (s : State) (r : Replica) : State := s.onDir fun d => { d with rep := r }

/-- A holding extension is replaced. -/
def State.setExt (s : State) (k : Slot) (x : Option Ext) : State :=
  s.onDir fun d => { d with ext := put d.ext k x }

/-- The holding extension of a slot, when there is one, is changed. -/
def State.onExt (s : State) (k : Slot) (f : Ext → Ext) : State :=
  match s.dir.ext[k] with | some x => s.setExt k (some (f x)) | none => s

/-- R49: the extension the station's own CLAIM creates. -/
def Ext.fresh (g : Gen) : Ext :=
  { serial := g, readiness := .awaitingOpen, cursor := 0, residents := [], inFlight := 0,
    lastFill := none, closeOrderIssued := false, shutDue := none, shutRecall := none,
    closeReport := none, shutSent := false, reportSent := none }

/-- R49, R134: the extension of a CLOSING slot the station never filled: READY at cursor C. -/
def Ext.forClose (g : Gen) (capacity : Nat) : Ext :=
  { Ext.fresh g with readiness := .ready, cursor := capacity }

/-! ### Stream contexts (R18, R25, R30) -/

/-- R30: the idle timer of a context runs: contexts 1 to 63, IDLE or BOUND, nothing pending, nothing
in flight. -/
def Context.quiet (c : Ctx) (x : Context) : Bool :=
  c != 0 && (x.state == .idle || x.state == .bound) && x.pending.isEmpty && x.inFlight == 0

/-- R30: the idle timer after a change from `old` to `new`: it goes on where the conditions held and
the state stays, starts with the full I where they come to hold, and stops otherwise. -/
def idleAfter (full : Nat) (c : Ctx) (old new : Context) : Option Nat :=
  if new.quiet c then
    if old.quiet c ∧ old.state = new.state ∧ old.idle.isSome then old.idle else some full
  else none

/-- R63: a claimant that is no longer WAITING is cleared from the claim list. -/
def clearClaimant (c : Ctx) (x : Context) (l : List ClaimEntry) : List ClaimEntry :=
  if x.state = .waiting then l
  else l.map fun e => if e.claimant = some c then { e with claimant := none } else e

/-- A context is replaced; its idle timer and the claims that name it follow (R30, R63). -/
def State.setCtx (s : State) (c : Ctx) (x : Context) : State :=
  { s with
    str := { s.str with
      ctxs := put s.str.ctxs c { x with idle := idleAfter s.idleTicks c s.str.ctxs[c] x } },
    plc := { s.plc with claims := clearClaimant c x s.plc.claims } }

/-- A context is changed. -/
def State.onCtx (s : State) (c : Ctx) (f : Context → Context) : State := s.setCtx c (f s.str.ctxs[c])

/-- R34: a counter of a context increases. -/
def sat32 (x n : Nat) : Nat := satAdd 4294967295 x n

/-- The counters of a context are changed. -/
def State.onCounters (s : State) (c : Ctx) (f : Counters → Counters) : State :=
  s.onStr fun t => { t with ctxs := put t.ctxs c { t.ctxs[c] with counters := f t.ctxs[c].counters } }

/-- R34: the refused counter rises. -/
def State.countRefused (s : State) (c : Ctx) : State :=
  s.onCounters c fun n => { n with refused := sat32 n.refused 1 }

/-- R22: of two acceptance numbers, `a` is the older: `b` lies fewer than 32,768 steps ahead. -/
def older (a b : BitVec 16) : Bool := a != b && (b - a).toNat < 32768

/-- R25: the state of a context that loses its residency: WAITING with entries pending, else IDLE. -/
def Context.afterResidency (x : Context) : Context :=
  { x with state := if x.pending.isEmpty then .idle else .waiting, slot := none }

/-- The stream leaves the residents of a slot (R50). -/
def State.dropResident (s : State) (k : Slot) (c : Ctx) : State :=
  s.onExt k fun x => { x with residents := x.residents.filter (· != c) }

/-- R25: the end of residency of a BOUND stream; any other context is left as it is. -/
def State.endResidency (s : State) (c : Ctx) : State :=
  match s.str.ctxs[c].state, s.str.ctxs[c].slot with
  | .bound, some (k, _) => (s.dropResident k c).onCtx c Context.afterResidency
  | _, _ => s

/-- R25: a WAITING stream is granted a held slot: BOUND, resident at the end. -/
def State.grant (s : State) (c : Ctx) (k : Slot) : State :=
  match s.dir.ext[k] with
  | some x =>
    (s.setExt k (some { x with residents := x.residents ++ [c] })).onCtx c fun t =>
      { t with state := .bound, slot := some (k, x.serial) }
  | none => s

/-! ### Shut decisions (R72) -/

/-- R50, R72: a SHUT frame for a slot, with the tag and requester of shut-recall for RECALLED. -/
def shutBody (k : Slot) (x : Ext) (c : ShutCause) : Body :=
  .shut k c (if c = .recalled then x.shutRecall else none)

/-- R72: the station decides a shut of a held slot, for a recall with its tag and requester. The
first cause stands, and a slot whose SHUT has been applied receives none. -/
def State.decideShut (s : State) (k : Slot) (c : ShutCause)
    (recallOf : Option (ReqTag × Station) := none) : State :=
  match s.dir.ext[k] with
  | none => s
  | some x =>
    if x.shutDue.isSome ∨ s.shutApplied k then s
    else
      let x' := { x with shutDue := some c, shutRecall := recallOf, shutSent := false }
      let s1 := x.residents.foldl State.endResidency (s.setExt k (some x'))
      if s.mem.state = .member then s1.queueFrame (shutBody k x' c) else s1

/-- R25, R74: a stream that has given up its residency leaves the slot's residents; a NORMAL slot left
without residents is shut IDLE. -/
def State.leaveSlot (s : State) (c : Ctx) (k : Slot) : State :=
  let s1 := s.dropResident k c
  match s1.dir.ext[k], s1.dir.rep.dir[k].kind? with
  | some x, some (.normal _) => if x.residents = [] then s1.decideShut k .idle else s1
  | _, _ => s1

/-! ### Results (R7, R22, R70) -/

/-- R7: the result queue takes a result at once: it has a free entry and no result waits. -/
def Intake.hasRoom (i : Intake) : Bool := i.results.length < 32 && i.waiters.isEmpty

/-- R22: a refused descriptor with no extent issued: its result enters the result queue, or waits in
its pending store entry. -/
def State.deliver (s : State) (r : ResultRec) : State :=
  s.onIntake fun i =>
    if i.hasRoom then { i with results := i.results ++ [r] }
    else { i with waiters := i.waiters ++ [.store r] }

/-- A REFUSED result with no extents. -/
def refusal (tag : BitVec 16) (why : Reason) (c : Option Ctx) : ResultRec :=
  { tag := tag, status := .refused why, stream := c, extents := [] }

/-- R70: the completion table entries of a descriptor, from one of them: extent 1 and its tag, and
extent 2 where it has been issued. -/
def Placement.parts (p : Placement) (t : DTag) : Option (DTag × CompEntry × Option (DTag × CompEntry)) :=
  match p.comp[t] with
  | none => none
  | some e =>
    match e.second, e.partner with
    | false, none => some (t, e, none)
    | false, some t2 => some (t, e, (p.comp[t2]).map (fun e2 => (t2, e2)))
    | true, some t1 => (p.comp[t1]).map fun e1 => (t1, e1, some (t, e))
    | true, none => none

/-- The failed-mark of an extent. -/
def CompEntry.listed (e : CompEntry) : Extent × Bool := (e.extent, e.outcome == .failed)

/-- R70: the result the entries of a descriptor give, when every issued extent is decided and a split
descriptor's tail is no longer WAITING. -/
def assemble (e1 : CompEntry) (e2 : Option CompEntry) : Option ResultRec :=
  let rec1 (st : Status) (l : List (Extent × Bool)) : ResultRec :=
    { tag := e1.tag, status := st, stream := some e1.stream, extents := l }
  match e1.outcome, e2 with
  | .outstanding, _ => none
  | o1, none =>
    match e1.tail with
    | some .waiting => none
    | some .issued => none
    | some (.refused why) =>
      if o1 = .failed then some (rec1 .placeFailed [e1.listed])
      else
        match why with
        | some r => some (rec1 (.refused r) [e1.listed])
        | none => some (rec1 .placeFailed [e1.listed])
    | none => some (rec1 (if o1 = .failed then .placeFailed else .placed) [e1.listed])
  | o1, some x2 =>
    match x2.outcome with
    | .outstanding => none
    | o2 =>
      some (rec1 (if o1 = .failed ∨ o2 = .failed then .placeFailed else .placed)
        [e1.listed, x2.listed])

/-- R34: the counter a result raises when it is assembled. -/
def State.countResult (s : State) (c : Ctx) (st : Status) : State :=
  match st with
  | .placed => s.onCounters c fun n => { n with placed := sat32 n.placed 1 }
  | .refused _ => s.countRefused c
  | .placeFailed => s

/-- R70: the entries of a descriptor are freed and their tags returned. -/
def Placement.freeParts (p : Placement) (t : DTag) : Placement :=
  match p.parts t with
  | some (t1, _, some (t2, _)) => { p with comp := put (put p.comp t1 none) t2 none }
  | some (t1, _, none) => { p with comp := put p.comp t1 none }
  | none => p

/-- R70: the result of a placed descriptor is assembled if it can be; it enters the result queue, or is
held in the entry of extent 1. -/
def State.tryAssemble (s : State) (t : DTag) : State :=
  match s.plc.parts t with
  | none => s
  | some (t1, e1, e2) =>
    match e1.result, assemble e1 (e2.map (·.2)) with
    | none, some r =>
      let s1 := s.countResult e1.stream r.status
      if s1.intake.hasRoom then
        (s1.onIntake fun i => { i with results := i.results ++ [r] }).onPlc (·.freeParts t1)
      else
        (s1.onIntake fun i => { i with waiters := i.waiters ++ [.completion t1] }).onPlc fun p =>
          { p with comp := put p.comp t1 (some { e1 with result := some r }) }
    | _, _ => s

/-- The tag of the entry of extent 1 of the descriptor whose tail is in a stream's list: the one with
that stream and a WAITING tail. -/
def Placement.tailOwner (p : Placement) (c : Ctx) : Option DTag :=
  (List.finRange 256).find? fun t =>
    match p.comp[t] with
    | some e => e.stream == c && e.tail == some .waiting
    | none => false

/-- R70: a tail that left its list refused: the tail field of extent 1 becomes REFUSED, and the result
is assembled when extent 1 is decided. -/
def State.refuseTail (s : State) (c : Ctx) (why : Option Reason) : State :=
  match s.plc.tailOwner c with
  | none => s
  | some t =>
    (s.onPlc fun p =>
      { p with comp := put p.comp t ((p.comp[t]).map fun e => { e with tail := some (.refused why) }) }
    ).tryAssemble t

/-- R31, R35: an entry that has left its list is refused: a tail is handed to the placement engine, and
any other descriptor receives a REFUSED result with no extents, which its context counts. -/
def State.refuseEntry (s : State) (c : Ctx) (why : Reason) (e : PendingEntry) : State :=
  match e.headExtent with
  | some _ => s.refuseTail c (some why)
  | none => (s.countRefused c).deliver (refusal e.tag why (some c))

/-! ### Membership changes (R87, R92, R96, R120) -/

/-- R87: the kinds a membership state permits to be transmitted. -/
def permitted (m : MemberState) (k : Kind) : Bool :=
  match m with
  | .census => k == .roll || k == .seal
  | .listen | .joining => k == .join
  | .catchup => k == .beacon || k == .catchupAsk || k == .defer
  | .member => !(k == .roll || k == .seal || k == .join || k == .catchupAsk)
  | .unconfigured | .isolated | .barred | .dormant => false

/-- R92: the membership states in which the beacon timer runs. -/
def MemberState.beacons : MemberState → Bool
  | .member | .catchup => true
  | .unconfigured | .census | .listen | .joining | .isolated | .barred | .dormant => false

/-- R92, R96: the beacon timer on a change of membership state. -/
def beaconAfter (full : Nat) (old new : MemberState) (b : BeaconTimer) : BeaconTimer :=
  if new.beacons then (if old.beacons then b else .running full) else .stopped

/-- R87, R96: the bus controller on a change of membership state: the gate, the beacon timer, and the
emptied queues. -/
def Bus.enter (b : Bus) (full : Nat) (old new : MemberState) : Bus :=
  let b1 := { b.withdraw (fun q => !permitted new q.body.kind) with
    beacon := beaconAfter full old new b.beacon }
  match new with
  | .isolated | .barred => { b1 with held := [], rx := [] }
  | .dormant => { b1 with tx := [], held := [], rx := [], sending := none, receiver := .off }
  | .unconfigured | .census | .listen | .joining | .catchup | .member => b1

/-- R120: the membership state changes: the bus controller follows, and a MEMBERSHIP notice is posted. -/
def State.enter (s : State) (m : MemberState) : State :=
  let s1 := (s.onMem fun x => { x with state := m }).onBus (·.enter s.pTicks s.mem.state m)
  s1.post (.membership m s1.mem.attempts)

/-! ### The offer on the outbound lane (R181) and the waiting intake head (R7) -/

/-- R181: the record the lane offers next. -/
def State.nextOffer (s : State) : Option Offer :=
  if s.intake.response.isSome then some .response
  else if s.flt.notices ≠ [] then some .notice
  else if s.intake.results ≠ [] then some .result
  else none

/-- R181: whenever the lane has no record on offer, the next one is chosen. -/
def State.settleOffer (s : State) : State :=
  if s.intake.offer = none then s.onIntake fun i => { i with offer := s.nextOffer } else s

end Sys2Proof.Machine
end

