-- ==== Sys2Proof/Machine/Classify.lean ====
section
/-! DEFINITION. Validation and classification of the intake head (R5 to R13), the hand-off to the
stream table (R19 to R24), and the wrapper every command's meaning runs in. -/

namespace Sys2Proof.Machine

/-- Where an accepted descriptor goes (R13). -/
inductive Dest where
  | common
  | held (c : Ctx)
  | newKey (k : Key)
  deriving DecidableEq, Repr

/-- The outcome the head of the intake queue would receive (R5): a refusal with its reason and stream,
or an acceptance with its destination and class. -/
inductive HeadOutcome where
  | refuse (why : Reason) (c : Option Ctx)
  | accept (d : Dest) (cls : LifeClass)
  deriving DecidableEq, Repr

/-- R8: an entry matches a descriptor. -/
def ClassEntry.hits (e : ClassEntry) (d : Descriptor) : Bool :=
  e.enabled && (e.function == none || e.function == some d.function) &&
    (e.nspace == none || e.nspace == some d.nspace)

/-- R8: the first matching entry decides. -/
def Classifier.decide (k : Classifier) (d : Descriptor) : Option ClassEntry :=
  k.entries.toList.find? fun e => e.hits d

/-- R9: the key a mode forms; none for COMMON and REFUSE. -/
def formKey (m : MatchMode) (d : Descriptor) : Option Key :=
  match m with
  | .perFunction => some { mode := m, function := d.function, nspace := none, hint := none }
  | .perNamespace => some { mode := m, function := d.function, nspace := some d.nspace, hint := none }
  | .perHint => some { mode := m, function := d.function, nspace := none, hint := d.hint }
  | .perNamespaceHint =>
    some { mode := m, function := d.function, nspace := some d.nspace, hint := d.hint }
  | .common => none
  | .refuse => none

/-- R10: the class the hint map gives a descriptor that carries a hint, else the one given. -/
def Classifier.classOf (k : Classifier) (d : Descriptor) (dflt : LifeClass) : LifeClass :=
  match d.hint with
  | some h => k.hintMap[h.toFin]
  | none => dflt

/-- R19: the context that holds a key. -/
def Streams.lookup (t : Streams) (k : Key) : Option Ctx :=
  allCtxs.find? fun c => c != 0 && t.ctxs[c].state != .unassigned && t.ctxs[c].key == some k

/-- R6, check 3: descriptors are refused NOT-MEMBER. -/
def State.refusesMembers (s : State) : Bool :=
  !(s.mem.state == .member || s.mem.state == .catchup) || s.mem.departing

/-- R8 to R13: the classifier's outcome for a descriptor that passed validation. -/
def State.classify (s : State) (d : Descriptor) : HeadOutcome :=
  match s.cls.decide d with
  | none => .accept .common (s.cls.classOf d 0)
  | some e =>
    match e.mode with
    | .refuse => .refuse .blocked none
    | .common => .accept .common (s.cls.classOf d 0)
    | m =>
      match formKey m d with
      | none => .accept .common (s.cls.classOf d 0)
      | some k =>
        match s.str.lookup k with
        | none => .accept (.newKey k) (s.cls.classOf d e.defaultClass)
        | some c =>
          if s.str.ctxs[c].state = .draining ∨ s.str.ctxs[c].state = .parked then
            .refuse .parked (some c)
          else .accept (.held c) (s.cls.classOf d e.defaultClass)

/-- R6: the three checks in their order, then the classifier. -/
def State.headOutcome (s : State) (d : Descriptor) : HeadOutcome :=
  if d.length.toNat = 0 ∨ 256 < d.length.toNat then .refuse .oversize none
  else if s.line.warned then .refuse .powerFail none
  else if s.refusesMembers then .refuse .notMember none
  else s.classify d

/-- R7: the intake head waits for room in the result queue: its outcome is a refusal, and the result
queue is full or other results wait. A head whose outcome is an acceptance leaves the waiters. -/
def State.settleHead (s : State) : State :=
  let refusable :=
    match s.intake.queue with
    | d :: _ => (match s.headOutcome d with | .refuse .. => true | .accept .. => false)
    | [] => false
  if refusable then
    if s.intake.hasRoom ∨ .intakeHead ∈ s.intake.waiters then s
    else s.onIntake fun i => { i with waiters := i.waiters ++ [.intakeHead] }
  else s.onIntake fun i => { i with waiters := i.waiters.filter (· != .intakeHead) }

/-- R176: a command's effect outside a reset; during one the station takes no record and no event.
After every effect the waiting intake head and the outbound offer are brought up to date. -/
def live (s : State) (f : State → State) : Host.Outcome State Fault Refusal :=
  .next (if s.rst.isSome then s else (f s).settleHead.settleOffer)

/-! ### The hand-off to the stream table (R20 to R24) -/

/-- R22: the entries of the pending store that are occupied: those in lists, and those that hold a
result. -/
def State.storeUsed (s : State) : Nat :=
  (allCtxs.map fun c => s.str.ctxs[c].pending.length).sum +
    (s.intake.waiters.filter fun w => match w with | .store _ => true | _ => false).length

/-- R20: the lowest-numbered UNASSIGNED context from 1 to 63. -/
def Streams.freeCtx (t : Streams) : Option Ctx :=
  allCtxs.find? fun c => c != 0 && t.ctxs[c].state == .unassigned

/-- R20: a context set up for a key. -/
def Context.assigned (k : Key) (cls : LifeClass) : Context :=
  { Context.unassigned with state := .idle, key := some k, cls := some cls }

/-- R22, R28: the pending store entry of a descriptor accepted now. -/
def State.newEntry (s : State) (d : Descriptor) : PendingEntry :=
  { tag := d.tag, length := d.length.toNat, remaining := d.length.toNat, acc := s.str.accept,
    deadline := some s.deadlineTicks, headExtent := none }

/-- R24: an entry joins the tail of a context's list; an IDLE context becomes WAITING. -/
def Context.joined (x : Context) (e : PendingEntry) : Context :=
  { x with pending := x.pending ++ [e], state := if x.state = .idle then .waiting else x.state }

/-- R22, R24: an accepted descriptor joins a context's list, taking the next acceptance number. -/
def State.joinList (s : State) (c : Ctx) (d : Descriptor) : State :=
  (s.onCtx c fun x => x.joined (s.newEntry d)).onStr fun t => { t with accept := t.accept + 1 }

/-- R13, R20, R21: an accepted descriptor is placed in a stream's list. -/
def State.handOff (s : State) (d : Descriptor) (dest : Dest) (cls : LifeClass) : State :=
  match dest with
  | .common => s.joinList 0 d
  | .held c => s.joinList c d
  | .newKey k =>
    match s.str.freeCtx with
    | some c => (s.setCtx c (Context.assigned k cls)).joinList c d
    | none => (s.onCounters 0 fun n => { n with spilled := sat32 n.spilled 1 }).joinList 0 d

/-- R5: the head leaves the intake queue. -/
def Intake.popHead (i : Intake) : Intake :=
  { i with queue := i.queue.drop 1, waiters := i.waiters.filter (· != .intakeHead) }

end Sys2Proof.Machine
end

