-- ==== Sys2Proof/Machine/Operands.lean ====
section
/-! DEFINITION. What the commands' operands say: the descriptor of six bytes (Table 1-1), the checks
of R177 on a control record and the arguments of Table 11-1. Multi-byte fields of these records come
least significant byte first. -/

namespace Sys2Proof.Machine

/-- A 16-bit field of the intake link, least significant byte first. -/
def ofLe16 (b0 b1 : Byte) : BitVec 16 := BitVec.ofNat 16 (b1.toNat * 256 + b0.toNat)

/-! ### Write descriptors (Table 1-1) -/

/-- R2: the descriptor of the six bytes of Table 1-1. -/
def descriptorOf (b0 b1 b2 b3 b4 b5 : Byte) : Descriptor :=
  { tag := ofLe16 b0 b1, function := b2, nspace := BitVec.ofNat 4 (b3.toNat % 16),
    hint := if b3.toNat / 128 = 1 then some (BitVec.ofNat 3 (b3.toNat / 16 % 8)) else none,
    length := ofLe16 b4 b5 }

/-! ### The first check of R177 -/

/-- Table 11-1: the length of a record, its code included, for a request code. -/
def recordBytes (code : Nat) : Option Nat :=
  match code with
  | 1 => some 12
  | 2 => some 5
  | 3 => some 2
  | 4 => some 2
  | 5 => some 2
  | 6 => some 2
  | 7 => some 2
  | 8 => some 1
  | 9 => some 1
  | 10 => some 1
  | 11 => some 1
  | 12 => some 2
  | 13 => some 1
  | 14 => some 1
  | 15 => some 1
  | _ => none

/-- Table 11-1: the bits left unused are 0: bit 7 of byte 5 of CONFIGURE, bits 7:4 of byte 4 of
SET-CLASSIFIER. The first argument is byte 1. -/
def unusedBitsClear (code : Nat) (args : List Byte) : Bool :=
  match code with
  | 1 => (args.getD 4 0).toNat < 128
  | 2 => (args.getD 3 0).toNat < 16
  | _ => true

/-- R177, check 1: the code is 1 to 15, the length is the code's, and every unused bit is 0. -/
def firstCheck (code : Nat) (args : List Byte) : Bool :=
  recordBytes code == some (args.length + 1) && unusedBitsClear code args

/-! ### Arguments (Table 11-1) -/

/-- Byte 5 of CONFIGURE, bits 6:5: the wake-listen factor. -/
def wakeFactorOf (code : Nat) : Nat := 2 ^ code

/-- R10: the hint map of bytes 10 and 11 of CONFIGURE: the class of hint k in bits 2k+1:2k. -/
def hintMapOf (w : BitVec 16) : Tab 8 LifeClass :=
  Vector.ofFn fun k => ⟨w.toNat / 4 ^ k.val % 4, Nat.mod_lt _ (by decide)⟩

/-- R178: the arguments of CONFIGURE; none where one is outside its range. A close timeout of 0 is
read as 64P. -/
def configureOf (args : List Byte) : Option (StationCfg × Tab 8 LifeClass) :=
  match args with
  | [b, c0, c1, p, f, i0, i1, d, t, h0, h1] =>
    let idle := (ofLe16 i0 i1).toNat
    let quota := f.toNat % 16
    if 8 ≤ b.toNat ∧ b.toNat ≤ 48 ∧ 1024 ≤ (ofLe16 c0 c1).toNat ∧ 1 ≤ p.toNat ∧ p.toNat ≤ 16 ∧
        1 ≤ quota ∧ quota ≤ 12 ∧ 1 ≤ idle ∧ idle ≤ 1000 ∧ 1 ≤ d.toNat ∧
        (t.toNat = 0 ∨ 16 ≤ t.toNat) then
      some
        ({ params := { b := b, c := ofLe16 c0 c1, p := p }, quota := BitVec.ofNat 4 quota,
           wakeFactor := wakeFactorOf (f.toNat / 32 % 4),
           pressureMode := if f.toNat / 16 % 2 = 1 then .edge else .level,
           idleMs := idle, deadlineMs := d.toNat,
           closeTimeout := if t.toNat = 0 then 64 else t.toNat },
         hintMapOf (ofLe16 h0 h1))
    else none
  | _ => none

/-- Table 11-1: the match mode of a code. -/
def matchModeOf : Nat → Option MatchMode
  | 0 => some .perFunction
  | 1 => some .perNamespace
  | 2 => some .perHint
  | 3 => some .perNamespaceHint
  | 4 => some .common
  | 5 => some .refuse
  | _ => none

/-- R14: the arguments of SET-CLASSIFIER: the entry's number and its five fields; none where one is
outside its range, or an ANY comes with a byte other than 0. -/
def setClassifierOf (args : List Byte) : Option (Fin 32 × ClassEntry) :=
  match args with
  | [e, f, fn, ns] =>
    if h : e.toNat < 32 then
      let anyFn := f.toNat / 64 % 2 == 1
      let anyNs := f.toNat / 128 == 1
      if (anyFn && fn != 0) || (anyNs && ns != 0) then none
      else
        (matchModeOf (f.toNat / 2 % 8)).map fun m =>
          (⟨e.toNat, h⟩,
            { enabled := f.toNat % 2 == 1, function := if anyFn then none else some fn,
              nspace := if anyNs then none else some (BitVec.ofNat 4 (ns.toNat % 16)), mode := m,
              defaultClass := ⟨f.toNat / 16 % 4, Nat.mod_lt _ (by decide)⟩ })
    else none
  | _ => none

/-- R168: the argument of SET-MODE. -/
def setModeOf (args : List Byte) : Option Mode :=
  match args with
  | [m] => if m.toNat = 0 then some .run else if m.toNat = 1 then some .hold else none
  | _ => none

/-- A context index 0 to 63. -/
def ctxOf (args : List Byte) : Option Ctx :=
  match args with
  | [c] => if h : c.toNat < 64 then some ⟨c.toNat, h⟩ else none
  | _ => none

/-- R31, R33: a context index that can be parked: 1 to 63. -/
def keyedCtxOf (args : List Byte) : Option Ctx := (ctxOf args).filter (· != 0)

/-- A slot 0 to 47. -/
def slotArg (args : List Byte) : Option Slot :=
  match args with
  | [k] => slotOf k
  | _ => none

/-! ### Responses (R177) -/

/-- R177: a control response is placed in the holding place. -/
def State.respond (s : State) (code : Nat) (st : RespStatus) (content : List Byte := []) : State :=
  s.onIntake fun i => { i with response := some { code := byteOf code, status := st, content := content } }

/-- R177: a control record passes while CREADY is asserted, and is then checked: one that fails the
first check is answered BAD-ARGUMENT, and any other is acted on by the owner of its request. -/
def control (code : Nat) (args : List Byte) (act : State → State) (s : State) :
    Host.Outcome State Fault Refusal :=
  live s fun s =>
    if s.intake.response.isSome then s
    else if firstCheck code args then act s
    else s.respond code .badArgument

end Sys2Proof.Machine
end

