-- ==== Sys2Proof/WellFormed.lean ====
section
/-! DEFINITION. The operands that make an event of the spec: what a sender of commands may send. A
meaning is given to ill-formed commands too; each leaves the state as it is or is the command it codes. -/

namespace Sys2Proof

/-- A command is well formed: a record of CONTROL_REQUEST_BAD_CODE fails the first check (R177); the
context of an idle timer is not 0 (R18, R30); line bits end a reception at the last of them (R81). -/
def Instr.wellFormed : Instr → Bool
  | .controlRequestBadCode code args => !Machine.firstCheck code.toNat args
  | .idleTimerExpiry c => c != 0
  | .receptionEnd bits => Machine.endsReception bits
  | _ => true

end Sys2Proof
end

