-- ==== Sys2Proof/Machine/Content.lean ====
section
/-! DEFINITION. The bytes the station sends on the outbound lane: result records (Table 1-2), control
responses and notices (Table 11-2), with the contents of R180 and R182. The readings of Table 11-2
that the text leaves open are log entry 24. -/

namespace Sys2Proof.Machine

/-! ### Fields (Table 11-2) -/

/-- A field of one byte. -/
def f1 (n : Nat) : List Byte := [byteOf n]

/-- A field of two bytes, least significant first. -/
def f2 (n : Nat) : List Byte := [byteOf n, byteOf (n / 256)]

/-- A field of four bytes, least significant first. -/
def f4 (n : Nat) : List Byte :=
  [byteOf n, byteOf (n / 256), byteOf (n / 65536), byteOf (n / 16777216)]

/-- A yes-or-no field. -/
def fBool (b : Bool) : List Byte := f1 b.toNat

/-- A field of `n` bytes that can be absent: a presence byte, then the field or bytes of 255. -/
def fOpt {α : Type} (n : Nat) (enc : α → List Byte) : Option α → List Byte
  | some a => 1 :: enc a
  | none => 0 :: List.replicate n 255

/-- A list: a count byte, then its entries. -/
def fList {α : Type} (enc : α → List Byte) (l : List α) : List Byte := f1 l.length ++ l.flatMap enc

/-- A time in ticks, as milliseconds. -/
def msOf (ticks : Nat) : Nat := ticks / 8

/-! ### Codes -/

/-- R18: the code of a stream state. -/
def CtxState.code : CtxState → Nat
  | .unassigned => 0
  | .idle => 1
  | .waiting => 2
  | .bound => 3
  | .draining => 4
  | .parked => 5

/-- Table 11-1, R8: the code of a match mode. -/
def MatchMode.code : MatchMode → Nat
  | .perFunction => 0
  | .perNamespace => 1
  | .perHint => 2
  | .perNamespaceHint => 3
  | .common => 4
  | .refuse => 5

/-- Table 5-3: the code of a slot state. -/
def DirEntry.code : DirEntry → Nat
  | .unfunded => 0
  | .free => 1
  | .opened .. => 2
  | .closing .. => 3
  | .orphaned .. => 4
  | .quarantined => 5

/-- Section 7.1: the code of a membership state. -/
def MemberState.code : MemberState → Nat
  | .unconfigured => 0
  | .census => 1
  | .listen => 2
  | .joining => 3
  | .catchup => 4
  | .member => 5
  | .isolated => 6
  | .barred => 7
  | .dormant => 8

/-- Table 1-2: the code of a reason. -/
def Reason.code : Reason → Nat
  | .oversize => 1
  | .powerFail => 2
  | .notMember => 3
  | .blocked => 4
  | .parked => 5
  | .noPlacement => 6

/-- Table 11-2: the code of a response status. -/
def RespStatus.code : RespStatus → Nat
  | .done => 0
  | .accepted => 1
  | .wrongState => 2
  | .badArgument => 3

/-- R49: the code of a readiness. -/
def Readiness.code : Readiness → Nat
  | .awaitingOpen => 0
  | .ready => 1
  | .openFailed => 2

/-- Table 5-2: the code of a placement mode. -/
def Mode.code : Mode → Nat
  | .run => 0
  | .hold => 1

/-- R167: the code of a pressure mode. -/
def PressureMode.code : PressureMode → Nat
  | .level => 0
  | .edge => 1

/-- R109: the code of a RECALL entry's phase. -/
def RecallPhase.code : RecallPhase → Nat
  | .queued => 0
  | .asked => 1
  | .backoff => 2
  | .releasing _ => 3

/-- Section 7.4: the code of a CATCHUP-ASK entry's phase. -/
def AskPhase.code : AskPhase → Nat
  | .asking => 0
  | .offers => 1
  | .receiving .. => 2

/-- R144: the code of a duty record's phase. -/
def DutyPhase.code : DutyPhase → Nat
  | .queued => 0
  | .running => 1
  | .ending _ => 2

/-! ### Reads (R180) -/

/-- R34: the five counters. -/
def Counters.bytes (n : Counters) : List Byte :=
  f4 n.pu ++ f4 n.placed ++ f4 n.refused ++ f4 n.split ++ f4 n.spilled

/-- R18: a stream key, each of its fields absent where R18 makes it absent. -/
def keyBytes (k : Option Key) : List Byte :=
  fOpt 1 (fun m => f1 (MatchMode.code m)) (k.map (·.mode)) ++
    fOpt 1 (fun b : BitVec 8 => [b]) (k.map (·.function)) ++
    fOpt 1 (fun b : BitVec 4 => f1 b.toNat) (k.bind (·.nspace)) ++
    fOpt 1 (fun b : BitVec 3 => f1 b.toNat) (k.bind (·.hint))

/-- R180: the content of READ-STREAM. -/
def Context.bytes (x : Context) : List Byte :=
  f1 x.state.code ++ keyBytes x.key ++ fOpt 1 (fun c : LifeClass => f1 c) x.cls ++
    fOpt 1 (fun p : Slot × Gen => f1 p.1) x.slot ++
    fOpt 4 (fun p : Slot × Gen => f4 p.2.toNat) x.slot ++
    f1 x.pending.length ++ f2 x.inFlight ++ fOpt 4 (fun t : BitVec 32 => f4 t.toNat) x.lastWrite ++
    x.counters.bytes

/-- Table 5-2: the kind bit of a slot. -/
def SlotKind.code : SlotKind → Nat
  | .normal _ => 0
  | .mixed => 1

/-- The class of a NORMAL slot. -/
def SlotKind.cls? : SlotKind → Option LifeClass
  | .normal c => some c
  | .mixed => none

/-- The former holder of an ORPHANED slot. -/
def DirEntry.former? : DirEntry → Option Station
  | .orphaned f _ _ _ => some f
  | .unfunded | .free | .opened .. | .closing .. | .quarantined => none

/-- The shut-cause of a CLOSING slot. -/
def DirEntry.cause? : DirEntry → Option ShutCause
  | .closing _ _ _ c _ => some c
  | .unfunded | .free | .opened .. | .orphaned .. | .quarantined => none

/-- The close-attempts of a CLOSING or ORPHANED slot. -/
def DirEntry.attempts? : DirEntry → Option (Fin 2)
  | .closing _ _ _ _ a => some a
  | .orphaned _ _ _ a => some a
  | .unfunded | .free | .opened .. | .quarantined => none

/-- R38: a directory entry, in the order of its fields. -/
def DirEntry.bytes (k : Slot) (e : DirEntry) : List Byte :=
  f1 k ++ f1 e.code ++ fOpt 1 (fun s : Station => f1 s) e.holder? ++
    fOpt 1 (fun s : Station => f1 s) e.former? ++ fOpt 1 (fun x => f1 (SlotKind.code x)) e.kind? ++
    fOpt 1 (fun c : LifeClass => f1 c) (e.kind?.bind SlotKind.cls?) ++
    fOpt 4 (fun g : Gen => f4 g.toNat) e.serial? ++ fOpt 1 (fun c => f1 (ShutCause.code c)) e.cause? ++
    fOpt 1 (fun a : Fin 2 => f1 a) e.attempts?

/-- R180: the fields of a holding extension that READ-SLOT carries. -/
def extBytes (x : Option Ext) : List Byte :=
  fOpt 1 (fun e : Ext => f1 e.readiness.code) x ++ fOpt 2 (fun e : Ext => f2 e.cursor) x ++
    fOpt 1 (fun e : Ext => f1 e.residents.length) x ++ fOpt 2 (fun e : Ext => f2 e.inFlight) x ++
    fOpt 1 (fun c => f1 (ShutCause.code c)) (x.bind (·.shutDue)) ++
    fOpt 1 (fun e : Ext => fBool e.closeOrderIssued) x

/-- R180: the content of READ-SLOT. -/
def State.slotContent (s : State) (k : Slot) : List Byte :=
  DirEntry.bytes k s.dir.rep.dir[k] ++ extBytes s.dir.ext[k]

/-- The byte of an excess; a negative one is a free value (log entry 19). -/
def excessByte (x : Int) : Byte := if 0 ≤ x then byteOf x.toNat else Config.excessBelowZero x

/-- R42: a roster entry with its effective quota. -/
def State.rosterBytes (s : State) (st : Station) : List Byte :=
  let e := s.dir.rep.roster[st]
  f1 e.state.code ++ fOpt 1 (fun q : BitVec 4 => f1 q.toNat) e.quota ++ f1 (s.dir.rep.quota st) ++
    fOpt 1 fBool e.adoptDis ++ fBool e.takeoverFailed

/-- R93: a last-heard record; there is none for the station itself. -/
def State.heardBytes (s : State) (st : Station) : List Byte :=
  let h := s.bus.heard[st]
  let b := if st = s.me then none else h.beacon
  fOpt 2 f2 (if st = s.me then none else some (msOf h.time)) ++
    fOpt 4 (fun i : BeaconInfo => f4 i.gen.toNat) b ++ fOpt 1 (fun i : BeaconInfo => fBool i.catchup) b ++
    fOpt 1 (fun i : BeaconInfo => f1 i.mode.code) b

/-- R180: the content of READ-ROSTER. -/
def State.rosterContent (s : State) : List Byte :=
  (allStations.flatMap fun st =>
    s.rosterBytes st ++ f1 (s.dir.rep.heldCount st) ++ f1 (s.dir.rep.deficit st) ++
      [excessByte (s.dir.rep.excess st)] ++ s.heardBytes st) ++
    (allStations.flatMap fun h => fOpt 1 (fun a : Station => f1 a) s.dir.rep.runs[h]) ++
    f4 s.dir.rep.gen.toNat

/-- R120: the configured parameters, absent until CONFIGURE but for the last, the adopt-disabled value. -/
def cfgBytes (c : Option StationCfg) (adoptDis : Bool) : List Byte :=
  fOpt 1 (fun x : StationCfg => [x.params.b]) c ++ fOpt 2 (fun x : StationCfg => f2 x.params.c.toNat) c ++
    fOpt 1 (fun x : StationCfg => [x.params.p]) c ++ fOpt 1 (fun x : StationCfg => f1 x.quota.toNat) c ++
    fOpt 1 (fun x : StationCfg => f1 x.wakeFactor) c ++ fBool adoptDis

/-- R109: a request list entry. A RECALL's target is never absent, so it has no presence byte. -/
def Request.bytes : Request → List Byte
  | .recall e =>
    f1 (Kind.code .recall) ++ f1 e.tag ++ f1 e.phase.code ++ f4 e.began.toNat ++ f1 e.tries ++
      f1 e.target ++
      fOpt 1 (fun k : Slot => f1 k) (match e.phase with | .releasing k => some k | _ => none)
  | .ask e =>
    f1 (Kind.code .catchupAsk) ++ f1 e.tag ++ f1 e.phase.code ++ f4 e.began.toNat ++ f1 e.tries ++
      fOpt 1 (fun st : Station => f1 st)
        (match e.phase with | .receiving r _ => some r | _ => none) ++
      fOpt 1 f1 (match e.phase with | .receiving _ n => some n | _ => none)

/-- R144: a duty record. -/
def dutyBytes (e : Station × Duty) : List Byte :=
  f1 e.1 ++ f1 e.2.phase.code ++
    fOpt 1 (fun o => f1 (RunOutcome.code o)) (match e.2.phase with | .ending o => some o | _ => none) ++
    f1 e.2.timeouts

/-- R144: an adoption list entry. -/
def adoptionBytes (a : Adoption) : List Byte := f1 a.slot ++ f4 a.serial.toNat ++ f1 a.former

/-- R81: the code of the receiver's state; off is a free value (log entry 20). -/
def Receiver.byte : Receiver → Byte
  | .hunt => 0
  | .receiving _ => 1
  | .off => Config.receiverOffCode

/-- R160: the number of directive tags in use. -/
def State.tagsInUse (s : State) : Nat := (s.plc.comp.toList.filter Option.isSome).length

/-- R144: the duty records, which READ-STATUS lists in ascending former holder: R144 and R180 give no
order, so this one is the model's choice (log entry 24). -/
def State.dutyList (s : State) : List (Station × Duty) :=
  allStations.filterMap fun h => s.mem.duty[h].map fun d => (h, d)

/-- R180: the content of READ-STATUS. The adopt-disabled value comes twice, after the station number and
as the last configured parameter; the episode time left is absent while the timer is stopped. The
adoption list comes in the order its entries were made. All three are the model's choice (log entry 24). -/
def State.statusContent (s : State) : List Byte :=
  f1 s.mem.stn ++ fBool s.mem.adoptDis ++ f1 s.mem.state.code ++
    f1 (match s.mem.lastReset with | .powerOnOrDrive => 0 | .station => 1) ++ f1 s.mem.attempts ++
    fBool s.mem.departing ++ cfgBytes s.mem.cfg s.mem.adoptDis ++
    f1 s.line.mode.code ++ fBool s.line.warned ++
    fOpt 1 (fun c : StationCfg => f1 c.pressureMode.code) s.mem.cfg ++ fBool s.line.pressure ++
    fOpt 2 (fun t => f2 (t / 4)) s.line.episode ++ f2 s.line.episodes ++
    f4 s.dir.rep.gen.toNat ++ f2 s.dir.ignored ++
    f1 s.intake.queue.length ++ f1 s.intake.results.length ++ f1 s.bus.tx.length ++
    f1 s.bus.rx.length ++ [s.bus.receiver.byte] ++
    f1 (match s.link.state with | .portWait => 0 | .operating => 1) ++ f1 s.link.queue.length ++
    f2 s.tagsInUse ++ fList Request.bytes s.dir.request.toList ++ fList dutyBytes s.dutyList ++
    fList adoptionBytes s.mem.adoption

/-- R184: the fields of the first-fault record. -/
def faultBytes (r : Option FaultRec) : List Byte :=
  fOpt 1 (fun x : FaultRec => f1 x.cause.index) r ++ fOpt 1 (fun b : Byte => [b]) (r.bind (·.slot)) ++
    fOpt 1 (fun c : Ctx => f1 c) (r.bind (·.stream)) ++
    fOpt 1 (fun st : Station => f1 st) (r.bind (·.peer)) ++
    fOpt 1 (fun k => f1 (Kind.code k)) (r.bind (·.kind)) ++
    fOpt 4 (fun x : FaultRec => f4 x.gen.toNat) r

/-- R185: the fields of the last-request record. -/
def lastReqBytes (r : Option LastReq) : List Byte :=
  fOpt 1 (fun x : LastReq => f1 (Kind.code (if x.ask then .catchupAsk else .recall))) r ++
    fOpt 1 (fun x : LastReq => f1 x.tag) r ++
    fOpt 1 (fun st : Station => f1 st) (r.bind (·.target)) ++
    fOpt 4 (fun x : LastReq => f4 x.began.toNat) r ++ fOpt 1 (fun x : LastReq => f1 x.tries) r

/-- R180: the content of READ-FAULT. -/
def Faults.content (f : Faults) : List Byte :=
  faultBytes f.first ++ fBool f.first.isSome ++ fBool f.second ++ f.counts.toList.flatMap f2 ++
    lastReqBytes f.lastReq ++ fBool f.frozen ++ f2 f.lost

/-! ### Records of the outbound lane (Tables 1-2 and 11-2) -/

/-- Table 1-2: an extent of a result record. -/
def extentBytes (e : Extent × Bool) : List Byte :=
  f1 e.1.slot ++ fBool e.2 ++ f4 e.1.serial.toNat ++ f2 e.1.offset ++ f2 e.1.length

/-- Table 1-2: a result record. -/
def ResultRec.bytes (r : ResultRec) : List Byte :=
  f1 1 ++ f2 r.tag.toNat ++
    (match r.status with
      | .placed => f1 0 ++ f1 0
      | .placeFailed => f1 1 ++ f1 0
      | .refused why => f1 2 ++ f1 why.code) ++
    f1 (match r.stream with | some c => c.val | none => 255) ++ f1 r.extents.length ++
    r.extents.flatMap extentBytes

/-- Table 11-2: a control response. -/
def Response.bytes (r : Response) : List Byte :=
  f1 2 ++ [r.code] ++ f1 r.status.code ++ f1 r.content.length ++ r.content

/-- R182: a notice's type. -/
def NoticeBody.type : NoticeBody → Nat
  | .fault _ => 1
  | .membership .. => 2
  | .peer .. => 3
  | .noAdopter => 3
  | .takeover .. => 4
  | .quarantine .. => 5
  | .drained .. => 6
  | .pressure .. => 7

/-- R182: a notice's content. A no-adopter report names no roster entry, so the fields after its 255
are free values (log entry 21). A FAULT notice gives the record in the form of READ-FAULT, with a presence
byte before every field, the cause and the generation included (log entry 24). -/
def NoticeBody.content : NoticeBody → List Byte
  | .fault r => faultBytes (some r)
  | .membership m n => f1 m.code ++ f1 n
  | .peer st e t q => f1 st ++ f1 e.code ++ fBool t ++ f1 q
  | .noAdopter =>
    [255, Config.noAdopterField 0, Config.noAdopterField 1, Config.noAdopterField 2]
  | .takeover h n => f1 h ++ f1 (match n with | .begun => 0 | .done => 1 | .failed => 2)
  | .quarantine k g => f1 k ++ f4 g.toNat
  | .drained c n => f1 c ++ n.bytes
  | .pressure onset n => f1 (if onset then 0 else 1) ++ f2 n

/-- Table 11-2: a notice. -/
def Notice.bytes (n : Notice) : List Byte :=
  f1 3 ++ f1 n.body.type ++ fBool n.lost ++ f1 n.body.content.length ++ n.body.content

/-- R181: the bytes of the record on offer. -/
def State.outbound (s : State) : Option (List Byte) :=
  match s.intake.offer with
  | none => none
  | some .response => s.intake.response.map Response.bytes
  | some .notice => s.flt.notices.head?.map Notice.bytes
  | some .result => s.intake.results.head?.map ResultRec.bytes

end Sys2Proof.Machine
end

