-- ==== Sys2Proof/Machine/Flags.lean ====
section
/-! DEFINITION. The indications the station drives, computed from its state: DREADY and CREADY (R1,
R176), ATTN (R183, R176), and the port-reset indication (R157, R165). -/

namespace Sys2Proof.Machine

/-- R1, R4, R176: DREADY is asserted outside a reset while the intake queue holds fewer than 32. -/
def State.dready (s : State) : Bool := s.rst.isNone && s.intake.queue.length < 32

/-- R1, R176: CREADY is asserted outside a reset while the holding place is empty. -/
def State.cready (s : State) : Bool := s.rst.isNone && s.intake.response.isNone

/-- R183, R176: ATTN is asserted outside a reset while the notice queue holds a notice. -/
def State.attn (s : State) : Bool := s.rst.isNone && !s.flt.notices.isEmpty

/-- R157, R165: the port-reset indication is asserted from the start of a reset until PORT-CLEAN. -/
def State.portReset (s : State) : Bool := s.rst.isSome || s.link.state == .portWait

/-- R167: running time passes while the mode is RUN and the power-fail state is CLEAR. -/
def State.runs (s : State) : Bool := s.line.mode == .run && !s.line.warned

end Sys2Proof.Machine
end

