-- ==== Sys2Proof/Machine/Policy.lean ====
section
/-! DEFINITION. The placement policy and its passes (R57 to R62), the giving out of a READY slot
(R64), recalls begun (R110), and the pressure shuts (R75). -/

namespace Sys2Proof.Machine

/-! ### The waiting order (R26) -/

/-- The acceptance number of the head entry of a context's list. -/
def Context.headAcc (x : Context) : BitVec 16 := match x.pending with | e :: _ => e.acc | [] => 0

/-- A stream joins an order by the acceptance number of its head entry, oldest first. -/
def insertByAge (t : Streams) (c : Ctx) : List Ctx → List Ctx
  | [] => [c]
  | d :: rest =>
    if older t.ctxs[c].headAcc t.ctxs[d].headAcc then c :: d :: rest else d :: insertByAge t c rest

/-- R26: the waiting order. -/
def Streams.waitingOrder (t : Streams) : List Ctx :=
  (allCtxs.filter fun c => t.ctxs[c].state == .waiting).foldl (fun l c => insertByAge t c l) []

/-- The head entry of a stream is a tail, and its remaining length. -/
def Streams.headNeed (t : Streams) (c : Ctx) : Option (Bool × Nat) :=
  match t.ctxs[c].pending with
  | e :: _ => some (e.headExtent.isSome, e.remaining)
  | [] => none

/-! ### Quantities the steps read (R57) -/

/-- The QUEUED entries of the claim list. -/
def State.queuedClaims (s : State) : List ClaimEntry := s.plc.claims.filter (·.phase == .queued)

/-- R57: the prospective held count. -/
def State.prospective (s : State) : Nat := s.dir.rep.heldCount s.me + s.queuedClaims.length

/-- R57: the available FREE count. -/
def State.available (s : State) : Nat := s.dir.rep.freeCount - s.queuedClaims.length

/-- R57, R174: a claim can be queued. -/
def State.claimPermission (s : State) : Bool :=
  s.mem.state == .member && s.line.mode == .run && !s.line.warned && s.plc.claims.length < 4 &&
    !s.mem.departing

/-- R57, R174: step 4 applies. -/
def State.recallPermission (s : State) : Bool :=
  s.mem.state == .member && s.line.mode == .run && !s.line.warned && !s.mem.departing

/-- R58: the conditions of step 1. -/
def State.withinQuota (s : State) : Bool :=
  s.claimPermission && s.prospective < s.dir.rep.quota s.me && 0 < s.available

/-- R59: the conditions of step 2. -/
def State.fromPool (s : State) : Bool :=
  s.claimPermission && s.dir.rep.quota s.me ≤ s.prospective && !s.line.pressure &&
    s.dir.rep.reserve s.me < s.available

/-- R58: the lowest-numbered FREE slot no QUEUED entry names. -/
def State.claimSlot (s : State) : Option Slot :=
  allSlots.find? fun k => s.dir.rep.dir[k] == .free && !s.queuedClaims.any (·.slot == k)

/-- R58, R62: a CLAIM is queued with its claim list entry. -/
def State.queueClaim (s : State) (kind : SlotKind) (claimant : Option Ctx) : State :=
  match s.claimSlot with
  | none => s
  | some k =>
    (s.onPlc fun p =>
      { p with claims := p.claims ++ [{ slot := k, kind := kind, claimant := claimant, phase := .queued }] }
    ).queueFrame (.claim k kind)

/-- The remaining space of a holding: C minus the cursor. -/
def State.space (s : State) (x : Ext) : Nat := s.dir.rep.capacity - x.cursor

/-- R60, R62: a holding can be granted: OPEN under this station, READY, no shut due, no applied SHUT. -/
def State.grantable (s : State) (k : Slot) : Bool :=
  match s.dir.ext[k] with
  | some x => s.holdsSlot k && s.dir.rep.dir[k].isOpen && x.readiness == .ready && x.shutDue == none
  | none => false

/-- R60, R62: the space a stream's head needs: all of a tail, or more than 0. -/
def State.roomFor (s : State) (c : Ctx) (x : Ext) : Bool :=
  match s.str.headNeed c with
  | some (true, n) => n ≤ s.space x
  | some (false, _) => 0 < s.space x
  | none => 0 < s.space x

/-- R60: a slot fit for a stream. -/
def State.fit (s : State) (c : Ctx) (k : Slot) : Bool :=
  s.grantable k &&
    match s.dir.ext[k], s.dir.rep.dir[k].kind?, s.str.ctxs[c].cls with
    | some x, some (.normal cl), some cl' => cl == cl' && x.residents.length < 4 && s.roomFor c x
    | _, _, _ => false

/-- The space of a slot's holding, 0 without one. -/
def State.spaceAt (s : State) (k : Slot) : Nat := match s.dir.ext[k] with | some x => s.space x | none => 0

/-- R60: among fit slots the one with the greatest remaining space, the lower number among equals. -/
def State.bestFit (s : State) (c : Ctx) : Option Slot :=
  (allSlots.filter (s.fit c)).foldl
    (fun best k =>
      match best with
      | none => some k
      | some b => if s.spaceAt b < s.spaceAt k then some k else some b) none

/-! ### Recalls (R61, R110) -/

/-- R110: the target of a recall: the PRESENT station other than this one with the greatest excess
above 0, the highest number among equals. -/
def State.recallTarget (s : State) : Option Station :=
  (s.dir.rep.presentList.filter fun st => st != s.me && decide (0 < s.dir.rep.excess st)).foldl
    (fun best st =>
      match best with
      | none => some st
      | some b => if s.dir.rep.excess b ≤ s.dir.rep.excess st then some st else some b) none

/-- R61: the conditions of step 4. -/
def State.recallNeeded (s : State) : Bool :=
  s.recallPermission && s.prospective < s.dir.rep.quota s.me && s.dir.rep.freeCount == 0 &&
    s.dir.rep.presentList.any fun st => decide (0 < s.dir.rep.excess st)

/-- R109: the tag a request takes, and the count advanced past it. -/
def Directory.takeTag (d : Directory) : ReqTag × Directory := (d.reqTag, { d with reqTag := d.reqTag + 1 })

/-- R61, R110: a recall begins, unless one is outstanding or the cooling period runs. -/
def State.beginRecall (s : State) : State :=
  if s.dir.request.isSome ∨ s.dir.cooling.isSome then s
  else
    match s.recallTarget with
    | none => s
    | some target =>
      let tag := s.dir.reqTag
      let g := s.dir.rep.gen
      let e : RecallEntry :=
        { tag := tag, phase := .queued, target := target, began := g, tries := 0, timer := none }
      ((s.onDir fun d => { d.takeTag.2 with request := some (.recall e) }).queueFrame
        (.recall tag s.me target)).onFlt
        (·.loadRequest { ask := false, tag := tag, target := some target, began := g, tries := 0 })

/-! ### The steps (R58 to R62) -/

/-- The station's OPEN or CLOSING MIXED slot. -/
def State.mixedSlot (s : State) : Option Slot :=
  allSlots.find? fun k => s.holdsSlot k && s.dir.rep.dir[k].kind? == some .mixed

/-- R62: step 5. The flag says that a shut was decided. -/
def State.stepFive (s : State) (c : Ctx) : State × Bool :=
  match s.mixedSlot with
  | some k =>
    if s.grantable k then
      match s.dir.ext[k], s.str.headNeed c with
      | some x, some (true, n) => if n ≤ s.space x then (s.grant c k, false) else (s.decideShut k .full, true)
      | some x, _ => if 0 < s.space x then (s.grant c k, false) else (s, false)
      | none, _ => (s, false)
    else (s, false)
  | none =>
    if s.plc.claims.any (·.kind == .mixed) then (s, false)
    else if s.withinQuota || s.fromPool then (s.queueClaim .mixed none, false)
    else (s, false)

/-- R58 to R62: a waiting stream meets the first step whose conditions hold. `skip` lists the
claimants of withdrawn CLAIMs, for which steps 1 and 2 are not tried in this pass (R63). -/
def State.visit (s : State) (skip : List Ctx) (c : Ctx) : State × Bool :=
  if s.str.ctxs[c].state ≠ .waiting then (s, false)
  else if s.plc.claims.any (·.claimant == some c) then (s, false)
  else if c = 0 then s.stepFive c
  else
    match s.str.ctxs[c].cls with
    | none => s.stepFive c
    | some cl =>
      if c ∉ skip ∧ (s.withinQuota || s.fromPool) then (s.queueClaim (.normal cl) (some c), false)
      else
        match s.bestFit c with
        | some k => (s.grant c k, false)
        | none => if s.recallNeeded then (s.beginRecall, false) else s.stepFive c

/-- R57: one pass over the waiting order, oldest first. -/
def State.passOnce (s : State) (skip : List Ctx) : State × Bool :=
  s.str.waitingOrder.foldl
    (fun acc c => let r := acc.1.visit skip c; (r.1, acc.2 || r.2)) (s, false)

/-- R57: a policy pass is made in MEMBER and CATCHUP. A shut it decides is an occasion for another, in
which every step is tried again for every stream (R63). -/
def State.policyPass (s : State) (skip : List Ctx := []) : State :=
  if s.mem.state = .member ∨ s.mem.state = .catchup then
    let r := s.passOnce skip
    if r.2 then (r.1.passOnce []).1 else r.1
  else s

/-! ### Giving out a READY slot (R64) -/

/-- R64: a NORMAL slot that has become READY is granted to its claimant, else to the oldest stream it is
fit for that claims no other, else shut IDLE. A MIXED slot is kept READY. -/
def State.giveOut (s : State) (k : Slot) (claimant : Option Ctx) : State :=
  if s.grantable k then
    match s.dir.rep.dir[k].kind? with
    | some (.normal _) =>
      match claimant.filter (fun c => s.str.ctxs[c].state == .waiting) with
      | some c => s.grant c k
      | none =>
        match s.str.waitingOrder.find? fun c =>
            c != 0 && !s.plc.claims.any (·.claimant == some c) && s.fit c k with
        | some c => s.grant c k
        | none => s.decideShut k .idle
    | _ => s
  else s

/-! ### Pressure shuts (R75) and the least recently filled slot (R49) -/

/-- R75: open excess: held OPEN slots with no shut due, less the effective quota. -/
def State.openExcess (s : State) : Int :=
  ((allSlots.filter fun k =>
    s.holdsSlot k && s.dir.rep.dir[k].isOpen &&
      (match s.dir.ext[k] with | some x => x.shutDue == none | none => true)).length : Int) -
    (s.dir.rep.quota s.me : Int)

/-- R75, R147: the slots that count against the close tracker. -/
def State.closeCount (s : State) : Nat :=
  (allSlots.filter fun k =>
    s.holdsSlot k &&
      (s.dir.rep.dir[k].isClosing ||
        (match s.dir.ext[k] with | some x => x.shutDue.isSome | none => false))).length +
    (s.mem.adoption.filter fun a => s.dir.rep.dir[a.slot].orphanOf a.former).length

/-- R49: slot `a` was filled less recently than `b`: a slot never filled comes first, then the earlier
time. -/
def filledEarlier (a b : Option (BitVec 32)) : Bool :=
  match a, b with
  | none, some _ => true
  | some x, some y => x.toNat < y.toNat
  | _, none => false

/-- The last-fill time of a slot's holding. -/
def State.lastFillAt (s : State) (k : Slot) : Option (BitVec 32) :=
  match s.dir.ext[k] with | some x => x.lastFill | none => none

/-- R49: the least recently filled of some slots, the lower number among equals. -/
def State.leastFilled (s : State) (l : List Slot) : Option Slot :=
  l.foldl
    (fun best k =>
      match best with
      | none => some k
      | some b => if filledEarlier (s.lastFillAt k) (s.lastFillAt b) then some k else some b) none

/-- R75, R113: the slot to shut: the least recently filled of the READY, OPEN holdings with no shut due,
NORMAL slots before the MIXED slot. -/
def State.shutCandidate (s : State) : Option Slot :=
  match s.leastFilled (allSlots.filter fun k => s.grantable k && s.dir.rep.dir[k].kind? != some .mixed) with
  | some k => some k
  | none => s.leastFilled (allSlots.filter s.grantable)

/-- R75: one pressure shut, if the open excess and the close capacity call for it. -/
def State.pressureShut (s : State) : State × Bool :=
  if 0 < s.openExcess ∧ s.closeCount < 4 then
    match s.shutCandidate with
    | some k => (s.decideShut k .pressure, true)
    | none => (s, false)
  else (s, false)

/-- R75: the evaluation of the open excess; at most four shuts fit the close tracker. -/
def State.pressureEval (s : State) : State × Bool :=
  if s.line.pressure ∧ s.mem.state = .member then
    (List.range 4).foldl
      (fun acc _ => let r := acc.1.pressureShut; (r.1, acc.2 || r.2)) (s, false)
  else (s, false)

/-- R57, R75: the pressure evaluation, and the pass its shuts are an occasion for. -/
def State.evalPressure (s : State) : State :=
  let r := s.pressureEval
  if r.2 then r.1.policyPass else r.1

end Sys2Proof.Machine
end

