-- ==== Sys2Proof/Machine/Duty.lean ====
section
/-! DEFINITION. Takeover duty (Chapter 8): the duty evaluation of R145 with adoption (R147),
completion (R150) and failure (R151); the LEAVE of a departure (R141); SHUT-DONEs (R105); and the
work that follows a change of the replica. -/

namespace Sys2Proof.Machine

/-! ### Duty records -/

/-- A duty record is replaced. -/
def State.setDuty (s : State) (h : Station) (d : Option Duty) : State :=
  s.onMem fun m => { m with duty := put m.duty h d }

/-- The record for `h` is RUNNING. -/
def State.running (s : State) (h : Station) : Bool :=
  match s.mem.duty[h] with | some d => d.phase == .running | none => false

/-- R145: a record in phase QUEUED is made and TAKEOVER(h) queued, where orphans of `h` have an empty
run and this station no record. -/
def State.takeRun (s : State) (h : Station) : State :=
  if s.dir.rep.hasOrphan h ∧ s.dir.rep.runs[h] = none ∧ s.mem.duty[h] = none then
    (s.setDuty h (some { phase := .queued, timeouts := 0, lastTimeout := none })).queueFrame (.takeover h)
  else s

/-- R145: the adopter, unless departing, visits the former holders in ascending number. -/
def State.takeRuns (s : State) : State :=
  if s.dir.rep.adopter = some s.me ∧ s.mem.departing = false then allStations.foldl State.takeRun s
  else s

/-- R147: the next orphan: of the lowest former holder with a RUNNING record, the lowest slot the
adoption list does not name. -/
def State.nextOrphan (s : State) : Option (Station × Slot) :=
  allStations.findSome? fun h =>
    if s.running h then
      (allSlots.find? fun k => s.dir.rep.dir[k].orphanOf h && !s.mem.adoption.any (·.slot == k)).map
        fun k => (h, k)
    else none

/-- R147: the next orphan is adopted while the close capacity is above 0. -/
def State.adoptOne (s : State) : State :=
  if s.closeCount < 4 then
    match s.nextOrphan with
    | some (h, k) =>
      match s.dir.rep.dir[k].serial? with
      | some g =>
        (s.onMem fun m => { m with adoption := m.adoption ++ [{ slot := k, serial := g, former := h }] }
        ).queueFrame (.shut k .adopted none)
      | none => s
    | none => s
  else s

/-- R150: a RUNNING record with no orphan and no adoption left moves to ENDING, DONE. -/
def State.completeRun (s : State) (h : Station) : State :=
  match s.mem.duty[h] with
  | some d =>
    if d.phase = .running ∧ s.dir.rep.hasOrphan h = false ∧
        s.mem.adoption.any (fun a => a.former == h) = false then
      (s.setDuty h (some { d with phase := .ending .done })).queueFrame (.takeoverEnd h .done)
    else s
  | none => s

/-- The body is a SHUT with cause ADOPTED for one of these slots. -/
def adoptsOneOf (l : List Slot) : Body → Bool
  | .shut k c _ => c == .adopted && l.contains k
  | _ => false

/-- R151: a RUNNING record whose timeout count has reached 2 has failed. A SHUT on the medium keeps its
adoption list entry. -/
def State.failRun (s : State) (h : Station) : State :=
  match s.mem.duty[h] with
  | some d =>
    if d.phase = .running ∧ 2 ≤ d.timeouts then
      let s1 := s.report .takeoverFailed (slot := d.lastTimeout.bind slotByte) (peer := some h)
      let mine := (s1.mem.adoption.filter fun a => a.former == h && s1.dir.rep.dir[a.slot].orphanOf h).map
        (·.slot)
      let s2 := s1.onBus (·.withdrawUnsent fun q => adoptsOneOf mine q.body)
      let s3 := s2.onMem fun m =>
        { m with adoption := m.adoption.filter fun a =>
            !(mine.contains a.slot && s1.isQueued (adoptsOneOf [a.slot]) &&
              !(s2.bus.tx.any fun q => adoptsOneOf [a.slot] q.body)) }
      (s3.setDuty h (some { d with phase := .ending .failed })).queueFrame (.takeoverEnd h .failed)
    else s
  | none => s

/-- R145: no adopter is eligible while an orphan's run is empty: a PEER notice, once. The mark is cleared
here alone, so an adopter that the replica shows outside MEMBER leaves it set until the next evaluation:
the model's choice (log entry 51). -/
def State.testNoAdopter (s : State) : State :=
  if s.dir.rep.adopter = none ∧
      (allStations.any fun h => s.dir.rep.hasOrphan h && s.dir.rep.runs[h] == none) then
    if s.mem.noAdopter then s
    else (s.onMem fun m => { m with noAdopter := true }).post .noAdopter
  else s.onMem fun m => { m with noAdopter := false }

/-- R145: the duty evaluation, made in MEMBER. -/
def State.dutyEval (s : State) : State :=
  if s.mem.state = .member then
    let s1 := s.takeRuns
    let s2 := (List.range 4).foldl (fun x _ => x.adoptOne) s1
    let s3 := allStations.foldl State.completeRun s2
    let s4 := allStations.foldl State.failRun s3
    s4.testNoAdopter
  else s

/-- The body is a LEAVE. -/
def Body.isLeave : Body → Bool | .leave _ => true | _ => false

/-- R141: a departing MEMBER that holds nothing and that no run names queues its LEAVE, once. -/
def State.queueLeave (s : State) : State :=
  if s.mem.state = .member ∧ s.mem.departing ∧ s.dir.rep.heldCount s.me = 0 ∧
      s.dir.rep.runNames s.me = false ∧ s.isQueued Body.isLeave = false then
    s.queueFrame (.leave s.me)
  else s

/-! ### SHUT-DONEs (R105) and the dues of a new MEMBER (R50) -/

/-- R105: a SHUT-DONE is queued for a slot with a close-report, its outcome decided from the report and
the slot's close-attempts; a second failure is reported as CLOSE-FAILED. -/
def State.queueShutDone (s : State) (k : Slot) : State :=
  match s.dir.ext[k], s.dir.rep.dir[k] with
  | some x, .closing _ _ _ _ a =>
    match x.closeReport with
    | none => s
    | some .closed => s.queueFrame (.shutDone k .closed)
    | some .failed =>
      if a = 0 then s.queueFrame (.shutDone k .retrying)
      else (s.report .closeFailed (slot := slotByte k)).queueFrame (.shutDone k .quarantined)
  | _, _ => s

/-- R50: on becoming MEMBER a slot's due SHUT or SHUT-DONE is queued. -/
def State.queueDue (s : State) (k : Slot) : State :=
  match s.dir.ext[k] with
  | some x =>
    match x.shutDue with
    | some c => s.queueFrame (shutBody k x c)
    | none => s.queueShutDone k
  | none => s

/-- The body is an ABSENT naming this station. -/
def Body.isAbsentOf (st : Station) : Body → Bool | .absent n => n == st | _ => false

/-- R138: an ABSENT is queued for a station the roster shows PRESENT, unless one is queued. -/
def State.queueAbsent (s : State) (st : Station) : State :=
  if s.dir.rep.isPresent st ∧ st ≠ s.me ∧ s.isQueued (Body.isAbsentOf st) = false then
    s.queueFrame (.absent st)
  else s

/-- R94: the bus controller's answer whether a station has been heard within 3P. -/
def State.heardWithin (s : State) (st : Station) : Bool := s.bus.heard[st].time < 3 * s.pTicks

/-- R138: the absence scan of a new MEMBER. -/
def State.absenceScan (s : State) : State :=
  allStations.foldl (fun x st => if x.heardWithin st then x else x.queueAbsent st) s

/-- What follows when the membership state has become MEMBER (R50, R57, R75, R134, R138, R145, R141),
after TAKEOVER-ENDs still due. -/
def State.afterMember (s : State) : State :=
  ((allSlots.foldl State.queueDue s).policyPass.evalPressure.absenceScan.dutyEval).queueLeave

end Sys2Proof.Machine
end

