-- ==== Sys2Proof/Machine/Members.lean ====
section
/-! DEFINITION. Membership changes that several commands make: listening (R127), the loss of holdings
(R76, R163), the emptied replica, the named-absent path (R140), going stale (R53, R154), and the
beginning and failure of attempts (R128, R130, R135). -/

namespace Sys2Proof.Machine

/-! ### Holdings removed without a shut (R50, R76, R163) -/

/-- The place holds this incarnation. -/
def TrackPlace.isFor (p : TrackPlace) (k : Slot) (g : Gen) : Bool := p.slot == k && p.serial == g

/-- R163: a place that serves a removed holding is released, with its hold; one already released goes
on. -/
def TrackPlace.release (hold : Nat) (k : Slot) (g : Gen) (p : TrackPlace) : TrackPlace :=
  match p.timer with
  | .live _ => if p.isFor k g then { p with timer := .released hold } else p
  | .released _ => p

/-- R163: the tracker places of an incarnation are released and its held OPEN-ORDER is discarded. -/
def Link.release (l : Link) (hold : Nat) (k : Slot) (g : Gen) : Link :=
  { l with
    heldOpens := l.heldOpens.filter fun o => !(o.slot == k && o.serial == g),
    opens := l.opens.map (TrackPlace.release hold k g),
    closes := l.closes.map (TrackPlace.release hold k g) }

/-- R76, R63, R163: a holding extension is removed: its residents' residency ends in bind order, the
claim list entry of the holding ends, and its tracker places are released. -/
def State.removeHolding (s : State) (k : Slot) : State :=
  match s.dir.ext[k] with
  | none => s
  | some x =>
    let s1 := x.residents.foldl State.endResidency s
    let s2 := s1.onDir fun d => { d with ext := put d.ext k none, closing := d.closing.filter (· != k) }
    let s3 := s2.onPlc fun p =>
      { p with claims := p.claims.filter fun e => !(e.phase == .opening && e.slot == k) }
    s3.onLink (·.release s.closeTicks k x.serial)

/-- R37, R50, R76, R109, R137: the replica is emptied, and with it go every holding, the claim list,
the request, the catch-up log, the snapshot buffer and any serving. R137 says so of the named-absent path,
REJOIN and WAKE; that the log and the buffer are emptied also where the station becomes BARRED is the
model's choice (log entry 25). -/
def State.emptyReplica (s : State) : State :=
  ((allSlots.foldl State.removeHolding s).onPlc fun p => { p with claims := [] }).onDir fun d =>
    { d with rep := Replica.empty, closing := [], request := none, log := [], snap := [],
             serving := none }

/-- R116, R120, R140, R142, R144: what the named-absent path, REJOIN and WAKE clear beside the replica:
the cooling period, takeover duty, the attempt count and the retry timer. -/
def State.forget (s : State) : State :=
  (s.emptyReplica.onDir fun d => { d with cooling := none }).onMem fun m =>
    { m with duty := Vector.replicate 8 none, adoption := [], noAdopter := false, attempts := 0,
             retryTimer := none }

/-! ### Listening (R127) -/

/-- R127: the length of the listen timer: the wake-listen factor times P. -/
def State.listenTicks (s : State) : Nat :=
  match s.mem.cfg with | some c => c.wakeFactor * s.pTicks | none => 0

/-- R127: the station enters LISTEN and its listen timer starts. -/
def State.startListen (s : State) : State :=
  (s.enter .listen).onMem fun m => { m with listenTimer := some s.listenTicks }

/-- R125, R126: the move from CENSUS to LISTEN empties the census list. R126 stops the seal deadline where
an entry other than a ROLL or SEAL makes the move; that it stops also where a SEAL that does not list the
station makes it is a DESIGN CHOICE (log entry 55): R125 says nothing of the deadline there. -/
def State.censusToListen (s : State) : State :=
  (s.onMem fun m => { m with census := Vector.replicate 8 none, sealTimer := none }).startListen

/-- R140: the named-absent path, with the sender of the ABSENT where there is one; a departure in
progress ends it in DORMANT instead of LISTEN. -/
def State.namedAbsent (s : State) (peer : Option Station) : State :=
  let s1 := (s.report .namedAbsent (peer := peer)).forget
  if s1.mem.departing then (s1.onMem fun m => { m with departing := false }).enter .dormant
  else s1.startListen

/-- R125, R133: the station becomes BARRED, with an empty replica and no holding. A departure in progress
keeps its mark, and the duty records, the adoption list and the no-adopter mark stand; READ-STATUS reports
them. From CENSUS the census list and a running seal deadline are kept too: R125 ends them on becoming
MEMBER, and empties the list on the move to LISTEN. The catch-up log and the snapshot buffer are emptied,
which R137 does not say of BARRED. All this is the model's choice (log entry 25). -/
def State.bar (s : State) : State := s.emptyReplica.enter .barred

/-! ### Attempts of the join and catch-up sequence (R128, R130, R135) -/

/-- R130: an attempt begins: an ASK entry in phase ASKING, an empty log and buffer, a queued
CATCHUP-ASK, and the last-request record loaded. -/
def State.beginAttempt (s : State) : State :=
  let tag := s.dir.reqTag
  let g := s.dir.rep.gen
  let e : AskEntry := { tag := tag, phase := .asking, began := g, tries := s.mem.attempts, timer := none }
  ((s.onDir fun d => { d.takeTag.2 with request := some (.ask e), log := [], snap := [] }).queueFrame
    (.catchupAsk tag s.me)).onFlt
    (·.loadRequest { ask := true, tag := tag, target := none, began := g, tries := s.mem.attempts })

/-- The body is a CATCHUP-ASK. -/
def Body.isAsk : Body → Bool | .catchupAsk .. => true | _ => false

/-- The body is a JOIN. -/
def Body.isJoin : Body → Bool | .join .. => true | _ => false

/-- R135, R142, R175: the fourth failure in a row: CATCHUP-EXHAUSTED, the frozen record, ISOLATED; a
departure in progress is abandoned. -/
def State.isolate (s : State) : State :=
  (((s.report .catchupExhausted).onFlt Faults.freeze).onMem fun m => { m with departing := false }).enter
    .isolated

/-- R135: one more failure in the sequence: `next` follows while the count is below 4. -/
def State.countFailure (s : State) (next : State → State) : State :=
  let s1 := s.onMem fun m => { m with attempts := m.attempts + 1 }
  if s1.mem.attempts < 4 then next s1 else s1.isolate

/-- R135: the retry timer starts with the attempt count times P. -/
def State.startRetry (s : State) : State :=
  s.onMem fun m => { m with retryTimer := some (m.attempts * s.pTicks) }

/-- The responder an attempt has decided. -/
def State.responder (s : State) : Option Station :=
  match s.dir.request with
  | some (.ask { phase := .receiving r _, .. }) => some r
  | _ => none

/-- R135: the catch-up attempt fails. -/
def State.attemptFail (s : State) : State :=
  let s1 := (s.withdraw Body.isAsk).onDir fun d => { d with request := none, log := [], snap := [] }
  (s1.report .catchupFailed (peer := s.responder)).countFailure State.startRetry

/-- R128: the JOIN's readback is not CLEAN: the attempt has failed. -/
def State.joinFail (s : State) : State :=
  ((s.withdraw Body.isJoin).report .catchupFailed (kind := some .join)).countFailure State.startListen

/-- R128, R130: the JOIN's CLEAN loopback: CATCHUP, and the first attempt. -/
def State.joinTaken (s : State) : State := ((s.enter .catchup).beginAttempt).policyPass

/-! ### Going stale (R53, R63, R154) -/

/-- R154: the entry's SHUT was queued in `before` and has been withdrawn unsent in `after`. -/
def adoptionLost (before after : State) (a : Adoption) : Bool :=
  before.isQueued (adoptsOneOf [a.slot]) && !(after.bus.tx.any fun q => adoptsOneOf [a.slot] q.body)

/-- R53, R63, R137, R154: a MEMBER station whose fault has been reported goes stale. -/
def State.goStale (s : State) : State :=
  let s1 := s.enter .catchup
  let s2 := (s1.onDir fun d => { d with request := none, serving := none }).onPlc fun p =>
    { p with claims := p.claims.filter (·.phase != .queued) }
  let s3 := s2.onMem fun m =>
    { m with duty := mapIdx m.duty fun _ d => d.filter (·.phase != .queued),
             adoption := m.adoption.filter fun a => !adoptionLost s s1 a }
  s3.beginAttempt.policyPass

end Sys2Proof.Machine
end

