-- ==== Sys2Proof/Machine/Apply.lean ====
section
/-! DEFINITION. The application of a directory-kind frame in MEMBER (R54) with the reports it makes
and the work that follows at this station: its own CLAIM (R99, R100), SHUT (R102, R148), SHUT-DONE
(R106, R149), TAKEOVER and TAKEOVER-END (R146, R152), LEAVE (R141), an ABSENT naming it (R140), and
the answers to its recall (R114, R117). Then what a station in each membership state does with a
directory-kind frame it takes (R51, R131). -/

namespace Sys2Proof.Machine

/-! ### Reports on the roster (R42, R182) -/

/-- R42, R182: a PEER notice for a roster entry as the replica now shows it. -/
def State.postPeer (s : State) (st : Station) : State :=
  let e := s.dir.rep.roster[st]
  s.post (.peer st e.state e.takeoverFailed (s.dir.rep.quota st))

/-- R129, R139, R141, R152: the PEER notice of an applied frame. R152 posts one with every applied
TAKEOVER-END, of either outcome, and does not say for which station: that it is the sender, whose
takeover-failed the frame may set, is the model's choice (log entry 15). -/
def State.postRosterChange (s : State) (sender : Station) : Body → State
  | .absent st => s.postPeer st
  | .leave _ => s.postPeer sender
  | .join .. => s.postPeer sender
  | .takeoverEnd .. => s.postPeer sender
  | .claim .. => s
  | .shut .. => s
  | .shutDone .. => s
  | .restore _ => s
  | .takeover _ => s
  | .roll .. => s
  | .seal .. => s
  | .beacon .. => s
  | .recall .. => s
  | .defer .. => s
  | .catchupAsk .. => s
  | .catchupOffer .. => s
  | .snapshot .. => s
  | .snapshotEnd .. => s

/-- R129: a JOIN whose digest differs from the replica's parameters is reported. -/
def State.reportDigest (s : State) (sender : Station) : Body → State
  | .join _ _ _ d =>
    if s.dir.rep.params = some d then s else s.report .paramMismatch (peer := some sender)
  | _ => s

/-! ### Recall answers (R114, R117) -/

/-- The body is a RECALL. -/
def Body.isRecall : Body → Bool | .recall .. => true | _ => false

/-- R114: a SHUT RECALLED that names this station as requester answers its RECALL entry, or is
unexpected. -/
def State.recallAnswered (s : State) (sender : Station) (k : Slot) (tag : ReqTag) : State :=
  let unexpected := s.report .unexpectedAnswer (slot := slotByte k) (peer := some sender)
  match s.dir.request with
  | some (.recall e) =>
    if e.tag = tag then
      match e.phase with
      | .queued | .asked | .backoff =>
        (s.withdraw Body.isRecall).onDir fun d =>
          { d with request := some (.recall { e with phase := .releasing k, timer := none }) }
      | .releasing _ => unexpected
    else unexpected
  | _ => unexpected

/-- R114: the recall answer a SHUT gives this station. -/
def State.answerOf (s : State) (sender : Station) : Body → State
  | .shut k .recalled (some (tag, r)) => if r = s.me then s.recallAnswered sender k tag else s
  | _ => s

/-- R117: a RECALL entry in RELEASING ends when its slot has left CLOSING. -/
def State.recallReleased (s : State) : State :=
  match s.dir.request with
  | some (.recall { phase := .releasing k, .. }) =>
    if s.dir.rep.dir[k].isClosing then s else s.onDir fun d => { d with request := none }
  | _ => s

/-! ### The station's own frames -/

/-- R49, R63, R99, R100, R174: the station's own CLAIM creates the extension, moves its claim list
entry to OPENING and hands over the OPEN-ORDER; a departing station decides the shut LEAVING. -/
def State.ownClaim (s : State) (k : Slot) (kind : SlotKind) : State :=
  let g := s.dir.rep.gen
  let s1 := (s.setExt k (some (Ext.fresh g))).onPlc fun p =>
    { p with claims := p.claims.map fun e =>
        if e.slot = k ∧ e.phase = .queued then { e with phase := .opening } else e }
  let s2 := s1.onLink fun l =>
    { l with heldOpens := l.heldOpens ++ [{ slot := k, serial := g, kind := kind }] }
  if s2.mem.departing then s2.decideShut k .leaving else s2

/-- R50, R102, R148: the station's own SHUT is applied: the cause due goes, residency ends, and the
slot joins the closes in the order of their SHUTs; ADOPTED creates the extension. -/
def State.ownShut (s : State) (k : Slot) (cause : ShutCause) : State :=
  let s1 :=
    if cause = .adopted then
      match s.dir.rep.dir[k].serial? with
      | some g => s.setExt k (some (Ext.forClose g s.dir.rep.capacity))
      | none => s
    else
      match s.dir.ext[k] with
      | some x =>
        (x.residents.foldl State.endResidency s).onExt k fun y =>
          { y with shutDue := none, shutRecall := none, shutSent := false }
      | none => s
  s1.onDir fun d => { d with closing := d.closing ++ [k] }

/-- R106, R149: a close has ended: the extension is removed and the adoption list entry ends. -/
def State.endClose (s : State) (k : Slot) : State :=
  (s.onDir fun d => { d with ext := put d.ext k none, closing := d.closing.filter (· != k) }).onMem
    fun m => { m with adoption := m.adoption.filter (·.slot != k) }

/-- R106: the station's own SHUT-DONE is applied. -/
def State.ownShutDone (s : State) (k : Slot) (o : ShutOutcome) : State :=
  match o with
  | .retrying => s.onExt k fun x => { x with closeReport := none, reportSent := none }
  | .closed => s.endClose k
  | .quarantined =>
    match s.dir.ext[k] with
    | some x => (s.endClose k).post (.quarantine k x.serial)
    | none => s.endClose k

/-- R146: the station's own TAKEOVER is applied. -/
def State.ownTakeover (s : State) (h : Station) : State :=
  (s.setDuty h (some { phase := .running, timeouts := 0, lastTimeout := none })).post (.takeover h .begun)

/-- R152: the station's own TAKEOVER-END is applied. -/
def State.ownTakeoverEnd (s : State) (h : Station) (o : RunOutcome) : State :=
  ((s.setDuty h none).onMem fun m => { m with adoption := m.adoption.filter (·.former != h) }).post
    (.takeover h (match o with | .done => .done | .failed => .failed))

/-- R141, R175: the station's own LEAVE is applied: it is DORMANT and the departure has ended. A serving
that stands then, in any phase, stays with the snapshot buffer until WAKE, though its queued frames are
gone: the model's choice (log entry 45). -/
def State.ownLeave (s : State) : State :=
  (s.onMem fun m => { m with departing := false }).enter .dormant

/-- What applying a frame this station sent does to it, beside the replica. -/
def State.ownEffect (s : State) : Body → State
  | .claim k kind => s.ownClaim k kind
  | .shut k cause _ => s.ownShut k cause
  | .shutDone k o => s.ownShutDone k o
  | .takeover h => s.ownTakeover h
  | .takeoverEnd h o => s.ownTakeoverEnd h o
  | .leave _ => s.ownLeave
  | .restore _ => s
  | .absent _ => s
  | .join .. => s
  | .roll .. => s
  | .seal .. => s
  | .beacon .. => s
  | .recall .. => s
  | .defer .. => s
  | .catchupAsk .. => s
  | .catchupOffer .. => s
  | .snapshot .. => s
  | .snapshotEnd .. => s

/-- R54, R76: holdings the replica no longer shows as this station's, lost by orphaning, are removed. -/
def State.dropOrphaned (s : State) (k : Slot) : State :=
  if s.holdsSlot k then s else s.removeHolding k

/-! ### Application (R54) -/

/-- R57, R75, R102, R141, R145: the work that follows an applied frame in MEMBER: the policy pass, the
pressure evaluation, the duty evaluation, and a departure's LEAVE. That the pressure evaluation follows
every applied frame, and not only a SHUT (R102) and one that changes the station's held count or quota
(R75), is the model's choice (log entry 53). -/
def State.afterFrame (s : State) : State :=
  if s.mem.state = .member then ((s.policyPass.evalPressure).dutyEval).queueLeave else s

/-- R54: a directory-kind frame is applied to the replica. -/
def State.applyRep (s : State) (f : Frame) : State := s.setRep (s.dir.rep.apply f.sender f.body)

/-- R54: the reports an application makes: roster, digest (R129) and recall answer (R114). -/
def State.applyReports (s : State) (f : Frame) : State :=
  ((s.postRosterChange f.sender f.body).reportDigest f.sender f.body).answerOf f.sender f.body

/-- R54: the application of a directory-kind frame in MEMBER. -/
def State.applyLive (s : State) (f : Frame) : State :=
  let s1 := (s.applyRep f).applyReports f
  match f.body with
  | .absent st => if st = s.me then s1.namedAbsent (some f.sender) else s1.recallReleased.afterFrame
  | b =>
    let s2 := if f.sender = s.me then s1.ownEffect b else s1
    let s3 := if b.isJoin ∧ f.sender = s.me then allSlots.foldl State.dropOrphaned s2 else s2
    s3.recallReleased.afterFrame

/-- The slot a body names. -/
def Body.slot? : Body → Option Slot
  | .claim k _ => some k
  | .shut k _ _ => some k
  | .shutDone k _ => some k
  | .restore k => some k
  | .absent _ | .leave _ | .join .. | .takeover _ | .takeoverEnd .. | .roll .. | .seal .. | .beacon ..
  | .recall .. | .defer .. | .catchupAsk .. | .catchupOffer .. | .snapshot .. | .snapshotEnd .. => none

/-- R52, R53: a frame that fails a condition is not applied and makes the station stale with GEN-SKEW. -/
def State.applyOrStale (s : State) (f : Frame) : State :=
  if s.dir.rep.applies f then s.applyLive f
  else
    (s.report .genSkew (slot := f.body.slot?.bind slotByte) (peer := some f.sender)
      (kind := some f.body.kind)).goStale

/-! ### Taking frames by membership state (R51) -/

/-- R51: the ignored-frame count rises. -/
def State.countIgnored (s : State) : State := s.onDir fun d => { d with ignored := satAdd 65535 d.ignored 1 }

/-- R51, check 2: a frame other than JOIN from a sender that is not PRESENT is not acted on. -/
def State.fromPresent (s : State) (f : Frame) (act : State → State) : State :=
  if f.body.isJoin ∨ s.dir.rep.isPresent f.sender then act s else s.countIgnored

/-- R131: the phase of the attempt logs directory-kind frames: OFFERS or RECEIVING. -/
def State.logging (s : State) : Bool :=
  match s.dir.request with
  | some (.ask { phase := .offers, .. }) => true
  | some (.ask { phase := .receiving .., .. }) => true
  | _ => false

/-- R132: part 0 of the snapshot has been taken. -/
def State.part0Taken (s : State) : Bool :=
  match s.dir.request with
  | some (.ask { phase := .receiving _ n, .. }) => 0 < n
  | _ => false

/-- R131: a CLEAN directory-kind frame in CATCHUP is logged, discarded, or fails the attempt. -/
def State.logFrame (s : State) (f : Frame) : State :=
  if s.logging then
    if s.dir.log.length < 16 then
      let s1 := s.onDir fun d => { d with log := d.log ++ [{ frame := f, afterPart0 := s.part0Taken }] }
      match f.body, s.responder with
      | .absent st, some r => if st = r then s1.attemptFail else s1
      | _, _ => s1
    else s.attemptFail
  else s

/-- R51, R126, R131: a directory-kind frame other than JOIN, by membership state. -/
def State.takeDirectory (f : Frame) (s : State) : State :=
  match s.mem.state with
  | .census => s.censusToListen
  | .catchup => s.logFrame f
  | .member => s.fromPresent f fun s => s.applyOrStale f
  | .listen | .joining | .unconfigured | .isolated | .barred | .dormant => s

/-! ### Taking the head of the receive queue (R84) -/

/-- R84: the head leaves the receive queue. -/
def State.popRx (s : State) : State := s.onBus fun b => { b with rx := b.rx.drop 1 }

/-- The transmission has not been read back to an ending yet. -/
def Sending.unread (sg : Sending) : Bool := sg.readback == .reading

/-- The reception of the transmission in progress still goes on. A reception that began after it had ended
(R81: a code error of six dominant bits) is not its reception (R83). -/
def Bus.readsOwn (b : Bus) : Bool :=
  match b.receiver with
  | .receiving _ => b.sending.any Sending.unread
  | .hunt => false
  | .off => false

/-- R83, R89, R90: what a finished attempt does to the bus: the yield obligation, and the mark that the
reception still going on is the station's own. -/
def Bus.endAttempt (b : Bus) : Bus :=
  { b with sending := none, yieldOwed := true, ownEnding := b.readsOwn }

/-- R92: the beacon timer restarts with the full P where it runs or has expired. -/
def BeaconTimer.restart (full : Nat) : BeaconTimer → BeaconTimer
  | .stopped => .stopped
  | .running _ => .running full
  | .expired => .running full

/-- R134: a SHUT or SHUT-DONE counts as sent from the completion of its transmission. -/
def State.markSent (s : State) : Body → State
  | .shut k _ _ => s.onExt k fun x => { x with shutSent := x.shutDue.isSome }
  | .shutDone k o => s.onExt k fun x =>
      { x with reportSent := if x.closeReport.isSome then some o else none }
  | _ => s

/-- R128: the end of the JOIN's transmission moves a station in LISTEN to JOINING. -/
def State.enterJoining (s : State) (b : Body) : State :=
  if b.isJoin ∧ s.mem.state = .listen then s.enter .joining else s

/-- R137: the completed SNAPSHOT-END ends serving and empties the buffer. -/
def State.servingSent (s : State) : Body → State
  | .snapshotEnd .. => s.onDir fun d => { d with serving := none, snap := [] }
  | _ => s

/-- R89, R92, R128, R134, R137: the transmission in progress completes. -/
def State.completeTx (s : State) : State :=
  match s.bus.sending with
  | none => s
  | some sg =>
    let s1 := s.onBus fun b =>
      { (b.popTx).endAttempt with beacon := b.beacon.restart s.pTicks }
    ((s1.markSent sg.frame.body).servingSent sg.frame.body).enterJoining sg.frame.body

/-- R89, R90, R128: the transmission in progress is aborted; its frame stays at the head unless it has
been withdrawn (R91). -/
def State.abortTx (s : State) : State :=
  match s.bus.sending with
  | none => s
  | some sg =>
    let s1 := s.onBus fun b => if sg.withdrawn then b.popTx.endAttempt else b.endAttempt
    s1.enterJoining sg.frame.body

/-- R83, R89: the transmission in progress has been read back as driven to its closing delimiter, so that
it completes whatever its reception ended as. -/
def State.readToClosing (s : State) : Bool := s.bus.sending.any fun sg => sg.readback == .closing

/-- Log entry 12: an own entry is taken after its attempt has ended; where the event that ends the
attempt has not been commanded, it is made here. -/
def State.finishOwn (s : State) (e : RxEntry) : State :=
  if e.own then
    match e.status with
    | .clean _ => s.completeTx
    | .checkError | .aborted | .overlong => if s.readToClosing then s.completeTx else s.abortTx
  else s

/-- R84: the head of the receive queue, when it is a CLEAN frame of this kind not marked lost-after, is
taken and acted on with its own mark. -/
def takeClean (k : Kind) (act : Bool → Frame → State → State) (s : State) :
    Host.Outcome State Fault Refusal :=
  live s fun s =>
    match s.bus.rx with
    | e :: _ =>
      match e.status with
      | .clean f =>
        if f.body.kind = k ∧ e.lostAfter = false then act e.own f (s.popRx.finishOwn e) else s
      | .checkError => s
      | .aborted => s
      | .overlong => s
    | [] => s

end Sys2Proof.Machine
end

