-- ==== Sys2Proof/Machine/Install.lean ====
section
/-! DEFINITION. The end of a catch-up attempt (R133): the installed snapshot, the replay of the log,
the settlement of holdings (R134) and of takeover duty (R154), and the step to MEMBER. -/

namespace Sys2Proof.Machine

/-! ### Holdings (R134) -/

/-- R134: an extension whose incarnation the replica shows as this station's: a SHUT applied meanwhile
takes effect; a RETRYING applied meanwhile clears its close-report; else all is kept. Where the SHUT stands
in the order of closes is the model's choice (log entry 50). -/
def State.settleKept (s : State) (k : Slot) (x : Ext) : State :=
  match s.dir.rep.dir[k] with
  | .closing _ _ _ _ a =>
    if x.shutDue.isSome then
      ((x.residents.foldl State.endResidency s).onExt k fun y =>
        { y with shutDue := none, shutRecall := none, shutSent := false }).onDir fun d =>
        { d with closing := d.closing ++ [k] }
    else if a = 1 ∧ x.closeReport = some .failed ∧ x.reportSent = some .retrying then
      s.onExt k fun y => { y with closeReport := none, reportSent := none }
    else s
  | .unfunded | .free | .opened .. | .orphaned .. | .quarantined => s

/-- R49, R100, R134, R174: the extension of a slot the replica shows as this station's and that has
none; a departing station decides the shut LEAVING of an opened one (log entry 42). Where the close of a
CLOSING one stands in the order of closes, and of several OPEN ones which OPEN-ORDER is handed over first,
is the model's choice (log entry 50). -/
def State.createHolding (s : State) (k : Slot) : State :=
  match s.dir.rep.dir[k] with
  | .opened h kind g =>
    if h = s.me then
      let s1 := (s.setExt k (some (Ext.fresh g))).onLink fun l =>
        { l with heldOpens := l.heldOpens ++ [{ slot := k, serial := g, kind := kind }] }
      if s1.mem.departing then s1.decideShut k .leaving else s1
    else s
  | .closing h _ g _ _ =>
    if h = s.me then
      (s.setExt k (some (Ext.forClose g s.dir.rep.capacity))).onDir fun d =>
        { d with closing := d.closing ++ [k] }
    else s
  | .unfunded | .free | .orphaned .. | .quarantined => s

/-- The replica shows the slot OPEN or CLOSING under this station with this serial. -/
def State.showsOwn (s : State) (k : Slot) (g : Gen) : Bool :=
  s.holdsSlot k && s.dir.rep.dir[k].serial? == some g

/-- R134: one slot is settled against the installed replica. -/
def State.settleHolding (s : State) (k : Slot) : State :=
  match s.dir.ext[k] with
  | some x => if s.showsOwn k x.serial then s.settleKept k x else (s.removeHolding k).createHolding k
  | none => s.createHolding k

/-! ### Takeover duty (R154) -/

/-- R154: the duty record of one former holder is settled. -/
def State.settleDuty (s : State) (h : Station) : State :=
  if s.dir.rep.runs[h] = some s.me then
    match s.mem.duty[h] with
    | none => s.ownTakeover h
    | some d =>
      match d.phase with
      | .running => s
      | .ending o => s.queueFrame (.takeoverEnd h o)
      | .queued => s.ownTakeover h
  else s.setDuty h none

/-- R154: duty is settled: the records, then the adoption list, which keeps the slots CLOSING under
this station. -/
def State.reconcileDuty (s : State) : State :=
  (allStations.foldl State.settleDuty s).onMem fun m =>
    { m with adoption := m.adoption.filter fun a => s.shutApplied a.slot }

/-! ### Replay (R133) -/

/-- Replay as it goes: the state, and the sender of an applied ABSENT that named this station. -/
structure Replay where
  st : State
  namedBy : Option Station

/-- R133: the sender of an ABSENT that names this station, once it is applied. -/
def namedAfter (p : Replay) (f : Frame) : Option Station :=
  match f.body with
  | .absent n => if n = p.st.me then some f.sender else p.namedBy
  | _ => p.namedBy

/-- R133: the log entries are replayed in order; false where a gap ends the replay. -/
def replay : List Frame → Replay → Replay × Bool
  | [], p => (p, true)
  | f :: rest, p =>
    if !f.body.isJoin && !p.st.dir.rep.isPresent f.sender then
      replay rest { p with st := p.st.countIgnored }
    else if p.st.dir.rep.applies f then
      replay rest { st := (p.st.applyRep f).applyReports f, namedBy := namedAfter p f }
    else (p, false)

/-! ### Install (R133) -/

/-- R133, R134, R138, R154: after a complete replay that shows the station PRESENT it becomes MEMBER. The
slots are settled in ascending number, so the OPEN-ORDERs of several OPEN slots without an extension are
handed over in that order: the model's choice (log entry 50). That the catch-up log and the snapshot buffer
are emptied here, where R133 ends the attempt and names neither, is the model's choice (log entry 54). -/
def State.rejoinDrive (s : State) : State :=
  let s1 := allSlots.foldl State.settleHolding s
  let s2 := (s1.onDir fun d => { d with request := none, log := [], snap := [] }).onMem fun m =>
    { m with attempts := 0 }
  ((s2.enter .member).reconcileDuty).afterMember

/-- R57, R133: an accepted snapshot is installed, the log replayed, and the outcome taken. At a gap the
attempt fails, and the installed snapshot is an occasion for a policy pass. -/
def State.install (s : State) (r : Replica) : State :=
  let out := replay ((s.dir.log.filter (·.afterPart0)).map (·.frame)) { st := s.setRep r, namedBy := none }
  let s1 := out.1.st
  if out.2 = false then s1.attemptFail.policyPass
  else if s1.dir.rep.isPresent s1.me then s1.rejoinDrive
  else s1.namedAbsent out.1.namedBy

/-- R133: the snapshot an end frame completes: seven parts stored, part count 7, the check sum good,
and the contents well formed. -/
def State.accepted (s : State) (parts : Nat) (g : Gen) (count : Byte) (sum : BitVec 16) :
    Option Replica :=
  if parts = 7 ∧ count = 7 ∧ sum = snapshotSum s.dir.snap then
    (unpackSnapshot s.dir.snap g).filter Replica.snapshotOk
  else none

/-- R133: a SNAPSHOT-END for this attempt, with the parts stored so far. -/
def State.endSnapshot (s : State) (responder : Station) (parts : Nat) (g : Gen) (count : Byte)
    (sum : BitVec 16) : State :=
  match s.accepted parts g count sum with
  | none => s.attemptFail
  | some r =>
    if r.params = s.mem.cfg.map (·.params) then s.install r
    else (s.report .paramMismatch (peer := some responder)).bar

end Sys2Proof.Machine
end

