-- ==== Sys2Proof/Machine/Receive.lean ====
section
/-! DEFINITION. Commands of the receiving side of the placement bus: the end of a reception (R81 to
R85, R93), an opening delimiter read (R81, R90), and the taking of the entries that are not CLEAN or
are marked lost-after (R51, R126, R128, R131). -/

namespace Sys2Proof.Machine

/-! ### Receptions -/

/-- R83: the membership states in which endings are written. -/
def MemberState.writes : MemberState → Bool
  | .census | .listen | .joining | .catchup | .member => true
  | .unconfigured | .isolated | .barred | .dormant => false

/-- R83: a CLEAN frame addressed to another station. -/
def Ending.forOther (me : Station) : Ending → Bool
  | .clean f => match f.dest with | some d => d != me | none => false
  | .checkError => false
  | .aborted => false
  | .overlong => false

/-- R85: the youngest entry is marked lost-after. -/
def markLost : List RxEntry → List RxEntry
  | [] => []
  | [e] => [{ e with lostAfter := true }]
  | e :: f :: rest => e :: markLost (f :: rest)

/-- R83, R84, R85: an ending joins the receive queue, or is lost to a full one. -/
def Bus.write (b : Bus) (e : RxEntry) : Bus :=
  if b.rx.length < 4 then { b with rx := b.rx ++ [e] } else { b with rx := markLost b.rx }

/-- R93: the BEACON fields after a CLEAN frame. -/
def beaconInfo (old : Option BeaconInfo) : Body → Option BeaconInfo
  | .beacon _ g c m => some { gen := g, catchup := c, mode := m }
  | _ => old

/-- R93: a CLEAN reception restarts its sender's last-heard record. -/
def Bus.hear (b : Bus) (me : Station) : Ending → Bus
  | .clean f =>
    if f.sender = me then b
    else
      let h : Heard :=
        { time := 0, beacon := beaconInfo b.heard[f.sender].beacon f.body, reported := false }
      { b with heard := put b.heard f.sender h }
  | .checkError => b
  | .aborted => b
  | .overlong => b

/-- R83, R89: the transmission in progress once a reception with these line bits has ended. Its first
ending is that of its own frame, and a later one is of no frame of this station. -/
def Sending.readTo (sg : Sending) (bits : List Bool) : Sending :=
  if sg.unread then
    { sg with readback := if sg.frame.comparedBits.isPrefixOf bits then .closing else .short }
  else sg

/-- R83: the reception that ends is of this station's own transmission: one whose attempt has ended while
its reception went on, or the one in progress, where no reception has ended since it began (log entry 34). -/
def Bus.isOwn (b : Bus) : Bool := b.ownEnding || b.sending.any Sending.unread

/-- R81, R83, R90, R93: a reception with these line bits ends; `again` says that its end was itself an
opening delimiter. -/
def Bus.endReception (b : Bus) (m : MemberState) (me : Station) (bits : List Bool) (e : Ending)
    (again : Bool) : Bus :=
  let b1 := b.hear me e
  let b2 :=
    if m.writes && !e.forOther me then b1.write { status := e, lostAfter := false, own := b.isOwn } else b1
  { b2 with ownEnding := false, sending := b.sending.map (·.readTo bits),
            receiver := if again then .receiving 0 else .hunt, yieldOwed := b2.yieldOwed && !again }

/-- R83: RECEPTION-END. The receiver reads these line bits after an opening delimiter. -/
def execReceptionEnd (bits : List Bool) (s : State) : Host.Outcome State Fault Refusal :=
  live s fun s =>
    match s.bus.receiver, receive bits with
    | .receiving _, some (e, again) => s.onBus (·.endReception s.mem.state s.me bits e again)
    | _, _ => s

/-- R81: OPENING-DELIMITER-READ. HUNT becomes RECEIVING with its byte count 0; the yield obligation is
met (R90), and the medium is busy (R78). -/
def execOpeningDelimiterRead (s : State) : Host.Outcome State Fault Refusal :=
  live s fun s =>
    match s.bus.receiver with
    | .hunt => s.onBus fun b => { b with receiver := .receiving 0, yieldOwed := false, mediumBusy := true }
    | .receiving _ => s
    | .off => s

/-! ### Entries that are not CLEAN, or are marked lost-after -/

/-- The entry is an own ABORTED one that hides no loss. -/
def RxEntry.ownAborted (e : RxEntry) : Bool := e.own && e.status == .aborted && !e.lostAfter

/-- R131: the attempt is ASKING and its CATCHUP-ASK has left the transmit queue. -/
def State.askSent (s : State) : Bool :=
  match s.dir.request with
  | some (.ask { phase := .asking, .. }) => !s.isQueued Body.isAsk
  | _ => false

/-- R131: the entry in CATCHUP: it fails an attempt that logs, and an attempt whose own ASK it is. -/
def State.badInCatchup (s : State) (e : RxEntry) : State :=
  if e.ownAborted then s
  else if s.logging || (e.own && s.askSent) then s.attemptFail
  else s

/-- R128: the entry in JOINING: an own one decides the JOIN. -/
def State.badInJoining (s : State) (e : RxEntry) : State :=
  if e.own then
    match e.status with
    | .clean _ => s.joinTaken
    | .checkError => s.joinFail
    | .aborted => s.joinFail
    | .overlong => s.joinFail
  else s

/-- R51, check 1, and R85: the entry in MEMBER. One marked lost-after makes the station stale with
BUS-OVERRUN, whatever its status; that an ABORTED one so marked is not reported BUS-ABORT beside it is
the model's choice (log entry 17). -/
def State.badInMember (s : State) (e : RxEntry) : State :=
  if e.lostAfter then (s.report .busOverrun).goStale
  else
    match e.status with
    | .checkError => (s.report .busCheck).goStale
    | .overlong => (s.report .busOverrun).goStale
    | .aborted => if e.own then s else s.report .busAbort
    | .clean _ => s

/-- R51, R126, R128, R131: what an entry that is not CLEAN or is marked lost-after does. -/
def State.takeBad (s : State) (e : RxEntry) : State :=
  match s.mem.state with
  | .census => if e.ownAborted then s else s.censusToListen
  | .joining => s.badInJoining e
  | .catchup => s.badInCatchup e
  | .member => s.badInMember e
  | .listen | .unconfigured | .isolated | .barred | .dormant => s

/-- The entry is CLEAN and hides no loss. -/
def RxEntry.isGood (e : RxEntry) : Bool :=
  match e.status with
  | .clean _ => !e.lostAfter
  | .checkError => false
  | .aborted => false
  | .overlong => false

/-- R51: RECEIVE-ENTRY-NOT-CLEAN. -/
def execReceiveEntryNotClean (s : State) : Host.Outcome State Fault Refusal :=
  live s fun s =>
    match s.bus.rx with
    | e :: _ => if e.isGood then s else (s.popRx.finishOwn e).takeBad e
    | [] => s

end Sys2Proof.Machine
end

