-- ==== Sys2Proof/Machine/Frames.lean ====
section
/-! DEFINITION. The taking of a CLEAN frame, one command for each of the eighteen kinds: the census
(R123, R125), presence (R55, R129, R139, R141), the directory (R99 to R108), takeover (R146, R152),
the recall exchange (R112 to R116) and catch-up (R131 to R137). -/

namespace Sys2Proof.Machine

/-! ### Census (R122, R123, R125, R126) -/

/-- R122: the seal deadline: 4P and half a P for each station number. -/
def State.sealTicks (s : State) : Nat := 4 * s.pTicks + s.me * (s.pTicks / 2)

/-- R123: the census list takes the sender's entry. -/
def State.enterCensus (s : State) (sender : Station) (quota : BitVec 4) (adoptDis : Bool) : State :=
  s.onMem fun m => { m with census := put m.census sender (some { quota := quota, adoptDis := adoptDis }) }

/-- R122, R123: a ROLL taken in CENSUS: its entry; for the own loopback the seal deadline; for another's
a report where the digest differs. -/
def State.rollInCensus (s : State) (own : Bool) (sender : Station) (quota : BitVec 4) (adoptDis : Bool)
    (digest : Params) : State :=
  let s1 := s.enterCensus sender quota adoptDis
  if own then s1.onMem fun m => { m with sealTimer := some s.sealTicks }
  else if s.mem.cfg.map (·.params) = some digest then s1
  else s1.report .paramMismatch (peer := some sender)

/-- R123: a ROLL is taken. -/
def takeRoll (own : Bool) (f : Frame) (s : State) : State :=
  match s.mem.state, f.body with
  | .census, .roll _ q a d => s.rollInCensus own f.sender q a d
  | .member, _ => s.fromPresent f id
  | _, _ => s

/-- R123: ROLL. -/
def execRoll (s : State) : Host.Outcome State Fault Refusal := takeClean .roll takeRoll s

/-- R125: every last-heard time restarts at 0. -/
def Bus.restartHeard (b : Bus) : Bus :=
  { b with heard := mapIdx b.heard fun _ h => { h with time := 0, reported := false } }

/-- R37, R40, R42, R125: the replica is sealed from a SEAL and the station becomes MEMBER. -/
def State.sealFrom (s : State) (l : List SealEntry) (p : Params) : State :=
  let s1 := s.setRep (Replica.ofSeal l p)
  let s2 := (allStations.filter s1.dir.rep.isPresent).foldl State.postPeer s1
  let s3 := (s2.onBus Bus.restartHeard).onMem fun m =>
    { m with census := Vector.replicate 8 none, sealTimer := none }
  (s3.enter .member).afterMember

/-- R125: the first SEAL taken in CENSUS decides the membership. What becomes of the seal deadline of a
station that it does not list is log entry 55, and of one that it bars log entry 25. -/
def State.sealInCensus (s : State) (sender : Station) (l : List SealEntry) (p : Params) : State :=
  if l.any (·.station == s.me) then
    if s.mem.cfg.map (·.params) = some p then s.sealFrom l p
    else (s.report .paramMismatch (peer := some sender)).bar
  else s.censusToListen

/-- R125: a SEAL is taken. -/
def takeSeal (_own : Bool) (f : Frame) (s : State) : State :=
  match s.mem.state, f.body with
  | .census, .seal l p => s.sealInCensus f.sender l p
  | .member, _ => s.fromPresent f id
  | _, _ => s

/-- R125: SEAL. -/
def execSeal (s : State) : Host.Outcome State Fault Refusal := takeClean .seal takeSeal s

/-! ### Presence (R55, R128, R129, R139, R141) -/

/-- R55: a BEACON that shows MEMBER with another generation is reported. -/
def State.beaconInMember (s : State) (sender : Station) : Body → State
  | .beacon _ g catchup _ =>
    if catchup || g == s.dir.rep.gen then s else s.report .beaconSkew (peer := some sender)
  | _ => s

/-- R55, R126: a BEACON is taken. -/
def takeBeacon (_own : Bool) (f : Frame) (s : State) : State :=
  match s.mem.state with
  | .census => s.censusToListen
  | .member => s.fromPresent f fun s => s.beaconInMember f.sender f.body
  | .listen | .joining | .catchup | .unconfigured | .isolated | .barred | .dormant => s

/-- R55: BEACON. -/
def execBeacon (s : State) : Host.Outcome State Fault Refusal := takeClean .beacon takeBeacon s

/-- R126, R128, R129, R131: a JOIN is taken. -/
def takeJoin (own : Bool) (f : Frame) (s : State) : State :=
  match s.mem.state with
  | .joining => if own then s.joinTaken else s
  | .census | .listen | .catchup | .member | .unconfigured | .isolated | .barred | .dormant =>
    s.takeDirectory f

/-- R129: JOIN. -/
def execJoin (s : State) : Host.Outcome State Fault Refusal := takeClean .join takeJoin s

/-- R141: LEAVE. -/
def execLeave (s : State) : Host.Outcome State Fault Refusal :=
  takeClean .leave (fun _ f s => s.takeDirectory f) s

/-- R139: ABSENT. -/
def execAbsent (s : State) : Host.Outcome State Fault Refusal :=
  takeClean .absent (fun _ f s => s.takeDirectory f) s

/-! ### Claims, shuts and restores (R99, R102, R106, R108) -/

/-- R99: CLAIM. -/
def execClaim (s : State) : Host.Outcome State Fault Refusal :=
  takeClean .claim (fun _ f s => s.takeDirectory f) s

/-- R102: SHUT. -/
def execShut (s : State) : Host.Outcome State Fault Refusal :=
  takeClean .shut (fun _ f s => s.takeDirectory f) s

/-- R106: SHUT-DONE. -/
def execShutDone (s : State) : Host.Outcome State Fault Refusal :=
  takeClean .shutDone (fun _ f s => s.takeDirectory f) s

/-- R108: RESTORE. -/
def execRestore (s : State) : Host.Outcome State Fault Refusal :=
  takeClean .restore (fun _ f s => s.takeDirectory f) s

/-! ### Takeover (R146, R152) -/

/-- R146: TAKEOVER. -/
def execTakeover (s : State) : Host.Outcome State Fault Refusal :=
  takeClean .takeover (fun _ f s => s.takeDirectory f) s

/-- R152: TAKEOVER-END. -/
def execTakeoverEnd (s : State) : Host.Outcome State Fault Refusal :=
  takeClean .takeoverEnd (fun _ f s => s.takeDirectory f) s

/-! ### The recall exchange (R112 to R116) -/

/-- R112: the loopback of the own RECALL: ASKED, and the answer timer starts with 2P. -/
def State.recallSent (s : State) (tag : ReqTag) : State :=
  match s.dir.request with
  | some (.recall e) =>
    if e.tag = tag ∧ e.phase = .queued then
      s.onDir fun d =>
        { d with request := some (.recall { e with phase := .asked, timer := some (2 * s.pTicks) }) }
    else s
  | _ => s

/-- R113: the answer of a MEMBER station that a RECALL names as target. -/
def State.answerRecall (s : State) (tag : ReqTag) (requester : Station) : State :=
  if s.dir.rep.excess s.me ≤ 0 then s.queueTo requester (.defer tag .noneOver)
  else if s.openExcess ≤ 0 then s.queueTo requester (.defer tag .allShutting)
  else
    match s.shutCandidate with
    | none => s.queueTo requester (.defer tag .allShutting)
    | some k => (s.decideShut k .recalled (some (tag, requester))).policyPass

/-- R112, R113: a RECALL in MEMBER: the own loopback, or one that names this station as target. -/
def State.recallInMember (s : State) (own : Bool) (tag : ReqTag) (requester target : Station) : State :=
  if own then s.recallSent tag
  else if target = s.me then s.answerRecall tag requester
  else s

/-- R112, R113: a RECALL is taken. -/
def takeRecall (own : Bool) (f : Frame) (s : State) : State :=
  match s.mem.state, f.body with
  | .census, _ => s.censusToListen
  | .member, .recall tag r g => s.fromPresent f fun s => s.recallInMember own tag r g
  | .catchup, .recall tag r g =>
    if g = s.me ∧ s.dir.rep.isPresent f.sender then s.queueTo r (.defer tag .stale) else s
  | _, _ => s

/-- R113: RECALL. -/
def execRecall (s : State) : Host.Outcome State Fault Refusal := takeClean .recall takeRecall s

/-- R116: a try below the last has failed: BACKOFF, with P, or 4P after ALL-SHUTTING. -/
def State.backOff (s : State) (e : RecallEntry) (allShutting : Bool) : State :=
  s.onDir fun d =>
    { d with request := some (.recall { e with
        phase := .backoff, timer := some (if allShutting then 4 * s.pTicks else s.pTicks) }) }

/-- R116, R185: the request is exhausted: the record takes the final target and tries and freezes, the
entry is removed, and the cooling period starts with 8P. -/
def State.exhaustRecall (s : State) (e : RecallEntry) : State :=
  let s1 := s.onFlt (·.followRequest false e.tag fun r => { r with target := some e.target, tries := e.tries })
  let s2 := (s1.report .recallExhausted (peer := some e.target)).onFlt Faults.freeze
  (s2.onDir fun d => { d with request := none, cooling := some (8 * s.pTicks) }).policyPass

/-- R116: a try fails. -/
def State.tryFails (s : State) (e : RecallEntry) (allShutting : Bool) : State :=
  if e.tries < 4 then s.backOff e allShutting else s.exhaustRecall e

/-- R115: a DEFER by the RECALL entry that holds its tag. -/
def State.deferred (s : State) (sender : Station) (tag : ReqTag) (why : DeferReason) : State :=
  match s.dir.request with
  | some (.recall e) =>
    if e.tag = tag then
      if e.phase = .asked ∧ sender = e.target then s.tryFails e (why == .allShutting) else s
    else s.report .unexpectedAnswer (peer := some sender)
  | _ => s.report .unexpectedAnswer (peer := some sender)

/-- R115: a DEFER is taken. -/
def takeDefer (_own : Bool) (f : Frame) (s : State) : State :=
  match s.mem.state, f.body with
  | .census, _ => s.censusToListen
  | .member, .defer tag why => s.fromPresent f fun s => s.deferred f.sender tag why
  | .catchup, .defer tag why => s.deferred f.sender tag why
  | _, _ => s

/-- R115: DEFER. -/
def execDefer (s : State) : Host.Outcome State Fault Refusal := takeClean .defer takeDefer s

/-! ### Catch-up (R131 to R137) -/

/-- R131: the ASK's loopback: OFFERS, and the offer timer starts with 3P. -/
def State.askTaken (s : State) (tag : ReqTag) : State :=
  match s.dir.request with
  | some (.ask e) =>
    if e.tag = tag ∧ e.phase = .asking then
      s.onDir fun d =>
        { d with request := some (.ask { e with phase := .offers, timer := some (3 * s.pTicks) }) }
    else s
  | _ => s

/-- R136: a responder that is not serving starts its offer delay of (station number + 1) P/4. -/
def State.startServing (s : State) (tag : ReqTag) (asker : Station) : State :=
  match s.dir.serving with
  | some _ => s
  | none =>
    s.onDir fun d =>
      { d with serving := some { tag := tag, asker := asker, phase := .delay ((s.me + 1) * (s.pTicks / 4)) } }

/-- R131, R136: a CATCHUP-ASK is taken. -/
def takeCatchupAsk (own : Bool) (f : Frame) (s : State) : State :=
  match s.mem.state, f.body with
  | .census, _ => s.censusToListen
  | .catchup, .catchupAsk tag _ => if own then s.askTaken tag else s
  | .member, .catchupAsk tag asker =>
    s.fromPresent f fun s => if own then s else s.startServing tag asker
  | _, _ => s

/-- R136: CATCHUP-ASK. -/
def execCatchupAsk (s : State) : Host.Outcome State Fault Refusal :=
  takeClean .catchupAsk takeCatchupAsk s

/-- R132, R185: the first offer for the attempt decides the responder. -/
def State.offerTaken (s : State) (tag : ReqTag) (asker responder : Station) : State :=
  match s.dir.request with
  | some (.ask e) =>
    if e.phase = .offers ∧ e.tag = tag ∧ asker = s.me then
      (s.onDir fun d =>
        { d with request := some (.ask { e with
            phase := .receiving responder 0, timer := some (2 * s.pTicks) }) }).onFlt
        (·.followRequest true tag fun r => { r with target := some responder })
    else s
  | _ => s

/-- R137: the frames of a serving: parts 0 to 6 and the end frame; their contents are composed at their
contention checks. -/
def servingBodies (tag : ReqTag) : List Body :=
  ((List.finRange 7).map fun p => Body.snapshot tag p []) ++ [.snapshotEnd tag 0 7 0]

/-- R137: the responder has won: its snapshot is queued. -/
def State.startSnapshot (s : State) (v : Serving) : State :=
  (servingBodies v.tag).foldl (fun x b => x.queueTo v.asker b)
    (s.onDir fun d => { d with serving := some { v with phase := .sending } })

/-- R136, R137: a CATCHUP-OFFER in MEMBER: the own loopback wins; another's for the same tag and asker
ends an offer delay, or marks a queued offer for withdrawal at its check. -/
def State.offerSeen (s : State) (own : Bool) (tag : ReqTag) (asker : Station) : State :=
  match s.dir.serving with
  | none => s
  | some v =>
    if v.tag = tag ∧ v.asker = asker then
      match v.phase with
      | .delay _ => if own then s else s.onDir fun d => { d with serving := none }
      | .offered _ =>
        if own then s.startSnapshot v
        else s.onDir fun d => { d with serving := some { v with phase := .offered true } }
      | .sending => s
    else s

/-- R132, R136, R137: a CATCHUP-OFFER is taken. -/
def takeCatchupOffer (own : Bool) (f : Frame) (s : State) : State :=
  match s.mem.state, f.body with
  | .census, _ => s.censusToListen
  | .catchup, .catchupOffer tag asker responder => s.offerTaken tag asker responder
  | .member, .catchupOffer tag asker _ => s.fromPresent f fun s => s.offerSeen own tag asker
  | _, _ => s

/-- R132: CATCHUP-OFFER. -/
def execCatchupOffer (s : State) : Host.Outcome State Fault Refusal :=
  takeClean .catchupOffer takeCatchupOffer s

/-- R132: the part expected is stored and the part gap timer restarts; any other fails the attempt. -/
def State.partTaken (s : State) (e : AskEntry) (responder : Station) (next : Nat) (part : Fin 7)
    (content : List Byte) : State :=
  if part.val = next then
    s.onDir fun d =>
      { d with snap := d.snap ++ [content],
               request := some (.ask { e with
                 phase := .receiving responder (next + 1), timer := some (2 * s.pTicks) }) }
  else s.attemptFail

/-- R132, R133: a frame of the snapshot in CATCHUP: from the responder with the entry's tag it acts;
any other is disregarded. -/
def State.snapshotFrame (s : State) (sender : Station) (b : Body) : State :=
  match s.dir.request with
  | some (.ask e) =>
    match e.phase with
    | .receiving r n =>
      match b with
      | .snapshot tag part content =>
        if sender = r ∧ tag = e.tag then s.partTaken e r n part content else s
      | .snapshotEnd tag g count sum =>
        if sender = r ∧ tag = e.tag then s.endSnapshot r n g count sum else s
      | _ => s
    | .asking => s
    | .offers => s
  | _ => s

/-- R132, R133: a SNAPSHOT or SNAPSHOT-END is taken. -/
def takeSnapshot (_own : Bool) (f : Frame) (s : State) : State :=
  match s.mem.state with
  | .census => s.censusToListen
  | .catchup => s.snapshotFrame f.sender f.body
  | .member => s.fromPresent f id
  | .listen | .joining | .unconfigured | .isolated | .barred | .dormant => s

/-- R132: SNAPSHOT. -/
def execSnapshot (s : State) : Host.Outcome State Fault Refusal := takeClean .snapshot takeSnapshot s

/-- R133: SNAPSHOT-END. -/
def execSnapshotEnd (s : State) : Host.Outcome State Fault Refusal :=
  takeClean .snapshotEnd takeSnapshot s

end Sys2Proof.Machine
end

