-- ==== Sys2Proof/Machine/Transmit.lean ====
section
/-! DEFINITION. Commands of the sending side of the placement bus: the contention event with the
directory engine's check of each head (R87, R97, R98, R111), the ends of an attempt (R88, R89), the
yield gap (R90), held frames (R86) and the beacon timer (R92). -/

namespace Sys2Proof.Machine

/-! ### The contention check (R97, Table 6-1) -/

/-- The outcome of a check: withdrawn, or passed with the body as it goes out. -/
inductive Verdict where
  | withdraw
  | pass (b : Body)
  deriving DecidableEq, Repr

/-- A head that passes as it stands unless a condition withdraws it. -/
def Verdict.unless (w : Bool) (b : Body) : Verdict := if w then .withdraw else .pass b

/-- R98: a CLAIM at the head is still allowed. -/
def State.claimAllowed (s : State) (kind : SlotKind) : Bool :=
  let r := s.dir.rep
  s.line.mode == .run && !s.line.warned &&
    ((decide (r.heldCount s.me < r.quota s.me) && decide (0 < r.freeCount)) ||
      (decide (r.quota s.me ≤ r.heldCount s.me) && !s.line.pressure &&
        decide (r.reserve s.me < r.freeCount))) &&
    (match kind with | .mixed => !r.holdsMixed s.me | .normal _ => true)

/-- R98: the lowest-numbered FREE slot no other QUEUED entry names. -/
def State.rewriteSlot (s : State) (k : Slot) : Option Slot :=
  allSlots.find? fun j => s.dir.rep.dir[j] == .free && !s.queuedClaims.any fun e => e.slot == j && j != k

/-- R98: the check of a CLAIM. -/
def State.checkClaim (s : State) (k : Slot) (kind : SlotKind) : Verdict :=
  if s.claimAllowed kind then
    if k.val < s.dir.rep.budget ∧ s.dir.rep.dir[k] = .free then .pass (.claim k kind)
    else
      match s.rewriteSlot k with
      | some j => .pass (.claim j kind)
      | none => .withdraw
  else .withdraw

/-- R111: a recall is permitted and needed, and has this target. -/
def State.recallStands (s : State) : Option Station :=
  if s.line.mode = .run ∧ s.line.warned = false ∧
      s.dir.rep.heldCount s.me < s.dir.rep.quota s.me ∧ s.dir.rep.freeCount = 0 then s.recallTarget
  else none

/-- R124: the SEAL's body: every census list entry, ascending, and the configured parameters. -/
def State.sealBody (s : State) (p : Params) : Body :=
  .seal
    (allStations.filterMap fun st =>
      s.mem.census[st].map fun e => { station := st, quota := e.quota, adoptDis := e.adoptDis })
    (match s.mem.cfg with | some c => c.params | none => p)

/-- R137: the bodies of the snapshot: for part 0, of the replica as it stands; else of the buffer. -/
def State.snapNow (s : State) (tag : ReqTag) (part : Fin 7) : List (List Byte) :=
  if part = 0 then snapshotParts tag s.dir.rep else s.dir.snap

/-- R137: the asker of the serving is no longer PRESENT. -/
def State.askerGone (s : State) (dest : Option Station) : Bool :=
  match dest with | some a => !s.dir.rep.isPresent a | none => true

/-- R97, Table 6-1: the check of a head, by kind. -/
def State.check (s : State) (q : QFrame) : Verdict :=
  match q.body with
  | .claim k kind => s.checkClaim k kind
  | .shut k c a => .pass (.shut k c a)
  | .shutDone k o => .pass (.shutDone k o)
  | .leave st =>
    .unless (decide (s.dir.rep.heldCount s.me ≠ 0) || s.dir.rep.runNames s.me) (.leave st)
  | .restore k => .unless (s.dir.rep.dir[k] != .quarantined) (.restore k)
  | .absent st => .unless (!s.dir.rep.isPresent st || s.heardWithin st) (.absent st)
  | .takeover h =>
    .unless (s.dir.rep.runs[h] != none || !s.dir.rep.hasOrphan h || s.dir.rep.adopter != some s.me)
      (.takeover h)
  | .takeoverEnd h o => .unless (o == .done && s.dir.rep.hasOrphan h) (.takeoverEnd h o)
  | .recall tag r _ =>
    match s.recallStands with
    | some g => .pass (.recall tag r g)
    | none => .withdraw
  | .catchupOffer tag a r =>
    .unless
      (match s.dir.serving with
        | some { phase := .offered beaten, .. } => beaten
        | _ => false)
      (.catchupOffer tag a r)
  | .seal _ p => .pass (s.sealBody p)
  | .beacon st _ _ _ => .pass (.beacon st s.dir.rep.gen (s.mem.state == .catchup) s.line.mode)
  | .snapshot tag part _ =>
    .unless (s.askerGone q.dest) (.snapshot tag part ((s.snapNow tag part).getD part.val []))
  | .snapshotEnd tag _ _ _ =>
    .unless (s.askerGone q.dest) (.snapshotEnd tag s.dir.snapGen 7 (snapshotSum s.dir.snap))
  | .roll st qu a d => .pass (.roll st qu a d)
  | .join st qu a d => .pass (.join st qu a d)
  | .defer tag why => .pass (.defer tag why)
  | .catchupAsk tag a => .pass (.catchupAsk tag a)

/-! ### What a withdrawal and a pass do (R63, R97, R98, R111, R136, R137, R146, R150) -/

/-- The contention event as it goes: the claimants of withdrawn CLAIMs, whether a claim or a request
has ended, whether a takeover frame was withdrawn, and the frame that passed. -/
structure Contend where
  st : State
  skip : List Ctx
  ended : Bool
  duty : Bool
  passed : Option Frame

/-- R63: the claim list entry of a withdrawn CLAIM. -/
def State.claimEntryFor (s : State) (k : Slot) : Option ClaimEntry :=
  s.plc.claims.find? fun e => e.slot == k && e.phase == .queued

/-- The body belongs to a serving: a SNAPSHOT part or its end frame. -/
def Body.isServing : Body → Bool | .snapshot .. => true | .snapshotEnd .. => true | _ => false

/-- R146: the record of a withdrawn TAKEOVER is removed. -/
def State.dropQueuedDuty (s : State) (h : Station) : State := s.setDuty h none

/-- R150: the record of a withdrawn TAKEOVER-END returns to RUNNING. -/
def State.resumeDuty (s : State) (h : Station) : State :=
  s.onMem fun m => { m with duty := put m.duty h (m.duty[h].map fun d => { d with phase := .running }) }

/-- R97: the producer of a withdrawn head is told. -/
def Contend.withdrawn (c : Contend) (b : Body) : Contend :=
  match b with
  | .claim k _ =>
    { c with
      st := c.st.onPlc fun p =>
        { p with claims := p.claims.filter fun e => !(e.slot == k && e.phase == .queued) },
      skip := c.skip ++ ((c.st.claimEntryFor k).bind (·.claimant)).toList, ended := true }
  | .recall .. => { c with st := c.st.onDir fun d => { d with request := none }, ended := true }
  | .catchupOffer .. => { c with st := c.st.onDir fun d => { d with serving := none } }
  | .snapshot .. | .snapshotEnd .. =>
    { c with
      st := (c.st.withdraw Body.isServing).onDir fun d => { d with serving := none, snap := [] } }
  | .takeover h => { c with st := c.st.dropQueuedDuty h, duty := true }
  | .takeoverEnd h _ => { c with st := c.st.resumeDuty h, duty := true }
  | .absent _ | .leave _ | .restore _ | .seal .. | .shut .. | .shutDone .. | .roll .. | .beacon ..
  | .join .. | .defer .. | .catchupAsk .. => c

/-- R98, R111, R137: the records that follow a head as it passes: a rewritten CLAIM's entry, a RECALL's
target, and the buffer that part 0 fills. -/
def State.passing (s : State) (old new : Body) : State :=
  match old, new with
  | .claim k _, .claim j _ =>
    s.onPlc fun p =>
      { p with claims := p.claims.map fun e =>
          if e.slot = k ∧ e.phase = .queued then { e with slot := j } else e }
  | _, .recall _ _ g =>
    s.onDir fun d =>
      { d with request :=
          match d.request with
          | some (.recall e) => some (.recall { e with target := g })
          | r => r }
  | _, .snapshot tag part _ =>
    if part = 0 then
      s.onDir fun d => { d with snap := snapshotParts tag d.rep, snapGen := d.rep.gen }
    else s
  | _, _ => s

/-- R79, R80: the frame that goes out, with its base generation stamped. -/
def State.stamp (s : State) (dest : Option Station) (b : Body) : Frame :=
  { sender := s.me, dest := dest, base := if b.kind.hasBase then some s.dir.rep.gen else none, body := b }

/-- R87, R97: the heads are checked in turn until one passes or the queue is empty. -/
def contend : Nat → Contend → Contend
  | 0, c => c
  | n + 1, c =>
    match c.st.bus.tx with
    | [] => c
    | q :: rest =>
      match c.st.check q with
      | .withdraw => contend n (Contend.withdrawn { c with st := c.st.onBus Bus.popTx } q.body)
      | .pass b =>
        let s1 := (c.st.onBus fun u => { u with tx := { q with body := b } :: rest }).passing q.body b
        { c with st := s1, passed := some (s1.stamp q.dest b) }

/-- R87: the conditions under which the station contends, given the quiet medium of the event. -/
def State.contends (s : State) : Bool :=
  s.bus.receiver == .hunt && s.bus.sending.isNone && !s.bus.tx.isEmpty && !s.bus.yieldOwed &&
    s.bus.rx.isEmpty

/-- R57, R63, R145, R146: the work the withdrawals lead to. -/
def Contend.settle (c : Contend) : State :=
  let s1 := if c.ended then c.st.policyPass c.skip else c.st
  let s2 := if c.duty then s1.dutyEval else s1
  s2.queueLeave

/-- R87: the transmitter begins the head's opening delimiter, unless the line is dominant already. -/
def State.begin (s : State) (f : Frame) (lineDominant : Bool) : State :=
  s.onBus fun b =>
    if lineDominant then { b with mediumBusy := true }
    else
      { b with sending := some { frame := f, withdrawn := false, readback := .reading },
               receiver := .receiving 0, mediumBusy := true }

/-- The medium has been seen quiet, where the receiver is in HUNT and nothing is being sent (R78). -/
def State.sawQuiet (s : State) : State :=
  if s.bus.receiver = .hunt ∧ s.bus.sending.isNone then s.onBus fun b => { b with mediumBusy := false }
  else s

/-- R87: the heads are checked, the frame that passed is begun, and the work of the withdrawals is
done. -/
def State.contention (s : State) (lineDominant : Bool) : State :=
  let c := contend s.bus.tx.length { st := s, skip := [], ended := false, duty := false, passed := none }
  match c.passed with
  | some f => Contend.settle { c with st := c.st.begin f lineDominant }
  | none => c.settle

/-- R87, R97: CONTENTION. -/
def execContention (lineDominant : Bool) (s : State) : Host.Outcome State Fault Refusal :=
  live s fun s =>
    let s1 := s.sawQuiet
    if s1.contends then s1.contention lineDominant else s1

/-! ### The ends of an attempt (R88, R89, R90) -/

/-- R88: ARBITRATION-LOST. The line is released; the frame stays at the head, unless it has been
withdrawn (R91), and the stamp is void. -/
def execArbitrationLost (s : State) : Host.Outcome State Fault Refusal :=
  live s fun s =>
    match s.bus.sending with
    | none => s
    | some sg =>
      s.onBus fun b =>
        if sg.withdrawn then { b.popTx with sending := none } else { b with sending := none }

/-- R89: TRANSMISSION-COMPLETE. -/
def execTransmissionComplete (s : State) : Host.Outcome State Fault Refusal := live s State.completeTx

/-- R89: TRANSMISSION-ABORT. -/
def execTransmissionAbort (s : State) : Host.Outcome State Fault Refusal := live s State.abortTx

/-- R90: YIELD-GAP-EXPIRY. The line has been recessive for the yield gap: the obligation is met and the
medium is quiet (R78). -/
def execYieldGapExpiry (s : State) : Host.Outcome State Fault Refusal :=
  live s fun s =>
    if s.bus.receiver = .hunt ∧ s.bus.sending.isNone then
      s.onBus fun b => { b with yieldOwed := false, mediumBusy := false }
    else s

/-! ### The transmit queue and the beacon timer (R86, R92) -/

/-- R86: HELD-FRAME-JOINS. -/
def execHeldFrameJoins (s : State) : Host.Outcome State Fault Refusal :=
  live s fun s =>
    s.onBus fun b =>
      match b.held with
      | q :: rest => if b.tx.length < 8 then { b with tx := b.tx ++ [q], held := rest } else b
      | [] => b

/-- R92: the beacon timer expires; a BEACON joins an empty queue. -/
def Bus.beaconExpires (b : Bus) (q : QFrame) : Bus :=
  { b with beacon := .expired, tx := if b.tx.isEmpty && b.held.isEmpty then [q] else b.tx }

/-- R92: BEACON-TIMER-EXPIRY. -/
def execBeaconTimerExpiry (s : State) : Host.Outcome State Fault Refusal :=
  live s fun s =>
    match s.bus.beacon with
    | .running _ =>
      s.onBus (·.beaconExpires { dest := none, body := .beacon s.me 0 false .run })
    | .stopped => s
    | .expired => s

end Sys2Proof.Machine
end

