-- ==== Sys2Proof/Machine/Timers.lean ====
section
/-! DEFINITION. Commands that are the expiries of the membership, catch-up and recall timers: R94,
R115, R116, R124, R127, R132, R135, R136. -/

namespace Sys2Proof.Machine

/-! ### Silence (R94, R138) -/

/-- R94, R138: LAST-HEARD-EXPIRY. The last-heard time of another station reaches 3P; the report is made
once for each silence, and in MEMBER queues an ABSENT for a PRESENT station. -/
def execLastHeardExpiry (st : Station) (s : State) : Host.Outcome State Fault Refusal :=
  live s fun s =>
    let h := s.bus.heard[st]
    if st = s.me ∨ s.bus.receiver = .off ∨ h.reported ∨ s.mem.cfg = none then s
    else
      let s1 := s.onBus fun b =>
        { b with heard := put b.heard st { h with time := max h.time (3 * s.pTicks), reported := true } }
      if s1.mem.state = .member then s1.queueAbsent st else s1

/-! ### Census and listening (R124, R127) -/

/-- R124: SEAL-DEADLINE-EXPIRY. A SEAL is queued in CENSUS; its body is composed at its check. -/
def execSealDeadlineExpiry (s : State) : Host.Outcome State Fault Refusal :=
  live s fun s =>
    match s.mem.sealTimer, s.mem.cfg with
    | some _, some c =>
      let s1 := s.onMem fun m => { m with sealTimer := none }
      if s1.mem.state = .census then s1.queueFrame (.seal [] c.params) else s1
    | _, _ => s

/-- R127: some station has been heard within 3P and its latest BEACON showed MEMBER. -/
def State.memberHeard (s : State) : Bool :=
  allStations.any fun st =>
    st != s.me && s.heardWithin st &&
      (match s.bus.heard[st].beacon with | some b => !b.catchup | none => false)

/-- R127: the JOIN of this station. -/
def State.joinBody (s : State) (c : StationCfg) : Body := .join s.me c.quota s.mem.adoptDis c.params

/-- R127: LISTEN-TIMER-EXPIRY. With a live member heard a JOIN is queued and the timer stops; else the
timer starts again in full. -/
def execListenTimerExpiry (s : State) : Host.Outcome State Fault Refusal :=
  live s fun s =>
    match s.mem.listenTimer, s.mem.cfg with
    | some _, some c =>
      if s.mem.state = .listen then
        if s.memberHeard then
          (s.onMem fun m => { m with listenTimer := none }).queueFrame (s.joinBody c)
        else s.onMem fun m => { m with listenTimer := some s.listenTicks }
      else s.onMem fun m => { m with listenTimer := none }
    | _, _ => s

/-! ### Catch-up (R132, R135, R136) -/

/-- R132: OFFER-TIMER-EXPIRY. No offer came in OFFERS: the attempt fails. -/
def execOfferTimerExpiry (s : State) : Host.Outcome State Fault Refusal :=
  live s fun s =>
    match s.dir.request with
    | some (.ask { phase := .offers, .. }) => s.attemptFail
    | _ => s

/-- R132: PART-GAP-TIMER-EXPIRY. A gap of more than 2P in RECEIVING: the attempt fails. -/
def execPartGapTimerExpiry (s : State) : Host.Outcome State Fault Refusal :=
  live s fun s =>
    match s.dir.request with
    | some (.ask { phase := .receiving .., .. }) => s.attemptFail
    | _ => s

/-- R135: RETRY-TIMER-EXPIRY. The next attempt begins. -/
def execRetryTimerExpiry (s : State) : Host.Outcome State Fault Refusal :=
  live s fun s =>
    match s.mem.retryTimer with
    | none => s
    | some _ =>
      let s1 := s.onMem fun m => { m with retryTimer := none }
      if s1.mem.state = .catchup then s1.beginAttempt else s1

/-- R136: OFFER-DELAY-EXPIRY. A CATCHUP-OFFER is queued, naming this station as responder. Outside MEMBER,
as in DORMANT after a LEAVE, the expiry only ends the serving (log entry 45). -/
def execOfferDelayExpiry (s : State) : Host.Outcome State Fault Refusal :=
  live s fun s =>
    match s.dir.serving with
    | some v =>
      match v.phase with
      | .delay _ =>
        if s.mem.state = .member then
          (s.onDir fun d => { d with serving := some { v with phase := .offered false } }).queueFrame
            (.catchupOffer v.tag v.asker s.me)
        else s.onDir fun d => { d with serving := none }
      | .offered _ => s
      | .sending => s
    | none => s

/-! ### Recalls (R115, R116) -/

/-- R115, R116: ANSWER-TIMER-EXPIRY. The try of an ASKED entry fails. -/
def execAnswerTimerExpiry (s : State) : Host.Outcome State Fault Refusal :=
  live s fun s =>
    match s.dir.request with
    | some (.recall e) => if e.phase = .asked then s.tryFails e false else s
    | _ => s

/-- R116: the next try: QUEUED again, with the same tag, one try more and the target computed afresh. -/
def State.retryRecall (s : State) (e : RecallEntry) (target : Station) : State :=
  let e' := { e with phase := .queued, target := target, tries := e.tries + 1, timer := none }
  ((s.onDir fun d => { d with request := some (.recall e') }).queueFrame
    (.recall e.tag s.me target)).onFlt
    (·.followRequest false e.tag fun r => { r with target := some target, tries := e'.tries })

/-- R116: BACKOFF-TIMER-EXPIRY. The recall is tested as at contention: it ends without a fault, or is
tried again. -/
def execBackoffTimerExpiry (s : State) : Host.Outcome State Fault Refusal :=
  live s fun s =>
    match s.dir.request with
    | some (.recall e) =>
      if e.phase = .backoff then
        match s.recallStands with
        | some g => s.retryRecall e g
        | none => (s.onDir fun d => { d with request := none }).policyPass
      else s
    | _ => s

/-- R116: COOLING-PERIOD-EXPIRY. -/
def execCoolingPeriodExpiry (s : State) : Host.Outcome State Fault Refusal :=
  live s fun s =>
    match s.dir.cooling with
    | none => s
    | some _ => (s.onDir fun d => { d with cooling := none }).policyPass

end Sys2Proof.Machine
end

