-- ==== Sys2Proof/Machine/Intake.lean ====
section
/-! DEFINITION. Commands of the intake unit: DESCRIPTOR-PASSES (R2, R4), TAKE-INTAKE-HEAD (R5 to R13,
R20 to R24), RESULT-ENTERS-QUEUE (R7) and OUTBOUND-RECORD-TAKEN (R1, R181). -/

namespace Sys2Proof.Machine

/-- R1, R2, R4: DESCRIPTOR-PASSES. While DREADY is asserted the descriptor joins the intake queue. -/
def execDescriptorPasses (b0 b1 b2 b3 b4 b5 : Byte) (s : State) : Host.Outcome State Fault Refusal :=
  live s fun s =>
    if s.dready then s.onIntake fun i => { i with queue := i.queue ++ [descriptorOf b0 b1 b2 b3 b4 b5] }
    else s

/-! ### Taking the head (R5) -/

/-- R5, R7: a refusal of the head can be delivered: the result queue has a free entry and no result has
waited longer. -/
def Intake.headMayEnter (i : Intake) : Bool :=
  i.results.length < 32 &&
    (match i.waiters with
      | [] => true
      | .intakeHead :: _ => true
      | .store _ :: _ => false
      | .completion _ :: _ => false)

/-- R3, R12, R34: the head leaves refused: its result enters the result queue, and the context it
names counts it. -/
def State.refuseHead (s : State) (d : Descriptor) (why : Reason) (c : Option Ctx) : State :=
  let s1 := s.onIntake fun i => { i.popHead with results := i.results ++ [refusal d.tag why c] }
  match c with
  | some c => s1.countRefused c
  | none => s1

/-- R5, R13, R57: the head leaves accepted: it joins a stream's list, and a policy pass is made. -/
def State.acceptHead (s : State) (d : Descriptor) (dest : Dest) (cls : LifeClass) : State :=
  ((s.onIntake Intake.popHead).handOff d dest cls).policyPass

/-- R5: the head is taken at the first moment its outcome can be delivered. -/
def State.takeHead (s : State) : State :=
  match s.intake.queue with
  | [] => s
  | d :: _ =>
    match s.headOutcome d with
    | .refuse why c => if s.intake.headMayEnter then s.refuseHead d why c else s
    | .accept dest cls => if s.storeUsed < 128 then s.acceptHead d dest cls else s

/-- R5: TAKE-INTAKE-HEAD. -/
def execTakeIntakeHead (s : State) : Host.Outcome State Fault Refusal := live s State.takeHead

/-! ### The result queue (R7, R22, R70) -/

/-- The first waiter leaves. -/
def Intake.popWaiter (i : Intake) : Intake := { i with waiters := i.waiters.drop 1 }

/-- A result joins the result queue. -/
def Intake.addResult (i : Intake) (r : ResultRec) : Intake := { i with results := i.results ++ [r] }

/-- R7, R22, R70: the result that has waited longest enters; its pending store entry, or its completion
table entries and tags, are freed; a waiting intake head is taken. -/
def State.admitWaiter (s : State) : State :=
  match s.intake.waiters with
  | [] => s
  | .intakeHead :: _ => s.takeHead
  | .store r :: _ => s.onIntake fun i => i.popWaiter.addResult r
  | .completion t :: _ =>
    match (s.plc.comp[t]).bind (·.result) with
    | some r => (s.onIntake fun i => i.popWaiter.addResult r).onPlc (·.freeParts t)
    | none => s.onIntake Intake.popWaiter

/-- R7: RESULT-ENTERS-QUEUE. -/
def execResultEntersQueue (s : State) : Host.Outcome State Fault Refusal :=
  live s fun s => if s.intake.results.length < 32 then s.admitWaiter else s

/-! ### The outbound lane (R1, R181, R183) -/

/-- R1, R181, R183: the record on offer leaves its holding place or queue. -/
def State.takeOffer (s : State) : State :=
  match s.intake.offer with
  | none => s
  | some .response => s.onIntake fun i => { i with response := none, offer := none }
  | some .notice =>
    (s.onFlt fun f => { f with notices := f.notices.drop 1 }).onIntake fun i => { i with offer := none }
  | some .result => s.onIntake fun i => { i with results := i.results.drop 1, offer := none }

/-- R181: OUTBOUND-RECORD-TAKEN. -/
def execOutboundRecordTaken (s : State) : Host.Outcome State Fault Refusal := live s State.takeOffer

end Sys2Proof.Machine
end

