-- ==== Sys2Proof/Machine/Place.lean ====
section
/-! DEFINITION. Commands of the stream table and the placement engine: DEADLINE-EXPIRY (R28),
IDLE-TIMER-EXPIRY (R30), ISSUE-PLACE (R65, R66, R73) and PLACE-DONE (R68, R69), with the readiness of
directives that orders the directive queue (R159). -/

namespace Sys2Proof.Machine

/-! ### Deadlines (R28) -/

/-- R28: the oldest entry of a list that still has a deadline, and the list without it. -/
def takeDeadline : List PendingEntry → Option (PendingEntry × List PendingEntry)
  | [] => none
  | e :: rest =>
    if e.deadline.isSome then some (e, rest)
    else (takeDeadline rest).map fun r => (r.1, e :: r.2)

/-- R28: a WAITING stream whose list has emptied becomes IDLE. -/
def Context.withPending (x : Context) (l : List PendingEntry) : Context :=
  { x with pending := l, state := if x.state = .waiting ∧ l = [] then .idle else x.state }

/-- R28: the deadline of a stream's oldest entry expires: it is refused NO-PLACEMENT. -/
def State.expireDeadline (s : State) (c : Ctx) : State :=
  match takeDeadline s.str.ctxs[c].pending with
  | none => s
  | some (e, rest) =>
    (((s.onCtx c fun x => x.withPending rest).countRefused c).deliver
      (refusal e.tag .noPlacement (some c))).policyPass

/-- R28: DEADLINE-EXPIRY. Deadlines count running time only. -/
def execDeadlineExpiry (c : Ctx) (s : State) : Host.Outcome State Fault Refusal :=
  live s fun s => if s.runs then s.expireDeadline c else s

/-! ### Idle time (R30) -/

/-- R30: the context returns to UNASSIGNED; its counters keep their values. -/
def Context.expired (x : Context) : Context :=
  { Context.unassigned with counters := x.counters, inFlight := x.inFlight }

/-- R25, R74: the release of a slot the stream was resident in. -/
def State.releaseSlot (s : State) (c : Ctx) (slot : Option (Slot × Gen)) : State :=
  match slot with
  | some (k, _) => s.leaveSlot c k
  | none => s

/-- R30: the idle timer of a context expires. -/
def State.expireIdle (s : State) (c : Ctx) : State :=
  let x := s.str.ctxs[c]
  if c ≠ 0 ∧ x.idle.isSome then ((s.onCtx c Context.expired).releaseSlot c x.slot).policyPass else s

/-- R30: IDLE-TIMER-EXPIRY. -/
def execIdleTimerExpiry (c : Ctx) (s : State) : Host.Outcome State Fault Refusal :=
  live s fun s => s.expireIdle c

/-! ### Which directive may be issued (R103, R159, R161) -/

/-- R66, R103, R161: directives are issued in MEMBER and CATCHUP. -/
def MemberState.issues : MemberState → Bool
  | .member | .catchup => true
  | .unconfigured | .census | .listen | .joining | .isolated | .barred | .dormant => false

/-- R159: the directive queue has a free entry. -/
def State.queueRoom (s : State) : Bool := s.mem.state.issues && s.link.queue.length < 16

/-- R103: a holding meets the conditions of its CLOSE-ORDER, room apart. -/
def State.closeWanted (s : State) (k : Slot) : Bool :=
  match s.dir.ext[k] with
  | some x =>
    s.shutApplied k && x.shutDue.isNone && x.inFlight == 0 && x.readiness != .awaitingOpen &&
      !x.closeOrderIssued && x.closeReport.isNone
  | none => false

/-- R103: the holding whose CLOSE-ORDER is issued next: the one whose SHUT was applied first. -/
def State.nextClose (s : State) : Option Slot :=
  if s.queueRoom && s.link.closes.length < 4 then s.dir.closing.find? s.closeWanted else none

/-- R161: the OPEN-ORDER issued next: the oldest held one. -/
def State.nextOpen (s : State) : Option OpenOrder :=
  if s.queueRoom && s.link.opens.length < 4 then s.link.heldOpens.head? else none

/-! ### Issuing a PLACE (R65, R66) -/

/-- R66: the stream is BOUND, something is pending, and its slot takes data: the replica shows the
incarnation OPEN under this station, and the extension is READY with no shut due. -/
def State.mayIssue (s : State) (c : Ctx) : Bool :=
  match s.str.ctxs[c].state, s.str.ctxs[c].slot, s.str.ctxs[c].pending with
  | .bound, some (k, g), _ :: _ =>
    s.grantable k &&
      (match s.dir.ext[k] with | some x => x.serial == g | none => false) &&
      s.dir.rep.dir[k].serial? == some g
  | _, _, _ => false

/-- R66: the BOUND stream that issues next: the one with the oldest head. -/
def State.nextPlacer (s : State) : Option Ctx :=
  ((allCtxs.filter s.mayIssue).foldl (fun l c => insertByAge s.str c l) []).head?

/-- R160: the lowest directive tag not in use. -/
def Placement.freeTag (p : Placement) : Option DTag :=
  (List.finRange 256).find? fun t => (p.comp[t]).isNone

/-- R66, R159, R160: the stream and the tag of the PLACE issued now. CLOSE-ORDERs and OPEN-ORDERs that
could be issued go first. -/
def State.placeTurn (s : State) : Option (Ctx × DTag) :=
  if s.queueRoom && s.runs && s.nextClose.isNone && s.nextOpen.isNone then
    s.nextPlacer.bind fun c => s.plc.freeTag.map fun t => (c, t)
  else none

/-- R65, R66: what a PLACE is made from: its stream and tag, the head entry and those behind it, the
slot and its extension. -/
structure PlaceJob where
  c : Ctx
  t : DTag
  e : PendingEntry
  rest : List PendingEntry
  k : Slot
  x : Ext

/-- The extent of `n` PU at the cursor. -/
def PlaceJob.extent (j : PlaceJob) (n : Nat) : Extent :=
  { slot := j.k, serial := j.x.serial, offset := j.x.cursor, length := n }

/-- R66: the completion table entry of a PLACE. -/
def PlaceJob.entry (j : PlaceJob) (n : Nat) (tail : Option TailState) (partner : Option DTag) : CompEntry :=
  { tag := j.e.tag, length := j.e.length, stream := j.c, extent := j.extent n,
    second := j.e.headExtent.isSome, outcome := .outstanding, tail := tail, partner := partner,
    result := none }

/-- R56, R66: the link of extent 1 to the extent 2 issued with this tag. -/
def CompEntry.linkTail (t : DTag) (e : CompEntry) : CompEntry :=
  { e with tail := some .issued, partner := some t }

/-- R56, R66: the completion table takes the entry; for extent 2 the entry of extent 1 is linked. -/
def PlaceJob.table (j : PlaceJob) (n : Nat) (isHead : Bool) (p : Placement) : Placement :=
  if j.e.headExtent.isSome then
    match p.tailOwner j.c with
    | some t1 =>
      let linked := put p.comp t1 ((p.comp[t1]).map (CompEntry.linkTail j.t))
      { p with comp := put linked j.t (some (j.entry n none (some t1))) }
    | none => { p with comp := put p.comp j.t (some (j.entry n none none)) }
  else
    { p with comp := put p.comp j.t (some (j.entry n (if isHead then some .waiting else none) none)) }

/-- R50: the extension after a PLACE. -/
def PlaceJob.filled (j : PlaceJob) (n : Nat) (now : BitVec 32) : Ext :=
  { j.x with cursor := j.x.cursor + n, inFlight := j.x.inFlight + 1, lastFill := some now }

/-- R34: the counters after a PLACE: split for a head extent, and spilled for a first extent of a keyed
stream in the MIXED slot. -/
def PlaceJob.counted (j : PlaceJob) (isHead mixed : Bool) (n : Counters) : Counters :=
  { n with
    split := if isHead then sat32 n.split 1 else n.split,
    spilled := if mixed && j.c != 0 && j.e.headExtent.isNone then sat32 n.spilled 1 else n.spilled }

/-- R23, R27: the context after a PLACE of `n` PU: the entry leaves, or stays as a tail. -/
def PlaceJob.ctx (j : PlaceJob) (n : Nat) (isHead mixed : Bool) (now : BitVec 32) (x : Context) : Context :=
  { x with
    pending :=
      if isHead then
        { j.e with remaining := j.e.remaining - n, deadline := none, headExtent := some (j.extent n) } ::
          j.rest
      else j.rest,
    inFlight := x.inFlight + 1, lastWrite := some now, counters := j.counted isHead mixed x.counters }

/-- R66: the PLACE directive. -/
def PlaceJob.directive (j : PlaceJob) (n : Nat) : Directive := .place j.t j.e.tag (j.extent n) j.c

/-- R66, R73: the PLACE of `n` PU is issued; a cursor that reaches C decides the shut FULL. -/
def State.issue (s : State) (j : PlaceJob) (n : Nat) (isHead : Bool) : State :=
  let mixed := s.dir.rep.dir[j.k].kind? == some .mixed
  let s1 := s.onPlc (j.table n isHead)
  let s2 := s1.setExt j.k (some (j.filled n s.str.timeMs))
  let s3 := s2.onCtx j.c (j.ctx n isHead mixed s.str.timeMs)
  let s4 := s3.onLink fun l => { l with queue := l.queue ++ [j.directive n] }
  if s.dir.rep.capacity ≤ j.x.cursor + n then s4.decideShut j.k .full else s4

/-- R65, TAIL-RELEASE: a tail too long for the resident slot makes the stream release it and wait. -/
def State.releaseTail (s : State) (j : PlaceJob) : State :=
  (s.onCtx j.c fun x => { x with state := .waiting, slot := none }).leaveSlot j.c j.k

/-- R65: the three cases of the allocation. -/
def State.allocate (s : State) (j : PlaceJob) : State :=
  if j.e.remaining ≤ s.space j.x then s.issue j j.e.remaining false
  else if j.e.headExtent.isSome then s.releaseTail j
  else s.issue j (s.space j.x) true

/-- R65, R66: the job of a stream and a tag. -/
def State.placeJob (s : State) (c : Ctx) (t : DTag) : Option PlaceJob :=
  match s.str.ctxs[c].slot, s.str.ctxs[c].pending with
  | some (k, _), e :: rest =>
    (s.dir.ext[k]).map fun x => { c := c, t := t, e := e, rest := rest, k := k, x := x }
  | _, _ => none

/-- R66: ISSUE-PLACE. -/
def execIssuePlace (s : State) : Host.Outcome State Fault Refusal :=
  live s fun s =>
    match s.placeTurn.bind fun p => s.placeJob p.1 p.2 with
    | some j => (s.allocate j).policyPass
    | none => s

/-! ### PLACE-DONE (R68, R69, R164) -/

/-- R164: an unknown completion is reported and changes nothing. -/
def State.unknown (s : State) (slot : Option Byte := none) : State := s.report .unknownCompletion (slot := slot)

/-- R160, R164: the entry a PLACE-DONE matches: its tag is in use and OUTSTANDING. -/
def State.outstanding (s : State) (t : DTag) : Option CompEntry :=
  (s.plc.comp[t]).filter fun e => e.outcome == .outstanding

/-- R68, R69: the entry's outcome, and the in-flight counts of the extension and the stream. -/
def State.recordDone (s : State) (t : DTag) (e : CompEntry) (o : PlaceOutcome) : State :=
  let s1 := s.onPlc fun p => { p with comp := put p.comp t (some { e with outcome := o }) }
  let s2 := s1.onExt e.extent.slot fun x =>
    if x.serial = e.extent.serial then { x with inFlight := x.inFlight - 1 } else x
  s2.onCtx e.stream fun x => { x with inFlight := x.inFlight - 1 }

/-- R32: on becoming PARKED a context is reinitialised except for its key and class. -/
def Context.parkedNow (x : Context) : Context :=
  { Context.unassigned with state := .parked, key := x.key, cls := x.cls }

/-- R32: a DRAINING context whose in-flight count has reached 0 becomes PARKED, with a DRAINED notice. -/
def State.drain (s : State) (c : Ctx) : State :=
  let x := s.str.ctxs[c]
  if x.state = .draining ∧ x.inFlight = 0 then
    (s.post (.drained c x.counters)).onCtx c Context.parkedNow
  else s

/-- R69: a WAITING tail of a failed extent 1 leaves its list, and its tail field becomes REFUSED. -/
def State.dropTail (s : State) (t : DTag) (e : CompEntry) : State :=
  if e.second = false ∧ e.tail = some .waiting then
    (s.onCtx e.stream fun x => x.withPending (x.pending.filter (·.headExtent.isNone))).onPlc fun p =>
      { p with comp := put p.comp t ((p.comp[t]).map fun y => { y with tail := some (.refused none) }) }
  else s

/-- R69: the slot of a failed PLACE is shut FAULT, where its incarnation is still held. -/
def State.shutFailed (s : State) (e : CompEntry) : State :=
  match s.dir.ext[e.extent.slot] with
  | some x => if x.serial = e.extent.serial then s.decideShut e.extent.slot .fault else s
  | none => s

/-- R68: a PLACE-DONE OK. -/
def State.placeOk (s : State) (t : DTag) (e : CompEntry) : State :=
  let s1 := s.recordDone t e .ok
  let s2 := s1.onCounters e.stream fun n => { n with pu := sat32 n.pu e.extent.length }
  (s2.tryAssemble t).drain e.stream

/-- R69: a PLACE-DONE FAILED. -/
def State.placeFailed (s : State) (t : DTag) (e : CompEntry) : State :=
  let s1 := (s.recordDone t e .failed).report .placeFailed (slot := slotByte e.extent.slot)
    (stream := some e.stream)
  ((((s1.dropTail t e).shutFailed e).tryAssemble t).drain e.stream).policyPass

/-- R68, R69, R164, R165: PLACE-DONE. -/
def execPlaceDone (tag : DTag) (o : CompletionOutcome) (s : State) : Host.Outcome State Fault Refusal :=
  live s fun s =>
    if s.link.state = .portWait then s
    else
      match s.outstanding tag, o with
      | some e, .ok => s.placeOk tag e
      | some e, .failed => s.placeFailed tag e
      | some _, .closed => s.unknown
      | some _, .undef => s.unknown
      | none, _ => s.unknown

end Sys2Proof.Machine
end

