-- ==== Sys2Proof/Machine/Links.lean ====
section
/-! DEFINITION. Commands of the back-end link controller: DIRECTIVE-SENT (R159), ISSUE-OPEN-ORDER
(R161), ISSUE-CLOSE-ORDER (R103, R162), the completions OPEN-READY, CLOSE-DONE and PORT-CLEAN (R101,
R104, R164, R165), CLOSE-TIMEOUT-EXPIRY (R104) and RELEASE-HOLD-EXPIRY (R163). -/

namespace Sys2Proof.Machine

/-! ### Directives -/

/-- R157, R159, R165: DIRECTIVE-SENT. The head of the queue passes while the link is OPERATING. -/
def execDirectiveSent (s : State) : Host.Outcome State Fault Refusal :=
  live s fun s =>
    if s.link.state = .operating then s.onLink fun l => { l with queue := l.queue.drop 1 } else s

/-- R161: an OPEN-ORDER is issued: it joins the directive queue and takes an open tracker place. -/
def Link.issueOpen (l : Link) (o : OpenOrder) : Link :=
  { l with
    queue := l.queue ++ [.openOrder o.slot o.serial o.kind],
    heldOpens := l.heldOpens.drop 1,
    opens := l.opens ++ [{ slot := o.slot, serial := o.serial, timer := .live none }] }

/-- R159, R161: ISSUE-OPEN-ORDER. A CLOSE-ORDER that could be issued goes first. -/
def execIssueOpenOrder (s : State) : Host.Outcome State Fault Refusal :=
  live s fun s =>
    if s.nextClose.isSome then s
    else
      match s.nextOpen with
      | some o => s.onLink (·.issueOpen o)
      | none => s

/-- R103, R162: a CLOSE-ORDER is issued: it joins the directive queue and takes a close tracker place,
and its close timeout starts. -/
def Link.issueClose (l : Link) (k : Slot) (g : Gen) (c : ShutCause) (timeout : Nat) : Link :=
  { l with
    queue := l.queue ++ [.closeOrder k g c],
    closes := l.closes ++ [{ slot := k, serial := g, timer := .live (some timeout) }] }

/-- R50, R103: the CLOSE-ORDER of a holding is issued. -/
def State.issueClose (s : State) (k : Slot) : State :=
  match s.dir.ext[k], s.dir.rep.dir[k] with
  | some x, .closing _ _ _ c _ =>
    (s.setExt k (some { x with closeOrderIssued := true })).onLink
      (·.issueClose k x.serial c s.closeTicks)
  | _, _ => s

/-- R103: ISSUE-CLOSE-ORDER. -/
def execIssueCloseOrder (s : State) : Host.Outcome State Fault Refusal :=
  live s fun s =>
    match s.nextClose with
    | some k => s.issueClose k
    | none => s

/-! ### Matching completions (R164) -/

/-- The place is released. -/
def TrackPlace.isReleased (p : TrackPlace) : Bool :=
  match p.timer with | .released _ => true | .live _ => false

/-- The place holds this incarnation and is not released. -/
def TrackPlace.isLive (p : TrackPlace) (k : Slot) (g : Gen) : Bool := p.isFor k g && !p.isReleased

/-- The place a completion for an incarnation matches: the one longest taken (log entry 41). -/
def findPlace (l : List TrackPlace) (k : Slot) (g : Gen) : Option TrackPlace := l.find? (·.isFor k g)

/-- The open tracker place a completion matches is freed. -/
def State.freeOpen (s : State) (k : Slot) (g : Gen) : State :=
  s.onLink fun l => { l with opens := l.opens.eraseP (·.isFor k g) }

/-- The close tracker place a completion matches is freed. -/
def State.freeClose (s : State) (k : Slot) (g : Gen) : State :=
  s.onLink fun l => { l with closes := l.closes.eraseP (·.isFor k g) }

/-! ### OPEN-READY (R101) -/

/-- The OPENING claim list entry of a slot. -/
def State.openingEntry (s : State) (k : Slot) : Option ClaimEntry :=
  s.plc.claims.find? fun e => e.slot == k && e.phase == .opening

/-- R63: the OPENING claim list entry of a slot ends. -/
def State.endOpening (s : State) (k : Slot) : State :=
  s.onPlc fun p => { p with claims := p.claims.filter fun e => !(e.slot == k && e.phase == .opening) }

/-- R64, R101: the opening succeeded: READY, and the slot is given out. -/
def State.openedOk (s : State) (k : Slot) : State :=
  let claimant := (s.openingEntry k).bind (·.claimant)
  let s1 := (s.onExt k fun x => { x with readiness := .ready }).endOpening k
  ((s1.giveOut k claimant).policyPass).evalPressure

/-- R50, R101: the opening failed: OPEN-FAILED, the report, and the shut FAULT. -/
def State.openedFailed (s : State) (k : Slot) : State :=
  let s1 := (s.onExt k fun x => { x with readiness := .openFailed }).report .openFailed (slot := slotByte k)
  ((s1.endOpening k).decideShut k .fault).policyPass

/-- R101: a matched OPEN-READY acts on the extension that awaits it. -/
def State.opened (s : State) (k : Slot) (g : Gen) (ok : Bool) : State :=
  match s.dir.ext[k] with
  | some x =>
    if x.serial = g ∧ x.readiness = .awaitingOpen then
      if ok then s.openedOk k else s.openedFailed k
    else s
  | none => s

/-- R161, R163, R164: an OPEN-READY with an outcome of the link is matched. -/
def State.openReady (s : State) (slot : Byte) (g : Gen) (ok : Bool) : State :=
  match slotOf slot with
  | none => s.unknown (some slot)
  | some k =>
    match findPlace s.link.opens k g with
    | none => s.unknown (some slot)
    | some p => if p.isReleased then s.freeOpen k g else (s.freeOpen k g).opened k g ok

/-- R101, R164, R165: OPEN-READY. -/
def execOpenReady (slot : Byte) (serial : Gen) (o : CompletionOutcome) (s : State) :
    Host.Outcome State Fault Refusal :=
  live s fun s =>
    if s.link.state = .portWait then s
    else
      match o with
      | .ok => s.openReady slot serial true
      | .failed => s.openReady slot serial false
      | .closed => s.unknown (some slot)
      | .undef => s.unknown (some slot)

/-! ### The end of a close (R104, R105, R149) -/

/-- The adoption list entry of an incarnation. -/
def State.adoptionOf (s : State) (k : Slot) (g : Gen) : Option Adoption :=
  s.mem.adoption.find? fun a => a.slot == k && a.serial == g

/-- R149: a CLOSE-DONE sets the timeout count of its RUNNING record to 0; an expiry raises it. A count
that has reached 2 has decided the failure of the run (R151, R154): nothing changes it any more, nor the
slot whose timeout completed it. -/
def Duty.counted (k : Slot) (expired : Bool) (d : Duty) : Duty :=
  if d.phase = .running ∧ d.timeouts < 2 then
    if expired then { d with timeouts := d.timeouts + 1, lastTimeout := some k }
    else { d with timeouts := 0 }
  else d

/-- R149: the run of an adopted slot counts the end of its CLOSE-ORDER. -/
def State.countForRun (s : State) (k : Slot) (g : Gen) (expired : Bool) : State :=
  match s.adoptionOf k g with
  | some a =>
    s.onMem fun m => { m with duty := put m.duty a.former (m.duty[a.former].map (Duty.counted k expired)) }
  | none => s

/-- R104: the close-report of the extension of an incarnation. -/
def State.closeReported (s : State) (k : Slot) (g : Gen) (r : CloseReport) : State :=
  s.onExt k fun x =>
    if x.serial = g then { x with closeOrderIssued := false, closeReport := some r, reportSent := none }
    else x

/-- R105, R145: the SHUT-DONE is queued in MEMBER, and the duty evaluation follows for an adopted
slot. -/
def State.afterClose (s : State) (k : Slot) (g : Gen) : State :=
  let s1 := if s.mem.state = .member then s.queueShutDone k else s
  if (s1.adoptionOf k g).isSome then s1.dutyEval else s1

/-- R104, R149: a CLOSE-DONE ends the wait of a CLOSE-ORDER. -/
def State.closeEnded (s : State) (k : Slot) (g : Gen) (r : CloseReport) : State :=
  ((s.closeReported k g r).countForRun k g false).afterClose k g

/-- R162, R163, R164: a CLOSE-DONE with an outcome of the link is matched. -/
def State.closeDone (s : State) (slot : Byte) (g : Gen) (r : CloseReport) : State :=
  match slotOf slot with
  | none => s.unknown (some slot)
  | some k =>
    match findPlace s.link.closes k g with
    | none => s.unknown (some slot)
    | some p => if p.isReleased then s.freeClose k g else (s.freeClose k g).closeEnded k g r

/-- R104, R164, R165: CLOSE-DONE. -/
def execCloseDone (slot : Byte) (serial : Gen) (o : CompletionOutcome) (s : State) :
    Host.Outcome State Fault Refusal :=
  live s fun s =>
    if s.link.state = .portWait then s
    else
      match o with
      | .closed => s.closeDone slot serial .closed
      | .failed => s.closeDone slot serial .failed
      | .ok => s.unknown (some slot)
      | .undef => s.unknown (some slot)

/-- R104, R149, R162: a close timeout expires: close-report FAILED and the fault CLOSE-TIMEOUT. -/
def State.closeTimedOut (s : State) (k : Slot) (g : Gen) : State :=
  let s0 := s.onLink fun l => { l with closes := l.closes.eraseP (·.isLive k g) }
  let s1 := (s0.closeReported k g .failed).report .closeTimeout (slot := slotByte k)
  (s1.countForRun k g true).afterClose k g

/-- R104: CLOSE-TIMEOUT-EXPIRY. The close timeout of an incarnation's place runs until it is freed or
released. -/
def execCloseTimeoutExpiry (k : Slot) (g : Gen) (s : State) : Host.Outcome State Fault Refusal :=
  live s fun s =>
    if s.link.closes.any (·.isLive k g) then s.closeTimedOut k g else s

/-! ### PORT-CLEAN and release holds (R163, R165) -/

/-- R164, R165: PORT-CLEAN. -/
def execPortClean (s : State) : Host.Outcome State Fault Refusal :=
  live s fun s =>
    match s.link.state with
    | .portWait => s.onLink fun l => { l with state := .operating }
    | .operating => s.unknown

/-- R163: the released place of an incarnation is freed. -/
def freeReleased (l : List TrackPlace) (k : Slot) (g : Gen) : List TrackPlace :=
  l.eraseP fun p => p.isFor k g && p.isReleased

/-- R163: RELEASE-HOLD-EXPIRY. -/
def execReleaseHoldExpiry (t : Tracker) (k : Slot) (g : Gen) (s : State) :
    Host.Outcome State Fault Refusal :=
  live s fun s =>
    s.onLink fun l =>
      match t with
      | .opens => { l with opens := freeReleased l.opens k g }
      | .closes => { l with closes := freeReleased l.closes k g }

end Sys2Proof.Machine
end

