-- ==== Sys2Proof/Machine/LineEvents.lean ====
section
/-! DEFINITION. Commands of the line monitor (R119, R170 to R173): the edges of PFW and PRESSURE and
the expiry of the episode timer. During a reset the pins' levels are followed and nothing else. -/

namespace Sys2Proof.Machine

/-! ### PFW (R119, R170) -/

/-- The body is a CLAIM. -/
def Body.isClaim : Body → Bool | .claim .. => true | _ => false

/-- R119, R174: queued CLAIMs are withdrawn and their claim list entries end. -/
def State.dropClaims (s : State) : State :=
  (s.withdraw Body.isClaim).onPlc fun p => { p with claims := p.claims.filter (·.phase != .queued) }

/-- The RECALL entry, if there is one, is in phase RELEASING. -/
def RecallEntry.isReleasing (e : RecallEntry) : Bool :=
  match e.phase with
  | .releasing _ => true
  | .queued => false
  | .asked => false
  | .backoff => false

/-- R119: a RECALL entry other than RELEASING is removed without a fault, and its RECALL withdrawn. -/
def State.dropRecall (s : State) : State :=
  match s.dir.request with
  | some (.recall e) =>
    if e.isReleasing then s
    else (s.withdraw Body.isRecall).onDir fun d => { d with request := none }
  | _ => s

/-- The PFW line is at a level. -/
def State.setPfw (s : State) (b : Bool) : State := s.onLine fun l => { l with pfwLine := b }

/-- R119: a warning ends something: a QUEUED claim list entry, or a RECALL entry other than RELEASING. -/
def State.warningEnds (s : State) : Bool :=
  s.plc.claims.any (·.phase == .queued) ||
    (match s.dir.request with
      | some (.recall e) => !e.isReleasing
      | _ => false)

/-- R119, R170: the power-fail state becomes WARNED. Where a claim list entry or a recall request ends
by it a policy pass is made (R57); the warning itself is no occasion for one. -/
def State.warn (s : State) : State :=
  let s1 := ((s.setPfw true).onLine fun l => { l with warned := true }).dropClaims.dropRecall
  if s.warningEnds then s1.policyPass else s1

/-- R57, R119, R170: the power-fail state becomes CLEAR. -/
def State.unwarn (s : State) : State :=
  ((s.setPfw false).onLine fun l => { l with warned := false }).policyPass

/-- A line command: during a reset only the pin's level changes; outside one an edge acts. -/
def lineEdge (pin act : State → State) (edge : Bool) (s : State) : Host.Outcome State Fault Refusal :=
  if s.rst.isSome then .next (pin s) else live s fun s => if edge then act s else s

/-- R119, R170: PFW-ASSERTED. -/
def execPfwAsserted (s : State) : Host.Outcome State Fault Refusal :=
  lineEdge (·.setPfw true) State.warn (!s.line.pfwLine) s

/-- R119, R170: PFW-DEASSERTED. -/
def execPfwDeasserted (s : State) : Host.Outcome State Fault Refusal :=
  lineEdge (·.setPfw false) State.unwarn s.line.pfwLine s

/-! ### PRESSURE (R75, R171 to R173) -/

/-- The PRESSURE line is at a level. -/
def State.setPressureLine (s : State) (b : Bool) : State := s.onLine fun l => { l with pressureLine := b }

/-- R171 to R173: an onset: ACTIVE, one episode more, its notice, a policy pass and the evaluation of
the open excess. -/
def State.onset (s : State) : State :=
  let s1 := s.onLine fun l => { l with pressure := true, episodes := satAdd 65535 l.episodes 1 }
  ((s1.post (.pressure true s1.line.episodes)).policyPass).evalPressure

/-- R171 to R173: an end: NONE, its notice, and a policy pass. -/
def State.endPressure (s : State) : State :=
  let s1 := s.onLine fun l => { l with pressure := false }
  (s1.post (.pressure false s1.line.episodes)).policyPass

/-- R172: the episode timer starts or restarts with the full 16P. -/
def State.startEpisode (s : State) : State := s.onLine fun l => { l with episode := some (16 * s.pTicks) }

/-- R167: the pressure mode, absent until CONFIGURE. -/
def State.pressureMode? (s : State) : Option PressureMode := s.mem.cfg.map (·.pressureMode)

/-- R171, R172: an assertion edge by pressure mode; before CONFIGURE the line is not read. -/
def State.pressureRises (s : State) : State :=
  match s.pressureMode? with
  | none => s
  | some .level => if s.line.pressure then s else s.onset
  | some .edge => if s.line.pressure then s.startEpisode else s.startEpisode.onset

/-- R171, R172: a deassertion by pressure mode. -/
def State.pressureFalls (s : State) : State :=
  match s.pressureMode? with
  | none => s
  | some .level => if s.line.pressure then s.endPressure else s
  | some .edge => s

/-- R171, R172: PRESSURE-ASSERTED. -/
def execPressureAsserted (s : State) : Host.Outcome State Fault Refusal :=
  lineEdge (·.setPressureLine true) (fun s => (s.setPressureLine true).pressureRises)
    (!s.line.pressureLine) s

/-- R171, R172: PRESSURE-DEASSERTED. -/
def execPressureDeasserted (s : State) : Host.Outcome State Fault Refusal :=
  lineEdge (·.setPressureLine false) (fun s => (s.setPressureLine false).pressureFalls)
    s.line.pressureLine s

/-- R172: EPISODE-TIMER-EXPIRY. -/
def execEpisodeTimerExpiry (s : State) : Host.Outcome State Fault Refusal :=
  live s fun s =>
    match s.line.episode with
    | none => s
    | some _ =>
      let s1 := s.onLine fun l => { l with episode := none }
      if s1.line.pressure then s1.endPressure else s1

end Sys2Proof.Machine
end

