-- ==== Sys2Proof/Machine/Control.lean ====
section
/-! DEFINITION. The control requests (R177 to R180): one action for each request, run once the record
has passed the first check, and the commands that carry them. The first argument of every action is the
bytes after the request code. -/

namespace Sys2Proof.Machine

/-- R177: a request refused or answered at once changes nothing but the holding place. -/
def State.badArg (s : State) (code : Nat) : State := s.respond code .badArgument

/-- R177: a request taken in a state its rule does not accept. -/
def State.wrongState (s : State) (code : Nat) : State := s.respond code .wrongState

/-! ### CONFIGURE (R121, R122, R178) -/

/-- R122: the ROLL of this station. -/
def State.rollBody (s : State) (c : StationCfg) : Body := .roll s.me c.quota s.mem.adoptDis c.params

/-- R122: the station enters CENSUS and queues its ROLL. -/
def State.startCensus (s : State) (c : StationCfg) : State := (s.enter .census).queueFrame (s.rollBody c)

/-- R121: CENSUS or LISTEN, by the last reset kind. -/
def State.leaveUnconfigured (s : State) (c : StationCfg) : State :=
  match s.mem.lastReset with
  | .powerOnOrDrive => s.startCensus c
  | .station => s.startListen

/-- R178: the parameters and the hint map are stored. -/
def State.storeConfig (s : State) (c : StationCfg) (map : Tab 8 LifeClass) : State :=
  (s.onMem fun m => { m with cfg := some c }).onCls fun k => { k with hintMap := map }

/-- R171, R178: in LEVEL mode a PRESSURE line already asserted makes the acceptance an onset. -/
def State.configOnset (s : State) (c : StationCfg) : State :=
  if c.pressureMode = .level ∧ s.line.pressureLine ∧ s.line.pressure = false then s.onset else s

/-- R178: CONFIGURE. -/
def State.actConfigure (args : List Byte) (s : State) : State :=
  match configureOf args with
  | none => s.badArg 1
  | some (c, map) =>
    if s.mem.state = .unconfigured then
      (((s.storeConfig c map).leaveUnconfigured c).configOnset c).respond 1 .done
    else s.wrongState 1

/-! ### SET-CLASSIFIER and SET-MODE (R14, R168, R179) -/

/-- R14, R179: SET-CLASSIFIER. -/
def State.actSetClassifier (args : List Byte) (s : State) : State :=
  match setClassifierOf args with
  | none => s.badArg 2
  | some (i, e) =>
    if s.mem.state = .unconfigured ∨ s.line.mode = .hold then
      (s.onCls fun k => { k with entries := put k.entries i e }).respond 2 .done
    else s.wrongState 2

/-- R57, R168: the placement mode is set; a change to RUN makes a policy pass. -/
def State.setPlacementMode (s : State) (m : Mode) : State :=
  let s1 := s.onLine fun l => { l with mode := m }
  if m = .run ∧ s.line.mode = .hold then s1.policyPass else s1

/-- R168: SET-MODE. -/
def State.actSetMode (args : List Byte) (s : State) : State :=
  match setModeOf args with
  | none => s.badArg 3
  | some m =>
    if s.mem.state = .unconfigured then s.wrongState 3
    else (s.setPlacementMode m).respond 3 .done

/-! ### PARK-STREAM and UNPARK-STREAM (R31, R33) -/

/-- R31: the states a park is taken in. -/
def CtxState.parkable : CtxState → Bool
  | .idle | .waiting | .bound => true
  | .unassigned | .draining | .parked => false

/-- R31: a context that parks: its list is taken from it and it is DRAINING or PARKED. -/
def Context.parking (x : Context) : Context :=
  { x with pending := [], slot := none, state := if x.inFlight = 0 then .parked else .draining }

/-- R31: the effects of a park: the refusals, and the released residency. -/
def State.park (s : State) (c : Ctx) : State :=
  let x := s.str.ctxs[c]
  (x.pending.foldl (fun t e => t.refuseEntry c .parked e) (s.onCtx c Context.parking)).releaseSlot c x.slot

/-- R32, R179: the content of a PARK-STREAM answered DONE: the index and the five counters. -/
def State.parkContent (s : State) (c : Ctx) : List Byte := f1 c ++ s.str.ctxs[c].counters.bytes

/-- R31, R32: PARK-STREAM. -/
def State.actParkStream (args : List Byte) (s : State) : State :=
  match keyedCtxOf args with
  | none => s.badArg 4
  | some c =>
    if s.str.ctxs[c].state.parkable then
      let s1 := s.park c
      if s.str.ctxs[c].inFlight = 0 then
        ((s1.onCtx c Context.parkedNow).policyPass).respond 4 .done (s1.parkContent c)
      else s1.policyPass.respond 4 .accepted
    else s.wrongState 4

/-- R33: UNPARK-STREAM. -/
def State.actUnparkStream (args : List Byte) (s : State) : State :=
  match keyedCtxOf args with
  | none => s.badArg 5
  | some c =>
    if s.str.ctxs[c].state = .parked then
      (s.onCtx c fun x => { x with state := .idle }).respond 5 .done
    else s.wrongState 5

/-! ### Reads and CLEAR-FAULT (R180, R186) -/

/-- R180: READ-STREAM. -/
def State.actReadStream (args : List Byte) (s : State) : State :=
  match ctxOf args with
  | none => s.badArg 6
  | some c => s.respond 6 .done s.str.ctxs[c].bytes

/-- R180: READ-SLOT. -/
def State.actReadSlot (args : List Byte) (s : State) : State :=
  match slotArg args with
  | none => s.badArg 7
  | some k => s.respond 7 .done (s.slotContent k)

/-- R180: READ-ROSTER. -/
def State.actReadRoster (s : State) : State := s.respond 8 .done s.rosterContent

/-- R180: READ-STATUS. -/
def State.actReadStatus (s : State) : State := s.respond 9 .done s.statusContent

/-- R180: READ-FAULT. -/
def State.actReadFault (s : State) : State := s.respond 10 .done s.flt.content

/-- R186: CLEAR-FAULT. -/
def State.actClearFault (s : State) : State :=
  (s.onFlt fun f => { f with first := none, second := false, frozen := false, lost := 0 }).respond 11 .done

/-! ### RESTORE-SLOT, DEPART, WAKE and REJOIN (R108, R141, R142, R174) -/

/-- R108: RESTORE-SLOT. -/
def State.actRestoreSlot (args : List Byte) (s : State) : State :=
  match slotArg args with
  | none => s.badArg 12
  | some k =>
    if s.mem.state = .member ∧ s.dir.rep.dir[k] = .quarantined then
      (s.queueFrame (.restore k)).respond 12 .accepted
    else s.wrongState 12

/-- An entry joins an order of entries by acceptance number, oldest first. -/
def insertEntry (x : Ctx × PendingEntry) : List (Ctx × PendingEntry) → List (Ctx × PendingEntry)
  | [] => [x]
  | y :: rest => if older x.2.acc y.2.acc then x :: y :: rest else y :: insertEntry x rest

/-- R7, R35: every pending entry with its context, by acceptance number. -/
def Streams.allPending (t : Streams) : List (Ctx × PendingEntry) :=
  (allCtxs.flatMap fun c => t.ctxs[c].pending.map fun e => (c, e)).foldl (fun l x => insertEntry x l) []

/-- R35: every list is emptied; WAITING contexts become IDLE. -/
def State.emptyLists (s : State) : State := allCtxs.foldl (fun t c => t.onCtx c fun x => x.withPending []) s

/-- R35, R174: every pending descriptor is refused NOT-MEMBER. -/
def State.refuseAll (s : State) : State :=
  s.str.allPending.foldl (fun t p => t.refuseEntry p.1 .notMember p.2) s.emptyLists

/-- R174: the RECALL entry is removed in any phase, without a fault. -/
def State.endRecall (s : State) : State :=
  match s.dir.request with
  | some (.recall _) => (s.withdraw Body.isRecall).onDir fun d => { d with request := none }
  | _ => s

/-- R174: an accepted DEPART. -/
def State.depart (s : State) : State :=
  let s1 := (s.onMem fun m => { m with departing := true }).refuseAll
  let s2 := s1.dropClaims.endRecall
  ((allSlots.foldl (fun t k => t.decideShut k .leaving) s2).policyPass).queueLeave

/-- R174: DEPART. -/
def State.actDepart (s : State) : State :=
  if s.mem.state = .member ∧ s.mem.departing = false then s.depart.respond 13 .accepted
  else s.wrongState 13

/-- R78, R90, R93, R96: the receiver comes on. -/
def Bus.receiverOn (b : Bus) : Bus :=
  { b with receiver := .hunt, mediumBusy := true, yieldOwed := false, ownEnding := false,
           heard := Vector.replicate 8 Heard.fresh }

/-- R141: WAKE. -/
def State.actWake (s : State) : State :=
  if s.mem.state = .dormant then ((s.forget.onBus Bus.receiverOn).startListen).respond 14 .done
  else s.wrongState 14

/-- R142: REJOIN. -/
def State.actRejoin (s : State) : State :=
  if s.mem.state = .isolated then s.forget.startListen.respond 15 .done else s.wrongState 15

/-! ### The commands -/

/-- R178: CONFIGURE. -/
def execConfigure (args : List Byte) (s : State) : Host.Outcome State Fault Refusal :=
  control 1 args (State.actConfigure args) s

/-- R14: SET-CLASSIFIER. -/
def execSetClassifier (args : List Byte) (s : State) : Host.Outcome State Fault Refusal :=
  control 2 args (State.actSetClassifier args) s

/-- R168: SET-MODE. -/
def execSetMode (args : List Byte) (s : State) : Host.Outcome State Fault Refusal :=
  control 3 args (State.actSetMode args) s

/-- R31: PARK-STREAM. -/
def execParkStream (args : List Byte) (s : State) : Host.Outcome State Fault Refusal :=
  control 4 args (State.actParkStream args) s

/-- R33: UNPARK-STREAM. -/
def execUnparkStream (args : List Byte) (s : State) : Host.Outcome State Fault Refusal :=
  control 5 args (State.actUnparkStream args) s

/-- R180: READ-STREAM. -/
def execReadStream (args : List Byte) (s : State) : Host.Outcome State Fault Refusal :=
  control 6 args (State.actReadStream args) s

/-- R180: READ-SLOT. -/
def execReadSlot (args : List Byte) (s : State) : Host.Outcome State Fault Refusal :=
  control 7 args (State.actReadSlot args) s

/-- R180: READ-ROSTER. -/
def execReadRoster (args : List Byte) (s : State) : Host.Outcome State Fault Refusal :=
  control 8 args State.actReadRoster s

/-- R180: READ-STATUS. -/
def execReadStatus (args : List Byte) (s : State) : Host.Outcome State Fault Refusal :=
  control 9 args State.actReadStatus s

/-- R180: READ-FAULT. -/
def execReadFault (args : List Byte) (s : State) : Host.Outcome State Fault Refusal :=
  control 10 args State.actReadFault s

/-- R186: CLEAR-FAULT. -/
def execClearFault (args : List Byte) (s : State) : Host.Outcome State Fault Refusal :=
  control 11 args State.actClearFault s

/-- R108: RESTORE-SLOT. -/
def execRestoreSlot (args : List Byte) (s : State) : Host.Outcome State Fault Refusal :=
  control 12 args (State.actRestoreSlot args) s

/-- R174: DEPART. -/
def execDepart (args : List Byte) (s : State) : Host.Outcome State Fault Refusal :=
  control 13 args State.actDepart s

/-- R141: WAKE. -/
def execWake (args : List Byte) (s : State) : Host.Outcome State Fault Refusal :=
  control 14 args State.actWake s

/-- R142: REJOIN. -/
def execRejoin (args : List Byte) (s : State) : Host.Outcome State Fault Refusal :=
  control 15 args State.actRejoin s

/-- The action of the request a code names. -/
def State.actOf (code : Nat) (args : List Byte) (s : State) : State :=
  match code with
  | 1 => s.actConfigure args
  | 2 => s.actSetClassifier args
  | 3 => s.actSetMode args
  | 4 => s.actParkStream args
  | 5 => s.actUnparkStream args
  | 6 => s.actReadStream args
  | 7 => s.actReadSlot args
  | 8 => s.actReadRoster
  | 9 => s.actReadStatus
  | 10 => s.actReadFault
  | 11 => s.actClearFault
  | 12 => s.actRestoreSlot args
  | 13 => s.actDepart
  | 14 => s.actWake
  | 15 => s.actRejoin
  | n => s.badArg n

/-- R177: a control record whose first check fails is answered BAD-ARGUMENT under the code received; a
record that passes it is the request it codes. -/
def execControlRequestBadCode (code : Byte) (args : List Byte) (s : State) :
    Host.Outcome State Fault Refusal :=
  control code.toNat args (State.actOf code.toNat args) s

end Sys2Proof.Machine
end

