-- ==== Sys2Proof/Machine/Resets.lean ====
section
/-! DEFINITION. The resets (R176): their start at power-on or at the assertion of a line, their end, and
the passing of time outside them (log entry 2). -/

namespace Sys2Proof.Machine

/-! ### Resets (R15, R16, R36, R56, R95, R120, R165, R167, R176, R187) -/

/-- R176: the kind of a reset when another begins during it: DRIVE_RST turns a station reset into a
drive reset, STN_RST adds nothing, and power-on reset stands. -/
def ResetKind.join : Option ResetKind → ResetKind → ResetKind
  | none, k => k
  | some .station, k => k
  | some .drive, .station => .drive
  | some .drive, k => k
  | some .powerOn, _ => .powerOn

/-- R120, R176: the last reset kind a reset leaves. -/
def ResetKind.last : ResetKind → LastReset
  | .powerOn => .powerOnOrDrive
  | .drive => .powerOnOrDrive
  | .station => .station

/-- R187: the fault capture unit after a reset: initial, or kept with its notice queue emptied. -/
def Faults.afterReset (f : Faults) : ResetKind → Faults
  | .powerOn => Faults.reset
  | .drive => Faults.reset
  | .station => { f with notices := [] }

/-- R176: every block but the fault capture unit and the pins at its reset values, in a reset of a
kind. -/
def State.blank (s : State) (k : ResetKind) (stn : Station) (adoptDis : Bool) : State :=
  { intake := Intake.reset, cls := Classifier.reset, str := Streams.reset, plc := Placement.reset,
    dir := Directory.reset, bus := Bus.reset, mem := Members.reset k.last stn adoptDis,
    link := Link.reset, line := Lines.reset s.line.pfwLine s.line.pressureLine, flt := s.flt,
    rst := some k, pending := s.pending }

/-- R176: a reset begins, or another line is asserted during one: timers stop, and every operation in
flight is abandoned. The fault capture unit keeps its records to the end, and offers no notice. -/
def State.startReset (s : State) (k : ResetKind) : State :=
  { s.blank (ResetKind.join s.rst k) s.mem.stn s.mem.adoptDis with flt := { s.flt with notices := [] } }

/-- R176: the reset ends: the straps are read, the power-fail state is sampled, and every block takes
the state its chapter gives for the reset's kind. -/
def State.endReset (s : State) (k : ResetKind) (stn : Station) (adoptDis : Bool) : State :=
  { s.blank k stn adoptDis with flt := s.flt.afterReset k, rst := none }

/-- R176: POWER-ON-RESET. -/
def execPowerOnReset (s : State) : Host.Outcome State Fault Refusal := .next (s.startReset .powerOn)

/-- R176: DRIVE-RESET. -/
def execDriveReset (s : State) : Host.Outcome State Fault Refusal := .next (s.startReset .drive)

/-- R176: STATION-RESET. -/
def execStationReset (s : State) : Host.Outcome State Fault Refusal := .next (s.startReset .station)

/-- R176: RESET-END, with the straps STN and ADOPT_DIS as read. -/
def execResetEnd (stn : Station) (adoptDis : Bool) (s : State) : Host.Outcome State Fault Refusal :=
  match s.rst with
  | none => .next s
  | some k => .next (s.endReset k stn adoptDis)

end Sys2Proof.Machine
end

