-- ==== Sys2Proof/Machine/Dispatch.lean ====
section
/-! DEFINITION. Which meaning each command has: one arm for each row of spec/opcode_table.json. -/

namespace Sys2Proof.Machine

def exec (i : Instr) (s : State) : Host.Outcome State Fault Refusal :=
  match i with
  | .descriptorPasses b0 b1 b2 b3 b4 b5 => Sys2Proof.Machine.execDescriptorPasses b0 b1 b2 b3 b4 b5 s
  | .takeIntakeHead => Sys2Proof.Machine.execTakeIntakeHead s
  | .resultEntersQueue => Sys2Proof.Machine.execResultEntersQueue s
  | .outboundRecordTaken => Sys2Proof.Machine.execOutboundRecordTaken s
  | .controlRequestBadCode code args => Sys2Proof.Machine.execControlRequestBadCode code args s
  | .configure args => Sys2Proof.Machine.execConfigure args s
  | .setClassifier args => Sys2Proof.Machine.execSetClassifier args s
  | .setMode args => Sys2Proof.Machine.execSetMode args s
  | .parkStream args => Sys2Proof.Machine.execParkStream args s
  | .unparkStream args => Sys2Proof.Machine.execUnparkStream args s
  | .readStream args => Sys2Proof.Machine.execReadStream args s
  | .readSlot args => Sys2Proof.Machine.execReadSlot args s
  | .readRoster args => Sys2Proof.Machine.execReadRoster args s
  | .readStatus args => Sys2Proof.Machine.execReadStatus args s
  | .readFault args => Sys2Proof.Machine.execReadFault args s
  | .clearFault args => Sys2Proof.Machine.execClearFault args s
  | .restoreSlot args => Sys2Proof.Machine.execRestoreSlot args s
  | .depart args => Sys2Proof.Machine.execDepart args s
  | .wake args => Sys2Proof.Machine.execWake args s
  | .rejoin args => Sys2Proof.Machine.execRejoin args s
  | .deadlineExpiry c => Sys2Proof.Machine.execDeadlineExpiry c s
  | .idleTimerExpiry c => Sys2Proof.Machine.execIdleTimerExpiry c s
  | .issuePlace => Sys2Proof.Machine.execIssuePlace s
  | .placeDone tag o => Sys2Proof.Machine.execPlaceDone tag o s
  | .receptionEnd bits => Sys2Proof.Machine.execReceptionEnd bits s
  | .receiveEntryNotClean => Sys2Proof.Machine.execReceiveEntryNotClean s
  | .roll => Sys2Proof.Machine.execRoll s
  | .seal => Sys2Proof.Machine.execSeal s
  | .beacon => Sys2Proof.Machine.execBeacon s
  | .join => Sys2Proof.Machine.execJoin s
  | .leave => Sys2Proof.Machine.execLeave s
  | .absent => Sys2Proof.Machine.execAbsent s
  | .claim => Sys2Proof.Machine.execClaim s
  | .shut => Sys2Proof.Machine.execShut s
  | .shutDone => Sys2Proof.Machine.execShutDone s
  | .restore => Sys2Proof.Machine.execRestore s
  | .takeover => Sys2Proof.Machine.execTakeover s
  | .takeoverEnd => Sys2Proof.Machine.execTakeoverEnd s
  | .recall => Sys2Proof.Machine.execRecall s
  | .defer => Sys2Proof.Machine.execDefer s
  | .catchupAsk => Sys2Proof.Machine.execCatchupAsk s
  | .catchupOffer => Sys2Proof.Machine.execCatchupOffer s
  | .snapshot => Sys2Proof.Machine.execSnapshot s
  | .snapshotEnd => Sys2Proof.Machine.execSnapshotEnd s
  | .contention lineDominant => Sys2Proof.Machine.execContention lineDominant s
  | .arbitrationLost => Sys2Proof.Machine.execArbitrationLost s
  | .transmissionComplete => Sys2Proof.Machine.execTransmissionComplete s
  | .transmissionAbort => Sys2Proof.Machine.execTransmissionAbort s
  | .yieldGapExpiry => Sys2Proof.Machine.execYieldGapExpiry s
  | .heldFrameJoins => Sys2Proof.Machine.execHeldFrameJoins s
  | .beaconTimerExpiry => Sys2Proof.Machine.execBeaconTimerExpiry s
  | .lastHeardExpiry st => Sys2Proof.Machine.execLastHeardExpiry st s
  | .sealDeadlineExpiry => Sys2Proof.Machine.execSealDeadlineExpiry s
  | .listenTimerExpiry => Sys2Proof.Machine.execListenTimerExpiry s
  | .offerTimerExpiry => Sys2Proof.Machine.execOfferTimerExpiry s
  | .partGapTimerExpiry => Sys2Proof.Machine.execPartGapTimerExpiry s
  | .retryTimerExpiry => Sys2Proof.Machine.execRetryTimerExpiry s
  | .offerDelayExpiry => Sys2Proof.Machine.execOfferDelayExpiry s
  | .answerTimerExpiry => Sys2Proof.Machine.execAnswerTimerExpiry s
  | .backoffTimerExpiry => Sys2Proof.Machine.execBackoffTimerExpiry s
  | .coolingPeriodExpiry => Sys2Proof.Machine.execCoolingPeriodExpiry s
  | .directiveSent => Sys2Proof.Machine.execDirectiveSent s
  | .issueOpenOrder => Sys2Proof.Machine.execIssueOpenOrder s
  | .issueCloseOrder => Sys2Proof.Machine.execIssueCloseOrder s
  | .openReady slot serial o => Sys2Proof.Machine.execOpenReady slot serial o s
  | .closeDone slot serial o => Sys2Proof.Machine.execCloseDone slot serial o s
  | .portClean => Sys2Proof.Machine.execPortClean s
  | .closeTimeoutExpiry slot serial => Sys2Proof.Machine.execCloseTimeoutExpiry slot serial s
  | .releaseHoldExpiry t slot serial => Sys2Proof.Machine.execReleaseHoldExpiry t slot serial s
  | .pfwAsserted => Sys2Proof.Machine.execPfwAsserted s
  | .pfwDeasserted => Sys2Proof.Machine.execPfwDeasserted s
  | .pressureAsserted => Sys2Proof.Machine.execPressureAsserted s
  | .pressureDeasserted => Sys2Proof.Machine.execPressureDeasserted s
  | .episodeTimerExpiry => Sys2Proof.Machine.execEpisodeTimerExpiry s
  | .powerOnReset => Sys2Proof.Machine.execPowerOnReset s
  | .driveReset => Sys2Proof.Machine.execDriveReset s
  | .stationReset => Sys2Proof.Machine.execStationReset s
  | .resetEnd stn adoptDis => Sys2Proof.Machine.execResetEnd stn adoptDis s
  | .openingDelimiterRead => Sys2Proof.Machine.execOpeningDelimiterRead s

end Sys2Proof.Machine
end

