-- ==== Sys2Proof/Machine/Time.lean ====
section
/-! DEFINITION. The passing of time (log entry 2): one tick of 1/8 ms, in which every timer that runs
has a tick less left, down to 0, and every count of time rises. A timer's expiry is a command of its
own. -/

namespace Sys2Proof.Machine

/-- A timer that runs has a tick less left. -/
def down (t : Option Nat) : Option Nat := t.map (· - 1)

/-- R28: an entry's deadline, while running time passes. -/
def PendingEntry.tick (runs : Bool) (e : PendingEntry) : PendingEntry :=
  if runs then { e with deadline := down e.deadline } else e

/-- R28, R30: a context's deadlines and idle timer. -/
def Context.tick (runs : Bool) (x : Context) : Context :=
  { x with pending := x.pending.map (PendingEntry.tick runs), idle := down x.idle }

/-- R18: station time counts milliseconds and wraps. -/
def Streams.tick (runs : Bool) (t : Streams) : Streams :=
  { t with
    ctxs := t.ctxs.map (Context.tick runs),
    timeMs := if t.sub = 7 then t.timeMs + 1 else t.timeMs,
    sub := if t.sub = 7 then 0 else t.sub + 1 }

/-- The timers of a request. -/
def Request.tick : Request → Request
  | .recall e => .recall { e with timer := down e.timer }
  | .ask e => .ask { e with timer := down e.timer }

/-- R136: an offer delay. -/
def Serving.tick (v : Serving) : Serving :=
  match v.phase with
  | .delay n => { v with phase := .delay (n - 1) }
  | .offered _ => v
  | .sending => v

/-- The timers of the directory engine. -/
def Directory.tick (d : Directory) : Directory :=
  { d with request := d.request.map Request.tick, cooling := down d.cooling,
           serving := d.serving.map Serving.tick }

/-- R92: the beacon timer. -/
def BeaconTimer.tick : BeaconTimer → BeaconTimer
  | .stopped => .stopped
  | .running n => .running (n - 1)
  | .expired => .expired

/-- R93: a last-heard time, stopping at 65,535 ms. -/
def Heard.tick (h : Heard) : Heard := { h with time := min (h.time + 1) (8 * 65535) }

/-- R92, R93, R96: the beacon timer, and the last-heard times while the receiver is on. -/
def Bus.tick (b : Bus) : Bus :=
  { b with beacon := b.beacon.tick,
           heard := if b.receiver = .off then b.heard else b.heard.map Heard.tick }

/-- The timers of the membership controller. -/
def Members.tick (m : Members) : Members :=
  { m with sealTimer := down m.sealTimer, listenTimer := down m.listenTimer,
           retryTimer := down m.retryTimer }

/-- R162, R163: a tracker place's close timeout or release hold. -/
def TrackPlace.tick (p : TrackPlace) : TrackPlace :=
  match p.timer with
  | .live t => { p with timer := .live (down t) }
  | .released n => { p with timer := .released (n - 1) }

/-- The timers of the link controller. -/
def Link.tick (l : Link) : Link :=
  { l with opens := l.opens.map TrackPlace.tick, closes := l.closes.map TrackPlace.tick }

/-- The episode timer. -/
def Lines.tick (l : Lines) : Lines := { l with episode := down l.episode }

/-- R176: one tick of time; during a reset every timer stands. -/
def State.tick (s : State) : State :=
  if s.rst.isSome then s
  else
    { s with str := s.str.tick s.runs, dir := s.dir.tick, bus := s.bus.tick, mem := s.mem.tick,
             link := s.link.tick, line := s.line.tick }

end Sys2Proof.Machine
end

