-- ==== Sys2Proof/Safety.lean ====
section
/-! DEFINITION. What it means for the station's state to be sound: the bounds of its queues and tables,
the laws of a replica (R40, R43), and the membership state beside what it steers. Also the blocks of a
state, in which statements say what a command leaves unchanged. -/

namespace Sys2Proof

/-- The kind of frame a command takes from the receive queue (R84). -/
def Instr.takesKind : Instr → Option Machine.Kind
  | .roll => some .roll
  | .seal => some .seal
  | .beacon => some .beacon
  | .join => some .join
  | .leave => some .leave
  | .absent => some .absent
  | .claim => some .claim
  | .shut => some .shut
  | .shutDone => some .shutDone
  | .restore => some .restore
  | .takeover => some .takeover
  | .takeoverEnd => some .takeoverEnd
  | .recall => some .recall
  | .defer => some .defer
  | .catchupAsk => some .catchupAsk
  | .catchupOffer => some .catchupOffer
  | .snapshot => some .snapshot
  | .snapshotEnd => some .snapshotEnd
  | _ => none

/-- The commands that act during a reset: the resets (R176) and the pins of the line monitor, whose
levels are followed (R170). -/
def Instr.actsInReset : Instr → Bool
  | .powerOnReset | .driveReset | .stationReset | .resetEnd .. => true
  | .pfwAsserted | .pfwDeasserted | .pressureAsserted | .pressureDeasserted => true
  | _ => false

namespace Machine

/-! ### Frames of statements -/

/-- The blocks of the part (chapter "Block overview" of spec/00_scope.md); the bus controller, the
membership controller and the others, one for each field of State that is a block. -/
inductive Block where
  | intake | cls | str | plc | dir | bus | mem | link | line | flt
  deriving DecidableEq, Repr

/-- A block is the same in two states. -/
def State.sameBlock (s t : State) : Block → Prop
  | .intake => t.intake = s.intake
  | .cls => t.cls = s.cls
  | .str => t.str = s.str
  | .plc => t.plc = s.plc
  | .dir => t.dir = s.dir
  | .bus => t.bus = s.bus
  | .mem => t.mem = s.mem
  | .link => t.link = s.link
  | .line => t.line = s.line
  | .flt => t.flt = s.flt

/-- `t` differs from `s` in none but the listed blocks; the queue of commands and the reset in progress
are the same. -/
def State.changesOnly (s t : State) (l : List Block) : Prop :=
  (∀ b, b ∉ l → s.sameBlock t b) ∧ t.rst = s.rst ∧ t.pending = s.pending

/-- Two intake units that differ at most in what every command brings up to date: the results that wait
and the record on offer (R7, R181). -/
def Intake.settledFrom (i j : Intake) : Prop :=
  j.queue = i.queue ∧ j.results = i.results ∧ j.response = i.response

/-- `t` differs from `s` in the listed blocks alone, beside what every command brings up to date in the
intake unit. Where the intake unit is listed, a statement says what it holds. -/
def State.frame (s t : State) (l : List Block) : Prop :=
  s.changesOnly t (.intake :: l) ∧ (.intake ∉ l → s.intake.settledFrom t.intake)

/-- R177: a control request may pass: no reset, and an empty holding place. -/
def State.ready (s : State) : Prop := s.rst = none ∧ s.intake.response = none

/-- R177: the response in the holding place, with the queues of the intake unit as before. -/
def State.answered (s t : State) (code : Byte) (st : RespStatus) (content : List Byte) : Prop :=
  t.intake.response = some { code := code, status := st, content := content } ∧
    t.intake.queue = s.intake.queue ∧ t.intake.results = s.intake.results

/-- R84: outside a reset, the head of the receive queue is a CLEAN frame that hides no loss. -/
def State.takes (s : State) (own : Bool) (f : Frame) (rest : List RxEntry) : Prop :=
  s.rst = none ∧ s.bus.rx = { status := .clean f, lostAfter := false, own := own } :: rest

/-- R52, R80: the station is MEMBER outside a reset, and takes a frame from a station its roster shows
PRESENT, at its own generation. -/
def State.takesInStep (s : State) (f : Frame) : Prop :=
  (∃ own rest, s.takes own f rest) ∧ s.mem.state = .member ∧ s.dir.rep.isPresent f.sender = true ∧
    f.base = some s.dir.rep.gen

/-- R184: the count of a cause has risen by 1, staying at 65,535. -/
def State.counted (s t : State) (c : Cause) : Prop :=
  t.flt.counts[c.index] = min (s.flt.counts[c.index] + 1) 65535

/-- R86: a frame has joined the transmit queue, or is held where the queue has no room for it. -/
def Bus.gained (b b' : Bus) (q : QFrame) : Prop :=
  if b.tx.length < 8 ∧ b.held = [] then b'.tx = b.tx ++ [q] ∧ b'.held = []
  else b'.tx = b.tx ∧ b'.held = b.held ++ [q]

/-- R86: frames have joined behind those queued and held, this one first. -/
def Bus.gainedFirst (b b' : Bus) (q : QFrame) : Prop :=
  ∃ l, b'.tx ++ b'.held = b.tx ++ b.held ++ q :: l

/-- A frame to ALL with this body is queued or held. -/
def Bus.carries (b : Bus) (x : Body) : Prop := { dest := none, body := x } ∈ b.tx ++ b.held

/-! ### Results (R7, R22, R31, R35, R70) -/

/-- R7: results that come in one event, each with the place it waits in where it must: they enter the
result queue in their order while it has room and nothing waits (log entry 27), and the others wait. -/
def Intake.took (i j : Intake) (l : List (ResultRec × Waiter)) : Prop :=
  let n := if i.waiters = [] then 32 - i.results.length else 0
  j.results = i.results ++ (l.take n).map (·.1) ∧
    j.waiters.filter (· != .intakeHead) =
      i.waiters.filter (· != .intakeHead) ++ (l.drop n).map (·.2)

/-- R31, R35, R70: the result an entry has when it is refused out of its list: REFUSED with no extents;
for a tail, REFUSED with the extent of its head where that is done, and none yet where it is not. -/
def State.refusalOf (s : State) (why : Reason) (c : Ctx) (e : PendingEntry) :
    Option (ResultRec × Waiter) :=
  match e.headExtent, s.plc.tailOwner c with
  | none, _ =>
    let r : ResultRec := { tag := e.tag, status := .refused why, stream := some c, extents := [] }
    some (r, .store r)
  | some _, some g =>
    match s.plc.comp[g] with
    | some y =>
      if y.outcome = .ok then
        some ({ tag := y.tag, status := .refused why, stream := some c,
                extents := [(y.extent, false)] }, .completion g)
      else none
    | none => none
  | some _, none => none

/-- R69, R70: a list holds one tail at most, and its extent 1 stands in the completion table, not
failed, with no extent 2 and no result. -/
def State.tailHeld (s : State) (c : Ctx) : Prop :=
  (s.str.ctxs[c].pending.filter (·.headExtent.isSome)).length ≤ 1 ∧
    ∀ e ∈ s.str.ctxs[c].pending, e.headExtent.isSome →
      ∃ g y, s.plc.tailOwner c = some g ∧ s.plc.comp[g] = some y ∧ y.second = false ∧
        y.partner = none ∧ y.result = none ∧ y.outcome ≠ .failed

/-- R34: the counters with the refused counter raised by `n`, staying at 4,294,967,295; as they are where
nothing is refused. -/
def Counters.refusing (x : Counters) (n : Nat) : Counters :=
  if n = 0 then x else { x with refused := min (x.refused + n) 4294967295 }

/-- R70: the tail of a stream has left its list refused while its extent 1 is not yet done. -/
def State.tailRefused (s t : State) (why : Reason) (c : Ctx) : Prop :=
  ∀ e ∈ s.str.ctxs[c].pending, e.headExtent.isSome → ∀ g y, s.plc.tailOwner c = some g →
    s.plc.comp[g] = some y → y.outcome = .outstanding →
    t.plc.comp[g] = some { y with tail := some (.refused (some why)) }

/-- R25, R50, R74: a stream has left its slot's residents; a NORMAL slot that it leaves without a
resident is shut IDLE, and in MEMBER the SHUT is queued. -/
def State.leftSlot (s t : State) (c : Ctx) : Prop :=
  ∀ (k : Slot) (x : Ext), s.str.ctxs[c].slot.map (·.1) = some k → s.dir.ext[k] = some x →
    ∃ y, t.dir.ext[k] = some y ∧ c ∉ y.residents ∧
      ((∀ b ∈ x.residents, b = c) → (∃ cl, s.dir.rep.dir[k].kind? = some (.normal cl)) →
        x.shutDue = none → s.dir.rep.dir[k].isClosing = false →
        y.shutDue = some .idle ∧
          (s.mem.state = .member →
            s.bus.gainedFirst t.bus { dest := none, body := .shut k .idle none }))

/-! ### Frames applied, attempts and membership -/

/-- R54: the replica of `t` is `r`, which applying the frame gives, and no more than the frame's own work
has been done; the back-end link hears of a frame of this station alone. R117: a RECALL entry that waits on
a slot stays while `r` shows the slot CLOSING and else has ended; the policy pass that follows may have
begun another. -/
def State.follows (s t : State) (f : Frame) (r : Replica) : Prop :=
  t.dir.rep = r ∧ (f.sender ≠ s.mem.stn → t.link = s.link) ∧
    (∀ e j, s.dir.request = some (.recall e) → e.phase = .releasing j →
      (r.dir[j].isClosing = true → t.dir.request = s.dir.request) ∧
      (r.dir[j].isClosing = false → ∀ q, t.dir.request = some q →
        ∃ n, q = .recall n ∧ n.phase = .queued ∧ n.tag = s.dir.reqTag)) ∧
    s.frame t [.str, .plc, .dir, .bus, .mem, .link, .flt]

/-- R114: an applied SHUT RECALLED of slot `k` names this station as requester: a RECALL entry with its
tag that is not RELEASING is answered and waits on the slot, no RECALL is queued, and no timer runs; with
any other entry or none the answer is unexpected. -/
def State.recallMet (s t : State) (tag : ReqTag) (k : Slot) : Prop :=
  (∀ e, s.dir.request = some (.recall e) → e.tag = tag → (∀ j, e.phase ≠ .releasing j) →
    t.dir.request = some (.recall { e with phase := .releasing k, timer := none }) ∧
      ∀ q ∈ t.bus.waiting, q.body.kind ≠ .recall) ∧
  ((∀ e, s.dir.request = some (.recall e) → e.tag = tag → ∃ j, e.phase = .releasing j) →
    s.counted t .unexpectedAnswer)

/-- R43: the slots a station holds have become ORPHANED, with kind, class, serial and close-attempts,
and the runs that name it are empty; all other slots and runs are as before. -/
def Replica.orphaned (r r' : Replica) (h : Station) : Prop :=
  (∀ (k : Slot) kd g, r.dir[k] = .opened h kd g → r'.dir[k] = .orphaned h kd g 0) ∧
    (∀ (k : Slot) kd g c a, r.dir[k] = .closing h kd g c a → r'.dir[k] = .orphaned h kd g a) ∧
    (∀ k : Slot, r.dir[k].holder? ≠ some h → r'.dir[k] = r.dir[k]) ∧
    ∀ j : Station, r'.runs[j] = if r.runs[j] = some h then none else r.runs[j]

/-- R133: the frames of the log applied in order to an installed replica, those of senders not PRESENT
passed over; none where one fails R52. -/
def Replica.replayed : List Frame → Replica → Option Replica
  | [], r => some r
  | f :: rest, r =>
    if f.body.kind ≠ .join ∧ r.isPresent f.sender = false then replayed rest r
    else if r.applies f then replayed rest (r.apply f.sender f.body)
    else none

/-- R135: the attempt has failed: no request, log or buffer, no CATCHUP-ASK that waits, and one failure
more, after which the retry timer runs or, at the fourth, the station is ISOLATED with its last-request
record frozen. -/
def State.attemptFailed (s t : State) : Prop :=
  (∀ q ∈ t.bus.waiting, q.body.kind ≠ .catchupAsk) ∧
    t.dir.request = none ∧ t.dir.log = [] ∧ t.dir.snap = [] ∧ t.dir.rep = s.dir.rep ∧
    t.dir.ext = s.dir.ext ∧ s.counted t .catchupFailed ∧ t.mem.attempts = s.mem.attempts + 1 ∧
    (s.mem.attempts < 3 → t.mem.state = s.mem.state ∧
      t.mem.retryTimer = some ((s.mem.attempts + 1) * s.pTicks)) ∧
    (3 ≤ s.mem.attempts → t.mem.state = .isolated ∧ t.mem.departing = false ∧ t.flt.frozen = true ∧
      s.counted t .catchupExhausted) ∧
    s.frame t [.dir, .bus, .mem, .flt]

/-- R128: the JOIN has failed: it is withdrawn, with one failure more, after which the station listens
again or, at the fourth, is ISOLATED with its last-request record frozen. -/
def State.joinFailed (s t : State) : Prop :=
  (∀ q ∈ t.bus.waiting, q.body.kind ≠ .join) ∧ s.counted t .catchupFailed ∧ t.mem.attempts = s.mem.attempts + 1 ∧
    (s.mem.attempts < 3 → t.mem.state = .listen ∧ t.mem.listenTimer = some s.listenTicks) ∧
    (3 ≤ s.mem.attempts → t.mem.state = .isolated ∧ t.mem.departing = false ∧ t.flt.frozen = true ∧
      s.counted t .catchupExhausted) ∧
    s.frame t [.bus, .mem, .flt]

/-- R130: the first attempt of a station now in CATCHUP has begun: its entry is ASKING, the log and the
buffer are empty, its CATCHUP-ASK is the last frame queued, and the frames that wait are of kinds that
CATCHUP permits (R87). -/
def State.beganAttempt (s t : State) : Prop :=
  t.mem.state = .catchup ∧ t.dir.rep = s.dir.rep ∧
    t.dir.request = some (.ask
      { tag := s.dir.reqTag, phase := .asking, began := s.dir.rep.gen, tries := s.mem.attempts,
        timer := none }) ∧
    t.dir.log = [] ∧ t.dir.snap = [] ∧
    (t.bus.tx ++ t.bus.held).getLast? =
      some { dest := none, body := .catchupAsk s.dir.reqTag s.mem.stn } ∧
    (∀ q ∈ t.bus.waiting,
      q.body.kind = .beacon ∨ q.body.kind = .catchupAsk ∨ q.body.kind = .defer)

/-- R128: the station's own JOIN has been sent: CATCHUP, with the first attempt begun. -/
def State.joined (s t : State) : Prop :=
  s.beganAttempt t ∧ s.frame t [.str, .plc, .dir, .bus, .mem, .flt]

/-- R126: an entry that is not passed over as an own ABORTED one that hides no loss. -/
def RxEntry.counts (e : RxEntry) : Prop := e.own = false ∨ e.status ≠ .aborted ∨ e.lostAfter = true

/-- R131: an entry that is not CLEAN, or is marked lost-after, fails the attempt under way: one that logs,
or, where it is the own CATCHUP-ASK, one in ASKING. That a CLEAN own CATCHUP-ASK that is marked does so is
the model's choice (log entry 17). -/
def State.attemptHit (s : State) (e : RxEntry) : Prop :=
  e.counts ∧ ∃ a, s.dir.request = some (.ask a) ∧
    (a.phase ≠ .asking ∨ (e.own = true ∧ ∀ q ∈ s.bus.waiting, q.body.kind ≠ .catchupAsk))

/-- R53, R63, R154: a MEMBER station has gone stale: CATCHUP, with its first attempt begun, and neither a
QUEUED claim nor a QUEUED duty. -/
def State.wentStale (s t : State) : Prop :=
  s.beganAttempt t ∧ t.dir.serving = none ∧
    (∀ e ∈ t.plc.claims, e.phase ≠ .queued) ∧
    (∀ (h : Station) d, t.mem.duty[h] = some d → d.phase ≠ .queued) ∧
    s.frame t [.str, .plc, .dir, .bus, .mem, .flt]

/-- The station has a holding extension of this incarnation. -/
def State.hasHolding (s : State) (k : Slot) (g : Gen) : Bool :=
  match s.dir.ext[k] with
  | some x => x.serial == g
  | none => false

/-- R163: a tracker place, once the holdings that `gone` picks are removed: released, with the whole
release hold, where it serves one of them. A place released before goes on. -/
def TrackPlace.freed (gone : Slot → Gen → Bool) (hold : Nat) (p : TrackPlace) : TrackPlace :=
  match p.timer with
  | .live _ => if gone p.slot p.serial then { p with timer := .released hold } else p
  | .released _ => p

/-- R163: the link controller once the holdings that `gone` picks are removed: their held OPEN-ORDERs are
discarded, and their tracker places released. -/
def Link.freed (l : Link) (gone : Slot → Gen → Bool) (hold : Nat) : Link :=
  { l with
    heldOpens := l.heldOpens.filter fun o => !gone o.slot o.serial,
    opens := l.opens.map (TrackPlace.freed gone hold),
    closes := l.closes.map (TrackPlace.freed gone hold) }

/-- The replica is empty, and with it went every holding, claim and request (R37, R50, R76); the tracker
places of the holdings are released (R163). -/
def State.emptied (s t : State) : Prop :=
  t.dir.rep = Replica.empty ∧ (∀ k : Slot, t.dir.ext[k] = none) ∧ t.dir.closing = [] ∧
    t.dir.request = none ∧ t.plc.claims = [] ∧ t.plc.comp = s.plc.comp ∧
    t.link = s.link.freed s.hasHolding s.closeTicks ∧
    s.frame t [.str, .plc, .dir, .bus, .mem, .link, .flt]

/-- R140: the station has taken the named-absent path, to LISTEN or, where it departs, to DORMANT. -/
def State.tookAbsent (s t : State) : Prop :=
  s.emptied t ∧ s.counted t .namedAbsent ∧ t.mem.attempts = 0 ∧
    (s.mem.departing = false → t.mem.state = .listen ∧ t.mem.listenTimer.isSome) ∧
    (s.mem.departing = true → t.mem.state = .dormant ∧ t.mem.departing = false)

/-- R125, R126: a station in CENSUS has gone to LISTEN, with an empty census list and no seal deadline
(where a SEAL moves it, no deadline is the model's choice: log entry 55). -/
def State.leftCensus (s t : State) : Prop :=
  t.mem.state = .listen ∧ (∀ st : Station, t.mem.census[st] = none) ∧ t.mem.sealTimer = none ∧
    t.mem.listenTimer.isSome ∧ s.frame t [.bus, .mem, .flt]

/-- The blocks that a policy pass and the shuts it decides may change (R57, R72). -/
def policyBlocks : List Block := [.str, .plc, .dir, .bus, .flt]

/-! ### A policy pass (R57 to R62) -/

/-- The number of claim list entries in phase QUEUED. -/
def State.queuedCount (s : State) : Nat := (s.plc.claims.filter (·.phase == .queued)).length

/-- R57, R174: recall permission, and claim permission where the claim list has a free entry. -/
def State.mayAsk (s : State) : Prop :=
  s.mem.state = .member ∧ s.line.mode = .run ∧ s.line.warned = false ∧ s.mem.departing = false

/-- R58, R59: the conditions of step 1 or of step 2 hold. -/
def State.mayClaim (s : State) : Prop :=
  s.mayAsk ∧ s.plc.claims.length < 4 ∧ s.queuedCount < s.dir.rep.freeCount ∧
    (s.dir.rep.heldCount s.mem.stn + s.queuedCount < s.dir.rep.quota s.mem.stn ∨
      (s.dir.rep.quota s.mem.stn ≤ s.dir.rep.heldCount s.mem.stn + s.queuedCount ∧
        s.line.pressure = false ∧
        s.dir.rep.reserve s.mem.stn < s.dir.rep.freeCount - s.queuedCount))

/-- R60, R62: a held slot takes the head of a list: it is OPEN and READY with no shut due, and has room
for all of a tail, or for one PU of any other entry. -/
def State.takesEntry (s : State) (e : PendingEntry) (k : Slot) : Prop :=
  ∃ x kd g, s.dir.ext[k] = some x ∧ s.dir.rep.dir[k] = .opened s.mem.stn kd g ∧ x.readiness = .ready ∧
    x.shutDue = none ∧ (if e.headExtent.isSome then e.remaining else 1) ≤ s.dir.rep.capacity - x.cursor

/-- R62: a held slot that takes data has too little room for a tail. -/
def State.tooLong (s : State) (e : PendingEntry) (k : Slot) : Prop :=
  ∃ x kd g, s.dir.ext[k] = some x ∧ s.dir.rep.dir[k] = .opened s.mem.stn kd g ∧ x.readiness = .ready ∧
    x.shutDue = none ∧ e.headExtent.isSome ∧ s.dir.rep.capacity - x.cursor < e.remaining

/-- R60: a slot is fit for a stream of a class. -/
def State.fits (s : State) (cl : LifeClass) (e : PendingEntry) (k : Slot) : Prop :=
  s.takesEntry e k ∧ s.dir.rep.dir[k].kind? = some (.normal cl) ∧
    ∃ x, s.dir.ext[k] = some x ∧ x.residents.length < 4

/-- R61: the conditions of step 4. -/
def State.mayRecall (s : State) : Prop :=
  s.mayAsk ∧ s.dir.rep.heldCount s.mem.stn + s.queuedCount < s.dir.rep.quota s.mem.stn ∧
    s.dir.rep.freeCount = 0 ∧
    ∃ st : Station, s.dir.rep.isPresent st = true ∧ 0 < s.dir.rep.excess st

/-- No block a policy pass works on has changed. -/
def State.sameWork (s t : State) : Prop :=
  t.str = s.str ∧ t.plc = s.plc ∧ t.dir = s.dir ∧ t.bus = s.bus

/-- R58, R62: a CLAIM for the lowest FREE slot that no QUEUED entry names is queued with its entry. -/
def State.claimed (s t : State) (kind : SlotKind) (claimant : Option Ctx) : Prop :=
  ∃ k : Slot, s.dir.rep.dir[k] = .free ∧ (∀ e ∈ s.plc.claims, e.phase = .queued → e.slot ≠ k) ∧
    (∀ j : Slot, j < k → s.dir.rep.dir[j] = .free →
      ∃ e ∈ s.plc.claims, e.phase = .queued ∧ e.slot = j) ∧
    t.plc = { s.plc with claims := s.plc.claims ++
      [{ slot := k, kind := kind, claimant := claimant, phase := .queued }] } ∧
    s.bus.gained t.bus { dest := none, body := .claim k kind } ∧ t.str = s.str ∧ t.dir = s.dir

/-- R25, R60: a stream is granted a slot: BOUND, and its youngest resident. -/
def State.granted (s t : State) (c : Ctx) (k : Slot) : Prop :=
  ∃ x, s.dir.ext[k] = some x ∧
    t.dir = { s.dir with ext := put s.dir.ext k (some { x with residents := x.residents ++ [c] }) } ∧
    t.str.ctxs[c].state = .bound ∧ t.str.ctxs[c].slot = some (k, x.serial) ∧
    t.str.ctxs[c].pending = s.str.ctxs[c].pending ∧
    (∀ b, b ≠ c → t.str.ctxs[b] = s.str.ctxs[b]) ∧ t.plc = s.plc ∧ t.bus = s.bus

/-- R110: a recall has begun, of the PRESENT station other than this one with the greatest excess, the
highest number among equals. -/
def State.recalled (s t : State) : Prop :=
  ∃ g : Station, g ≠ s.mem.stn ∧ s.dir.rep.isPresent g = true ∧
    (∀ st : Station, st ≠ s.mem.stn → s.dir.rep.isPresent st = true →
      s.dir.rep.excess st < s.dir.rep.excess g ∨
        (s.dir.rep.excess st = s.dir.rep.excess g ∧ st ≤ g)) ∧
    t.dir = { s.dir with
      reqTag := s.dir.reqTag + 1,
      request := some (.recall
        { tag := s.dir.reqTag, phase := .queued, target := g, began := s.dir.rep.gen, tries := 0,
          timer := none }) } ∧
    s.bus.gained t.bus { dest := none, body := .recall s.dir.reqTag s.mem.stn g } ∧
    t.str = s.str ∧ t.plc = s.plc

/-- R62: step 5 for a stream whose head is `e`. -/
def State.mixedStep (s t : State) (c : Ctx) (e : PendingEntry) : Prop :=
  (∀ k : Slot, s.dir.rep.dir[k].holder? = some s.mem.stn → s.dir.rep.dir[k].kind? = some .mixed →
    (∀ j : Slot, s.dir.rep.dir[j].holder? = some s.mem.stn →
      s.dir.rep.dir[j].kind? = some .mixed → j = k) →
    (s.takesEntry e k → s.granted t c k) ∧
    (s.tooLong e k →
      (∃ y, t.dir.ext[k] = some y ∧ y.shutDue = some .full) ∧
        (s.mem.state = .member →
          s.bus.gainedFirst t.bus { dest := none, body := .shut k .full none })) ∧
    (¬ s.takesEntry e k → ¬ s.tooLong e k → s.sameWork t)) ∧
  ((∀ k : Slot, s.dir.rep.dir[k].holder? = some s.mem.stn → s.dir.rep.dir[k].kind? ≠ some .mixed) →
    ((∃ y ∈ s.plc.claims, y.kind = .mixed) ∨ ¬ s.mayClaim → s.sameWork t) ∧
    ((∀ y ∈ s.plc.claims, y.kind ≠ .mixed) → s.mayClaim → s.claimed t .mixed none))

/-- R57 to R62: the pass over a waiting order of one stream, whose head is `e` and which no claim list
entry names: the first of the steps whose conditions hold. -/
def State.policyStep (s t : State) (c : Ctx) (e : PendingEntry) : Prop :=
  (∀ cl, c ≠ 0 → s.str.ctxs[c].cls = some cl →
    (s.mayClaim → s.claimed t (.normal cl) (some c)) ∧
    (¬ s.mayClaim →
      ((∃ k, s.fits cl e k) → ∃ k, s.fits cl e k ∧
        (∀ j, s.fits cl e j → s.spaceAt j < s.spaceAt k ∨ (s.spaceAt j = s.spaceAt k ∧ k ≤ j)) ∧
        s.granted t c k) ∧
      ((∀ k, ¬ s.fits cl e k) →
        (s.mayRecall →
          (s.dir.request = none → s.dir.cooling = none → s.recalled t) ∧
          (s.dir.request.isSome ∨ s.dir.cooling.isSome → s.sameWork t)) ∧
        (¬ s.mayRecall → s.mixedStep t c e)))) ∧
  (c = 0 ∨ s.str.ctxs[c].cls = none → s.mixedStep t c e)

/-- R57: a policy pass that reads `u` has led to `t`: nothing outside MEMBER and CATCHUP, nor with no
stream WAITING; else, where one is and no claim list entry names it, its step. -/
def State.passed (u t : State) : Prop :=
  (u.mem.state ≠ .member → u.mem.state ≠ .catchup → u.sameWork t) ∧
    ((∀ c : Ctx, u.str.ctxs[c].state ≠ .waiting) → u.sameWork t) ∧
    (u.mem.state = .member ∨ u.mem.state = .catchup → ∀ (c : Ctx) e rest,
      u.str.ctxs[c].state = .waiting → (∀ b : Ctx, b ≠ c → u.str.ctxs[b].state ≠ .waiting) →
      u.str.ctxs[c].pending = e :: rest → (∀ y ∈ u.plc.claims, y.claimant ≠ some c) →
      u.policyStep t c e)

/-! ### Pressure shuts (R75) and the giving out of a slot (R64) -/

/-- R75: a held slot that may be shut: READY, OPEN and without a shut due. -/
def State.mayShut (s : State) (k : Slot) : Prop :=
  ∃ x kd g, s.dir.ext[k] = some x ∧ s.dir.rep.dir[k] = .opened s.mem.stn kd g ∧ x.readiness = .ready ∧
    x.shutDue = none

/-- The slot is MIXED. -/
def State.isMixed (s : State) (k : Slot) : Prop := s.dir.rep.dir[k].kind? = some .mixed

/-- R49: of two slots `k` is the less recently filled, and the lower number among equals. Two times are
compared as plain numbers (log entry 18). -/
def State.filledBefore (s : State) (k j : Slot) : Prop :=
  match s.lastFillAt k, s.lastFillAt j with
  | none, none => k < j
  | none, some _ => True
  | some _, none => False
  | some a, some b => a.toNat < b.toNat ∨ (a = b ∧ k < j)

/-- R75: the slot that is shut first: a NORMAL one before the MIXED one, then the least recently filled. -/
def State.shutFirst (s : State) (k : Slot) : Prop :=
  s.mayShut k ∧ ∀ j : Slot, j ≠ k → s.mayShut j →
    (s.isMixed j ∧ ¬ s.isMixed k) ∨ ((s.isMixed j ↔ s.isMixed k) ∧ s.filledBefore k j)

/-- R57, R75: a policy pass that reads `u`, and the evaluation of the open excess behind it, have led to
`t`, while pressure is ACTIVE: the pass alone outside MEMBER or where nothing calls for a shut; else shuts
PRESSURE, the first of them first where the pass had nothing to do, until no more is called for. -/
def State.pressed (u t : State) : Prop :=
  (u.mem.state ≠ .member ∨ u.openExcess ≤ 0 ∨ 4 ≤ u.closeCount ∨ (∀ k, ¬ u.mayShut k) → u.passed t) ∧
    (u.mem.state = .member →
      (t.openExcess ≤ 0 ∨ 4 ≤ t.closeCount ∨ ∀ k, ¬ t.mayShut k) ∧
        ((∀ c : Ctx, u.str.ctxs[c].state ≠ .waiting) → 0 < u.openExcess → u.closeCount < 4 →
          ∀ k, u.shutFirst k →
            (∃ y, t.dir.ext[k] = some y ∧ y.shutDue = some .pressure) ∧
              u.bus.gainedFirst t.bus { dest := none, body := .shut k .pressure none }))

/-- R173: the notice queue after a PRESSURE notice. -/
def State.pressureNoticed (s t : State) (onset : Bool) (count : Nat) : Prop :=
  t.flt.notices = (s.flt.post (.pressure onset count)).notices ∧
    t.flt.lost = (s.flt.post (.pressure onset count)).lost

/-- R64: a stream that a slot of its class may be given to beside its claimant: WAITING, and named by no
claim list entry. -/
def State.standsBy (s : State) (cl : LifeClass) (c : Ctx) : Prop :=
  c ≠ 0 ∧ s.str.ctxs[c].state = .waiting ∧ s.str.ctxs[c].cls = some cl ∧
    ∀ y ∈ s.plc.claims, y.claimant ≠ some c

/-- R25, R64: the slot has been given to the stream. Said where no pressure shut can follow, nor the pass
shut the MIXED slot. -/
def State.gaveTo (u t : State) (k : Slot) (x : Ext) (c : Ctx) : Prop :=
  u.line.pressure = false ∨ u.mem.state ≠ .member →
    (∀ b : Ctx, b ≠ c → u.str.ctxs[b].state ≠ .waiting) ∨
      (∀ j : Slot, u.dir.rep.dir[j].holder? = some u.mem.stn → ¬ u.isMixed j) →
    t.str.ctxs[c].state = .bound ∧ t.str.ctxs[c].slot = some (k, x.serial) ∧
      t.str.ctxs[c].pending = u.str.ctxs[c].pending ∧
      ∃ y l, t.dir.ext[k] = some y ∧ y.residents = x.residents ++ c :: l

/-- R64: a slot that is READY in `u` has been given out: a NORMAL one to its claimant where that is
WAITING, else to the oldest stream that stands by and that it is fit for, else it is shut IDLE; a MIXED one
is kept. A slot that is not OPEN, or whose shut is due, is not given out. A policy pass follows. -/
def State.gaveOut (u t : State) (k : Slot) (claimant : Option Ctx) : Prop :=
  (∀ cl g x, u.dir.rep.dir[k] = .opened u.mem.stn (.normal cl) g → u.dir.ext[k] = some x →
    x.shutDue = none →
    (∀ c, claimant = some c → u.str.ctxs[c].state = .waiting → u.gaveTo t k x c) ∧
    ((∀ c, claimant = some c → u.str.ctxs[c].state ≠ .waiting) →
      (∀ (c : Ctx) (e : PendingEntry) (rest : List PendingEntry) (base : BitVec 16), u.standsBy cl c →
        u.str.ctxs[c].pending = e :: rest → u.fits cl e k →
        (∀ b : Ctx, u.str.ctxs[b].state = .waiting →
          (u.str.ctxs[b].headAcc - base).toNat < 32768) →
        (∀ b : Ctx, b ≠ c → u.standsBy cl b →
          (∀ e' rest', u.str.ctxs[b].pending = e' :: rest' → u.fits cl e' k) →
          (u.str.ctxs[c].headAcc - base).toNat < (u.str.ctxs[b].headAcc - base).toNat) →
        u.gaveTo t k x c) ∧
      ((∀ c : Ctx, u.standsBy cl c → ∃ e rest, u.str.ctxs[c].pending = e :: rest ∧ ¬ u.fits cl e k) →
        (∃ y, t.dir.ext[k] = some y ∧ y.shutDue = some .idle) ∧
          (u.mem.state = .member →
            u.bus.gainedFirst t.bus { dest := none, body := .shut k .idle none })))) ∧
  ((∀ cl g, u.dir.rep.dir[k] ≠ .opened u.mem.stn (.normal cl) g) ∨
      (∀ x, u.dir.ext[k] = some x → x.shutDue ≠ none) →
    (u.line.pressure = false → u.passed t) ∧ (u.line.pressure = true → u.pressed t))

/-! ### The end of a close (R104, R105, R149, R151, R154) -/

/-- R105: a close-report has come for a slot: in MEMBER it queues the SHUT-DONE it decides. -/
def State.closeAnswered (s t : State) (k : Slot) (g : Gen) (r : CloseReport) : Prop :=
  (s.mem.state ≠ .member → t.bus = s.bus) ∧
    (s.mem.state = .member → ∀ h kd sg c a o, s.dir.rep.dir[k] = .closing h kd sg c a →
      o = (if r = .closed then .closed else if a = 0 then .retrying else .quarantined) →
      t.bus.carries (.shutDone k o) ∧ (o = .quarantined → s.counted t .closeFailed) ∧
        ((∀ ad ∈ s.mem.adoption, ad.slot = k → ad.serial ≠ g) →
          s.bus.gained t.bus { dest := none, body := .shutDone k o }))

/-- R149, R151, R154: the RUNNING run of an adopted slot has counted the end of its CLOSE-ORDER: an expiry
adds 1, and a CLOSE-DONE leaves 0. A count of 2 stands, and fails the run in MEMBER. -/
def State.countedForRun (s t : State) (k : Slot) (g : Gen) (expired : Bool) : Prop :=
  ∀ pre ad post d, s.mem.adoption = pre ++ ad :: post → ad.slot = k → ad.serial = g →
    (∀ x ∈ pre, x.slot = k → x.serial ≠ g) → s.mem.duty[ad.former] = some d → d.phase = .running →
    ∀ d', d' =
        (if 2 ≤ d.timeouts then d
          else if expired then { d with timeouts := d.timeouts + 1, lastTimeout := some k }
          else { d with timeouts := 0 }) →
      (s.mem.state ≠ .member ∨ d'.timeouts < 2 → t.mem.duty[ad.former] = some d') ∧
      (s.mem.state = .member → 2 ≤ d'.timeouts →
        t.mem.duty[ad.former] = some { d' with phase := .ending .failed } ∧
          t.bus.carries (.takeoverEnd ad.former .failed) ∧
          min (s.flt.counts[Cause.takeoverFailed.index] + 1) 65535 ≤
            t.flt.counts[Cause.takeoverFailed.index])

/-! ### The settlement after catch-up (R134, R154) -/

/-- R50, R134: a slot's holding once the station is MEMBER with the installed replica `r`. -/
def State.settledHolding (s t : State) (r : Replica) (k : Slot) : Prop :=
  (∀ x kd, s.dir.ext[k] = some x → r.dir[k] = .opened s.mem.stn kd x.serial →
    ∃ y, t.dir.ext[k] = some y ∧ y.serial = x.serial ∧ y.readiness = x.readiness ∧
      y.cursor = x.cursor ∧ y.inFlight = x.inFlight ∧
      ∀ c, x.shutDue = some c → y.shutDue = some c ∧ t.bus.carries (shutBody k x c)) ∧
  (∀ x kd c a, s.dir.ext[k] = some x → r.dir[k] = .closing s.mem.stn kd x.serial c a →
    ∃ y, t.dir.ext[k] = some y ∧ y.serial = x.serial ∧ y.cursor = x.cursor ∧
      y.inFlight = x.inFlight ∧ y.shutDue = none ∧ (x.shutDue.isSome → k ∈ t.dir.closing) ∧
      (x.shutDue = none → ∀ o, x.closeReport = some o →
        (a = 1 ∧ o = .failed ∧ x.reportSent = some .retrying → y.closeReport = none) ∧
        (¬ (a = 1 ∧ o = .failed ∧ x.reportSent = some .retrying) →
          y.closeReport = some o ∧ t.bus.carries (.shutDone k
            (if o = .closed then .closed else if a = 0 then .retrying else .quarantined))))) ∧
  ((∀ x, s.dir.ext[k] = some x →
      r.dir[k].holder? ≠ some s.mem.stn ∨ r.dir[k].serial? ≠ some x.serial) →
    (∀ kd g, r.dir[k] = .opened s.mem.stn kd g →
      ∃ y, t.dir.ext[k] = some y ∧ y.serial = g ∧ y.readiness = .awaitingOpen ∧ y.cursor = 0 ∧
        y.inFlight = 0 ∧ { slot := k, serial := g, kind := kd } ∈ t.link.heldOpens) ∧
    (∀ kd g c a, r.dir[k] = .closing s.mem.stn kd g c a →
      ∃ y, t.dir.ext[k] = some y ∧ y.serial = g ∧ y.readiness = .ready ∧ y.cursor = r.capacity ∧
        y.inFlight = 0 ∧ k ∈ t.dir.closing) ∧
    (r.dir[k].holder? ≠ some s.mem.stn → t.dir.ext[k] = none))

/-- R134: the station has a holding extension of this incarnation, and the installed replica `r` shows the
slot otherwise than OPEN or CLOSING under the station with that serial. -/
def State.loses (s : State) (r : Replica) (k : Slot) (g : Gen) : Bool :=
  s.hasHolding k g && !(r.dir[k].holder? == some s.mem.stn && r.dir[k].serial? == some g)

/-- R134, R163: the back-end link once the station is MEMBER with the installed replica `r`: the tracker
places of the holdings it drops are released and their held OPEN-ORDERs discarded; new ones stand behind
those held before. -/
def State.settledLink (s t : State) (r : Replica) : Prop :=
  ∃ l, t.link = { s.link.freed (s.loses r) s.closeTicks with
    heldOpens := (s.link.freed (s.loses r) s.closeTicks).heldOpens ++ l }

/-- R150, R151, R154: the takeover duty for a former holder once the station is MEMBER with the
installed replica `r`, its first evaluation made. A failed run leaves no adoption list entry of an orphan
but one whose SHUT is on the medium. -/
def State.settledDuty (s t : State) (r : Replica) (h : Station) : Prop :=
  (r.runs[h] ≠ some s.mem.stn → ∀ d, t.mem.duty[h] = some d → d.phase = .queued) ∧
  (r.runs[h] = some s.mem.stn →
    (∀ d o, s.mem.duty[h] = some d → d.phase = .ending o →
      t.mem.duty[h] = some d ∧ t.bus.carries (.takeoverEnd h o)) ∧
    (∀ d, s.mem.duty[h] = some d → d.phase = .running →
      (d.timeouts < 2 → ∃ d', t.mem.duty[h] = some d' ∧ d'.timeouts = d.timeouts ∧
        (d'.phase = .running ∨
          (d'.phase = .ending .done ∧ t.bus.carries (.takeoverEnd h .done)))) ∧
      (2 ≤ d.timeouts → r.hasOrphan h = true →
        t.mem.duty[h] = some { d with phase := .ending .failed } ∧
          t.bus.carries (.takeoverEnd h .failed) ∧
          (∀ a ∈ t.mem.adoption, a.former = h → r.dir[a.slot].orphanOf h = false ∨
            (t.bus.sending.isSome ∧ ∃ q x, t.bus.tx.head? = some q ∧ q.body = .shut a.slot .adopted x)))) ∧
    (s.mem.duty[h] = none → ∃ d', t.mem.duty[h] = some d' ∧ d'.timeouts = 0 ∧
      (d'.phase = .running ∨ (d'.phase = .ending .done ∧ t.bus.carries (.takeoverEnd h .done)))))

/-! ### Withdrawals at the contention check (R63, R97, R137, R146, R150) -/

/-- R97: the station once a withdrawn head has left the queue and its producer has been told. -/
def State.afterWithdrawal (s : State) (b : Body) (rest : List QFrame) : State :=
  let u : State := { s with bus := { s.bus with tx := rest } }
  match b with
  | .claim k _ =>
    { u with plc := { u.plc with claims := u.plc.claims.filter fun e =>
        !(e.slot == k && e.phase == .queued) } }
  | .recall .. => { u with dir := { u.dir with request := none } }
  | .catchupOffer .. => { u with dir := { u.dir with serving := none } }
  | .snapshot .. | .snapshotEnd .. =>
    { u with
      bus := { u.bus with tx := rest.filter fun q => !q.body.isServing,
                          held := u.bus.held.filter fun q => !q.body.isServing },
      dir := { u.dir with serving := none, snap := [] } }
  | .takeover h => { u with mem := { u.mem with duty := put u.mem.duty h none } }
  | .takeoverEnd h _ =>
    { u with mem := { u.mem with
        duty := put u.mem.duty h (u.mem.duty[h].map fun d => { d with phase := .running }) } }
  | .absent _ | .leave _ | .restore _ | .seal .. | .shut .. | .shutDone .. | .roll .. | .beacon ..
  | .join .. | .defer .. | .catchupAsk .. => u

/-- R57, R145: the kinds whose withdrawal is an occasion for a policy pass or a duty evaluation. -/
def Kind.leadsToWork : Kind → Bool
  | .claim | .recall | .takeover | .takeoverEnd => true
  | _ => false

/-- A frame that this work has queued, with the record that stands behind it. -/
def State.backed (s : State) : Body → Prop
  | .claim k kd => ∃ e ∈ s.plc.claims, e.slot = k ∧ e.kind = kd ∧ e.phase = .queued
  | .recall tag r g =>
    r = s.mem.stn ∧ ∃ e, s.dir.request = some (.recall e) ∧ e.tag = tag ∧ e.phase = .queued ∧ e.target = g
  | .shut k c _ =>
    (c = .full ∧ ∃ x, s.dir.ext[k] = some x ∧ x.shutDue = some .full) ∨
      (c = .adopted ∧ ∃ a ∈ s.mem.adoption, a.slot = k)
  | .takeover h => ∃ d, s.mem.duty[h] = some d ∧ d.phase = .queued
  | .takeoverEnd h o => ∃ d, s.mem.duty[h] = some d ∧ d.phase = .ending o
  | .leave st => st = s.mem.stn ∧ s.dir.rep.heldCount st = 0 ∧ s.dir.rep.runNames st = false
  | _ => False

/-! ### Bounds -/

/-- The queues and lists of the station are no longer than the spec makes them: R4, R7, R56, R84, R86,
R131, R159, R161, R162, R183. -/
structure State.Bounded (s : State) : Prop where
  intakeQueue : s.intake.queue.length ≤ 32
  results : s.intake.results.length ≤ 32
  claims : s.plc.claims.length ≤ 4
  log : s.dir.log.length ≤ 16
  tx : s.bus.tx.length ≤ 8
  rx : s.bus.rx.length ≤ 4
  directives : s.link.queue.length ≤ 16
  opens : s.link.opens.length ≤ 4
  closes : s.link.closes.length ≤ 4
  notices : s.flt.notices.length ≤ 16

/-! ### The replica (R40, R43) -/

/-- R37, R40: the slots from B up are UNFUNDED and no others; R43: the holder of every OPEN or CLOSING
slot is PRESENT in the roster. An empty replica has budget 0. -/
structure Replica.Sound (r : Replica) : Prop where
  funded : ∀ k : Slot, r.dir[k] = .unfunded ↔ r.budget ≤ k.val
  holders : ∀ (k : Slot) (h : Station), r.dir[k].holder? = some h → r.isPresent h = true

/-- R143: the station is eligible as adopter. -/
def Replica.mayAdopt (r : Replica) (st : Station) : Prop :=
  r.isPresent st = true ∧ r.roster[st].adoptDis = some false ∧ r.roster[st].takeoverFailed = false

/-! ### Membership -/

/-- The request list holds a CATCHUP-ASK entry. -/
def State.asks (s : State) : Prop := ∃ e, s.dir.request = some (.ask e)

/-- R96, R120, R109: the receiver is off in DORMANT and in no other state, the configured parameters are
absent in UNCONFIGURED and in no other state, and a CATCHUP-ASK request is held in CATCHUP alone. -/
structure State.Moded (s : State) : Prop where
  receiver : s.bus.receiver = .off ↔ s.mem.state = .dormant
  configured : s.mem.cfg = none ↔ s.mem.state = .unconfigured
  asking : s.asks → s.mem.state = .catchup

end Machine

end Sys2Proof
end

