-- ==== Sys2Proof/Certificates/Slice0/Obligations.lean ====
section
/-! DEFINITION. The statements for the provers. Each docstring names what the statement rests on; where
it rests on a choice of the model, the log entry. In every statement `t` is the state the command
answers. -/

open Sys2Proof Sys2Proof.Machine

/-! ### The machine -/

/-- A step of a station with a command at the front of its queue is that command's effect on the station
with the queue's rest (log entry 5). -/
def Obligations.StepRunsTheFrontCommand : Prop :=
  ∀ (c : Instr) (rest : List Instr) (s : State),
    step { s with pending := c :: rest } = exec c { s with pending := rest }

/-- The model's choice of log entry 2: on an empty queue a step is a tick of 1/8 ms. During a reset
nothing moves; outside one the timers of membership, the cooling period and the episode timer go down by
a tick, station time counts milliseconds, and the blocks that keep no time are as before. -/
def Obligations.IdleStepPassesATick : Prop :=
  ∀ s : State, s.pending = [] →
    ∃ t, step s = .next t ∧ (s.rst.isSome → t = s) ∧
      (s.rst = none →
        s.changesOnly t [.str, .dir, .bus, .mem, .link, .line] ∧ t.dir.rep = s.dir.rep ∧
        t.dir.ext = s.dir.ext ∧ t.mem.state = s.mem.state ∧ t.mem.cfg = s.mem.cfg ∧
        t.bus.tx = s.bus.tx ∧ t.bus.rx = s.bus.rx ∧ t.link.queue = s.link.queue ∧
        t.mem.sealTimer = s.mem.sealTimer.map (· - 1) ∧
        t.mem.listenTimer = s.mem.listenTimer.map (· - 1) ∧
        t.mem.retryTimer = s.mem.retryTimer.map (· - 1) ∧
        t.dir.cooling = s.dir.cooling.map (· - 1) ∧ t.line.episode = s.line.episode.map (· - 1) ∧
        (s.str.sub < 7 → t.str.timeMs = s.str.timeMs ∧ t.str.sub = s.str.sub + 1) ∧
        (s.str.sub = 7 → t.str.timeMs = s.str.timeMs + 1 ∧ t.str.sub = 0))

/-- Every command answers a next state: the model has no fault and no refusal. That a command whose event
cannot occur in the state it meets still answers one is the model's choice (log entry 1). -/
def Obligations.EveryCommandAnswersNext : Prop := ∀ (c : Instr) (s : State), ∃ t, exec c s = .next t

/-- The state after a power-on reset is sound: bounds, laws of the replica, and the membership state
beside what it steers. -/
def Obligations.ResetStateIsSound : Prop :=
  State.reset.Bounded ∧ State.reset.dir.rep.Sound ∧ State.reset.Moded

/-- No step takes the intake, result, transmit, receive, directive or notice queue, the claim list, the
catch-up log or a tracker beyond the length the rules give it. -/
def Obligations.EveryStepKeepsTheBounds : Prop :=
  ∀ s t : State, s.Bounded → step s = .next t → t.Bounded

/-- Every step keeps the laws of R40 and R43 in the station's replica. -/
def Obligations.EveryStepKeepsTheReplicaLaws : Prop :=
  ∀ s t : State, s.dir.rep.Sound → step s = .next t → t.dir.rep.Sound

/-- Every step keeps the receiver, the configured parameters and the catch-up request in agreement with
the membership state. -/
def Obligations.EveryStepKeepsMembershipInStep : Prop :=
  ∀ s t : State, s.Moded → step s = .next t → t.Moded

/-- Every well-formed frame, put on the line as R77 and R79 state, is received CLEAN with the same
fields, and no reception begins at its end. -/
def Obligations.FrameReadsBackFromTheLine : Prop :=
  ∀ f : Frame, f.wellFormed = true → receive f.lineBits = some (.clean f, false)

/-- A sealed replica whose roster holds a quota and an adopt-disabled value together, the quota not 0,
is read back from the seven parts of its snapshot. -/
def Obligations.SnapshotReadsBack : Prop :=
  ∀ (tag : ReqTag) (r : Replica), r.params.isSome →
    (∀ st : Station, (r.roster[st].quota = none ↔ r.roster[st].adoptDis = none) ∧
      r.roster[st].quota ≠ some 0) →
    unpackSnapshot (snapshotParts tag r) r.gen = some r

/-- During a reset no command but a reset or a line's edge changes anything; the levels of the lines are
followed (log entry 38). -/
def Obligations.NothingIsTakenDuringReset : Prop :=
  ∀ (c : Instr) (s : State), s.rst.isSome → c.actsInReset = false → exec c s = .next s

/-! ### The replica as data -/

/-- R45: a directory-kind frame advances the generation by exactly one, before its effect; the other
kinds change nothing; an empty and a newly sealed replica stand at 0; an installed snapshot gives its
own; 4,294,967,295 is followed by 0. A CLAIM records the new generation, and equal replicas record equal
serials. A BEACON and the response to READ-STATUS carry the generation, and a frame that is not applied
leaves it. -/
def Obligations.GenerationCountsAppliedFrames : Prop :=
  (∀ (r : Replica) (st : Station) (b : Body), b.kind.isDirectory = true →
    (r.apply st b).gen = r.gen + 1) ∧
  (∀ (r : Replica) (st : Station) (b : Body), b.kind.isDirectory = false → r.apply st b = r) ∧
  (∀ (r : Replica) (st : Station) (k : Slot) (kind : SlotKind),
    (r.apply st (.claim k kind)).dir[k] = .opened st kind (r.gen + 1)) ∧
  Replica.empty.gen = 0 ∧ (∀ l p, (Replica.ofSeal l p).gen = 0) ∧
  (∀ parts g r, unpackSnapshot parts g = some r → r.gen = g) ∧
  (4294967295#32 + 1 = (0 : Gen)) ∧
  (∀ (s : State) (d : Option Station) (st : Station) (g : Gen) (c : Bool) (m : Mode),
    s.check { dest := d, body := .beacon st g c m } =
      .pass (.beacon st s.dir.rep.gen (s.mem.state == .catchup) s.line.mode)) ∧
  (∀ s : State, ∃ pre post, s.statusContent = pre ++ f4 s.dir.rep.gen.toNat ++ post) ∧
  (∀ (s : State) (f : Frame), s.dir.rep.applies f = false →
    (s.applyOrStale f).dir.rep.gen = s.dir.rep.gen)

/-- R47: no PRESENT station has an effective quota below 1 or above its requested quota, every other
station has 0, and where the budget covers the PRESENT stations the quotas sum to at most the budget. -/
def Obligations.QuotasFitTheBudget : Prop :=
  ∀ r : Replica,
    (∀ st, r.isPresent st = true → 1 ≤ r.quota st ∧ r.quota st ≤ max 1 (r.requested st)) ∧
    (∀ st, r.isPresent st = false → r.quota st = 0) ∧
    (r.presentList.length ≤ r.budget → (allStations.map r.quota).sum ≤ r.budget)

/-! ### Intake (Chapter 1) -/

/-- R1, R2, R4: while DREADY is asserted (log entries 1 and 33) a descriptor joins the tail of the intake
queue with the fields of Table 1-1; while it is not, nothing changes. -/
def Obligations.DescriptorJoinsIntakeQueue : Prop :=
  ∀ (b0 b1 b2 b3 b4 b5 : Byte) (s : State), s.rst = none →
    ∃ t, exec (.descriptorPasses b0 b1 b2 b3 b4 b5) s = .next t ∧
      (s.intake.queue.length < 32 →
        (∃ d : Descriptor, t.intake.queue = s.intake.queue ++ [d] ∧
          d.tag.toNat = b0.toNat + 256 * b1.toNat ∧ d.function = b2 ∧
          d.nspace.toNat = b3.toNat % 16 ∧
          (b3.toNat < 128 → d.hint = none) ∧
          (128 ≤ b3.toNat → ∃ h, d.hint = some h ∧ h.toNat = b3.toNat / 16 % 8) ∧
          d.length.toNat = b4.toNat + 256 * b5.toNat) ∧
        t.intake.results = s.intake.results ∧ t.intake.response = s.intake.response ∧
        s.frame t [.intake]) ∧
      (32 ≤ s.intake.queue.length → s.frame t [])

/-- R3, R5, R6: with room for its result, a head that fails validation leaves the intake queue, and its
REFUSED result, with the reason of the first check that fails, stream 255 and no extents, enters the
result queue. Nothing else changes. -/
def Obligations.HeadRefusedAtValidation : Prop :=
  ∀ (d : Descriptor) (q : List Descriptor) (why : Reason) (s : State), s.rst = none →
    s.intake.queue = d :: q → s.intake.results.length < 32 → s.intake.waiters = [] →
    ((d.length.toNat = 0 ∨ 256 < d.length.toNat) ∧ why = .oversize ∨
      (1 ≤ d.length.toNat ∧ d.length.toNat ≤ 256) ∧
        (s.line.warned = true ∧ why = .powerFail ∨
          s.line.warned = false ∧
            (s.mem.state ≠ .member ∧ s.mem.state ≠ .catchup ∨ s.mem.departing = true) ∧
            why = .notMember)) →
    ∃ t, exec .takeIntakeHead s = .next t ∧ t.intake.queue = q ∧
      t.intake.results =
        s.intake.results ++ [{ tag := d.tag, status := .refused why, stream := none, extents := [] }] ∧
      t.intake.response = s.intake.response ∧ s.frame t [.intake]

/-- R8 to R13: the outcome of a head that passes validation. The first enabled entry whose pattern
matches decides; no match and COMMON lead to the common stream, REFUSE is refused BLOCKED, and a keyed
descriptor goes to the context that holds its key, is refused PARKED where that context is DRAINING or
PARKED, or brings a new key. The class is the hint map's where a hint is carried. -/
def Obligations.ClassifierDecidesTheHead : Prop :=
  ∀ (d : Descriptor) (s : State), 1 ≤ d.length.toNat → d.length.toNat ≤ 256 → s.line.warned = false →
    (s.mem.state = .member ∨ s.mem.state = .catchup) → s.mem.departing = false →
    ((∀ i : Fin 32, s.cls.entries[i].hits d = false) →
      ∃ cl, s.headOutcome d = .accept .common cl ∧
        (d.hint = none → cl = 0) ∧ (∀ h, d.hint = some h → cl = s.cls.hintMap[h.toFin])) ∧
    (∀ i : Fin 32, s.cls.entries[i].hits d = true → (∀ j < i, s.cls.entries[j].hits d = false) →
      (s.cls.entries[i].mode = .refuse → s.headOutcome d = .refuse .blocked none) ∧
      (s.cls.entries[i].mode = .common → ∃ cl, s.headOutcome d = .accept .common cl ∧
        (d.hint = none → cl = 0) ∧ (∀ h, d.hint = some h → cl = s.cls.hintMap[h.toFin])) ∧
      (∀ k, formKey s.cls.entries[i].mode d = some k →
        (∀ c, s.str.lookup k = some c →
          (s.str.ctxs[c].state = .draining ∨ s.str.ctxs[c].state = .parked →
            s.headOutcome d = .refuse .parked (some c)) ∧
          (s.str.ctxs[c].state ≠ .draining → s.str.ctxs[c].state ≠ .parked →
            ∃ cl, s.headOutcome d = .accept (.held c) cl)) ∧
        (s.str.lookup k = none → ∃ cl, s.headOutcome d = .accept (.newKey k) cl ∧
          (d.hint = none → cl = s.cls.entries[i].defaultClass) ∧
          (∀ h, d.hint = some h → cl = s.cls.hintMap[h.toFin]))))

/-- R16: every reset brings the classifier to its initial state, in which all 32 entries are disabled with
function ANY, namespace ANY, mode COMMON and class 0, and every hint maps to class 0. It matches no
descriptor, and what it accepts goes to the common stream. In UNCONFIGURED every descriptor is refused,
by the first check of R6 that fails. REJOIN, WAKE and the named-absent path keep entries and hint map. -/
def Obligations.ClassifierAfterReset : Prop :=
  (∀ (c : Instr) (s : State), (c = .powerOnReset ∨ c = .driveReset ∨ c = .stationReset ∨
      ∃ st a, c = .resetEnd st a ∧ s.rst.isSome) →
    ∃ t, exec c s = .next t ∧ (∀ i : Fin 32, t.cls.entries[i] =
        { enabled := false, function := none, nspace := none, mode := .common, defaultClass := 0 }) ∧
      (∀ h : Fin 8, t.cls.hintMap[h] = 0)) ∧
  (∀ (d : Descriptor) (s : State), s.cls = Classifier.reset →
    s.cls.decide d = none ∧ ∀ dest cl, s.headOutcome d = .accept dest cl → dest = .common) ∧
  (∀ (d : Descriptor) (s : State), s.mem.state = .unconfigured →
    s.headOutcome d = .refuse
      (if d.length.toNat = 0 ∨ 256 < d.length.toNat then .oversize
        else if s.line.warned then .powerFail else .notMember) none) ∧
  (∀ (s : State) (p : Option Station), (s.namedAbsent p).cls = s.cls ∧
    (∀ t, exec (.wake []) s = .next t → t.cls = s.cls) ∧
    ∀ t, exec (.rejoin []) s = .next t → t.cls = s.cls)

/-- R12, R34: a head refused at classification. BLOCKED reaches no context; PARKED names the context and
raises its refused counter. -/
def Obligations.HeadRefusedAtClassification : Prop :=
  ∀ (d : Descriptor) (q : List Descriptor) (c : Ctx) (s : State), s.rst = none →
    s.intake.queue = d :: q → s.intake.results.length < 32 → s.intake.waiters = [] →
    (s.headOutcome d = .refuse .blocked none →
      ∃ t, exec .takeIntakeHead s = .next t ∧ t.intake.queue = q ∧
        t.intake.results = s.intake.results ++
          [{ tag := d.tag, status := .refused .blocked, stream := none, extents := [] }] ∧
        t.intake.response = s.intake.response ∧ s.frame t [.intake]) ∧
    (s.headOutcome d = .refuse .parked (some c) →
      ∃ t, exec .takeIntakeHead s = .next t ∧ t.intake.queue = q ∧
        t.intake.results = s.intake.results ++
          [{ tag := d.tag, status := .refused .parked, stream := some c, extents := [] }] ∧
        t.str.ctxs[c].counters.refused = min (s.str.ctxs[c].counters.refused + 1) 4294967295 ∧
        (∀ e, e ≠ c → t.str.ctxs[e] = s.str.ctxs[e]) ∧
        t.intake.response = s.intake.response ∧ s.frame t [.intake, .str])

/-- R5, R13, R20 to R24: with a free pending store entry an accepted head leaves the intake queue and
joins the tail of its stream's list with the next acceptance number, its full length and the full
deadline. A new key takes the lowest UNASSIGNED context, or spills to context 0. -/
def Obligations.HeadAcceptedIntoAStream : Prop :=
  ∀ (d : Descriptor) (q : List Descriptor) (dest : Dest) (cl : LifeClass) (c : Ctx) (s : State),
    s.rst = none → s.intake.queue = d :: q → s.headOutcome d = .accept dest cl → s.storeUsed < 128 →
    (dest = .common ∧ c = 0 ∨ dest = .held c ∨
      ∃ k, dest = .newKey k ∧ (s.str.freeCtx = some c ∨ s.str.freeCtx = none ∧ c = 0)) →
    ∃ t, exec .takeIntakeHead s = .next t ∧ t.intake.queue = q ∧
      t.intake.results = s.intake.results ∧ t.intake.response = s.intake.response ∧
      t.str.accept = s.str.accept + 1 ∧
      (∃ e : PendingEntry, e =
          { tag := d.tag, length := d.length.toNat, remaining := d.length.toNat, acc := s.str.accept,
            deadline := some s.deadlineTicks, headExtent := none } ∧
        ((∀ k, dest ≠ .newKey k) ∨ s.str.freeCtx = none →
          t.str.ctxs[c].pending = s.str.ctxs[c].pending ++ [e]) ∧
        (∀ k, dest = .newKey k → s.str.freeCtx = some c →
          t.str.ctxs[c].pending = [e] ∧ t.str.ctxs[c].key = some k ∧ t.str.ctxs[c].cls = some cl ∧
          t.str.ctxs[c].counters = Counters.zero) ∧
        (∀ k, dest = .newKey k → s.str.freeCtx = none →
          t.str.ctxs[c].counters.spilled = min (s.str.ctxs[c].counters.spilled + 1) 4294967295)) ∧
      (∀ e, e ≠ c → t.str.ctxs[e].pending = s.str.ctxs[e].pending) ∧
      s.frame t (.intake :: policyBlocks)

/-- R5, R7, R70: the result that has waited longest enters the result queue when it has room; a
completion table entry that held it is freed, with its partner's, and so are their tags. A waiting intake
head is taken: refused, it leaves the intake queue and its result enters, and a context it names counts
it. -/
def Obligations.WaitingResultEnters : Prop :=
  ∀ (w : Waiter) (ws : List Waiter) (s : State), s.rst = none → s.intake.waiters = w :: ws →
    s.intake.results.length < 32 →
    (∀ r, w = .store r →
      ∃ t, exec .resultEntersQueue s = .next t ∧ t.intake.results = s.intake.results ++ [r] ∧
        t.intake.waiters.filter (· != .intakeHead) = ws.filter (· != .intakeHead) ∧
        t.intake.queue = s.intake.queue ∧ t.intake.response = s.intake.response ∧ s.frame t [.intake]) ∧
    (∀ g e r, w = .completion g → s.plc.comp[g] = some e → e.second = false → e.result = some r →
      ∃ t, exec .resultEntersQueue s = .next t ∧ t.intake.results = s.intake.results ++ [r] ∧
        t.intake.waiters.filter (· != .intakeHead) = ws.filter (· != .intakeHead) ∧
        t.plc.comp[g] = none ∧ (∀ h, e.partner = some h → t.plc.comp[h] = none) ∧
        (∀ h, h ≠ g → e.partner ≠ some h → t.plc.comp[h] = s.plc.comp[h]) ∧
        t.plc.claims = s.plc.claims ∧ t.intake.queue = s.intake.queue ∧
        t.intake.response = s.intake.response ∧ s.frame t [.intake, .plc]) ∧
    (w = .intakeHead → exec .resultEntersQueue s = exec .takeIntakeHead s ∧
      ∀ d q why o, s.intake.queue = d :: q → s.headOutcome d = .refuse why o →
        ∃ t, exec .resultEntersQueue s = .next t ∧ t.intake.queue = q ∧
          t.intake.results = s.intake.results ++
            [{ tag := d.tag, status := .refused why, stream := o, extents := [] }] ∧
          (o = none → t.str = s.str) ∧
          (∀ c, o = some c → t.str.ctxs[c].counters = s.str.ctxs[c].counters.refusing 1 ∧
            ∀ e, e ≠ c → t.str.ctxs[e] = s.str.ctxs[e]) ∧
          t.intake.waiters.filter (· != .intakeHead) = ws.filter (· != .intakeHead) ∧
          t.intake.response = s.intake.response ∧ s.frame t [.intake, .str])

/-- R1, R181, R183: the record taken leaves its holding place or queue, and the next choice is the control
response, else the oldest notice, else the oldest result. A posted notice joins the tail of a queue of
fewer than 16; a full queue drops it, counts it as lost, and marks its newest notice. -/
def Obligations.OutboundRecordLeaves : Prop :=
  (∀ (f : Faults) (b : NoticeBody),
    (f.notices.length < 16 →
      f.post b = { f with notices := f.notices ++ [{ body := b, lost := false }] }) ∧
    (∀ l n, f.notices = l ++ [n] → 16 ≤ f.notices.length →
      f.post b = { f with notices := l ++ [{ n with lost := true }], lost := min (f.lost + 1) 65535 })) ∧
  ∀ s : State, s.rst = none →
    ∃ t, exec .outboundRecordTaken s = .next t ∧ t.intake.queue = s.intake.queue ∧
      t.intake.offer =
        (if t.intake.response.isSome then some .response
          else if t.flt.notices ≠ [] then some .notice
          else if t.intake.results ≠ [] then some .result else none) ∧
      (s.intake.offer = some .response → t.intake.response = none ∧
        t.intake.results = s.intake.results ∧ s.frame t [.intake]) ∧
      (s.intake.offer = some .notice → t.flt = { s.flt with notices := s.flt.notices.drop 1 } ∧
        s.frame t [.flt]) ∧
      (s.intake.offer = some .result → t.intake.results = s.intake.results.drop 1 ∧
        t.intake.response = s.intake.response ∧ s.frame t [.intake])

/-! ### Control requests (Chapter 11) -/

/-- R177: a record whose code, length or unused bits fail the first check is answered BAD-ARGUMENT under
the code received and changes nothing; while the holding place is occupied the record is not taken. -/
def Obligations.BadControlRecordAnswered : Prop :=
  ∀ (code : Byte) (args : List Byte) (s : State), s.rst = none →
    (s.intake.response = none → firstCheck code.toNat args = false →
      ∃ t, exec (.controlRequestBadCode code args) s = .next t ∧ s.answered t code .badArgument [] ∧
        s.frame t [.intake]) ∧
    (s.intake.response.isSome →
      ∃ t, exec (.controlRequestBadCode code args) s = .next t ∧ s.frame t []) ∧
    (code.toNat = 0 ∨ 15 < code.toNat ∨
        (∀ n, recordBytes code.toNat = some n → n ≠ args.length + 1) →
      firstCheck code.toNat args = false)

/-- R121, R122, R178: CONFIGURE with every argument in range stores the parameters and the hint map, and
leads to CENSUS, with the station's ROLL queued, or to LISTEN by the last reset kind; in LEVEL mode an
asserted PRESSURE line is an onset, one episode more with its PRESSURE notice (R171, R173). In any other
state it is answered WRONG-STATE. With an argument out of range it is answered BAD-ARGUMENT and changes
nothing. -/
def Obligations.ConfigureTaken : Prop :=
  (∀ (b c0 c1 p f i0 i1 dl ct h0 h1 : Byte) (s : State), s.ready → f.toNat < 128 →
    8 ≤ b.toNat → b.toNat ≤ 48 → 1024 ≤ c0.toNat + 256 * c1.toNat → 1 ≤ p.toNat → p.toNat ≤ 16 →
    1 ≤ f.toNat % 16 → f.toNat % 16 ≤ 12 → 1 ≤ i0.toNat + 256 * i1.toNat →
    i0.toNat + 256 * i1.toNat ≤ 1000 → 1 ≤ dl.toNat → (ct.toNat = 0 ∨ 16 ≤ ct.toNat) →
    (s.mem.state = .unconfigured →
      ∃ t cfg, exec (.configure [b, c0, c1, p, f, i0, i1, dl, ct, h0, h1]) s = .next t ∧
        t.mem.cfg = some cfg ∧ s.answered t 1 .done [] ∧ cfg.params.b = b ∧
        cfg.params.c.toNat = c0.toNat + 256 * c1.toNat ∧ cfg.params.p = p ∧
        cfg.quota.toNat = f.toNat % 16 ∧ cfg.wakeFactor = 2 ^ (f.toNat / 32 % 4) ∧
        cfg.pressureMode = (if f.toNat / 16 % 2 = 1 then .edge else .level) ∧
        cfg.idleMs = i0.toNat + 256 * i1.toNat ∧ cfg.deadlineMs = dl.toNat ∧
        cfg.closeTimeout = (if ct.toNat = 0 then 64 else ct.toNat) ∧
        (∀ k : Fin 8, (t.cls.hintMap[k]).val = (h0.toNat + 256 * h1.toNat) / 4 ^ k.val % 4) ∧
        t.cls.entries = s.cls.entries ∧
        t.mem.state = (match s.mem.lastReset with | .powerOnOrDrive => .census | .station => .listen) ∧
        (s.mem.lastReset = .station →
          t.mem.listenTimer = some (cfg.wakeFactor * (4 * p.toNat))) ∧
        (s.mem.lastReset = .powerOnOrDrive →
          t.bus.carries (.roll s.mem.stn cfg.quota s.mem.adoptDis cfg.params) ∧
          (s.bus.tx = [] → s.bus.held = [] → t.bus.held = [] ∧ t.bus.tx =
            [{ dest := none, body := .roll s.mem.stn cfg.quota s.mem.adoptDis cfg.params }])) ∧
        (∀ on n, on = (cfg.pressureMode == .level && s.line.pressureLine && !s.line.pressure) →
          n = min (s.line.episodes + 1) 65535 →
          t.line = { s.line with
            pressure := s.line.pressure || on,
            episodes := if on then n else s.line.episodes } ∧
          (on = true → s.flt.notices.length < 15 →
            { body := .pressure true n, lost := false } ∈ t.flt.notices)) ∧
        t.flt = { s.flt with notices := t.flt.notices, lost := t.flt.lost } ∧
        s.frame t [.intake, .cls, .bus, .mem, .line, .flt]) ∧
    (s.mem.state ≠ .unconfigured →
      ∃ t, exec (.configure [b, c0, c1, p, f, i0, i1, dl, ct, h0, h1]) s = .next t ∧
        s.answered t 1 .wrongState [] ∧ s.frame t [.intake])) ∧
  (∀ (b c0 c1 p f i0 i1 dl ct h0 h1 : Byte) (s : State), s.ready →
    (b.toNat < 8 ∨ 48 < b.toNat ∨ c0.toNat + 256 * c1.toNat < 1024 ∨ p.toNat = 0 ∨ 16 < p.toNat ∨
      f.toNat % 16 = 0 ∨ 12 < f.toNat % 16 ∨ 128 ≤ f.toNat ∨ i0.toNat + 256 * i1.toNat = 0 ∨
      1000 < i0.toNat + 256 * i1.toNat ∨ dl.toNat = 0 ∨ (ct.toNat ≠ 0 ∧ ct.toNat < 16)) →
    ∃ t, exec (.configure [b, c0, c1, p, f, i0, i1, dl, ct, h0, h1]) s = .next t ∧
      s.answered t 1 .badArgument [] ∧ s.frame t [.intake])

/-- R14, R179: SET-CLASSIFIER in UNCONFIGURED or in HOLD replaces the named entry whole and nothing else;
elsewhere it is answered WRONG-STATE. An entry above 31, a mode code above 5, a value beside ANY or a
namespace above 15 is answered BAD-ARGUMENT. -/
def Obligations.ClassifierEntryReplaced : Prop :=
  (∀ (e : Fin 32) (f fn ns : Byte) (m : MatchMode) (s : State), s.ready → ns.toNat < 16 →
    matchModeOf (f.toNat / 2 % 8) = some m → (64 ≤ f.toNat % 128 → fn = 0) →
    (128 ≤ f.toNat → ns = 0) →
    (s.mem.state = .unconfigured ∨ s.line.mode = .hold →
      ∃ t entry, exec (.setClassifier [BitVec.ofNat 8 e.val, f, fn, ns]) s = .next t ∧
        entry = t.cls.entries[e] ∧ s.answered t 2 .done [] ∧
        t.cls.entries = put s.cls.entries e entry ∧
        t.cls.hintMap = s.cls.hintMap ∧ entry.enabled = (f.toNat % 2 == 1) ∧ entry.mode = m ∧
        entry.defaultClass.val = f.toNat / 16 % 4 ∧
        entry.function = (if 64 ≤ f.toNat % 128 then none else some fn) ∧
        entry.nspace = (if 128 ≤ f.toNat then none else some (BitVec.ofNat 4 ns.toNat)) ∧
        s.frame t [.intake, .cls]) ∧
    (s.mem.state ≠ .unconfigured → s.line.mode = .run →
      ∃ t, exec (.setClassifier [BitVec.ofNat 8 e.val, f, fn, ns]) s = .next t ∧
        s.answered t 2 .wrongState [] ∧ s.frame t [.intake])) ∧
  (∀ (e f fn ns : Byte) (s : State), s.ready →
    (32 ≤ e.toNat ∨ 5 < f.toNat / 2 % 8 ∨ (64 ≤ f.toNat % 128 ∧ fn ≠ 0) ∨
      (128 ≤ f.toNat ∧ ns ≠ 0) ∨ 16 ≤ ns.toNat) →
    ∃ t, exec (.setClassifier [e, f, fn, ns]) s = .next t ∧ s.answered t 2 .badArgument [] ∧
      s.frame t [.intake])

/-- R168: SET-MODE sets the placement mode in every membership state but UNCONFIGURED and is answered
DONE whether or not the mode changed; naming the mode in force changes nothing further. Outside MEMBER
and CATCHUP no PLACE is issued. The mode is kept through staleness, the named-absent path, ISOLATED,
departure and WAKE. -/
def Obligations.PlacementModeSet : Prop :=
  (∀ (m : Mode) (s : State), s.ready → s.mem.state ≠ .unconfigured →
    ∃ t, exec (.setMode [match m with | .run => 0 | .hold => 1]) s = .next t ∧ s.answered t 3 .done [] ∧
      t.line = { s.line with mode := m } ∧ s.frame t (.intake :: .line :: policyBlocks) ∧
      (s.line.mode = m → s.frame t [.intake])) ∧
  (∀ (m : Mode) (s : State), s.ready → s.mem.state = .unconfigured →
    ∃ t, exec (.setMode [match m with | .run => 0 | .hold => 1]) s = .next t ∧
      s.answered t 3 .wrongState [] ∧ s.frame t [.intake]) ∧
  (∀ (b : Byte) (s : State), s.ready → 1 < b.toNat →
    ∃ t, exec (.setMode [b]) s = .next t ∧ s.answered t 3 .badArgument [] ∧ s.frame t [.intake]) ∧
  (∀ s : State, s.rst = none → s.mem.state ≠ .member → s.mem.state ≠ .catchup →
    ∃ t, exec .issuePlace s = .next t ∧ s.frame t []) ∧
  (∀ (s : State) (p : Option Station), s.goStale.line = s.line ∧ (s.namedAbsent p).line = s.line ∧
    s.isolate.line = s.line ∧ s.depart.line = s.line ∧ s.ownLeave.line = s.line ∧
    s.actWake.line = s.line)

/-- R25, R31, R32, R70, R74: PARK-STREAM of an IDLE, WAITING or BOUND context refuses PARKED everything
pending, oldest first, and ends the residency. Each refusal counts, a tail's with its result (log entry
39). With nothing in flight the context is PARKED, keeping key and class, with its counters in the
response (log entry 24); else it is DRAINING. Any other state is answered WRONG-STATE, index 0
BAD-ARGUMENT. -/
def Obligations.StreamParked : Prop :=
  ∀ (c : Ctx) (s : State), s.ready →
    (c ≠ 0 → (s.str.ctxs[c].state = .idle ∨ s.str.ctxs[c].state = .waiting ∨
        s.str.ctxs[c].state = .bound) →
      ∃ t, exec (.parkStream [BitVec.ofNat 8 c.val]) s = .next t ∧
        (∀ l, l = s.str.ctxs[c].pending.filterMap (s.refusalOf .parked c) → s.tailHeld c →
          ∀ n, n = s.str.ctxs[c].counters.refusing l.length →
          s.intake.took t.intake l ∧ s.tailRefused t .parked c ∧
          (s.str.ctxs[c].inFlight = 0 →
            t.intake.response = some
              { code := 4, status := .done, content := BitVec.ofNat 8 c.val :: n.bytes }) ∧
          (s.str.ctxs[c].inFlight ≠ 0 → t.str.ctxs[c].counters = n)) ∧
        (s.str.ctxs[c].inFlight = 0 →
          t.str.ctxs[c] = { Context.unassigned with
            state := .parked, key := s.str.ctxs[c].key, cls := s.str.ctxs[c].cls }) ∧
        (s.str.ctxs[c].inFlight ≠ 0 →
          t.intake.response = some { code := 4, status := .accepted, content := [] } ∧
          t.str.ctxs[c].state = .draining ∧ t.str.ctxs[c].pending = [] ∧ t.str.ctxs[c].slot = none ∧
          t.str.ctxs[c].key = s.str.ctxs[c].key ∧ t.str.ctxs[c].cls = s.str.ctxs[c].cls ∧
          t.str.ctxs[c].inFlight = s.str.ctxs[c].inFlight ∧ t.str.ctxs[c].idle = none) ∧
        s.leftSlot t c ∧ (∀ y ∈ t.plc.claims, y.claimant ≠ some c) ∧
        (∀ b, b ≠ c → t.str.ctxs[b].pending = s.str.ctxs[b].pending) ∧
        t.intake.queue = s.intake.queue ∧ t.dir.rep = s.dir.rep ∧
        s.frame t (.intake :: policyBlocks)) ∧
    (c ≠ 0 → (s.str.ctxs[c].state = .unassigned ∨ s.str.ctxs[c].state = .draining ∨
        s.str.ctxs[c].state = .parked) →
      ∃ t, exec (.parkStream [BitVec.ofNat 8 c.val]) s = .next t ∧ s.answered t 4 .wrongState [] ∧
        s.frame t [.intake]) ∧
    (∀ b : Byte, b = 0 ∨ 64 ≤ b.toNat →
      ∃ t, exec (.parkStream [b]) s = .next t ∧ s.answered t 4 .badArgument [] ∧ s.frame t [.intake])

/-- R33: UNPARK-STREAM makes a PARKED context IDLE with its key and class, and its idle timer starts with
the full I (R30: where nothing is pending and nothing in flight, as R32 leaves a PARKED context); any
other state is answered WRONG-STATE and changes nothing, an index outside 1 to 63 BAD-ARGUMENT. The next
descriptor joins the context, which else returns to UNASSIGNED; a head refused PARKED before is accepted
after. -/
def Obligations.StreamUnparked : Prop :=
  ∀ (c : Ctx) (s : State), s.ready →
    (c ≠ 0 → s.str.ctxs[c].state = .parked →
      ∃ t, exec (.unparkStream [BitVec.ofNat 8 c.val]) s = .next t ∧ s.answered t 5 .done [] ∧
        t.str.ctxs[c] = { s.str.ctxs[c] with
          state := .idle,
          idle := if s.str.ctxs[c].pending = [] ∧ s.str.ctxs[c].inFlight = 0 then some s.idleTicks
            else none } ∧
        (∀ e, e ≠ c → t.str.ctxs[e] = s.str.ctxs[e]) ∧ s.frame t [.intake, .str, .plc] ∧
        t.plc.comp = s.plc.comp ∧
        (∀ d, (t.joinList c d).str.ctxs[c].state = .waiting ∧
          (t.joinList c d).str.ctxs[c].pending = s.str.ctxs[c].pending ++ [t.newEntry d]) ∧
        (s.str.ctxs[c].pending = [] → s.str.ctxs[c].inFlight = 0 →
          ∃ u, exec (.idleTimerExpiry c) t = .next u ∧ u.str.ctxs[c].state = .unassigned ∧
            u.str.ctxs[c].key = none) ∧
        (∀ d, s.headOutcome d = .refuse .parked (some c) →
          ∃ cl, t.headOutcome d = .accept (.held c) cl)) ∧
    (c ≠ 0 → s.str.ctxs[c].state ≠ .parked →
      ∃ t, exec (.unparkStream [BitVec.ofNat 8 c.val]) s = .next t ∧ s.answered t 5 .wrongState [] ∧
        s.frame t [.intake]) ∧
    (∀ b : Byte, b = 0 ∨ 64 ≤ b.toNat →
      ∃ t, exec (.unparkStream [b]) s = .next t ∧ s.answered t 5 .badArgument [] ∧ s.frame t [.intake])

/-- R180: each read request is answered DONE with its content, in the bytes of log entry 24, and changes
nothing but the holding place. -/
def Obligations.ReadsChangeNothing : Prop :=
  ∀ s : State, s.ready →
    (∀ c : Ctx, ∃ t, exec (.readStream [BitVec.ofNat 8 c.val]) s = .next t ∧
      s.answered t 6 .done s.str.ctxs[c].bytes ∧ s.frame t [.intake]) ∧
    (∀ k : Slot, ∃ t, exec (.readSlot [BitVec.ofNat 8 k.val]) s = .next t ∧
      s.answered t 7 .done (s.slotContent k) ∧ s.frame t [.intake]) ∧
    (∃ t, exec (.readRoster []) s = .next t ∧ s.answered t 8 .done s.rosterContent ∧
      s.frame t [.intake]) ∧
    (∃ t, exec (.readStatus []) s = .next t ∧ s.answered t 9 .done s.statusContent ∧
      s.frame t [.intake]) ∧
    (∃ t, exec (.readFault []) s = .next t ∧ s.answered t 10 .done s.flt.content ∧ s.frame t [.intake])

/-- R186: CLEAR-FAULT is answered DONE, empties and unlocks the first-fault record, clears the
second-fault mark and the frozen mark and the notices-lost count, and keeps counts, notices and the
last-request record. A report before it is captured or marks the second fault, and leaves its count and
its notice; a report after it is captured; a READ-FAULT shows the record as it stands. -/
def Obligations.FaultCleared : Prop :=
  ∀ s : State, s.ready →
    (∃ t, exec (.clearFault []) s = .next t ∧ s.answered t 11 .done [] ∧
      t.flt = { s.flt with first := none, second := false, frozen := false, lost := 0 } ∧
      s.frame t [.intake, .flt] ∧ (∀ r : LastReq, (t.flt.loadRequest r).lastReq = some r) ∧
      (∀ r : FaultRec, (t.flt.report r).first = some r ∧ (t.flt.report r).second = false)) ∧
    (∀ r : FaultRec,
      (s.flt.first = none → (s.flt.report r).first = some r ∧
        (s.flt.notices.length < 16 →
          (s.flt.report r).notices = s.flt.notices ++ [{ body := .fault r, lost := false }])) ∧
      (∀ x, s.flt.first = some x → (s.flt.report r).first = some x ∧ (s.flt.report r).second = true ∧
        (s.flt.report r).notices = s.flt.notices)) ∧
    (∀ r : FaultRec, ∃ t, exec (.clearFault []) (s.onFlt (·.report r)) = .next t ∧
      t.flt.first = none ∧ t.flt.second = false ∧ t.flt.counts = (s.flt.report r).counts ∧
      t.flt.notices = (s.flt.report r).notices) ∧
    (∃ t, exec (.readFault []) s = .next t ∧ s.answered t 10 .done s.flt.content)

/-- R108: RESTORE-SLOT of a slot the replica shows QUARANTINED is ACCEPTED in MEMBER and queues a
RESTORE; otherwise it is answered WRONG-STATE or BAD-ARGUMENT. -/
def Obligations.RestoreRequested : Prop :=
  ∀ (k : Slot) (s : State), s.ready →
    (s.mem.state = .member → s.dir.rep.dir[k] = .quarantined →
      ∃ t, exec (.restoreSlot [BitVec.ofNat 8 k.val]) s = .next t ∧ s.answered t 12 .accepted [] ∧
        s.bus.gained t.bus { dest := none, body := .restore k } ∧ s.frame t [.intake, .bus]) ∧
    (s.mem.state ≠ .member ∨ s.dir.rep.dir[k] ≠ .quarantined →
      ∃ t, exec (.restoreSlot [BitVec.ofNat 8 k.val]) s = .next t ∧ s.answered t 12 .wrongState [] ∧
        s.frame t [.intake]) ∧
    (∀ b : Byte, 48 ≤ b.toNat → ∃ t, exec (.restoreSlot [b]) s = .next t ∧
      s.answered t 12 .badArgument [] ∧ s.frame t [.intake])

/-- R7, R35, R174: an accepted DEPART sets the mark, refuses NOT-MEMBER every pending descriptor in the
order of their acceptance numbers, ends the QUEUED claims and the RECALL entry, withdraws their frames, and
decides a shut LEAVING for every holding without a shut, whose SHUT is queued. Each refusal counts in its
context, a tail's with its result (log entry 39). The intake queue stays. Otherwise DEPART is answered
WRONG-STATE. -/
def Obligations.DepartureBegins : Prop :=
  ∀ s : State, s.ready →
    (s.mem.state = .member → s.mem.departing = false →
      ∃ t, exec (.depart []) s = .next t ∧
        t.intake.response = some { code := 13, status := .accepted, content := [] } ∧
        t.intake.queue = s.intake.queue ∧
        (∀ base : BitVec 16, (∀ (c : Ctx), ∀ e ∈ s.str.ctxs[c].pending, (e.acc - base).toNat < 32768) →
          (∀ c, s.tailHeld c) →
          (∃ l : List (Ctx × PendingEntry),
            l.Perm (allCtxs.flatMap fun c => s.str.ctxs[c].pending.map fun e => (c, e)) ∧
            l.Pairwise (fun p q => (p.2.acc - base).toNat ≤ (q.2.acc - base).toNat) ∧
            s.intake.took t.intake (l.filterMap fun p => s.refusalOf .notMember p.1 p.2)) ∧
          ∀ c : Ctx, s.tailRefused t .notMember c ∧
            t.str.ctxs[c].counters = s.str.ctxs[c].counters.refusing
              (s.str.ctxs[c].pending.filterMap (s.refusalOf .notMember c)).length) ∧
        t.mem = { s.mem with departing := true } ∧ (∀ c : Ctx, t.str.ctxs[c].pending = []) ∧
        (∀ c : Ctx, t.str.ctxs[c].state ≠ .waiting) ∧ (∀ e ∈ t.plc.claims, e.phase ≠ .queued) ∧
        (∀ e, t.dir.request ≠ some (.recall e)) ∧ (∀ q ∈ t.bus.waiting, q.body.kind ≠ .claim) ∧
        (∀ e, s.dir.request = some (.recall e) → ∀ q ∈ t.bus.waiting, q.body.kind ≠ .recall) ∧
        (∀ (k : Slot) (x : Ext), s.dir.ext[k] = some x → x.shutDue = none → s.shutApplied k = false →
          (∃ y, t.dir.ext[k] = some y ∧ y.shutDue = some .leaving) ∧
            t.bus.carries (.shut k .leaving none)) ∧
        t.dir.rep = s.dir.rep ∧ s.frame t (.intake :: .mem :: policyBlocks)) ∧
    (s.mem.state ≠ .member ∨ s.mem.departing = true →
      ∃ t, exec (.depart []) s = .next t ∧ s.answered t 13 .wrongState [] ∧ s.frame t [.intake])

/-- R141, R142: WAKE in DORMANT and REJOIN in ISOLATED empty the replica, drop every holding and move the
station to LISTEN with the attempt count 0 and the listen timer started; WAKE turns the receiver on. The
contexts' keys, the completion table, the classifier and the lines are kept. The tracker places of the
holdings are released, and their held OPEN-ORDERs discarded (R163). Elsewhere they are answered
WRONG-STATE. -/
def Obligations.WakeAndRejoinListen : Prop :=
  ∀ s : State, s.ready →
    (∀ c : Instr, (c = .wake [] ∧ s.mem.state = .dormant ∨ c = .rejoin [] ∧ s.mem.state = .isolated) →
      ∃ t, exec c s = .next t ∧
        s.answered t (match c with | .wake _ => 14 | _ => 15) .done [] ∧ t.mem.state = .listen ∧
        t.mem.attempts = 0 ∧ t.mem.retryTimer = none ∧ t.mem.listenTimer = some s.listenTicks ∧
        t.dir.rep = Replica.empty ∧ (∀ k : Slot, t.dir.ext[k] = none) ∧ t.dir.request = none ∧
        t.dir.cooling = none ∧ t.plc.claims = [] ∧ t.plc.comp = s.plc.comp ∧
        t.link = s.link.freed s.hasHolding s.closeTicks ∧
        (∀ x : Ctx, t.str.ctxs[x].key = s.str.ctxs[x].key ∧ t.str.ctxs[x].cls = s.str.ctxs[x].cls ∧
          t.str.ctxs[x].pending = s.str.ctxs[x].pending) ∧
        (c = .wake [] → t.bus.receiver = .hunt ∧ t.bus.mediumBusy = true) ∧
        t.flt.first = s.flt.first ∧ t.flt.second = s.flt.second ∧ t.flt.counts = s.flt.counts ∧
        t.flt.lastReq = s.flt.lastReq ∧ t.flt.frozen = s.flt.frozen ∧
        s.frame t (.intake :: .mem :: .link :: policyBlocks)) ∧
    (s.mem.state ≠ .dormant → ∃ t, exec (.wake []) s = .next t ∧ s.answered t 14 .wrongState [] ∧
      s.frame t [.intake]) ∧
    (s.mem.state ≠ .isolated → ∃ t, exec (.rejoin []) s = .next t ∧ s.answered t 15 .wrongState [] ∧
      s.frame t [.intake])

/-! ### Streams and placement (Chapters 2 and 4) -/

/-- R7, R28: while running time passes, the expiry of a stream's deadline (log entry 3) refuses
NO-PLACEMENT the oldest entry of its list that still has one, wherever it stands, and its context counts
it. Its result enters the result queue, or waits where that is full or another result waits already (log
entry 27). Otherwise no deadline moves. -/
def Obligations.DeadlineRefuses : Prop :=
  ∀ (c : Ctx) (pre post : List PendingEntry) (e : PendingEntry) (s : State), s.rst = none →
    s.str.ctxs[c].pending = pre ++ e :: post → (∀ x ∈ pre, x.deadline = none) → e.deadline.isSome →
    (s.line.mode = .run → s.line.warned = false →
      ∃ t r, exec (.deadlineExpiry c) s = .next t ∧
        r = { tag := e.tag, status := .refused .noPlacement, stream := some c, extents := [] } ∧
        t.str.ctxs[c].pending = pre ++ post ∧
        t.str.ctxs[c].counters.refused = min (s.str.ctxs[c].counters.refused + 1) 4294967295 ∧
        (s.str.ctxs[c].state = .waiting → pre ++ post = [] → t.str.ctxs[c].state = .idle) ∧
        (∀ b, b ≠ c → t.str.ctxs[b].pending = s.str.ctxs[b].pending) ∧
        (s.intake.results.length < 32 → s.intake.waiters = [] →
          t.intake.results = s.intake.results ++ [r]) ∧
        (32 ≤ s.intake.results.length ∨ s.intake.waiters ≠ [] →
          t.intake.results = s.intake.results ∧ .store r ∈ t.intake.waiters) ∧
        t.intake.queue = s.intake.queue ∧ t.intake.response = s.intake.response ∧
        s.frame t (.intake :: policyBlocks)) ∧
    (s.line.mode = .hold ∨ s.line.warned = true →
      ∃ t, exec (.deadlineExpiry c) s = .next t ∧ s.frame t [])

/-- R25, R30, R50, R74: the expiry of a context's idle timer (log entry 3) returns it to UNASSIGNED with
its counters. It is resident nowhere then, and a NORMAL slot it leaves without a resident is shut IDLE,
its SHUT queued in MEMBER, unless a shut is decided or applied. Context 0 has no idle timer, and where
none runs nothing changes (log entry 1). -/
def Obligations.IdleContextReturns : Prop :=
  ∀ (c : Ctx) (s : State), s.rst = none →
    (c ≠ 0 → s.str.ctxs[c].idle.isSome →
      ∃ t, exec (.idleTimerExpiry c) s = .next t ∧
        t.str.ctxs[c] = { Context.unassigned with
          counters := s.str.ctxs[c].counters, inFlight := s.str.ctxs[c].inFlight } ∧
        (∀ b, b ≠ c → t.str.ctxs[b].pending = s.str.ctxs[b].pending ∧
          t.str.ctxs[b].key = s.str.ctxs[b].key) ∧
        s.leftSlot t c ∧
        t.dir.rep = s.dir.rep ∧ s.frame t policyBlocks) ∧
    (c = 0 ∨ s.str.ctxs[c].idle = none →
      ∃ t, exec (.idleTimerExpiry c) s = .next t ∧ s.frame t [])

/-- R27, R34, R50, R65, R66, R73: the PLACE of the BOUND stream with the oldest head, with the lowest free
tag, where no CLOSE-ORDER or OPEN-ORDER goes before it (log entry 28). An entry that fits goes whole, and
leaves its list. A head too long for the slot's remaining space is split at C, its tail staying at the
head of the list. A tail too long is not placed, and its stream releases the slot (log entry 29). At C the
slot is shut FULL, and in MEMBER the SHUT is queued. A first extent of a keyed stream in the MIXED slot
counts as spilled. Which stream issues next, and with which tag, is said last. -/
def Obligations.PlaceIssued : Prop :=
  (∀ (c : Ctx) (tg : DTag) (k : Slot) (g : Gen) (e : PendingEntry) (rest : List PendingEntry) (x : Ext)
    (s : State), s.rst = none → (s.mem.state = .member ∨ s.mem.state = .catchup) →
    s.link.queue.length < 16 → s.line.mode = .run → s.line.warned = false → s.nextClose = none →
    s.nextOpen = none → s.nextPlacer = some c → s.plc.freeTag = some tg →
    s.str.ctxs[c].slot = some (k, g) → s.str.ctxs[c].pending = e :: rest → s.dir.ext[k] = some x →
    (∀ n, n = min e.remaining (s.dir.rep.capacity - x.cursor) →
      (e.remaining ≤ s.dir.rep.capacity - x.cursor ∨ e.headExtent = none) →
      ∃ t, exec .issuePlace s = .next t ∧
        t.link = { s.link with queue := s.link.queue ++
          [.place tg e.tag { slot := k, serial := x.serial, offset := x.cursor, length := n } c] } ∧
        (∃ y, t.plc.comp[tg] = some y ∧ y.tag = e.tag ∧ y.length = e.length ∧ y.stream = c ∧
          y.extent = { slot := k, serial := x.serial, offset := x.cursor, length := n } ∧
          y.outcome = .outstanding ∧ y.second = e.headExtent.isSome) ∧
        (∃ y, t.dir.ext[k] = some y ∧ y.cursor = x.cursor + n ∧ y.inFlight = x.inFlight + 1 ∧
          y.lastFill = some s.str.timeMs ∧
          (s.dir.rep.capacity ≤ x.cursor + n → y.shutDue = some .full)) ∧
        (s.dir.rep.capacity ≤ x.cursor + n → s.mem.state = .member →
          s.bus.gainedFirst t.bus { dest := none, body := .shut k .full none }) ∧
        t.str.ctxs[c].inFlight = s.str.ctxs[c].inFlight + 1 ∧
        t.str.ctxs[c].lastWrite = some s.str.timeMs ∧
        t.str.ctxs[c].counters = { s.str.ctxs[c].counters with
          split := if e.remaining ≤ s.dir.rep.capacity - x.cursor then s.str.ctxs[c].counters.split
            else min (s.str.ctxs[c].counters.split + 1) 4294967295,
          spilled :=
            if s.dir.rep.dir[k].kind? = some .mixed ∧ c ≠ 0 ∧ e.headExtent = none then
              min (s.str.ctxs[c].counters.spilled + 1) 4294967295
            else s.str.ctxs[c].counters.spilled } ∧
        (e.remaining ≤ s.dir.rep.capacity - x.cursor → t.str.ctxs[c].pending = rest) ∧
        (s.dir.rep.capacity - x.cursor < e.remaining →
          t.str.ctxs[c].pending =
            { e with remaining := e.remaining - n, deadline := none,
                     headExtent := some { slot := k, serial := x.serial, offset := x.cursor, length := n }
            } :: rest ∧
          t.str.ctxs[c].counters.split = min (s.str.ctxs[c].counters.split + 1) 4294967295) ∧
        (∀ b, b ≠ c → t.str.ctxs[b].pending = s.str.ctxs[b].pending) ∧ t.dir.rep = s.dir.rep ∧
        s.frame t (.link :: policyBlocks)) ∧
    (s.dir.rep.capacity - x.cursor < e.remaining → e.headExtent.isSome →
      ∃ t, exec .issuePlace s = .next t ∧ t.link = s.link ∧ t.plc.comp = s.plc.comp ∧
        t.str.ctxs[c].pending = e :: rest ∧ t.str.ctxs[c].inFlight = s.str.ctxs[c].inFlight ∧
        (∀ h, t.str.ctxs[c].slot ≠ some (k, h)) ∧ t.dir.rep = s.dir.rep ∧ s.frame t policyBlocks)) ∧
  (∀ (s : State) (c : Ctx), s.mayIssue c = true ↔ ∃ k g e rest x kd,
    s.str.ctxs[c].state = .bound ∧ s.str.ctxs[c].slot = some (k, g) ∧
      s.str.ctxs[c].pending = e :: rest ∧ s.dir.ext[k] = some x ∧ x.serial = g ∧
      s.dir.rep.dir[k] = .opened s.mem.stn kd g ∧ x.readiness = .ready ∧ x.shutDue = none) ∧
  (∀ (s : State) (base : BitVec 16),
    (∀ b : Ctx, s.mayIssue b = true → (s.str.ctxs[b].headAcc - base).toNat < 32768) →
    (∀ c, s.nextPlacer = some c → s.mayIssue c = true ∧ ∀ b : Ctx, s.mayIssue b = true →
      (s.str.ctxs[c].headAcc - base).toNat ≤ (s.str.ctxs[b].headAcc - base).toNat) ∧
    (s.nextPlacer = none → ∀ b : Ctx, s.mayIssue b = false)) ∧
  (∀ (p : Placement) (tg : DTag), p.freeTag = some tg ↔
    p.comp[tg] = none ∧ ∀ h : DTag, h < tg → p.comp[h] ≠ none)

/-- R50, R68, R69, R70: a PLACE-DONE. For the only extent of a descriptor OK gives a PLACED result and
counts its PU; FAILED gives PLACE-FAILED with the extent marked, the fault PLACE-FAILED and the shut FAULT
of its slot, whose SHUT is queued in MEMBER. The entry and its tag are freed as the result enters the
result queue. R32: a DRAINING context with nothing left in flight is PARKED, and its DRAINED notice
carries the counters. Extent 1 of a split descriptor: with its tail WAITING, OK gives no result yet, and
FAILED takes the tail from its list and gives PLACE-FAILED; with its tail REFUSED the result is REFUSED
with that reason, or PLACE-FAILED. With extent 2 issued, the first of the two to be done gives no result;
the second gives one with both extents, PLACE-FAILED where either failed. -/
def Obligations.PlaceDoneTaken : Prop :=
  (∀ (tg : DTag) (e : CompEntry) (x : Context) (s : State), s.rst = none → s.link.state = .operating →
    s.plc.comp[tg] = some e → e.outcome = .outstanding → e.second = false → e.partner = none →
    e.tail = none → e.result = none → s.intake.results.length < 32 → s.intake.waiters = [] →
    s.str.ctxs[e.stream] = x →
    (∃ t n, exec (.placeDone tg .ok) s = .next t ∧
      n = { x.counters with
        pu := min (x.counters.pu + e.extent.length) 4294967295,
        placed := min (x.counters.placed + 1) 4294967295 } ∧
      t.intake.results = s.intake.results ++
        [{ tag := e.tag, status := .placed, stream := some e.stream, extents := [(e.extent, false)] }] ∧
      t.plc.comp = put s.plc.comp tg none ∧
      (x.state ≠ .draining ∨ 1 < x.inFlight →
        t.str.ctxs[e.stream].counters = n ∧ t.str.ctxs[e.stream].inFlight = x.inFlight - 1 ∧
        t.flt = s.flt) ∧
      (x.state = .draining → x.inFlight ≤ 1 →
        t.str.ctxs[e.stream] =
          { Context.unassigned with state := .parked, key := x.key, cls := x.cls } ∧
        t.flt = s.flt.post (.drained e.stream n)) ∧
      (∀ y, s.dir.ext[e.extent.slot] = some y → y.serial = e.extent.serial →
        t.dir.ext[e.extent.slot] = some { y with inFlight := y.inFlight - 1 }) ∧
      t.dir.rep = s.dir.rep ∧ t.intake.queue = s.intake.queue ∧
      s.frame t [.intake, .str, .plc, .dir, .flt]) ∧
    (∃ t, exec (.placeDone tg .failed) s = .next t ∧
      t.intake.results = s.intake.results ++
        [{ tag := e.tag, status := .placeFailed, stream := some e.stream,
           extents := [(e.extent, true)] }] ∧
      t.plc.comp = put s.plc.comp tg none ∧ s.counted t .placeFailed ∧
      (∀ y, s.dir.ext[e.extent.slot] = some y → y.serial = e.extent.serial →
        ∃ z, t.dir.ext[e.extent.slot] = some z ∧ z.inFlight = y.inFlight - 1 ∧
          (y.shutDue = none → s.dir.rep.dir[e.extent.slot].isClosing = false →
            z.shutDue = some .fault ∧
              (s.mem.state = .member → s.bus.gainedFirst t.bus
                { dest := none, body := .shut e.extent.slot .fault none }))) ∧
      t.dir.rep = s.dir.rep ∧ t.intake.queue = s.intake.queue ∧
      s.frame t (.intake :: policyBlocks))) ∧
  (∀ (tg : DTag) (e : CompEntry) (s : State), s.rst = none → s.link.state = .operating →
    s.plc.comp[tg] = some e → e.outcome = .outstanding → e.second = false → e.partner = none →
    e.result = none → s.intake.results.length < 32 → s.intake.waiters = [] →
    (e.tail = some .waiting →
      (∃ t, exec (.placeDone tg .ok) s = .next t ∧ t.intake.results = s.intake.results ∧
        t.plc.comp = put s.plc.comp tg (some { e with outcome := .ok }) ∧
        (s.str.ctxs[e.stream].state ≠ .draining →
          t.str.ctxs[e.stream].counters = { s.str.ctxs[e.stream].counters with
            pu := min (s.str.ctxs[e.stream].counters.pu + e.extent.length) 4294967295 } ∧
          t.str.ctxs[e.stream].inFlight = s.str.ctxs[e.stream].inFlight - 1) ∧
        (∀ b : Ctx, s.str.ctxs[b].state ≠ .draining → t.str.ctxs[b].pending = s.str.ctxs[b].pending) ∧
        s.frame t [.str, .plc, .dir, .flt]) ∧
      (∃ t, exec (.placeDone tg .failed) s = .next t ∧
        t.intake.results = s.intake.results ++
          [{ tag := e.tag, status := .placeFailed, stream := some e.stream,
             extents := [(e.extent, true)] }] ∧
        t.plc.comp = put s.plc.comp tg none ∧ s.counted t .placeFailed ∧
        (s.str.ctxs[e.stream].state ≠ .draining → t.str.ctxs[e.stream].pending =
          s.str.ctxs[e.stream].pending.filter (·.headExtent.isNone)) ∧
        t.intake.queue = s.intake.queue ∧ s.frame t (.intake :: policyBlocks))) ∧
    (∀ why, e.tail = some (.refused (some why)) →
      (∃ t, exec (.placeDone tg .ok) s = .next t ∧
        t.intake.results = s.intake.results ++
          [{ tag := e.tag, status := .refused why, stream := some e.stream,
             extents := [(e.extent, false)] }] ∧
        t.plc.comp = put s.plc.comp tg none ∧
        (s.str.ctxs[e.stream].state ≠ .draining →
          t.str.ctxs[e.stream].counters = { s.str.ctxs[e.stream].counters.refusing 1 with
            pu := min (s.str.ctxs[e.stream].counters.pu + e.extent.length) 4294967295 }) ∧
        t.intake.queue = s.intake.queue ∧ s.frame t [.intake, .str, .plc, .dir, .flt]) ∧
      (∃ t, exec (.placeDone tg .failed) s = .next t ∧
        t.intake.results = s.intake.results ++
          [{ tag := e.tag, status := .placeFailed, stream := some e.stream,
             extents := [(e.extent, true)] }] ∧
        t.plc.comp = put s.plc.comp tg none ∧ s.counted t .placeFailed ∧
        t.intake.queue = s.intake.queue ∧ s.frame t (.intake :: policyBlocks)))) ∧
  (∀ (g1 g2 tg : DTag) (e1 e2 e o : CompEntry) (x : CompletionOutcome) (y : PlaceOutcome) (s : State),
    s.rst = none → s.link.state = .operating → g1 ≠ g2 → s.plc.comp[g1] = some e1 →
    s.plc.comp[g2] = some e2 → e1.second = false → e2.second = true → e1.partner = some g2 →
    e2.partner = some g1 → e1.tail = some .issued → e1.result = none → e1.stream = e2.stream →
    s.intake.results.length < 32 → s.intake.waiters = [] →
    (tg = g1 ∧ e = e1 ∧ o = e2 ∨ tg = g2 ∧ e = e2 ∧ o = e1) → e.outcome = .outstanding →
    (x = .ok ∧ y = .ok ∨ x = .failed ∧ y = .failed) →
    (o.outcome = .outstanding →
      ∃ t, exec (.placeDone tg x) s = .next t ∧ t.intake.results = s.intake.results ∧
        t.plc.comp = put s.plc.comp tg (some { e with outcome := y }) ∧
        (x = .failed → s.counted t .placeFailed) ∧
        (s.str.ctxs[e1.stream].state ≠ .draining →
          t.str.ctxs[e1.stream].counters = { s.str.ctxs[e1.stream].counters with
            pu := if x = .ok then
              min (s.str.ctxs[e1.stream].counters.pu + e.extent.length) 4294967295
              else s.str.ctxs[e1.stream].counters.pu } ∧
          t.str.ctxs[e1.stream].inFlight = s.str.ctxs[e1.stream].inFlight - 1) ∧
        s.frame t policyBlocks) ∧
    (o.outcome ≠ .outstanding →
      ∃ t, exec (.placeDone tg x) s = .next t ∧
        t.intake.results = s.intake.results ++
          [{ tag := e1.tag,
             status := if y = .failed ∨ o.outcome = .failed then .placeFailed else .placed,
             stream := some e1.stream,
             extents :=
               [(e1.extent, if tg = g1 then y == .failed else e1.outcome == .failed),
                (e2.extent, if tg = g2 then y == .failed else e2.outcome == .failed)] }] ∧
        t.plc.comp = put (put s.plc.comp g1 none) g2 none ∧
        (x = .failed → s.counted t .placeFailed) ∧
        (s.str.ctxs[e1.stream].state ≠ .draining → x = .ok →
          t.str.ctxs[e1.stream].counters = { s.str.ctxs[e1.stream].counters with
            pu := min (s.str.ctxs[e1.stream].counters.pu + e.extent.length) 4294967295,
            placed := if o.outcome = .ok then
              min (s.str.ctxs[e1.stream].counters.placed + 1) 4294967295
              else s.str.ctxs[e1.stream].counters.placed }) ∧
        t.intake.queue = s.intake.queue ∧ s.frame t (.intake :: policyBlocks)))

/-! ### The receiving side of the placement bus (Chapters 3 and 5) -/

/-- R81, R83, R85, R90, R93: the end of a reception. Its entry, with its ending, joins the receive queue,
unless the membership state writes none or a CLEAN frame is for another station; a full queue loses it,
and marks its youngest entry lost-after. A CLEAN frame restarts its sender's last-heard time. The receiver
returns to HUNT, or begins anew where the end was itself an opening delimiter. R83, R89: the entry is own
where the transmission in progress has had no ending yet, or its attempt has ended while its reception went
on; the first ending is the transmission's only one, and tells whether the bits compared were all read as
driven. R78, R81, R90: an opening delimiter read in HUNT begins a reception with byte count 0, meets the
yield obligation and makes the medium busy. The bits and the delimiter come as commands (log entries 10, 11
and 32); the own mark is log entry 34's. -/
def Obligations.ReceptionsBeginAndEnd : Prop :=
  (∀ s : State, s.rst = none → s.bus.receiver = .hunt →
    ∃ t, exec .openingDelimiterRead s = .next t ∧
      t.bus = { s.bus with receiver := .receiving 0, yieldOwed := false, mediumBusy := true } ∧
      s.frame t [.bus]) ∧
  ∀ (n : Nat) (bits : List Bool) (e : Ending) (again : Bool) (s : State), s.rst = none →
    s.bus.receiver = .receiving n → receive bits = some (e, again) →
    ∃ t, exec (.receptionEnd bits) s = .next t ∧
      t.bus.receiver = (if again then .receiving 0 else .hunt) ∧ t.bus.ownEnding = false ∧
      t.bus.tx = s.bus.tx ∧ (s.bus.sending = none → t.bus.sending = none) ∧
      (∀ sg, s.bus.sending = some sg →
        ∃ rb, t.bus.sending = some { sg with readback := rb } ∧ rb ≠ .reading ∧
          (sg.readback ≠ .reading → rb = sg.readback) ∧
          (sg.readback = .reading → (rb = .closing ↔ ∃ l, bits =
            stuffFrom false 0 (sg.frame.bytes.flatMap byteBits) ++ false :: l))) ∧
      ((s.mem.state = .census ∨ s.mem.state = .listen ∨ s.mem.state = .joining ∨
          s.mem.state = .catchup ∨ s.mem.state = .member) →
        (∀ f st, e = .clean f → f.dest = some st → st = s.mem.stn) →
        (s.bus.rx.length < 4 →
          t.bus.rx = s.bus.rx ++
            [{ status := e, lostAfter := false,
               own := s.bus.ownEnding || s.bus.sending.any (·.readback == .reading) }]) ∧
        (4 ≤ s.bus.rx.length → ∀ l y, s.bus.rx = l ++ [y] →
          t.bus.rx = l ++ [{ y with lostAfter := true }])) ∧
      ((s.mem.state = .unconfigured ∨ s.mem.state = .isolated ∨ s.mem.state = .barred ∨
          s.mem.state = .dormant) ∨ (∃ f st, e = .clean f ∧ f.dest = some st ∧ st ≠ s.mem.stn) →
        t.bus.rx = s.bus.rx) ∧
      (∀ f, e = .clean f → f.sender ≠ s.mem.stn →
        t.bus.heard[f.sender].time = 0 ∧
        (∀ st g cu m, f.body = .beacon st g cu m →
          t.bus.heard[f.sender].beacon = some { gen := g, catchup := cu, mode := m })) ∧
      (∀ st : Station, (∀ f, e = .clean f → st ≠ f.sender ∨ st = s.mem.stn) →
        t.bus.heard[st] = s.bus.heard[st]) ∧
      s.frame t [.bus]

/-- R51, R53, R85, R126, R128, R131: an entry that is not CLEAN, or is marked lost-after. In MEMBER it
makes the station stale, with BUS-OVERRUN where it is marked or OVERLONG and else BUS-CHECK, but for an
ABORTED entry not marked, which is discarded, another station's being reported BUS-ABORT. In CENSUS it
leads to LISTEN, and in CATCHUP it fails an attempt that logs, or whose own CATCHUP-ASK it is, but for an
own ABORTED entry. Three things are the model's choice (log entry 17): a marked ABORTED entry is reported
BUS-OVERRUN alone; the mark outweighs an own ABORTED; and the own CATCHUP-ASK fails an attempt in ASKING
also where it is CLEAN but marked, while R131 excepts a readback that is not CLEAN alone. In JOINING
another's changes nothing and an own one decides the JOIN (own mark: log entry 34; its transmission has
been seen to end: log entry 12). In LISTEN it changes nothing. -/
def Obligations.BadEntryTaken : Prop :=
  ∀ (e : RxEntry) (rest : List RxEntry) (s : State), s.rst = none → s.bus.rx = e :: rest →
    (e.own = true → s.bus.sending = none) → ((∀ f, e.status ≠ .clean f) ∨ e.lostAfter = true) →
    ∃ t, exec .receiveEntryNotClean s = .next t ∧
      (s.mem.state = .member →
        (e.lostAfter = false → e.status = .checkError → s.counted t .busCheck ∧ s.wentStale t) ∧
        (e.status = .overlong ∨ e.lostAfter = true → s.counted t .busOverrun ∧ s.wentStale t) ∧
        (e.status = .aborted → e.lostAfter = false → t.bus = { s.bus with rx := rest } ∧
          (e.own = false → s.counted t .busAbort ∧ s.frame t [.bus, .flt]) ∧
          (e.own = true → s.frame t [.bus]))) ∧
      (s.mem.state = .census →
        (e.counts → s.leftCensus t) ∧
        (¬ e.counts → t.bus = { s.bus with rx := rest } ∧ s.frame t [.bus])) ∧
      (s.mem.state = .catchup →
        (s.attemptHit e → s.attemptFailed t) ∧
        (¬ s.attemptHit e → t.bus = { s.bus with rx := rest } ∧ s.frame t [.bus])) ∧
      (s.mem.state = .joining → e.own = true →
        (∀ f, e.status = .clean f → s.joined t) ∧ ((∀ f, e.status ≠ .clean f) → s.joinFailed t)) ∧
      (s.mem.state = .listen ∨ (s.mem.state = .joining ∧ e.own = false) →
        t.bus = { s.bus with rx := rest } ∧ s.frame t [.bus]) ∧
      (t.mem.state ≠ .isolated → t.bus.rx = rest)

/-- Log entry 12: the station's own frame, taken while its transmission has not been seen to end, is
taken as if its completion (R89) had come first. -/
def Obligations.OwnEntryEndsItsAttempt : Prop :=
  ∀ (c : Instr) (f : Frame) (rest : List RxEntry) (s : State), c.takesKind = some f.body.kind →
    s.takes true f rest → exec c s = exec c s.completeTx

/-! ### Census (Chapter 7) -/

/-- R122, R123, R125, R126: in CENSUS a ROLL enters its sender in the census list, the own loopback (log
entry 34) starting the seal deadline and another's digest that differs being reported. The first SEAL
decides: not listed, LISTEN; listed with other parameters, BARRED with PARAM-MISMATCH; else MEMBER with
the replica it seals. What a BARRED station is left with is log entry 25, and that the seal deadline stops
at a SEAL that does not list the station is the model's choice (log entry 55). Any other frame leads to
LISTEN, with the deadline stopped.
-/
def Obligations.CensusFramesDecide : Prop :=
  ∀ (own : Bool) (f : Frame) (rest : List RxEntry) (s : State), s.takes own f rest →
    s.mem.state = .census → (own = true → s.bus.sending = none) →
    (∀ st q a d, f.body = .roll st q a d →
      ∃ t, exec .roll s = .next t ∧ t.bus = { s.bus with rx := rest } ∧
        t.mem = { s.mem with
          census := put s.mem.census f.sender (some { quota := q, adoptDis := a }),
          sealTimer :=
            if own then some (4 * s.pTicks + s.mem.stn.val * (s.pTicks / 2)) else s.mem.sealTimer } ∧
        (own = true ∨ s.mem.cfg.map (·.params) = some d → t.flt = s.flt) ∧
        (own = false → s.mem.cfg.map (·.params) ≠ some d → s.counted t .paramMismatch) ∧
        s.frame t [.bus, .mem, .flt]) ∧
    (∀ l p, f.body = .seal l p →
      ((∀ e ∈ l, e.station ≠ s.mem.stn) → ∃ t, exec .seal s = .next t ∧ s.leftCensus t) ∧
      ((∃ e ∈ l, e.station = s.mem.stn) → s.mem.cfg.map (·.params) ≠ some p →
        ∃ t, exec .seal s = .next t ∧ t.mem.state = .barred ∧ s.emptied t ∧
          s.counted t .paramMismatch) ∧
      ((∃ e ∈ l, e.station = s.mem.stn) → s.mem.cfg.map (·.params) = some p →
        ∃ t, exec .seal s = .next t ∧ t.mem.state = .member ∧ t.dir.rep = Replica.ofSeal l p ∧
          (∀ st : Station, t.mem.census[st] = none) ∧ t.mem.sealTimer = none ∧
          (∀ st : Station, t.bus.heard[st].time = 0) ∧
          s.frame t [.str, .plc, .dir, .bus, .mem, .flt])) ∧
    (∀ c : Instr, c.takesKind = some f.body.kind → f.body.kind ≠ .roll → f.body.kind ≠ .seal →
      ∃ t, exec c s = .next t ∧ s.leftCensus t)

/-- R40, R42, R44, R45: the replica a SEAL seals: slots below B FREE and the others UNFUNDED, the listed
stations PRESENT with the quota and value of their entry, the last where a station is listed twice (log
entry 35), no run, generation 0. -/
def Obligations.SealedReplica : Prop :=
  ∀ (l : List SealEntry) (p : Params),
    (Replica.ofSeal l p).params = some p ∧ (Replica.ofSeal l p).gen = 0 ∧
    (∀ k : Slot, (Replica.ofSeal l p).dir[k] = if k.val < p.b.toNat then .free else .unfunded) ∧
    (∀ j : Station, (Replica.ofSeal l p).runs[j] = none) ∧
    (∀ pre e post, l = pre ++ e :: post → (∀ x ∈ post, x.station ≠ e.station) →
      (Replica.ofSeal l p).roster[e.station] =
        { state := .present, quota := some e.quota, adoptDis := some e.adoptDis,
          takeoverFailed := false }) ∧
    (∀ j : Station, (∀ e ∈ l, e.station ≠ j) →
      (Replica.ofSeal l p).roster[j] = RosterEntry.unknown)

/-! ### Frames taken in MEMBER (Chapters 3 and 6 to 8) -/

/-- R55: a BEACON of a PRESENT station that shows MEMBER and another generation is counted as BEACON-SKEW;
any other changes nothing but the receive queue. -/
def Obligations.BeaconCompared : Prop :=
  ∀ (f : Frame) (rest : List RxEntry) (st : Station) (g : Gen) (cu : Bool) (m : Mode) (s : State),
    s.takes false f rest → f.body = .beacon st g cu m → s.mem.state = .member →
    s.dir.rep.isPresent f.sender = true →
    ∃ t, exec .beacon s = .next t ∧ t.bus = { s.bus with rx := rest } ∧
      (cu = false → g ≠ s.dir.rep.gen → s.counted t .beaconSkew ∧ s.frame t [.bus, .flt]) ∧
      (cu = true ∨ g = s.dir.rep.gen → s.frame t [.bus])

/-- R54, R99, R102, R106, R108: the slot of an applied CLAIM, SHUT, SHUT-DONE or RESTORE. The generation
has advanced, and no other slot has changed. R114, R117: a SHUT RECALLED that names this station answers
its recall, which then waits on the slot and ends when the slot has left CLOSING. -/
def Obligations.SlotFramesApplied : Prop :=
  ∀ (f : Frame) (k : Slot) (s : State), s.takesInStep f →
    (∀ kd, f.body = .claim k kd → k.val < s.dir.rep.budget → s.dir.rep.dir[k] = .free →
      (kd = .mixed → ∀ j : Slot, s.dir.rep.dir[j].holder? = some f.sender →
        s.dir.rep.dir[j].kind? ≠ some .mixed) →
      ∃ t, exec .claim s = .next t ∧ s.follows t f { s.dir.rep with
        gen := s.dir.rep.gen + 1,
        dir := put s.dir.rep.dir k (.opened f.sender kd (s.dir.rep.gen + 1)) }) ∧
    (∀ c a kd g, f.body = .shut k c a → c ≠ .adopted → s.dir.rep.dir[k] = .opened f.sender kd g →
      ∃ t, exec .shut s = .next t ∧ s.follows t f { s.dir.rep with
        gen := s.dir.rep.gen + 1, dir := put s.dir.rep.dir k (.closing f.sender kd g c 0) } ∧
        ∀ tag, c = .recalled → a = some (tag, s.mem.stn) → s.recallMet t tag k) ∧
    (∀ a h kd g n, f.body = .shut k .adopted a → s.dir.rep.dir[k] = .orphaned h kd g n →
      s.dir.rep.runs[h] = some f.sender →
      ∃ t, exec .shut s = .next t ∧ s.follows t f { s.dir.rep with
        gen := s.dir.rep.gen + 1, dir := put s.dir.rep.dir k (.closing f.sender kd g .adopted n) }) ∧
    (∀ kd g c n, s.dir.rep.dir[k] = .closing f.sender kd g c n →
      (f.body = .shutDone k .closed →
        ∃ t, exec .shutDone s = .next t ∧ s.follows t f { s.dir.rep with
          gen := s.dir.rep.gen + 1, dir := put s.dir.rep.dir k .free }) ∧
      (f.body = .shutDone k .retrying → n = 0 →
        ∃ t, exec .shutDone s = .next t ∧ s.follows t f { s.dir.rep with
          gen := s.dir.rep.gen + 1, dir := put s.dir.rep.dir k (.closing f.sender kd g c 1) }) ∧
      (f.body = .shutDone k .quarantined → n = 1 →
        ∃ t, exec .shutDone s = .next t ∧ s.follows t f { s.dir.rep with
          gen := s.dir.rep.gen + 1, dir := put s.dir.rep.dir k .quarantined })) ∧
    (f.body = .restore k → s.dir.rep.dir[k] = .quarantined →
      ∃ t, exec .restore s = .next t ∧ s.follows t f { s.dir.rep with
        gen := s.dir.rep.gen + 1, dir := put s.dir.rep.dir k .free })

/-- R43, R129, R139, R140, R141: the roster after an applied JOIN, LEAVE or ABSENT. A JOIN of a PRESENT
station and an ABSENT orphan the slots of the station they name; a LEAVE of this station makes it
DORMANT, an ABSENT naming it takes the named-absent path. A JOIN needs no base generation, and its digest,
where it differs, is reported. -/
def Obligations.RosterFramesApplied : Prop :=
  (∀ (own : Bool) (f : Frame) (rest : List RxEntry) (st : Station) (q : BitVec 4) (a : Bool)
      (d : Params) (s : State), s.takes own f rest → s.mem.state = .member →
    f.body = .join st q a d →
    ∃ t, exec .join s = .next t ∧ s.follows t f t.dir.rep ∧ t.dir.rep.gen = s.dir.rep.gen + 1 ∧
      t.dir.rep.roster = put s.dir.rep.roster f.sender
        { state := .present, quota := some q, adoptDis := some a, takeoverFailed := false } ∧
      (s.dir.rep.isPresent f.sender = true → s.dir.rep.orphaned t.dir.rep f.sender) ∧
      (s.dir.rep.isPresent f.sender = false →
        t.dir.rep.dir = s.dir.rep.dir ∧ t.dir.rep.runs = s.dir.rep.runs) ∧
      (s.dir.rep.params ≠ some d → s.counted t .paramMismatch)) ∧
  (∀ (f : Frame) (st : Station) (s : State), s.takesInStep f → f.body = .leave st →
    s.dir.rep.heldCount f.sender = 0 → (∀ j : Station, s.dir.rep.runs[j] ≠ some f.sender) →
    ∃ t, exec .leave s = .next t ∧ s.follows t f { s.dir.rep with
        gen := s.dir.rep.gen + 1,
        roster := put s.dir.rep.roster f.sender
          { s.dir.rep.roster[f.sender] with state := .departed } } ∧
      (f.sender ≠ s.mem.stn → t.mem.state = .member) ∧
      (f.sender = s.mem.stn → t.mem.state = .dormant ∧ t.mem.departing = false ∧
        t.bus.receiver = .off ∧ t.bus.tx = [] ∧ t.bus.held = [])) ∧
  (∀ (f : Frame) (st : Station) (s : State), s.takesInStep f → f.body = .absent st →
    st ≠ f.sender → s.dir.rep.isPresent st = true →
    (st ≠ s.mem.stn →
      ∃ t, exec .absent s = .next t ∧ s.follows t f t.dir.rep ∧ t.mem.state = .member ∧
        t.dir.rep.gen = s.dir.rep.gen + 1 ∧ s.dir.rep.orphaned t.dir.rep st ∧
        t.dir.rep.roster = put s.dir.rep.roster st
          { s.dir.rep.roster[st] with state := .absent }) ∧
    (st = s.mem.stn → ∃ t, exec .absent s = .next t ∧ s.tookAbsent t))

/-- R44, R146, R152: a TAKEOVER of the adopter fills an empty run, and a TAKEOVER-END empties it, FAILED
marking its sender takeover-failed. A TAKEOVER-END of either outcome posts a PEER notice with the sender's
entry (that it is the sender's: log entry 15). The station's own TAKEOVER sets its duty record RUNNING with
timeout count 0; its own TAKEOVER-END ends it. -/
def Obligations.TakeoverFramesApplied : Prop :=
  ∀ (f : Frame) (h : Station) (s : State), s.takesInStep f →
    (f.body = .takeover h → s.dir.rep.runs[h] = none → s.dir.rep.hasOrphan h = true →
      s.dir.rep.adopter = some f.sender →
      ∃ t, exec .takeover s = .next t ∧ s.follows t f { s.dir.rep with
          gen := s.dir.rep.gen + 1, runs := put s.dir.rep.runs h (some f.sender) } ∧
        (f.sender = s.mem.stn →
          ∃ d, t.mem.duty[h] = some d ∧ d.phase = .running ∧ d.timeouts = 0)) ∧
    (∀ o, f.body = .takeoverEnd h o → s.dir.rep.runs[h] = some f.sender →
      (o = .done → s.dir.rep.hasOrphan h = false) →
      ∃ t, exec .takeoverEnd s = .next t ∧
        (o = .done → s.follows t f { s.dir.rep with
          gen := s.dir.rep.gen + 1, runs := put s.dir.rep.runs h none }) ∧
        (o = .failed → s.follows t f { s.dir.rep with
          gen := s.dir.rep.gen + 1, runs := put s.dir.rep.runs h none,
          roster := put s.dir.rep.roster f.sender
            { s.dir.rep.roster[f.sender] with takeoverFailed := true } }) ∧
        (s.flt.notices.length < 16 → ∃ n ∈ t.flt.notices, n.body = .peer f.sender .present
          (o == .failed || s.dir.rep.roster[f.sender].takeoverFailed) (t.dir.rep.quota f.sender)) ∧
        (f.sender = s.mem.stn → t.mem.duty[h] = none))

/-- R51, R52, R53, R143: when a directory-kind frame is fit for a replica: its base generation is the
replica's, and its effect is valid as the table of R52 gives for its kind; a JOIN always is. One of a
PRESENT station that is not fit is not applied, and makes the station stale with GEN-SKEW. A frame other
than JOIN of a station not PRESENT is counted as ignored and changes nothing else. -/
def Obligations.UnfitFrames : Prop :=
  (∀ (r : Replica) (f : Frame) (k : Slot) (h : Station),
    (∀ kd, f.body = .claim k kd → (r.applies f = true ↔ f.base = some r.gen ∧ k.val < r.budget ∧
      r.dir[k] = .free ∧ (kd = .mixed → ∀ j : Slot, r.dir[j].holder? = some f.sender →
        r.dir[j].kind? ≠ some .mixed))) ∧
    (∀ c a, f.body = .shut k c a → c ≠ .adopted → (r.applies f = true ↔ f.base = some r.gen ∧
      ∃ kd g, r.dir[k] = .opened f.sender kd g)) ∧
    (∀ a, f.body = .shut k .adopted a → (r.applies f = true ↔ f.base = some r.gen ∧
      ∃ o kd g n, r.dir[k] = .orphaned o kd g n ∧ r.runs[o] = some f.sender)) ∧
    (∀ o, f.body = .shutDone k o → (r.applies f = true ↔ f.base = some r.gen ∧
      ∃ kd g c n, r.dir[k] = .closing f.sender kd g c n ∧ (o = .retrying → n = 0) ∧
        (o = .quarantined → n = 1))) ∧
    (f.body = .restore k → (r.applies f = true ↔ f.base = some r.gen ∧ r.dir[k] = .quarantined)) ∧
    (f.body = .absent h → (r.applies f = true ↔ f.base = some r.gen ∧ r.isPresent h = true ∧
      h ≠ f.sender)) ∧
    (f.body = .leave h → (r.applies f = true ↔ f.base = some r.gen ∧
      (∀ j : Slot, r.dir[j].holder? ≠ some f.sender) ∧ ∀ j : Station, r.runs[j] ≠ some f.sender)) ∧
    (f.body = .takeover h → (r.applies f = true ↔ f.base = some r.gen ∧ r.runs[h] = none ∧
      (∃ (j : Slot) (kd : SlotKind) (g : Gen) (n : Fin 2), r.dir[j] = .orphaned h kd g n) ∧
      r.mayAdopt f.sender ∧ ∀ j : Station, j < f.sender → ¬ r.mayAdopt j)) ∧
    (∀ o, f.body = .takeoverEnd h o → (r.applies f = true ↔ f.base = some r.gen ∧
      r.runs[h] = some f.sender ∧ (o = .done →
        ∀ (j : Slot) (kd : SlotKind) (g : Gen) (n : Fin 2), r.dir[j] ≠ .orphaned h kd g n))) ∧
    (f.body.kind = .join → r.applies f = true)) ∧
  ∀ (c : Instr) (own : Bool) (f : Frame) (rest : List RxEntry) (s : State), s.takes own f rest →
    s.mem.state = .member → c.takesKind = some f.body.kind →
    (f.body.kind.isDirectory = true → s.dir.rep.isPresent f.sender = true →
      s.dir.rep.applies f = false →
      ∃ t, exec c s = .next t ∧ s.counted t .genSkew ∧ s.wentStale t) ∧
    (f.body.kind ≠ .join → s.dir.rep.isPresent f.sender = false → own = false →
      ∃ t, exec c s = .next t ∧
        t.dir = { s.dir with ignored := min (s.dir.ignored + 1) 65535 } ∧
        t.bus = { s.bus with rx := rest } ∧ s.frame t [.bus, .dir])

/-- R49, R50, R63, R99 to R106, R174: what the station's own CLAIM, SHUT and SHUT-DONE do to its
holdings. Whose frame it is, its sender number says (log entry 34). -/
def Obligations.OwnFramesActOnHoldings : Prop :=
  ∀ (f : Frame) (k : Slot) (s : State), s.takesInStep f → f.sender = s.mem.stn → s.bus.sending = none →
    (∀ kd, f.body = .claim k kd → s.dir.rep.applies f = true →
      ∃ t x, exec .claim s = .next t ∧ t.dir.ext[k] = some x ∧ x.serial = s.dir.rep.gen + 1 ∧
        x.readiness = .awaitingOpen ∧ x.cursor = 0 ∧ x.inFlight = 0 ∧
        t.link = { s.link with heldOpens := s.link.heldOpens ++
          [{ slot := k, serial := s.dir.rep.gen + 1, kind := kd }] } ∧
        (∀ e ∈ s.plc.claims, e.slot = k → ∃ y ∈ t.plc.claims, y.slot = k ∧ y.phase = .opening) ∧
        (s.mem.departing = true → x.shutDue = some .leaving)) ∧
    (∀ c a x, f.body = .shut k c a → c ≠ .adopted → s.dir.rep.applies f = true →
      s.dir.ext[k] = some x →
      ∃ t y, exec .shut s = .next t ∧ t.dir.ext[k] = some y ∧ y.shutDue = none ∧
        y.serial = x.serial ∧ y.cursor = x.cursor ∧ y.inFlight = x.inFlight ∧
        t.dir.closing = s.dir.closing ++ [k] ∧ t.link = s.link) ∧
    (∀ a h kd g n, f.body = .shut k .adopted a → s.dir.rep.applies f = true →
      s.dir.rep.dir[k] = .orphaned h kd g n →
      ∃ t y, exec .shut s = .next t ∧ t.dir.ext[k] = some y ∧ y.serial = g ∧ y.readiness = .ready ∧
        y.cursor = s.dir.rep.capacity ∧ t.dir.closing = s.dir.closing ++ [k] ∧ t.link = s.link) ∧
    (∀ o, f.body = .shutDone k o → s.dir.rep.applies f = true →
      ∃ t, exec .shutDone s = .next t ∧ t.link = s.link ∧
        (o ≠ .retrying → t.dir.ext[k] = none ∧ k ∉ t.dir.closing) ∧
        (o = .retrying → ∀ x, s.dir.ext[k] = some x →
          ∃ y, t.dir.ext[k] = some y ∧ y.closeReport = none ∧ y.serial = x.serial))

/-! ### The recall exchange (Chapter 6) -/

/-- R112, R113: a RECALL. The own loopback makes its QUEUED entry ASKED, with an answer timer of 2P. A
MEMBER target with no excess answers DEFER NONE-OVER, one with no open excess or no slot to shut DEFER
ALL-SHUTTING, and any other shuts its candidate RECALLED, its SHUT queued with tag and requester; a target
in CATCHUP answers DEFER STALE. No other station acts. -/
def Obligations.RecallTaken : Prop :=
  ∀ (own : Bool) (f : Frame) (rest : List RxEntry) (tag : ReqTag) (r g : Station) (s : State),
    s.takes own f rest → f.body = .recall tag r g → s.dir.rep.isPresent f.sender = true →
    (own = true → s.bus.sending = none) →
    ∃ t, exec .recall s = .next t ∧ t.dir.rep = s.dir.rep ∧ t.bus.rx = rest ∧
      (s.mem.state = .member → own = true → ∀ e, s.dir.request = some (.recall e) → e.tag = tag →
        e.phase = .queued →
        t.dir = { s.dir with
          request := some (.recall { e with phase := .asked, timer := some (2 * s.pTicks) }) } ∧
        s.frame t [.bus, .dir]) ∧
      (s.mem.state = .member → own = false → g = s.mem.stn →
        (s.dir.rep.excess s.mem.stn ≤ 0 →
          s.bus.gained t.bus { dest := some r, body := .defer tag .noneOver } ∧ s.frame t [.bus]) ∧
        (0 < s.dir.rep.excess s.mem.stn → (s.openExcess ≤ 0 ∨ s.shutCandidate = none) →
          s.bus.gained t.bus { dest := some r, body := .defer tag .allShutting } ∧
            s.frame t [.bus]) ∧
        (0 < s.dir.rep.excess s.mem.stn → 0 < s.openExcess → ∀ k, s.shutCandidate = some k →
          (∃ x, t.dir.ext[k] = some x ∧ x.shutDue = some .recalled ∧ x.shutRecall = some (tag, r)) ∧
          s.bus.gainedFirst t.bus
            { dest := none, body := .shut k .recalled (some (tag, r)) } ∧
          s.frame t policyBlocks)) ∧
      (s.mem.state = .catchup → g = s.mem.stn →
        s.bus.gained t.bus { dest := some r, body := .defer tag .stale } ∧ s.frame t [.bus]) ∧
      (s.mem.state = .member → own = false → g ≠ s.mem.stn →
        t.bus = { s.bus with rx := rest } ∧ s.frame t [.bus])

/-- R115, R116, R185: a DEFER by the tag of the RECALL entry. From the target of an ASKED entry the try
fails: BACKOFF with P, or 4P for ALL-SHUTTING; at the fourth try RECALL-EXHAUSTED, the record frozen, the
entry gone, and the cooling period of 8P. In another phase or from another station it is disregarded;
with another tag it is UNEXPECTED-ANSWER. -/
def Obligations.DeferTaken : Prop :=
  ∀ (f : Frame) (rest : List RxEntry) (tag : ReqTag) (why : DeferReason) (s : State),
    s.takes false f rest → f.body = .defer tag why → s.mem.state = .member →
    s.dir.rep.isPresent f.sender = true →
    ∃ t, exec .defer s = .next t ∧ t.bus.rx = rest ∧
      (∀ e, s.dir.request = some (.recall e) → e.tag = tag →
        (e.phase = .asked → f.sender = e.target → e.tries < 4 →
          t.dir = { s.dir with request := some (.recall { e with
            phase := .backoff,
            timer := some (if why = .allShutting then 4 * s.pTicks else s.pTicks) }) } ∧
          s.frame t [.bus, .dir]) ∧
        (e.phase = .asked → f.sender = e.target → 4 ≤ e.tries →
          t.dir.request = none ∧ t.dir.cooling = some (8 * s.pTicks) ∧ t.flt.frozen = true ∧
          s.counted t .recallExhausted ∧ s.frame t policyBlocks) ∧
        (e.phase ≠ .asked ∨ f.sender ≠ e.target → s.frame t [.bus])) ∧
      ((∀ e, s.dir.request = some (.recall e) → e.tag ≠ tag) →
        s.counted t .unexpectedAnswer ∧ s.frame t [.bus, .flt])

/-! ### Catch-up (Chapter 7) -/

/-- R128, R131, R132, R136, R137: the frames of joining and of the catch-up exchange. The station's own
JOIN (own mark: log entry 34) taken in JOINING moves it to CATCHUP with its first attempt begun. A
directory-kind frame taken in CATCHUP joins the log of an attempt in OFFERS or RECEIVING, and fails the
attempt where the log is full or where it is an ABSENT naming the responder; in ASKING, or with no
attempt, it is discarded. -/
def Obligations.CatchupFramesTaken : Prop :=
  ∀ (own : Bool) (f : Frame) (rest : List RxEntry) (tag : ReqTag) (s : State), s.takes own f rest →
    (own = true → s.bus.sending = none) →
    (∀ a, f.body = .catchupAsk tag a →
      (∀ e, s.mem.state = .catchup → own = true → s.dir.request = some (.ask e) → e.tag = tag →
        e.phase = .asking →
        ∃ t, exec .catchupAsk s = .next t ∧ t.dir = { s.dir with
            request := some (.ask { e with phase := .offers, timer := some (3 * s.pTicks) }) } ∧
          s.frame t [.bus, .dir]) ∧
      (s.mem.state = .member → own = false → s.dir.rep.isPresent f.sender = true →
        s.dir.serving = none →
        ∃ t, exec .catchupAsk s = .next t ∧ t.dir = { s.dir with
            serving := some { tag := tag, asker := a, phase := .delay ((s.mem.stn.val + 1) * (s.pTicks / 4)) } } ∧
          s.frame t [.bus, .dir])) ∧
    (∀ a r, f.body = .catchupOffer tag a r →
      (∀ e, s.mem.state = .catchup → s.dir.request = some (.ask e) → e.tag = tag → a = s.mem.stn →
        e.phase = .offers →
        ∃ t, exec .catchupOffer s = .next t ∧ t.dir = { s.dir with
            request := some (.ask { e with phase := .receiving r 0, timer := some (2 * s.pTicks) }) } ∧
          (∀ l, s.flt.lastReq = some l → l.ask = true → l.tag = tag → s.flt.frozen = false →
            t.flt.lastReq = some { l with target := some r }) ∧
          s.frame t [.bus, .dir, .flt]) ∧
      (∀ v, s.mem.state = .member → s.dir.rep.isPresent f.sender = true → s.dir.serving = some v →
        v.tag = tag → v.asker = a →
        (own = false → (∃ n, v.phase = .delay n) →
          ∃ t, exec .catchupOffer s = .next t ∧ t.dir = { s.dir with serving := none } ∧
            s.frame t [.bus, .dir]) ∧
        (own = true → (∃ b, v.phase = .offered b) →
          ∃ t, exec .catchupOffer s = .next t ∧
            t.dir = { s.dir with serving := some { v with phase := .sending } } ∧
            t.bus.tx ++ t.bus.held = s.bus.tx ++ s.bus.held ++
              ((List.finRange 7).map fun p =>
                { dest := some a, body := .snapshot tag p [] }) ++
              [{ dest := some a, body := .snapshotEnd tag 0 7 0 }] ∧
            s.frame t [.bus, .dir]))) ∧
    (∀ p bytes e r n, f.body = .snapshot tag p bytes → s.mem.state = .catchup →
      s.dir.request = some (.ask e) → e.phase = .receiving r n → f.sender = r → e.tag = tag →
      (p.val = n →
        ∃ t, exec .snapshot s = .next t ∧
          t.dir = { s.dir with
            snap := s.dir.snap ++ [bytes],
            request := some (.ask { e with
              phase := .receiving r (n + 1), timer := some (2 * s.pTicks) }) } ∧
          s.frame t [.bus, .dir]) ∧
      (p.val ≠ n → ∃ t, exec .snapshot s = .next t ∧ s.attemptFailed t)) ∧
    (∀ st q a d, f.body = .join st q a d → s.mem.state = .joining →
      (own = true → ∃ t, exec .join s = .next t ∧ s.joined t) ∧
      (own = false → ∃ t, exec .join s = .next t ∧ t.bus = { s.bus with rx := rest } ∧
        s.frame t [.bus])) ∧
    (∀ c : Instr, c.takesKind = some f.body.kind → f.body.kind.isDirectory = true →
      s.mem.state = .catchup →
      (∀ e, s.dir.request = some (.ask e) → e.phase ≠ .asking →
        (s.dir.log.length < 16 → (∀ r n, f.body = .absent r → e.phase ≠ .receiving r n) →
          ∃ t b, exec c s = .next t ∧
            t.dir = { s.dir with log := s.dir.log ++ [{ frame := f, afterPart0 := b }] } ∧
            (b = true ↔ ∃ r n, e.phase = .receiving r n ∧ 0 < n) ∧ s.frame t [.bus, .dir]) ∧
        (16 ≤ s.dir.log.length ∨ (∃ r n, f.body = .absent r ∧ e.phase = .receiving r n) →
          ∃ t, exec c s = .next t ∧ s.attemptFailed t)) ∧
      ((∀ e, s.dir.request = some (.ask e) → e.phase = .asking) →
        ∃ t, exec c s = .next t ∧ t.bus = { s.bus with rx := rest } ∧ s.frame t [.bus]))

/-- R57, R133, R134, R154: the end frame of the snapshot. A snapshot not accepted fails the attempt; one
with other drive parameters bars the station (log entry 25). Else it is installed and the part of the log
after part 0 is replayed (its reports: log entry 16): a gap fails the attempt, a replica that does not
show the station PRESENT is the named-absent path, and any other is the station's, which is MEMBER with
the failure count 0, its log and buffer empty (log entry 54), its holdings, its takeover duty and the
tracker places of its lost holdings (R163) settled by it. A run that fails at the first evaluation leaves no adoption of an orphan but one whose SHUT is on the medium (log entry 13). -/
def Obligations.SnapshotEndInstalls : Prop :=
  ∀ (f : Frame) (rest : List RxEntry) (tag : ReqTag) (g : Gen) (count : Byte) (sum : BitVec 16)
    (e : AskEntry) (n : Nat) (s : State), s.takes false f rest → f.body = .snapshotEnd tag g count sum →
    s.mem.state = .catchup → s.dir.request = some (.ask e) → e.phase = .receiving f.sender n →
    e.tag = tag →
    ((n ≠ 7 ∨ count ≠ 7 ∨ sum ≠ snapshotSum s.dir.snap ∨ unpackSnapshot s.dir.snap g = none) →
      ∃ t, exec .snapshotEnd s = .next t ∧ s.attemptFailed t) ∧
    (∀ r, unpackSnapshot s.dir.snap g = some r → n = 7 → count = 7 → sum = snapshotSum s.dir.snap →
      (r.snapshotOk = false → ∃ t, exec .snapshotEnd s = .next t ∧ s.attemptFailed t) ∧
      (r.snapshotOk = true → r.params ≠ s.mem.cfg.map (·.params) →
        ∃ t, exec .snapshotEnd s = .next t ∧ t.mem.state = .barred ∧ s.emptied t ∧
          s.counted t .paramMismatch) ∧
      (r.snapshotOk = true → r.params = s.mem.cfg.map (·.params) → ∀ o,
        o = Replica.replayed ((s.dir.log.filter (·.afterPart0)).map (·.frame)) r →
        (o = none →
          ∃ t, exec .snapshotEnd s = .next t ∧ (∀ q ∈ t.bus.waiting, q.body.kind ≠ .catchupAsk) ∧
            t.dir.request = none ∧ t.dir.log = [] ∧
            t.dir.snap = [] ∧ s.counted t .catchupFailed ∧ t.mem.attempts = s.mem.attempts + 1) ∧
        (∀ r', o = some r' → r'.isPresent s.mem.stn = false →
          ∃ t, exec .snapshotEnd s = .next t ∧ s.tookAbsent t) ∧
        (∀ r', o = some r' → r'.isPresent s.mem.stn = true →
          ∃ t, exec .snapshotEnd s = .next t ∧ t.mem.state = .member ∧ t.dir.rep = r' ∧
            t.mem.attempts = 0 ∧ (∀ a, t.dir.request ≠ some (.ask a)) ∧ t.dir.log = [] ∧
            t.dir.snap = [] ∧ (∀ k : Slot, s.settledHolding t r' k) ∧
            (∀ h : Station, s.settledDuty t r' h) ∧ s.settledLink t r' ∧
            s.frame t [.str, .plc, .dir, .bus, .mem, .link, .flt])))

/-! ### The sending side of the placement bus (Chapters 5 and 6) -/

/-- R97, R98, R111, R124, R136, R137, Table 6-1: the conditions that withdraw a head at its contention
check, and what a head that passes goes out as: a CLAIM as it stands while its slot is FREE, else for the
lowest FREE slot that no other QUEUED entry names; a RECALL with its target found afresh; a SEAL with the
census list as it stands; a SNAPSHOT part from the replica or the buffer, and its end frame. -/
def Obligations.HeadChecksByKind : Prop :=
  ∀ (d : Option Station) (k : Slot) (h : Station) (tag : ReqTag) (s : State),
    (s.check { dest := d, body := .leave h } = .withdraw ↔
      s.dir.rep.heldCount s.mem.stn ≠ 0 ∨ ∃ j : Station, s.dir.rep.runs[j] = some s.mem.stn) ∧
    (s.check { dest := d, body := .restore k } = .withdraw ↔ s.dir.rep.dir[k] ≠ .quarantined) ∧
    (s.check { dest := d, body := .absent h } = .withdraw ↔
      s.dir.rep.isPresent h = false ∨ s.bus.heard[h].time < 3 * s.pTicks) ∧
    (s.check { dest := d, body := .takeover h } = .withdraw ↔
      s.dir.rep.runs[h] ≠ none ∨ s.dir.rep.hasOrphan h = false ∨
        s.dir.rep.adopter ≠ some s.mem.stn) ∧
    (s.check { dest := d, body := .takeoverEnd h .done } = .withdraw ↔ s.dir.rep.hasOrphan h = true) ∧
    s.check { dest := d, body := .takeoverEnd h .failed } = .pass (.takeoverEnd h .failed) ∧
    (∀ c a, s.check { dest := d, body := .shut k c a } = .pass (.shut k c a)) ∧
    (∀ r g, s.check { dest := d, body := .recall tag r g } = .withdraw ↔
      s.line.mode = .hold ∨ s.line.warned = true ∨
        s.dir.rep.quota s.mem.stn ≤ s.dir.rep.heldCount s.mem.stn ∨ s.dir.rep.freeCount ≠ 0 ∨
        ∀ st : Station, st ≠ s.mem.stn → s.dir.rep.isPresent st = true → s.dir.rep.excess st ≤ 0) ∧
    (∀ kd, (s.check { dest := d, body := .claim k kd } = .withdraw ↔
        s.line.mode = .hold ∨ s.line.warned = true ∨
        (s.dir.rep.heldCount s.mem.stn < s.dir.rep.quota s.mem.stn ∧ s.dir.rep.freeCount = 0) ∨
        (s.dir.rep.quota s.mem.stn ≤ s.dir.rep.heldCount s.mem.stn ∧
          (s.line.pressure = true ∨ s.dir.rep.freeCount ≤ s.dir.rep.reserve s.mem.stn)) ∨
        (kd = .mixed ∧ s.dir.rep.holdsMixed s.mem.stn = true) ∨
        ((s.dir.rep.dir[k] ≠ .free ∨ s.dir.rep.budget ≤ k.val) ∧
          ∀ j : Slot, s.dir.rep.dir[j] = .free → j ≠ k ∧
            ∃ e ∈ s.plc.claims, e.phase = .queued ∧ e.slot = j)) ∧
      (∀ b, s.check { dest := d, body := .claim k kd } = .pass b →
        (∃ j : Slot, b = .claim j kd ∧ s.dir.rep.dir[j] = .free) ∧
        (s.dir.rep.dir[k] = .free → k.val < s.dir.rep.budget → b = .claim k kd) ∧
        (s.dir.rep.dir[k] ≠ .free → ∃ j : Slot, b = .claim j kd ∧
          (∀ e ∈ s.plc.claims, e.phase = .queued → e.slot ≠ j) ∧
          ∀ i : Slot, i < j → s.dir.rep.dir[i] = .free →
            ∃ e ∈ s.plc.claims, e.phase = .queued ∧ e.slot = i))) ∧
    (∀ r g b, s.check { dest := d, body := .recall tag r g } = .pass b → ∃ g' : Station,
      b = .recall tag r g' ∧ g' ≠ s.mem.stn ∧ s.dir.rep.isPresent g' = true ∧
        0 < s.dir.rep.excess g' ∧
        ∀ st : Station, st ≠ s.mem.stn → s.dir.rep.isPresent st = true →
          s.dir.rep.excess st < s.dir.rep.excess g' ∨
            (s.dir.rep.excess st = s.dir.rep.excess g' ∧ st ≤ g')) ∧
    (∀ l p cfg, s.mem.cfg = some cfg → ∃ l' : List SealEntry,
      s.check { dest := d, body := .seal l p } = .pass (.seal l' cfg.params) ∧
        l'.Pairwise (fun x y => x.station < y.station) ∧
        ∀ x : SealEntry, x ∈ l' ↔
          s.mem.census[x.station] = some { quota := x.quota, adoptDis := x.adoptDis }) ∧
    (∀ a r v, s.dir.serving = some v →
      (s.check { dest := d, body := .catchupOffer tag a r } = .withdraw ↔ v.phase = .offered true) ∧
      (v.phase ≠ .offered true →
        s.check { dest := d, body := .catchupOffer tag a r } = .pass (.catchupOffer tag a r))) ∧
    (∀ (a : Station) (part : Fin 7) l g n w,
      (s.dir.rep.isPresent a = false →
        s.check { dest := some a, body := .snapshot tag part l } = .withdraw ∧
        s.check { dest := some a, body := .snapshotEnd tag g n w } = .withdraw) ∧
      (s.dir.rep.isPresent a = true →
        (part = 0 → ∀ l', (snapshotParts tag s.dir.rep)[0]? = some l' →
          s.check { dest := some a, body := .snapshot tag part l } = .pass (.snapshot tag part l')) ∧
        (part ≠ 0 → ∀ l', s.dir.snap[part.val]? = some l' →
          s.check { dest := some a, body := .snapshot tag part l } = .pass (.snapshot tag part l')) ∧
        s.check { dest := some a, body := .snapshotEnd tag g n w } =
          .pass (.snapshotEnd tag s.dir.snapGen 7 (snapshotSum s.dir.snap))))

/-- R78, R79, R80, R87, R97: at a quiet medium (log entry 10), with no yield obligation and an empty
receive queue, a station with a head that passes its check begins it, stamped with its number and, for a
kind that carries one, its generation, and reads its own opening delimiter (log entry 11). On a line
already dominant it does not begin. A head that its check withdraws leaves the queue and its producer is
told; the next is checked in the same event. Where none is left nothing begins, and the queue holds no
frame but those held before and those that the withdrawal has led to. While a condition fails nothing is
checked. -/
def Obligations.ContentionTaken : Prop :=
  ∀ s : State, s.rst = none →
    (∀ q rest, s.bus.receiver = .hunt → s.bus.sending = none → s.bus.yieldOwed = false →
      s.bus.rx = [] → s.bus.tx = q :: rest →
      (∀ b, s.check q = .pass b →
        (∃ t, exec (.contention false) s = .next t ∧
          t.bus.sending = some
            { frame := { sender := s.mem.stn, dest := q.dest,
                         base := if b.kind.hasBase then some s.dir.rep.gen else none, body := b },
              withdrawn := false, readback := .reading } ∧
          t.bus.receiver = .receiving 0 ∧ t.bus.mediumBusy = true ∧
          t.bus.tx.head? = some { q with body := b } ∧ t.dir.rep = s.dir.rep ∧
          s.frame t [.plc, .dir, .bus]) ∧
        (∃ t, exec (.contention true) s = .next t ∧ t.bus.sending = none ∧
          t.bus.receiver = .hunt ∧ t.bus.mediumBusy = true ∧
          t.bus.tx.head? = some { q with body := b } ∧ t.dir.rep = s.dir.rep ∧
          s.frame t [.plc, .dir, .bus])) ∧
      (s.check q = .withdraw → ∀ u, u = s.afterWithdrawal q.body rest →
        (u.bus.tx = [] → ∀ dom,
          ∃ t, exec (.contention dom) s = .next t ∧ t.bus.sending = none ∧ t.bus.receiver = .hunt ∧
            (∀ x ∈ t.bus.tx ++ t.bus.held, x ∈ u.bus.held ∨ x.dest = none ∧ t.backed x.body) ∧
            (q.body.kind.leadsToWork = false → s.mem.departing = false →
              t.bus.tx = [] ∧ t.bus.held = u.bus.held ∧ t.dir = u.dir ∧ t.mem = u.mem ∧
              t.plc = u.plc ∧ t.str = u.str) ∧
            t.dir.rep = s.dir.rep ∧ s.frame t [.str, .plc, .dir, .bus, .mem, .flt]) ∧
        (u.bus.tx ≠ [] → q.body.kind.leadsToWork = false →
          ∀ dom, exec (.contention dom) s = exec (.contention dom) u) ∧
        (∀ q2 rest2 b, u.bus.tx = q2 :: rest2 → u.check q2 = .pass b →
          (∃ t, exec (.contention false) s = .next t ∧
            t.bus.sending = some
              { frame := { sender := s.mem.stn, dest := q2.dest,
                           base := if b.kind.hasBase then some s.dir.rep.gen else none, body := b },
                withdrawn := false, readback := .reading } ∧
            t.bus.receiver = .receiving 0 ∧ t.bus.mediumBusy = true ∧
            t.bus.tx.head? = some { q2 with body := b } ∧ t.dir.rep = s.dir.rep ∧
            s.frame t [.str, .plc, .dir, .bus, .mem, .flt]) ∧
          (∃ t, exec (.contention true) s = .next t ∧ t.bus.sending = none ∧
            t.bus.receiver = .hunt ∧ t.bus.mediumBusy = true ∧
            ((∀ k a, q2.body ≠ .shut k .adopted a) → t.bus.tx.head? = some { q2 with body := b }) ∧
            t.dir.rep = s.dir.rep ∧ s.frame t [.str, .plc, .dir, .bus, .mem, .flt])))) ∧
    (s.bus.receiver ≠ .hunt ∨ s.bus.sending.isSome ∨ s.bus.yieldOwed = true ∨ s.bus.rx ≠ [] ∨
        s.bus.tx = [] → ∀ dom,
      ∃ t, exec (.contention dom) s = .next t ∧
        t.bus = { s.bus with mediumBusy := t.bus.mediumBusy } ∧ s.frame t [.bus])

/-- R88, R89, R90, R91, R92: the ends of an attempt. A loss of arbitration and an abort leave the head in
place, unless it has been withdrawn meanwhile (log entry 13); a completion takes it off and restarts the
beacon timer. A completion and an abort owe the yield gap. A reception still going on is the station's own
afterwards where none has ended since the transmission began (R83, log entry 34). -/
def Obligations.AttemptEnds : Prop :=
  ∀ (sg : Sending) (s : State), s.rst = none → s.bus.sending = some sg →
    (∃ t, exec .arbitrationLost s = .next t ∧
      t.bus = { s.bus with
        sending := none, tx := if sg.withdrawn then s.bus.tx.drop 1 else s.bus.tx } ∧
      s.frame t [.bus]) ∧
    (sg.frame.body.kind ≠ .join ∨ s.mem.state ≠ .listen →
      (∃ t, exec .transmissionComplete s = .next t ∧
        t.bus = { s.bus with
          sending := none, tx := s.bus.tx.drop 1, yieldOwed := true,
          ownEnding := (match s.bus.receiver with
            | .receiving _ => sg.readback == .reading
            | _ => false),
          beacon := (match s.bus.beacon with | .stopped => .stopped | _ => .running s.pTicks) } ∧
        t.dir.rep = s.dir.rep ∧ t.dir.request = s.dir.request ∧ s.frame t [.bus, .dir]) ∧
      (∃ t, exec .transmissionAbort s = .next t ∧
        t.bus = { s.bus with
          sending := none, tx := if sg.withdrawn then s.bus.tx.drop 1 else s.bus.tx,
          yieldOwed := true,
          ownEnding := (match s.bus.receiver with
            | .receiving _ => sg.readback == .reading
            | _ => false) } ∧
        s.frame t [.bus])) ∧
    (sg.frame.body.kind = .join → s.mem.state = .listen →
      ∀ c : Instr, (c = .transmissionComplete ∨ c = .transmissionAbort) →
        ∃ t, exec c s = .next t ∧ t.mem = { s.mem with state := .joining } ∧ t.bus.sending = none ∧
          t.bus.yieldOwed = true ∧ s.frame t [.bus, .mem, .flt])

/-- R78, R86, R90, R92, R94, R138: the yield gap ends; the frame held longest joins the transmit queue; a
BEACON joins an empty one; a silence of 3P is reported once, and in MEMBER queues an ABSENT for a PRESENT
station that has none queued. A timer's expiry is accepted whenever it runs (log entry 3). -/
def Obligations.BusTimersFire : Prop :=
  ∀ s : State, s.rst = none →
    (s.bus.receiver = .hunt → s.bus.sending = none →
      ∃ t, exec .yieldGapExpiry s = .next t ∧
        t.bus = { s.bus with yieldOwed := false, mediumBusy := false } ∧ s.frame t [.bus]) ∧
    (∀ q rest, s.bus.held = q :: rest → s.bus.tx.length < 8 →
      ∃ t, exec .heldFrameJoins s = .next t ∧
        t.bus = { s.bus with tx := s.bus.tx ++ [q], held := rest } ∧ s.frame t [.bus]) ∧
    (∀ n, s.bus.beacon = .running n →
      ∃ t, exec .beaconTimerExpiry s = .next t ∧
        t.bus = { s.bus with
          beacon := .expired,
          tx := if s.bus.tx = [] ∧ s.bus.held = [] then
              [{ dest := none, body := .beacon s.mem.stn 0 false .run }]
            else s.bus.tx } ∧
        s.frame t [.bus]) ∧
    (∀ st : Station, st ≠ s.mem.stn → s.bus.receiver ≠ .off → s.bus.heard[st].reported = false →
      s.mem.cfg.isSome →
      ∃ t, exec (.lastHeardExpiry st) s = .next t ∧ t.bus.heard[st].reported = true ∧
        3 * s.pTicks ≤ t.bus.heard[st].time ∧
        (∀ j, j ≠ st → t.bus.heard[j] = s.bus.heard[j]) ∧
        (s.mem.state = .member → s.dir.rep.isPresent st = true →
          (∀ q ∈ s.bus.waiting, q.body ≠ .absent st) →
          s.bus.gained t.bus { dest := none, body := .absent st }) ∧
        (s.mem.state ≠ .member ∨ s.dir.rep.isPresent st = false ∨
            (∃ q ∈ s.bus.waiting, q.body = .absent st) →
          t.bus.tx = s.bus.tx ∧ t.bus.held = s.bus.held) ∧
        s.frame t [.bus])

/-! ### Timers of membership, catch-up and recall (Chapters 6 and 7) -/

/-- R124, R127, R130, R135: in CENSUS the seal deadline queues a SEAL; in LISTEN the listen timer queues
the JOIN where a station heard within 3P has shown MEMBER, and else starts again; in CATCHUP the retry
timer begins the next attempt. An expiry is accepted whenever its timer runs (log entry 3). -/
def Obligations.MembershipTimersFire : Prop :=
  ∀ (cfg : StationCfg) (n : Nat) (s : State), s.rst = none → s.mem.cfg = some cfg →
    (s.mem.sealTimer = some n → s.mem.state = .census →
      ∃ t, exec .sealDeadlineExpiry s = .next t ∧ t.mem = { s.mem with sealTimer := none } ∧
        s.bus.gained t.bus { dest := none, body := .seal [] cfg.params } ∧ s.frame t [.bus, .mem]) ∧
    (s.mem.listenTimer = some n → s.mem.state = .listen →
      ((∃ (st : Station) (b : BeaconInfo), st ≠ s.mem.stn ∧ s.bus.heard[st].time < 3 * s.pTicks ∧
          s.bus.heard[st].beacon = some b ∧ b.catchup = false) →
        ∃ t, exec .listenTimerExpiry s = .next t ∧ t.mem = { s.mem with listenTimer := none } ∧
          s.bus.gained t.bus
            { dest := none, body := .join s.mem.stn cfg.quota s.mem.adoptDis cfg.params } ∧
          s.frame t [.bus, .mem]) ∧
      ((∀ (st : Station) (b : BeaconInfo), st ≠ s.mem.stn → s.bus.heard[st].time < 3 * s.pTicks →
          s.bus.heard[st].beacon = some b → b.catchup = true) →
        ∃ t, exec .listenTimerExpiry s = .next t ∧
          t.mem = { s.mem with listenTimer := some (cfg.wakeFactor * s.pTicks) } ∧
          s.frame t [.mem])) ∧
    (s.mem.retryTimer = some n → s.mem.state = .catchup →
      ∃ t, exec .retryTimerExpiry s = .next t ∧ t.mem = { s.mem with retryTimer := none } ∧
        t.dir = { s.dir with
          reqTag := s.dir.reqTag + 1, log := [], snap := [],
          request := some (.ask
            { tag := s.dir.reqTag, phase := .asking, began := s.dir.rep.gen, tries := s.mem.attempts,
              timer := none }) } ∧
        s.bus.gained t.bus { dest := none, body := .catchupAsk s.dir.reqTag s.mem.stn } ∧
        (s.flt.frozen = false → t.flt.lastReq = some
          { ask := true, tag := s.dir.reqTag, target := none, began := s.dir.rep.gen,
            tries := s.mem.attempts }) ∧
        s.frame t [.dir, .bus, .mem, .flt])

/-- R115, R116, R132, R136: the offer timer and the part gap timer fail the attempt; the offer delay of a
MEMBER queues its CATCHUP-OFFER; the answer timer fails a try; the backoff queues the next try, with the
target as it stands, or ends the recall, with no RECALL entry left; the end of the cooling period ends it,
and the policy pass that follows takes its steps. An expiry is accepted in the phase whose timer it is
(log entry 3). -/
def Obligations.ExchangeTimersFire : Prop :=
  ∀ s : State, s.rst = none →
    (∀ e, s.dir.request = some (.ask e) → e.phase = .offers →
      ∃ t, exec .offerTimerExpiry s = .next t ∧ s.attemptFailed t) ∧
    (∀ e r n, s.dir.request = some (.ask e) → e.phase = .receiving r n →
      ∃ t, exec .partGapTimerExpiry s = .next t ∧ s.attemptFailed t) ∧
    (∀ v n, s.dir.serving = some v → v.phase = .delay n → s.mem.state = .member →
      ∃ t, exec .offerDelayExpiry s = .next t ∧
        t.dir = { s.dir with serving := some { v with phase := .offered false } } ∧
        s.bus.gained t.bus
          { dest := none, body := .catchupOffer v.tag v.asker s.mem.stn } ∧
        s.frame t [.bus, .dir]) ∧
    (∀ e, s.dir.request = some (.recall e) → e.phase = .asked →
      (e.tries < 4 →
        ∃ t, exec .answerTimerExpiry s = .next t ∧
          t.dir = { s.dir with request := some (.recall { e with
            phase := .backoff, timer := some s.pTicks }) } ∧
          s.frame t [.dir]) ∧
      (4 ≤ e.tries →
        ∃ t, exec .answerTimerExpiry s = .next t ∧ t.dir.request = none ∧
          t.dir.cooling = some (8 * s.pTicks) ∧ t.flt.frozen = true ∧
          s.counted t .recallExhausted ∧ s.frame t policyBlocks)) ∧
    (∀ e, s.dir.request = some (.recall e) → e.phase = .backoff →
      (∀ g, s.recallStands = some g →
        ∃ t, exec .backoffTimerExpiry s = .next t ∧
          t.dir = { s.dir with request := some (.recall { e with
            phase := .queued, target := g, tries := e.tries + 1, timer := none }) } ∧
          s.bus.gained t.bus { dest := none, body := .recall e.tag s.mem.stn g } ∧
          s.frame t [.dir, .bus, .flt]) ∧
      (s.recallStands = none →
        ∃ t, exec .backoffTimerExpiry s = .next t ∧ t.dir.request = none ∧
          t.flt.counts = s.flt.counts ∧ s.frame t policyBlocks)) ∧
    (s.dir.cooling.isSome →
      ∃ t, exec .coolingPeriodExpiry s = .next t ∧ t.dir.cooling = none ∧ t.dir.rep = s.dir.rep ∧
        ({ s with dir := { s.dir with cooling := none } } : State).passed t ∧ s.frame t policyBlocks)

/-! ### The back-end link (Chapter 9) -/

/-- R103, R157, R159, R161, R162: while the link is OPERATING the head of the directive queue passes. With
room in the queue and a tracker place free, the CLOSE-ORDER of the holding whose SHUT was applied first
is issued and its close timeout starts; where none can be issued, the oldest held OPEN-ORDER is (log
entry 28). The conditions of R103 are given first. That a directive passes is a command (log entry 33). -/
def Obligations.DirectivesIssued : Prop :=
  (∀ (s : State) (k : Slot), s.closeWanted k = true ↔ ∃ x kd g c a, s.dir.ext[k] = some x ∧
    s.dir.rep.dir[k] = .closing s.mem.stn kd g c a ∧ x.shutDue = none ∧ x.inFlight = 0 ∧
    (x.readiness = .ready ∨ x.readiness = .openFailed) ∧ x.closeOrderIssued = false ∧
    x.closeReport = none) ∧
  (∀ s : State, s.nextClose = none ↔ ((s.mem.state ≠ .member ∧ s.mem.state ≠ .catchup) ∨
    16 ≤ s.link.queue.length ∨ 4 ≤ s.link.closes.length ∨
    ∀ k ∈ s.dir.closing, s.closeWanted k = false)) ∧
  ∀ s : State, s.rst = none →
    (s.link.state = .operating →
      ∃ t, exec .directiveSent s = .next t ∧
        t.link = { s.link with queue := s.link.queue.drop 1 } ∧ s.frame t [.link]) ∧
    (s.link.state = .portWait → ∃ t, exec .directiveSent s = .next t ∧ s.frame t []) ∧
    ((s.mem.state = .member ∨ s.mem.state = .catchup) → s.link.queue.length < 16 →
      (∀ o rest, s.link.opens.length < 4 → s.link.heldOpens = o :: rest → s.nextClose = none →
        ∃ t, exec .issueOpenOrder s = .next t ∧
          t.link = { s.link with
            queue := s.link.queue ++ [.openOrder o.slot o.serial o.kind],
            heldOpens := rest,
            opens := s.link.opens ++
              [{ slot := o.slot, serial := o.serial, timer := .live none }] } ∧
          s.frame t [.link]) ∧
      (∀ (k : Slot) x h kd g c a, s.link.closes.length < 4 → s.dir.closing.find? s.closeWanted = some k →
        s.dir.ext[k] = some x → s.dir.rep.dir[k] = .closing h kd g c a →
        ∃ t, exec .issueCloseOrder s = .next t ∧
          t.link = { s.link with
            queue := s.link.queue ++ [.closeOrder k x.serial c],
            closes := s.link.closes ++
              [{ slot := k, serial := x.serial, timer := .live (some s.closeTicks) }] } ∧
          t.dir = { s.dir with
            ext := put s.dir.ext k (some { x with closeOrderIssued := true }) } ∧
          s.frame t [.dir, .link]))

/-- R101, R104, R105, R163, R164, R165: completions. In PORT-WAIT only PORT-CLEAN acts. An OPEN-READY or
CLOSE-DONE frees the place of its incarnation, and acts unless that place is released: READY, or
OPEN-FAILED with its fault and the shut FAULT; a close-report, CLOSED or FAILED. A slot that is READY is
given out (R64). A completion that
matches nothing is counted and changes nothing. A close timeout is a close-report FAILED with its fault,
and a release hold that expires frees its place. In MEMBER a close-report queues the SHUT-DONE it decides:
CLOSED, RETRYING at the first failure, QUARANTINED with the fault CLOSE-FAILED at the second; elsewhere it
queues nothing. A RUNNING run counts the timeouts of its adopted slots until the count is 2 (R149, R154).
Of two places with one incarnation the one longest taken is matched (log entry 41), and a timer's expiry
is accepted whenever it runs (log entry 3). -/
def Obligations.CompletionsMatched : Prop :=
  ∀ s : State, s.rst = none →
    (s.link.state = .portWait →
      (∀ (c : Instr) b g o tg, (c = .openReady b g o ∨ c = .closeDone b g o ∨ c = .placeDone tg o) →
        ∃ t, exec c s = .next t ∧ s.frame t []) ∧
      ∃ t, exec .portClean s = .next t ∧ t.link = { s.link with state := .operating } ∧
        s.frame t [.link]) ∧
    (s.link.state = .operating →
      ∀ c : Instr,
        (c = .portClean ∨
          (∃ b g o, c = .openReady b g o ∧ (o = .closed ∨ o = .undef ∨
            ∀ p ∈ s.link.opens, p.slot.val = b.toNat → p.serial ≠ g)) ∨
          (∃ b g o, c = .closeDone b g o ∧ (o = .ok ∨ o = .undef ∨
            ∀ p ∈ s.link.closes, p.slot.val = b.toNat → p.serial ≠ g)) ∨
          (∃ tg o, c = .placeDone tg o ∧ (o = .closed ∨ o = .undef ∨
            ∀ e, s.plc.comp[tg] = some e → e.outcome ≠ .outstanding))) →
        ∃ t, exec c s = .next t ∧ s.counted t .unknownCompletion ∧ s.frame t [.flt]) ∧
    (s.link.state = .operating → ∀ (k : Slot) (g : Gen) (p : TrackPlace) (pre post : List TrackPlace),
      p.slot = k → p.serial = g → (∀ q ∈ pre, q.slot = k → q.serial ≠ g) →
      (s.link.opens = pre ++ p :: post →
        ((∃ n, p.timer = .released n) → ∀ o, (o = .ok ∨ o = .failed) →
          ∃ t, exec (.openReady (BitVec.ofNat 8 k.val) g o) s = .next t ∧
            t.link = { s.link with opens := pre ++ post } ∧ s.frame t [.link]) ∧
        (∀ n x, p.timer = .live n → s.dir.ext[k] = some x → x.serial = g →
          x.readiness = .awaitingOpen →
          (∃ t y, exec (.openReady (BitVec.ofNat 8 k.val) g .ok) s = .next t ∧ t.dir.ext[k] = some y ∧
            t.link = { s.link with opens := pre ++ post } ∧
            y.readiness = .ready ∧ y.serial = g ∧ t.dir.rep = s.dir.rep ∧
            (∀ e ∈ t.plc.claims, e.slot = k → e.phase ≠ .opening) ∧
            (∀ u, u = ({ s with
                link := { s.link with opens := pre ++ post },
                dir := { s.dir with ext := put s.dir.ext k (some { x with readiness := .ready }) },
                plc := { s.plc with
                  claims := s.plc.claims.filter fun e => !(e.slot == k && e.phase == .opening) } } :
                State) →
              u.gaveOut t k
                ((s.plc.claims.find? fun e => e.slot == k && e.phase == .opening).bind (·.claimant))) ∧
            s.frame t (.link :: policyBlocks)) ∧
          (∃ t y, exec (.openReady (BitVec.ofNat 8 k.val) g .failed) s = .next t ∧ t.dir.ext[k] = some y ∧
            t.link = { s.link with opens := pre ++ post } ∧
            y.readiness = .openFailed ∧ s.counted t .openFailed ∧
            (x.shutDue = none → s.dir.rep.dir[k].isClosing = false → y.shutDue = some .fault ∧
              (s.mem.state = .member →
                s.bus.gainedFirst t.bus { dest := none, body := .shut k .fault none })) ∧
            t.dir.rep = s.dir.rep ∧ s.frame t (.link :: policyBlocks)))) ∧
      (s.link.closes = pre ++ p :: post →
        ((∃ n, p.timer = .released n) → ∀ o, (o = .closed ∨ o = .failed) →
          ∃ t, exec (.closeDone (BitVec.ofNat 8 k.val) g o) s = .next t ∧
            t.link = { s.link with closes := pre ++ post } ∧ s.frame t [.link]) ∧
        (∀ n x r o, p.timer = .live n → s.dir.ext[k] = some x → x.serial = g →
          (o = .closed ∧ r = .closed ∨ o = .failed ∧ r = .failed) →
          ∃ t y, exec (.closeDone (BitVec.ofNat 8 k.val) g o) s = .next t ∧ t.dir.ext[k] = some y ∧
            t.link = { s.link with closes := pre ++ post } ∧
            y.closeReport = some r ∧ y.closeOrderIssued = false ∧ t.dir.rep = s.dir.rep ∧
            s.closeAnswered t k g r ∧ s.countedForRun t k g false ∧
            s.frame t [.dir, .bus, .mem, .link, .flt]))) ∧
    (∀ (k : Slot) (g : Gen) (p : TrackPlace) (pre post : List TrackPlace), p.slot = k → p.serial = g →
      (∀ n x, s.link.closes = pre ++ p :: post → p.timer = .live n → s.dir.ext[k] = some x →
        x.serial = g → (∀ q ∈ pre, q.slot = k → q.serial = g → ∃ m, q.timer = .released m) →
        ∃ t y, exec (.closeTimeoutExpiry k g) s = .next t ∧ t.dir.ext[k] = some y ∧
          t.link = { s.link with closes := pre ++ post } ∧
          y.closeReport = some .failed ∧ s.counted t .closeTimeout ∧
          s.closeAnswered t k g .failed ∧ s.countedForRun t k g true ∧
          s.frame t [.dir, .bus, .mem, .link, .flt]) ∧
      (∀ n, s.link.opens = pre ++ p :: post → p.timer = .released n →
        (∀ q ∈ pre, q.slot = k → q.serial = g → ∃ m, q.timer = .live m) →
        ∃ t, exec (.releaseHoldExpiry .opens k g) s = .next t ∧
          t.link = { s.link with opens := pre ++ post } ∧ s.frame t [.link]) ∧
      (∀ n, s.link.closes = pre ++ p :: post → p.timer = .released n →
        (∀ q ∈ pre, q.slot = k → q.serial = g → ∃ m, q.timer = .live m) →
        ∃ t, exec (.releaseHoldExpiry .closes k g) s = .next t ∧
          t.link = { s.link with closes := pre ++ post } ∧ s.frame t [.link]))

/-! ### Lines and resets (Chapter 10) -/

/-- R57, R75, R119, R170 to R173: the edges of PFW and PRESSURE. WARNED ends QUEUED claims and any RECALL
entry but one RELEASING, which stays, as OPENING claims do; the frames of those that end are withdrawn.
CLEAR makes a policy pass. In LEVEL mode the line is the pressure; in EDGE mode an assertion starts 16P,
whose end ends the pressure; before CONFIGURE the pressure state stands. An onset and an end post their
PRESSURE notice and make a policy pass, and an onset shuts slots while the open excess calls for it, the
least recently filled first (two times compared as in log entry 18). During a reset only the pin's level is
followed (log entry 38). -/
def Obligations.LinesFollowed : Prop :=
  ∀ s : State,
    (s.rst = none →
      (s.line.pfwLine = false →
        ∃ t, exec .pfwAsserted s = .next t ∧
          t.line = { s.line with pfwLine := true, warned := true } ∧
          (∀ e ∈ t.plc.claims, e.phase ≠ .queued) ∧
          (∀ e, t.dir.request = some (.recall e) → ∃ k, e.phase = .releasing k) ∧
          (∀ q ∈ t.bus.waiting, q.body.kind ≠ .claim) ∧
          (∀ e, s.dir.request = some (.recall e) → (∀ k, e.phase ≠ .releasing k) →
            ∀ q ∈ t.bus.waiting, q.body.kind ≠ .recall) ∧
          (∀ e k, s.dir.request = some (.recall e) → e.phase = .releasing k →
            t.dir.request = s.dir.request) ∧
          (∀ e ∈ s.plc.claims, e.phase = .opening →
            ∃ y ∈ t.plc.claims, y.slot = e.slot ∧ y.kind = e.kind ∧ y.phase = .opening) ∧
          t.dir.rep = s.dir.rep ∧ s.frame t (.line :: policyBlocks)) ∧
      (s.line.pfwLine = true →
        ∃ t, exec .pfwDeasserted s = .next t ∧
          t.line = { s.line with pfwLine := false, warned := false } ∧ t.dir.rep = s.dir.rep ∧
          ({ s with line := { s.line with pfwLine := false, warned := false } } : State).passed t ∧
          s.frame t (.line :: policyBlocks)) ∧
      (s.line.pressureLine = false → ∀ l, l = { s.line with
          pressureLine := true,
          pressure := s.line.pressure || s.mem.cfg.isSome,
          episodes := if s.line.pressure = false ∧ s.mem.cfg.isSome then
            min (s.line.episodes + 1) 65535 else s.line.episodes,
          episode := if s.mem.cfg.map (·.pressureMode) = some .edge then some (16 * s.pTicks)
            else s.line.episode } →
        ∃ t, exec .pressureAsserted s = .next t ∧ t.line = l ∧
          (s.line.pressure = false → s.mem.cfg.isSome →
            s.pressureNoticed t true l.episodes ∧ ({ s with line := l } : State).pressed t) ∧
          (s.line.pressure = true ∨ s.mem.cfg = none → s.frame t [.line]) ∧
          s.frame t (.line :: policyBlocks)) ∧
      (s.line.pressureLine = true → ∀ l, l = { s.line with
          pressureLine := false,
          pressure := s.line.pressure && s.mem.cfg.map (·.pressureMode) != some .level } →
        ∃ t, exec .pressureDeasserted s = .next t ∧ t.line = l ∧
          (s.line.pressure = true → s.mem.cfg.map (·.pressureMode) = some .level →
            s.pressureNoticed t false s.line.episodes ∧ ({ s with line := l } : State).passed t) ∧
          (s.line.pressure = false ∨ s.mem.cfg.map (·.pressureMode) ≠ some .level →
            s.frame t [.line]) ∧
          s.frame t (.line :: policyBlocks)) ∧
      (s.line.episode.isSome → ∀ l, l = { s.line with episode := none, pressure := false } →
        ∃ t, exec .episodeTimerExpiry s = .next t ∧ t.line = l ∧
          (s.line.pressure = true →
            s.pressureNoticed t false s.line.episodes ∧ ({ s with line := l } : State).passed t) ∧
          (s.line.pressure = false → s.frame t [.line]) ∧
          s.frame t (.line :: policyBlocks))) ∧
    (s.rst.isSome →
      exec .pfwAsserted s = .next { s with line := { s.line with pfwLine := true } } ∧
      exec .pfwDeasserted s = .next { s with line := { s.line with pfwLine := false } } ∧
      exec .pressureAsserted s = .next { s with line := { s.line with pressureLine := true } } ∧
      exec .pressureDeasserted s = .next { s with line := { s.line with pressureLine := false } })

/-- R120, R144, R167, R170, R175, R176, R187: a reset begins by its line and blanks the station's work (log
entry 31); DRIVE_RST makes a station reset a drive reset, and power-on reset stands. It ends with the straps
read, the PFW line sampled and every block at its reset values, but for the fault capture unit, which a
station reset leaves with an empty notice queue. Some of the values are the model's own: ticks within the
millisecond 0 (log entry 2), and no close in order, no silence reported, no own ending and snapshot
generation 0 (log entry 46). -/
def Obligations.ResetsTaken : Prop :=
  ∀ s : State,
    (∃ t, exec .powerOnReset s = .next t ∧ t.rst = some .powerOn ∧ t.intake = Intake.reset ∧
      t.str = Streams.reset ∧ t.link.state = .portWait ∧ t.pending = s.pending) ∧
    (∃ t, exec .driveReset s = .next t ∧
      t.rst = some (if s.rst = some .powerOn then .powerOn else .drive) ∧ t.intake = Intake.reset ∧
      t.str = Streams.reset ∧ t.link.state = .portWait ∧ t.pending = s.pending) ∧
    (∃ t, exec .stationReset s = .next t ∧
      t.rst = some (match s.rst with | some k => k | none => .station) ∧ t.intake = Intake.reset ∧
      t.str = Streams.reset ∧ t.link.state = .portWait ∧
      t.flt = { s.flt with notices := [] } ∧ t.pending = s.pending) ∧
    (∀ (k : ResetKind) (stn : Station) (a : Bool), s.rst = some k →
      ∃ t, exec (.resetEnd stn a) s = .next t ∧ t.rst = none ∧ t.pending = s.pending ∧
        t.intake = Intake.reset ∧ t.cls = Classifier.reset ∧ t.str = Streams.reset ∧
        t.plc = Placement.reset ∧ t.dir = Directory.reset ∧ t.bus = Bus.reset ∧
        t.link = Link.reset ∧
        t.line = { mode := .run, warned := s.line.pfwLine, pressure := false, episode := none,
                   episodes := 0, pfwLine := s.line.pfwLine,
                   pressureLine := s.line.pressureLine } ∧
        t.mem = { state := .unconfigured,
                  lastReset := if k = .station then .station else .powerOnOrDrive,
                  cfg := none, stn := stn, adoptDis := a, census := Vector.replicate 8 none,
                  attempts := 0, sealTimer := none, listenTimer := none, retryTimer := none,
                  departing := false, duty := Vector.replicate 8 none, adoption := [],
                  noAdopter := false } ∧
        (k = .station → t.flt = { s.flt with notices := [] }) ∧
        (k ≠ .station → t.flt = Faults.reset))
end

