-- ==== Sys2Proof/Laws/State.lean ====
section
/-! SUPPORT. What each block update does to each part of a state: the block itself is changed, and every
other part reads as before. -/

-- One theorem at a time: each proof that waits holds a thread, and the check has memory for few.
set_option Elab.async false

namespace Sys2Proof.Machine

/-! ### The update of `intake` -/

@[simp] theorem State.onIntake_intake (s : State) (f : Intake → Intake) : (s.onIntake f).intake = f s.intake := rfl
@[simp] theorem State.onIntake_cls (s : State) (f : Intake → Intake) : (s.onIntake f).cls = s.cls := rfl
@[simp] theorem State.onIntake_str (s : State) (f : Intake → Intake) : (s.onIntake f).str = s.str := rfl
@[simp] theorem State.onIntake_plc (s : State) (f : Intake → Intake) : (s.onIntake f).plc = s.plc := rfl
@[simp] theorem State.onIntake_dir (s : State) (f : Intake → Intake) : (s.onIntake f).dir = s.dir := rfl
@[simp] theorem State.onIntake_bus (s : State) (f : Intake → Intake) : (s.onIntake f).bus = s.bus := rfl
@[simp] theorem State.onIntake_mem (s : State) (f : Intake → Intake) : (s.onIntake f).mem = s.mem := rfl
@[simp] theorem State.onIntake_link (s : State) (f : Intake → Intake) : (s.onIntake f).link = s.link := rfl
@[simp] theorem State.onIntake_line (s : State) (f : Intake → Intake) : (s.onIntake f).line = s.line := rfl
@[simp] theorem State.onIntake_flt (s : State) (f : Intake → Intake) : (s.onIntake f).flt = s.flt := rfl
@[simp] theorem State.onIntake_rst (s : State) (f : Intake → Intake) : (s.onIntake f).rst = s.rst := rfl
@[simp] theorem State.onIntake_pending (s : State) (f : Intake → Intake) : (s.onIntake f).pending = s.pending := rfl

/-! ### The update of `cls` -/

@[simp] theorem State.onCls_intake (s : State) (f : Classifier → Classifier) : (s.onCls f).intake = s.intake := rfl
@[simp] theorem State.onCls_cls (s : State) (f : Classifier → Classifier) : (s.onCls f).cls = f s.cls := rfl
@[simp] theorem State.onCls_str (s : State) (f : Classifier → Classifier) : (s.onCls f).str = s.str := rfl
@[simp] theorem State.onCls_plc (s : State) (f : Classifier → Classifier) : (s.onCls f).plc = s.plc := rfl
@[simp] theorem State.onCls_dir (s : State) (f : Classifier → Classifier) : (s.onCls f).dir = s.dir := rfl
@[simp] theorem State.onCls_bus (s : State) (f : Classifier → Classifier) : (s.onCls f).bus = s.bus := rfl
@[simp] theorem State.onCls_mem (s : State) (f : Classifier → Classifier) : (s.onCls f).mem = s.mem := rfl
@[simp] theorem State.onCls_link (s : State) (f : Classifier → Classifier) : (s.onCls f).link = s.link := rfl
@[simp] theorem State.onCls_line (s : State) (f : Classifier → Classifier) : (s.onCls f).line = s.line := rfl
@[simp] theorem State.onCls_flt (s : State) (f : Classifier → Classifier) : (s.onCls f).flt = s.flt := rfl
@[simp] theorem State.onCls_rst (s : State) (f : Classifier → Classifier) : (s.onCls f).rst = s.rst := rfl
@[simp] theorem State.onCls_pending (s : State) (f : Classifier → Classifier) : (s.onCls f).pending = s.pending := rfl

/-! ### The update of `str` -/

@[simp] theorem State.onStr_intake (s : State) (f : Streams → Streams) : (s.onStr f).intake = s.intake := rfl
@[simp] theorem State.onStr_cls (s : State) (f : Streams → Streams) : (s.onStr f).cls = s.cls := rfl
@[simp] theorem State.onStr_str (s : State) (f : Streams → Streams) : (s.onStr f).str = f s.str := rfl
@[simp] theorem State.onStr_plc (s : State) (f : Streams → Streams) : (s.onStr f).plc = s.plc := rfl
@[simp] theorem State.onStr_dir (s : State) (f : Streams → Streams) : (s.onStr f).dir = s.dir := rfl
@[simp] theorem State.onStr_bus (s : State) (f : Streams → Streams) : (s.onStr f).bus = s.bus := rfl
@[simp] theorem State.onStr_mem (s : State) (f : Streams → Streams) : (s.onStr f).mem = s.mem := rfl
@[simp] theorem State.onStr_link (s : State) (f : Streams → Streams) : (s.onStr f).link = s.link := rfl
@[simp] theorem State.onStr_line (s : State) (f : Streams → Streams) : (s.onStr f).line = s.line := rfl
@[simp] theorem State.onStr_flt (s : State) (f : Streams → Streams) : (s.onStr f).flt = s.flt := rfl
@[simp] theorem State.onStr_rst (s : State) (f : Streams → Streams) : (s.onStr f).rst = s.rst := rfl
@[simp] theorem State.onStr_pending (s : State) (f : Streams → Streams) : (s.onStr f).pending = s.pending := rfl

/-! ### The update of `plc` -/

@[simp] theorem State.onPlc_intake (s : State) (f : Placement → Placement) : (s.onPlc f).intake = s.intake := rfl
@[simp] theorem State.onPlc_cls (s : State) (f : Placement → Placement) : (s.onPlc f).cls = s.cls := rfl
@[simp] theorem State.onPlc_str (s : State) (f : Placement → Placement) : (s.onPlc f).str = s.str := rfl
@[simp] theorem State.onPlc_plc (s : State) (f : Placement → Placement) : (s.onPlc f).plc = f s.plc := rfl
@[simp] theorem State.onPlc_dir (s : State) (f : Placement → Placement) : (s.onPlc f).dir = s.dir := rfl
@[simp] theorem State.onPlc_bus (s : State) (f : Placement → Placement) : (s.onPlc f).bus = s.bus := rfl
@[simp] theorem State.onPlc_mem (s : State) (f : Placement → Placement) : (s.onPlc f).mem = s.mem := rfl
@[simp] theorem State.onPlc_link (s : State) (f : Placement → Placement) : (s.onPlc f).link = s.link := rfl
@[simp] theorem State.onPlc_line (s : State) (f : Placement → Placement) : (s.onPlc f).line = s.line := rfl
@[simp] theorem State.onPlc_flt (s : State) (f : Placement → Placement) : (s.onPlc f).flt = s.flt := rfl
@[simp] theorem State.onPlc_rst (s : State) (f : Placement → Placement) : (s.onPlc f).rst = s.rst := rfl
@[simp] theorem State.onPlc_pending (s : State) (f : Placement → Placement) : (s.onPlc f).pending = s.pending := rfl

/-! ### The update of `dir` -/

@[simp] theorem State.onDir_intake (s : State) (f : Directory → Directory) : (s.onDir f).intake = s.intake := rfl
@[simp] theorem State.onDir_cls (s : State) (f : Directory → Directory) : (s.onDir f).cls = s.cls := rfl
@[simp] theorem State.onDir_str (s : State) (f : Directory → Directory) : (s.onDir f).str = s.str := rfl
@[simp] theorem State.onDir_plc (s : State) (f : Directory → Directory) : (s.onDir f).plc = s.plc := rfl
@[simp] theorem State.onDir_dir (s : State) (f : Directory → Directory) : (s.onDir f).dir = f s.dir := rfl
@[simp] theorem State.onDir_bus (s : State) (f : Directory → Directory) : (s.onDir f).bus = s.bus := rfl
@[simp] theorem State.onDir_mem (s : State) (f : Directory → Directory) : (s.onDir f).mem = s.mem := rfl
@[simp] theorem State.onDir_link (s : State) (f : Directory → Directory) : (s.onDir f).link = s.link := rfl
@[simp] theorem State.onDir_line (s : State) (f : Directory → Directory) : (s.onDir f).line = s.line := rfl
@[simp] theorem State.onDir_flt (s : State) (f : Directory → Directory) : (s.onDir f).flt = s.flt := rfl
@[simp] theorem State.onDir_rst (s : State) (f : Directory → Directory) : (s.onDir f).rst = s.rst := rfl
@[simp] theorem State.onDir_pending (s : State) (f : Directory → Directory) : (s.onDir f).pending = s.pending := rfl

/-! ### The update of `bus` -/

@[simp] theorem State.onBus_intake (s : State) (f : Bus → Bus) : (s.onBus f).intake = s.intake := rfl
@[simp] theorem State.onBus_cls (s : State) (f : Bus → Bus) : (s.onBus f).cls = s.cls := rfl
@[simp] theorem State.onBus_str (s : State) (f : Bus → Bus) : (s.onBus f).str = s.str := rfl
@[simp] theorem State.onBus_plc (s : State) (f : Bus → Bus) : (s.onBus f).plc = s.plc := rfl
@[simp] theorem State.onBus_dir (s : State) (f : Bus → Bus) : (s.onBus f).dir = s.dir := rfl
@[simp] theorem State.onBus_bus (s : State) (f : Bus → Bus) : (s.onBus f).bus = f s.bus := rfl
@[simp] theorem State.onBus_mem (s : State) (f : Bus → Bus) : (s.onBus f).mem = s.mem := rfl
@[simp] theorem State.onBus_link (s : State) (f : Bus → Bus) : (s.onBus f).link = s.link := rfl
@[simp] theorem State.onBus_line (s : State) (f : Bus → Bus) : (s.onBus f).line = s.line := rfl
@[simp] theorem State.onBus_flt (s : State) (f : Bus → Bus) : (s.onBus f).flt = s.flt := rfl
@[simp] theorem State.onBus_rst (s : State) (f : Bus → Bus) : (s.onBus f).rst = s.rst := rfl
@[simp] theorem State.onBus_pending (s : State) (f : Bus → Bus) : (s.onBus f).pending = s.pending := rfl

/-! ### The update of `mem` -/

@[simp] theorem State.onMem_intake (s : State) (f : Members → Members) : (s.onMem f).intake = s.intake := rfl
@[simp] theorem State.onMem_cls (s : State) (f : Members → Members) : (s.onMem f).cls = s.cls := rfl
@[simp] theorem State.onMem_str (s : State) (f : Members → Members) : (s.onMem f).str = s.str := rfl
@[simp] theorem State.onMem_plc (s : State) (f : Members → Members) : (s.onMem f).plc = s.plc := rfl
@[simp] theorem State.onMem_dir (s : State) (f : Members → Members) : (s.onMem f).dir = s.dir := rfl
@[simp] theorem State.onMem_bus (s : State) (f : Members → Members) : (s.onMem f).bus = s.bus := rfl
@[simp] theorem State.onMem_mem (s : State) (f : Members → Members) : (s.onMem f).mem = f s.mem := rfl
@[simp] theorem State.onMem_link (s : State) (f : Members → Members) : (s.onMem f).link = s.link := rfl
@[simp] theorem State.onMem_line (s : State) (f : Members → Members) : (s.onMem f).line = s.line := rfl
@[simp] theorem State.onMem_flt (s : State) (f : Members → Members) : (s.onMem f).flt = s.flt := rfl
@[simp] theorem State.onMem_rst (s : State) (f : Members → Members) : (s.onMem f).rst = s.rst := rfl
@[simp] theorem State.onMem_pending (s : State) (f : Members → Members) : (s.onMem f).pending = s.pending := rfl

/-! ### The update of `link` -/

@[simp] theorem State.onLink_intake (s : State) (f : Link → Link) : (s.onLink f).intake = s.intake := rfl
@[simp] theorem State.onLink_cls (s : State) (f : Link → Link) : (s.onLink f).cls = s.cls := rfl
@[simp] theorem State.onLink_str (s : State) (f : Link → Link) : (s.onLink f).str = s.str := rfl
@[simp] theorem State.onLink_plc (s : State) (f : Link → Link) : (s.onLink f).plc = s.plc := rfl
@[simp] theorem State.onLink_dir (s : State) (f : Link → Link) : (s.onLink f).dir = s.dir := rfl
@[simp] theorem State.onLink_bus (s : State) (f : Link → Link) : (s.onLink f).bus = s.bus := rfl
@[simp] theorem State.onLink_mem (s : State) (f : Link → Link) : (s.onLink f).mem = s.mem := rfl
@[simp] theorem State.onLink_link (s : State) (f : Link → Link) : (s.onLink f).link = f s.link := rfl
@[simp] theorem State.onLink_line (s : State) (f : Link → Link) : (s.onLink f).line = s.line := rfl
@[simp] theorem State.onLink_flt (s : State) (f : Link → Link) : (s.onLink f).flt = s.flt := rfl
@[simp] theorem State.onLink_rst (s : State) (f : Link → Link) : (s.onLink f).rst = s.rst := rfl
@[simp] theorem State.onLink_pending (s : State) (f : Link → Link) : (s.onLink f).pending = s.pending := rfl

/-! ### The update of `line` -/

@[simp] theorem State.onLine_intake (s : State) (f : Lines → Lines) : (s.onLine f).intake = s.intake := rfl
@[simp] theorem State.onLine_cls (s : State) (f : Lines → Lines) : (s.onLine f).cls = s.cls := rfl
@[simp] theorem State.onLine_str (s : State) (f : Lines → Lines) : (s.onLine f).str = s.str := rfl
@[simp] theorem State.onLine_plc (s : State) (f : Lines → Lines) : (s.onLine f).plc = s.plc := rfl
@[simp] theorem State.onLine_dir (s : State) (f : Lines → Lines) : (s.onLine f).dir = s.dir := rfl
@[simp] theorem State.onLine_bus (s : State) (f : Lines → Lines) : (s.onLine f).bus = s.bus := rfl
@[simp] theorem State.onLine_mem (s : State) (f : Lines → Lines) : (s.onLine f).mem = s.mem := rfl
@[simp] theorem State.onLine_link (s : State) (f : Lines → Lines) : (s.onLine f).link = s.link := rfl
@[simp] theorem State.onLine_line (s : State) (f : Lines → Lines) : (s.onLine f).line = f s.line := rfl
@[simp] theorem State.onLine_flt (s : State) (f : Lines → Lines) : (s.onLine f).flt = s.flt := rfl
@[simp] theorem State.onLine_rst (s : State) (f : Lines → Lines) : (s.onLine f).rst = s.rst := rfl
@[simp] theorem State.onLine_pending (s : State) (f : Lines → Lines) : (s.onLine f).pending = s.pending := rfl

/-! ### The update of `flt` -/

@[simp] theorem State.onFlt_intake (s : State) (f : Faults → Faults) : (s.onFlt f).intake = s.intake := rfl
@[simp] theorem State.onFlt_cls (s : State) (f : Faults → Faults) : (s.onFlt f).cls = s.cls := rfl
@[simp] theorem State.onFlt_str (s : State) (f : Faults → Faults) : (s.onFlt f).str = s.str := rfl
@[simp] theorem State.onFlt_plc (s : State) (f : Faults → Faults) : (s.onFlt f).plc = s.plc := rfl
@[simp] theorem State.onFlt_dir (s : State) (f : Faults → Faults) : (s.onFlt f).dir = s.dir := rfl
@[simp] theorem State.onFlt_bus (s : State) (f : Faults → Faults) : (s.onFlt f).bus = s.bus := rfl
@[simp] theorem State.onFlt_mem (s : State) (f : Faults → Faults) : (s.onFlt f).mem = s.mem := rfl
@[simp] theorem State.onFlt_link (s : State) (f : Faults → Faults) : (s.onFlt f).link = s.link := rfl
@[simp] theorem State.onFlt_line (s : State) (f : Faults → Faults) : (s.onFlt f).line = s.line := rfl
@[simp] theorem State.onFlt_flt (s : State) (f : Faults → Faults) : (s.onFlt f).flt = f s.flt := rfl
@[simp] theorem State.onFlt_rst (s : State) (f : Faults → Faults) : (s.onFlt f).rst = s.rst := rfl
@[simp] theorem State.onFlt_pending (s : State) (f : Faults → Faults) : (s.onFlt f).pending = s.pending := rfl

/-! ### Operations that are one update -/

@[simp] theorem State.post_eq (s : State) (b : NoticeBody) : s.post b = s.onFlt (·.post b) := rfl
@[simp] theorem State.queueFrame_eq (s : State) (b : Body) :
    s.queueFrame b = s.onBus (·.queue { dest := none, body := b }) := rfl
@[simp] theorem State.queueTo_eq (s : State) (d : Station) (b : Body) :
    s.queueTo d b = s.onBus (·.queue { dest := some d, body := b }) := rfl
@[simp] theorem State.withdraw_eq (s : State) (p : Body → Bool) :
    s.withdraw p = s.onBus (·.withdraw fun q => p q.body) := rfl
@[simp] theorem State.setRep_eq (s : State) (r : Replica) :
    s.setRep r = s.onDir fun d => { d with rep := r } := rfl
@[simp] theorem State.setExt_eq (s : State) (k : Slot) (x : Option Ext) :
    s.setExt k x = s.onDir fun d => { d with ext := put d.ext k x } := rfl

end Sys2Proof.Machine
end

