-- ==== Sys2Proof/Laws/Works.lean ====
section
/-! SUPPORT. What the station's own work can do: the placement policy, shut decisions, results, takeover
duty and the frames, notices and reports they queue. Each such operation `f` has one lemma
`works_f : Works s (f s)`, which provers cite instead of unfolding it. -/

-- One theorem at a time: each proof that waits holds a thread, and the check has memory for few.
set_option Elab.async false

namespace Sys2Proof.Machine

/-- `t` comes from `s` by the station's own work: the replica, the receive side of the bus, the
membership state, the back-end link and the lines are as before, and no queue leaves its bound. -/
structure Works (s t : State) : Prop where
  cls : t.cls = s.cls := by rfl
  queue : t.intake.queue = s.intake.queue := by rfl
  response : t.intake.response = s.intake.response := by rfl
  timeMs : t.str.timeMs = s.str.timeMs := by rfl
  sub : t.str.sub = s.str.sub := by rfl
  rep : t.dir.rep = s.dir.rep := by rfl
  rx : t.bus.rx = s.bus.rx := by rfl
  receiver : t.bus.receiver = s.bus.receiver := by rfl
  ownEnding : t.bus.ownEnding = s.bus.ownEnding := by rfl
  mediumBusy : t.bus.mediumBusy = s.bus.mediumBusy := by rfl
  yieldOwed : t.bus.yieldOwed = s.bus.yieldOwed := by rfl
  beacon : t.bus.beacon = s.bus.beacon := by rfl
  heard : t.bus.heard = s.bus.heard := by rfl
  onMedium : t.bus.sending.isSome = s.bus.sending.isSome := by rfl
  state : t.mem.state = s.mem.state := by rfl
  lastReset : t.mem.lastReset = s.mem.lastReset := by rfl
  cfg : t.mem.cfg = s.mem.cfg := by rfl
  stn : t.mem.stn = s.mem.stn := by rfl
  adoptDis : t.mem.adoptDis = s.mem.adoptDis := by rfl
  attempts : t.mem.attempts = s.mem.attempts := by rfl
  departing : t.mem.departing = s.mem.departing := by rfl
  link : t.link = s.link := by rfl
  line : t.line = s.line := by rfl
  frozen : t.flt.frozen = s.flt.frozen := by rfl
  rst : t.rst = s.rst := by rfl
  pending : t.pending = s.pending := by rfl
  tx : s.bus.tx.length ≤ 8 → t.bus.tx.length ≤ 8 := by exact id
  results : s.intake.results.length ≤ 32 → t.intake.results.length ≤ 32 := by exact id
  notices : s.flt.notices.length ≤ 16 → t.flt.notices.length ≤ 16 := by exact id
  claims : s.plc.claims.length ≤ 4 → t.plc.claims.length ≤ 4 := by exact id
  log : s.dir.log.length ≤ 16 → t.dir.log.length ≤ 16 := by exact id
  asks : t.asks → s.asks := by exact id

namespace Works

theorem refl (s : State) : Works s s := {}

theorem trans {s t u : State} (h : Works s t) (g : Works t u) : Works s u :=
  { cls := g.cls.trans h.cls,
    queue := g.queue.trans h.queue,
    response := g.response.trans h.response,
    timeMs := g.timeMs.trans h.timeMs,
    sub := g.sub.trans h.sub,
    rep := g.rep.trans h.rep,
    rx := g.rx.trans h.rx,
    receiver := g.receiver.trans h.receiver,
    ownEnding := g.ownEnding.trans h.ownEnding,
    mediumBusy := g.mediumBusy.trans h.mediumBusy,
    yieldOwed := g.yieldOwed.trans h.yieldOwed,
    beacon := g.beacon.trans h.beacon,
    heard := g.heard.trans h.heard,
    onMedium := g.onMedium.trans h.onMedium,
    state := g.state.trans h.state,
    lastReset := g.lastReset.trans h.lastReset,
    cfg := g.cfg.trans h.cfg,
    stn := g.stn.trans h.stn,
    adoptDis := g.adoptDis.trans h.adoptDis,
    attempts := g.attempts.trans h.attempts,
    departing := g.departing.trans h.departing,
    link := g.link.trans h.link,
    line := g.line.trans h.line,
    frozen := g.frozen.trans h.frozen,
    rst := g.rst.trans h.rst,
    pending := g.pending.trans h.pending,
    tx := fun x => g.tx (h.tx x),
    results := fun x => g.results (h.results x),
    notices := fun x => g.notices (h.notices x),
    claims := fun x => g.claims (h.claims x),
    log := fun x => g.log (h.log x),
    asks := fun x => h.asks (g.asks x) }

/-- Work in a loop is work. -/
theorem foldl {α : Type} (f : State → α → State) (h : ∀ s x, Works s (f s x)) (l : List α) (s : State) :
    Works s (l.foldl f s) := by
  induction l generalizing s with
  | nil => exact refl s
  | cons x l ih => exact (h s x).trans (ih (f s x))

/-- Work in a loop that also carries a flag. -/
theorem foldlFlag {α : Type} (f : State × Bool → α → State × Bool) (h : ∀ p x, Works p.1 (f p x).1)
    (l : List α) (p : State × Bool) : Works p.1 (l.foldl f p).1 := by
  induction l generalizing p with
  | nil => exact refl p.1
  | cons x l ih => exact (h p x).trans (ih (f p x))

/-- One of two works, by a condition. -/
theorem ite {s t u : State} {c : Prop} [Decidable c] (h : c → Works s t) (g : ¬c → Works s u) :
    Works s (if c then t else u) := by
  by_cases hc : c
  · rw [if_pos hc]; exact h hc
  · rw [if_neg hc]; exact g hc

end Works

/-! ### Block updates -/

theorem works_onStr (s : State) (f : Streams → Streams) (ht : (f s.str).timeMs = s.str.timeMs := by rfl)
    (hs : (f s.str).sub = s.str.sub := by rfl) : Works s (s.onStr f) :=
  { timeMs := ht, sub := hs }

theorem works_onPlc (s : State) (f : Placement → Placement)
    (h : s.plc.claims.length ≤ 4 → (f s.plc).claims.length ≤ 4 := by exact id) : Works s (s.onPlc f) :=
  { claims := h }

theorem works_onFlt (s : State) (f : Faults → Faults) (hf : (f s.flt).frozen = s.flt.frozen := by rfl)
    (h : s.flt.notices.length ≤ 16 → (f s.flt).notices.length ≤ 16 := by exact id) :
    Works s (s.onFlt f) :=
  { frozen := hf, notices := h }

theorem works_onDir (s : State) (f : Directory → Directory) (hr : (f s.dir).rep = s.dir.rep := by rfl)
    (hl : s.dir.log.length ≤ 16 → (f s.dir).log.length ≤ 16 := by exact id)
    (ha : (s.onDir f).asks → s.asks := by exact id) : Works s (s.onDir f) :=
  { rep := hr, log := hl, asks := ha }


/-! ### Notices and reports (R183, R184) -/

theorem markLast_length (l : List Notice) : (markLast l).length = l.length := by
  fun_induction markLast l <;> simp_all

/-- R183: the lost mark is set on the newest notice. -/
theorem markLast_append (l : List Notice) (n : Notice) :
    markLast (l ++ [n]) = l ++ [{ n with lost := true }] := by
  induction l with
  | nil => rfl
  | cons x l ih => cases l <;> simp_all [markLast]

/-- R86, R91: no frame that a withdrawal picks waits behind it. -/
theorem Bus.picks_waiting_withdraw {b : Bus} {p : QFrame → Bool} {q : QFrame}
    (h : q ∈ (b.withdraw p).waiting) : p q = false := by
  rcases hs : b.sending with _ | sg <;> rcases ht : b.tx with _ | ⟨f, rest⟩ <;>
    simp only [Bus.withdraw, Bus.waiting, hs, ht] at h <;> grind

theorem Faults.post_notices (f : Faults) (b : NoticeBody) (h : f.notices.length ≤ 16) :
    (f.post b).notices.length ≤ 16 := by
  unfold Faults.post
  split
  · simp only [List.length_append, List.length_singleton]; omega
  · simpa [markLast_length] using h

theorem Faults.post_frozen (f : Faults) (b : NoticeBody) : (f.post b).frozen = f.frozen := by
  unfold Faults.post; split <;> rfl

theorem Faults.report_notices (f : Faults) (r : FaultRec) (h : f.notices.length ≤ 16) :
    (f.report r).notices.length ≤ 16 := by
  unfold Faults.report
  split
  · exact Faults.post_notices _ _ h
  · exact h

theorem Faults.report_frozen (f : Faults) (r : FaultRec) : (f.report r).frozen = f.frozen := by
  unfold Faults.report; split
  · exact Faults.post_frozen _ _
  · rfl

theorem works_post (s : State) (b : NoticeBody) : Works s (s.post b) :=
  works_onFlt s _ (Faults.post_frozen _ _) (Faults.post_notices _ _)

theorem works_report (s : State) (c : Cause) (slot : Option Byte) (st : Option Ctx)
    (peer : Option Station) (kind : Option Kind) : Works s (s.report c slot st peer kind) :=
  works_onFlt s _ (Faults.report_frozen _ _) (Faults.report_notices _ _)

theorem Faults.loadRequest_notices (f : Faults) (r : LastReq) :
    (f.loadRequest r).notices = f.notices ∧ (f.loadRequest r).frozen = f.frozen := by
  unfold Faults.loadRequest; split <;> exact ⟨rfl, rfl⟩

theorem Faults.followRequest_notices (f : Faults) (a : Bool) (t : ReqTag) (g : LastReq → LastReq) :
    (f.followRequest a t g).notices = f.notices ∧ (f.followRequest a t g).frozen = f.frozen := by
  unfold Faults.followRequest; split
  · exact ⟨rfl, rfl⟩
  · split
    · split <;> exact ⟨rfl, rfl⟩
    · exact ⟨rfl, rfl⟩

theorem works_loadRequest (s : State) (r : LastReq) : Works s (s.onFlt (·.loadRequest r)) :=
  works_onFlt s _ (Faults.loadRequest_notices _ _).2 (fun h => by rw [(Faults.loadRequest_notices _ _).1]; exact h)

theorem works_followRequest (s : State) (a : Bool) (t : ReqTag) (g : LastReq → LastReq) :
    Works s (s.onFlt (·.followRequest a t g)) :=
  works_onFlt s _ (Faults.followRequest_notices _ _ _ _).2
    (fun h => by rw [(Faults.followRequest_notices _ _ _ _).1]; exact h)

/-! ### The transmit queue (R86, R91) -/

theorem Bus.queue_tx (b : Bus) (q : QFrame) (h : b.tx.length ≤ 8) : (b.queue q).tx.length ≤ 8 := by
  unfold Bus.queue
  split
  · rename_i hc; simp only [List.length_append, List.length_singleton]; omega
  · exact h

theorem Bus.withdraw_tx (b : Bus) (p : QFrame → Bool) : (b.withdraw p).tx.length ≤ b.tx.length := by
  unfold Bus.withdraw
  split
  · rename_i h; simp only [h, List.length_cons]; exact Nat.succ_le_succ (List.length_filter_le _ _)
  · exact List.length_filter_le _ _

theorem works_queue (s : State) (q : QFrame) : Works s (s.onBus (·.queue q)) := by
  have h := Bus.queue_tx s.bus q
  unfold Bus.queue at h
  simp only [State.onBus, Bus.queue]
  split <;> rename_i hc <;> simp only [hc, and_self, if_true, if_false] at h
  · exact { tx := h }
  · exact {}

theorem works_queueFrame (s : State) (b : Body) : Works s (s.queueFrame b) := works_queue s _

theorem works_queueTo (s : State) (d : Station) (b : Body) : Works s (s.queueTo d b) := works_queue s _

theorem works_busWithdraw (s : State) (p : QFrame → Bool) : Works s (s.onBus (·.withdraw p)) := by
  have h := Bus.withdraw_tx s.bus p
  simp only [State.onBus, Bus.withdraw] at h ⊢
  split
  · rename_i sg q rest hs ht
    simp only [hs, ht] at h
    exact { tx := fun hb => le_trans h (by simpa [ht] using hb), onMedium := by simp [hs] }
  · rename_i hne
    refine { tx := fun hb => le_trans (List.length_filter_le _ _) hb }

/-- A head on the medium is kept; else the withdrawal is the plain one. -/
theorem works_withdrawUnsent (s : State) (p : QFrame → Bool) :
    Works s (s.onBus (·.withdrawUnsent p)) := by
  simp only [State.onBus, Bus.withdrawUnsent]
  split
  · rename_i sg q rest hs ht
    refine { tx := fun hb => ?_, onMedium := by simp [hs] }
    have hl : (rest.filter fun x => !p x).length ≤ rest.length := List.length_filter_le _ _
    simp only [ht, List.length_cons] at hb ⊢
    omega
  · exact works_busWithdraw s p

theorem works_withdraw (s : State) (p : Body → Bool) : Works s (s.withdraw p) := works_busWithdraw s _

/-- R151: a frame the test picks that is still queued after the withdrawal is the head on the medium. -/
theorem Bus.mem_withdrawUnsent {b : Bus} {p : QFrame → Bool} {q : QFrame}
    (h : q ∈ (b.withdrawUnsent p).tx) (hp : p q = true) (ht : b.sending = none ∨ b.tx ≠ []) :
    b.sending.isSome ∧ (b.withdrawUnsent p).tx.head? = some q := by
  unfold Bus.withdrawUnsent at h ⊢
  split at h
  · rename_i sg x rest hs hx
    rcases List.mem_cons.mp h with rfl | h
    · simp [hs]
    · simp [hp] at h
  · rename_i hn
    have hs : b.sending = none := by
      rcases ht with ht | ht
      · exact ht
      · cases hs : b.sending with
        | none => rfl
        | some sg =>
          obtain ⟨x, rest, hx⟩ := List.exists_cons_of_ne_nil ht
          exact absurd hx (hn sg x rest hs)
    simp [Bus.withdraw, hs, hp] at h

/-! ### The refused counter (R34) -/

@[simp] theorem Counters.refusing_zero (x : Counters) : x.refusing 0 = x := rfl

/-- Refusals count one by one. -/
theorem Counters.refusing_succ (x : Counters) (n : Nat) :
    (x.refusing n).refusing 1 = x.refusing (n + 1) := by
  unfold Counters.refusing
  by_cases h : n = 0
  · simp [h]
  · simp only [h, if_false, Nat.succ_ne_zero]
    congr 1
    omega

/-- One refusal raises the refused counter of its context as R34 says. -/
theorem Counters.refusing_one (x : Counters) : x.refusing 1 = { x with refused := sat32 x.refused 1 } := by
  simp [Counters.refusing, sat32, satAdd]

/-! ### Contexts and extensions (R25, R27, R50) -/

theorem clearClaimant_length (c : Ctx) (x : Context) (l : List ClaimEntry) :
    (clearClaimant c x l).length = l.length := by
  unfold clearClaimant; split <;> simp

theorem works_setCtx (s : State) (c : Ctx) (x : Context) : Works s (s.setCtx c x) :=
  { claims := fun h => by simpa [State.setCtx, clearClaimant_length] using h }

theorem works_onCtx (s : State) (c : Ctx) (f : Context → Context) : Works s (s.onCtx c f) :=
  works_setCtx s c _

theorem works_onCounters (s : State) (c : Ctx) (f : Counters → Counters) : Works s (s.onCounters c f) :=
  works_onStr s _

theorem works_countRefused (s : State) (c : Ctx) : Works s (s.countRefused c) := works_onCounters s c _

theorem works_setExt (s : State) (k : Slot) (x : Option Ext) : Works s (s.setExt k x) := works_onDir s _

theorem works_onExt (s : State) (k : Slot) (f : Ext → Ext) : Works s (s.onExt k f) := by
  unfold State.onExt; split
  · exact works_setExt s k _
  · exact Works.refl s

theorem works_dropResident (s : State) (k : Slot) (c : Ctx) : Works s (s.dropResident k c) :=
  works_onExt s k _

theorem works_endResidency (s : State) (c : Ctx) : Works s (s.endResidency c) := by
  unfold State.endResidency; split
  · exact (works_dropResident s _ c).trans (works_onCtx _ c _)
  · exact Works.refl s

theorem works_grant (s : State) (c : Ctx) (k : Slot) : Works s (s.grant c k) := by
  unfold State.grant; split
  · exact (works_setExt s k _).trans (works_onCtx _ c _)
  · exact Works.refl s

/-! ### Shuts (R72) -/

theorem works_decideShut (s : State) (k : Slot) (c : ShutCause) (r : Option (ReqTag × Station)) :
    Works s (s.decideShut k c r) := by
  unfold State.decideShut; split
  · exact Works.refl s
  · dsimp only
    refine Works.ite (fun _ => Works.refl s) (fun _ => ?_)
    have h := fun (x : Option Ext) (l : List Ctx) => (works_setExt s k x).trans
      (Works.foldl State.endResidency works_endResidency l (s.setExt k x))
    exact Works.ite (fun _ => (h _ _).trans (works_queueFrame _ _)) (fun _ => h _ _)

theorem works_leaveSlot (s : State) (c : Ctx) (k : Slot) : Works s (s.leaveSlot c k) := by
  unfold State.leaveSlot; dsimp only; split
  · exact Works.ite (fun _ => (works_dropResident s k c).trans (works_decideShut _ k _ _))
      (fun _ => works_dropResident s k c)
  · exact works_dropResident s k c

/-! ### Results (R7, R22, R70) -/

theorem Intake.hasRoom_results {i : Intake} (h : i.hasRoom = true) : i.results.length < 32 := by
  simp only [Intake.hasRoom, Bool.and_eq_true, decide_eq_true_eq] at h; exact h.1

/-- A result joins the result queue where it has room. -/
theorem works_addResult (s : State) (r : ResultRec) (h : s.intake.results.length < 32) :
    Works s (s.onIntake fun i => { i with results := i.results ++ [r] }) :=
  { results := fun _ => by simp; omega }

theorem works_addWaiter (s : State) (w : Waiter) :
    Works s (s.onIntake fun i => { i with waiters := i.waiters ++ [w] }) := {}

theorem works_deliver (s : State) (r : ResultRec) : Works s (s.deliver r) := by
  simp only [State.deliver, State.onIntake]
  split
  · rename_i h; exact works_addResult s r (Intake.hasRoom_results h)
  · exact works_addWaiter s (.store r)

theorem works_countResult (s : State) (c : Ctx) (st : Status) : Works s (s.countResult c st) := by
  unfold State.countResult; split
  · exact works_onCounters s c _
  · exact works_countRefused s c
  · exact Works.refl s

theorem Placement.freeParts_claims (p : Placement) (t : DTag) : (p.freeParts t).claims = p.claims := by
  unfold Placement.freeParts; split <;> rfl

theorem works_freeParts (s : State) (t : DTag) : Works s (s.onPlc (·.freeParts t)) :=
  works_onPlc s _ (fun h => by rw [Placement.freeParts_claims]; exact h)

theorem works_tryAssemble (s : State) (t : DTag) : Works s (s.tryAssemble t) := by
  unfold State.tryAssemble; split
  · exact Works.refl s
  · split
    · dsimp only
      refine Works.ite (fun hr => ?_) (fun _ => ?_)
      · exact (works_countResult s _ _).trans
          ((works_addResult _ _ (Intake.hasRoom_results hr)).trans (works_freeParts _ _))
      · exact (works_countResult s _ _).trans ((works_addWaiter _ (.completion _)).trans (works_onPlc _ _))
    · exact Works.refl s

theorem works_refuseTail (s : State) (c : Ctx) (why : Option Reason) : Works s (s.refuseTail c why) := by
  unfold State.refuseTail; split
  · exact Works.refl s
  · exact (works_onPlc s _).trans (works_tryAssemble _ _)

theorem works_refuseEntry (s : State) (c : Ctx) (why : Reason) (e : PendingEntry) :
    Works s (s.refuseEntry c why e) := by
  unfold State.refuseEntry; split
  · exact works_refuseTail s c _
  · exact (works_countRefused s c).trans (works_deliver _ _)

/-! ### The end of every command (R7, R181) -/

theorem works_settleHead (s : State) : Works s s.settleHead := by
  unfold State.settleHead; dsimp only
  refine Works.ite (fun _ => Works.ite (fun _ => Works.refl s) (fun _ => works_addWaiter s .intakeHead))
    (fun _ => {})

theorem works_settleOffer (s : State) : Works s s.settleOffer := by
  unfold State.settleOffer
  exact Works.ite (fun _ => {}) (fun _ => Works.refl s)

/-! ### The hand-off (R20 to R24) -/

theorem works_joinList (s : State) (c : Ctx) (d : Descriptor) : Works s (s.joinList c d) :=
  (works_onCtx s c _).trans (works_onStr _ _)

theorem works_handOff (s : State) (d : Descriptor) (dest : Dest) (cls : LifeClass) :
    Works s (s.handOff d dest cls) := by
  unfold State.handOff; split
  · exact works_joinList s 0 d
  · exact works_joinList s _ d
  · split
    · exact (works_setCtx s _ _).trans (works_joinList _ _ d)
    · exact (works_onCounters s 0 _).trans (works_joinList _ 0 d)

/-! ### The placement policy (R57 to R64, R75, R110) -/

theorem works_queueClaim (s : State) (kind : SlotKind) (c : Option Ctx) (h : s.plc.claims.length < 4) :
    Works s (s.queueClaim kind c) := by
  unfold State.queueClaim; split
  · exact Works.refl s
  · exact (works_onPlc s _ (fun _ => by simp; omega)).trans (works_queueFrame _ _)

theorem claimPermission_room {s : State} (h : s.claimPermission = true) : s.plc.claims.length < 4 := by
  simp only [State.claimPermission, Bool.and_eq_true, decide_eq_true_eq] at h; exact h.1.2

theorem claimCase_room {s : State} (h : (s.withinQuota || s.fromPool) = true) :
    s.plc.claims.length < 4 := by
  rcases Bool.or_eq_true _ _ |>.mp h with h | h
  · simp only [State.withinQuota, Bool.and_eq_true] at h; exact claimPermission_room h.1.1
  · simp only [State.fromPool, Bool.and_eq_true] at h; exact claimPermission_room h.1.1.1

theorem works_setRequest (s : State) (g : Directory → Directory)
    (hr : (g s.dir).rep = s.dir.rep := by rfl) (hl : (g s.dir).log = s.dir.log := by rfl)
    (e : RecallEntry) (he : (g s.dir).request = some (.recall e) := by rfl) : Works s (s.onDir g) :=
  works_onDir s g hr (fun h => hl ▸ h) (fun ⟨a, ha⟩ => by
    rw [show (s.onDir g).dir.request = (g s.dir).request from rfl, he] at ha; cases ha)

theorem works_beginRecall (s : State) : Works s s.beginRecall := by
  unfold State.beginRecall
  refine Works.ite (fun _ => Works.refl s) (fun _ => ?_)
  split
  · exact Works.refl s
  · dsimp only
    refine (((works_setRequest s _ (e := _)).trans (works_queueFrame _ _)).trans (works_loadRequest _ _))

theorem works_stepFive (s : State) (c : Ctx) : Works s (s.stepFive c).1 := by
  unfold State.stepFive; split
  · split
    · split
      · split
        · exact works_grant s c _
        · exact works_decideShut s _ _ _
      · split
        · exact works_grant s c _
        · exact Works.refl s
      · exact Works.refl s
    · exact Works.refl s
  · split
    · exact Works.refl s
    · split
      · rename_i h; exact works_queueClaim s _ _ (claimCase_room h)
      · exact Works.refl s

theorem works_visit (s : State) (skip : List Ctx) (c : Ctx) : Works s (s.visit skip c).1 := by
  unfold State.visit
  split
  · exact Works.refl s
  · split
    · exact Works.refl s
    · split
      · exact works_stepFive s c
      · split
        · exact works_stepFive s c
        · split
          · rename_i h; exact works_queueClaim s _ _ (claimCase_room h.2)
          · split
            · exact works_grant s c _
            · split
              · exact works_beginRecall s
              · exact works_stepFive s c

theorem works_passOnce (s : State) (skip : List Ctx) : Works s (s.passOnce skip).1 :=
  Works.foldlFlag (fun p c => ((p.1.visit skip c).1, p.2 || (p.1.visit skip c).2))
    (fun p c => works_visit p.1 skip c) _ (s, false)

theorem works_policyPass (s : State) (skip : List Ctx) : Works s (s.policyPass skip) := by
  unfold State.policyPass
  refine Works.ite (fun _ => ?_) (fun _ => Works.refl s)
  dsimp only
  exact Works.ite (fun _ => (works_passOnce s skip).trans (works_passOnce _ []))
    (fun _ => works_passOnce s skip)

theorem works_giveOut (s : State) (k : Slot) (c : Option Ctx) : Works s (s.giveOut k c) := by
  unfold State.giveOut
  refine Works.ite (fun _ => ?_) (fun _ => Works.refl s)
  split
  · split
    · exact works_grant s _ k
    · split
      · exact works_grant s _ k
      · exact works_decideShut s k _ _
  · exact Works.refl s

theorem works_pressureShut (s : State) : Works s s.pressureShut.1 := by
  unfold State.pressureShut; split
  · split
    · exact works_decideShut s _ _ _
    · exact Works.refl s
  · exact Works.refl s

theorem works_pressureEval (s : State) : Works s s.pressureEval.1 := by
  unfold State.pressureEval; split
  · exact Works.foldlFlag (fun p _ => (p.1.pressureShut.1, p.2 || p.1.pressureShut.2))
      (fun p _ => works_pressureShut p.1) (List.range 4) (s, false)
  · exact Works.refl s

theorem works_evalPressure (s : State) : Works s s.evalPressure := by
  unfold State.evalPressure; dsimp only
  exact Works.ite (fun _ => (works_pressureEval s).trans (works_policyPass _ _))
    (fun _ => works_pressureEval s)

/-! ### Takeover duty, dues and departures (R50, R105, R138, R141, R145) -/

theorem works_onMem (s : State) (f : Members → Members) (h1 : (f s.mem).state = s.mem.state := by rfl)
    (h2 : (f s.mem).lastReset = s.mem.lastReset := by rfl) (h3 : (f s.mem).cfg = s.mem.cfg := by rfl)
    (h4 : (f s.mem).stn = s.mem.stn := by rfl) (h5 : (f s.mem).adoptDis = s.mem.adoptDis := by rfl)
    (h6 : (f s.mem).attempts = s.mem.attempts := by rfl)
    (h7 : (f s.mem).departing = s.mem.departing := by rfl) : Works s (s.onMem f) :=
  { state := h1, lastReset := h2, cfg := h3, stn := h4, adoptDis := h5, attempts := h6, departing := h7 }

/-- An update of the records of takeover duty alone. -/
theorem works_setDuty (s : State) (h : Station) (d : Option Duty) : Works s (s.setDuty h d) := {}

theorem works_takeRun (s : State) (h : Station) : Works s (s.takeRun h) := by
  unfold State.takeRun
  exact Works.ite (fun _ => (works_setDuty s h _).trans (works_queueFrame _ _)) (fun _ => Works.refl s)

theorem works_takeRuns (s : State) : Works s s.takeRuns := by
  unfold State.takeRuns
  exact Works.ite (fun _ => Works.foldl _ works_takeRun _ s) (fun _ => Works.refl s)

theorem works_adoptOne (s : State) : Works s s.adoptOne := by
  unfold State.adoptOne
  refine Works.ite (fun _ => ?_) (fun _ => Works.refl s)
  split
  · split
    · exact Works.trans (t := s.onMem fun m => { m with adoption := m.adoption ++ [_] }) {}
        (works_queueFrame _ _)
    · exact Works.refl s
  · exact Works.refl s

theorem works_completeRun (s : State) (h : Station) : Works s (s.completeRun h) := by
  unfold State.completeRun; split
  · exact Works.ite (fun _ => (works_setDuty s h _).trans (works_queueFrame _ _)) (fun _ => Works.refl s)
  · exact Works.refl s

theorem works_failRun (s : State) (h : Station) : Works s (s.failRun h) := by
  unfold State.failRun; split
  · refine Works.ite (fun _ => ?_) (fun _ => Works.refl s)
    dsimp only
    exact (((works_report s _ _ _ _ _).trans (works_withdrawUnsent _ _)).trans (works_onMem _ _)).trans
      ((works_setDuty _ h _).trans (works_queueFrame _ _))
  · exact Works.refl s

theorem works_testNoAdopter (s : State) : Works s s.testNoAdopter := by
  unfold State.testNoAdopter
  refine Works.ite (fun _ => Works.ite (fun _ => Works.refl s) (fun _ => ?_)) (fun _ => {})
  exact Works.trans (t := s.onMem fun m => { m with noAdopter := true }) {} (works_post _ _)

theorem works_dutyEval (s : State) : Works s s.dutyEval := by
  unfold State.dutyEval
  refine Works.ite (fun _ => ?_) (fun _ => Works.refl s)
  dsimp only
  exact ((((works_takeRuns s).trans (Works.foldl _ (fun x _ => works_adoptOne x) _ _)).trans
    (Works.foldl _ works_completeRun _ _)).trans (Works.foldl _ works_failRun _ _)).trans
    (works_testNoAdopter _)

theorem works_queueLeave (s : State) : Works s s.queueLeave := by
  unfold State.queueLeave
  exact Works.ite (fun _ => works_queueFrame s _) (fun _ => Works.refl s)

theorem works_queueShutDone (s : State) (k : Slot) : Works s (s.queueShutDone k) := by
  unfold State.queueShutDone; split
  · split
    · exact Works.refl s
    · exact works_queueFrame s _
    · exact Works.ite (fun _ => works_queueFrame s _)
        (fun _ => (works_report s _ _ _ _ _).trans (works_queueFrame _ _))
  · exact Works.refl s

theorem works_queueDue (s : State) (k : Slot) : Works s (s.queueDue k) := by
  unfold State.queueDue; split
  · split
    · exact works_queueFrame s _
    · exact works_queueShutDone s k
  · exact Works.refl s

theorem works_queueAbsent (s : State) (st : Station) : Works s (s.queueAbsent st) := by
  unfold State.queueAbsent
  exact Works.ite (fun _ => works_queueFrame s _) (fun _ => Works.refl s)

theorem works_absenceScan (s : State) : Works s s.absenceScan :=
  Works.foldl _ (fun x st => Works.ite (fun _ => Works.refl x) (fun _ => works_queueAbsent x st)) _ s

theorem works_afterMember (s : State) : Works s s.afterMember :=
  (((((Works.foldl _ works_queueDue _ s).trans (works_policyPass _ _)).trans (works_evalPressure _)).trans
    (works_absenceScan _)).trans (works_dutyEval _)).trans (works_queueLeave _)

/-! ### Work an applied frame leads to (R54, R114, R117) -/

theorem works_postPeer (s : State) (st : Station) : Works s (s.postPeer st) := works_post s _

theorem works_postRosterChange (s : State) (st : Station) (b : Body) :
    Works s (s.postRosterChange st b) := by
  unfold State.postRosterChange; split <;> first | exact works_postPeer s _ | exact Works.refl s

theorem works_reportDigest (s : State) (st : Station) (b : Body) : Works s (s.reportDigest st b) := by
  unfold State.reportDigest; split
  · exact Works.ite (fun _ => Works.refl s) (fun _ => works_report s _ _ _ _ _)
  · exact Works.refl s

theorem works_recallAnswered (s : State) (st : Station) (k : Slot) (t : ReqTag) :
    Works s (s.recallAnswered st k t) := by
  unfold State.recallAnswered; dsimp only; split
  · refine Works.ite (fun _ => ?_) (fun _ => works_report s _ _ _ _ _)
    split
    · exact (works_withdraw s _).trans (works_setRequest _ _ (e := _))
    · exact (works_withdraw s _).trans (works_setRequest _ _ (e := _))
    · exact (works_withdraw s _).trans (works_setRequest _ _ (e := _))
    · exact works_report s _ _ _ _ _
  · exact works_report s _ _ _ _ _

theorem works_answerOf (s : State) (st : Station) (b : Body) : Works s (s.answerOf st b) := by
  unfold State.answerOf; split
  · exact Works.ite (fun _ => works_recallAnswered s _ _ _) (fun _ => Works.refl s)
  · exact Works.refl s

/-- The request list is emptied. -/
theorem works_endRequest (s : State) : Works s (s.onDir fun d => { d with request := none }) :=
  works_onDir s _ rfl id (fun ⟨_, h⟩ => by cases h)

theorem works_recallReleased (s : State) : Works s s.recallReleased := by
  unfold State.recallReleased; split
  · exact Works.ite (fun _ => Works.refl s) (fun _ => works_endRequest s)
  · exact Works.refl s

theorem works_afterFrame (s : State) : Works s s.afterFrame := by
  unfold State.afterFrame
  exact Works.ite (fun _ => (((works_policyPass s _).trans (works_evalPressure _)).trans
    (works_dutyEval _)).trans (works_queueLeave _)) (fun _ => Works.refl s)

end Sys2Proof.Machine
end

