-- ==== Sys2Proof/Laws/Keeps.lean ====
section
/-! SUPPORT. What each operation that is more than the station's own work keeps: the bounds and the laws
of the replica (`Safe`), and, where the membership state does not change, what the membership state is
set beside (`Calm`). For an operation that changes the membership state, `moded_f` says that the new
state is sound too. -/

-- One theorem at a time: each proof that waits holds a thread, and the check has memory for few.
set_option Elab.async false

namespace Sys2Proof.Machine

/-- The bounds and the laws of the replica survive. -/
structure Safe (s t : State) : Prop where
  bounded : s.Bounded → t.Bounded
  sound : s.dir.rep.Sound → t.dir.rep.Sound

/-- The bounds and the laws survive, and the membership state and what goes with it are as before. -/
structure Calm (s t : State) : Prop extends Safe s t where
  state : t.mem.state = s.mem.state := by rfl
  cfg : t.mem.cfg = s.mem.cfg := by rfl
  off : t.bus.receiver = .off ↔ s.bus.receiver = .off := by exact Iff.rfl
  asks : t.asks → s.asks := by exact id

namespace Safe

theorem refl (s : State) : Safe s s := ⟨id, id⟩

theorem trans {s t u : State} (h : Safe s t) (g : Safe t u) : Safe s u :=
  ⟨g.bounded ∘ h.bounded, g.sound ∘ h.sound⟩

theorem after {s t u : State} (g : Safe t u) (h : Safe s t) : Safe s u := h.trans g

theorem ite {s t u : State} {c : Prop} [Decidable c] (h : c → Safe s t) (g : ¬c → Safe s u) :
    Safe s (if c then t else u) := by
  by_cases hc : c
  · rw [if_pos hc]; exact h hc
  · rw [if_neg hc]; exact g hc

end Safe

namespace Calm

theorem refl (s : State) : Calm s s := { toSafe := Safe.refl s }

theorem trans {s t u : State} (h : Calm s t) (g : Calm t u) : Calm s u :=
  { toSafe := h.toSafe.trans g.toSafe, state := g.state.trans h.state, cfg := g.cfg.trans h.cfg,
    off := g.off.trans h.off, asks := fun x => h.asks (g.asks x) }

theorem after {s t u : State} (g : Calm t u) (h : Calm s t) : Calm s u := h.trans g

theorem ite {s t u : State} {c : Prop} [Decidable c] (h : c → Calm s t) (g : ¬c → Calm s u) :
    Calm s (if c then t else u) := by
  by_cases hc : c
  · rw [if_pos hc]; exact h hc
  · rw [if_neg hc]; exact g hc

theorem foldl {α : Type} (f : State → α → State) (h : ∀ s x, Calm s (f s x)) (l : List α) (s : State) :
    Calm s (l.foldl f s) := by
  induction l generalizing s with
  | nil => exact refl s
  | cons x l ih => exact (h s x).trans (ih (f s x))

theorem moded {s t : State} (h : Calm s t) (m : s.Moded) : t.Moded :=
  { receiver := by rw [h.off, h.state]; exact m.receiver
    configured := by rw [h.cfg, h.state]; exact m.configured
    asking := fun x => by rw [h.state]; exact m.asking (h.asks x) }

end Calm

theorem Works.calm {s t : State} (h : Works s t) : Calm s t :=
  { bounded := fun b =>
      { intakeQueue := by rw [h.queue]; exact b.intakeQueue
        results := h.results b.results, claims := h.claims b.claims, log := h.log b.log, tx := h.tx b.tx
        rx := by rw [h.rx]; exact b.rx
        directives := by rw [h.link]; exact b.directives
        opens := by rw [h.link]; exact b.opens
        closes := by rw [h.link]; exact b.closes
        notices := h.notices b.notices }
    sound := fun r => by rw [h.rep]; exact r
    state := h.state, cfg := h.cfg, off := by rw [h.receiver], asks := h.asks }

theorem Works.safe {s t : State} (h : Works s t) : Safe s t := h.calm.toSafe

/-! ### Block updates -/

theorem calm_onIntake (s : State) (f : Intake → Intake)
    (hq : s.intake.queue.length ≤ 32 → (f s.intake).queue.length ≤ 32 := by exact id)
    (hr : s.intake.results.length ≤ 32 → (f s.intake).results.length ≤ 32 := by exact id) :
    Calm s (s.onIntake f) :=
  { bounded := fun b => { b with intakeQueue := hq b.intakeQueue, results := hr b.results }
    sound := id }

theorem calm_onCls (s : State) (f : Classifier → Classifier) : Calm s (s.onCls f) :=
  { bounded := fun b => { b with }, sound := id }

theorem calm_onPlc (s : State) (f : Placement → Placement)
    (h : s.plc.claims.length ≤ 4 → (f s.plc).claims.length ≤ 4 := by exact id) : Calm s (s.onPlc f) :=
  (works_onPlc s f h).calm

theorem calm_onDir (s : State) (f : Directory → Directory)
    (hr : s.dir.rep.Sound → (f s.dir).rep.Sound := by exact id)
    (hl : s.dir.log.length ≤ 16 → (f s.dir).log.length ≤ 16 := by exact id)
    (ha : (s.onDir f).asks → s.asks := by exact id) : Calm s (s.onDir f) :=
  { bounded := fun b => { b with log := hl b.log }, sound := hr, asks := ha }

theorem calm_onBus (s : State) (f : Bus → Bus)
    (ht : s.bus.tx.length ≤ 8 → (f s.bus).tx.length ≤ 8 := by exact id)
    (hr : s.bus.rx.length ≤ 4 → (f s.bus).rx.length ≤ 4 := by exact id)
    (ho : (f s.bus).receiver = .off ↔ s.bus.receiver = .off := by exact Iff.rfl) : Calm s (s.onBus f) :=
  { bounded := fun b => { b with tx := ht b.tx, rx := hr b.rx }, sound := id, off := ho }

theorem safe_onBus (s : State) (f : Bus → Bus)
    (ht : s.bus.tx.length ≤ 8 → (f s.bus).tx.length ≤ 8 := by exact id)
    (hr : s.bus.rx.length ≤ 4 → (f s.bus).rx.length ≤ 4 := by exact id) : Safe s (s.onBus f) :=
  ⟨fun b => { b with tx := ht b.tx, rx := hr b.rx }, id⟩

theorem safe_onDir (s : State) (f : Directory → Directory)
    (hr : s.dir.rep.Sound → (f s.dir).rep.Sound := by exact id)
    (hl : s.dir.log.length ≤ 16 → (f s.dir).log.length ≤ 16 := by exact id) : Safe s (s.onDir f) :=
  ⟨fun b => { b with log := hl b.log }, hr⟩

theorem calm_onMem (s : State) (f : Members → Members) (hs : (f s.mem).state = s.mem.state := by rfl)
    (hc : (f s.mem).cfg = s.mem.cfg := by rfl) : Calm s (s.onMem f) :=
  { bounded := fun b => { b with }, sound := id, state := hs, cfg := hc }

theorem safe_onMem (s : State) (f : Members → Members) : Safe s (s.onMem f) :=
  ⟨fun b => { b with }, id⟩

theorem calm_onLink (s : State) (f : Link → Link)
    (hq : s.link.queue.length ≤ 16 → (f s.link).queue.length ≤ 16 := by exact id)
    (ho : s.link.opens.length ≤ 4 → (f s.link).opens.length ≤ 4 := by exact id)
    (hc : s.link.closes.length ≤ 4 → (f s.link).closes.length ≤ 4 := by exact id) : Calm s (s.onLink f) :=
  { bounded := fun b => { b with directives := hq b.directives, opens := ho b.opens, closes := hc b.closes }
    sound := id }

theorem calm_onLine (s : State) (f : Lines → Lines) : Calm s (s.onLine f) :=
  { bounded := fun b => { b with }, sound := id }

theorem calm_onFlt (s : State) (f : Faults → Faults)
    (h : s.flt.notices.length ≤ 16 → (f s.flt).notices.length ≤ 16 := by exact id) :
    Calm s (s.onFlt f) :=
  { bounded := fun b => { b with notices := h b.notices }, sound := id }

/-! ### The end of every command -/

/-- Every command outside a reset ends by settling the intake head and the offer (R7, R181). -/
theorem calm_settle (s : State) : Calm s s.settleHead.settleOffer :=
  (works_settleHead s).calm.trans (works_settleOffer _).calm

/-! ### Holdings removed (R76, R163) -/

theorem calm_removeHolding (s : State) (k : Slot) : Calm s (s.removeHolding k) := by
  unfold State.removeHolding; split
  · exact Calm.refl s
  · dsimp only
    refine (((Works.foldl _ works_endResidency _ s).calm.trans (calm_onDir _ _)).trans
      (calm_onPlc _ _ ?_)).trans (calm_onLink _ _ id ?_ ?_)
    · exact fun h => le_trans (List.length_filter_le _ _) h
    · intro h; simpa [Link.release] using h
    · intro h; simpa [Link.release] using h

theorem Replica.empty_sound : Replica.empty.Sound :=
  { funded := fun k => by simp [Replica.empty, Replica.budget]
    holders := fun k h hk => by simp [Replica.empty, DirEntry.holder?] at hk }

theorem calm_emptyReplica (s : State) : Calm s s.emptyReplica := by
  unfold State.emptyReplica
  refine ((Calm.foldl _ calm_removeHolding _ s).trans (calm_onPlc _ _ (fun _ => by simp))).trans
    (calm_onDir _ _ (fun _ => Replica.empty_sound) (fun _ => by simp) ?_)
  rintro ⟨e, he⟩; cases he

theorem emptyReplica_quiet (s : State) : ¬ s.emptyReplica.asks := by
  rintro ⟨e, he⟩; cases he

theorem calm_forget (s : State) : Calm s s.forget := by
  unfold State.forget
  exact (calm_emptyReplica s).trans ((fun u => Calm.after (calm_onMem _ _) (calm_onDir u _) :
    ∀ u : State, Calm u ((u.onDir fun d => { d with cooling := none }).onMem fun m =>
      { m with duty := Vector.replicate 8 none, adoption := [], noAdopter := false, attempts := 0,
               retryTimer := none })) s.emptyReplica)

theorem forget_quiet (s : State) : ¬ s.forget.asks := by
  rintro ⟨e, he⟩; cases he

/-! ### Changes of membership state (R120) -/

theorem Bus.enter_tx (b : Bus) (n : Nat) (o m : MemberState) (h : b.tx.length ≤ 8) :
    (b.enter n o m).tx.length ≤ 8 := by
  have hw := Bus.withdraw_tx b (fun q => !permitted m q.body.kind)
  unfold Bus.enter
  cases m <;> simp only [List.length_nil] <;> omega

theorem Bus.enter_rx (b : Bus) (n : Nat) (o m : MemberState) (h : b.rx.length ≤ 4) :
    (b.enter n o m).rx.length ≤ 4 := by
  have hw : ∀ p, (b.withdraw p).rx = b.rx := fun p => by unfold Bus.withdraw; split <;> rfl
  unfold Bus.enter
  cases m <;> simp only [List.length_nil, hw] <;> omega

theorem Bus.enter_off (b : Bus) (n : Nat) (o m : MemberState) :
    (b.enter n o m).receiver = if m = .dormant then .off else b.receiver := by
  have hw : ∀ p, (b.withdraw p).receiver = b.receiver := fun p => by unfold Bus.withdraw; split <;> rfl
  unfold Bus.enter
  cases m <;> simp [hw]

theorem enter_state (s : State) (m : MemberState) : (s.enter m).mem.state = m := rfl

theorem enter_cfg (s : State) (m : MemberState) : (s.enter m).mem.cfg = s.mem.cfg := rfl

theorem enter_asks (s : State) (m : MemberState) : (s.enter m).asks ↔ s.asks := Iff.rfl

theorem safe_enter (s : State) (m : MemberState) : Safe s (s.enter m) := by
  unfold State.enter; dsimp only
  exact Safe.after (works_post _ _).safe (Safe.after
    (safe_onBus _ _ (Bus.enter_tx _ _ _ _) (Bus.enter_rx _ _ _ _)) (safe_onMem s _))

theorem moded_enter {s : State} {m : MemberState} (hr : s.bus.receiver ≠ .off) (hc : s.mem.cfg ≠ none)
    (hm : m ≠ .unconfigured) (ha : s.asks → m = .catchup) : (s.enter m).Moded :=
  { receiver := by
      show (s.bus.enter _ _ m).receiver = .off ↔ m = .dormant
      rw [Bus.enter_off]; split <;> simp_all
    configured := by
      show s.mem.cfg = none ↔ m = .unconfigured
      simp [hc, hm]
    asking := ha }

/-- In a sound state the receiver is on outside DORMANT. -/
theorem State.Moded.on {s : State} (m : s.Moded) (h : s.mem.state ≠ .dormant) :
    s.bus.receiver ≠ .off := fun x => h (m.receiver.mp x)

/-- In a sound state the parameters are configured outside UNCONFIGURED. -/
theorem State.Moded.set {s : State} (m : s.Moded) (h : s.mem.state ≠ .unconfigured) :
    s.mem.cfg ≠ none := fun x => h (m.configured.mp x)

theorem safe_startListen (s : State) : Safe s s.startListen := (safe_enter s _).trans (safe_onMem _ _)

theorem moded_startListen {s : State} (hr : s.bus.receiver ≠ .off) (hc : s.mem.cfg ≠ none)
    (ha : ¬ s.asks) : s.startListen.Moded :=
  (calm_onMem _ _).moded (moded_enter hr hc (by decide) (fun x => absurd x ha))

theorem safe_censusToListen (s : State) : Safe s s.censusToListen :=
  (safe_onMem s _).trans (safe_startListen _)

theorem moded_censusToListen {s : State} (m : s.Moded) (h : s.mem.state = .census) :
    s.censusToListen.Moded := by
  refine moded_startListen (m.on (by simp [h])) (m.set (by simp [h])) (fun x => ?_)
  have := m.asking x; simp [h] at this

theorem safe_namedAbsent (s : State) (p : Option Station) : Safe s (s.namedAbsent p) := by
  unfold State.namedAbsent; dsimp only
  have h := (works_report s .namedAbsent none none p none).safe.trans (calm_forget _).toSafe
  exact Safe.ite (fun _ => (h.trans (safe_onMem _ _)).trans (safe_enter _ _))
    (fun _ => h.trans (safe_startListen _))

theorem moded_namedAbsent {s : State} (m : s.Moded) (p : Option Station) (hd : s.mem.state ≠ .dormant)
    (hu : s.mem.state ≠ .unconfigured) : (s.namedAbsent p).Moded := by
  unfold State.namedAbsent; dsimp only
  have c := (works_report s .namedAbsent none none p none).calm.trans (calm_forget _)
  have m1 := c.moded m
  have r1 := m1.on (by rw [c.state]; exact hd)
  have c1 := m1.set (by rw [c.state]; exact hu)
  have q := forget_quiet (s.report .namedAbsent none none p none)
  generalize (s.report .namedAbsent none none p none).forget = t at r1 c1 q
  split
  · exact moded_enter r1 c1 (by decide) (fun x => absurd x q)
  · exact moded_startListen r1 c1 q

theorem safe_bar (s : State) : Safe s s.bar := Safe.after (safe_enter _ _) (calm_emptyReplica s).toSafe

theorem moded_bar {s : State} (m : s.Moded) (hd : s.mem.state ≠ .dormant)
    (hu : s.mem.state ≠ .unconfigured) : s.bar.Moded := by
  have c := calm_emptyReplica s
  have m1 := c.moded m
  exact moded_enter (m1.on (by rw [c.state]; exact hd)) (m1.set (by rw [c.state]; exact hu)) (by decide)
    (fun x => absurd x (emptyReplica_quiet s))

/-! ### Attempts (R128, R130, R135) -/

theorem safe_beginAttempt (s : State) : Safe s s.beginAttempt := by
  unfold State.beginAttempt; dsimp only
  exact Safe.after (works_loadRequest _ _).safe (Safe.after (works_queueFrame _ _).safe
    (safe_onDir _ _ id (fun _ => by simp)))

theorem beginAttempt_state (s : State) : s.beginAttempt.mem = s.mem := rfl

theorem beginAttempt_receiver (s : State) : s.beginAttempt.bus.receiver = s.bus.receiver :=
  (works_queue _ _).receiver

theorem moded_beginAttempt {s : State} (m : s.Moded) (h : s.mem.state = .catchup) :
    s.beginAttempt.Moded :=
  { receiver := by rw [beginAttempt_receiver, beginAttempt_state]; exact m.receiver
    configured := m.configured
    asking := fun _ => h }

theorem safe_isolate (s : State) : Safe s s.isolate :=
  Safe.after (safe_enter _ _) (Safe.after (safe_onMem _ _) (Safe.after (calm_onFlt _ _).toSafe
    (works_report s _ _ _ _ _).safe))

theorem moded_isolate {s : State} (m : s.Moded) (hd : s.mem.state ≠ .dormant)
    (hu : s.mem.state ≠ .unconfigured) (ha : ¬ s.asks) : s.isolate.Moded :=
  moded_enter (m.on hd) (m.set hu) (by decide) (fun x => absurd x ha)

theorem safe_countFailure (s : State) (f : State → State) (h : ∀ t, Safe t (f t)) :
    Safe s (s.countFailure f) := by
  unfold State.countFailure; dsimp only
  exact Safe.ite (fun _ => (safe_onMem s _).trans (h _)) (fun _ => (safe_onMem s _).trans (safe_isolate _))

theorem moded_countFailure {s : State} (m : s.Moded) (f : State → State) (hd : s.mem.state ≠ .dormant)
    (hu : s.mem.state ≠ .unconfigured) (ha : ¬ s.asks)
    (h : ∀ t, Calm s t → t.Moded → (f t).Moded) : (s.countFailure f).Moded := by
  have c : Calm s (s.onMem fun m => { m with attempts := m.attempts + 1 }) := calm_onMem s _
  unfold State.countFailure; dsimp only
  split
  · exact h _ c (c.moded m)
  · exact moded_isolate (c.moded m) hd hu ha

theorem safe_attemptFail (s : State) : Safe s s.attemptFail := by
  unfold State.attemptFail; dsimp only
  exact Safe.after (safe_countFailure _ _ (fun t => safe_onMem t _))
    (Safe.after (works_report _ _ _ _ _ _).safe
      (Safe.after (safe_onDir _ _ id (fun _ => by simp)) (works_withdraw s _).safe))

theorem moded_attemptFail {s : State} (m : s.Moded) (h : s.mem.state = .catchup) :
    s.attemptFail.Moded := by
  unfold State.attemptFail; dsimp only
  have c : Calm s (((s.withdraw Body.isAsk).onDir fun d =>
      { d with request := none, log := [], snap := [] }).report .catchupFailed (peer := s.responder)) :=
    Calm.after (works_report _ _ _ _ _ _).calm (Calm.after
      (calm_onDir _ _ id (fun _ => by simp) (by rintro ⟨_, h⟩; cases h)) (works_withdraw s _).calm)
  refine moded_countFailure (c.moded m) _ (by rw [c.state, h]; decide) (by rw [c.state, h]; decide) ?_
    (fun t _ mt => (calm_onMem t _).moded mt)
  rintro ⟨_, h⟩; cases h

theorem safe_joinFail (s : State) : Safe s s.joinFail :=
  Safe.after (safe_countFailure _ _ safe_startListen)
    (Safe.after (works_report _ _ _ _ _ _).safe (works_withdraw s _).safe)

theorem moded_joinFail {s : State} (m : s.Moded) (h : s.mem.state = .joining) : s.joinFail.Moded := by
  have c : Calm s ((s.withdraw Body.isJoin).report .catchupFailed (kind := some .join)) :=
    (works_withdraw s _).calm.trans (works_report _ _ _ _ _ _).calm
  have hs : ((s.withdraw Body.isJoin).report .catchupFailed (kind := some .join)).mem.state = .joining :=
    c.state.trans h
  have q : ¬ ((s.withdraw Body.isJoin).report .catchupFailed (kind := some .join)).asks := fun x => by
    have := (c.moded m).asking x; rw [hs] at this; cases this
  refine moded_countFailure (c.moded m) _ (by rw [hs]; decide) (by rw [hs]; decide) q (fun t ct mt => ?_)
  have ht : t.mem.state = .joining := ct.state.trans hs
  exact moded_startListen (mt.on (by simp [ht])) (mt.set (by simp [ht])) (fun x => q (ct.asks x))

theorem safe_joinTaken (s : State) : Safe s s.joinTaken :=
  Safe.after (works_policyPass _ _).safe (Safe.after (safe_beginAttempt _) (safe_enter s _))

theorem moded_joinTaken {s : State} (m : s.Moded) (h : s.mem.state = .joining) : s.joinTaken.Moded :=
  (works_policyPass _ _).calm.moded
    (moded_beginAttempt (moded_enter (m.on (by simp [h])) (m.set (by simp [h])) (by decide) (fun _ => rfl))
      rfl)

/-! ### Going stale (R53) -/

theorem safe_goStale (s : State) : Safe s s.goStale := by
  unfold State.goStale; dsimp only
  exact Safe.after (works_policyPass _ _).safe (Safe.after (safe_beginAttempt _)
    (Safe.after (safe_onMem _ _) (Safe.after
      (calm_onPlc _ _ fun h => le_trans (List.length_filter_le _ _) h).toSafe
      (Safe.after (safe_onDir _ _) (safe_enter s .catchup)))))

theorem moded_goStale {s : State} (m : s.Moded) (hd : s.mem.state ≠ .dormant)
    (hu : s.mem.state ≠ .unconfigured) : s.goStale.Moded := by
  unfold State.goStale; dsimp only
  have e : (s.enter .catchup).Moded := moded_enter (m.on hd) (m.set hu) (by decide) (fun _ => rfl)
  refine (works_policyPass _ _).calm.moded (moded_beginAttempt ?_ rfl)
  exact ⟨e.receiver, e.configured, fun _ => rfl⟩

end Sys2Proof.Machine
end

