-- ==== Sys2Proof/Laws/Replica.lean ====
section
/-! SUPPORT. Tables read after an update, and the laws of a replica (R40, R43) through each thing that
changes one: sealing, a valid frame from a PRESENT sender, and an installed snapshot. -/

-- One theorem at a time: each proof that waits holds a thread, and the check has memory for few.
set_option Elab.async false

namespace Sys2Proof.Machine

/-! ### Tables -/

@[simp] theorem put_get {n : Nat} {α : Type} (t : Tab n α) (i j : Fin n) (x : α) :
    (put t i x)[j] = if j = i then x else t[j] := by
  by_cases h : j = i
  · subst h; simp [put]
  · have h' : i.val ≠ j.val := fun e => h (Fin.ext e.symm)
    simp [put, h, h']

@[simp] theorem mapIdx_get {n : Nat} {α β : Type} (t : Tab n α) (f : Fin n → α → β) (j : Fin n) :
    (mapIdx t f)[j] = f j t[j] := by
  simp [mapIdx]

/-! ### Held slots -/

theorem Replica.heldCount_zero {r : Replica} {st : Station} (h : r.heldCount st = 0) (k : Slot) :
    r.dir[k].holder? ≠ some st := by
  intro hk
  have : k ∈ allSlots.filter (r.holds st) := by
    simp [allSlots, Replica.holds, hk, -Fin.getElem_fin]
  rw [Replica.heldCount, List.length_eq_zero_iff] at h
  rw [h] at this; cases this

/-! ### One slot, one roster entry, or all slots of a station -/

theorem Replica.setSlot_sound {r : Replica} (s : r.Sound) (k : Slot) (e : DirEntry)
    (hf : r.dir[k] ≠ .unfunded) (he : e ≠ .unfunded)
    (hh : ∀ h, e.holder? = some h → r.isPresent h = true) : (r.setSlot k e).Sound :=
  { funded := fun j => by
      have := s.funded j
      simp only [Replica.setSlot, put_get, Replica.budget] at this ⊢
      split
      · subst j
        exact ⟨fun x => absurd x he, fun x => absurd (this.mpr x) hf⟩
      · exact this
    holders := fun j h => by
      simp only [Replica.setSlot, put_get]
      split
      · exact hh h
      · exact s.holders j h }

theorem Replica.setRoster_sound {r : Replica} (s : r.Sound) (st : Station) (f : RosterEntry → RosterEntry)
    (h : (∃ k : Slot, r.dir[k].holder? = some st) → (f r.roster[st]).state = .present) :
    (r.setRoster st f).Sound :=
  { funded := s.funded
    holders := fun k x hx => by
      have := s.holders k x hx
      simp only [Replica.isPresent, Replica.setRoster, put_get] at this ⊢
      split
      · subst x; rw [h ⟨k, hx⟩]; rfl
      · exact this }

theorem Replica.orphanEntry_holder {h x : Station} {e : DirEntry}
    (hx : (Replica.orphanEntry h e).holder? = some x) : e.holder? = some x ∧ x ≠ h := by
  cases e with
  | opened h' k g =>
    by_cases hn : h' = h
    · simp [Replica.orphanEntry, hn, DirEntry.holder?] at hx
    · simp only [Replica.orphanEntry, if_neg hn, DirEntry.holder?, Option.some.injEq] at hx ⊢
      exact ⟨hx, hx ▸ hn⟩
  | closing h' k g c a =>
    by_cases hn : h' = h
    · simp [Replica.orphanEntry, hn, DirEntry.holder?] at hx
    · simp only [Replica.orphanEntry, if_neg hn, DirEntry.holder?, Option.some.injEq] at hx ⊢
      exact ⟨hx, hx ▸ hn⟩
  | unfunded => cases hx
  | free => cases hx
  | orphaned => cases hx
  | quarantined => cases hx

theorem Replica.orphanEntry_unfunded (h : Station) (e : DirEntry) :
    Replica.orphanEntry h e = .unfunded ↔ e = .unfunded := by
  cases e <;> simp only [Replica.orphanEntry] <;> try split
  all_goals simp

theorem Replica.orphan_dir (r : Replica) (h : Station) (k : Slot) :
    (r.orphan h).dir[k] = Replica.orphanEntry h r.dir[k] := mapIdx_get _ _ _

theorem Replica.orphan_budget (r : Replica) (h : Station) : (r.orphan h).budget = r.budget := by
  simp only [Replica.budget, Replica.orphan]

theorem Replica.orphan_present (r : Replica) (h st : Station) :
    (r.orphan h).isPresent st = r.isPresent st := by
  simp only [Replica.isPresent, Replica.orphan]

theorem Replica.orphan_sound {r : Replica} (s : r.Sound) (h : Station) : (r.orphan h).Sound :=
  { funded := fun k => by
      rw [Replica.orphan_dir, Replica.orphanEntry_unfunded, Replica.orphan_budget]
      exact s.funded k
    holders := fun k x hx => by
      rw [Replica.orphan_dir] at hx
      have := s.holders k x (Replica.orphanEntry_holder hx).1
      rw [Replica.orphan_present]; exact this }

/-- An orphaned station holds nothing. -/
theorem Replica.orphan_holds_none (r : Replica) (h : Station) (k : Slot) :
    (r.orphan h).dir[k].holder? ≠ some h := by
  intro hx
  rw [Replica.orphan_dir] at hx
  exact (Replica.orphanEntry_holder hx).2 rfl

/-! ### Applied frames (R52, R54) -/

/-- The effect of a valid frame from a PRESENT sender, or of a JOIN, keeps the laws. -/
theorem Replica.effect_sound {r : Replica} (s : r.Sound) (sender : Station) (b : Body)
    (hp : b.kind = .join ∨ r.isPresent sender = true) (hv : r.valid sender b = true) :
    (r.effect sender b).Sound := by
  have old : ∀ k : Slot, r.dir[k] ≠ .unfunded ↔ k.val < r.budget := fun k => by
    rw [Ne, s.funded k]; omega
  cases b <;> simp only [Replica.effect]
  case claim k kind =>
    simp only [Replica.valid, Bool.and_eq_true, decide_eq_true_eq] at hv
    refine Replica.setSlot_sound s k _ ((old k).2 hv.1.1) (by simp) (fun h e => ?_)
    rcases hp with hp | hp
    · cases hp
    · simp only [DirEntry.holder?, Option.some.injEq] at e; rw [← e]; exact hp
  case shut k c a =>
    rcases hp with hp | hp
    · cases hp
    · simp only [Replica.valid] at hv
      rcases he : r.dir[k] with _ | _ | ⟨h, kd, g⟩ | ⟨h, kd, g, c', a'⟩ | ⟨f, kd, g, a'⟩ | _ <;>
        simp only [he] at hv <;> try (cases c <;> simp at hv; done)
      · refine Replica.setSlot_sound s k _ (by simp [he, -Fin.getElem_fin]) (by simp [Replica.shutEntry]) (fun x e => ?_)
        simp only [Replica.shutEntry, DirEntry.holder?, Option.some.injEq] at e
        exact e ▸ s.holders k h (by simp [he, DirEntry.holder?, -Fin.getElem_fin])
      · refine Replica.setSlot_sound s k _ (by simp [he, -Fin.getElem_fin]) (by simp [Replica.shutEntry]) (fun x e => ?_)
        simp only [Replica.shutEntry, DirEntry.holder?, Option.some.injEq] at e
        exact e ▸ hp
  case shutDone k o =>
    simp only [Replica.valid] at hv
    rcases he : r.dir[k] with _ | _ | ⟨h, kd, g⟩ | ⟨h, kd, g, c', a'⟩ | ⟨f, kd, g, a'⟩ | _ <;>
      simp only [he] at hv <;> try cases hv
    cases o <;> refine Replica.setSlot_sound s k _ (by simp [he, -Fin.getElem_fin]) (by simp [Replica.shutDoneEntry]) (fun x e => ?_) <;>
      simp only [Replica.shutDoneEntry, DirEntry.holder?, Option.some.injEq, reduceCtorEq] at e
    exact e ▸ s.holders k h (by simp [he, DirEntry.holder?, -Fin.getElem_fin])
  case restore k =>
    simp only [Replica.valid, beq_iff_eq] at hv
    exact Replica.setSlot_sound s k _ (by simp [hv, -Fin.getElem_fin]) (by simp) (fun x e => by simp [DirEntry.holder?] at e)
  case absent st =>
    exact Replica.setRoster_sound (Replica.orphan_sound s st) st _
      (fun ⟨k, hk⟩ => absurd hk (Replica.orphan_holds_none r st k))
  case leave st =>
    simp only [Replica.valid, Bool.and_eq_true, beq_iff_eq] at hv
    exact Replica.setRoster_sound s sender _ (fun ⟨k, hk⟩ => absurd hk (Replica.heldCount_zero hv.1 k))
  case join st q a d =>
    refine Replica.setRoster_sound ?_ sender _ (fun _ => rfl)
    split
    · exact Replica.orphan_sound s sender
    · exact s
  case takeover h => exact ⟨s.funded, s.holders⟩
  case takeoverEnd h o =>
    have s' : ({ r with runs := put r.runs h none } : Replica).Sound := ⟨s.funded, s.holders⟩
    cases o
    · exact s'
    · exact Replica.setRoster_sound s' sender _ (fun ⟨k, hk⟩ => by
        have := s.holders k sender hk
        simpa [Replica.isPresent] using this)
  all_goals exact s

theorem Replica.apply_sound {r : Replica} (s : r.Sound) (f : Frame)
    (hp : f.body.kind = .join ∨ r.isPresent f.sender = true) (ha : r.applies f = true) :
    (r.apply f.sender f.body).Sound := by
  unfold Replica.apply
  split
  · have s' : ({ r with gen := r.gen + 1 } : Replica).Sound := ⟨s.funded, s.holders⟩
    refine Replica.effect_sound s' f.sender f.body hp ?_
    simp only [Replica.applies, Bool.or_eq_true, Bool.and_eq_true] at ha
    rcases ha with h | h
    · have hj := beq_iff_eq.mp h
      cases hb : f.body <;> simp_all [Body.kind, Replica.valid]
    · have : ∀ (b : Body), r.valid f.sender b = ({ r with gen := r.gen + 1 } : Replica).valid f.sender b := by
        intro b; cases b <;> rfl
      rw [← this]; exact h.2
  · exact s

/-! ### Sealing and snapshots (R40, R125, R133) -/

theorem Replica.ofSeal_sound (l : List SealEntry) (p : Params) : (Replica.ofSeal l p).Sound :=
  { funded := fun k => by
      simp only [Replica.ofSeal, Replica.budget, sealedDir, Fin.getElem_fin, Vector.getElem_ofFn]
      split <;> simp <;> omega
    holders := fun k h hk => by
      simp only [Replica.ofSeal, sealedDir, Fin.getElem_fin, Vector.getElem_ofFn] at hk
      split at hk <;> cases hk }

theorem Replica.snapshotOk_sound {r : Replica} (h : r.snapshotOk = true) : r.Sound := by
  unfold Replica.snapshotOk at h
  split at h
  · cases h
  · rename_i p hp
    simp only [Bool.and_eq_true, List.all_eq_true] at h
    have hk := fun k => h.2 k (List.mem_finRange k)
    refine ⟨fun k => ?_, fun k x hx => ?_⟩
    · have := (hk k).1
      simp only [beq_iff_eq, Replica.budget, hp] at this ⊢
      constructor
      · intro e; simpa [e] using this
      · intro e; simpa [e] using this
    · have := (hk k).2
      rw [hx] at this; exact this

end Sys2Proof.Machine
end

