-- ==== Sys2Proof/Laws/Legal.lean ====
section
/-! SUPPORT. What the taking of a frame keeps: bounds, the laws of the replica and the membership state
(`Legal`), for the application of directory-kind frames (R54), the install of a snapshot (R133) and
each of the eighteen kinds. -/

-- One theorem at a time: each proof that waits holds a thread, and the check has memory for few.
set_option Elab.async false

namespace Sys2Proof.Machine

/-- The bounds, the laws of the replica and what the membership state is set beside survive. -/
structure Legal (s t : State) : Prop extends Safe s t where
  moded : s.Moded → t.Moded

namespace Legal

theorem refl (s : State) : Legal s s := ⟨Safe.refl s, id⟩

theorem trans {s t u : State} (h : Legal s t) (g : Legal t u) : Legal s u :=
  ⟨h.toSafe.trans g.toSafe, fun m => g.moded (h.moded m)⟩

theorem after {s t u : State} (g : Legal t u) (h : Legal s t) : Legal s u := h.trans g

theorem ite {s t u : State} {c : Prop} [Decidable c] (h : c → Legal s t) (g : ¬c → Legal s u) :
    Legal s (if c then t else u) := by
  by_cases hc : c
  · rw [if_pos hc]; exact h hc
  · rw [if_neg hc]; exact g hc

end Legal

theorem Calm.legal {s t : State} (h : Calm s t) : Legal s t := ⟨h.toSafe, h.moded⟩

theorem Works.legal {s t : State} (h : Works s t) : Legal s t := h.calm.legal

/-! ### Changes of membership state, by the state they start from -/

theorem legal_namedAbsent (s : State) (p : Option Station) (hd : s.mem.state ≠ .dormant)
    (hu : s.mem.state ≠ .unconfigured) : Legal s (s.namedAbsent p) :=
  ⟨safe_namedAbsent s p, fun m => moded_namedAbsent m p hd hu⟩

theorem legal_goStale (s : State) (hd : s.mem.state ≠ .dormant) (hu : s.mem.state ≠ .unconfigured) :
    Legal s s.goStale := ⟨safe_goStale s, fun m => moded_goStale m hd hu⟩

theorem legal_bar (s : State) (hd : s.mem.state ≠ .dormant) (hu : s.mem.state ≠ .unconfigured) :
    Legal s s.bar := ⟨safe_bar s, fun m => moded_bar m hd hu⟩

theorem legal_censusToListen (s : State) (h : s.mem.state = .census) : Legal s s.censusToListen :=
  ⟨safe_censusToListen s, fun m => moded_censusToListen m h⟩

theorem legal_attemptFail (s : State) (h : s.mem.state = .catchup) : Legal s s.attemptFail :=
  ⟨safe_attemptFail s, fun m => moded_attemptFail m h⟩

theorem legal_joinFail (s : State) (h : s.mem.state = .joining) : Legal s s.joinFail :=
  ⟨safe_joinFail s, fun m => moded_joinFail m h⟩

theorem legal_joinTaken (s : State) (h : s.mem.state = .joining) : Legal s s.joinTaken :=
  ⟨safe_joinTaken s, fun m => moded_joinTaken m h⟩

theorem legal_beginAttempt (s : State) (h : s.mem.state = .catchup) : Legal s s.beginAttempt :=
  ⟨safe_beginAttempt s, fun m => moded_beginAttempt m h⟩

theorem legal_enter (s : State) (m : MemberState) (hd : s.mem.state ≠ .dormant)
    (hu : s.mem.state ≠ .unconfigured) (ha : s.mem.state ≠ .catchup) (hm : m ≠ .unconfigured) :
    Legal s (s.enter m) :=
  ⟨safe_enter s m, fun x => moded_enter (x.on hd) (x.set hu) hm (fun a => absurd (x.asking a) ha)⟩

/-! ### The station's own frames (R99, R102, R106, R141, R146, R152) -/

theorem calm_setRep (s : State) (r : Replica) (h : s.dir.rep.Sound → r.Sound) : Calm s (s.setRep r) :=
  calm_onDir s _ h

theorem calm_applyRep (s : State) (f : Frame)
    (hp : f.body.kind = .join ∨ s.dir.rep.isPresent f.sender = true) (ha : s.dir.rep.applies f = true) :
    Calm s (s.applyRep f) := calm_setRep s _ fun r => Replica.apply_sound r f hp ha

theorem works_applyReports (s : State) (f : Frame) : Works s (s.applyReports f) :=
  ((works_postRosterChange s _ _).trans (works_reportDigest _ _ _)).trans (works_answerOf _ _ _)

theorem calm_ownClaim (s : State) (k : Slot) (kind : SlotKind) : Calm s (s.ownClaim k kind) := by
  unfold State.ownClaim; dsimp only
  have h := (((works_setExt s k (some (Ext.fresh s.dir.rep.gen))).calm.trans
    (calm_onPlc _ (fun p => { p with claims := p.claims.map fun e =>
        if e.slot = k ∧ e.phase = .queued then { e with phase := .opening } else e })
      (fun h => by simpa using h)))).trans
    (calm_onLink _ (fun l =>
      { l with heldOpens := l.heldOpens ++ [{ slot := k, serial := s.dir.rep.gen, kind := kind }] }))
  exact Calm.ite (fun _ => h.trans (works_decideShut _ _ _ _).calm) (fun _ => h)

theorem calm_ownShut (s : State) (k : Slot) (c : ShutCause) : Calm s (s.ownShut k c) := by
  unfold State.ownShut; dsimp only
  refine Calm.after (calm_onDir _ _) (Calm.ite (fun _ => ?_) (fun _ => ?_))
  · split
    · exact (works_setExt s _ _).calm
    · exact Calm.refl s
  · split
    · exact ((Works.foldl _ works_endResidency _ s).trans (works_onExt _ _ _)).calm
    · exact Calm.refl s

theorem calm_endClose (s : State) (k : Slot) : Calm s (s.endClose k) :=
  (calm_onDir s _).trans (calm_onMem _ _)

theorem calm_ownShutDone (s : State) (k : Slot) (o : ShutOutcome) : Calm s (s.ownShutDone k o) := by
  unfold State.ownShutDone; split
  · exact (works_onExt s _ _).calm
  · exact calm_endClose s k
  · split
    · exact (calm_endClose s k).trans (works_post _ _).calm
    · exact calm_endClose s k

theorem calm_ownTakeover (s : State) (h : Station) : Calm s (s.ownTakeover h) :=
  ((works_setDuty s h _).trans (works_post _ _)).calm

theorem calm_ownTakeoverEnd (s : State) (h : Station) (o : RunOutcome) : Calm s (s.ownTakeoverEnd h o) :=
  ((works_setDuty s h _).calm.trans (calm_onMem _ _)).trans (works_post _ _).calm

theorem legal_ownLeave (s : State) (h : s.mem.state = .member) : Legal s s.ownLeave :=
  (calm_onMem s fun m => { m with departing := false }).legal.trans
    (legal_enter _ _ (by simp [h]) (by simp [h]) (by simp [h]) (by decide))

theorem legal_ownEffect (s : State) (b : Body) (h : s.mem.state = .member) : Legal s (s.ownEffect b) := by
  cases b
  case claim => exact (calm_ownClaim s _ _).legal
  case shut => exact (calm_ownShut s _ _).legal
  case shutDone => exact (calm_ownShutDone s _ _).legal
  case takeover => exact (calm_ownTakeover s _).legal
  case takeoverEnd => exact (calm_ownTakeoverEnd s _ _).legal
  case leave => exact legal_ownLeave s h
  all_goals exact Legal.refl s

theorem calm_dropOrphaned (s : State) (k : Slot) : Calm s (s.dropOrphaned k) :=
  Calm.ite (fun _ => Calm.refl s) (fun _ => calm_removeHolding s k)

/-! ### Application (R54) and what each membership state does with a frame (R51, R131) -/

theorem legal_applyLive (s : State) (f : Frame) (h : s.mem.state = .member)
    (hp : f.body.kind = .join ∨ s.dir.rep.isPresent f.sender = true) (ha : s.dir.rep.applies f = true) :
    Legal s (s.applyLive f) := by
  have c : Calm s ((s.applyRep f).applyReports f) :=
    (calm_applyRep s f hp ha).trans (works_applyReports _ f).calm
  have hs : ((s.applyRep f).applyReports f).mem.state = .member := c.state.trans h
  have tail : ∀ t : State, Legal t t.recallReleased.afterFrame := fun t =>
    ((works_recallReleased t).trans (works_afterFrame _)).legal
  unfold State.applyLive; dsimp only
  generalize (s.applyRep f).applyReports f = u at c hs
  refine c.legal.trans ?_
  split
  · exact Legal.ite (fun _ => legal_namedAbsent u _ (by simp [hs]) (by simp [hs])) (fun _ => tail u)
  · refine Legal.after (tail _) ?_
    have h2 : Legal u (if f.sender = s.me then u.ownEffect f.body else u) :=
      Legal.ite (fun _ => legal_ownEffect u _ hs) (fun _ => Legal.refl u)
    exact Legal.ite (fun _ => h2.trans (Calm.foldl _ calm_dropOrphaned _ _).legal) (fun _ => h2)

theorem legal_applyOrStale (s : State) (f : Frame) (h : s.mem.state = .member)
    (hp : f.body.kind = .join ∨ s.dir.rep.isPresent f.sender = true) : Legal s (s.applyOrStale f) := by
  unfold State.applyOrStale
  refine Legal.ite (fun ha => legal_applyLive s f h hp ha) (fun _ => ?_)
  exact (works_report s _ _ _ _ _).legal.trans
    (legal_goStale _ (by show s.mem.state ≠ _; simp [h]) (by show s.mem.state ≠ _; simp [h]))

theorem works_countIgnored (s : State) : Works s s.countIgnored := works_onDir s _

theorem legal_fromPresent (s : State) (f : Frame) (act : State → State)
    (h : f.body.isJoin = true ∨ s.dir.rep.isPresent f.sender = true → Legal s (act s)) :
    Legal s (s.fromPresent f act) :=
  Legal.ite h (fun _ => (works_countIgnored s).legal)

theorem Body.isJoin_kind {b : Body} (h : b.isJoin = true) : b.kind = .join := by
  cases b <;> first | rfl | cases h

theorem legal_logFrame (s : State) (f : Frame) (h : s.mem.state = .catchup) : Legal s (s.logFrame f) := by
  unfold State.logFrame
  refine Legal.ite (fun _ => Legal.ite (fun hl => ?_) (fun _ => legal_attemptFail s h))
    (fun _ => Legal.refl s)
  dsimp only
  have c : Calm s (s.onDir fun d => { d with log := d.log ++ [{ frame := f, afterPart0 := s.part0Taken }] }) :=
    calm_onDir s _ id (fun _ => by simp; omega)
  split
  · exact Legal.ite (fun _ => c.legal.trans (legal_attemptFail _ h)) (fun _ => c.legal)
  · exact c.legal

theorem legal_takeDirectory (f : Frame) (s : State) : Legal s (s.takeDirectory f) := by
  unfold State.takeDirectory; split
  case h_1 h => exact legal_censusToListen s h
  case h_2 h => exact legal_logFrame s f h
  case h_3 h =>
    exact legal_fromPresent s f _ fun hp => legal_applyOrStale s f h (hp.imp_left Body.isJoin_kind)
  all_goals exact Legal.refl s

/-! ### The head of the receive queue (R84, R89) -/

theorem calm_popRx (s : State) : Calm s s.popRx :=
  calm_onBus s _ id (fun h => by simp only [List.length_drop]; omega)

theorem legal_enterJoining (s : State) (b : Body) : Legal s (s.enterJoining b) :=
  Legal.ite (fun h => legal_enter s _ (by simp [h.2]) (by simp [h.2]) (by simp [h.2]) (by decide))
    (fun _ => Legal.refl s)

theorem works_markSent (s : State) (b : Body) : Works s (s.markSent b) := by
  unfold State.markSent; split
  · exact works_onExt s _ _
  · exact works_onExt s _ _
  · exact Works.refl s

theorem works_servingSent (s : State) (b : Body) : Works s (s.servingSent b) := by
  unfold State.servingSent; split
  · exact works_onDir s _
  · exact Works.refl s

theorem legal_completeTx (s : State) : Legal s s.completeTx := by
  unfold State.completeTx; split
  · exact Legal.refl s
  · dsimp only
    refine Legal.after (legal_enterJoining _ _) (Legal.after (works_servingSent _ _).legal
      (Legal.after (works_markSent _ _).legal (calm_onBus s _ (fun h => ?_)).legal))
    simp only [Bus.endAttempt, Bus.popTx, List.length_drop]; omega

theorem legal_abortTx (s : State) : Legal s s.abortTx := by
  unfold State.abortTx; split
  · exact Legal.refl s
  · dsimp only
    refine Legal.after (legal_enterJoining _ _) (calm_onBus s _ (fun h => ?_) (fun h => ?_) ?_).legal
    · split
      · simp only [Bus.endAttempt, Bus.popTx, List.length_drop]; omega
      · exact h
    · split <;> exact h
    · split <;> exact Iff.rfl

theorem legal_finishOwn (s : State) (e : RxEntry) : Legal s (s.finishOwn e) := by
  unfold State.finishOwn
  refine Legal.ite (fun _ => ?_) (fun _ => Legal.refl s)
  split
  · exact legal_completeTx s
  all_goals exact Legal.ite (fun _ => legal_completeTx s) (fun _ => legal_abortTx s)

/-- The wrapper of every command: the effect outside a reset, then the head and the offer. -/
theorem legal_live (s : State) (f : State → State) (h : s.rst = none → Legal s (f s)) :
    ∃ t, live s f = .next t ∧ Legal s t := by
  refine ⟨_, rfl, ?_⟩
  refine Legal.ite (fun _ => Legal.refl s) (fun hr => ?_)
  exact (h (by simpa using hr)).trans (calm_settle _).legal

theorem legal_takeClean (k : Kind) (act : Bool → Frame → State → State) (s : State)
    (h : ∀ own f t, Legal t (act own f t)) : ∃ t, takeClean k act s = .next t ∧ Legal s t := by
  unfold takeClean
  refine legal_live s _ fun _ => ?_
  split
  · split
    · exact Legal.ite (fun _ => ((calm_popRx s).legal.trans (legal_finishOwn _ _)).trans (h _ _ _))
        (fun _ => Legal.refl s)
    all_goals exact Legal.refl s
  · exact Legal.refl s

/-! ### The install of a snapshot (R133, R134, R154) -/

theorem calm_settleKept (s : State) (k : Slot) (x : Ext) : Calm s (s.settleKept k x) := by
  unfold State.settleKept; split
  · refine Calm.ite (fun _ => ?_) (fun _ => Calm.ite (fun _ => (works_onExt s _ _).calm)
      (fun _ => Calm.refl s))
    exact ((Works.foldl _ works_endResidency _ s).trans (works_onExt _ _ _)).calm.trans (calm_onDir _ _)
  all_goals exact Calm.refl s

theorem calm_createHolding (s : State) (k : Slot) : Calm s (s.createHolding k) := by
  unfold State.createHolding; split
  · refine Calm.ite (fun _ => ?_) (fun _ => Calm.refl s)
    dsimp only
    rename_i _ kind g _ _
    have h := (works_setExt s k (some (Ext.fresh g))).calm.trans
      (calm_onLink _ fun l =>
        { l with heldOpens := l.heldOpens ++ [{ slot := k, serial := g, kind := kind }] })
    exact Calm.ite (fun _ => h.trans (works_decideShut _ _ _ _).calm) (fun _ => h)
  · exact Calm.ite (fun _ => (works_setExt s _ _).calm.trans (calm_onDir _ _)) (fun _ => Calm.refl s)
  all_goals exact Calm.refl s

theorem calm_settleHolding (s : State) (k : Slot) : Calm s (s.settleHolding k) := by
  unfold State.settleHolding; split
  · exact Calm.ite (fun _ => calm_settleKept s k _)
      (fun _ => (calm_removeHolding s k).trans (calm_createHolding _ k))
  · exact calm_createHolding s k

theorem calm_settleDuty (s : State) (h : Station) : Calm s (s.settleDuty h) := by
  unfold State.settleDuty
  refine Calm.ite (fun _ => ?_) (fun _ => (works_setDuty s h none).calm)
  split
  · exact calm_ownTakeover s h
  · split
    · exact Calm.refl s
    · exact (works_queueFrame s _).calm
    · exact calm_ownTakeover s h

theorem calm_reconcileDuty (s : State) : Calm s s.reconcileDuty := by
  have h := Calm.foldl _ calm_settleDuty allStations s
  unfold State.reconcileDuty
  generalize allStations.foldl State.settleDuty s = t at h ⊢
  exact h.trans (calm_onMem t _)

/-- A replay keeps what each application keeps. -/
theorem calm_replay (l : List Frame) (p : Replay) : Calm p.st (replay l p).1.st := by
  induction l generalizing p with
  | nil => exact Calm.refl _
  | cons f l ih =>
    unfold replay
    by_cases hj : (!f.body.isJoin && !p.st.dir.rep.isPresent f.sender) = true
    · rw [if_pos hj]; exact (works_countIgnored p.st).calm.trans (ih { p with st := p.st.countIgnored })
    · rw [if_neg hj]
      by_cases ha : p.st.dir.rep.applies f = true
      · rw [if_pos ha]
        refine Calm.trans ?_ (ih _)
        refine (calm_applyRep p.st f ?_ ha).trans (works_applyReports _ f).calm
        cases hb : f.body.isJoin
        · right; simpa [hb] using hj
        · exact .inl (Body.isJoin_kind hb)
      · rw [if_neg ha]; exact Calm.refl _

theorem legal_rejoinDrive (s : State) (h : s.mem.state = .catchup) : Legal s s.rejoinDrive := by
  have c0 := Calm.foldl _ calm_settleHolding allSlots s
  unfold State.rejoinDrive; dsimp only
  generalize allSlots.foldl State.settleHolding s = v at c0 ⊢
  have c : Calm v ((v.onDir fun d => { d with request := none, log := [], snap := [] }).onMem fun m =>
      { m with attempts := 0 }) :=
    Calm.after (calm_onMem _ _) (calm_onDir v _ id (fun _ => by simp) (by rintro ⟨_, h⟩; cases h))
  have q : ¬ ((v.onDir fun d => { d with request := none, log := [], snap := [] }).onMem fun m =>
      { m with attempts := 0 }).asks := by rintro ⟨_, h⟩; cases h
  generalize (v.onDir fun d => { d with request := none, log := [], snap := [] }).onMem
    (fun m => { m with attempts := 0 }) = u at c q ⊢
  have hu : u.mem.state = .catchup := (c0.trans c).state.trans h
  have e : Legal u (u.enter .member) :=
    ⟨safe_enter u _, fun m => moded_enter (m.on (by simp [hu])) (m.set (by simp [hu])) (by decide)
      (fun a => absurd a q)⟩
  exact Legal.after (works_afterMember _).legal (Legal.after (calm_reconcileDuty _).legal
    ((c0.trans c).legal.trans e))

theorem legal_install (s : State) (r : Replica) (h : s.mem.state = .catchup) (hr : r.Sound) :
    Legal s (s.install r) := by
  unfold State.install; dsimp only
  have c := (calm_setRep s r fun _ => hr).trans
    (calm_replay ((s.dir.log.filter (·.afterPart0)).map (·.frame)) { st := s.setRep r, namedBy := none })
  generalize replay ((s.dir.log.filter (·.afterPart0)).map (·.frame)) { st := s.setRep r, namedBy := none }
    = out at c
  have hs : out.1.st.mem.state = .catchup := c.state.trans h
  refine Legal.ite (fun _ => (c.legal.trans (legal_attemptFail _ hs)).trans
    (works_policyPass _ _).legal) (fun _ => Legal.ite (fun _ => ?_)
    (fun _ => c.legal.trans (legal_namedAbsent _ _ (by simp [hs]) (by simp [hs]))))
  exact c.legal.trans (legal_rejoinDrive _ hs)

theorem accepted_sound {s : State} {n : Nat} {g : Gen} {c : Byte} {w : BitVec 16} {r : Replica}
    (h : s.accepted n g c w = some r) : r.Sound := by
  unfold State.accepted at h
  split at h
  · exact Replica.snapshotOk_sound (Option.filter_eq_some_iff.mp h).2
  · cases h

theorem legal_endSnapshot (s : State) (p : Station) (n : Nat) (g : Gen) (c : Byte) (w : BitVec 16)
    (h : s.mem.state = .catchup) : Legal s (s.endSnapshot p n g c w) := by
  unfold State.endSnapshot; split
  · exact legal_attemptFail s h
  · rename_i r hr
    refine Legal.ite (fun _ => legal_install s r h (accepted_sound hr)) (fun _ => ?_)
    exact (works_report s _ _ _ _ _).legal.trans
      (legal_bar _ (by show s.mem.state ≠ _; simp [h]) (by show s.mem.state ≠ _; simp [h]))

end Sys2Proof.Machine
end

