-- ==== Sys2Proof/Laws/Taking.lean ====
section
/-! SUPPORT. What each frame taken and each event of the placement bus keeps (`Legal`): receptions,
entries that are not CLEAN, the eighteen kinds, the contention event and the timers of the bus and of
requests. -/

-- One theorem at a time: each proof that waits holds a thread, and the check has memory for few.
set_option Elab.async false

namespace Sys2Proof.Machine

/-! ### Receptions (R81 to R85) -/

theorem markLost_length (l : List RxEntry) : (markLost l).length = l.length := by
  fun_induction markLost l <;> simp_all

theorem Bus.write_rx (b : Bus) (e : RxEntry) (h : b.rx.length ≤ 4) : (b.write e).rx.length ≤ 4 := by
  unfold Bus.write; split
  · simp; omega
  · simpa [markLost_length] using h

theorem Bus.hear_rx (b : Bus) (me : Station) (e : Ending) : (b.hear me e).rx = b.rx := by
  unfold Bus.hear; split <;> first | rfl | (split <;> rfl)

theorem Bus.hear_tx (b : Bus) (me : Station) (e : Ending) : (b.hear me e).tx = b.tx := by
  unfold Bus.hear; split <;> first | rfl | (split <;> rfl)

theorem Bus.write_tx (b : Bus) (e : RxEntry) : (b.write e).tx = b.tx := by
  unfold Bus.write; split <;> rfl

@[simp] theorem Sending.readTo_frame (sg : Sending) (bits : List Bool) :
    (sg.readTo bits).frame = sg.frame := by
  unfold Sending.readTo; split <;> rfl

@[simp] theorem Sending.readTo_withdrawn (sg : Sending) (bits : List Bool) :
    (sg.readTo bits).withdrawn = sg.withdrawn := by
  unfold Sending.readTo; split <;> rfl

/-- R83: a transmission that has been read back to an ending has no further one of its own. -/
@[simp] theorem Sending.readTo_unread (sg : Sending) (bits : List Bool) :
    (sg.readTo bits).unread = false := by
  unfold Sending.readTo
  split
  · unfold Sending.unread; dsimp only; split <;> rfl
  · simpa using ‹¬ sg.unread = true›

/-- R83: once a reception has ended, no later one is of a transmission begun before. -/
theorem Bus.endReception_isOwn (b : Bus) (m : MemberState) (me : Station) (bits : List Bool) (e : Ending)
    (again : Bool) : (b.endReception m me bits e again).isOwn = false := by
  simp [Bus.isOwn, Bus.endReception, Option.any_map]

/-- R83: a finished attempt leaves the reception in progress the station's own only where it was so. -/
theorem Bus.endAttempt_isOwn (b : Bus) : b.endAttempt.isOwn = b.readsOwn := by
  simp [Bus.isOwn, Bus.endAttempt]

/-- R83: one transmission, one own entry: where its reception has ended before its attempt, the reception
that goes on when the attempt ends is not the station's own. -/
theorem Bus.endAttempt_endReception_isOwn (b : Bus) (m : MemberState) (me : Station) (bits : List Bool)
    (e : Ending) (again : Bool) : (b.endReception m me bits e again).endAttempt.isOwn = false := by
  rw [Bus.endAttempt_isOwn, Bus.readsOwn]
  split
  · simp [Bus.endReception, Option.any_map]
  all_goals rfl

theorem Bus.endReception_off (b : Bus) (m : MemberState) (me : Station) (bits : List Bool) (e : Ending)
    (again : Bool) : (b.endReception m me bits e again).receiver ≠ .off := by
  show (if again then Receiver.receiving 0 else .hunt) ≠ .off
  split <;> simp

theorem calm_endReception (s : State) (bits : List Bool) (e : Ending) (again : Bool)
    (h : s.bus.receiver ≠ .off) : Calm s (s.onBus (·.endReception s.mem.state s.me bits e again)) := by
  refine calm_onBus s _ (fun ht => ?_) (fun hr => ?_) ?_
  · unfold Bus.endReception; dsimp only
    split
    · simp only [Bus.write_tx, Bus.hear_tx]; exact ht
    · simp only [Bus.hear_tx]; exact ht
  · unfold Bus.endReception; dsimp only
    split
    · exact Bus.write_rx _ _ (by simp only [Bus.hear_rx]; exact hr)
    · simp only [Bus.hear_rx]; exact hr
  · exact ⟨fun x => absurd x (Bus.endReception_off _ _ _ _ _ _), fun x => absurd x h⟩

theorem legal_receptionEnd (bits : List Bool) (s : State) :
    ∃ t, execReceptionEnd bits s = .next t ∧ Legal s t := by
  refine legal_live s _ fun _ => ?_
  split
  · rename_i h _; exact (calm_endReception s bits _ _ (by simp [h])).legal
  · exact Legal.refl s

theorem legal_openingDelimiterRead (s : State) :
    ∃ t, execOpeningDelimiterRead s = .next t ∧ Legal s t := by
  refine legal_live s _ fun _ => ?_
  split
  · rename_i h; exact (calm_onBus s _ id id (by simp [h])).legal
  all_goals exact Legal.refl s

/-! ### Entries that are not CLEAN, or are marked lost-after (R51, R126, R128, R131) -/

theorem legal_reportStale (s : State) (c : Cause) (hd : s.mem.state ≠ .dormant)
    (hu : s.mem.state ≠ .unconfigured) : Legal s (s.report c).goStale :=
  (works_report s _ _ _ _ _).legal.trans (legal_goStale _ hd hu)

theorem legal_takeBad (s : State) (e : RxEntry) : Legal s (s.takeBad e) := by
  unfold State.takeBad; split
  case h_1 h => exact Legal.ite (fun _ => Legal.refl s) (fun _ => legal_censusToListen s h)
  case h_2 h =>
    unfold State.badInJoining
    refine Legal.ite (fun _ => ?_) (fun _ => Legal.refl s)
    split
    · exact legal_joinTaken s h
    all_goals exact legal_joinFail s h
  case h_3 h =>
    exact Legal.ite (fun _ => Legal.refl s) (fun _ => Legal.ite (fun _ => legal_attemptFail s h)
      (fun _ => Legal.refl s))
  case h_4 h =>
    have st : ∀ c, Legal s (s.report c).goStale := fun c =>
      legal_reportStale s c (by simp [h]) (by simp [h])
    unfold State.badInMember
    refine Legal.ite (fun _ => st _) (fun _ => ?_)
    split
    · exact st _
    · exact st _
    · exact Legal.ite (fun _ => Legal.refl s) (fun _ => (works_report s _ _ _ _ _).legal)
    · exact Legal.refl s
  all_goals exact Legal.refl s

theorem legal_receiveEntryNotClean (s : State) :
    ∃ t, execReceiveEntryNotClean s = .next t ∧ Legal s t := by
  refine legal_live s _ fun _ => ?_
  split
  · exact Legal.ite (fun _ => Legal.refl s) (fun _ =>
      ((calm_popRx s).legal.trans (legal_finishOwn _ _)).trans (legal_takeBad _ _))
  · exact Legal.refl s

/-! ### Census (R122 to R126) -/

theorem works_enterCensus (s : State) (st : Station) (q : BitVec 4) (a : Bool) :
    Works s (s.enterCensus st q a) := works_onMem s _

theorem works_rollInCensus (s : State) (own : Bool) (st : Station) (q : BitVec 4) (a : Bool) (d : Params) :
    Works s (s.rollInCensus own st q a d) := by
  unfold State.rollInCensus; dsimp only
  have h := works_enterCensus s st q a
  exact Works.ite (fun _ => h.trans (works_onMem _ _)) (fun _ => Works.ite (fun _ => h)
    (fun _ => h.trans (works_report _ _ _ _ _ _)))

theorem legal_takeRoll (own : Bool) (f : Frame) (s : State) : Legal s (takeRoll own f s) := by
  unfold takeRoll; split
  · exact (works_rollInCensus s _ _ _ _ _).legal
  · exact legal_fromPresent s f id fun _ => Legal.refl s
  · exact Legal.refl s

theorem legal_sealFrom (s : State) (l : List SealEntry) (p : Params) (h : s.mem.state = .census) :
    Legal s (s.sealFrom l p) := by
  unfold State.sealFrom; dsimp only
  have c1 : Calm s (s.setRep (Replica.ofSeal l p)) := calm_setRep s _ fun _ => Replica.ofSeal_sound l p
  have c2 := (Works.foldl _ works_postPeer
    (allStations.filter (s.setRep (Replica.ofSeal l p)).dir.rep.isPresent)
    (s.setRep (Replica.ofSeal l p))).calm
  generalize (allStations.filter (s.setRep (Replica.ofSeal l p)).dir.rep.isPresent).foldl State.postPeer
    (s.setRep (Replica.ofSeal l p)) = u at c2 ⊢
  have c3 : Calm u ((u.onBus Bus.restartHeard).onMem fun m =>
      { m with census := Vector.replicate 8 none, sealTimer := none }) :=
    Calm.after (calm_onMem _ _) (calm_onBus u _)
  generalize (u.onBus Bus.restartHeard).onMem
    (fun m => { m with census := Vector.replicate 8 none, sealTimer := none }) = v at c3 ⊢
  have c := (c1.trans c2).trans c3
  have hv := c.state.trans h
  exact Legal.after (works_afterMember _).legal (c.legal.trans
    (legal_enter v _ (by simp [hv]) (by simp [hv]) (by simp [hv]) (by decide)))

theorem legal_takeSeal (own : Bool) (f : Frame) (s : State) : Legal s (takeSeal own f s) := by
  unfold takeSeal; split
  · rename_i h _
    unfold State.sealInCensus
    refine Legal.ite (fun _ => Legal.ite (fun _ => legal_sealFrom s _ _ h) (fun _ => ?_))
      (fun _ => legal_censusToListen s h)
    exact (works_report s _ _ _ _ _).legal.trans
      (legal_bar _ (by show s.mem.state ≠ _; simp [h]) (by show s.mem.state ≠ _; simp [h]))
  · exact legal_fromPresent s f id fun _ => Legal.refl s
  · exact Legal.refl s

/-! ### Presence (R55, R128, R129) -/

theorem works_beaconInMember (s : State) (st : Station) (b : Body) : Works s (s.beaconInMember st b) := by
  unfold State.beaconInMember; split
  · exact Works.ite (fun _ => Works.refl s) (fun _ => works_report s _ _ _ _ _)
  · exact Works.refl s

theorem legal_takeBeacon (own : Bool) (f : Frame) (s : State) : Legal s (takeBeacon own f s) := by
  unfold takeBeacon; split
  case h_1 h => exact legal_censusToListen s h
  case h_2 => exact legal_fromPresent s f _ fun _ => (works_beaconInMember s _ _).legal
  all_goals exact Legal.refl s

theorem legal_takeJoin (own : Bool) (f : Frame) (s : State) : Legal s (takeJoin own f s) := by
  unfold takeJoin; split
  case h_1 h => exact Legal.ite (fun _ => legal_joinTaken s h) (fun _ => Legal.refl s)
  all_goals exact legal_takeDirectory f s

/-! ### The recall exchange (R112 to R116) -/

theorem works_setRecall (s : State) (e : RecallEntry) :
    Works s (s.onDir fun d => { d with request := some (.recall e) }) := works_setRequest s _ (e := e)

theorem works_recallSent (s : State) (t : ReqTag) : Works s (s.recallSent t) := by
  unfold State.recallSent; split
  · exact Works.ite (fun _ => works_setRecall s _) (fun _ => Works.refl s)
  · exact Works.refl s

theorem works_answerRecall (s : State) (t : ReqTag) (r : Station) : Works s (s.answerRecall t r) := by
  unfold State.answerRecall
  refine Works.ite (fun _ => works_queueTo s _ _) (fun _ => Works.ite (fun _ => works_queueTo s _ _)
    (fun _ => ?_))
  split
  · exact works_queueTo s _ _
  · exact (works_decideShut s _ _ _).trans (works_policyPass _ _)

theorem works_recallInMember (s : State) (own : Bool) (t : ReqTag) (r g : Station) :
    Works s (s.recallInMember own t r g) :=
  Works.ite (fun _ => works_recallSent s t)
    (fun _ => Works.ite (fun _ => works_answerRecall s t r) (fun _ => Works.refl s))

theorem legal_takeRecall (own : Bool) (f : Frame) (s : State) : Legal s (takeRecall own f s) := by
  unfold takeRecall; split
  · rename_i h; exact legal_censusToListen s h
  · exact legal_fromPresent s f _ fun _ => (works_recallInMember s _ _ _ _).legal
  · exact Legal.ite (fun _ => (works_queueTo s _ _).legal) (fun _ => Legal.refl s)
  · exact Legal.refl s

theorem works_backOff (s : State) (e : RecallEntry) (a : Bool) : Works s (s.backOff e a) :=
  works_setRecall s _

theorem calm_exhaustRecall (s : State) (e : RecallEntry) : Calm s (s.exhaustRecall e) := by
  unfold State.exhaustRecall; dsimp only
  exact Calm.after (works_policyPass _ _).calm (Calm.after
    (calm_onDir _ _ id id (by rintro ⟨_, h⟩; cases h)) (Calm.after (calm_onFlt _ _)
      (Calm.after (works_report _ _ _ _ _ _).calm (works_followRequest s _ _ _).calm)))

theorem calm_tryFails (s : State) (e : RecallEntry) (a : Bool) : Calm s (s.tryFails e a) :=
  Calm.ite (fun _ => (works_backOff s e a).calm) (fun _ => calm_exhaustRecall s e)

theorem calm_deferred (s : State) (st : Station) (t : ReqTag) (w : DeferReason) :
    Calm s (s.deferred st t w) := by
  unfold State.deferred; split
  · exact Calm.ite (fun _ => Calm.ite (fun _ => calm_tryFails s _ _) (fun _ => Calm.refl s))
      (fun _ => (works_report s _ _ _ _ _).calm)
  · exact (works_report s _ _ _ _ _).calm

theorem legal_takeDefer (own : Bool) (f : Frame) (s : State) : Legal s (takeDefer own f s) := by
  unfold takeDefer; split
  · rename_i h; exact legal_censusToListen s h
  · exact legal_fromPresent s f _ fun _ => (calm_deferred s _ _ _).legal
  · exact (calm_deferred s _ _ _).legal
  · exact Legal.refl s

/-! ### Catch-up (R131 to R137) -/

/-- An ASK entry is replaced by another where one is held. -/
theorem calm_setAsk (s : State) (e e' : AskEntry) (h : s.dir.request = some (.ask e)) (l : List (List Byte)) :
    Calm s (s.onDir fun d => { d with snap := l, request := some (.ask e') }) :=
  calm_onDir s _ id id (fun _ => ⟨e, h⟩)

theorem calm_askTaken (s : State) (t : ReqTag) : Calm s (s.askTaken t) := by
  unfold State.askTaken; split
  · rename_i e h; exact Calm.ite (fun _ => calm_setAsk s e _ h s.dir.snap) (fun _ => Calm.refl s)
  · exact Calm.refl s

theorem works_startServing (s : State) (t : ReqTag) (a : Station) : Works s (s.startServing t a) := by
  unfold State.startServing; split
  · exact Works.refl s
  · exact works_onDir s _

theorem legal_takeCatchupAsk (own : Bool) (f : Frame) (s : State) : Legal s (takeCatchupAsk own f s) := by
  unfold takeCatchupAsk; split
  · rename_i h; exact legal_censusToListen s h
  · exact Legal.ite (fun _ => (calm_askTaken s _).legal) (fun _ => Legal.refl s)
  · exact legal_fromPresent s f _ fun _ => Legal.ite (fun _ => Legal.refl s)
      (fun _ => (works_startServing s _ _).legal)
  · exact Legal.refl s

theorem calm_offerTaken (s : State) (t : ReqTag) (a r : Station) : Calm s (s.offerTaken t a r) := by
  unfold State.offerTaken; split
  · rename_i e h
    exact Calm.ite (fun _ => Calm.after (works_followRequest _ _ _ _).calm (calm_setAsk s e _ h s.dir.snap))
      (fun _ => Calm.refl s)
  · exact Calm.refl s

theorem works_startSnapshot (s : State) (v : Serving) : Works s (s.startSnapshot v) := by
  unfold State.startSnapshot
  have h : Works s (s.onDir fun d => { d with serving := some { v with phase := .sending } }) :=
    works_onDir s _
  exact h.trans (Works.foldl _ (fun x b => works_queueTo x v.asker b) _ _)

theorem works_offerSeen (s : State) (own : Bool) (t : ReqTag) (a : Station) : Works s (s.offerSeen own t a) := by
  unfold State.offerSeen; split
  · exact Works.refl s
  · refine Works.ite (fun _ => ?_) (fun _ => Works.refl s)
    split
    · exact Works.ite (fun _ => Works.refl s) (fun _ => works_onDir s _)
    · exact Works.ite (fun _ => works_startSnapshot s _) (fun _ => works_onDir s _)
    · exact Works.refl s

theorem legal_takeCatchupOffer (own : Bool) (f : Frame) (s : State) :
    Legal s (takeCatchupOffer own f s) := by
  unfold takeCatchupOffer; split
  · rename_i h; exact legal_censusToListen s h
  · exact (calm_offerTaken s _ _ _).legal
  · exact legal_fromPresent s f _ fun _ => (works_offerSeen s _ _ _).legal
  · exact Legal.refl s

theorem legal_snapshotFrame (s : State) (st : Station) (b : Body) (h : s.mem.state = .catchup) :
    Legal s (s.snapshotFrame st b) := by
  unfold State.snapshotFrame; split
  · rename_i e he
    split
    · split
      · refine Legal.ite (fun _ => ?_) (fun _ => Legal.refl s)
        unfold State.partTaken
        exact Legal.ite (fun _ => (calm_setAsk s e _ he _).legal) (fun _ => legal_attemptFail s h)
      · exact Legal.ite (fun _ => legal_endSnapshot s _ _ _ _ _ h) (fun _ => Legal.refl s)
      · exact Legal.refl s
    all_goals exact Legal.refl s
  · exact Legal.refl s

theorem legal_takeSnapshot (own : Bool) (f : Frame) (s : State) : Legal s (takeSnapshot own f s) := by
  unfold takeSnapshot; split
  case h_1 h => exact legal_censusToListen s h
  case h_2 h => exact legal_snapshotFrame s _ _ h
  case h_3 => exact legal_fromPresent s f id fun _ => Legal.refl s
  all_goals exact Legal.refl s

/-! ### The contention event (R87, R97) -/

theorem works_passing (s : State) (old new : Body) : Works s (s.passing old new) := by
  unfold State.passing; split
  · exact works_onPlc s _ (fun h => by simpa using h)
  · refine works_onDir s _ rfl id ?_
    rintro ⟨e, he⟩
    simp only [State.onDir] at he
    split at he
    · cases he
    · exact ⟨e, he⟩
  · exact Works.ite (fun _ => works_onDir s _) (fun _ => Works.refl s)
  · exact Works.refl s

theorem works_dropServing (s : State) :
    Works s ((s.withdraw Body.isServing).onDir fun d => { d with serving := none, snap := [] }) :=
  Works.trans (works_withdraw s _) {}

theorem works_withdrawn (c : Contend) (b : Body) : Works c.st (c.withdrawn b).st := by
  cases b
  case claim k _ =>
    exact works_onPlc c.st
      (fun p => { p with claims := p.claims.filter fun e => !(e.slot == k && e.phase == .queued) })
      (fun h => le_trans (List.length_filter_le _ _) h)
  case catchupOffer => exact works_onDir c.st (fun d => { d with serving := none })
  case snapshot => exact works_dropServing c.st
  case snapshotEnd => exact works_dropServing c.st
  case takeover h => exact works_setDuty c.st h none
  case takeoverEnd h _ =>
    exact works_onMem c.st fun m =>
      { m with duty := put m.duty h (m.duty[h].map fun d => { d with phase := .running }) }
  all_goals first | exact works_endRequest c.st | exact Works.refl _

theorem works_popTx (s : State) : Works s (s.onBus Bus.popTx) :=
  { tx := fun h => by simp only [State.onBus, Bus.popTx, List.length_drop]; omega }

theorem works_contend (n : Nat) (c : Contend) : Works c.st (contend n c).st := by
  induction n generalizing c with
  | zero => exact Works.refl _
  | succ n ih =>
    unfold contend; split
    · exact Works.refl _
    · rename_i q rest hq
      split
      · exact ((works_popTx c.st).trans
          (works_withdrawn { c with st := c.st.onBus Bus.popTx } q.body)).trans (ih _)
      · rename_i b _
        have h : Works c.st (c.st.onBus fun u => { u with tx := { q with body := b } :: rest }) :=
          { tx := fun h => by simpa [hq] using h }
        exact h.trans (works_passing _ _ _)

theorem works_contendSettle (c : Contend) : Works c.st c.settle := by
  unfold Contend.settle; dsimp only
  have h : Works c.st (if c.ended then c.st.policyPass c.skip else c.st) :=
    Works.ite (fun _ => works_policyPass _ _) (fun _ => Works.refl _)
  exact (Works.ite (fun _ => h.trans (works_dutyEval _)) (fun _ => h)).trans (works_queueLeave _)

theorem calm_begin (s : State) (f : Frame) (d : Bool) (h : s.bus.receiver ≠ .off) :
    Calm s (s.begin f d) := by
  unfold State.begin
  refine calm_onBus s _ (fun x => ?_) (fun x => ?_) ?_
  · split <;> exact x
  · split <;> exact x
  · split
    · exact Iff.rfl
    · exact ⟨fun x => (by cases x), fun x => absurd x h⟩

theorem calm_contention (s : State) (d : Bool) (h : s.bus.receiver ≠ .off) : Calm s (s.contention d) := by
  unfold State.contention; dsimp only
  have w := works_contend s.bus.tx.length
    { st := s, skip := [], ended := false, duty := false, passed := none }
  generalize contend s.bus.tx.length
    { st := s, skip := [], ended := false, duty := false, passed := none } = c at w
  split
  · exact Calm.after (works_contendSettle _).calm
      (w.calm.trans (calm_begin c.st _ d (by rw [w.receiver]; exact h)))
  · exact w.calm.trans (works_contendSettle c).calm

theorem legal_contention (d : Bool) (s : State) : ∃ t, execContention d s = .next t ∧ Legal s t := by
  refine legal_live s _ fun _ => ?_
  dsimp only
  have c : Calm s s.sawQuiet := Calm.ite (fun _ => calm_onBus s _) (fun _ => Calm.refl s)
  refine Legal.ite (fun h => c.legal.trans (calm_contention _ d ?_).legal) (fun _ => c.legal)
  simp only [State.contends, Bool.and_eq_true, beq_iff_eq] at h
  rw [h.1.1.1.1]; simp

theorem legal_arbitrationLost (s : State) : ∃ t, execArbitrationLost s = .next t ∧ Legal s t := by
  refine legal_live s _ fun _ => ?_
  split
  · exact Legal.refl s
  · refine (calm_onBus s _ (fun h => ?_) (fun h => ?_) ?_).legal
    · split
      · simp only [Bus.popTx, List.length_drop]; omega
      · exact h
    · split <;> exact h
    · split <;> exact Iff.rfl

theorem legal_yieldGapExpiry (s : State) : ∃ t, execYieldGapExpiry s = .next t ∧ Legal s t :=
  legal_live s _ fun _ => Legal.ite (fun _ => (calm_onBus s _).legal) (fun _ => Legal.refl s)

theorem legal_heldFrameJoins (s : State) : ∃ t, execHeldFrameJoins s = .next t ∧ Legal s t := by
  refine legal_live s _ fun _ => (calm_onBus s _ (fun h => ?_) (fun h => ?_) ?_).legal
  · split
    · split
      · simp; omega
      · exact h
    · exact h
  · split
    · split <;> exact h
    · exact h
  · split
    · split <;> exact Iff.rfl
    · exact Iff.rfl

theorem legal_beaconTimerExpiry (s : State) : ∃ t, execBeaconTimerExpiry s = .next t ∧ Legal s t := by
  refine legal_live s _ fun _ => ?_
  split
  · refine (calm_onBus s _ (fun h => ?_)).legal
    unfold Bus.beaconExpires; dsimp only
    split
    · simp
    · exact h
  all_goals exact Legal.refl s

/-! ### Timers of silence, membership and requests (R94, R115, R116, R124, R127, R132, R135, R136) -/

theorem legal_lastHeardExpiry (st : Station) (s : State) :
    ∃ t, execLastHeardExpiry st s = .next t ∧ Legal s t := by
  refine legal_live s _ fun _ => ?_
  dsimp only
  refine Legal.ite (fun _ => Legal.refl s) (fun _ => ?_)
  have c : Calm s (s.onBus fun b =>
      { b with heard := put b.heard st { s.bus.heard[st] with
          time := max s.bus.heard[st].time (3 * s.pTicks), reported := true } }) := calm_onBus s _
  exact Legal.ite (fun _ => c.legal.trans (works_queueAbsent _ _).legal) (fun _ => c.legal)

theorem legal_sealDeadlineExpiry (s : State) : ∃ t, execSealDeadlineExpiry s = .next t ∧ Legal s t := by
  refine legal_live s _ fun _ => ?_
  split
  · dsimp only
    have c : Calm s (s.onMem fun m => { m with sealTimer := none }) := calm_onMem s _
    exact Legal.ite (fun _ => c.legal.trans (works_queueFrame _ _).legal) (fun _ => c.legal)
  · exact Legal.refl s

theorem legal_listenTimerExpiry (s : State) : ∃ t, execListenTimerExpiry s = .next t ∧ Legal s t := by
  refine legal_live s _ fun _ => ?_
  split
  · have c : ∀ x, Calm s (s.onMem fun m => { m with listenTimer := x }) := fun x => calm_onMem s _
    exact Legal.ite (fun _ => Legal.ite (fun _ => (c none).legal.trans (works_queueFrame _ _).legal)
      (fun _ => (c _).legal)) (fun _ => (c none).legal)
  · exact Legal.refl s

theorem legal_offerTimerExpiry (s : State) : ∃ t, execOfferTimerExpiry s = .next t ∧ Legal s t := by
  refine legal_live s _ fun _ => ?_
  split
  · rename_i h
    exact ⟨safe_attemptFail s, fun m => moded_attemptFail m (m.asking ⟨_, h⟩)⟩
  · exact Legal.refl s

theorem legal_partGapTimerExpiry (s : State) : ∃ t, execPartGapTimerExpiry s = .next t ∧ Legal s t := by
  refine legal_live s _ fun _ => ?_
  split
  · rename_i h
    exact ⟨safe_attemptFail s, fun m => moded_attemptFail m (m.asking ⟨_, h⟩)⟩
  · exact Legal.refl s

theorem legal_retryTimerExpiry (s : State) : ∃ t, execRetryTimerExpiry s = .next t ∧ Legal s t := by
  refine legal_live s _ fun _ => ?_
  split
  · exact Legal.refl s
  · dsimp only
    have c : Calm s (s.onMem fun m => { m with retryTimer := none }) := calm_onMem s _
    exact Legal.ite (fun h => c.legal.trans (legal_beginAttempt _ h)) (fun _ => c.legal)

theorem legal_offerDelayExpiry (s : State) : ∃ t, execOfferDelayExpiry s = .next t ∧ Legal s t := by
  refine legal_live s _ fun _ => ?_
  split
  · split
    · exact Legal.ite (fun _ => Legal.after (works_queueFrame _ _).legal (works_onDir s _).legal)
        (fun _ => (works_onDir s _).legal)
    all_goals exact Legal.refl s
  · exact Legal.refl s

theorem legal_answerTimerExpiry (s : State) : ∃ t, execAnswerTimerExpiry s = .next t ∧ Legal s t := by
  refine legal_live s _ fun _ => ?_
  split
  · exact Legal.ite (fun _ => (calm_tryFails s _ _).legal) (fun _ => Legal.refl s)
  · exact Legal.refl s

theorem works_retryRecall (s : State) (e : RecallEntry) (g : Station) : Works s (s.retryRecall e g) := by
  unfold State.retryRecall; dsimp only
  exact ((works_setRecall s _).trans (works_queueFrame _ _)).trans (works_followRequest _ _ _ _)

theorem legal_backoffTimerExpiry (s : State) : ∃ t, execBackoffTimerExpiry s = .next t ∧ Legal s t := by
  refine legal_live s _ fun _ => ?_
  split
  · refine Legal.ite (fun _ => ?_) (fun _ => Legal.refl s)
    split
    · exact (works_retryRecall s _ _).legal
    · exact ((works_endRequest s).trans (works_policyPass _ _)).legal
  · exact Legal.refl s

theorem legal_coolingPeriodExpiry (s : State) : ∃ t, execCoolingPeriodExpiry s = .next t ∧ Legal s t := by
  refine legal_live s _ fun _ => ?_
  split
  · exact Legal.refl s
  · exact Legal.after (works_policyPass _ _).legal (works_onDir s _).legal

end Sys2Proof.Machine
end

