-- ==== Sys2Proof/Laws/Commands.lean ====
section
/-! SUPPORT. What the other commands keep (`Legal`): those of the intake unit, the stream table, the
placement engine, the back-end link, the lines, the control requests and the resets, and a tick of
time. -/

-- One theorem at a time: each proof that waits holds a thread, and the check has memory for few.
set_option Elab.async false

namespace Sys2Proof.Machine

/-! ### Intake (R4 to R7, R181) -/

theorem legal_descriptorPasses (b0 b1 b2 b3 b4 b5 : Byte) (s : State) :
    ∃ t, execDescriptorPasses b0 b1 b2 b3 b4 b5 s = .next t ∧ Legal s t := by
  refine legal_live s _ fun _ => Legal.ite (fun h => ?_) (fun _ => Legal.refl s)
  simp only [State.dready, Bool.and_eq_true, decide_eq_true_eq] at h
  exact (calm_onIntake s _ (fun _ => by simp; omega)).legal

theorem Intake.popHead_queue (i : Intake) : i.popHead.queue.length ≤ i.queue.length := by
  simp [Intake.popHead]

theorem calm_popHead (s : State) : Calm s (s.onIntake Intake.popHead) :=
  calm_onIntake s _ (fun h => le_trans (Intake.popHead_queue _) h)

theorem Intake.headMayEnter_results {i : Intake} (h : i.headMayEnter = true) : i.results.length < 32 := by
  simp only [Intake.headMayEnter, Bool.and_eq_true, decide_eq_true_eq] at h; exact h.1

theorem calm_refuseHead (s : State) (d : Descriptor) (why : Reason) (c : Option Ctx)
    (h : s.intake.results.length < 32) : Calm s (s.refuseHead d why c) := by
  unfold State.refuseHead; dsimp only
  have k : Calm s (s.onIntake fun i => { i.popHead with results := i.results ++ [refusal d.tag why c] }) :=
    calm_onIntake s _ (fun h => le_trans (Intake.popHead_queue _) h) (fun _ => by simp; omega)
  split
  · exact k.trans (works_countRefused _ _).calm
  · exact k

theorem calm_takeHead (s : State) : Calm s s.takeHead := by
  unfold State.takeHead; split
  · exact Calm.refl s
  · split
    · exact Calm.ite (fun h => calm_refuseHead s _ _ _ (Intake.headMayEnter_results h)) (fun _ => Calm.refl s)
    · refine Calm.ite (fun _ => ?_) (fun _ => Calm.refl s)
      exact ((calm_popHead s).trans (works_handOff _ _ _ _).calm).trans (works_policyPass _ _).calm

theorem legal_takeIntakeHead (s : State) : ∃ t, execTakeIntakeHead s = .next t ∧ Legal s t :=
  legal_live s _ fun _ => (calm_takeHead s).legal

theorem calm_admitWaiter (s : State) (h : s.intake.results.length < 32) : Calm s s.admitWaiter := by
  have k : ∀ r, Calm s (s.onIntake fun i => i.popWaiter.addResult r) := fun r =>
    calm_onIntake s _ id (fun _ => by simp [Intake.addResult, Intake.popWaiter]; omega)
  unfold State.admitWaiter; split
  · exact Calm.refl s
  · exact calm_takeHead s
  · exact k _
  · split
    · exact (k _).trans (works_freeParts _ _).calm
    · exact calm_onIntake s _

theorem legal_resultEntersQueue (s : State) : ∃ t, execResultEntersQueue s = .next t ∧ Legal s t :=
  legal_live s _ fun _ => Legal.ite (fun h => (calm_admitWaiter s h).legal) (fun _ => Legal.refl s)

theorem calm_takeOffer (s : State) : Calm s s.takeOffer := by
  unfold State.takeOffer; split
  · exact Calm.refl s
  · exact calm_onIntake s _
  · exact (calm_onFlt s _ (fun h => by simp; omega)).trans (calm_onIntake _ _)
  · exact calm_onIntake s _ id (fun h => by simp; omega)

theorem legal_outboundRecordTaken (s : State) : ∃ t, execOutboundRecordTaken s = .next t ∧ Legal s t :=
  legal_live s _ fun _ => (calm_takeOffer s).legal

/-! ### Deadlines and idle time (R28, R30) -/

theorem works_expireDeadline (s : State) (c : Ctx) : Works s (s.expireDeadline c) := by
  unfold State.expireDeadline; split
  · exact Works.refl s
  · exact (((works_onCtx s c _).trans (works_countRefused _ _)).trans (works_deliver _ _)).trans
      (works_policyPass _ _)

theorem legal_deadlineExpiry (c : Ctx) (s : State) : ∃ t, execDeadlineExpiry c s = .next t ∧ Legal s t :=
  legal_live s _ fun _ => Legal.ite (fun _ => (works_expireDeadline s c).legal) (fun _ => Legal.refl s)

theorem works_releaseSlot (s : State) (c : Ctx) (k : Option (Slot × Gen)) : Works s (s.releaseSlot c k) := by
  unfold State.releaseSlot; split
  · exact works_leaveSlot s _ _
  · exact Works.refl s

theorem works_expireIdle (s : State) (c : Ctx) : Works s (s.expireIdle c) := by
  unfold State.expireIdle; dsimp only
  exact Works.ite (fun _ => ((works_onCtx s c _).trans (works_releaseSlot _ _ _)).trans
    (works_policyPass _ _)) (fun _ => Works.refl s)

theorem legal_idleTimerExpiry (c : Ctx) (s : State) : ∃ t, execIdleTimerExpiry c s = .next t ∧ Legal s t :=
  legal_live s _ fun _ => (works_expireIdle s c).legal

/-! ### PLACE (R65 to R69) -/

theorem queueRoom_length {s : State} (h : s.queueRoom = true) : s.link.queue.length < 16 := by
  simp only [State.queueRoom, Bool.and_eq_true, decide_eq_true_eq] at h; exact h.2

theorem PlaceJob.table_claims (j : PlaceJob) (n : Nat) (b : Bool) (p : Placement) :
    (j.table n b p).claims = p.claims := by
  unfold PlaceJob.table; split
  · split <;> rfl
  · rfl

theorem calm_issue (s : State) (j : PlaceJob) (n : Nat) (b : Bool) (h : s.link.queue.length < 16) :
    Calm s (s.issue j n b) := by
  unfold State.issue; dsimp only
  have w : Works s (((s.onPlc (j.table n b)).setExt j.k (some (j.filled n s.str.timeMs))).onCtx j.c
      (j.ctx n b (s.dir.rep.dir[j.k].kind? == some .mixed) s.str.timeMs)) :=
    ((works_onPlc s _ (fun h => by rw [PlaceJob.table_claims]; exact h)).trans (works_setExt _ _ _)).trans
      (works_onCtx _ _ _)
  generalize (((s.onPlc (j.table n b)).setExt j.k (some (j.filled n s.str.timeMs))).onCtx j.c
      (j.ctx n b (s.dir.rep.dir[j.k].kind? == some .mixed) s.str.timeMs)) = u at w ⊢
  have c : Calm u (u.onLink fun l => { l with queue := l.queue ++ [j.directive n] }) :=
    calm_onLink u _ (fun _ => by simp [w.link]; omega)
  exact Calm.ite (fun _ => (w.calm.trans c).trans (works_decideShut _ _ _ _).calm) (fun _ => w.calm.trans c)

theorem works_releaseTail (s : State) (j : PlaceJob) : Works s (s.releaseTail j) :=
  (works_onCtx s j.c _).trans (works_leaveSlot _ _ _)

theorem calm_allocate (s : State) (j : PlaceJob) (h : s.link.queue.length < 16) : Calm s (s.allocate j) :=
  Calm.ite (fun _ => calm_issue s j _ _ h) (fun _ => Calm.ite (fun _ => (works_releaseTail s j).calm)
    (fun _ => calm_issue s j _ _ h))

theorem placeTurn_room {s : State} {p : Ctx × DTag} (h : s.placeTurn = some p) :
    s.link.queue.length < 16 := by
  unfold State.placeTurn at h
  split at h
  · rename_i hc; simp only [Bool.and_eq_true] at hc; exact queueRoom_length hc.1.1.1
  · cases h

theorem legal_issuePlace (s : State) : ∃ t, execIssuePlace s = .next t ∧ Legal s t := by
  refine legal_live s _ fun _ => ?_
  split
  · rename_i j hj
    obtain ⟨p, hp, _⟩ := Option.bind_eq_some_iff.mp hj
    exact ((calm_allocate s j (placeTurn_room hp)).trans (works_policyPass _ _).calm).legal
  · exact Legal.refl s

theorem works_unknown (s : State) (k : Option Byte) : Works s (s.unknown k) := works_report s _ _ _ _ _

theorem works_recordDone (s : State) (t : DTag) (e : CompEntry) (o : PlaceOutcome) :
    Works s (s.recordDone t e o) := by
  unfold State.recordDone; dsimp only
  exact ((works_onPlc s _).trans (works_onExt _ _ _)).trans (works_onCtx _ _ _)

theorem works_drain (s : State) (c : Ctx) : Works s (s.drain c) := by
  unfold State.drain; dsimp only
  exact Works.ite (fun _ => (works_post s _).trans (works_onCtx _ _ _)) (fun _ => Works.refl s)

theorem works_dropTail (s : State) (t : DTag) (e : CompEntry) : Works s (s.dropTail t e) := by
  unfold State.dropTail
  exact Works.ite (fun _ => (works_onCtx s _ _).trans (works_onPlc _ _)) (fun _ => Works.refl s)

theorem works_shutFailed (s : State) (e : CompEntry) : Works s (s.shutFailed e) := by
  unfold State.shutFailed; split
  · exact Works.ite (fun _ => works_decideShut s _ _ _) (fun _ => Works.refl s)
  · exact Works.refl s

theorem works_placeOk (s : State) (t : DTag) (e : CompEntry) : Works s (s.placeOk t e) :=
  (((works_recordDone s t e _).trans (works_onCounters _ _ _)).trans (works_tryAssemble _ _)).trans
    (works_drain _ _)

theorem works_placeFailed (s : State) (t : DTag) (e : CompEntry) : Works s (s.placeFailed t e) :=
  ((((((works_recordDone s t e _).trans (works_report _ _ _ _ _ _)).trans (works_dropTail _ _ _)).trans
    (works_shutFailed _ _)).trans (works_tryAssemble _ _)).trans (works_drain _ _)).trans
    (works_policyPass _ _)

theorem legal_placeDone (tag : DTag) (o : CompletionOutcome) (s : State) :
    ∃ t, execPlaceDone tag o s = .next t ∧ Legal s t := by
  refine legal_live s _ fun _ => Legal.ite (fun _ => Legal.refl s) (fun _ => ?_)
  split
  · exact (works_placeOk s _ _).legal
  · exact (works_placeFailed s _ _).legal
  all_goals exact (works_unknown s _).legal

/-! ### The back-end link (R101, R103, R104, R159 to R165) -/

theorem legal_directiveSent (s : State) : ∃ t, execDirectiveSent s = .next t ∧ Legal s t :=
  legal_live s _ fun _ => Legal.ite
    (fun _ => (calm_onLink s _ (fun h => by simp; omega)).legal) (fun _ => Legal.refl s)

theorem nextOpen_room {s : State} {o : OpenOrder} (h : s.nextOpen = some o) :
    s.link.queue.length < 16 ∧ s.link.opens.length < 4 := by
  unfold State.nextOpen at h
  split at h
  · rename_i hc; simp only [Bool.and_eq_true, decide_eq_true_eq] at hc
    exact ⟨queueRoom_length hc.1, hc.2⟩
  · cases h

theorem nextClose_room {s : State} {k : Slot} (h : s.nextClose = some k) :
    s.link.queue.length < 16 ∧ s.link.closes.length < 4 := by
  unfold State.nextClose at h
  split at h
  · rename_i hc; simp only [Bool.and_eq_true, decide_eq_true_eq] at hc
    exact ⟨queueRoom_length hc.1, hc.2⟩
  · cases h

theorem legal_issueOpenOrder (s : State) : ∃ t, execIssueOpenOrder s = .next t ∧ Legal s t := by
  refine legal_live s _ fun _ => Legal.ite (fun _ => Legal.refl s) (fun _ => ?_)
  split
  · rename_i o h
    obtain ⟨h1, h2⟩ := nextOpen_room h
    exact (calm_onLink s _ (fun _ => by simp [Link.issueOpen]; omega)
      (fun _ => by simp [Link.issueOpen]; omega)).legal
  · exact Legal.refl s

theorem calm_issueClose (s : State) (k : Slot) (h1 : s.link.queue.length < 16)
    (h2 : s.link.closes.length < 4) : Calm s (s.issueClose k) := by
  unfold State.issueClose; split
  · refine (works_setExt s _ _).calm.trans (calm_onLink _ _ (fun _ => ?_) id (fun _ => ?_)) <;>
      simp [Link.issueClose, State.setExt, State.onDir] <;> omega
  · exact Calm.refl s

theorem legal_issueCloseOrder (s : State) : ∃ t, execIssueCloseOrder s = .next t ∧ Legal s t := by
  refine legal_live s _ fun _ => ?_
  split
  · rename_i k h
    exact (calm_issueClose s k (nextClose_room h).1 (nextClose_room h).2).legal
  · exact Legal.refl s

theorem calm_freeOpen (s : State) (k : Slot) (g : Gen) : Calm s (s.freeOpen k g) :=
  calm_onLink s _ id (fun h => le_trans (List.length_eraseP_le) h) id

theorem calm_freeClose (s : State) (k : Slot) (g : Gen) : Calm s (s.freeClose k g) :=
  calm_onLink s _ id id (fun h => le_trans (List.length_eraseP_le) h)

theorem works_endOpening (s : State) (k : Slot) : Works s (s.endOpening k) :=
  works_onPlc s _ (fun h => le_trans (List.length_filter_le _ _) h)

theorem works_openedOk (s : State) (k : Slot) : Works s (s.openedOk k) :=
  ((((works_onExt s k _).trans (works_endOpening _ _)).trans (works_giveOut _ _ _)).trans
    (works_policyPass _ _)).trans (works_evalPressure _)

theorem works_openedFailed (s : State) (k : Slot) : Works s (s.openedFailed k) :=
  ((((works_onExt s k _).trans (works_report _ _ _ _ _ _)).trans (works_endOpening _ _)).trans
    (works_decideShut _ _ _ _)).trans (works_policyPass _ _)

theorem works_opened (s : State) (k : Slot) (g : Gen) (ok : Bool) : Works s (s.opened k g ok) := by
  unfold State.opened; split
  · exact Works.ite (fun _ => Works.ite (fun _ => works_openedOk s k) (fun _ => works_openedFailed s k))
      (fun _ => Works.refl s)
  · exact Works.refl s

theorem calm_openReady (s : State) (b : Byte) (g : Gen) (ok : Bool) : Calm s (s.openReady b g ok) := by
  unfold State.openReady; split
  · exact (works_unknown s _).calm
  · split
    · exact (works_unknown s _).calm
    · exact Calm.ite (fun _ => calm_freeOpen s _ _)
        (fun _ => (calm_freeOpen s _ _).trans (works_opened _ _ _ _).calm)

theorem legal_openReady (b : Byte) (g : Gen) (o : CompletionOutcome) (s : State) :
    ∃ t, execOpenReady b g o s = .next t ∧ Legal s t := by
  refine legal_live s _ fun _ => Legal.ite (fun _ => Legal.refl s) (fun _ => ?_)
  split
  · exact (calm_openReady s _ _ _).legal
  · exact (calm_openReady s _ _ _).legal
  all_goals exact (works_unknown s _).legal

theorem works_countForRun (s : State) (k : Slot) (g : Gen) (b : Bool) : Works s (s.countForRun k g b) := by
  unfold State.countForRun; split
  · exact works_onMem s _
  · exact Works.refl s

theorem works_closeReported (s : State) (k : Slot) (g : Gen) (r : CloseReport) :
    Works s (s.closeReported k g r) := works_onExt s k _

theorem works_afterClose (s : State) (k : Slot) (g : Gen) : Works s (s.afterClose k g) := by
  unfold State.afterClose; dsimp only
  have h : Works s (if s.mem.state = .member then s.queueShutDone k else s) :=
    Works.ite (fun _ => works_queueShutDone s k) (fun _ => Works.refl s)
  exact Works.ite (fun _ => h.trans (works_dutyEval _)) (fun _ => h)

theorem works_closeEnded (s : State) (k : Slot) (g : Gen) (r : CloseReport) : Works s (s.closeEnded k g r) :=
  ((works_closeReported s k g r).trans (works_countForRun _ _ _ _)).trans (works_afterClose _ _ _)

theorem calm_closeDone (s : State) (b : Byte) (g : Gen) (r : CloseReport) : Calm s (s.closeDone b g r) := by
  unfold State.closeDone; split
  · exact (works_unknown s _).calm
  · split
    · exact (works_unknown s _).calm
    · exact Calm.ite (fun _ => calm_freeClose s _ _)
        (fun _ => (calm_freeClose s _ _).trans (works_closeEnded _ _ _ _).calm)

theorem legal_closeDone (b : Byte) (g : Gen) (o : CompletionOutcome) (s : State) :
    ∃ t, execCloseDone b g o s = .next t ∧ Legal s t := by
  refine legal_live s _ fun _ => Legal.ite (fun _ => Legal.refl s) (fun _ => ?_)
  split
  · exact (calm_closeDone s _ _ _).legal
  · exact (calm_closeDone s _ _ _).legal
  all_goals exact (works_unknown s _).legal

theorem calm_closeTimedOut (s : State) (k : Slot) (g : Gen) : Calm s (s.closeTimedOut k g) := by
  unfold State.closeTimedOut; dsimp only
  have h : Calm s (s.onLink fun l => { l with closes := l.closes.eraseP (·.isLive k g) }) :=
    calm_onLink s _ id id (fun h => le_trans (List.length_eraseP_le) h)
  exact h.trans ((((works_closeReported _ k g _).trans (works_report _ _ _ _ _ _)).trans
    (works_countForRun _ _ _ _)).trans (works_afterClose _ _ _)).calm

theorem legal_closeTimeoutExpiry (k : Slot) (g : Gen) (s : State) :
    ∃ t, execCloseTimeoutExpiry k g s = .next t ∧ Legal s t :=
  legal_live s _ fun _ => Legal.ite (fun _ => (calm_closeTimedOut s k g).legal) (fun _ => Legal.refl s)

theorem legal_portClean (s : State) : ∃ t, execPortClean s = .next t ∧ Legal s t := by
  refine legal_live s _ fun _ => ?_
  split
  · exact (calm_onLink s _).legal
  · exact (works_unknown s _).legal

theorem legal_releaseHoldExpiry (r : Tracker) (k : Slot) (g : Gen) (s : State) :
    ∃ t, execReleaseHoldExpiry r k g s = .next t ∧ Legal s t := by
  refine legal_live s _ fun _ => ?_
  cases r
  · exact (calm_onLink s _ id (fun h => le_trans (List.length_eraseP_le) h) id).legal
  · exact (calm_onLink s _ id id (fun h => le_trans (List.length_eraseP_le) h)).legal

/-! ### The lines (R119, R170 to R172) -/

theorem works_dropClaims (s : State) : Works s s.dropClaims :=
  (works_withdraw s _).trans (works_onPlc _ _ (fun h => le_trans (List.length_filter_le _ _) h))

theorem works_dropRecall (s : State) : Works s s.dropRecall := by
  unfold State.dropRecall; split
  · exact Works.ite (fun _ => Works.refl s) (fun _ => (works_withdraw s _).trans (works_endRequest _))
  · exact Works.refl s

theorem calm_warn (s : State) : Calm s s.warn := by
  have c : Calm s ((s.setPfw true).onLine fun l => { l with warned := true }).dropClaims.dropRecall :=
    Calm.after (works_dropRecall _).calm
      (Calm.after (works_dropClaims _).calm ((calm_onLine s _).trans (calm_onLine _ _)))
  unfold State.warn; dsimp only
  split
  · exact Calm.after (works_policyPass _ _).calm c
  · exact c

theorem calm_unwarn (s : State) : Calm s s.unwarn :=
  Calm.after (works_policyPass _ _).calm ((calm_onLine s _).trans (calm_onLine _ _))

theorem legal_lineEdge (pin act : State → State) (edge : Bool) (s : State) (hp : Legal s (pin s))
    (ha : Legal s (act s)) : ∃ t, lineEdge pin act edge s = .next t ∧ Legal s t := by
  unfold lineEdge; split
  · exact ⟨_, rfl, hp⟩
  · exact legal_live s _ fun _ => Legal.ite (fun _ => ha) (fun _ => Legal.refl s)

theorem calm_onset (s : State) : Calm s s.onset := by
  unfold State.onset; dsimp only
  exact Calm.after (works_evalPressure _).calm (Calm.after (works_policyPass _ _).calm
    (Calm.after (works_post _ _).calm (calm_onLine s _)))

theorem calm_endPressure (s : State) : Calm s s.endPressure := by
  unfold State.endPressure; dsimp only
  exact Calm.after (works_policyPass _ _).calm (Calm.after (works_post _ _).calm (calm_onLine s _))

theorem calm_pressureRises (s : State) : Calm s s.pressureRises := by
  have h : Calm s s.startEpisode := calm_onLine s _
  unfold State.pressureRises; split
  · exact Calm.refl s
  · exact Calm.ite (fun _ => Calm.refl s) (fun _ => calm_onset s)
  · exact Calm.ite (fun _ => h) (fun _ => h.trans (calm_onset _))

theorem calm_pressureFalls (s : State) : Calm s s.pressureFalls := by
  unfold State.pressureFalls; split
  · exact Calm.refl s
  · exact Calm.ite (fun _ => calm_endPressure s) (fun _ => Calm.refl s)
  · exact Calm.refl s

theorem legal_pfwAsserted (s : State) : ∃ t, execPfwAsserted s = .next t ∧ Legal s t :=
  legal_lineEdge _ _ _ s (calm_onLine s _).legal (calm_warn s).legal

theorem legal_pfwDeasserted (s : State) : ∃ t, execPfwDeasserted s = .next t ∧ Legal s t :=
  legal_lineEdge _ _ _ s (calm_onLine s _).legal (calm_unwarn s).legal

theorem legal_pressureAsserted (s : State) : ∃ t, execPressureAsserted s = .next t ∧ Legal s t :=
  legal_lineEdge _ _ _ s (calm_onLine s _).legal
    ((calm_onLine s _).trans (calm_pressureRises (s.setPressureLine true))).legal

theorem legal_pressureDeasserted (s : State) : ∃ t, execPressureDeasserted s = .next t ∧ Legal s t :=
  legal_lineEdge _ _ _ s (calm_onLine s _).legal
    ((calm_onLine s _).trans (calm_pressureFalls (s.setPressureLine false))).legal

theorem legal_episodeTimerExpiry (s : State) : ∃ t, execEpisodeTimerExpiry s = .next t ∧ Legal s t := by
  refine legal_live s _ fun _ => ?_
  split
  · exact Legal.refl s
  · dsimp only
    have c : Calm s (s.onLine fun l => { l with episode := none }) := calm_onLine s _
    exact Legal.ite (fun _ => c.legal.trans (calm_endPressure _).legal) (fun _ => c.legal)

/-! ### The control requests (R177 to R180) -/

theorem calm_respond (s : State) (code : Nat) (st : RespStatus) (l : List Byte) :
    Calm s (s.respond code st l) := calm_onIntake s _

theorem legal_control (code : Nat) (args : List Byte) (act : State → State) (s : State)
    (h : Legal s (act s)) : ∃ t, control code args act s = .next t ∧ Legal s t :=
  legal_live s _ fun _ => Legal.ite (fun _ => Legal.refl s) (fun _ => Legal.ite (fun _ => h)
    (fun _ => (calm_respond s _ _ _).legal))

theorem calm_configOnset (s : State) (c : StationCfg) : Calm s (s.configOnset c) :=
  Calm.ite (fun _ => calm_onset s) (fun _ => Calm.refl s)

theorem legal_leaveUnconfigured (s : State) (c : StationCfg) (map : Tab 8 LifeClass)
    (h : s.mem.state = .unconfigured) : Legal s ((s.storeConfig c map).leaveUnconfigured c) := by
  have f : Safe s (s.storeConfig c map) := (safe_onMem s _).trans (calm_onCls _ _).toSafe
  have hc : (s.storeConfig c map).mem.cfg ≠ none := fun x => by cases x
  have hr : s.Moded → (s.storeConfig c map).bus.receiver ≠ .off := fun m => m.on (by simp [h])
  have ha : s.Moded → ¬ (s.storeConfig c map).asks := fun m x => by
    have := m.asking x; rw [h] at this; cases this
  unfold State.leaveUnconfigured; split
  · refine ⟨f.trans ((safe_enter _ _).trans (works_queueFrame _ _).safe), fun m => ?_⟩
    exact (works_queueFrame _ _).calm.moded
      (moded_enter (hr m) hc (by decide) (fun x => absurd x (ha m)))
  · exact ⟨f.trans (safe_startListen _), fun m => moded_startListen (hr m) hc (ha m)⟩

theorem legal_actConfigure (args : List Byte) (s : State) : Legal s (State.actConfigure args s) := by
  unfold State.actConfigure; split
  · exact (calm_respond s _ _ _).legal
  · exact Legal.ite (fun h => ((legal_leaveUnconfigured s _ _ h).trans (calm_configOnset _ _).legal).trans
      (calm_respond _ _ _ _).legal) (fun _ => (calm_respond s _ _ _).legal)

theorem legal_actSetClassifier (args : List Byte) (s : State) :
    Legal s (State.actSetClassifier args s) := by
  unfold State.actSetClassifier; split
  · exact (calm_respond s _ _ _).legal
  · exact Legal.ite (fun _ => Legal.after (calm_respond _ _ _ _).legal (calm_onCls s _).legal)
      (fun _ => (calm_respond s _ _ _).legal)

theorem calm_setPlacementMode (s : State) (m : Mode) : Calm s (s.setPlacementMode m) := by
  unfold State.setPlacementMode; dsimp only
  have c : Calm s (s.onLine fun l => { l with mode := m }) := calm_onLine s _
  exact Calm.ite (fun _ => c.trans (works_policyPass _ _).calm) (fun _ => c)

theorem legal_actSetMode (args : List Byte) (s : State) : Legal s (State.actSetMode args s) := by
  unfold State.actSetMode; split
  · exact (calm_respond s _ _ _).legal
  · exact Legal.ite (fun _ => (calm_respond s _ _ _).legal)
      (fun _ => ((calm_setPlacementMode s _).trans (calm_respond _ _ _ _)).legal)

theorem works_park (s : State) (c : Ctx) : Works s (s.park c) := by
  unfold State.park; dsimp only
  exact ((works_onCtx s c _).trans (Works.foldl _ (fun t e => works_refuseEntry t c .parked e) _ _)).trans
    (works_releaseSlot _ _ _)

theorem legal_actParkStream (args : List Byte) (s : State) : Legal s (State.actParkStream args s) := by
  unfold State.actParkStream; split
  · exact (calm_respond s _ _ _).legal
  · refine Legal.ite (fun _ => ?_) (fun _ => (calm_respond s _ _ _).legal)
    dsimp only
    exact Legal.ite
      (fun _ => ((((works_park s _).trans (works_onCtx _ _ _)).trans (works_policyPass _ _)).calm.trans
        (calm_respond _ _ _ _)).legal)
      (fun _ => (((works_park s _).trans (works_policyPass _ _)).calm.trans (calm_respond _ _ _ _)).legal)

theorem legal_actUnparkStream (args : List Byte) (s : State) : Legal s (State.actUnparkStream args s) := by
  unfold State.actUnparkStream; split
  · exact (calm_respond s _ _ _).legal
  · exact Legal.ite (fun _ => ((works_onCtx s _ _).calm.trans (calm_respond _ _ _ _)).legal)
      (fun _ => (calm_respond s _ _ _).legal)

theorem legal_actReadStream (args : List Byte) (s : State) : Legal s (State.actReadStream args s) := by
  unfold State.actReadStream; split <;> exact (calm_respond s _ _ _).legal

theorem legal_actReadSlot (args : List Byte) (s : State) : Legal s (State.actReadSlot args s) := by
  unfold State.actReadSlot; split <;> exact (calm_respond s _ _ _).legal

theorem legal_actClearFault (s : State) : Legal s s.actClearFault :=
  ((calm_onFlt s _).trans (calm_respond _ _ _ _)).legal

theorem legal_actRestoreSlot (args : List Byte) (s : State) : Legal s (State.actRestoreSlot args s) := by
  unfold State.actRestoreSlot; split
  · exact (calm_respond s _ _ _).legal
  · exact Legal.ite (fun _ => ((works_queueFrame s _).calm.trans (calm_respond _ _ _ _)).legal)
      (fun _ => (calm_respond s _ _ _).legal)

theorem works_refuseAll (s : State) : Works s s.refuseAll := by
  unfold State.refuseAll State.emptyLists
  exact (Works.foldl _ (fun t c => works_onCtx t c _) _ s).trans
    (Works.foldl _ (fun t (p : Ctx × PendingEntry) => works_refuseEntry t p.1 _ p.2) _ _)

theorem works_endRecall (s : State) : Works s s.endRecall := by
  unfold State.endRecall; split
  · exact (works_withdraw s _).trans (works_endRequest _)
  · exact Works.refl s

theorem calm_depart (s : State) : Calm s s.depart := by
  unfold State.depart; dsimp only
  have c : Calm s (s.onMem fun m => { m with departing := true }) := calm_onMem s _
  refine c.trans (Works.calm ?_)
  generalize s.onMem (fun m => { m with departing := true }) = u
  exact (((((works_refuseAll u).trans (works_dropClaims _)).trans (works_endRecall _)).trans
    (Works.foldl _ (fun t k => works_decideShut t k .leaving _) _ _)).trans (works_policyPass _ _)).trans
    (works_queueLeave _)

theorem legal_actDepart (s : State) : Legal s s.actDepart :=
  Legal.ite (fun _ => ((calm_depart s).trans (calm_respond _ _ _ _)).legal)
    (fun _ => (calm_respond s _ _ _).legal)

theorem legal_actWake (s : State) : Legal s s.actWake := by
  unfold State.actWake
  refine Legal.ite (fun h => Legal.after (calm_respond _ _ _ _).legal ?_)
    (fun _ => (calm_respond s _ _ _).legal)
  have c := calm_forget s
  have q := forget_quiet s
  generalize s.forget = u at c q
  refine ⟨c.toSafe.trans (Safe.after (safe_startListen _) (safe_onBus u _)), fun m => ?_⟩
  exact moded_startListen (fun x => by cases x) ((c.moded m).set (by rw [c.state, h]; decide)) q

theorem legal_actRejoin (s : State) : Legal s s.actRejoin := by
  unfold State.actRejoin
  refine Legal.ite (fun h => Legal.after (calm_respond _ _ _ _).legal ?_)
    (fun _ => (calm_respond s _ _ _).legal)
  have c := calm_forget s
  have q := forget_quiet s
  generalize s.forget = u at c q
  refine ⟨c.toSafe.trans (safe_startListen u), fun m => ?_⟩
  have hu : u.mem.state = .isolated := c.state.trans h
  exact moded_startListen ((c.moded m).on (by simp [hu])) ((c.moded m).set (by simp [hu])) q

theorem legal_actOf (code : Nat) (args : List Byte) (s : State) : Legal s (State.actOf code args s) := by
  unfold State.actOf; split
  · exact legal_actConfigure _ s
  · exact legal_actSetClassifier _ s
  · exact legal_actSetMode _ s
  · exact legal_actParkStream _ s
  · exact legal_actUnparkStream _ s
  · exact legal_actReadStream _ s
  · exact legal_actReadSlot _ s
  · exact (calm_respond s _ _ _).legal
  · exact (calm_respond s _ _ _).legal
  · exact (calm_respond s _ _ _).legal
  · exact legal_actClearFault s
  · exact legal_actRestoreSlot _ s
  · exact legal_actDepart s
  · exact legal_actWake s
  · exact legal_actRejoin s
  · exact (calm_respond s _ _ _).legal

/-! ### Resets and time (R176) -/

theorem Bus.reset_receiver : Bus.reset.receiver ≠ .off := by decide

theorem legal_startReset (s : State) (k : ResetKind) : Legal s (s.startReset k) :=
  { bounded := fun _ => by
      constructor <;> simp [State.startReset, State.blank, Intake.reset, Placement.reset, Directory.reset,
        Bus.reset, Link.reset]
    sound := fun _ => Replica.empty_sound
    moded := fun _ =>
      { receiver := ⟨fun x => absurd x Bus.reset_receiver, fun x => by cases x⟩
        configured := ⟨fun _ => rfl, fun _ => rfl⟩
        asking := by rintro ⟨_, h⟩; cases h } }

theorem Faults.afterReset_notices (f : Faults) (k : ResetKind) : (f.afterReset k).notices = [] := by
  cases k <;> rfl

theorem legal_endReset (s : State) (k : ResetKind) (st : Station) (a : Bool) : Legal s (s.endReset k st a) :=
  { bounded := fun _ => by
      constructor <;> simp [State.endReset, State.blank, Intake.reset, Placement.reset, Directory.reset,
        Bus.reset, Link.reset, Faults.afterReset_notices]
    sound := fun _ => Replica.empty_sound
    moded := fun _ =>
      { receiver := ⟨fun x => absurd x Bus.reset_receiver, fun x => by cases x⟩
        configured := ⟨fun _ => rfl, fun _ => rfl⟩
        asking := by rintro ⟨_, h⟩; cases h } }

theorem legal_resetEnd (st : Station) (a : Bool) (s : State) :
    ∃ t, execResetEnd st a s = .next t ∧ Legal s t := by
  unfold execResetEnd; split
  · exact ⟨s, rfl, Legal.refl s⟩
  · exact ⟨_, rfl, legal_endReset s _ _ _⟩

theorem legal_tick (s : State) : Legal s s.tick := by
  refine Legal.ite (fun _ => Legal.refl s) (fun _ => Calm.legal ?_)
  exact
    { bounded := fun b => { b with opens := by simpa [Link.tick] using b.opens
                                   closes := by simpa [Link.tick] using b.closes }
      sound := id
      asks := fun ⟨e, he⟩ => by
        simp only [Directory.tick, Option.map_eq_some_iff] at he
        obtain ⟨r, hr, hx⟩ := he
        cases r with
        | ask e' => exact ⟨e', hr⟩
        | _ e' => cases hx }

end Sys2Proof.Machine
end

