-- ==== Sys2Proof/Laws/Framing.lean ====
section
/-! SUPPORT. The line coding read back: stuffing (R77) undone, the receiver on stuffed bits and a closing
delimiter (R81), and bytes from their bits. -/

-- One theorem at a time: each proof that waits holds a thread, and the check has memory for few.
set_option Elab.async false

namespace Sys2Proof.Machine

/-! ### Stuffing (R77) -/

theorem runAfter_le {v b : Bool} {n : Nat} (h : n ≤ 3) : runAfter v n b ≤ 4 := by
  unfold runAfter; split <;> omega

/-- R77: removing the stuff bits gives the bits back. -/
theorem unstuff_stuff (bits : List Bool) (v : Bool) (n : Nat) (h : n ≤ 3) :
    unstuffFrom v n (stuffFrom v n bits) = bits := by
  induction bits generalizing v n with
  | nil => rfl
  | cons b bs ih =>
    have hr := runAfter_le (v := v) (b := b) h
    have hn : n ≠ 4 := by omega
    by_cases hm : runAfter v n b = 4
    · simp only [stuffFrom, if_pos hm, unstuffFrom, if_neg hn]
      rw [ih (!b) 1 (by omega)]
    · simp only [stuffFrom, if_neg hm, unstuffFrom, if_neg hn]
      rw [ih b _ (by omega)]

/-- R81: over the stuffed bits of fewer than 464 data bits the receiver goes on. -/
theorem scan_stuff (bits rest : List Bool) (v : Bool) (n data read : Nat) (h : n ≤ 3)
    (hd : data + bits.length < 464) :
    ∃ v' n', n' ≤ 3 ∧ scan v n data read (stuffFrom v n bits ++ rest) =
      scan v' n' (data + bits.length) (read + (stuffFrom v n bits).length) rest := by
  induction bits generalizing v n data read with
  | nil => exact ⟨v, n, h, by simp [stuffFrom]⟩
  | cons b bs ih =>
    have hr := runAfter_le (v := v) (b := b) h
    simp only [List.length_cons] at hd
    by_cases hm : runAfter v n b = 4
    · obtain ⟨v', n', h', e⟩ := ih (!b) 1 (data + 1) (read + 1 + 1) (by omega) (by omega)
      refine ⟨v', n', h', ?_⟩
      have h1 : ¬ n = 4 := by omega
      have h2 : ¬ data = 463 := by omega
      have h4 : ¬ 5 ≤ n := by omega
      have h5 : runAfter b 4 (!b) = 1 := by cases b <;> rfl
      simp only [stuffFrom, List.cons_append, scan, hm, h1, h2, h4, h5, and_false, false_and, if_false,
        or_false, if_true, Nat.reduceEqDiff, Nat.reduceLeDiff]
      rw [e]
      simp only [List.length_cons]
      congr 1 <;> omega
    · obtain ⟨v', n', h', e⟩ := ih b (runAfter v n b) (data + 1) (read + 1) (by omega) (by omega)
      refine ⟨v', n', h', ?_⟩
      have h1 : ¬ (n = 4 ∨ 5 ≤ runAfter v n b) := by omega
      have h2 : ¬ (data + 1 = 464 ∧ data ≠ 464) := by omega
      have h3 : ¬ runAfter v n b = 5 := by omega
      have h4 : ¬ 5 ≤ n := by omega
      have h5 : ¬ runAfter v n b = 7 := by omega
      simp only [stuffFrom, if_neg hm, List.cons_append, scan, h1, h2, h3, h4, h5, and_false, if_false]
      rw [e]
      simp only [List.length_cons]
      congr 1 <;> omega

/-- R81: a closing delimiter after stuffed bits ends the reception at its fifth recessive bit. -/
theorem scan_closing (v : Bool) (n data read : Nat) (h : n ≤ 3) (hd : data + 5 < 464) :
    scan v n data read closingDelimiter = some (.closing, read + 6) := by
  have e1 : data + 1 ≠ 464 := by omega
  have e2 : data + 2 ≠ 464 := by omega
  have e3 : data + 3 ≠ 464 := by omega
  have e4 : data + 4 ≠ 464 := by omega
  have e5 : data + 5 ≠ 464 := by omega
  have e0 : data ≠ 464 := by omega
  obtain rfl | rfl | rfl | rfl : n = 0 ∨ n = 1 ∨ n = 2 ∨ n = 3 := by omega
  all_goals cases v <;>
    simp [scan, runAfter, closingDelimiter, e0, e1, e2, e3, e4, e5, Nat.add_assoc]

/-- R77, R81: what a frame's bits, stuffed and closed, are received as. -/
theorem receive_stuffed (bits : List Bool) (h : bits.length + 5 < 464) :
    receive (stuffFrom false 0 bits ++ closingDelimiter) = some (judge bits, false) := by
  obtain ⟨v, n, hn, e⟩ := scan_stuff bits closingDelimiter false 0 0 0 (by omega) (by omega)
  rw [scan_closing v n _ _ hn (by omega)] at e
  unfold receive
  rw [e]
  simp only [frameBits]
  rw [show 0 + (stuffFrom false 0 bits).length + 6 - 6 = (stuffFrom false 0 bits).length by omega,
    List.take_left, unstuff_stuff bits false 0 (by omega)]

/-! ### Bytes and their bits -/

theorem byteBits_length (b : Byte) : (byteBits b).length = 8 := rfl

theorem bitsBytes_byteBits (b : Byte) (rest : List Bool) :
    bitsBytes (byteBits b ++ rest) = b :: bitsBytes rest := by
  have h : BitVec.ofNat 8 (bitsNat (byteBits b)) = b := by
    revert b; decide
  show BitVec.ofNat 8 (bitsNat (byteBits b)) :: bitsBytes rest = _
  rw [h]

/-- The whole bytes of the bits of some bytes are those bytes. -/
theorem bitsBytes_flatMap (l : List Byte) : bitsBytes (l.flatMap byteBits) = l := by
  induction l with
  | nil => rfl
  | cons b l ih => rw [List.flatMap_cons, bitsBytes_byteBits, ih]

theorem flatMap_byteBits_length (l : List Byte) : (l.flatMap byteBits).length = 8 * l.length := by
  induction l with
  | nil => rfl
  | cons b l ih => rw [List.flatMap_cons, List.length_append, ih, byteBits_length, List.length_cons]; omega

/-- R79: a frame's bytes carry the check value of those before it. -/
theorem checkAgrees_append (l : List Byte) : checkAgrees (l ++ be16 (checkValue l)) = true := by
  have h : (l ++ be16 (checkValue l)).length - 2 = l.length := by simp [be16]
  unfold checkAgrees
  rw [h, List.drop_left, List.take_left]
  simp

/-! ### Fields read back -/

theorem ofBe16_be16 (w : BitVec 16) :
    ofBe16 (byteOf (w.toNat / 256)) (byteOf w.toNat) = w := by
  apply BitVec.eq_of_toNat_eq
  have := w.isLt
  simp only [ofBe16, byteOf, BitVec.toNat_ofNat]
  omega

theorem ofBe32_be32 (g : Gen) :
    ofBe32 (byteOf (g.toNat / 16777216)) (byteOf (g.toNat / 65536)) (byteOf (g.toNat / 256))
      (byteOf g.toNat) = g := by
  apply BitVec.eq_of_toNat_eq
  have := g.isLt
  simp only [ofBe32, byteOf, BitVec.toNat_ofNat]
  omega

theorem Kind.ofCode_code (k : Kind) : Kind.ofCode k.code = some k := by cases k <;> rfl

theorem Kind.code_toNat (k : Kind) : (byteOf k.code).toNat = k.code := by cases k <;> rfl

end Sys2Proof.Machine
end

