-- ==== Sys2Proof/Laws/Policy.lean ====
section
/-! SUPPORT. What the placement policy and the shuts it decides can do: each such operation `f` has one
lemma `polices_f : Polices s (f s)`. -/

-- One theorem at a time: each proof that waits holds a thread, and the check has memory for few.
set_option Elab.async false

namespace Sys2Proof.Machine

/-- What an extension keeps while the policy works. -/
structure Ext.KeptIn (x y : Ext) : Prop where
  serial : y.serial = x.serial := by rfl
  readiness : y.readiness = x.readiness := by rfl
  cursor : y.cursor = x.cursor := by rfl
  inFlight : y.inFlight = x.inFlight := by rfl
  lastFill : y.lastFill = x.lastFill := by rfl
  closeOrderIssued : y.closeOrderIssued = x.closeOrderIssued := by rfl
  closeReport : y.closeReport = x.closeReport := by rfl
  reportSent : y.reportSent = x.reportSent := by rfl
  due : x.shutDue.isSome → y.shutDue = x.shutDue ∧ y.shutRecall = x.shutRecall ∧
    y.shutSent = x.shutSent := by exact fun _ => ⟨rfl, rfl, rfl⟩

/-- What a context keeps while the policy works. -/
structure Context.KeptIn (x y : Context) : Prop where
  pending : y.pending = x.pending := by rfl
  key : y.key = x.key := by rfl
  cls : y.cls = x.cls := by rfl
  inFlight : y.inFlight = x.inFlight := by rfl
  lastWrite : y.lastWrite = x.lastWrite := by rfl
  counters : y.counters = x.counters := by rfl

/-- What the claim list keeps of an entry while the policy works. -/
def ClaimEntry.keptAs (e f : ClaimEntry) : Prop := f.slot = e.slot ∧ f.kind = e.kind ∧ f.phase = e.phase

/-- `t` comes from `s` by the placement policy: grants, claims, recalls and shuts. -/
structure Polices (s t : State) : Prop where
  intake : t.intake = s.intake := by rfl
  cls : t.cls = s.cls := by rfl
  mem : t.mem = s.mem := by rfl
  link : t.link = s.link := by rfl
  line : t.line = s.line := by rfl
  rst : t.rst = s.rst := by rfl
  pending : t.pending = s.pending := by rfl
  comp : t.plc.comp = s.plc.comp := by rfl
  rep : t.dir.rep = s.dir.rep := by rfl
  closing : t.dir.closing = s.dir.closing := by rfl
  ignored : t.dir.ignored = s.dir.ignored := by rfl
  cooling : t.dir.cooling = s.dir.cooling := by rfl
  log : t.dir.log = s.dir.log := by rfl
  snap : t.dir.snap = s.dir.snap := by rfl
  snapGen : t.dir.snapGen = s.dir.snapGen := by rfl
  serving : t.dir.serving = s.dir.serving := by rfl
  accept : t.str.accept = s.str.accept := by rfl
  timeMs : t.str.timeMs = s.str.timeMs := by rfl
  sub : t.str.sub = s.str.sub := by rfl
  sending : t.bus.sending = s.bus.sending := by rfl
  ownEnding : t.bus.ownEnding = s.bus.ownEnding := by rfl
  rx : t.bus.rx = s.bus.rx := by rfl
  receiver : t.bus.receiver = s.bus.receiver := by rfl
  mediumBusy : t.bus.mediumBusy = s.bus.mediumBusy := by rfl
  yieldOwed : t.bus.yieldOwed = s.bus.yieldOwed := by rfl
  beacon : t.bus.beacon = s.bus.beacon := by rfl
  heard : t.bus.heard = s.bus.heard := by rfl
  first : t.flt.first = s.flt.first := by rfl
  second : t.flt.second = s.flt.second := by rfl
  counts : t.flt.counts = s.flt.counts := by rfl
  frozen : t.flt.frozen = s.flt.frozen := by rfl
  notices : t.flt.notices = s.flt.notices := by rfl
  lost : t.flt.lost = s.flt.lost := by rfl
  ctx : ∀ c : Ctx, s.str.ctxs[c].KeptIn t.str.ctxs[c] := by exact fun _ => {}
  still : ∀ c : Ctx, s.str.ctxs[c].state ≠ .waiting → s.str.ctxs[c].state ≠ .bound →
    t.str.ctxs[c] = s.str.ctxs[c] := by exact fun _ _ _ => rfl
  active : ∀ c : Ctx, s.str.ctxs[c].state = .waiting ∨ s.str.ctxs[c].state = .bound →
    t.str.ctxs[c].state = .waiting ∨ t.str.ctxs[c].state = .bound ∨
      t.str.ctxs[c].state = .idle := by exact fun _ h => h.elim .inl (fun h => .inr (.inl h))
  ext : ∀ k : Slot, (s.dir.ext[k] = none → t.dir.ext[k] = none) ∧
    (∀ x, s.dir.ext[k] = some x → ∃ y, t.dir.ext[k] = some y ∧ x.KeptIn y) := by
      exact fun _ => ⟨id, fun x h => ⟨x, h, {}⟩⟩
  residents : ∀ (k : Slot) (y : Ext) (c : Ctx), t.dir.ext[k] = some y → c ∈ y.residents →
    (∃ x, s.dir.ext[k] = some x ∧ c ∈ x.residents) ∨ s.str.ctxs[c].state = .waiting ∨
      s.str.ctxs[c].state = .bound := by exact fun _ y _ h hc => .inl ⟨y, h, hc⟩
  noShut : ∀ (k : Slot) (x y : Ext), s.dir.ext[k] = some x → s.shutApplied k → t.dir.ext[k] = some y →
    y.shutDue = x.shutDue ∧ y.shutRecall = x.shutRecall ∧ y.shutSent = x.shutSent := by
      exact fun _ x y h _ h' => by cases h.symm.trans h'; exact ⟨rfl, rfl, rfl⟩
  request : s.dir.request.isSome ∨ s.dir.cooling.isSome ∨ s.recallPermission = false →
    t.dir.request = s.dir.request := by exact fun _ => rfl
  asked : t.dir.request = s.dir.request ∨
    ∃ e, t.dir.request = some (.recall e) ∧ e.phase = .queued := by exact .inl rfl
  kept : ∀ e ∈ s.plc.claims, ∃ f ∈ t.plc.claims, e.keptAs f := by
    exact fun e h => ⟨e, h, rfl, rfl, rfl⟩
  claims : s.recallPermission = false → ∀ f ∈ t.plc.claims, ∃ e ∈ s.plc.claims, e.keptAs f := by
    exact fun _ f h => ⟨f, h, rfl, rfl, rfl⟩
  opening : ∀ f ∈ t.plc.claims, f.phase = .opening → ∃ e ∈ s.plc.claims, e.keptAs f := by
    exact fun f h _ => ⟨f, h, rfl, rfl, rfl⟩
  tx : ∃ l, t.bus.tx = s.bus.tx ++ l := by exact ⟨[], (List.append_nil _).symm⟩
  held : ∃ l, t.bus.held = s.bus.held ++ l := by exact ⟨[], (List.append_nil _).symm⟩

namespace Polices

theorem refl (s : State) : Polices s s := {}

theorem recallPermission {s t : State} (h : Polices s t) : t.recallPermission = s.recallPermission := by
  simp only [State.recallPermission, h.mem, h.line]

theorem shutApplied {s t : State} (h : Polices s t) (k : Slot) : t.shutApplied k = s.shutApplied k := by
  simp only [State.shutApplied, State.holdsSlot, State.me, h.mem, h.rep]

theorem trans {s t u : State} (h : Polices s t) (g : Polices t u) : Polices s u where
  intake := g.intake.trans h.intake
  cls := g.cls.trans h.cls
  mem := g.mem.trans h.mem
  link := g.link.trans h.link
  line := g.line.trans h.line
  rst := g.rst.trans h.rst
  pending := g.pending.trans h.pending
  comp := g.comp.trans h.comp
  rep := g.rep.trans h.rep
  closing := g.closing.trans h.closing
  ignored := g.ignored.trans h.ignored
  cooling := g.cooling.trans h.cooling
  log := g.log.trans h.log
  snap := g.snap.trans h.snap
  snapGen := g.snapGen.trans h.snapGen
  serving := g.serving.trans h.serving
  accept := g.accept.trans h.accept
  timeMs := g.timeMs.trans h.timeMs
  sub := g.sub.trans h.sub
  sending := g.sending.trans h.sending
  ownEnding := g.ownEnding.trans h.ownEnding
  rx := g.rx.trans h.rx
  receiver := g.receiver.trans h.receiver
  mediumBusy := g.mediumBusy.trans h.mediumBusy
  yieldOwed := g.yieldOwed.trans h.yieldOwed
  beacon := g.beacon.trans h.beacon
  heard := g.heard.trans h.heard
  first := g.first.trans h.first
  second := g.second.trans h.second
  counts := g.counts.trans h.counts
  frozen := g.frozen.trans h.frozen
  notices := g.notices.trans h.notices
  lost := g.lost.trans h.lost
  ctx := fun c =>
    { pending := (g.ctx c).pending.trans (h.ctx c).pending, key := (g.ctx c).key.trans (h.ctx c).key,
      cls := (g.ctx c).cls.trans (h.ctx c).cls, inFlight := (g.ctx c).inFlight.trans (h.ctx c).inFlight,
      lastWrite := (g.ctx c).lastWrite.trans (h.ctx c).lastWrite,
      counters := (g.ctx c).counters.trans (h.ctx c).counters }
  still := fun c h1 h2 => by
    have e := h.still c h1 h2
    exact (g.still c (by rw [e]; exact h1) (by rw [e]; exact h2)).trans e
  active := fun c hc => by
    rcases h.active c hc with h1 | h1 | h1
    · exact g.active c (.inl h1)
    · exact g.active c (.inr h1)
    · rw [g.still c (by rw [h1]; decide) (by rw [h1]; decide)]; exact .inr (.inr h1)
  ext := fun k => ⟨fun e => (g.ext k).1 ((h.ext k).1 e), fun x e => by
    obtain ⟨y, hy, hk⟩ := (h.ext k).2 x e
    obtain ⟨z, hz, hl⟩ := (g.ext k).2 y hy
    refine ⟨z, hz, ?_⟩
    exact
      { serial := hl.serial.trans hk.serial, readiness := hl.readiness.trans hk.readiness,
        cursor := hl.cursor.trans hk.cursor, inFlight := hl.inFlight.trans hk.inFlight,
        lastFill := hl.lastFill.trans hk.lastFill,
        closeOrderIssued := hl.closeOrderIssued.trans hk.closeOrderIssued,
        closeReport := hl.closeReport.trans hk.closeReport, reportSent := hl.reportSent.trans hk.reportSent,
        due := fun d => by
          obtain ⟨a, b, c⟩ := hk.due d
          obtain ⟨a', b', c'⟩ := hl.due (by rw [a]; exact d)
          exact ⟨a'.trans a, b'.trans b, c'.trans c⟩ }⟩
  residents := fun k z c hz hc => by
    have back : t.str.ctxs[c].state = .waiting ∨ t.str.ctxs[c].state = .bound →
        s.str.ctxs[c].state = .waiting ∨ s.str.ctxs[c].state = .bound := by
      intro ht
      by_contra hn
      rw [not_or] at hn
      rw [h.still c hn.1 hn.2] at ht
      exact hn.1 (ht.resolve_right hn.2)
    rcases g.residents k z c hz hc with ⟨y, hy, hcy⟩ | h2
    · exact h.residents k y c hy hcy
    · exact .inr (back h2)
  noShut := fun k x z hx hs hz => by
    obtain ⟨y, hy, _⟩ := (h.ext k).2 x hx
    obtain ⟨a, b, c⟩ := h.noShut k x y hx hs hy
    obtain ⟨a', b', c'⟩ := g.noShut k y z hy (by rw [h.shutApplied]; exact hs) hz
    exact ⟨a'.trans a, b'.trans b, c'.trans c⟩
  request := fun hr => by
    have e := h.request hr
    exact (g.request (by rw [e, h.cooling, h.recallPermission]; exact hr)).trans e
  asked := by
    rcases g.asked with e | e
    · rcases h.asked with e' | ⟨x, hx, hp⟩
      · exact .inl (e.trans e')
      · exact .inr ⟨x, e.trans hx, hp⟩
    · exact .inr e
  kept := fun e he => by
    obtain ⟨f, hf, h1, h2, h3⟩ := h.kept e he
    obtain ⟨f', hf', g1, g2, g3⟩ := g.kept f hf
    exact ⟨f', hf', g1.trans h1, g2.trans h2, g3.trans h3⟩
  claims := fun hp f hf => by
    obtain ⟨e, he, g1, g2, g3⟩ := g.claims (by rw [h.recallPermission]; exact hp) f hf
    obtain ⟨e', he', h1, h2, h3⟩ := h.claims hp e he
    exact ⟨e', he', g1.trans h1, g2.trans h2, g3.trans h3⟩
  opening := fun f hf hp => by
    obtain ⟨e, he, g1, g2, g3⟩ := g.opening f hf hp
    obtain ⟨e', he', h1, h2, h3⟩ := h.opening e he (by rw [← g3]; exact hp)
    exact ⟨e', he', g1.trans h1, g2.trans h2, g3.trans h3⟩
  tx := by
    obtain ⟨l, hl⟩ := h.tx
    obtain ⟨m, hm⟩ := g.tx
    exact ⟨l ++ m, by rw [hm, hl, List.append_assoc]⟩
  held := by
    obtain ⟨l, hl⟩ := h.held
    obtain ⟨m, hm⟩ := g.held
    exact ⟨l ++ m, by rw [hm, hl, List.append_assoc]⟩

theorem foldl {α : Type} (f : State → α → State) (h : ∀ s x, Polices s (f s x)) (l : List α)
    (s : State) : Polices s (l.foldl f s) := by
  induction l generalizing s with
  | nil => exact refl s
  | cons x l ih => exact (h s x).trans (ih (f s x))

theorem foldlFlag {α : Type} (f : State × Bool → α → State × Bool)
    (h : ∀ p x, Polices p.1 (f p x).1) (l : List α) (p : State × Bool) :
    Polices p.1 (l.foldl f p).1 := by
  induction l generalizing p with
  | nil => exact refl p.1
  | cons x l ih => exact (h p x).trans (ih (f p x))

theorem ite {s t u : State} {c : Prop} [Decidable c] (h : c → Polices s t) (g : ¬c → Polices s u) :
    Polices s (if c then t else u) := by
  by_cases hc : c
  · rw [if_pos hc]; exact h hc
  · rw [if_neg hc]; exact g hc

end Polices

/-! ### Queues, extensions and contexts -/

theorem Bus.queue_appends (b : Bus) (q : QFrame) :
    (∃ l, (b.queue q).tx = b.tx ++ l) ∧ (∃ l, (b.queue q).held = b.held ++ l) := by
  unfold Bus.queue
  split
  · exact ⟨⟨[q], rfl⟩, ⟨[], (List.append_nil _).symm⟩⟩
  · exact ⟨⟨[], (List.append_nil _).symm⟩, ⟨[q], rfl⟩⟩

/-- A frame to be queued changes the transmit queue and the frames held alone. -/
theorem Bus.queue_rest (b : Bus) (q : QFrame) :
    b.queue q = { b with tx := (b.queue q).tx, held := (b.queue q).held } := by
  unfold Bus.queue; split <;> rfl

theorem polices_queue (s : State) (q : QFrame) : Polices s (s.onBus (·.queue q)) := by
  have h := Bus.queue_rest s.bus q
  have h' := Bus.queue_appends s.bus q
  generalize hb : s.bus.queue q = b at h h'
  have e : s.onBus (·.queue q) = s.onBus fun u => { u with tx := b.tx, held := b.held } := by
    simp only [State.onBus, hb]; rw [h]
  rw [e]
  exact { tx := h'.1, held := h'.2 }

theorem polices_queueFrame (s : State) (b : Body) : Polices s (s.queueFrame b) := polices_queue s _

theorem polices_setExt (s : State) (k : Slot) (x y : Ext) (h : s.dir.ext[k] = some x)
    (hk : x.KeptIn y)
    (hr : ∀ c ∈ y.residents, c ∈ x.residents ∨ s.str.ctxs[c].state = .waiting ∨
      s.str.ctxs[c].state = .bound)
    (hs : s.shutApplied k → y.shutDue = x.shutDue ∧ y.shutRecall = x.shutRecall ∧
      y.shutSent = x.shutSent) : Polices s (s.setExt k (some y)) where
  ext := fun j => by
    simp only [State.setExt_eq, State.onDir_dir, put_get]
    by_cases hj : j = k
    · subst hj; simp only [h, if_true, Option.some.injEq]
      exact ⟨fun e => absurd e (by simp), fun z e => e ▸ ⟨y, rfl, hk⟩⟩
    · simp only [hj, if_false]; exact ⟨id, fun z e => ⟨z, e, {}⟩⟩
  residents := fun j z c hz hc => by
    simp only [State.setExt_eq, State.onDir_dir, put_get] at hz
    by_cases hj : j = k
    · subst hj; simp only [if_true] at hz; cases hz
      rcases hr c hc with h1 | h1
      · exact .inl ⟨x, h, h1⟩
      · exact .inr h1
    · simp only [hj, if_false] at hz; exact .inl ⟨z, hz, hc⟩
  noShut := fun j z w hz hj hw => by
    simp only [State.setExt_eq, State.onDir_dir, put_get] at hw
    by_cases hjk : j = k
    · subst hjk; simp only [if_true] at hw; cases hw; cases h.symm.trans hz; exact hs hj
    · simp only [hjk, if_false] at hw; cases hz.symm.trans hw; exact ⟨rfl, rfl, rfl⟩

theorem clearClaimant_kept (c : Ctx) (x : Context) (l : List ClaimEntry) :
    (∀ e ∈ l, ∃ f ∈ clearClaimant c x l, e.keptAs f) ∧
      (∀ f ∈ clearClaimant c x l, ∃ e ∈ l, e.keptAs f) := by
  unfold clearClaimant
  split
  · exact ⟨fun e h => ⟨e, h, rfl, rfl, rfl⟩, fun e h => ⟨e, h, rfl, rfl, rfl⟩⟩
  · constructor
    · intro e h
      exact ⟨_, List.mem_map.mpr ⟨e, h, rfl⟩, by split <;> exact ⟨rfl, rfl, rfl⟩⟩
    · intro f h
      obtain ⟨e, he, rfl⟩ := List.mem_map.mp h
      exact ⟨e, he, by split <;> exact ⟨rfl, rfl, rfl⟩⟩

theorem polices_onCtx (s : State) (c : Ctx) (f : Context → Context) (hk : ∀ x : Context, x.KeptIn (f x))
    (h1 : s.str.ctxs[c].state = .waiting ∨ s.str.ctxs[c].state = .bound)
    (h2 : (f s.str.ctxs[c]).state = .waiting ∨ (f s.str.ctxs[c]).state = .bound ∨
      (f s.str.ctxs[c]).state = .idle) : Polices s (s.onCtx c f) where
  ctx := fun d => by
    simp only [State.onCtx, State.setCtx, put_get]
    by_cases hd : d = c
    · subst hd; simp only [if_true]
      have := hk s.str.ctxs[d]
      exact { pending := this.pending, key := this.key, cls := this.cls, inFlight := this.inFlight,
              lastWrite := this.lastWrite, counters := this.counters }
    · simp only [hd, if_false]; exact {}
  still := fun d a b => by
    simp only [State.onCtx, State.setCtx, put_get]
    by_cases hd : d = c
    · subst hd; rcases h1 with h | h
      · exact absurd h a
      · exact absurd h b
    · simp only [hd, if_false]
  active := fun d hd' => by
    simp only [State.onCtx, State.setCtx, put_get]
    by_cases hd : d = c
    · subst hd; simp only [if_true]; exact h2
    · simp only [hd, if_false]; exact hd'.elim .inl (fun h => .inr (.inl h))
  kept := (clearClaimant_kept _ _ _).1
  claims := fun _ => (clearClaimant_kept _ _ _).2
  opening := fun f hf _ => (clearClaimant_kept _ _ _).2 f hf

theorem polices_dropResident (s : State) (k : Slot) (c : Ctx) : Polices s (s.dropResident k c) := by
  unfold State.dropResident State.onExt
  split
  · rename_i x h
    exact polices_setExt s k x _ h {} (fun d hd => .inl (List.mem_of_mem_filter hd))
      (fun _ => ⟨rfl, rfl, rfl⟩)
  · exact Polices.refl s

theorem State.dropResident_str (s : State) (k : Slot) (c : Ctx) : (s.dropResident k c).str = s.str := by
  unfold State.dropResident State.onExt; split <;> rfl

theorem Context.afterResidency_state (x : Context) :
    x.afterResidency.state = .waiting ∨ x.afterResidency.state = .bound ∨
      x.afterResidency.state = .idle := by
  unfold Context.afterResidency; dsimp only; split
  · exact .inr (.inr rfl)
  · exact .inl rfl

theorem polices_endResidency (s : State) (c : Ctx) : Polices s (s.endResidency c) := by
  unfold State.endResidency
  split
  · rename_i h _
    exact (polices_dropResident s _ c).trans (polices_onCtx _ c _ (fun _ => {})
      (by rw [State.dropResident_str]; exact .inr h) (Context.afterResidency_state _))
  · exact Polices.refl s

theorem polices_grant (s : State) (c : Ctx) (k : Slot) (h : s.str.ctxs[c].state = .waiting) :
    Polices s (s.grant c k) := by
  unfold State.grant
  split
  · rename_i x hx
    exact (polices_setExt s k x { x with residents := x.residents ++ [c] } hx {}
      (fun d hd => by
        rcases List.mem_append.mp hd with h' | h'
        · exact .inl h'
        · rw [List.mem_singleton.mp h']; exact .inr (.inl h))
      (fun _ => ⟨rfl, rfl, rfl⟩)).trans
      (polices_onCtx _ c (fun t => { t with state := .bound, slot := some (k, x.serial) })
        (fun _ => {}) (.inl h) (.inr (.inl rfl)))
  · exact Polices.refl s

/-! ### Shuts (R72) -/

theorem polices_decideShut (s : State) (k : Slot) (c : ShutCause) (r : Option (ReqTag × Station)) :
    Polices s (s.decideShut k c r) := by
  unfold State.decideShut
  split
  · exact Polices.refl s
  · rename_i x hx
    dsimp only
    refine Polices.ite (fun _ => Polices.refl s) (fun hn => ?_)
    rw [not_or] at hn
    have h : ∀ l : List Ctx, Polices s (l.foldl State.endResidency
        (s.setExt k (some { x with shutDue := some c, shutRecall := r, shutSent := false }))) := fun l =>
      (polices_setExt s k x { x with shutDue := some c, shutRecall := r, shutSent := false } hx
        { due := fun d => absurd d hn.1 } (fun d hd => .inl hd)
        (fun d => absurd d hn.2)).trans (Polices.foldl _ polices_endResidency _ _)
    exact Polices.ite (fun _ => (h _).trans (polices_queueFrame _ _)) (fun _ => h _)

theorem polices_leaveSlot (s : State) (c : Ctx) (k : Slot) : Polices s (s.leaveSlot c k) := by
  unfold State.leaveSlot; dsimp only; split
  · exact Polices.ite (fun _ => (polices_dropResident s k c).trans (polices_decideShut _ _ _ _))
      (fun _ => polices_dropResident s k c)
  · exact polices_dropResident s k c

/-! ### The waiting order (R26) -/

theorem mem_insertByAge (t : Streams) (c d : Ctx) (l : List Ctx) :
    d ∈ insertByAge t c l ↔ d = c ∨ d ∈ l := by
  induction l with
  | nil => simp [insertByAge]
  | cons x l ih =>
    unfold insertByAge
    split
    · simp
    · rw [List.mem_cons, ih, List.mem_cons]; tauto

theorem mem_ageOrder (t : Streams) (d : Ctx) (l acc : List Ctx) :
    d ∈ l.foldl (fun l c => insertByAge t c l) acc ↔ d ∈ l ∨ d ∈ acc := by
  induction l generalizing acc with
  | nil => simp
  | cons x l ih => rw [List.foldl_cons, ih, mem_insertByAge, List.mem_cons]; tauto

/-- The waiting order holds the WAITING streams and no others. -/
theorem mem_waitingOrder (t : Streams) (c : Ctx) : c ∈ t.waitingOrder ↔ t.ctxs[c].state = .waiting := by
  rw [Streams.waitingOrder, mem_ageOrder]
  simp [allCtxs]

theorem waitingOrder_waiting {t : Streams} {c : Ctx} (h : c ∈ t.waitingOrder) :
    t.ctxs[c].state = .waiting := (mem_waitingOrder t c).mp h

/-! ### The steps of the policy (R58 to R62) -/

theorem polices_queueClaim (s : State) (kind : SlotKind) (c : Option Ctx)
    (h : (s.withinQuota || s.fromPool) = true) : Polices s (s.queueClaim kind c) := by
  have hp : s.recallPermission = true := by
    rcases Bool.or_eq_true _ _ |>.mp h with h | h
    · simp only [State.withinQuota, State.claimPermission, Bool.and_eq_true] at h
      simp only [State.recallPermission, Bool.and_eq_true]
      exact ⟨h.1.1.1.1, h.1.1.2⟩
    · simp only [State.fromPool, State.claimPermission, Bool.and_eq_true] at h
      simp only [State.recallPermission, Bool.and_eq_true]
      exact ⟨h.1.1.1.1.1, h.1.1.1.2⟩
  unfold State.queueClaim
  split
  · exact Polices.refl s
  · refine Polices.trans (t := s.onPlc fun p => { p with claims := p.claims ++ [_] }) ?_
      (polices_queueFrame _ _)
    exact
      { kept := fun e he => ⟨e, List.mem_append_left _ he, rfl, rfl, rfl⟩,
        claims := fun hf => absurd (hf.symm.trans hp) (by decide),
        opening := fun f hf ho => by
          rcases List.mem_append.mp hf with h' | h'
          · exact ⟨f, h', rfl, rfl, rfl⟩
          · rw [List.mem_singleton.mp h'] at ho; cases ho }

theorem polices_loadRequest (s : State) (r : LastReq) : Polices s (s.onFlt (·.loadRequest r)) := by
  have h : s.flt.loadRequest r = { s.flt with lastReq := (s.flt.loadRequest r).lastReq } := by
    unfold Faults.loadRequest; split <;> rfl
  have e : s.onFlt (·.loadRequest r) =
      s.onFlt fun u => { u with lastReq := (s.flt.loadRequest r).lastReq } := by
    simp only [State.onFlt]; rw [h]
  rw [e]
  exact {}

theorem polices_beginRecall (s : State) (h : s.recallPermission = true) : Polices s s.beginRecall := by
  unfold State.beginRecall
  refine Polices.ite (fun _ => Polices.refl s) (fun hn => ?_)
  rw [not_or] at hn
  split
  · exact Polices.refl s
  · rename_i g hg
    dsimp only
    refine Polices.trans (Polices.trans ?_ (polices_queueFrame _ _)) (polices_loadRequest _ _)
    exact
      { request := fun hr => by
          rcases hr with h1 | h1 | h1
          · exact absurd h1 hn.1
          · exact absurd h1 hn.2
          · exact absurd (h.symm.trans h1) (by decide),
        asked := .inr ⟨_, rfl, rfl⟩ }

theorem recallNeeded_permission {s : State} (h : s.recallNeeded = true) : s.recallPermission = true := by
  simp only [State.recallNeeded, Bool.and_eq_true] at h; exact h.1.1.1

theorem polices_stepFive (s : State) (c : Ctx) (h : s.str.ctxs[c].state = .waiting) :
    Polices s (s.stepFive c).1 := by
  unfold State.stepFive; split
  · split
    · split
      · split
        · exact polices_grant s c _ h
        · exact polices_decideShut s _ _ _
      · split
        · exact polices_grant s c _ h
        · exact Polices.refl s
      · exact Polices.refl s
    · exact Polices.refl s
  · split
    · exact Polices.refl s
    · split
      · rename_i hc; exact polices_queueClaim s _ _ hc
      · exact Polices.refl s

theorem polices_visit (s : State) (skip : List Ctx) (c : Ctx) : Polices s (s.visit skip c).1 := by
  unfold State.visit
  split
  · exact Polices.refl s
  · rename_i hw
    have hw := not_not.mp hw
    split
    · exact Polices.refl s
    · split
      · exact polices_stepFive s c hw
      · split
        · exact polices_stepFive s c hw
        · split
          · rename_i h; exact polices_queueClaim s _ _ h.2
          · split
            · exact polices_grant s c _ hw
            · split
              · rename_i h; exact polices_beginRecall s (recallNeeded_permission h)
              · exact polices_stepFive s c hw

theorem polices_passOnce (s : State) (skip : List Ctx) : Polices s (s.passOnce skip).1 :=
  Polices.foldlFlag (fun p c => ((p.1.visit skip c).1, p.2 || (p.1.visit skip c).2))
    (fun p c => polices_visit p.1 skip c) _ (s, false)

theorem polices_policyPass (s : State) (skip : List Ctx := []) : Polices s (s.policyPass skip) := by
  unfold State.policyPass
  refine Polices.ite (fun _ => ?_) (fun _ => Polices.refl s)
  dsimp only
  exact Polices.ite (fun _ => (polices_passOnce s skip).trans (polices_passOnce _ []))
    (fun _ => polices_passOnce s skip)

theorem polices_giveOut (s : State) (k : Slot) (c : Option Ctx) : Polices s (s.giveOut k c) := by
  unfold State.giveOut
  refine Polices.ite (fun _ => ?_) (fun _ => Polices.refl s)
  split
  · split
    · rename_i h; exact polices_grant s _ k (by simpa using (Option.filter_eq_some_iff.mp h).2)
    · split
      · rename_i d h
        have := List.find?_some h
        simp only [Bool.and_eq_true, State.fit] at this
        refine polices_grant s d k ?_
        have hm := List.mem_of_find?_eq_some h
        exact waitingOrder_waiting hm
      · exact polices_decideShut s k _ _
  · exact Polices.refl s

theorem polices_pressureShut (s : State) : Polices s s.pressureShut.1 := by
  unfold State.pressureShut; split
  · split
    · exact polices_decideShut s _ _ _
    · exact Polices.refl s
  · exact Polices.refl s

theorem polices_pressureEval (s : State) : Polices s s.pressureEval.1 := by
  unfold State.pressureEval; split
  · exact Polices.foldlFlag (fun p _ => (p.1.pressureShut.1, p.2 || p.1.pressureShut.2))
      (fun p _ => polices_pressureShut p.1) (List.range 4) (s, false)
  · exact Polices.refl s

theorem polices_evalPressure (s : State) : Polices s s.evalPressure := by
  unfold State.evalPressure; dsimp only
  exact Polices.ite (fun _ => (polices_pressureEval s).trans (polices_policyPass _ _))
    (fun _ => polices_pressureEval s)

end Sys2Proof.Machine
end

