-- ==== Sys2Proof/Laws/Live.lean ====
section
/-! SUPPORT. How a command ends: what bringing the waiting head and the offer up to date changes (R7,
R181), and frames of blocks (`State.frame`) from the lemmas on operations. -/

-- One theorem at a time: each proof that waits holds a thread, and the check has memory for few.
set_option Elab.async false

namespace Sys2Proof.Machine

/-- The intake unit as every command leaves it. -/
def State.settledIntake (s : State) : Intake := s.settleHead.settleOffer.intake

theorem settle_eq (s : State) : s.settleHead.settleOffer = { s with intake := s.settledIntake } := by
  unfold State.settledIntake State.settleOffer State.settleHead
  dsimp only
  repeat' split
  all_goals rfl

theorem settle_from (s : State) : s.intake.settledFrom s.settledIntake := by
  unfold State.settledIntake State.settleOffer State.settleHead
  dsimp only
  repeat' split
  all_goals exact ⟨rfl, rfl, rfl⟩

/-- Bringing the intake unit up to date drops no result that waits. -/
theorem settle_waiters (s : State) (w : Waiter) (h : w ∈ s.intake.waiters) (hw : w ≠ .intakeHead) :
    w ∈ s.settledIntake.waiters := by
  unfold State.settledIntake State.settleOffer State.settleHead
  dsimp only
  repeat' split
  all_goals simp_all

/-- R176: outside a reset a command's effect is made, and the intake unit is brought up to date. -/
theorem live_next {s : State} (f : State → State) (h : s.rst = none) :
    live s f = .next { f s with intake := (f s).settledIntake } := by
  simp only [live, h, Option.isSome_none, Bool.false_eq_true, if_false, settle_eq]

/-! ### Frames -/

theorem State.changesOnly.refl (s : State) (l : List Block) : s.changesOnly s l :=
  ⟨fun b _ => by cases b <;> rfl, rfl, rfl⟩

theorem State.changesOnly.trans {s t u : State} {l m : List Block} (h : s.changesOnly t l)
    (g : t.changesOnly u m) : s.changesOnly u (l ++ m) := by
  refine ⟨fun b hb => ?_, g.2.1.trans h.2.1, g.2.2.trans h.2.2⟩
  simp only [List.mem_append, not_or] at hb
  have h1 := h.1 b hb.1
  have h2 := g.1 b hb.2
  cases b <;> exact Eq.trans h2 h1

theorem State.changesOnly.mono {s t : State} {l m : List Block} (h : s.changesOnly t l)
    (hl : ∀ b ∈ l, b ∈ m) : s.changesOnly t m :=
  ⟨fun b hb => h.1 b (fun hc => hb (hl b hc)), h.2⟩

/-- The frame of a command from the frame of its effect: the intake unit is listed, or stands. -/
theorem frame_settled {s t : State} {l : List Block} (h : s.changesOnly t (.intake :: l))
    (hi : .intake ∈ l ∨ t.intake = s.intake) :
    s.frame { t with intake := t.settledIntake } l := by
  refine ⟨⟨fun b hb => ?_, h.2⟩, fun hn => ?_⟩
  · have := h.1 b hb
    cases b <;> first | exact this | exact absurd (List.mem_cons_self ..) hb
  · rw [← hi.resolve_left hn]; exact settle_from t

theorem Polices.changesOnly {s t : State} (h : Polices s t) : s.changesOnly t policyBlocks := by
  refine ⟨fun b hb => ?_, h.rst, h.pending⟩
  cases b
  · exact h.intake
  · exact h.cls
  · exact absurd (by decide) hb
  · exact absurd (by decide) hb
  · exact absurd (by decide) hb
  · exact absurd (by decide) hb
  · exact h.mem
  · exact h.link
  · exact h.line
  · exact absurd (by decide) hb

/-- The blocks the station's own work may change. -/
theorem Works.changesOnly {s t : State} (h : Works s t) :
    s.changesOnly t [.intake, .str, .plc, .dir, .bus, .mem, .flt] := by
  refine ⟨fun b hb => ?_, h.rst, h.pending⟩
  cases b
  · exact absurd (by decide) hb
  · exact h.cls
  · exact absurd (by decide) hb
  · exact absurd (by decide) hb
  · exact absurd (by decide) hb
  · exact absurd (by decide) hb
  · exact absurd (by decide) hb
  · exact h.link
  · exact h.line
  · exact absurd (by decide) hb

/-! ### Contexts and results -/

theorem onCtx_get (s : State) (c d : Ctx) (f : Context → Context) :
    (s.onCtx c f).str.ctxs[d] =
      if d = c then { f s.str.ctxs[c] with idle := idleAfter s.idleTicks c s.str.ctxs[c] (f s.str.ctxs[c]) }
      else s.str.ctxs[d] := by
  simp only [State.onCtx, State.setCtx, put_get]

theorem onCounters_get (s : State) (c d : Ctx) (f : Counters → Counters) :
    (s.onCounters c f).str.ctxs[d] =
      if d = c then { s.str.ctxs[c] with counters := f s.str.ctxs[c].counters } else s.str.ctxs[d] := by
  simp only [State.onCounters, State.onStr, put_get]

theorem onCtx_changes (s : State) (c : Ctx) (f : Context → Context) :
    s.changesOnly (s.onCtx c f) [.str, .plc] := by
  refine ⟨fun b hb => ?_, rfl, rfl⟩
  cases b <;> first | rfl | exact absurd (by decide) hb

theorem onCounters_changes (s : State) (c : Ctx) (f : Counters → Counters) :
    s.changesOnly (s.onCounters c f) [.str] := by
  refine ⟨fun b hb => ?_, rfl, rfl⟩
  cases b <;> first | rfl | exact absurd (by decide) hb

/-- A delivery changes the intake unit alone. -/
theorem deliver_eq (s : State) (r : ResultRec) : s.deliver r = { s with intake := (s.deliver r).intake } := rfl

theorem deliver_intake (s : State) (r : ResultRec) :
    (s.deliver r).intake =
      if s.intake.results.length < 32 ∧ s.intake.waiters = [] then
        { s.intake with results := s.intake.results ++ [r] }
      else { s.intake with waiters := s.intake.waiters ++ [.store r] } := by
  simp only [State.deliver, State.onIntake, Intake.hasRoom, Bool.and_eq_true, decide_eq_true_eq,
    List.isEmpty_iff]

theorem report_counts (f : Faults) (r : FaultRec) :
    (f.report r).counts = put f.counts r.cause.index (satAdd 65535 f.counts[r.cause.index] 1) := by
  unfold Faults.report Faults.post
  dsimp only
  repeat' split
  all_goals rfl

theorem post_counts (f : Faults) (b : NoticeBody) : (f.post b).counts = f.counts := by
  unfold Faults.post; split <;> rfl

/-- A report raises the count of its cause. -/
theorem report_counted (s : State) (c : Cause) (slot : Option Byte) (st : Option Ctx)
    (peer : Option Station) (kind : Option Kind) : s.counted (s.report c slot st peer kind) c := by
  simp only [State.counted, State.report, State.onFlt_flt, report_counts, put_get, if_true, satAdd]

end Sys2Proof.Machine
end

