-- ==== Sys2Proof/Tests/Slice0.lean ====
section
/-! SUPPORT. Tests on small states: the checks of `Instr.wellFormed`, worked examples of the spec, and for
each statement with hypotheses a state and operands that meet them, clause by clause. -/

namespace Sys2Proof.Tests

open Sys2Proof Sys2Proof.Machine

-- One theorem at a time: each holds a thread while the kernel decides it.
set_option Elab.async false

/-! ### Ill-formed commands -/

theorem test_illformed_badCode : (Instr.controlRequestBadCode 3 [0]).wellFormed = false := by
  decide +kernel
theorem test_illformed_idleTimer : (Instr.idleTimerExpiry 0).wellFormed = false := by decide +kernel
theorem test_illformed_receptionEnd :
    (Instr.receptionEnd (closingDelimiter ++ [true])).wellFormed = false := by decide +kernel
theorem test_wellformed :
    (Instr.controlRequestBadCode 3 []).wellFormed ∧ (Instr.controlRequestBadCode 16 [0]).wellFormed ∧
      (Instr.idleTimerExpiry 63).wellFormed ∧ (Instr.receptionEnd closingDelimiter).wellFormed := by
  decide +kernel

/-! ### States -/

/-- B 12, C 1,024, P 1 ms. -/
def params : Params := { b := 12, c := 1024, p := 2 }

/-- A station's configuration. -/
def cfg : StationCfg :=
  { params := params, quota := 2, wakeFactor := 1, pressureMode := .level, idleMs := 10,
    deadlineMs := 5, closeTimeout := 64 }

/-- A directory over slots FREE below B. -/
def dirOf (l : List (Slot × DirEntry)) : Tab 48 DirEntry :=
  l.foldl (fun t e => put t e.1 e.2) (Replica.ofSeal [] params).dir

/-- Stations 0 (this one) and 1 PRESENT, with the quotas given; station 2 ABSENT with a slot and station 3
with a run of station 0. Slots: 0 OPEN, 1 CLOSING, 2 to 4 of station 1, 5 QUARANTINED, 6 and 7 ORPHANED. -/
def repQ (q0 q1 : BitVec 4) : Replica :=
  { Replica.ofSeal [⟨0, q0, false⟩, ⟨1, q1, false⟩] params with
    gen := 9,
    dir := dirOf [(0, .opened 0 (.normal 1) 5), (1, .closing 0 (.normal 0) 6 .full 0),
      (2, .opened 1 .mixed 7), (3, .closing 1 (.normal 2) 8 .idle 0),
      (4, .closing 1 (.normal 2) 9 .fault 1), (5, .quarantined), (6, .orphaned 2 .mixed 3 0),
      (7, .orphaned 3 (.normal 3) 4 1)],
    runs := put (Vector.replicate 8 none) 3 (some 0) }

/-- A holding, READY and with room. -/
def ext0 : Ext := { Ext.fresh 5 with readiness := .ready, cursor := 1000 }

/-- A station in a membership state, configured, with a replica. -/
def stationOf (m : MemberState) (r : Replica) : State :=
  { State.reset with
    mem := { State.reset.mem with state := m, cfg := some cfg },
    dir := { Directory.reset with
      rep := r, ext := put (put Directory.reset.ext 0 (some ext0)) 1 (some (Ext.fresh 6)),
      closing := [1] },
    bus := { Bus.reset with receiver := if m = .dormant then .off else .hunt },
    link := { Link.reset with state := .operating } }

/-- A MEMBER station. -/
def up : State := stationOf .member (repQ 2 2)

/-- The station in another membership state. -/
def inState (m : MemberState) (s : State) : State := s.onMem fun x => { x with state := m }

/-- A frame of a station, at the generation of `up`. -/
def fr (st : Station) (b : Body) : Frame :=
  { sender := st, dest := none, base := if b.kind.hasBase then some 9 else none, body := b }

/-- The state with a CLEAN frame at the head of its receive queue. -/
def got (own : Bool) (f : Frame) (s : State) : State :=
  s.onBus fun b => { b with rx := [{ status := .clean f, lostAfter := false, own := own }] }

/-- The state with this request. -/
def asking (r : Request) (s : State) : State := s.onDir fun d => { d with request := some r }

/-- A RECALL entry and a CATCHUP-ASK entry under tag 3. -/
def recallE (p : RecallPhase) (tries : Nat) : RecallEntry :=
  { tag := 3, phase := p, target := 1, began := 9, tries := tries, timer := none }
def askE (p : AskPhase) : AskEntry := { tag := 3, phase := p, began := 9, tries := 0, timer := none }

/-- The state with a context of the stream table as given. -/
def withCtx (c : Ctx) (x : Context) (s : State) : State := s.onStr fun t => { t with ctxs := put t.ctxs c x }

/-- The state with these descriptors in the intake queue. -/
def intakeOf (l : List Descriptor) (s : State) : State := s.onIntake fun i => { i with queue := l }

/-- A descriptor of a function, a namespace and a hint. -/
def desc (tag : BitVec 16) (fn : Byte) (ns : BitVec 4) (h : Option (BitVec 3)) (n : BitVec 16) :
    Descriptor := { tag := tag, function := fn, nspace := ns, hint := h, length := n }

theorem got_takes (own : Bool) (f : Frame) (s : State) (h : s.rst = none) : (got own f s).takes own f [] :=
  ⟨h, rfl⟩

theorem got_takesInStep (own : Bool) (f : Frame) (s : State) (h : s.rst = none)
    (hm : s.mem.state = .member) (hp : s.dir.rep.isPresent f.sender = true)
    (hb : f.base = some s.dir.rep.gen) : (got own f s).takesInStep f :=
  ⟨⟨own, [], got_takes own f s h⟩, hm, hp, hb⟩

/-! ### Worked examples of the spec -/

/-- The classifier of section 1.9. -/
def exClassifier : Classifier :=
  { entries := put (put (put (put Classifier.reset.entries
      0 { enabled := true, function := some 12, nspace := none, mode := .refuse, defaultClass := 0 })
      1 { enabled := true, function := some 40, nspace := some 3, mode := .perNamespaceHint,
          defaultClass := 2 })
      2 { enabled := true, function := none, nspace := none, mode := .perFunction, defaultClass := 1 })
      3 { enabled := false, function := some 40, nspace := none, mode := .common, defaultClass := 0 },
    hintMap := #v[0, 0, 1, 1, 2, 2, 3, 3] }

/-- The station of section 1.9: context 9 is PARKED under the key of function 77. -/
def exIntake : State :=
  withCtx 9 { Context.unassigned with
    state := .parked, cls := some 1,
    key := some { mode := .perFunction, function := 77, nspace := none, hint := none } }
    { up with cls := exClassifier }

/-- Section 1.9: the six outcomes. -/
theorem test_example_classified :
    exIntake.headOutcome (desc 100 40 3 (some 6) 64) =
        .accept (.newKey { mode := .perNamespaceHint, function := 40, nspace := some 3, hint := some 6 }) 3 ∧
      exIntake.headOutcome (desc 101 40 3 none 8) =
        .accept (.newKey { mode := .perNamespaceHint, function := 40, nspace := some 3, hint := none }) 2 ∧
      exIntake.headOutcome (desc 102 40 5 (some 1) 300) = .refuse .oversize none ∧
      exIntake.headOutcome (desc 103 12 0 none 16) = .refuse .blocked none ∧
      exIntake.headOutcome (desc 104 40 5 (some 1) 32) =
        .accept (.newKey { mode := .perFunction, function := 40, nspace := none, hint := none }) 0 ∧
      exIntake.headOutcome (desc 105 77 2 (some 4) 48) = .refuse .parked (some 9) := by
  decide +kernel

/-- The replica of the worked example of Chapter 3: slots held by stations 0, 1, 2 and 5, one ORPHANED,
one QUARANTINED, three FREE. -/
def exQuotas : Replica :=
  let held (h : Station) (from' n : Nat) : List (Slot × DirEntry) :=
    (List.range n).map fun i => (Fin.ofNat 48 (from' + i), .opened h (.normal 0) 1)
  { Replica.ofSeal [⟨0, 6, false⟩, ⟨1, 3, false⟩, ⟨2, 12, false⟩, ⟨5, 2, false⟩] { params with b := 20 } with
    dir := (held 0 0 7 ++ held 1 7 1 ++ held 2 8 6 ++ held 5 14 1).foldl (fun t e => put t e.1 e.2)
      (put (put (Replica.sealedDir 20) 15 (.orphaned 3 .mixed 1 0)) 16 .quarantined) }

/-- Chapter 3: quotas, deficits, excesses, FREE count and reserves, before and after ABSENT(2). -/
theorem test_example_quotas :
    [0, 1, 2, 5].map exQuotas.quota = [6, 3, 10, 1] ∧
      [0, 1, 2, 5].map exQuotas.deficit = [0, 2, 4, 0] ∧
      [0, 1, 2, 5].map exQuotas.excess = [1, -2, -4, 0] ∧ exQuotas.freeCount = 3 ∧
      exQuotas.reserve 0 = 6 ∧ exQuotas.reserve 5 = 6 ∧
      [0, 1, 5].map (exQuotas.apply 0 (.absent 2)).quota = [6, 3, 2] ∧
      (exQuotas.apply 0 (.absent 2)).dir[8] = .orphaned 2 (.normal 0) 1 0 := by
  decide +kernel

/-- Section 6.8, in the numbers of `up`: a queued CLAIM of a slot taken meanwhile is rewritten to the
lowest FREE slot that no other entry names. -/
theorem test_example_claimRewritten :
    let s := { stationOf .member (repQ 4 2) with
      plc := { Placement.reset with claims :=
        [{ slot := 0, kind := .normal 1, claimant := some 7, phase := .queued },
         { slot := 8, kind := .normal 3, claimant := some 11, phase := .queued }] } }
    s.check { dest := none, body := .claim 0 (.normal 1) } = .pass (.claim 9 (.normal 1)) := by
  decide +kernel

/-- The stream of section 2.9: BOUND, two entries pending, two directives in flight. -/
def exStream : Context :=
  { Context.unassigned with
    state := .bound, cls := some 1, slot := some (0, 5), inFlight := 2,
    key := some { mode := .perFunction, function := 40, nspace := none, hint := none },
    pending :=
      [{ tag := 200, length := 32, remaining := 32, acc := 3, deadline := some 320, headExtent := none },
       { tag := 201, length := 24, remaining := 24, acc := 4, deadline := some 328, headExtent := none }],
    counters := { Counters.zero with pu := 4096, placed := 64, split := 1 } }

/-- A MEMBER station whose context 5 is that stream, resident in slot 0. -/
def exPark : State :=
  (withCtx 5 exStream up).onDir fun d => { d with ext := put d.ext 0 (some { ext0 with residents := [5] }) }

/-- Whether an outcome is a next state with this property. -/
def leaves (o : Host.Outcome State Fault Refusal) (p : State → Bool) : Bool :=
  match o with
  | .next t => p t
  | _ => false

/-- Section 2.9: PARK-STREAM is ACCEPTED, the context is DRAINING with refused 2, both tags are refused
PARKED, and the slot left without a resident is shut IDLE. -/
theorem test_example_park :
    leaves (exec (.parkStream [5]) exPark) fun t =>
      t.intake.response == some { code := 4, status := .accepted, content := [] } &&
        t.str.ctxs[5].state == .draining && t.str.ctxs[5].counters.refused == 2 &&
        (t.intake.results.map fun r => (r.tag, r.status)) ==
          [(200, .refused .parked), (201, .refused .parked)] &&
        t.dir.ext[0].bind (·.shutDue) == some .idle &&
        t.bus.tx.map (·.body) == [.shut 0 .idle none] := by
  decide +kernel

/-- The station of section 4.9: stream 12 at slot 7 (here slot 0) with 24 PU of room and tag 500 of 64. -/
def exSplit : State :=
  (withCtx 12 { exStream with
    inFlight := 0,
    pending := [{ tag := 500, length := 64, remaining := 64, acc := 3, deadline := some 240,
                  headExtent := none }] } up).onDir fun d =>
    { d with ext := put (put d.ext 0 (some { ext0 with residents := [12] })) 1 none, closing := [] }

/-- Section 4.9: the PLACE takes 24 PU, the tail of 40 waits at the head of the list with no deadline, the
slot is shut FULL, and the lowest FREE slot is claimed. -/
theorem test_example_split :
    leaves (exec .issuePlace exSplit) fun t =>
      t.link.queue == [.place 0 500 { slot := 0, serial := 5, offset := 1000, length := 24 } 12] &&
        t.str.ctxs[12].state == .waiting && t.str.ctxs[12].counters.split == 2 &&
        (t.str.ctxs[12].pending.map fun e => (e.remaining, e.deadline.isSome)) == [(40, false)] &&
        t.bus.tx.map (·.body) == [.shut 0 .full none, .claim 8 (.normal 1)] := by
  decide +kernel

/-- Section 8.8: an ABSENT orphans slots with their close-attempts, and the adopter is the lowest PRESENT
station that is not adopt-disabled. -/
theorem test_example_orphans :
    let r := (repQ 2 2).apply 0 (.absent 1)
    r.dir[2] = .orphaned 1 .mixed 7 0 ∧ r.dir[4] = .orphaned 1 (.normal 2) 9 1 ∧ r.gen = 10 ∧
      r.adopter = some 0 ∧ (r.setRoster 0 fun e => { e with adoptDis := some true }).adopter = none := by
  decide +kernel

/-! ### Words of the spec's tables -/

/-- Table 11-1: the byte fields of CONFIGURE and SET-CLASSIFIER. -/
theorem test_words_control :
    configureOf [8, 0, 4, 16, 0x7c, 0xe8, 3, 1, 0, 0xe4, 0x1b] = some
        ({ params := { b := 8, c := 1024, p := 16 }, quota := 12, wakeFactor := 8, pressureMode := .edge,
           idleMs := 1000, deadlineMs := 1, closeTimeout := 64 }, #v[0, 1, 2, 3, 3, 2, 1, 0]) ∧
      configureOf [7, 0, 4, 1, 1, 1, 0, 1, 0, 0, 0] = none ∧
      configureOf [8, 0, 4, 1, 1, 1, 0, 1, 15, 0, 0] = none ∧
      setClassifierOf [31, 0x77, 0, 9] = some (31,
        { enabled := true, function := none, nspace := some 9, mode := .perNamespaceHint,
          defaultClass := 3 }) ∧
      setClassifierOf [32, 0, 0, 0] = none ∧ setClassifierOf [0, 0x40, 1, 0] = none := by
  decide +kernel

/-- Table 1-1: the byte fields of a descriptor. -/
theorem test_words_descriptor :
    descriptorOf 0x34 0x12 40 0xe3 0 1 = desc 0x1234 40 3 (some 6) 256 ∧
      descriptorOf 1 0 7 0x70 1 0 = desc 1 7 0 none 1 := by decide +kernel

/-- Table 1-2: the bytes of a REFUSED result. -/
theorem test_words_result :
    ({ tag := 0x1234, status := .refused .parked, stream := some 5, extents := [] } : ResultRec).bytes =
      [1, 0x34, 0x12, 2, 5, 5, 0] := by decide +kernel

/-! ### States and operands that meet the hypotheses of the statements -/

theorem test_meets_IdleStepPassesATick :
    up.pending = [] ∧ up.rst = none ∧ up.str.sub = 0 ∧
      ({ up with rst := some .station } : State).rst.isSome ∧
      (up.onStr fun t => { t with sub := 6 }).str.sub < 7 ∧
      (up.onStr fun t => { t with sub := 7 }).str.sub = 7 := by decide +kernel

/-- Queues at their full lengths. -/
def full : State :=
  (up.onIntake fun i => { i with queue := List.replicate 32 (desc 1 40 3 none 8),
                                 results := List.replicate 32 (refusal 1 .parked none) }).onBus fun b =>
    { b with tx := List.replicate 8 { dest := none, body := .leave 0 } }

theorem test_meets_EveryStepKeepsTheBounds : full.Bounded ∧ step full = .next full.tick :=
  ⟨by constructor <;> decide +kernel, rfl⟩

theorem test_meets_EveryStepKeepsTheReplicaLaws : up.dir.rep.Sound ∧ step up = .next up.tick :=
  ⟨⟨by decide +kernel, by decide +kernel⟩, rfl⟩

theorem test_meets_EveryStepKeepsMembershipInStep : up.Moded ∧ step up = .next up.tick :=
  ⟨⟨by decide +kernel, by decide +kernel, fun ⟨e, h⟩ => by cases h⟩, rfl⟩

theorem test_meets_FrameReadsBackFromTheLine :
    (fr 7 (.claim 47 .mixed)).wellFormed = true ∧ (fr 0 (.beacon 0 4294967295 true .hold)).wellFormed = true ∧
      ({ fr 1 (.defer 15 .allShutting) with dest := some 7 } : Frame).wellFormed = true := by
  decide +kernel

theorem test_meets_SnapshotReadsBack :
    (repQ 15 1).params.isSome ∧ ∀ st : Station,
      ((repQ 15 1).roster[st].quota = none ↔ (repQ 15 1).roster[st].adoptDis = none) ∧
        (repQ 15 1).roster[st].quota ≠ some 0 := by decide +kernel

theorem test_meets_NothingIsTakenDuringReset :
    ({ up with rst := some .powerOn } : State).rst.isSome ∧
      (Instr.configure []).actsInReset = false ∧ Instr.portClean.actsInReset = false := by decide +kernel

theorem test_meets_GenerationCountsAppliedFrames :
    (Body.claim 0 .mixed).kind.isDirectory = true ∧ (Body.roll 0 1 false params).kind.isDirectory = false ∧
      (unpackSnapshot (snapshotParts 0 (repQ 2 2)) 4294967295).isSome ∧
      (repQ 2 2).applies (fr 1 (.claim 0 .mixed)) = false ∧
      (repQ 2 2).applies { fr 1 (.restore 5) with base := some 8 } = false := by decide +kernel

theorem test_meets_QuotasFitTheBudget :
    (repQ 2 2).isPresent 1 = true ∧ (repQ 2 2).isPresent 2 = false ∧
      (repQ 2 2).presentList.length ≤ (repQ 2 2).budget ∧
      (let r := Replica.ofSeal [⟨0, 9, false⟩, ⟨7, 9, false⟩] { params with b := 2 }
       r.presentList.length = r.budget) := by decide +kernel

theorem test_meets_DescriptorJoinsIntakeQueue :
    up.rst = none ∧ (127 : Byte).toNat < 128 ∧ 128 ≤ (128 : Byte).toNat ∧
      (intakeOf (List.replicate 31 (desc 1 40 3 none 8)) up).intake.queue.length < 32 ∧
      32 ≤ full.intake.queue.length := by decide +kernel

theorem test_meets_HeadRefusedAtValidation :
    let s (m : MemberState) (n : BitVec 16) := intakeOf [desc 1 40 3 none n] (inState m up)
    let warned := (s .member 256).onLine fun l => { l with warned := true }
    let leaving := (s .member 1).onMem fun m => { m with departing := true }
    (s .member 0).rst = none ∧ (s .member 0).intake.queue = [desc 1 40 3 none 0] ∧
      (s .member 0).intake.results.length < 32 ∧ (s .member 0).intake.waiters = [] ∧
      (desc 1 40 3 none 0).length.toNat = 0 ∧ 256 < (desc 1 40 3 none 257).length.toNat ∧
      (desc 1 40 3 none 256).length.toNat ≤ 256 ∧ warned.line.warned = true ∧
      warned.intake.queue = [desc 1 40 3 none 256] ∧
      (s .joining 1).line.warned = false ∧ (s .joining 1).mem.state ≠ .member ∧
      (s .joining 1).mem.state ≠ .catchup ∧ leaving.mem.departing = true ∧
      leaving.line.warned = false := by decide +kernel

theorem test_meets_ClassifierDecidesTheHead :
    exIntake.line.warned = false ∧ exIntake.mem.state = .member ∧ exIntake.mem.departing = false ∧
      (inState .catchup exIntake).mem.state = .catchup ∧
      (∀ i : Fin 32, up.cls.entries[i].hits (desc 1 40 3 none 256) = false) ∧
      (∀ i : Fin 32, exIntake.cls.entries[i].hits (desc 1 12 3 none 1) = true →
        ∀ j < i, exIntake.cls.entries[j].hits (desc 1 12 3 none 1) = true → j = 0) ∧
      exIntake.cls.entries[0].hits (desc 1 12 3 none 1) = true ∧
      exIntake.cls.entries[0].mode = .refuse ∧
      exIntake.cls.entries[1].hits (desc 1 40 3 none 1) = true ∧
      exIntake.cls.entries[0].hits (desc 1 40 3 none 1) = false ∧
      (∃ k, formKey exIntake.cls.entries[1].mode (desc 1 40 3 none 1) = some k ∧
        exIntake.str.lookup k = none) ∧
      (∀ j : Fin 2, exIntake.cls.entries[j.val].hits (desc 1 77 3 (some 7) 1) = false) ∧
      exIntake.cls.entries[2].hits (desc 1 77 3 (some 7) 1) = true ∧
      (∃ k, formKey exIntake.cls.entries[2].mode (desc 1 77 3 (some 7) 1) = some k ∧
        exIntake.str.lookup k = some 9) ∧
      exIntake.str.ctxs[9].state = .parked ∧
      (∃ k, exPark.str.lookup k = some 5 ∧ exPark.str.ctxs[5].state = .bound ∧
        formKey .perFunction (desc 1 40 3 none 1) = some k) := by
  refine ⟨?_, ?_, ?_, ?_, ?_, ?_, ?_, ?_, ?_, ?_, ⟨_, rfl, ?_⟩, ?_, ?_, ⟨_, rfl, ?_⟩, ?_,
    ⟨{ mode := .perFunction, function := 40, nspace := none, hint := none }, ?_, ?_, ?_⟩⟩ <;>
    decide +kernel

theorem test_meets_ClassifierAfterReset :
    ({ up with rst := some .station } : State).rst.isSome ∧
      ({ up with cls := Classifier.reset } : State).headOutcome (desc 1 40 3 none 1) = .accept .common 0 ∧
      State.reset.mem.state = .unconfigured ∧
      leaves (exec (.wake []) (inState .dormant up)) (fun _ => true) ∧
      leaves (exec (.rejoin []) (inState .isolated up)) (fun _ => true) := by decide +kernel

theorem test_meets_HeadRefusedAtClassification :
    let s (d : Descriptor) := intakeOf [d] exIntake
    (s (desc 1 12 3 none 1)).rst = none ∧ (s (desc 1 12 3 none 1)).intake.queue = [desc 1 12 3 none 1] ∧
      (s (desc 1 12 3 none 1)).intake.results.length < 32 ∧ (s (desc 1 12 3 none 1)).intake.waiters = [] ∧
      (s (desc 1 12 3 none 1)).headOutcome (desc 1 12 3 none 1) = .refuse .blocked none ∧
      (s (desc 1 77 3 none 256)).headOutcome (desc 1 77 3 none 256) = .refuse .parked (some 9) := by
  decide +kernel

/-- Every context from 1 up holds a key. -/
def noContext : State :=
  exIntake.onStr fun t => { t with ctxs := Vector.ofFn fun c => if c = 0 then t.ctxs[c] else exStream }

theorem test_meets_HeadAcceptedIntoAStream :
    let k (ns : BitVec 4) : Key :=
      { mode := .perNamespaceHint, function := 40, nspace := some ns, hint := none }
    let d := desc 1 40 3 none 256
    (intakeOf [d] exIntake).rst = none ∧ (intakeOf [d] exIntake).intake.queue = [d] ∧
      (intakeOf [d] exIntake).headOutcome d = .accept (.newKey (k 3)) 2 ∧
      (intakeOf [d] exIntake).storeUsed < 128 ∧ exIntake.str.freeCtx = some 1 ∧
      (intakeOf [d] noContext).headOutcome d = .accept (.newKey (k 3)) 2 ∧
      noContext.str.freeCtx = none ∧ noContext.storeUsed = 126 ∧
      (intakeOf [d] { exPark with cls := exClassifier }).headOutcome (desc 1 40 5 none 1) =
        .accept (.held 5) 1 ∧
      (intakeOf [d] up).headOutcome d = .accept .common 0 := by decide +kernel

theorem test_meets_WaitingResultEnters :
    let r := refusal 1 .parked (some 5)
    let e : CompEntry :=
      { tag := 1, length := 9, stream := 5, extent := ⟨0, 5, 0, 9⟩, second := false, outcome := .ok,
        tail := none, partner := some 255, result := some r }
    let s (w : Waiter) : State :=
      (intakeOf [desc 1 77 3 none 1] exIntake).onIntake fun i =>
        { i with waiters := [w], results := List.replicate 31 r }
    let p : State := (s (.completion 0)).onPlc fun p => { p with comp := put p.comp 0 (some e) }
    (s (.store r)).rst = none ∧ (s (.store r)).intake.waiters = [.store r] ∧
      (s (.store r)).intake.results.length < 32 ∧ p.intake.waiters = [.completion 0] ∧
      p.plc.comp[0] = some e ∧ (s .intakeHead).intake.waiters = [.intakeHead] ∧
      (s .intakeHead).intake.queue = [desc 1 77 3 none 1] ∧
      (s .intakeHead).headOutcome (desc 1 77 3 none 1) = .refuse .parked (some 9) ∧
      (s .intakeHead).headOutcome (desc 1 12 3 none 1) = .refuse .blocked none := by decide +kernel

theorem test_meets_OutboundRecordLeaves :
    let s (o : Offer) : State := full.onIntake fun i => { i with offer := some o }
    full.rst = none ∧ (s .response).intake.offer = some .response ∧
      (s .notice).intake.offer = some .notice ∧ (s .result).intake.offer = some .result ∧
      (List.replicate 15 (⟨.noAdopter, false⟩ : Notice)).length < 16 ∧
      16 ≤ (List.replicate 15 (⟨.noAdopter, false⟩ : Notice) ++ [(⟨.noAdopter, true⟩ : Notice)]).length := by
  decide +kernel

/-- A control response awaits passage. -/
def answering : State := up.onIntake fun i => { i with response := some ⟨9, .done, []⟩ }

theorem test_meets_BadControlRecordAnswered :
    up.rst = none ∧ up.intake.response = none ∧ firstCheck 16 [] = false ∧ firstCheck 0 [] = false ∧
      firstCheck 2 [0, 0, 0, 16] = false ∧ firstCheck 1 (List.replicate 11 128) = false ∧
      answering.intake.response.isSome ∧ recordBytes 3 = some 2 ∧ 15 < (16 : Byte).toNat := by
  decide +kernel

theorem test_meets_ConfigureTaken :
    State.reset.ready ∧ up.ready ∧ State.reset.mem.state = .unconfigured ∧ up.mem.state ≠ .unconfigured ∧
      (0x7f : Byte).toNat < 128 ∧ (0x7c : Byte).toNat % 16 ≤ 12 ∧ 8 ≤ (48 : Byte).toNat ∧
      (48 : Byte).toNat ≤ 48 ∧ 1024 ≤ (0 : Byte).toNat + 256 * (4 : Byte).toNat ∧
      (0xe8 : Byte).toNat + 256 * (3 : Byte).toNat ≤ 1000 ∧ 16 ≤ (16 : Byte).toNat ∧
      (State.reset.onMem fun m => { m with lastReset := .station }).mem.lastReset = .station ∧
      State.reset.mem.lastReset = .powerOnOrDrive ∧ State.reset.bus.tx = [] ∧ State.reset.bus.held = [] ∧
      (7 : Byte).toNat < 8 ∧ 48 < (49 : Byte).toNat ∧ (255 : Byte).toNat + 256 * (3 : Byte).toNat < 1024 ∧
      16 < (17 : Byte).toNat ∧ (0x70 : Byte).toNat % 16 = 0 ∧ 12 < (13 : Byte).toNat % 16 ∧
      128 ≤ (128 : Byte).toNat ∧ 1000 < (0xe9 : Byte).toNat + 256 * (3 : Byte).toNat ∧
      (15 : Byte).toNat ≠ 0 ∧ (15 : Byte).toNat < 16 ∧
      (State.reset.onLine fun l => { l with pressureLine := true }).ready ∧
      (0x6c : Byte).toNat / 16 % 2 = 0 ∧ (0x7c : Byte).toNat / 16 % 2 = 1 := by
  unfold State.ready; decide +kernel

theorem test_meets_ClassifierEntryReplaced :
    up.ready ∧ up.mem.state ≠ .unconfigured ∧ up.line.mode = .run ∧
      State.reset.mem.state = .unconfigured ∧
      (up.onLine fun l => { l with mode := .hold }).line.mode = .hold ∧ (15 : Byte).toNat < 16 ∧
      matchModeOf ((0xcb : Byte).toNat / 2 % 8) = some .refuse ∧ 64 ≤ (0xcb : Byte).toNat % 128 ∧
      128 ≤ (0xcb : Byte).toNat ∧ matchModeOf ((0x3f : Byte).toNat / 2 % 8) = none ∧
      matchModeOf ((0x30 : Byte).toNat / 2 % 8) = some .perFunction ∧ 32 ≤ (32 : Byte).toNat ∧
      5 < (0x0c : Byte).toNat / 2 % 8 ∧ (1 : Byte) ≠ 0 ∧ 16 ≤ (16 : Byte).toNat := by
  unfold State.ready; decide +kernel

theorem test_meets_PlacementModeSet :
    up.ready ∧ up.mem.state ≠ .unconfigured ∧ up.line.mode = .run ∧ State.reset.ready ∧
      State.reset.mem.state = .unconfigured ∧ 1 < (2 : Byte).toNat ∧
      (inState .isolated up).mem.state ≠ .member ∧ (inState .isolated up).mem.state ≠ .catchup := by
  unfold State.ready; decide +kernel

/-- Context 63 is PARKED, with nothing pending. -/
def parked63 : State := withCtx 63 { exStream with state := .parked, slot := none, pending := [], inFlight := 0 } up

/-- The tail that section 4.9 leaves, and its extent 1, done with this outcome or not yet. -/
def tailEntry : PendingEntry :=
  { tag := 500, length := 64, remaining := 40, acc := 3, deadline := none,
    headExtent := some ⟨7, 4, 1000, 24⟩ }
def headComp (o : PlaceOutcome) (x : TailState) : CompEntry :=
  { tag := 500, length := 64, stream := 12, extent := ⟨7, 4, 1000, 24⟩, second := false, outcome := o,
    tail := some x, partner := none, result := none }

/-- Stream 12 is WAITING with that tail, its extent 1 under tag 7. -/
def tailed (o : PlaceOutcome) (x : TailState) : State :=
  (withCtx 12 { exStream with state := .waiting, slot := none, pending := [tailEntry], inFlight := 1 }
    up).onPlc fun p => { p with comp := put p.comp 7 (some (headComp o x)) }

/-- Every stream of that station holds its tail as R69 and R70 say. -/
theorem test_tailHeld (o : PlaceOutcome) (h : o ≠ .failed) (c : Ctx) : (tailed o .waiting).tailHeld c := by
  have hc : ∀ c : Ctx, (tailed .ok .waiting).str.ctxs[c].pending = if c = 12 then [tailEntry] else [] := by
    decide +kernel
  have hp : (tailed o .waiting).str.ctxs[c].pending = if c = 12 then [tailEntry] else [] := hc c
  have ht : (tailed o .waiting).plc.tailOwner 12 = some 7 := by cases o <;> decide +kernel
  have hy : (tailed o .waiting).plc.comp[(7 : DTag)] = some (headComp o .waiting) := by
    cases o <;> decide +kernel
  unfold State.tailHeld
  rw [hp]
  split
  · rename_i h12
    subst h12
    exact ⟨by decide, fun e _ _ => ⟨7, _, ht, hy, rfl, rfl, rfl, h⟩⟩
  · exact ⟨by decide, fun e he => by cases he⟩

theorem test_meets_StreamParked :
    (tailed .ok .waiting).tailHeld 12 ∧ (tailed .outstanding .waiting).tailHeld 12 ∧
      (∃ g, (tailed .outstanding .waiting).plc.tailOwner 12 = some g ∧
        (tailed .outstanding .waiting).plc.comp[g] = some (headComp .outstanding .waiting)) ∧
      (tailed .ok .waiting).ready ∧ (tailed .ok .waiting).str.ctxs[12].state = .waiting ∧
      ((tailed .ok .waiting).str.ctxs[12].pending.filterMap
        ((tailed .ok .waiting).refusalOf .parked 12)).length = 1 ∧
      (exPark.str.ctxs[5].pending.filterMap (exPark.refusalOf .parked 5)).length = 2 ∧
      exPark.ready ∧ exPark.str.ctxs[5].state = .bound ∧ exPark.str.ctxs[5].inFlight ≠ 0 ∧
      exSplit.ready ∧ exSplit.str.ctxs[12].state = .bound ∧ exSplit.str.ctxs[12].inFlight = 0 ∧
      up.str.ctxs[1].state = .unassigned ∧ parked63.str.ctxs[63].state = .parked ∧
      64 ≤ (64 : Byte).toNat := by
  refine ⟨test_tailHeld _ (by decide) _, test_tailHeld _ (by decide) _,
    ⟨7, by decide +kernel, by decide +kernel⟩, ?_⟩
  unfold State.ready; decide +kernel

theorem test_meets_StreamUnparked :
    parked63.ready ∧ parked63.str.ctxs[63].state = .parked ∧ parked63.str.ctxs[63].pending = [] ∧
      parked63.str.ctxs[63].inFlight = 0 ∧ up.str.ctxs[1].state ≠ .parked ∧ 64 ≤ (64 : Byte).toNat ∧
      ({ parked63 with cls := exClassifier } : State).headOutcome (desc 1 40 5 none 1) =
        .refuse .parked (some 63) := by
  unfold State.ready; decide +kernel

theorem test_meets_ReadsChangeNothing : up.ready := by unfold State.ready; decide +kernel

theorem test_meets_FaultCleared : up.ready := by unfold State.ready; decide +kernel

theorem test_meets_RestoreRequested :
    up.ready ∧ up.mem.state = .member ∧ up.dir.rep.dir[5] = .quarantined ∧
      up.dir.rep.dir[0] ≠ .quarantined ∧ (inState .catchup up).mem.state ≠ .member ∧
      48 ≤ (48 : Byte).toNat := by
  unfold State.ready; decide +kernel

/-- The station departs. -/
def departing : State := up.onMem fun m => { m with departing := true }

theorem test_meets_DepartureBegins :
    up.ready ∧ up.mem.state = .member ∧ up.mem.departing = false ∧ up.dir.ext[0] = some ext0 ∧
      ext0.shutDue = none ∧ up.shutApplied 0 = false ∧ departing.mem.departing = true ∧
      (∀ (c : Ctx), ∀ e ∈ exPark.str.ctxs[c].pending, (e.acc - 0).toNat < 32768) ∧
      (∀ (c : Ctx), ∀ e ∈ (tailed .ok .waiting).str.ctxs[c].pending, (e.acc - 3).toNat < 32768) ∧
      (tailed .ok .waiting).ready ∧ (tailed .ok .waiting).mem.state = .member ∧
      (tailed .ok .waiting).mem.departing = false ∧ (∀ c, (tailed .ok .waiting).tailHeld c) ∧
      (asking (.recall (recallE .queued 0)) up).ready ∧
      (asking (.recall (recallE .queued 0)) up).dir.request = some (.recall (recallE .queued 0)) := by
  refine ⟨?_, ?_, ?_, ?_, ?_, ?_, ?_, ?_, ?_, ?_, ?_, ?_, test_tailHeld _ (by decide), ?_, ?_⟩ <;>
    first | decide +kernel | (unfold State.ready; decide +kernel)

theorem test_meets_WakeAndRejoinListen :
    (inState .dormant up).ready ∧ (inState .dormant up).mem.state = .dormant ∧
      (inState .isolated up).mem.state = .isolated ∧ up.mem.state ≠ .dormant ∧
      up.mem.state ≠ .isolated := by
  unfold State.ready; decide +kernel

theorem test_meets_DeadlineRefuses :
    let e (n : Option Nat) : PendingEntry :=
      { tag := 1, length := 9, remaining := 9, acc := 0, deadline := n, headExtent := none }
    let s := withCtx 63 { exStream with pending := [e none, e (some 0)] } up
    s.rst = none ∧ s.str.ctxs[63].pending = [e none] ++ e (some 0) :: [] ∧ (e none).deadline = none ∧
      (e (some 0)).deadline.isSome ∧ s.line.mode = .run ∧ s.line.warned = false ∧
      (s.onLine fun l => { l with mode := .hold }).line.mode = .hold ∧
      (s.onLine fun l => { l with warned := true }).line.warned = true ∧
      s.intake.results.length < 32 ∧ s.intake.waiters = [] ∧ 32 ≤ full.intake.results.length ∧
      (s.onIntake fun i => { i with waiters := [.intakeHead] }).intake.waiters ≠ [] ∧
      (s.onIntake fun i => { i with waiters := [.intakeHead] }).intake.results.length < 32 := by
  decide +kernel

theorem test_meets_IdleContextReturns :
    let s := withCtx 5 { exStream with state := .idle, pending := [], inFlight := 0, idle := some 0 } exPark
    s.rst = none ∧ s.str.ctxs[5].idle.isSome ∧ s.str.ctxs[5].slot.map (·.1) = some 0 ∧
      s.dir.ext[0] = some { ext0 with residents := [5] } ∧ s.dir.rep.dir[0].kind? = some (.normal 1) ∧
      s.dir.rep.dir[0].isClosing = false ∧ up.str.ctxs[1].idle = none := by decide +kernel

/-- The same station with slot 0 MIXED. -/
def exMixed : State :=
  exSplit.onDir fun d => { d with rep := { d.rep with dir := put d.rep.dir 0 (.opened 0 .mixed 5) } }

theorem test_meets_PlaceIssued :
    let tail (s : State) := withCtx 12 { exStream with pending :=
      [{ tag := 500, length := 64, remaining := 40, acc := 3, deadline := none,
         headExtent := some ⟨7, 4, 1000, 24⟩ }] } s
    exSplit.rst = none ∧ exSplit.mem.state = .member ∧ exSplit.link.queue.length < 16 ∧
      exSplit.line.mode = .run ∧ exSplit.line.warned = false ∧ exSplit.nextClose = none ∧
      exSplit.nextOpen = none ∧ exSplit.nextPlacer = some 12 ∧ exSplit.plc.freeTag = some 0 ∧
      exSplit.str.ctxs[12].slot = some (0, 5) ∧
      exSplit.dir.ext[0] = some { ext0 with residents := [12] } ∧ exSplit.dir.rep.capacity = 1024 ∧
      (tail exSplit).nextPlacer = some 12 ∧ (tail exSplit).nextClose = none ∧
      exMixed.nextPlacer = some 12 ∧ exMixed.dir.rep.dir[0].kind? = some .mixed ∧
      exMixed.str.ctxs[12].pending.map (·.headExtent) = [none] ∧
      exMixed.nextClose = none ∧ exMixed.nextOpen = none ∧ exMixed.dir.ext[0] = some { ext0 with residents := [12] } ∧
      (∀ b : Ctx, exSplit.mayIssue b = true → (exSplit.str.ctxs[b].headAcc - 3).toNat < 32768) ∧
      (∀ b : Ctx, up.mayIssue b = true → (up.str.ctxs[b].headAcc - 0).toNat < 32768) ∧
      up.nextPlacer = none ∧ exSplit.mayIssue 12 = true := by decide +kernel

/-- A PLACE of stream 5 is outstanding under tag 255. -/
def placing : State :=
  exPark.onPlc fun p => { p with comp := put p.comp 255 (some
    { tag := 1, length := 9, stream := 5, extent := ⟨0, 5, 0, 9⟩, second := false, outcome := .outstanding,
      tail := none, partner := none, result := none }) }

/-- The two extents of that descriptor, both issued, under tags 7 and 8. -/
def pairHead (o : PlaceOutcome) : CompEntry := { headComp o .issued with partner := some 8 }
def pairTail (o : PlaceOutcome) : CompEntry :=
  { headComp o .issued with
    extent := ⟨8, 10, 0, 40⟩, second := true, tail := none, partner := some 7 }
def pair (a b : PlaceOutcome) : State :=
  (tailed a .issued).onPlc fun p =>
    { p with comp := put (put p.comp 7 (some (pairHead a))) 8 (some (pairTail b)) }

theorem test_meets_PlaceDoneTaken :
    placing.rst = none ∧ placing.link.state = .operating ∧
      placing.plc.comp[255].map (fun e => (e.outcome, e.second, e.partner)) =
        some (.outstanding, false, none) ∧
      placing.plc.comp[255].map (fun e => (e.tail, e.result)) = some (none, none) ∧
      placing.intake.results.length < 32 ∧ placing.intake.waiters = [] ∧
      placing.str.ctxs[5].state ≠ .draining ∧
      (withCtx 5 { exStream with state := .draining, inFlight := 1 } placing).str.ctxs[5].inFlight ≤ 1 ∧
      placing.dir.ext[0].map (·.serial) = some 5 ∧
      (∀ x ∈ [TailState.waiting, .refused (some .parked)],
        (tailed .outstanding x).plc.comp[7] = some (headComp .outstanding x)) ∧
      (tailed .outstanding .waiting).intake.waiters = [] ∧
      (tailed .outstanding .waiting).link.state = .operating ∧
      (tailed .outstanding .waiting).str.ctxs[12].state ≠ .draining ∧
      (∀ a ∈ [PlaceOutcome.outstanding, .ok, .failed], ∀ b ∈ [PlaceOutcome.outstanding, .ok, .failed],
        (pair a b).plc.comp[7] = some (pairHead a) ∧ (pair a b).plc.comp[8] = some (pairTail b)) ∧
      (pairHead .ok).partner = some 8 ∧ (pairTail .ok).partner = some 7 ∧
      (pairHead .ok).tail = some .issued ∧ (pairHead .ok).stream = (pairTail .ok).stream ∧
      (pair .ok .outstanding).rst = none ∧ (pair .ok .outstanding).link.state = .operating ∧
      (pair .ok .outstanding).intake.waiters = [] ∧ (pair .ok .outstanding).intake.results.length < 32 ∧
      (pair .ok .outstanding).str.ctxs[12].state ≠ .draining := by decide +kernel

/-- A frame on the medium, read back so far. -/
def onMedium (f : Frame) (r : Readback) (n : Receiver) : State :=
  up.onBus fun b => { b with
    sending := some { frame := f, withdrawn := false, readback := r }, receiver := n }

theorem test_meets_ReceptionsBeginAndEnd :
    let r (s : State) : State := s.onBus fun b => { b with receiver := .receiving 0 }
    let f := fr 7 (.beacon 7 9 false .run)
    let m (k : Nat) (s : State) : State := s.onBus fun b =>
      { b with rx := List.replicate k { status := .aborted, lostAfter := false, own := false } }
    up.rst = none ∧ up.bus.receiver = .hunt ∧ (r up).bus.receiver = .receiving 0 ∧
      receive f.lineBits = some (.clean f, false) ∧
      (onMedium f .reading (.receiving 0)).bus.sending = some ⟨f, false, .reading⟩ ∧
      (onMedium f .closing (.receiving 0)).bus.sending = some ⟨f, false, .closing⟩ ∧
      f.lineBits = stuffFrom false 0 (f.bytes.flatMap byteBits) ++ false :: List.replicate 6 true ∧
      receive abortSequence = some (.aborted, false) ∧ receive closingDelimiter = some (.checkError, false) ∧
      (m 3 (r up)).bus.rx.length < 4 ∧ 4 ≤ (m 4 (r up)).bus.rx.length ∧
      (inState .census (r up)).mem.state = .census ∧ (inState .barred (r up)).mem.state = .barred ∧
      ({ f with dest := some 7 } : Frame).dest ≠ some up.mem.stn ∧ f.sender ≠ up.mem.stn := by
  decide +kernel

/-- The closing delimiter of a frame read as five dominant bits more and one recessive bit (R83). -/
def misread (f : Frame) : List Bool := f.comparedBits ++ [false, false, false, false, false, true]

/-- R83, R89, section 5.4: a closing delimiter misread into an opening delimiter ends the own entry
CHECK-ERROR, with the transmission to be completed, and a new reception has begun. -/
theorem test_own_readback_misread :
    let f := fr 0 (.restore 6)
    receive (misread f) = some (.checkError, true) ∧
      leaves (exec (.receptionEnd (misread f)) (onMedium f .reading (.receiving 0))) (fun t =>
        t.bus == { (onMedium f .closing (.receiving 0)).bus with
          rx := [{ status := .checkError, lostAfter := false, own := true }] }) := by
  decide +kernel

/-- R83: the reception that goes on when this transmission completes is not the station's own. -/
theorem test_own_readback_once :
    leaves (exec .transmissionComplete (onMedium (fr 0 (.restore 6)) .closing (.receiving 0)))
        (fun t => !t.bus.ownEnding) ∧
      leaves (exec .transmissionComplete (onMedium (fr 0 (.restore 6)) .reading (.receiving 0)))
        (fun t => t.bus.ownEnding) := by
  decide +kernel

/-- R152: a TAKEOVER-END with outcome DONE posts a PEER notice. -/
theorem test_takeoverEnd_done_posts_peer :
    leaves (exec .takeoverEnd
      ((got false (fr 0 (.takeoverEnd 3 .done)) up).setRep { up.dir.rep with dir := dirOf [] })) (fun t =>
        t.flt.notices.head?.map (·.body) == some (.peer 0 .present false 2)) := by
  decide +kernel

/-- A station in a membership state whose own frame has come back with this ending. -/
def ownBad (m : MemberState) (e : Ending) (l : Bool) : State :=
  (inState m up).onBus fun b => { b with rx := [{ status := e, lostAfter := l, own := true }] }

theorem test_meets_BadEntryTaken :
    let s (m : MemberState) (e : Ending) (l : Bool) : State := (inState m up).onBus fun b =>
      { b with rx := [{ status := e, lostAfter := l, own := false }] }
    (s .member .checkError false).rst = none ∧ (s .member .checkError false).mem.state = .member ∧
      (s .member .overlong false).bus.rx = [{ status := .overlong, lostAfter := false, own := false }] ∧
      (s .member (.clean (fr 1 (.leave 1))) true).bus.rx =
        [{ status := .clean (fr 1 (.leave 1)), lostAfter := true, own := false }] ∧
      (s .member .aborted false).mem.state = .member ∧ (s .census .aborted false).mem.state = .census ∧
      (s .listen .aborted false).mem.state = .listen ∧ (s .joining .aborted false).mem.state = .joining ∧
      (asking (.ask (askE .offers)) (s .catchup .aborted false)).logging = true ∧
      (∀ m ∈ [MemberState.member, .census, .joining, .catchup],
        (ownBad m .aborted false).bus.rx = [{ status := .aborted, lostAfter := false, own := true }] ∧
          (ownBad m .aborted false).bus.sending = none ∧ (ownBad m .aborted false).mem.state = m) ∧
      (ownBad .joining (.clean (fr 0 (.join 0 1 false params))) true).bus.rx =
        [{ status := .clean (fr 0 (.join 0 1 false params)), lostAfter := true, own := true }] ∧
      (s .member .checkError true).bus.rx = [{ status := .checkError, lostAfter := true, own := false }] := by
  decide +kernel

/-- The entries that count, and those that fail an attempt: the own CATCHUP-ASK in ASKING, any in OFFERS;
not an own ABORTED entry, nor another's in ASKING. -/
theorem test_meets_BadEntryTaken_attemptHit :
    let e (x : Ending) (o : Bool) : RxEntry := { status := x, lostAfter := false, own := o }
    let a (p : AskPhase) := asking (.ask (askE p)) (inState .catchup up)
    (a .asking).attemptHit (e .checkError true) ∧ (a .offers).attemptHit (e .aborted false) ∧
      ¬ (a .offers).attemptHit (e .aborted true) ∧ ¬ (a .asking).attemptHit (e .checkError false) ∧
      ¬ (inState .catchup up).attemptHit (e .overlong false) := by
  refine ⟨⟨.inr (.inl (by decide)), _, rfl, by decide +kernel⟩, ⟨.inl rfl, _, rfl, by decide +kernel⟩,
    ?_, ?_, ?_⟩
  · rintro ⟨h, -⟩
    exact absurd h (by unfold RxEntry.counts; decide)
  · rintro ⟨-, a, h, h2⟩
    cases h
    rcases h2 with h2 | h2
    · exact h2 rfl
    · cases h2.1
  · rintro ⟨-, a, h, -⟩
    cases h

theorem test_meets_OwnEntryEndsItsAttempt :
    Instr.leave.takesKind = some (fr 0 (.leave 0)).body.kind ∧
      (got true (fr 0 (.leave 0)) up).takes true (fr 0 (.leave 0)) [] :=
  ⟨rfl, rfl, rfl⟩

/-- A station in CENSUS whose list holds station 1. -/
def census : State :=
  { State.reset with mem := { State.reset.mem with
      state := .census, cfg := some cfg,
      census := put State.reset.mem.census 1 (some { quota := 3, adoptDis := true }) } }

theorem test_meets_CensusFramesDecide :
    (∀ own f, (got own f census).takes own f []) ∧ census.mem.state = .census ∧
      census.bus.sending = none ∧
      census.mem.cfg.map (·.params) = some params ∧
      census.mem.cfg.map (·.params) ≠ some { params with b := 13 } ∧
      (∀ e ∈ [(⟨1, 2, false⟩ : SealEntry)], e.station ≠ census.mem.stn) ∧
      (∃ e ∈ [(⟨0, 2, false⟩ : SealEntry), ⟨7, 2, false⟩], e.station = census.mem.stn) ∧
      Instr.beacon.takesKind = some (Body.beacon 7 0 false .run).kind := by
  refine ⟨fun own f => got_takes own f _ rfl, ?_, ?_, ?_, ?_, ?_, ?_, ?_⟩ <;> decide +kernel

theorem test_meets_SealedReplica :
    (0 : Slot).val < params.b.toNat ∧ ¬(12 : Slot).val < params.b.toNat ∧
      [(⟨7, 2, false⟩ : SealEntry), ⟨7, 3, false⟩] = [⟨7, 2, false⟩] ++ ⟨7, 3, false⟩ :: [] := by
  decide +kernel

theorem test_meets_BeaconCompared :
    (∀ f, (got false f up).takes false f []) ∧ up.mem.state = .member ∧ up.dir.rep.isPresent 1 = true ∧
      up.dir.rep.gen = 9 ∧ (8 : Gen) ≠ up.dir.rep.gen :=
  ⟨fun f => got_takes false f up rfl, by decide +kernel⟩

/-- `up` takes in step any frame of stations 0 and 1 that carries its generation. -/
theorem test_takesInStep (own : Bool) (st : Station) (b : Body) (h : b.kind.hasBase = true)
    (hp : st = 0 ∨ st = 1) : (got own (fr st b) up).takesInStep (fr st b) := by
  refine got_takesInStep own _ up rfl rfl ?_ (by simp only [fr, h]; decide +kernel)
  rcases hp with rfl | rfl
  · exact (by decide +kernel : (repQ 2 2).isPresent 0 = true)
  · exact (by decide +kernel : (repQ 2 2).isPresent 1 = true)

theorem test_meets_SlotFramesApplied :
    (∀ b ∈ [Body.claim 8 (.normal 0), .claim 11 .mixed, .shut 2 .full none, .shut 7 .adopted none,
        .shutDone 3 .closed, .shutDone 3 .retrying, .shutDone 4 .quarantined, .restore 5],
      b.kind.hasBase = true) ∧
      (8 : Slot).val < up.dir.rep.budget ∧ up.dir.rep.dir[8] = .free ∧
      (11 : Slot).val < up.dir.rep.budget ∧ up.dir.rep.dir[11] = .free ∧
      (∀ j : Slot, up.dir.rep.dir[j].holder? = some 0 → up.dir.rep.dir[j].kind? ≠ some .mixed) ∧
      up.dir.rep.dir[2] = .opened 1 .mixed 7 ∧ up.dir.rep.dir[7] = .orphaned 3 (.normal 3) 4 1 ∧
      up.dir.rep.runs[3] = some 0 ∧ up.dir.rep.dir[3] = .closing 1 (.normal 2) 8 .idle 0 ∧
      up.dir.rep.dir[4] = .closing 1 (.normal 2) 9 .fault 1 ∧ up.dir.rep.dir[5] = .quarantined := by
  decide +kernel

/-- A SHUT RECALLED that answers this station's recall, in a phase and under a tag where it does and where
it does not; a recall that waits on a slot that stays CLOSING, and on one that leaves it. -/
theorem test_meets_SlotFramesApplied_recall :
    let b : Body := .shut 2 .recalled (some (3, 0))
    let s (p : RecallPhase) : State := asking (.recall (recallE p 0)) up
    (∀ p, (got false (fr 1 b) (s p)).takesInStep (fr 1 b) ∧
      (∀ o, (got false (fr 1 (.shutDone 3 o)) (s p)).takesInStep (fr 1 (.shutDone 3 o))) ∧
      (s p).dir.request = some (.recall (recallE p 0)) ∧ (recallE p 0).tag = 3 ∧
        (recallE p 0).phase = p) ∧
      (∀ j, (recallE .backoff 0).phase ≠ .releasing j) ∧ (s .asked).mem.stn = 0 ∧
      (up.dir.rep.apply 1 (.shutDone 3 .retrying)).dir[3].isClosing = true ∧
      (up.dir.rep.apply 1 (.shutDone 3 .closed)).dir[3].isClosing = false := by
  have hp : up.dir.rep.isPresent 1 = true := by decide +kernel
  exact ⟨fun p => ⟨got_takesInStep _ _ _ rfl rfl hp rfl,
      fun o => got_takesInStep _ _ _ rfl rfl hp rfl, rfl, rfl, rfl⟩,
    fun j h => RecallPhase.noConfusion h, rfl, by decide +kernel, by decide +kernel⟩

/-- A replica in which this station and station 1 hold nothing and run nothing. -/
def repIdle : Replica :=
  { repQ 2 2 with dir := dirOf [(6, .orphaned 2 .mixed 3 0)], runs := Vector.replicate 8 none }

theorem test_meets_RosterFramesApplied :
    (∀ own st, (got own (fr st (.join st 1 false params)) up).takes own
        (fr st (.join st 1 false params)) []) ∧
      up.mem.state = .member ∧ up.dir.rep.isPresent 1 = true ∧ up.dir.rep.isPresent 7 = false ∧
      up.dir.rep.params ≠ some { params with c := 2048 } ∧
      (∀ st : Station, st = 0 ∨ st = 1 →
        (got false (fr st (.leave st)) (stationOf .member repIdle)).takesInStep (fr st (.leave st)) ∧
          repIdle.heldCount st = 0 ∧ ∀ j : Station, repIdle.runs[j] ≠ some st) ∧
      (got false (fr 1 (.absent 0)) up).takesInStep (fr 1 (.absent 0)) ∧
      (got false (fr 0 (.absent 1)) up).takesInStep (fr 0 (.absent 1)) ∧
      up.dir.rep.isPresent 0 = true := by
  refine ⟨fun own st => got_takes own _ up rfl, rfl, ?_, ?_, ?_, ?_,
    test_takesInStep _ _ _ rfl (.inr rfl), test_takesInStep _ _ _ rfl (.inl rfl), ?_⟩
  all_goals try decide +kernel
  rintro st (rfl | rfl)
  · exact ⟨got_takesInStep _ _ _ rfl rfl (by decide +kernel) rfl, by decide +kernel, by decide +kernel⟩
  · exact ⟨got_takesInStep _ _ _ rfl rfl (by decide +kernel) rfl, by decide +kernel, by decide +kernel⟩

theorem test_meets_TakeoverFramesApplied :
    (got true (fr 0 (.takeover 2)) up).takesInStep (fr 0 (.takeover 2)) ∧
      (got true (fr 0 (.takeoverEnd 3 .failed)) up).takesInStep (fr 0 (.takeoverEnd 3 .failed)) ∧
      up.dir.rep.runs[2] = none ∧ up.dir.rep.hasOrphan 2 = true ∧ up.dir.rep.adopter = some 0 ∧
      up.dir.rep.runs[3] = some 0 ∧ up.mem.stn = 0 ∧ up.flt.notices.length < 16 ∧
      ({ up.dir.rep with dir := dirOf [] } : Replica).hasOrphan 3 = false := by
  refine ⟨test_takesInStep _ _ _ rfl (.inl rfl), test_takesInStep _ _ _ rfl (.inl rfl), ?_⟩
  decide +kernel

theorem test_meets_UnfitFrames :
    (∀ own f, (got own f up).takes own f []) ∧ up.mem.state = .member ∧
      Instr.claim.takesKind = some (Body.claim 0 .mixed).kind ∧
      (Body.claim 0 .mixed).kind.isDirectory = true ∧ up.dir.rep.isPresent 1 = true ∧
      up.dir.rep.applies (fr 1 (.claim 0 .mixed)) = false ∧
      (Body.claim 0 .mixed).kind ≠ .join ∧ up.dir.rep.isPresent 7 = false := by
  refine ⟨fun own f => got_takes own f up rfl, ?_⟩; decide +kernel

/-- A fit frame and an unfit one of every directory kind, and a JOIN. -/
theorem test_meets_UnfitFrames_kinds :
    ([fr 0 (.claim 11 .mixed), fr 1 (.shut 2 .full none), fr 0 (.shut 7 .adopted none),
        fr 1 (.shutDone 3 .retrying), fr 1 (.shutDone 4 .quarantined), fr 1 (.restore 5),
        fr 0 (.absent 1), fr 0 (.takeover 2), fr 0 (.takeoverEnd 3 .failed),
        fr 7 (.join 7 1 false params)].all up.dir.rep.applies) ∧
      repIdle.applies (fr 1 (.leave 1)) = true ∧
      ([fr 1 (.claim 11 .mixed), fr 0 (.claim 12 .mixed), fr 0 (.shut 2 .full none),
        fr 1 (.shut 7 .adopted none), fr 1 (.shutDone 4 .retrying), fr 1 (.shutDone 3 .quarantined),
        fr 0 (.shutDone 3 .closed), fr 1 (.restore 6), fr 1 (.absent 1), fr 0 (.absent 2),
        fr 0 (.leave 0), fr 1 (.takeover 2), fr 0 (.takeover 3), fr 0 (.takeoverEnd 3 .done),
        { fr 1 (.restore 5) with base := some 8 }].all fun f => !up.dir.rep.applies f) := by
  decide +kernel

theorem test_meets_OwnFramesActOnHoldings :
    (got true (fr 0 (.shut 0 .full none)) up).takesInStep (fr 0 (.shut 0 .full none)) ∧
      (fr 0 (.shut 0 .full none)).sender = up.mem.stn ∧ up.bus.sending = none ∧
      up.dir.rep.applies (fr 0 (.claim 11 (.normal 3))) = true ∧
      up.dir.rep.applies (fr 0 (.shut 0 .full none)) = true ∧ up.dir.ext[0] = some ext0 ∧
      up.dir.rep.applies (fr 0 (.shut 7 .adopted none)) = true ∧
      up.dir.rep.dir[7] = .orphaned 3 (.normal 3) 4 1 ∧
      up.dir.rep.applies (fr 0 (.shutDone 1 .closed)) = true ∧
      up.dir.rep.applies (fr 0 (.shutDone 1 .retrying)) = true ∧
      up.dir.ext[1] = some (Ext.fresh 6) ∧ departing.mem.departing = true := by
  refine ⟨test_takesInStep _ _ _ rfl (.inl rfl), ?_⟩; decide +kernel

/-- Station 0 holds one slot more than its quota of 1, none of them closing. -/
def overQuota : State :=
  (stationOf .member { repQ 1 2 with
    dir := dirOf [(0, .opened 0 (.normal 1) 5), (1, .opened 0 (.normal 0) 6)] })

theorem test_meets_RecallTaken :
    (∀ own r g, (got own (fr r (.recall 3 r g)) up).takes own (fr r (.recall 3 r g)) []) ∧
      up.dir.rep.isPresent 1 = true ∧ up.bus.sending = none ∧
      (asking (.recall (recallE .queued 0)) up).dir.request = some (.recall (recallE .queued 0)) ∧
      up.dir.rep.excess 0 ≤ 0 ∧
      (0 < (stationOf .member (repQ 1 2)).dir.rep.excess 0 ∧ (stationOf .member (repQ 1 2)).openExcess ≤ 0) ∧
      (0 < overQuota.dir.rep.excess 0 ∧ 0 < overQuota.openExcess ∧ overQuota.shutCandidate = some 0) ∧
      (inState .catchup up).mem.state = .catchup := by
  refine ⟨fun own r g => got_takes own _ up rfl, ?_⟩; decide +kernel

theorem test_meets_DeferTaken :
    let s (p : RecallPhase) (n : Nat) := asking (.recall (recallE p n)) up
    (∀ s : State, s.rst = none →
        (got false (fr 1 (.defer 3 .stale)) s).takes false (fr 1 (.defer 3 .stale)) []) ∧
      (s .asked 3).rst = none ∧ (s .asked 3).mem.state = .member ∧
      (s .asked 3).dir.rep.isPresent 1 = true ∧
      (s .asked 3).dir.request = some (.recall (recallE .asked 3)) ∧ (recallE .asked 3).target = 1 ∧
      (recallE .asked 3).tries < 4 ∧ 4 ≤ (recallE .asked 4).tries ∧
      (recallE .backoff 0).phase ≠ .asked ∧ (recallE .asked 0).tag = 3 ∧ (recallE .asked 0).tag ≠ 4 ∧
      up.dir.request = none := by
  refine ⟨fun s h => got_takes false _ s h, ?_⟩; decide +kernel

theorem test_meets_CatchupFramesTaken :
    let s (p : AskPhase) := asking (.ask (askE p)) (inState .catchup up)
    let v (p : ServePhase) : State := up.onDir fun d => { d with serving := some ⟨3, 1, p⟩ }
    (∀ own b (s : State), s.rst = none → (got own (fr 1 b) s).takes own (fr 1 b) []) ∧
      (s .asking).mem.state = .catchup ∧ (s .asking).bus.sending = none ∧
      (s .asking).dir.request = some (.ask (askE .asking)) ∧ (askE .asking).tag = 3 ∧
      (s .offers).dir.request = some (.ask (askE .offers)) ∧ (s .offers).mem.stn = 0 ∧
      (s (.receiving 1 6)).dir.request = some (.ask (askE (.receiving 1 6))) ∧
      up.mem.state = .member ∧ up.dir.rep.isPresent 1 = true ∧ up.dir.serving = none ∧
      (v (.delay 0)).dir.serving = some ⟨3, 1, .delay 0⟩ ∧
      (v (.offered true)).dir.serving = some ⟨3, 1, .offered true⟩ ∧
      (∃ l, (s .offers |>.onFlt (·.loadRequest ⟨true, 3, none, 9, 0⟩)).flt.lastReq = some l ∧
        l.ask = true ∧ l.tag = 3) ∧
      (inState .joining up).mem.state = .joining ∧ (inState .joining up).bus.sending = none ∧
      Instr.absent.takesKind = some (Body.absent 1).kind ∧ (Body.absent 1).kind.isDirectory = true ∧
      (inState .catchup up).dir.request = none ∧ (s .offers).dir.log.length < 16 ∧
      ((s .offers).onDir fun d =>
        { d with log := List.replicate 15 ⟨fr 1 (.restore 5), true⟩ }).dir.log.length < 16 ∧
      16 ≤ ((s .offers).onDir fun d =>
        { d with log := List.replicate 16 ⟨fr 1 (.restore 5), true⟩ }).dir.log.length ∧
      (askE (.receiving 1 0)).phase = .receiving 1 0 ∧ (askE .asking).phase = .asking := by
  refine ⟨fun own b s h => got_takes own _ s h, ?_⟩; decide +kernel

/-- A station that has received every part of a snapshot of a replica from station 1. -/
def snapped (r : Replica) : State :=
  (asking (.ask (askE (.receiving 1 7))) (inState .catchup up)).onDir fun d =>
    { d with
      snap := snapshotParts 3 r,
      log := [⟨fr 1 (.claim 0 .mixed), false⟩, ⟨fr 1 (.restore 5), true⟩] }

theorem test_meets_SnapshotEndInstalls :
    let r := repQ 2 2
    (∀ s : State, s.rst = none → ∀ b, (got false (fr 1 b) s).takes false (fr 1 b) []) ∧
      (snapped r).mem.state = .catchup ∧
      (snapped r).dir.request = some (.ask (askE (.receiving 1 7))) ∧
      (askE (.receiving 1 7)).tag = 3 ∧ unpackSnapshot (snapped r).dir.snap 9 = some r ∧
      unpackSnapshot ((snapped r).dir.snap.drop 1) 9 = none ∧ (6 : Nat) ≠ 7 ∧
      r.snapshotOk = true ∧ ({ r with dir := put r.dir 12 .free } : Replica).snapshotOk = false ∧
      r.params = (snapped r).mem.cfg.map (·.params) ∧
      some { params with c := 2048 } ≠ (snapped r).mem.cfg.map (·.params) ∧
      (Replica.replayed (((snapped r).dir.log.filter (·.afterPart0)).map (·.frame)) r).map
        (fun x => x.isPresent 0) = some true ∧
      Replica.replayed [fr 1 (.claim 0 .mixed)] r = none ∧
      (Replica.replayed [fr 1 (.absent 0)] r).map (fun x => x.isPresent 0) = some false := by
  refine ⟨fun s h b => got_takes false _ s h, ?_⟩; decide +kernel

/-- The premises of the settlement: a holding kept OPEN or CLOSING with a shut or a close-report, one
that is gone or new; a duty RUNNING with a count of 0 or 2, ENDING, or none, and a run of no station. -/
theorem test_meets_SnapshotEndInstalls_settled :
    let r := repQ 2 2
    let u (f : Ext → Ext) : State := (snapped r).onDir fun d => { d with ext := mapIdx d.ext fun _ x => x.map f }
    (snapped r).dir.ext[0] = some ext0 ∧ r.dir[0] = .opened 0 (.normal 1) ext0.serial ∧
      ((u fun x => { x with shutDue := some .fault }).dir.ext[0].map (·.shutDue)) = some (some .fault) ∧
      (snapped r).dir.ext[1] = some (Ext.fresh 6) ∧ r.dir[1] = .closing 0 (.normal 0) 6 .full 0 ∧
      ((u fun x => { x with closeReport := some .failed }).dir.ext[1].map (·.closeReport)) =
        some (some .failed) ∧
      ((u fun x => { x with serial := 4 }).dir.ext[0].map (·.serial)) = some 4 ∧
      r.dir[0].serial? ≠ some 4 ∧ r.dir[1].serial? ≠ some 4 ∧ r.dir[2].holder? ≠ some 0 ∧
      r.runs[3] = some 0 ∧ r.runs[2] ≠ some 0 ∧ (snapped r).mem.duty[3] = none ∧ r.hasOrphan 3 = true ∧
      (∀ n ∈ [0, 1, 2], ((snapped r).onMem fun m =>
        { m with duty := put m.duty 3 (some ⟨.running, n, none⟩) }).mem.duty[3] =
          some ⟨.running, n, none⟩) := by
  decide +kernel

/-- The state with these frames in the transmit queue. -/
def sendingOf (l : List QFrame) (s : State) : State := s.onBus fun b => { b with tx := l }

/-- A station that holds nothing where station 1 holds every slot. -/
def short : State :=
  stationOf .member { repQ 4 2 with
    dir := dirOf ((List.range 12).map fun i => (Fin.ofNat 48 i, DirEntry.opened 1 (.normal 0) 1)) }

/-- A station that serves station 1 under tag 3. -/
def serving (p : ServePhase) : State := up.onDir fun d => { d with serving := some ⟨3, 1, p⟩ }

theorem test_meets_HeadChecksByKind :
    up.check { dest := none, body := .claim 8 (.normal 0) } = .pass (.claim 8 (.normal 0)) ∧
      up.check { dest := none, body := .claim 0 (.normal 0) } = .pass (.claim 8 (.normal 0)) ∧
      short.check { dest := none, body := .recall 3 0 7 } = .pass (.recall 3 0 1) ∧
      census.mem.cfg = some cfg ∧
      (serving (.offered true)).dir.serving = some ⟨3, 1, .offered true⟩ ∧
      (ServePhase.sending) ≠ .offered true ∧
      up.dir.rep.isPresent 7 = false ∧ up.dir.rep.isPresent 1 = true ∧
      ((snapshotParts 3 up.dir.rep)[0]?).isSome ∧
      ((snapped (repQ 2 2)).dir.snap[(6 : Fin 7).val]?).isSome := by
  decide +kernel

theorem test_meets_ContentionTaken :
    let q : QFrame := { dest := none, body := .restore 5 }
    let w : QFrame := { dest := none, body := .restore 0 }
    let c : QFrame := { dest := none, body := .claim 8 .mixed }
    let s := sendingOf [q, w] up
    s.rst = none ∧ s.bus.receiver = .hunt ∧ s.bus.sending = none ∧ s.bus.yieldOwed = false ∧
      s.bus.rx = [] ∧ s.bus.tx = q :: [w] ∧ s.check q = .pass (.restore 5) ∧
      (sendingOf [w] up).check w = .withdraw ∧ up.bus.tx = [] ∧
      (s.onBus fun b => { b with yieldOwed := true }).bus.yieldOwed = true ∧
      (got false (fr 1 (.leave 1)) s).bus.rx ≠ [] ∧
      (up.afterWithdrawal w.body []).bus.tx = [] ∧ (up.afterWithdrawal w.body [q]).bus.tx = q :: [] ∧
      (up.afterWithdrawal w.body [q]).check q = .pass (.restore 5) ∧
      (sendingOf [w, q] up).check w = .withdraw ∧ w.body.kind.leadsToWork = false ∧
      up.mem.departing = false ∧
      ((sendingOf [c] up).onLine fun l => { l with mode := .hold }).check c = .withdraw ∧
      c.body.kind.leadsToWork = true := by decide +kernel

theorem test_meets_AttemptEnds :
    let sg (b : Body) (w : Bool) : Sending := { frame := fr 0 b, withdrawn := w }
    let s (m : MemberState) (g : Sending) : State := (inState m up).onBus fun b => { b with sending := some g }
    (s .member (sg (.leave 0) true)).rst = none ∧
      (s .member (sg (.leave 0) true)).bus.sending = some (sg (.leave 0) true) ∧
      (sg (.leave 0) false).frame.body.kind ≠ .join ∧
      (s .joining (sg (.join 0 1 false params) false)).mem.state ≠ .listen ∧
      (sg (.join 0 1 false params) false).frame.body.kind = .join ∧
      (s .listen (sg (.join 0 1 false params) false)).mem.state = .listen := by decide +kernel

theorem test_meets_BusTimersFire :
    let b (f : Bus → Bus) : State := up.onBus f
    let q : QFrame := { dest := none, body := .absent 1 }
    up.rst = none ∧ up.bus.receiver = .hunt ∧ up.bus.sending = none ∧
      (b fun x => { x with held := [q], tx := List.replicate 7 q }).bus.tx.length < 8 ∧
      (b fun x => { x with beacon := .running 0 }).bus.beacon = .running 0 ∧
      (1 : Station) ≠ up.mem.stn ∧ up.bus.receiver ≠ .off ∧ up.bus.heard[1].reported = false ∧
      up.mem.cfg.isSome ∧ up.mem.state = .member ∧ up.dir.rep.isPresent 1 = true ∧
      (∀ x ∈ up.bus.waiting, x.body ≠ .absent 1) ∧ up.dir.rep.isPresent 7 = false ∧
      (∃ x ∈ (sendingOf [q] up).bus.waiting, x.body = .absent 1) := by decide +kernel

theorem test_meets_MembershipTimersFire :
    let l := (inState .listen up).onMem fun m => { m with listenTimer := some 0 }
    let heard (c : Bool) (t : Nat) : State := l.onBus fun b =>
      { b with heard := put b.heard 7 ⟨t, some ⟨9, c, .run⟩, false⟩ }
    (census.onMem fun m => { m with sealTimer := some 0 }).mem.sealTimer = some 0 ∧
      census.mem.state = .census ∧ census.mem.cfg = some cfg ∧ l.mem.listenTimer = some 0 ∧
      (∃ st : Station, ∃ b ∈ [(⟨9, false, .run⟩ : BeaconInfo)], st ≠ (heard false 23).mem.stn ∧
        (heard false 23).bus.heard[st].time < 3 * (heard false 23).pTicks ∧
        (heard false 23).bus.heard[st].beacon = some b ∧ b.catchup = false) ∧
      (∀ st : Station, (heard false 24).bus.heard[st].time < 3 * (heard false 24).pTicks →
        (heard false 24).bus.heard[st].beacon = none) ∧
      (∀ st : Station, ((heard true 0).bus.heard[st].beacon.map (·.catchup)).getD true = true) ∧
      ((inState .catchup up).onMem fun m => { m with retryTimer := some 0 }).mem.retryTimer = some 0 := by
  decide +kernel

theorem test_meets_ExchangeTimersFire :
    let a (p : AskPhase) := asking (.ask (askE p)) (inState .catchup up)
    let r (p : RecallPhase) (n : Nat) (s : State) := asking (.recall (recallE p n)) s
    let v (m : MemberState) : State :=
      (inState m up).onDir fun d => { d with serving := some ⟨3, 1, .delay 0⟩ }
    up.rst = none ∧ (a .offers).dir.request = some (.ask (askE .offers)) ∧
      (a (.receiving 1 6)).dir.request = some (.ask (askE (.receiving 1 6))) ∧
      (v .member).dir.serving = some ⟨3, 1, .delay 0⟩ ∧ (v .member).mem.state = .member ∧
      (r .asked 3 up).dir.request = some (.recall (recallE .asked 3)) ∧ (recallE .asked 3).tries < 4 ∧
      4 ≤ (recallE .asked 4).tries ∧ (r .backoff 0 short).recallStands = some 1 ∧
      (r .backoff 0 up).recallStands = none ∧
      (up.onDir fun d => { d with cooling := some 0 }).dir.cooling.isSome := by decide +kernel

/-- The link controller as given. -/
def withLink (f : Link → Link) (s : State) : State := { s with link := f s.link }

theorem test_meets_DirectivesIssued :
    let held := withLink (fun l => { l with
      heldOpens := [⟨8, 10, .mixed⟩], opens := List.replicate 3 ⟨9, 1, .live none⟩,
      queue := List.replicate 15 (.closeOrder 0 0 .full) }) up
    let close := up.onDir fun d => { d with ext := put d.ext 1 (some { Ext.fresh 6 with readiness := .ready }) }
    up.rst = none ∧ up.link.state = .operating ∧ State.reset.link.state = .portWait ∧
      held.mem.state = .member ∧ held.link.queue.length < 16 ∧ held.link.opens.length < 4 ∧
      held.link.heldOpens = ⟨8, 10, .mixed⟩ :: [] ∧ held.nextClose = none ∧
      close.link.closes.length < 4 ∧ close.dir.closing.find? close.closeWanted = some 1 ∧
      close.dir.ext[1] = some { Ext.fresh 6 with readiness := .ready } ∧
      close.dir.rep.dir[1] = .closing 0 (.normal 0) 6 .full 0 := by decide +kernel

/-- A station that closes slot 1 for the run of station 3, whose timeout count is `n`. -/
def adopting (n : Nat) : State :=
  up.onMem fun m => { m with adoption := [⟨1, 6, 3⟩], duty := put m.duty 3 (some ⟨.running, n, none⟩) }

theorem test_meets_CompletionsMatched :
    let p (k : Slot) (g : Gen) (t : PlaceTimer) : TrackPlace := ⟨k, g, t⟩
    let s := withLink (fun l => { l with
      opens := [p 1 6 (.live none), p 8 1 (.released 0)],
      closes := [p 9 1 (.released 0), p 0 5 (.live (some 0))] }) up
    s.rst = none ∧ State.reset.link.state = .portWait ∧ s.link.state = .operating ∧
      (∀ q ∈ s.link.opens, q.slot.val = (255 : Byte).toNat → q.serial ≠ 6) ∧
      (∀ q ∈ s.link.closes, q.slot.val = (0 : Byte).toNat → q.serial ≠ 6) ∧
      s.plc.comp[0] = none ∧
      s.link.opens = [] ++ p 1 6 (.live none) :: [p 8 1 (.released 0)] ∧
      s.dir.ext[1] = some (Ext.fresh 6) ∧ (Ext.fresh 6).readiness = .awaitingOpen ∧
      s.link.opens = [p 1 6 (.live none)] ++ p 8 1 (.released 0) :: [] ∧
      s.link.closes = [] ++ p 9 1 (.released 0) :: [p 0 5 (.live (some 0))] ∧
      s.link.closes = [p 9 1 (.released 0)] ++ p 0 5 (.live (some 0)) :: [] ∧
      s.dir.ext[0] = some ext0 ∧ ext0.serial = 5 ∧
      (∀ q ∈ [p 9 1 (.released 0)], q.slot = 0 → q.serial ≠ 5) ∧
      up.mem.state = .member ∧ (inState .catchup up).mem.state ≠ .member ∧
      up.dir.rep.dir[1] = .closing 0 (.normal 0) 6 .full 0 ∧
      (∀ n ∈ [0, 1, 2], (adopting n).mem.adoption = [] ++ ⟨1, 6, 3⟩ :: [] ∧
        (adopting n).mem.duty[3] = some ⟨.running, n, none⟩) := by
  decide +kernel

/-- A station with one WAITING stream, context `c`, of class 1. -/
def waitingOn (c : Ctx) (s : State) : State :=
  withCtx c { exStream with state := .waiting, slot := none, inFlight := 0 } s

/-- Slot 0 of a station awaits its opening, and stream 63 alone is WAITING. -/
def opening (kd : SlotKind) : State :=
  waitingOn 63 (withLink (fun l => { l with opens := [⟨0, 5, .live none⟩] }) (up.onDir fun d =>
    { d with ext := put d.ext 0 (some (Ext.fresh 5)),
             rep := { d.rep with dir := put d.rep.dir 0 (.opened 0 kd 5) } }))

/-- That station once slot 0 is READY. -/
def opened (kd : SlotKind) : State :=
  (opening kd).onDir fun d =>
    { d with ext := put d.ext 0 (some { Ext.fresh 5 with readiness := .ready }) }

/-- The premises of the giving out of slot 0: a claimant that waits, a stream that stands by and that the
slot is fit for, none that stands by, and a MIXED slot. -/
theorem test_meets_CompletionsMatched_gaveOut :
    (opening (.normal 1)).link.opens = [] ++ ⟨0, 5, .live none⟩ :: [] ∧
      (opening (.normal 1)).dir.ext[0] = some (Ext.fresh 5) ∧
      (opened (.normal 1)).dir.rep.dir[0] = .opened (opened (.normal 1)).mem.stn (.normal 1) 5 ∧
      (opened (.normal 1)).str.ctxs[63].state = .waiting ∧
      (opened (.normal 1)).line.pressure = false ∧
      (∀ b : Ctx, b ≠ 63 → (opened (.normal 1)).str.ctxs[b].state ≠ .waiting) ∧
      (opened (.normal 1)).standsBy 1 63 ∧
      (∀ e ∈ (opened (.normal 1)).str.ctxs[63].pending, (opened (.normal 1)).fits 1 e 0) ∧
      (opened (.normal 1)).str.ctxs[63].pending ≠ [] ∧
      (∀ b : Ctx, (opened (.normal 1)).str.ctxs[b].state = .waiting →
        ((opened (.normal 1)).str.ctxs[b].headAcc - 3).toNat < 32768) ∧
      (∀ c : Ctx, ¬ (opened (.normal 2)).standsBy 2 c) ∧
      (opened .mixed).dir.rep.dir[0] = .opened (opened .mixed).mem.stn .mixed 5 := by
  have hx : (opened (.normal 1)).dir.ext[(0 : Slot)] = some { Ext.fresh 5 with readiness := .ready } := by
    decide +kernel
  have hd : (opened (.normal 1)).dir.rep.dir[(0 : Slot)] = .opened 0 (.normal 1) 5 := by decide +kernel
  refine ⟨rfl, by decide +kernel, by decide +kernel, by decide +kernel, rfl, by decide +kernel,
    by unfold State.standsBy; decide +kernel, fun e he => ?_, by decide +kernel, by decide +kernel,
    by unfold State.standsBy; decide +kernel, by decide +kernel⟩
  have hn : e.headExtent = none :=
    (by decide +kernel : ∀ e ∈ exStream.pending, e.headExtent = none) e he
  refine ⟨⟨_, _, _, hx, hd, rfl, rfl, ?_⟩, by rw [hd]; rfl, _, hx, by decide⟩
  rw [hn]
  exact (by decide +kernel : 1 ≤ (opened (.normal 1)).dir.rep.capacity - (Ext.fresh 5).cursor)

/-- The premises of an onset that shuts: MEMBER, no stream WAITING, one slot too many, and the slot that
is shut first. -/
theorem test_meets_LinesFollowed_onset :
    overQuota.rst = none ∧ overQuota.line.pressureLine = false ∧ overQuota.line.pressure = false ∧
      overQuota.mem.cfg.isSome ∧ overQuota.mem.state = .member ∧
      (∀ c : Ctx, overQuota.str.ctxs[c].state ≠ .waiting) ∧ 0 < overQuota.openExcess ∧
      overQuota.closeCount < 4 ∧ overQuota.shutFirst 0 := by
  have hx : overQuota.dir.ext[(0 : Slot)] = some ext0 := by decide +kernel
  have hd : overQuota.dir.rep.dir[(0 : Slot)] = .opened 0 (.normal 1) 5 := by decide +kernel
  have hr : ∀ j : Slot, j ≠ 0 → overQuota.dir.ext[j].map (·.readiness) ≠ some .ready := by decide +kernel
  refine ⟨rfl, rfl, rfl, rfl, rfl, by decide +kernel, by decide +kernel, by decide +kernel,
    ⟨_, _, _, hx, hd, rfl, rfl⟩, ?_⟩
  rintro j hj ⟨x, kd, g, h1, -, h3, -⟩
  exact absurd (by rw [h1, Option.map_some, h3]) (hr j hj)

theorem test_meets_LinesFollowed :
    let l (f : Lines → Lines) : State := up.onLine f
    up.rst = none ∧ up.line.pfwLine = false ∧ up.line.pressureLine = false ∧
      (l fun x => { x with pfwLine := true }).line.pfwLine = true ∧
      (l fun x => { x with pressureLine := true }).line.pressureLine = true ∧
      (l fun x => { x with episode := some 0 }).line.episode.isSome ∧
      (l fun x => { x with pressure := true, pressureLine := true }).mem.cfg.map (·.pressureMode) =
        some .level ∧
      (asking (.recall (recallE .asked 0)) up).dir.request = some (.recall (recallE .asked 0)) ∧
      (∀ k, (recallE .asked 0).phase ≠ .releasing k) ∧
      ({ up with rst := some .drive } : State).rst.isSome ∧
      (asking (.recall (recallE (.releasing 8) 0)) up).dir.request =
        some (.recall (recallE (.releasing 8) 0)) ∧
      (up.onPlc fun p => { p with claims := [⟨8, .mixed, none, .opening⟩] }).plc.claims =
        [⟨8, .mixed, none, .opening⟩] := by decide +kernel

/-- The premises of a policy pass: one stream alone WAITING, its head in no claim; claim permission below
quota and, with a FREE slot beyond the reserve, at it; none under PRESSURE at quota; recall permission
with no slot FREE; and context 0 with the station's MIXED slot, or with none. -/
theorem test_meets_policyStep :
    (waitingOn 63 up).str.ctxs[63].state = .waiting ∧
      (∀ b : Ctx, b ≠ 63 → (waitingOn 63 up).str.ctxs[b].state ≠ .waiting) ∧
      (∀ y ∈ (waitingOn 63 up).plc.claims, y.claimant ≠ some 63) ∧
      (waitingOn 63 up).str.ctxs[63].cls = some 1 ∧
      (stationOf .member (repQ 4 2)).mayClaim ∧ up.mayClaim ∧
      ¬ (up.onLine fun l => { l with pressure := true }).mayClaim ∧
      short.mayRecall ∧ ¬ short.mayClaim ∧
      exMixed.dir.rep.dir[0].holder? = some exMixed.mem.stn ∧
      (∀ j : Slot, exMixed.dir.rep.dir[j].holder? = some exMixed.mem.stn →
        exMixed.dir.rep.dir[j].kind? = some .mixed → j = 0) ∧
      (∀ k : Slot, up.dir.rep.dir[k].holder? = some up.mem.stn → up.dir.rep.dir[k].kind? ≠ some .mixed) := by
  refine ⟨?_, ?_, ?_, ?_, ?_, ?_, ?_, ?_, ?_, ?_, ?_, ?_⟩ <;>
    first
    | decide +kernel
    | (unfold State.mayClaim State.mayAsk; decide +kernel)
    | (unfold State.mayRecall State.mayAsk; decide +kernel)

/-- A slot that is fit for a stream, one that takes a tail of its room and not a longer one. -/
theorem test_meets_policyStep_slots :
    let e : PendingEntry := { tailEntry with remaining := 24, headExtent := none }
    let t (n : Nat) : PendingEntry := { tailEntry with remaining := n }
    exSplit.fits 1 e 0 ∧ exMixed.takesEntry (t 24) 0 ∧ exMixed.tooLong (t 25) 0 ∧
      ¬ exMixed.takesEntry (t 25) 0 := by
  have hx : exMixed.dir.ext[(0 : Slot)] = some { ext0 with residents := [12] } := by decide +kernel
  have hd : exMixed.dir.rep.dir[(0 : Slot)] = .opened 0 .mixed 5 := by decide +kernel
  have hy : exSplit.dir.ext[(0 : Slot)] = some { ext0 with residents := [12] } := by decide +kernel
  have he : exSplit.dir.rep.dir[(0 : Slot)] = .opened 0 (.normal 1) 5 := by decide +kernel
  refine ⟨⟨⟨_, _, _, hy, he, rfl, rfl, by decide +kernel⟩, by rw [he]; rfl, _, hy, by decide⟩,
    ⟨_, _, _, hx, hd, rfl, rfl, by decide +kernel⟩, ⟨_, _, _, hx, hd, rfl, rfl, rfl, by decide +kernel⟩, ?_⟩
  rintro ⟨x, kd, g, h1, -, -, -, h⟩
  rw [hx] at h1
  cases h1
  exact absurd h (by decide +kernel)

theorem test_meets_ResetsTaken :
    ({ up with rst := some .station } : State).rst = some .station ∧
      ({ up with rst := some .powerOn } : State).rst = some .powerOn := by decide +kernel

end Sys2Proof.Tests
end

