-- ==== Sys2Proof/Proofs/Classifier.lean ====
section
/-! SUPPORT. The classifier after a reset (R16), the outcome of an intake head against it and in
UNCONFIGURED (R6, R8), and the operations of REJOIN, WAKE and the named-absent path that keep it. -/

namespace Sys2Proof.Machine

/-! ### The reset classifier (R16) -/

/-- R176: a reset has the classifier's reset value from its beginning (log entry 31). -/
@[simp] theorem startReset_cls (s : State) (k : ResetKind) : (s.startReset k).cls = Classifier.reset := rfl

@[simp] theorem endReset_cls (s : State) (k : ResetKind) (st : Station) (a : Bool) :
    (s.endReset k st a).cls = Classifier.reset := rfl

theorem execResetEnd_during {s : State} {k : ResetKind} (h : s.rst = some k) (st : Station) (a : Bool) :
    execResetEnd st a s = .next (s.endReset k st a) := by
  simp only [execResetEnd, h]

theorem Classifier.reset_entry (i : Fin 32) : Classifier.reset.entries[i] = ClassEntry.reset := by
  simp [Classifier.reset]

theorem Classifier.reset_hint (h : Fin 8) : Classifier.reset.hintMap[h] = 0 := by
  simp [Classifier.reset]

/-- Each reset, and the end of one that is in progress, leaves the reset classifier. -/
theorem reset_commands_cls {c : Instr} {s : State}
    (hc : c = .powerOnReset ∨ c = .driveReset ∨ c = .stationReset ∨
      ∃ st a, c = .resetEnd st a ∧ s.rst.isSome) :
    ∃ t, exec c s = .next t ∧ t.cls = Classifier.reset := by
  obtain rfl | rfl | rfl | ⟨st, a, rfl, hr⟩ := hc
  · exact ⟨_, rfl, startReset_cls s .powerOn⟩
  · exact ⟨_, rfl, startReset_cls s .drive⟩
  · exact ⟨_, rfl, startReset_cls s .station⟩
  · obtain ⟨k, hk⟩ := Option.isSome_iff_exists.mp hr
    exact ⟨_, execResetEnd_during hk st a, endReset_cls s k st a⟩

/-! ### The outcome of an intake head (R6, R8) -/

/-- R8: a disabled entry matches no descriptor. -/
theorem ClassEntry.hits_disabled {e : ClassEntry} (h : e.enabled = false) (d : Descriptor) :
    e.hits d = false := by
  simp [ClassEntry.hits, h]

theorem Classifier.reset_decide (d : Descriptor) : Classifier.reset.decide d = none := by
  refine List.find?_eq_none.mpr fun e he => ?_
  have hreset : e = ClassEntry.reset := by
    simp only [Classifier.reset, Vector.toList_replicate] at he
    exact List.eq_of_mem_replicate he
  rw [hreset, ClassEntry.hits_disabled rfl]
  exact Bool.false_ne_true

/-- R8: a descriptor that no entry matches goes to the common stream. -/
theorem classify_unmatched {s : State} {d : Descriptor} (h : s.cls.decide d = none) :
    s.classify d = .accept .common (s.cls.classOf d 0) := by
  simp only [State.classify, h]

/-- R6: only a descriptor that passes every check is accepted, and then as the classifier says. -/
theorem classify_of_accepted {s : State} {d : Descriptor} {dest : Dest} {cl : LifeClass}
    (h : s.headOutcome d = .accept dest cl) : s.classify d = .accept dest cl := by
  unfold State.headOutcome at h
  split_ifs at h
  exact h

theorem accepted_unmatched {s : State} {d : Descriptor} {dest : Dest} {cl : LifeClass}
    (hd : s.cls.decide d = none) (h : s.headOutcome d = .accept dest cl) : dest = .common := by
  have hc := classify_of_accepted h
  rw [classify_unmatched hd] at hc
  cases hc
  rfl

/-- R6, check 3: UNCONFIGURED is neither MEMBER nor CATCHUP. -/
theorem refusesMembers_unconfigured {s : State} (h : s.mem.state = .unconfigured) :
    s.refusesMembers = true := by
  simp [State.refusesMembers, h]

/-- R6: where the membership check fails, the first check that fails gives the reason. -/
theorem headOutcome_refusesMembers {s : State} (h : s.refusesMembers = true) (d : Descriptor) :
    s.headOutcome d = .refuse
      (if d.length.toNat = 0 ∨ 256 < d.length.toNat then .oversize
        else if s.line.warned then .powerFail else .notMember) none := by
  unfold State.headOutcome
  by_cases hlen : d.length.toNat = 0 ∨ 256 < d.length.toNat
  · rw [if_pos hlen, if_pos hlen]
  · rw [if_neg hlen, if_neg hlen, if_pos h]
    split_ifs <;> rfl

/-! ### What keeps the classifier -/

theorem foldl_keeps_cls {α : Type} (f : State → α → State) (h : ∀ s x, (f s x).cls = s.cls) (l : List α)
    (s : State) : (l.foldl f s).cls = s.cls := by
  induction l generalizing s with
  | nil => rfl
  | cons x l ih => exact (ih (f s x)).trans (h s x)

/-- R76: the removal of a holding changes the classifier no more than the ends of residency do. -/
theorem removeHolding_cls (s : State) (k : Slot) : (s.removeHolding k).cls = s.cls := by
  unfold State.removeHolding
  split
  · rfl
  · next x _ => exact (Works.foldl _ works_endResidency x.residents s).cls

theorem emptyReplica_cls (s : State) : s.emptyReplica.cls = s.cls := by
  simp only [State.emptyReplica, State.onDir_cls, State.onPlc_cls]
  exact foldl_keeps_cls State.removeHolding removeHolding_cls allSlots s

@[simp] theorem forget_cls (s : State) : s.forget.cls = s.cls := by
  simp only [State.forget, State.onMem_cls, State.onDir_cls, emptyReplica_cls]

@[simp] theorem enter_cls (s : State) (m : MemberState) : (s.enter m).cls = s.cls := rfl

@[simp] theorem startListen_cls (s : State) : s.startListen.cls = s.cls := rfl

@[simp] theorem respond_cls (s : State) (code : Nat) (st : RespStatus) (l : List Byte) :
    (s.respond code st l).cls = s.cls := rfl

/-- R140: both ends of the named-absent path, DORMANT and LISTEN, keep the classifier. -/
theorem namedAbsent_cls (s : State) (p : Option Station) : (s.namedAbsent p).cls = s.cls := by
  have hreport : (s.report .namedAbsent none none p none).cls = s.cls := (works_report s _ _ _ _ _).cls
  unfold State.namedAbsent
  dsimp only
  split
  · rw [enter_cls, State.onMem_cls, forget_cls, hreport]
  · rw [startListen_cls, forget_cls, hreport]

theorem actWake_cls (s : State) : s.actWake.cls = s.cls := by
  unfold State.actWake
  split
  · simp
  · exact respond_cls s _ _ _

theorem actRejoin_cls (s : State) : s.actRejoin.cls = s.cls := by
  unfold State.actRejoin
  split
  · simp
  · exact respond_cls s _ _ _

/-- A command whose effect keeps the classifier keeps it, in a reset and outside one. -/
theorem live_keeps_cls {s t : State} {f : State → State} (hf : (f s).cls = s.cls)
    (h : live s f = .next t) : t.cls = s.cls := by
  unfold live at h
  cases h
  split
  · rfl
  · rw [settle_eq]
    exact hf

/-- A control request whose action keeps the classifier keeps it, also where it does not pass or fails
the first check. -/
theorem control_keeps_cls {s t : State} {code : Nat} {args : List Byte} {act : State → State}
    (ha : (act s).cls = s.cls) (h : control code args act s = .next t) : t.cls = s.cls := by
  refine live_keeps_cls ?_ h
  split_ifs
  · rfl
  · exact ha
  · exact respond_cls s _ _ _

/-- Settles O16, from the reset classifier's entries, the check that UNCONFIGURED fails, and what keeps
the classifier. -/
theorem classifierAfterReset : Obligations.ClassifierAfterReset := by
  refine ⟨fun c s hc => ?_, fun d s hs => ?_, fun d s hs => ?_, fun s p => ⟨?_, fun t h => ?_, fun t h => ?_⟩⟩
  · obtain ⟨t, ht, hcls⟩ := reset_commands_cls hc
    refine ⟨t, ht, fun i => ?_, fun h => ?_⟩
    · rw [hcls]; exact Classifier.reset_entry i
    · rw [hcls]; exact Classifier.reset_hint h
  · have hd : s.cls.decide d = none := by rw [hs]; exact Classifier.reset_decide d
    exact ⟨hd, fun _ _ h => accepted_unmatched hd h⟩
  · exact headOutcome_refusesMembers (refusesMembers_unconfigured hs) d
  · exact namedAbsent_cls s p
  · exact control_keeps_cls (actWake_cls s) h
  · exact control_keeps_cls (actRejoin_cls s) h

end Sys2Proof.Machine
end

section
/-! SUPPORT. UNPARK-STREAM (R33) and what it makes possible: a control request that passes and its answer
(R177), the argument of a keyed context, the IDLE context, its idle expiry (R30), and the intake head that
was refused PARKED (R12). -/

namespace Sys2Proof.Machine

/-! ### A control request that passes (R177) -/

theorem control_next {s : State} {code : Nat} {args : List Byte} (act : State → State) (hs : s.ready)
    (hc : firstCheck code args = true) :
    control code args act s = .next { act s with intake := (act s).settledIntake } := by
  obtain ⟨hrst, hresp⟩ := hs
  simp only [control, live_next _ hrst, hresp, hc, Option.isSome_none, Bool.false_eq_true, if_false, if_true]

theorem respond_changes (s : State) (code : Nat) (st : RespStatus) (l : List Byte) :
    s.changesOnly (s.respond code st l) [.intake] := by
  refine ⟨fun b hb => ?_, rfl, rfl⟩
  cases b <;> first | rfl | exact absurd (by decide) hb

/-- An answer to an effect that leaves the intake unit stands in the holding place when the command ends. -/
theorem answered_respond {s t : State} (ht : t.intake = s.intake) (code : Nat) (st : RespStatus)
    (l : List Byte) :
    s.answered { t.respond code st l with intake := (t.respond code st l).settledIntake }
      (byteOf code) st l := by
  obtain ⟨hq, hr, hresp⟩ := settle_from (t.respond code st l)
  have hqueue : (t.respond code st l).intake.queue = s.intake.queue := by rw [← ht]; rfl
  have hresults : (t.respond code st l).intake.results = s.intake.results := by rw [← ht]; rfl
  exact ⟨hresp, hq.trans hqueue, hr.trans hresults⟩

/-- A request whose action is its answer alone changes nothing but the holding place. -/
theorem control_answers {s : State} {code : Nat} {args : List Byte} {act : State → State} {st : RespStatus}
    (hs : s.ready) (hc : firstCheck code args = true) (ha : act s = s.respond code st) :
    ∃ t, control code args act s = .next t ∧ s.answered t (byteOf code) st [] ∧ s.frame t [.intake] := by
  refine ⟨_, control_next act hs hc, ?_, ?_⟩ <;> rw [ha]
  · exact answered_respond rfl code st []
  · exact frame_settled ((respond_changes s code st []).mono (by simp)) (.inl (by simp))

/-! ### The index of a keyed context (R31, R33) -/

theorem ctxOf_index (c : Ctx) : ctxOf [BitVec.ofNat 8 c.val] = some c := by
  have hb : (BitVec.ofNat 8 c.val).toNat = c.val := by
    rw [BitVec.toNat_ofNat]; omega
  simp only [ctxOf, hb, c.isLt, dite_true]

theorem keyedCtxOf_index {c : Ctx} (hc : c ≠ 0) : keyedCtxOf [BitVec.ofNat 8 c.val] = some c := by
  simp [keyedCtxOf, ctxOf_index, hc]

theorem keyedCtxOf_outside {b : Byte} (hb : b = 0 ∨ 64 ≤ b.toNat) : keyedCtxOf [b] = none := by
  rcases hb with rfl | hb
  · decide
  · simp [keyedCtxOf, ctxOf, Nat.not_lt.mpr hb]

/-! ### UNPARK-STREAM (R33) -/

/-- R33: the effect of an UNPARK-STREAM of a PARKED context, without its answer. -/
def State.unpark (s : State) (c : Ctx) : State := s.onCtx c fun x => { x with state := .idle }

/-- R177: a record of the code and an index passes the first check. -/
theorem firstCheck_unparkStream (b : Byte) : firstCheck 5 [b] = true := rfl

theorem actUnparkStream_badIndex {args : List Byte} (h : keyedCtxOf args = none) (s : State) :
    State.actUnparkStream args s = s.respond 5 .badArgument := by
  simp only [State.actUnparkStream, h]; rfl

theorem actUnparkStream_parked {args : List Byte} {c : Ctx} {s : State} (h : keyedCtxOf args = some c)
    (hp : s.str.ctxs[c].state = .parked) :
    State.actUnparkStream args s = (s.unpark c).respond 5 .done := by
  simp only [State.actUnparkStream, h, hp, if_true]; rfl

theorem actUnparkStream_notParked {args : List Byte} {c : Ctx} {s : State} (h : keyedCtxOf args = some c)
    (hp : s.str.ctxs[c].state ≠ .parked) :
    State.actUnparkStream args s = s.respond 5 .wrongState := by
  simp only [State.actUnparkStream, h, hp, if_false]; rfl

/-- R30: the idle timer of a context that leaves PARKED for IDLE starts with the full I, or stands. -/
theorem idleAfter_unparked {c : Ctx} {x : Context} (hc : c ≠ 0) (hp : x.state = .parked) (full : Nat) :
    idleAfter full c x { x with state := .idle } =
      if x.pending = [] ∧ x.inFlight = 0 then some full else none := by
  have hold : x.quiet c = false := by simp [Context.quiet, hp]
  have hnew : ({ x with state := .idle } : Context).quiet c = true ↔ x.pending = [] ∧ x.inFlight = 0 := by
    simp [Context.quiet, hc]
  simp only [idleAfter, hold, hnew, Bool.false_eq_true, false_and, if_false]

theorem unpark_ctx {s : State} {c : Ctx} (hc : c ≠ 0) (hp : s.str.ctxs[c].state = .parked) :
    (s.unpark c).str.ctxs[c] = { s.str.ctxs[c] with
      state := .idle,
      idle := if s.str.ctxs[c].pending = [] ∧ s.str.ctxs[c].inFlight = 0 then some s.idleTicks
        else none } := by
  rw [State.unpark, onCtx_get, if_pos rfl, idleAfter_unparked hc hp]

theorem unpark_other (s : State) {c e : Ctx} (he : e ≠ c) :
    (s.unpark c).str.ctxs[e] = s.str.ctxs[e] := by
  rw [State.unpark, onCtx_get, if_neg he]

theorem unpark_key (s : State) (c e : Ctx) : (s.unpark c).str.ctxs[e].key = s.str.ctxs[e].key := by
  rw [State.unpark, onCtx_get]
  split
  · next he => rw [he]
  · rfl

/-- R19: a PARKED context holds its key, and so does the IDLE one it becomes. -/
theorem unpark_assigned {s : State} {c : Ctx} (hp : s.str.ctxs[c].state = .parked) (e : Ctx) :
    (s.unpark c).str.ctxs[e].state = .unassigned ↔ s.str.ctxs[e].state = .unassigned := by
  rw [State.unpark, onCtx_get]
  split
  · next he => rw [he, hp]; exact ⟨nofun, nofun⟩
  · exact Iff.rfl

/-! ### The next descriptor (R24) and the idle expiry (R30) -/

theorem joinList_idle {t : State} {c : Ctx} (h : t.str.ctxs[c].state = .idle) (d : Descriptor) :
    (t.joinList c d).str.ctxs[c].state = .waiting ∧
      (t.joinList c d).str.ctxs[c].pending = t.str.ctxs[c].pending ++ [t.newEntry d] := by
  have hctx : (t.joinList c d).str.ctxs[c] = (t.onCtx c fun x => x.joined (t.newEntry d)).str.ctxs[c] := rfl
  rw [hctx, onCtx_get, if_pos rfl]
  exact ⟨if_pos h, rfl⟩

theorem polices_releaseSlot (s : State) (c : Ctx) (k : Option (Slot × Gen)) :
    Polices s (s.releaseSlot c k) := by
  unfold State.releaseSlot
  split
  · exact polices_leaveSlot s c _
  · exact Polices.refl s

/-- R30: a context whose idle timer expires is UNASSIGNED without a key, whatever the release of its slot
and the policy pass then do: they leave an UNASSIGNED context as it is. -/
theorem expireIdle_unassigned {t : State} {c : Ctx} (hc : c ≠ 0) (hi : t.str.ctxs[c].idle.isSome) :
    (t.expireIdle c).str.ctxs[c].state = .unassigned ∧ (t.expireIdle c).str.ctxs[c].key = none := by
  have hexp : (t.onCtx c Context.expired).str.ctxs[c].state = .unassigned ∧
      (t.onCtx c Context.expired).str.ctxs[c].key = none := by
    rw [onCtx_get, if_pos rfl]; exact ⟨rfl, rfl⟩
  have hpol := (polices_releaseSlot (t.onCtx c Context.expired) c t.str.ctxs[c].slot).trans
    (polices_policyPass _)
  have hstill := hpol.still c (by rw [hexp.1]; nofun) (by rw [hexp.1]; nofun)
  have heq : t.expireIdle c =
      ((t.onCtx c Context.expired).releaseSlot c t.str.ctxs[c].slot).policyPass := if_pos ⟨hc, hi⟩
  rw [heq, hstill]
  exact hexp

theorem exec_idleTimerExpiry_unassigned {t : State} {c : Ctx} (hr : t.rst = none) (hc : c ≠ 0)
    (hi : t.str.ctxs[c].idle.isSome) :
    ∃ u, exec (.idleTimerExpiry c) t = .next u ∧ u.str.ctxs[c].state = .unassigned ∧
      u.str.ctxs[c].key = none :=
  ⟨_, live_next (fun s => s.expireIdle c) hr, expireIdle_unassigned hc hi⟩

/-! ### An intake head refused PARKED (R12) -/

/-- R19: which context holds a key depends on the keys and on which contexts are UNASSIGNED alone. -/
theorem lookup_congr {t u : Streams} (hkey : ∀ e : Ctx, u.ctxs[e].key = t.ctxs[e].key)
    (hst : ∀ e : Ctx, u.ctxs[e].state = .unassigned ↔ t.ctxs[e].state = .unassigned) (k : Key) :
    u.lookup k = t.lookup k := by
  have hne : ∀ e : Ctx, (u.ctxs[e].state != .unassigned) = (t.ctxs[e].state != .unassigned) := fun e => by
    rw [Bool.eq_iff_iff, bne_iff_ne, bne_iff_ne, Ne, Ne, hst e]
  simp only [Streams.lookup, hkey, hne]

/-- R9, R12, R13: the outcome of a descriptor whose key a context holds. -/
theorem classify_held {s : State} {d : Descriptor} {e : ClassEntry} {k : Key} {c : Ctx}
    (he : s.cls.decide d = some e) (hk : formKey e.mode d = some k) (hc : s.str.lookup k = some c) :
    s.classify d =
      if s.str.ctxs[c].state = .draining ∨ s.str.ctxs[c].state = .parked then .refuse .parked (some c)
      else .accept (.held c) (s.cls.classOf d e.defaultClass) := by
  cases hm : e.mode <;> simp only [hm, formKey, reduceCtorEq, Option.some.injEq] at hk <;>
    simp only [State.classify, he, hm, formKey, hk, hc]

/-- R12: the classifier refuses PARKED only where a context holds the descriptor's key. -/
theorem held_of_classify_parked {s : State} {d : Descriptor} {c : Ctx}
    (h : s.classify d = .refuse .parked (some c)) :
    ∃ e k, s.cls.decide d = some e ∧ formKey e.mode d = some k ∧ s.str.lookup k = some c := by
  unfold State.classify at h
  split at h
  · cases h
  next e he =>
    refine ⟨e, ?_⟩
    split at h
    · cases h
    · cases h
    split at h
    · cases h
    next k hk =>
      refine ⟨k, he, hk, ?_⟩
      split at h
      · cases h
      next b hb =>
        split_ifs at h
        cases h
        exact hb

/-- R6: PARKED is the classifier's refusal, and the three checks before it look at the lines and the
membership alone. -/
theorem headOutcome_of_parked {s t : State} {d : Descriptor} {o : Option Ctx}
    (h : s.headOutcome d = .refuse .parked o) (hl : t.line = s.line) (hm : t.mem = s.mem) :
    s.classify d = .refuse .parked o ∧ t.headOutcome d = t.classify d := by
  have hmem : t.refusesMembers = s.refusesMembers := by unfold State.refusesMembers; rw [hm]
  unfold State.headOutcome at h ⊢
  rw [hl, hmem]
  split_ifs at h ⊢
  · cases h
  · cases h
  · cases h
  · exact ⟨h, rfl⟩

/-- R12, R13, R33: a head refused PARKED for a context is accepted for it by a station that differs in the
stream table alone, where the context is neither DRAINING nor PARKED and the keys are held as before. -/
theorem headOutcome_accepts {s t : State} {d : Descriptor} {c : Ctx}
    (h : s.headOutcome d = .refuse .parked (some c)) (hl : t.line = s.line) (hm : t.mem = s.mem)
    (hcls : t.cls = s.cls) (hlook : ∀ k, t.str.lookup k = s.str.lookup k)
    (hopen : t.str.ctxs[c].state = .idle) : ∃ cl, t.headOutcome d = .accept (.held c) cl := by
  obtain ⟨hs, ht⟩ := headOutcome_of_parked h hl hm
  obtain ⟨e, k, he, hk, hc⟩ := held_of_classify_parked hs
  refine ⟨t.cls.classOf d e.defaultClass, ?_⟩
  rw [ht, classify_held (by rw [hcls]; exact he) hk ((hlook k).trans hc), if_neg (by rw [hopen]; nofun)]

/-! ### The statement -/

/-- R33: UNPARK-STREAM of a PARKED context is answered DONE and leaves the unparked station. -/
theorem exec_unparkStream_parked {s : State} {c : Ctx} (hs : s.ready) (hc : c ≠ 0)
    (hp : s.str.ctxs[c].state = .parked) :
    ∃ t, exec (.unparkStream [BitVec.ofNat 8 c.val]) s = .next t ∧ s.answered t 5 .done [] ∧
      (s.unpark c).changesOnly t [.intake] := by
  refine ⟨_, control_next _ hs (firstCheck_unparkStream _), ?_, ?_⟩ <;>
    rw [actUnparkStream_parked (keyedCtxOf_index hc) hp]
  · exact answered_respond rfl 5 .done []
  · exact (frame_settled (l := [.intake]) ((respond_changes _ 5 .done []).mono (by simp))
      (.inl (by simp))).1.mono (by simp)

/-- R33: the context's idle expiry, the descriptor that joins it and the head refused before, in every
station that differs from the unparked one in the intake unit alone. -/
theorem unparked_consequences {s t : State} {c : Ctx} (hs : s.rst = none) (hc : c ≠ 0)
    (hp : s.str.ctxs[c].state = .parked) (ht : (s.unpark c).changesOnly t [.intake]) :
    (∀ d, (t.joinList c d).str.ctxs[c].state = .waiting ∧
      (t.joinList c d).str.ctxs[c].pending = s.str.ctxs[c].pending ++ [t.newEntry d]) ∧
    (s.str.ctxs[c].pending = [] → s.str.ctxs[c].inFlight = 0 →
      ∃ u, exec (.idleTimerExpiry c) t = .next u ∧ u.str.ctxs[c].state = .unassigned ∧
        u.str.ctxs[c].key = none) ∧
    (∀ d, s.headOutcome d = .refuse .parked (some c) → ∃ cl, t.headOutcome d = .accept (.held c) cl) := by
  obtain ⟨hblocks, hrst, -⟩ := ht
  have hstr : t.str = (s.unpark c).str := hblocks .str (by decide)
  have hctx := unpark_ctx hc hp
  rw [← hstr] at hctx
  have hidle : t.str.ctxs[c].state = .idle := by rw [hctx]
  refine ⟨fun d => ?_, fun hpend hfly => ?_, fun d hd => ?_⟩
  · obtain ⟨hstate, hlist⟩ := joinList_idle hidle d
    exact ⟨hstate, by rw [hlist, hctx]⟩
  · have htimer : t.str.ctxs[c].idle.isSome := by
      rw [hctx]
      simp only [hpend, hfly, and_self, if_true, Option.isSome_some]
    exact exec_idleTimerExpiry_unassigned (hrst.trans hs) hc htimer
  · refine headOutcome_accepts hd (hblocks .line (by decide)) (hblocks .mem (by decide))
      (hblocks .cls (by decide)) (fun k => ?_) hidle
    rw [hstr]
    exact lookup_congr (unpark_key s c) (unpark_assigned hp) k

/-- Settles O26: a PARKED context by what the unparked stream table holds and makes possible; any other
context and any other index by the answer alone. -/
theorem streamUnparked : Obligations.StreamUnparked := by
  refine fun c s hs => ⟨fun hc hp => ?_, fun hc hp => ?_, fun b hb => ?_⟩
  · obtain ⟨t, hexec, hanswer, ht⟩ := exec_unparkStream_parked hs hc hp
    have hstr : t.str = (s.unpark c).str := ht.1 .str (by decide)
    have hplc : t.plc = (s.unpark c).plc := ht.1 .plc (by decide)
    have hframe : s.frame t [.intake, .str, .plc] :=
      ⟨((onCtx_changes s c _).trans ht).mono (by simp), fun h => absurd (by decide) h⟩
    exact ⟨t, hexec, hanswer, by rw [hstr, unpark_ctx hc hp], fun e he => by rw [hstr, unpark_other s he],
      hframe, by rw [hplc]; rfl, unparked_consequences hs.1 hc hp ht⟩
  · exact control_answers hs (firstCheck_unparkStream _) (actUnparkStream_notParked (keyedCtxOf_index hc) hp)
  · exact control_answers hs (firstCheck_unparkStream b) (actUnparkStream_badIndex (keyedCtxOf_outside hb) s)

end Sys2Proof.Machine
end

section
/-! SUPPORT. SET-MODE (R168) and its answers (R177), the PLACE that is not issued outside MEMBER and
CATCHUP (R66), and the changes of membership that keep the line monitor. -/

namespace Sys2Proof.Machine

/-! ### The placement mode set (R57, R168) -/

/-- R168: naming the mode in force changes nothing, and makes no policy pass. -/
theorem setPlacementMode_inForce {s : State} {m : Mode} (h : s.line.mode = m) :
    s.setPlacementMode m = s := by
  subst h
  refine if_neg fun hc => ?_
  obtain ⟨hrun, hhold⟩ := hc
  exact Mode.noConfusion (hrun.symm.trans hhold)

/-- R57: beyond the mode itself, setting it does at most what a policy pass does. -/
theorem polices_setPlacementMode (s : State) (m : Mode) :
    Polices (s.onLine fun l => { l with mode := m }) (s.setPlacementMode m) :=
  Polices.ite (fun _ => polices_policyPass _) (fun _ => Polices.refl _)

theorem onLine_changes (s : State) (f : Lines → Lines) : s.changesOnly (s.onLine f) [.line] := by
  refine ⟨fun b hb => ?_, rfl, rfl⟩
  cases b with
  | line => exact absurd (List.mem_cons_self ..) hb
  | _ => rfl

theorem setPlacementMode_changes (s : State) (m : Mode) :
    s.changesOnly (s.setPlacementMode m) (.line :: policyBlocks) :=
  (onLine_changes s _).trans (polices_setPlacementMode s m).changesOnly

/-! ### The request and its answers (R168, R177) -/

/-- R177: a record of the code and a mode byte passes the first check. -/
theorem firstCheck_setMode (b : Byte) : firstCheck 3 [b] = true := rfl

theorem setModeOf_outside {b : Byte} (h : 1 < b.toNat) : setModeOf [b] = none := by
  have h0 : b.toNat ≠ 0 := by omega
  have h1 : b.toNat ≠ 1 := by omega
  simp only [setModeOf, h0, h1, if_false]

theorem actSetMode_configured {args : List Byte} {m : Mode} {s : State} (hm : setModeOf args = some m)
    (hu : s.mem.state ≠ .unconfigured) :
    State.actSetMode args s = (s.setPlacementMode m).respond 3 .done := by
  simp only [State.actSetMode, hm, hu, if_false]

theorem actSetMode_unconfigured {args : List Byte} {m : Mode} {s : State} (hm : setModeOf args = some m)
    (hu : s.mem.state = .unconfigured) : State.actSetMode args s = s.respond 3 .wrongState := by
  simp only [State.actSetMode, hm, hu, if_true]; rfl

theorem actSetMode_badMode {args : List Byte} (hm : setModeOf args = none) (s : State) :
    State.actSetMode args s = s.respond 3 .badArgument := by
  simp only [State.actSetMode, hm]; rfl

/-- An answered effect outside the intake unit: its own blocks change, and the holding place. -/
theorem frame_responded {s t : State} {l : List Block} (h : s.changesOnly t l) (code : Nat)
    (st : RespStatus) (content : List Byte) :
    s.frame { t.respond code st content with intake := (t.respond code st content).settledIntake }
      (.intake :: l) :=
  frame_settled ((h.trans (respond_changes t code st content)).mono (by simp [or_comm])) (.inl (by simp))

/-- R168: outside UNCONFIGURED a SET-MODE is answered DONE and sets the mode. -/
theorem exec_setMode_configured {b : Byte} {m : Mode} {s : State} (hs : s.ready)
    (hu : s.mem.state ≠ .unconfigured) (hm : setModeOf [b] = some m) :
    ∃ t, exec (.setMode [b]) s = .next t ∧ s.answered t 3 .done [] ∧
      t.line = { s.line with mode := m } ∧ s.frame t (.intake :: .line :: policyBlocks) ∧
      (s.line.mode = m → s.frame t [.intake]) := by
  have hpass := polices_setPlacementMode s m
  refine ⟨_, control_next _ hs (firstCheck_setMode b), ?_⟩
  rw [actSetMode_configured hm hu]
  refine ⟨answered_respond hpass.intake 3 .done [], hpass.line,
    frame_responded (setPlacementMode_changes s m) 3 .done [], fun hforce => ?_⟩
  rw [setPlacementMode_inForce hforce]
  exact frame_responded (State.changesOnly.refl s []) 3 .done []

/-! ### No PLACE outside MEMBER and CATCHUP (R66, R159) -/

theorem MemberState.issues_iff (m : MemberState) : m.issues = true ↔ m = .member ∨ m = .catchup := by
  cases m <;> decide

theorem placeTurn_none {s : State} (h : s.mem.state.issues = false) : s.placeTurn = none := by
  simp only [State.placeTurn, State.queueRoom, h, Bool.false_and, Bool.false_eq_true, if_false]

/-- R66: where no PLACE has its turn, ISSUE-PLACE brings the intake unit up to date and has no effect. -/
theorem execIssuePlace_noTurn {s : State} (hr : s.rst = none) (h : s.placeTurn = none) :
    execIssuePlace s = .next { s with intake := s.settledIntake } := by
  simp only [execIssuePlace, live_next _ hr, h, Option.bind_none]

/-! ### What keeps the line monitor (R168) -/

theorem removeHolding_line (s : State) (k : Slot) : (s.removeHolding k).line = s.line := by
  unfold State.removeHolding
  split
  · rfl
  · next x _ => exact (Works.foldl _ works_endResidency x.residents s).line

theorem forget_line (s : State) : s.forget.line = s.line := by
  simp only [State.forget, State.emptyReplica, State.onMem_line, State.onDir_line, State.onPlc_line]
  exact List.foldlRecOn (motive := fun t => t.line = s.line) allSlots State.removeHolding rfl
    fun t ht k _ => (removeHolding_line t k).trans ht

theorem enter_line (s : State) (m : MemberState) : (s.enter m).line = s.line := (works_post _ _).line

theorem respond_line (s : State) (code : Nat) (st : RespStatus) (l : List Byte) :
    (s.respond code st l).line = s.line := rfl

theorem startListen_line (s : State) : s.startListen.line = s.line := enter_line s .listen

/-- R130: the CATCHUP-ASK of an attempt and its last-request record are outside the line monitor. -/
theorem beginAttempt_line (s : State) : s.beginAttempt.line = s.line := rfl

/-- R53: the attempt that going stale begins, and its policy pass, work within the other blocks. -/
theorem goStale_line (s : State) : s.goStale.line = s.line := by
  unfold State.goStale
  dsimp only
  rw [(works_policyPass _ _).line, beginAttempt_line, State.onMem_line, State.onPlc_line, State.onDir_line,
    enter_line]

/-- R140: both ends of the named-absent path, DORMANT and LISTEN, keep the line monitor. -/
theorem namedAbsent_line (s : State) (p : Option Station) : (s.namedAbsent p).line = s.line := by
  have hreport : (s.report .namedAbsent none none p none).line = s.line := (works_report s _ _ _ _ _).line
  unfold State.namedAbsent
  dsimp only
  split
  · rw [enter_line, State.onMem_line, forget_line, hreport]
  · rw [startListen_line, forget_line, hreport]

theorem isolate_line (s : State) : s.isolate.line = s.line := enter_line _ .isolated

theorem ownLeave_line (s : State) : s.ownLeave.line = s.line := enter_line _ .dormant

/-- R174: past its mark, a departure is the station's own work. -/
theorem works_departing (s : State) : Works (s.onMem fun m => { m with departing := true }) s.depart := by
  have hrefused := works_refuseAll (s.onMem fun m => { m with departing := true })
  have hended := (hrefused.trans (works_dropClaims _)).trans (works_endRecall _)
  have hshut := hended.trans
    (Works.foldl _ (fun t k => works_decideShut t k .leaving none) allSlots _)
  exact (hshut.trans (works_policyPass _ _)).trans (works_queueLeave _)

theorem depart_line (s : State) : s.depart.line = s.line := (works_departing s).line

theorem actWake_line (s : State) : s.actWake.line = s.line := by
  unfold State.actWake
  split
  · rw [respond_line, startListen_line, State.onBus_line, forget_line]
  · exact respond_line s _ _ _

/-- Settles O24: SET-MODE by its three answers, ISSUE-PLACE by the turn that no stream has, and the line
monitor kept by each change of membership. -/
theorem placementModeSet : Obligations.PlacementModeSet := by
  refine ⟨fun m s hs hu => ?_, fun m s hs hu => ?_, fun b s hs hb => ?_, fun s hr hm hc => ?_, fun s p => ?_⟩
  · exact exec_setMode_configured hs hu (by cases m <;> rfl)
  · exact control_answers hs (firstCheck_setMode _) (actSetMode_unconfigured (m := m) (by cases m <;> rfl) hu)
  · exact control_answers hs (firstCheck_setMode b) (actSetMode_badMode (setModeOf_outside hb) s)
  · have hissues : s.mem.state.issues = false :=
      Bool.eq_false_iff.mpr fun h => ((MemberState.issues_iff _).mp h).elim hm hc
    exact ⟨_, execIssuePlace_noTurn hr (placeTurn_none hissues),
      frame_settled (State.changesOnly.refl s _) (.inr rfl)⟩
  · exact ⟨goStale_line s, namedAbsent_line s p, isolate_line s, depart_line s, ownLeave_line s, actWake_line s⟩

end Sys2Proof.Machine
end

section
/-! SUPPORT. CLEAR-FAULT (R186) and READ-FAULT (R180) with their answers (R177), and what a fault report
and a request do with the first-fault and the last-request record (R183 to R185). -/

namespace Sys2Proof.Machine

/-! ### A notice posted (R183) -/

theorem Faults.post_first (f : Faults) (b : NoticeBody) : (f.post b).first = f.first := by
  unfold Faults.post; split <;> rfl

theorem Faults.post_second (f : Faults) (b : NoticeBody) : (f.post b).second = f.second := by
  unfold Faults.post; split <;> rfl

theorem Faults.post_room {f : Faults} (h : f.notices.length < 16) (b : NoticeBody) :
    (f.post b).notices = f.notices ++ [{ body := b, lost := false }] := by
  simp only [Faults.post, h, if_true]

/-! ### A fault report (R184) -/

/-- R184: the count of a report's cause goes up by one, and stays at its top. -/
def Faults.counted (f : Faults) (r : FaultRec) : Faults :=
  { f with counts := put f.counts r.cause.index (satAdd 65535 f.counts[r.cause.index] 1) }

/-- R184: a report that finds the record empty is captured and posts its notice. -/
theorem Faults.report_empty {f : Faults} (h : f.first = none) (r : FaultRec) :
    f.report r = ({ f.counted r with first := some r } : Faults).post (.fault r) := by
  simp only [Faults.report, h]; rfl

/-- R184: a report that finds a record held marks the second fault and posts no notice. -/
theorem Faults.report_held {f : Faults} {x : FaultRec} (h : f.first = some x) (r : FaultRec) :
    f.report r = { f.counted r with second := true } := by
  simp only [Faults.report, Faults.counted, h]

theorem Faults.report_captures {f : Faults} (h : f.first = none) (r : FaultRec) :
    (f.report r).first = some r ∧ (f.report r).second = f.second := by
  rw [Faults.report_empty h]
  exact ⟨Faults.post_first _ _, Faults.post_second _ _⟩

theorem Faults.report_posts {f : Faults} (h : f.first = none) (hroom : f.notices.length < 16)
    (r : FaultRec) : (f.report r).notices = f.notices ++ [{ body := .fault r, lost := false }] := by
  rw [Faults.report_empty h]
  exact Faults.post_room (f := { f.counted r with first := some r }) hroom _

theorem Faults.report_marks {f : Faults} {x : FaultRec} (h : f.first = some x) (r : FaultRec) :
    (f.report r).first = some x ∧ (f.report r).second = true ∧ (f.report r).notices = f.notices := by
  rw [Faults.report_held h]
  exact ⟨h, rfl, rfl⟩

/-- R185: a record that is not frozen takes the request that is loaded. -/
theorem Faults.loadRequest_thawed {f : Faults} (h : f.frozen = false) (r : LastReq) :
    (f.loadRequest r).lastReq = some r := by
  simp only [Faults.loadRequest, h, Bool.false_eq_true, if_false]

/-! ### The requests (R177, R180, R186) -/

/-- R186: what CLEAR-FAULT makes of the fault capture unit. -/
def Faults.cleared (f : Faults) : Faults :=
  { f with first := none, second := false, frozen := false, lost := 0 }

theorem onFlt_changes (s : State) (f : Faults → Faults) : s.changesOnly (s.onFlt f) [.flt] := by
  refine ⟨fun b hb => ?_, rfl, rfl⟩
  cases b with
  | flt => exact absurd (List.mem_cons_self ..) hb
  | _ => rfl

theorem actClearFault_eq (s : State) : s.actClearFault = (s.onFlt Faults.cleared).respond 11 .done := rfl

/-- R186: CLEAR-FAULT is answered DONE in every state and clears the fault capture unit, and nothing
else. -/
theorem exec_clearFault {s : State} (hs : s.ready) :
    ∃ t, exec (.clearFault []) s = .next t ∧ s.answered t 11 .done [] ∧ t.flt = s.flt.cleared ∧
      s.frame t [.intake, .flt] := by
  refine ⟨_, control_next State.actClearFault hs (by decide), ?_⟩
  rw [actClearFault_eq]
  exact ⟨answered_respond (State.onFlt_intake s _) 11 .done [], rfl,
    frame_responded (onFlt_changes s _) 11 .done []⟩

/-- R180: READ-FAULT is answered DONE with the fault capture unit as it stands. -/
theorem exec_readFault {s : State} (hs : s.ready) :
    ∃ t, exec (.readFault []) s = .next t ∧ s.answered t 10 .done s.flt.content :=
  ⟨_, control_next State.actReadFault hs (by decide), answered_respond rfl 10 .done _⟩

/-- Settles O28: the clearing by its effect and the requests and reports after it; a report before it by
whether the first-fault record is empty; READ-FAULT by its answer. -/
theorem faultCleared : Obligations.FaultCleared := by
  refine fun s hs => ⟨?_, fun r => ⟨fun hnone => ?_, fun x hsome => ?_⟩, fun r => ?_, exec_readFault hs⟩
  · obtain ⟨t, hexec, hanswer, hflt, hframe⟩ := exec_clearFault hs
    refine ⟨t, hexec, hanswer, hflt, hframe, fun r => ?_, fun r => ?_⟩ <;> rw [hflt]
    · exact Faults.loadRequest_thawed rfl r
    · exact Faults.report_captures (f := s.flt.cleared) rfl r
  · exact ⟨(Faults.report_captures hnone r).1, fun hroom => Faults.report_posts hnone hroom r⟩
  · exact Faults.report_marks hsome r
  · obtain ⟨t, hexec, -, hflt, -⟩ := exec_clearFault (s := s.onFlt (·.report r)) hs
    refine ⟨t, hexec, ?_⟩
    rw [hflt]
    exact ⟨rfl, rfl, rfl, rfl⟩

end Sys2Proof.Machine
end

