-- ==== Sys2Proof/Proofs/Steps.lean ====
section
/-! SUPPORT. What every command keeps: each answers a next state, and the step it makes keeps the bounds, the
laws of the replica and the membership state beside what it steers. From these, the statements on every
step, on the state after reset, and on a reset in progress. -/

namespace Sys2Proof.Machine

/-! ### Every command (R4 to R187) -/

/-- R84: taking a directory-kind frame is legal whatever its own mark. -/
theorem legal_takeDirectoryKind (k : Kind) (s : State) :
    ∃ t, takeClean k (fun _ f s => s.takeDirectory f) s = .next t ∧ Legal s t :=
  legal_takeClean k _ s fun _ => legal_takeDirectory

/-- R180: an answer alone is legal. -/
theorem legal_respond (s : State) (code : Nat) (st : RespStatus) (l : List Byte) :
    Legal s (s.respond code st l) := (calm_respond s code st l).legal

/-- Every command answers a next state, and keeps what `Legal` names. -/
theorem legal_exec (c : Instr) (s : State) : ∃ t, exec c s = .next t ∧ Legal s t := by
  match c with
  | .descriptorPasses b0 b1 b2 b3 b4 b5 => exact legal_descriptorPasses b0 b1 b2 b3 b4 b5 s
  | .takeIntakeHead => exact legal_takeIntakeHead s
  | .resultEntersQueue => exact legal_resultEntersQueue s
  | .outboundRecordTaken => exact legal_outboundRecordTaken s
  | .controlRequestBadCode code args => exact legal_control _ args _ s (legal_actOf _ args s)
  | .configure args => exact legal_control _ args _ s (legal_actConfigure args s)
  | .setClassifier args => exact legal_control _ args _ s (legal_actSetClassifier args s)
  | .setMode args => exact legal_control _ args _ s (legal_actSetMode args s)
  | .parkStream args => exact legal_control _ args _ s (legal_actParkStream args s)
  | .unparkStream args => exact legal_control _ args _ s (legal_actUnparkStream args s)
  | .readStream args => exact legal_control _ args _ s (legal_actReadStream args s)
  | .readSlot args => exact legal_control _ args _ s (legal_actReadSlot args s)
  | .readRoster args => exact legal_control _ args _ s (legal_respond s _ _ _)
  | .readStatus args => exact legal_control _ args _ s (legal_respond s _ _ _)
  | .readFault args => exact legal_control _ args _ s (legal_respond s _ _ _)
  | .clearFault args => exact legal_control _ args _ s (legal_actClearFault s)
  | .restoreSlot args => exact legal_control _ args _ s (legal_actRestoreSlot args s)
  | .depart args => exact legal_control _ args _ s (legal_actDepart s)
  | .wake args => exact legal_control _ args _ s (legal_actWake s)
  | .rejoin args => exact legal_control _ args _ s (legal_actRejoin s)
  | .deadlineExpiry c => exact legal_deadlineExpiry c s
  | .idleTimerExpiry c => exact legal_idleTimerExpiry c s
  | .issuePlace => exact legal_issuePlace s
  | .placeDone tag o => exact legal_placeDone tag o s
  | .receptionEnd bits => exact legal_receptionEnd bits s
  | .receiveEntryNotClean => exact legal_receiveEntryNotClean s
  | .roll => exact legal_takeClean _ _ s legal_takeRoll
  | .seal => exact legal_takeClean _ _ s legal_takeSeal
  | .beacon => exact legal_takeClean _ _ s legal_takeBeacon
  | .join => exact legal_takeClean _ _ s legal_takeJoin
  | .leave => exact legal_takeDirectoryKind _ s
  | .absent => exact legal_takeDirectoryKind _ s
  | .claim => exact legal_takeDirectoryKind _ s
  | .shut => exact legal_takeDirectoryKind _ s
  | .shutDone => exact legal_takeDirectoryKind _ s
  | .restore => exact legal_takeDirectoryKind _ s
  | .takeover => exact legal_takeDirectoryKind _ s
  | .takeoverEnd => exact legal_takeDirectoryKind _ s
  | .recall => exact legal_takeClean _ _ s legal_takeRecall
  | .defer => exact legal_takeClean _ _ s legal_takeDefer
  | .catchupAsk => exact legal_takeClean _ _ s legal_takeCatchupAsk
  | .catchupOffer => exact legal_takeClean _ _ s legal_takeCatchupOffer
  | .snapshot => exact legal_takeClean _ _ s legal_takeSnapshot
  | .snapshotEnd => exact legal_takeClean _ _ s legal_takeSnapshot
  | .contention d => exact legal_contention d s
  | .arbitrationLost => exact legal_arbitrationLost s
  | .transmissionComplete => exact legal_live s _ fun _ => legal_completeTx s
  | .transmissionAbort => exact legal_live s _ fun _ => legal_abortTx s
  | .yieldGapExpiry => exact legal_yieldGapExpiry s
  | .heldFrameJoins => exact legal_heldFrameJoins s
  | .beaconTimerExpiry => exact legal_beaconTimerExpiry s
  | .lastHeardExpiry st => exact legal_lastHeardExpiry st s
  | .sealDeadlineExpiry => exact legal_sealDeadlineExpiry s
  | .listenTimerExpiry => exact legal_listenTimerExpiry s
  | .offerTimerExpiry => exact legal_offerTimerExpiry s
  | .partGapTimerExpiry => exact legal_partGapTimerExpiry s
  | .retryTimerExpiry => exact legal_retryTimerExpiry s
  | .offerDelayExpiry => exact legal_offerDelayExpiry s
  | .answerTimerExpiry => exact legal_answerTimerExpiry s
  | .backoffTimerExpiry => exact legal_backoffTimerExpiry s
  | .coolingPeriodExpiry => exact legal_coolingPeriodExpiry s
  | .directiveSent => exact legal_directiveSent s
  | .issueOpenOrder => exact legal_issueOpenOrder s
  | .issueCloseOrder => exact legal_issueCloseOrder s
  | .openReady slot g o => exact legal_openReady slot g o s
  | .closeDone slot g o => exact legal_closeDone slot g o s
  | .portClean => exact legal_portClean s
  | .closeTimeoutExpiry k g => exact legal_closeTimeoutExpiry k g s
  | .releaseHoldExpiry r k g => exact legal_releaseHoldExpiry r k g s
  | .pfwAsserted => exact legal_pfwAsserted s
  | .pfwDeasserted => exact legal_pfwDeasserted s
  | .pressureAsserted => exact legal_pressureAsserted s
  | .pressureDeasserted => exact legal_pressureDeasserted s
  | .episodeTimerExpiry => exact legal_episodeTimerExpiry s
  | .powerOnReset => exact ⟨_, rfl, legal_startReset s .powerOn⟩
  | .driveReset => exact ⟨_, rfl, legal_startReset s .drive⟩
  | .stationReset => exact ⟨_, rfl, legal_startReset s .station⟩
  | .resetEnd st a => exact legal_resetEnd st a s
  | .openingDelimiterRead => exact legal_openingDelimiterRead s

/-! ### Every step -/

theorem step_idle {s : State} (h : s.pending = []) : step s = .next s.tick := by
  simp only [step, h]

theorem step_command {s : State} {c : Instr} {rest : List Instr} (h : s.pending = c :: rest) :
    step s = exec c { s with pending := rest } := by
  simp only [step, h]

/-- The queue of commands is no part of what `Legal` names. -/
theorem legal_dequeue (s : State) (l : List Instr) : Legal s { s with pending := l } where
  bounded b := { b with }
  sound := id
  moded m := { m with }

/-- A step is legal: a tick of time, or the command at the front of the queue. -/
theorem legal_step {s t : State} (h : step s = .next t) : Legal s t := by
  cases hp : s.pending with
  | nil =>
    rw [step_idle hp] at h
    cases h
    exact legal_tick s
  | cons c rest =>
    rw [step_command hp] at h
    obtain ⟨u, hu, hl⟩ := legal_exec c { s with pending := rest }
    rw [hu] at h
    cases h
    exact hl.after (legal_dequeue s rest)

/-- Settles O3, from the legality of every command. -/
theorem everyCommandAnswersNext : Obligations.EveryCommandAnswersNext := fun c s =>
  let ⟨t, ht, _⟩ := legal_exec c s
  ⟨t, ht⟩

/-- Settles O5, from the legality of a step. -/
theorem everyStepKeepsTheBounds : Obligations.EveryStepKeepsTheBounds :=
  fun _ _ hs h => (legal_step h).bounded hs

/-- Settles O6, from the legality of a step. -/
theorem everyStepKeepsTheReplicaLaws : Obligations.EveryStepKeepsTheReplicaLaws :=
  fun _ _ hs h => (legal_step h).sound hs

/-- Settles O7, from the legality of a step. -/
theorem everyStepKeepsMembershipInStep : Obligations.EveryStepKeepsMembershipInStep :=
  fun _ _ hs h => (legal_step h).moded hs

/-- Settles O1: the queue's front decides the step. -/
theorem stepRunsTheFrontCommand : Obligations.StepRunsTheFrontCommand :=
  fun _ _ _ => step_command rfl

/-! ### A tick of time (log entry 2) -/

theorem tick_reset {s : State} (h : s.rst.isSome) : s.tick = s := if_pos h

theorem tick_live {s : State} (h : s.rst = none) :
    s.tick = { s with
      str := s.str.tick s.runs, dir := s.dir.tick, bus := s.bus.tick, mem := s.mem.tick,
      link := s.link.tick, line := s.line.tick } := by
  simp only [State.tick, h, Option.isSome_none, Bool.false_eq_true, if_false]

theorem tick_changes (s : State) : s.changesOnly s.tick [.str, .dir, .bus, .mem, .link, .line] := by
  cases h : s.rst with
  | none =>
    rw [tick_live h]
    refine ⟨fun b hb => ?_, h ▸ rfl, rfl⟩
    cases b <;> first | rfl | exact absurd (by decide) hb
  | some k => rw [tick_reset (by rw [h]; rfl)]; exact State.changesOnly.refl s _

/-- R18: the ticks within the millisecond carry into the station time. -/
theorem Streams.tick_time (t : Streams) (runs : Bool) :
    (t.sub < 7 → (t.tick runs).timeMs = t.timeMs ∧ (t.tick runs).sub = t.sub + 1) ∧
      (t.sub = 7 → (t.tick runs).timeMs = t.timeMs + 1 ∧ (t.tick runs).sub = 0) := by
  refine ⟨fun h => ?_, fun h => ?_⟩
  · have : t.sub ≠ 7 := by omega
    simp only [Streams.tick, this, if_false, and_self]
  · simp only [Streams.tick, h, if_true, and_self]

/-- Settles O2: the tick's blocks, timer by timer. -/
theorem idleStepPassesATick : Obligations.IdleStepPassesATick := by
  intro s hp
  refine ⟨s.tick, step_idle hp, tick_reset, fun hr => ⟨tick_changes s, ?_⟩⟩
  rw [tick_live hr]
  obtain ⟨hless, hfull⟩ := s.str.tick_time s.runs
  exact ⟨rfl, rfl, rfl, rfl, rfl, rfl, rfl, rfl, rfl, rfl, rfl, rfl, hless, hfull⟩

/-! ### The state after a power-on reset -/

theorem reset_bounded : State.reset.Bounded := by
  constructor <;> decide

theorem reset_moded : State.reset.Moded where
  receiver := by decide
  configured := by decide
  asking := by rintro ⟨e, he⟩; cases he

/-- Settles O4: an empty replica is sound, and the reset values of the rest are small closed facts. -/
theorem resetStateIsSound : Obligations.ResetStateIsSound :=
  ⟨reset_bounded, Replica.empty_sound, reset_moded⟩

/-! ### A reset in progress (R176) -/

/-- R176: during a reset a command that runs as `live` says has no effect. -/
theorem live_reset {s : State} (f : State → State) (h : s.rst.isSome) : live s f = .next s := by
  simp only [live, h, if_true]

/-- Settles O10: each command that does not act in a reset runs as `live` says. -/
theorem nothingIsTakenDuringReset : Obligations.NothingIsTakenDuringReset := by
  intro c s hs hc
  cases c with
  | powerOnReset | driveReset | stationReset | resetEnd _ _ | pfwAsserted | pfwDeasserted
  | pressureAsserted | pressureDeasserted => cases hc
  | _ => exact congrArg Host.Outcome.next (if_pos hs)

end Sys2Proof.Machine
end

