-- ==== Sys2Proof/Proofs/ReplicaData.lean ====
section
/-! SUPPORT. The effective quotas (R47) as the walk over the PRESENT stations gives them, the replica a SEAL
seals (R40, R42, R125), and the generation (R45) through the application of a frame. -/

namespace Sys2Proof.Machine

/-! ### Effective quotas (R47) -/

theorem Replica.quotaWalk_fst (r : Replica) (l : List Station) (left : Nat) :
    (r.quotaWalk l left).map (·.1) = l := by
  induction l generalizing left with
  | nil => rfl
  | cons st rest ih => simp only [quotaWalk, List.map_cons, ih]

/-- R47 step 3: a visit gives 1 and at most what is requested beyond it. -/
theorem Replica.quotaWalk_bounds (r : Replica) (l : List Station) (left : Nat) :
    ∀ e ∈ r.quotaWalk l left, 1 ≤ e.2 ∧ e.2 ≤ max 1 (r.requested e.1) := by
  induction l generalizing left with
  | nil => exact fun e he => absurd he List.not_mem_nil
  | cons st rest ih =>
    intro e he
    rcases List.mem_cons.1 he with rfl | he
    · dsimp only
      omega
    · exact ih _ e he

/-- R47: the visits give out 1 for each station and no more than the remainder. -/
theorem Replica.quotaWalk_sum (r : Replica) (l : List Station) (left : Nat) :
    ((r.quotaWalk l left).map (·.2)).sum ≤ l.length + left := by
  induction l generalizing left with
  | nil => exact Nat.zero_le _
  | cons st rest ih =>
    simp only [quotaWalk, List.map_cons, List.sum_cons, List.length_cons]
    have := ih (left - min (r.requested st - 1) left)
    omega

/-- The value of a station in a list of visits. -/
def quotaIn (w : List (Station × Nat)) (st : Station) : Nat :=
  match w.find? (fun e => e.1 == st) with
  | some e => e.2
  | none => 0

theorem Replica.quota_eq (r : Replica) (st : Station) :
    r.quota st = quotaIn (r.quotaWalk r.presentList (r.budget - r.presentList.length)) st := rfl

theorem quotaIn_absent {w : List (Station × Nat)} {st : Station} (h : st ∉ w.map (·.1)) :
    quotaIn w st = 0 := by
  have hnone : w.find? (fun e => e.1 == st) = none := by
    rw [List.find?_eq_none]
    intro e he hst
    exact h (List.mem_map.2 ⟨e, he, by simpa using hst⟩)
  simp only [quotaIn, hnone]

theorem quotaIn_mem {w : List (Station × Nat)} {st : Station} (h : st ∈ w.map (·.1)) :
    (st, quotaIn w st) ∈ w := by
  obtain ⟨e, he, rfl⟩ := List.mem_map.1 h
  cases hf : w.find? (fun x => x.1 == e.1) with
  | none => exact absurd (List.find?_eq_none.1 hf e he) (by simp)
  | some x =>
    have hx : x.1 = e.1 := by simpa using List.find?_some hf
    have hval : (e.1, quotaIn w e.1) = x := Prod.ext hx.symm (by simp only [quotaIn, hf])
    rw [hval]
    exact List.mem_of_find?_eq_some hf

theorem quotaIn_cons_other {w : List (Station × Nat)} {a st : Station} {n : Nat} (h : st ≠ a) :
    quotaIn ((a, n) :: w) st = quotaIn w st := by
  have : (a == st) = false := by simpa using Ne.symm h
  simp only [quotaIn, List.find?_cons, this]

/-- Over visits of distinct stations each station reads its own value. -/
theorem map_quotaIn {w : List (Station × Nat)} (h : (w.map (·.1)).Nodup) :
    (w.map (·.1)).map (quotaIn w) = w.map (·.2) := by
  induction w with
  | nil => rfl
  | cons e w ih =>
    simp only [List.map_cons, List.nodup_cons] at h ⊢
    have hhead : quotaIn (e :: w) e.1 = e.2 := by simp [quotaIn]
    have htail : (w.map (·.1)).map (quotaIn (e :: w)) = (w.map (·.1)).map (quotaIn w) :=
      List.map_congr_left fun st hst => quotaIn_cons_other fun heq => h.1 (heq ▸ hst)
    rw [hhead, htail, ih h.2]

theorem Replica.mem_presentList (r : Replica) (st : Station) :
    st ∈ r.presentList ↔ r.isPresent st = true := by
  simp [presentList, allStations]

theorem Replica.quota_absent {r : Replica} {st : Station} (h : r.isPresent st = false) :
    r.quota st = 0 := by
  rw [quota_eq]
  refine quotaIn_absent ?_
  rw [quotaWalk_fst, mem_presentList, h]
  exact Bool.false_ne_true

/-- Stations that are not PRESENT add nothing to the sum of the quotas. -/
theorem Replica.sum_quota (r : Replica) (l : List Station) :
    (l.map r.quota).sum = ((l.filter r.isPresent).map r.quota).sum := by
  induction l with
  | nil => rfl
  | cons st rest ih =>
    cases h : r.isPresent st with
    | true => simp only [List.filter_cons, h, if_true, List.map_cons, List.sum_cons, ih]
    | false =>
      simp only [List.filter_cons, h, Bool.false_eq_true, if_false, List.map_cons, List.sum_cons,
        quota_absent h, Nat.zero_add, ih]

theorem Replica.sum_quota_le {r : Replica} (h : r.presentList.length ≤ r.budget) :
    (allStations.map r.quota).sum ≤ r.budget := by
  have hnodup : ((r.quotaWalk r.presentList (r.budget - r.presentList.length)).map (·.1)).Nodup := by
    rw [quotaWalk_fst]
    exact (List.nodup_finRange 8).filter _
  have hvals := map_quotaIn hnodup
  rw [quotaWalk_fst] at hvals
  calc (allStations.map r.quota).sum = (r.presentList.map r.quota).sum := r.sum_quota allStations
    _ = ((r.quotaWalk r.presentList (r.budget - r.presentList.length)).map (·.2)).sum :=
      congrArg List.sum hvals
    _ ≤ r.presentList.length + (r.budget - r.presentList.length) := r.quotaWalk_sum _ _
    _ = r.budget := by omega

/-- Settles O12: each bound from the walk, the sum by the remainder the walk gives out. -/
theorem quotasFitTheBudget : Obligations.QuotasFitTheBudget := by
  refine fun r => ⟨fun st hst => ?_, fun st => Replica.quota_absent, Replica.sum_quota_le⟩
  rw [Replica.quota_eq]
  refine r.quotaWalk_bounds _ _ _ (quotaIn_mem ?_)
  rw [Replica.quotaWalk_fst, Replica.mem_presentList]
  exact hst

/-! ### Sealing (R40, R42, R125) -/

/-- The roster entry a SEAL's list gives a station. -/
def SealEntry.entry (e : SealEntry) : RosterEntry :=
  { state := .present, quota := some e.quota, adoptDis := some e.adoptDis, takeoverFailed := false }

/-- A SEAL's list, put into a roster entry by entry. -/
def sealInto (t : Tab 8 RosterEntry) (l : List SealEntry) : Tab 8 RosterEntry :=
  l.foldl (fun t e => put t e.station e.entry) t

theorem sealedRoster_eq (l : List SealEntry) :
    Replica.sealedRoster l = sealInto Replica.empty.roster l := rfl

theorem sealInto_unlisted (l : List SealEntry) (t : Tab 8 RosterEntry) (j : Station)
    (h : ∀ e ∈ l, e.station ≠ j) : (sealInto t l)[j] = t[j] := by
  induction l generalizing t with
  | nil => rfl
  | cons e rest ih =>
    have hj : j ≠ e.station := (h e List.mem_cons_self).symm
    exact (ih (put t e.station e.entry) fun x hx => h x (List.mem_cons_of_mem _ hx)).trans
      (by rw [put_get, if_neg hj])

/-- Log entry 35: where a list names a station twice the last entry stands. -/
theorem sealInto_last (pre post : List SealEntry) (e : SealEntry) (t : Tab 8 RosterEntry)
    (h : ∀ x ∈ post, x.station ≠ e.station) :
    (sealInto t (pre ++ e :: post))[e.station] = e.entry := by
  have hsplit : sealInto t (pre ++ e :: post) =
      sealInto (put (sealInto t pre) e.station e.entry) post := by
    simp only [sealInto, List.foldl_append, List.foldl_cons]
  rw [hsplit, sealInto_unlisted post _ _ h, put_get, if_pos rfl]

theorem empty_roster (j : Station) : Replica.empty.roster[j] = RosterEntry.unknown := by
  simp [Replica.empty]

/-- Settles O40: the directory by the budget, the roster by the list's last entry for each station. -/
theorem sealedReplica : Obligations.SealedReplica := by
  refine fun l p => ⟨rfl, rfl, fun k => ?_, fun j => ?_, fun pre e post hl hpost => ?_, fun j hj => ?_⟩
  · simp [Replica.ofSeal, Replica.sealedDir]
  · simp [Replica.ofSeal]
  · subst hl
    exact sealInto_last pre post e _ hpost
  · exact (sealInto_unlisted l _ j hj).trans (empty_roster j)

end Sys2Proof.Machine
end

