-- ==== Sys2Proof/Proofs/Operations.lean ====
section
/-! SUPPORT. Rules about the shared operations, once for each: the blocks an update changes, the transmit
queue after a frame has joined or frames have been withdrawn (R86, R91), the counts after a report or a
notice (R183, R184), and the bus controller on a change of membership state (R87, R96). -/

namespace Sys2Proof.Machine

/-! ### The blocks an update changes -/

theorem onIntake_changes (s : State) (f : Intake → Intake) : s.changesOnly (s.onIntake f) [.intake] := by
  refine ⟨fun b hb => ?_, rfl, rfl⟩
  cases b <;> first | rfl | exact absurd (by decide) hb

theorem onCls_changes (s : State) (f : Classifier → Classifier) : s.changesOnly (s.onCls f) [.cls] := by
  refine ⟨fun b hb => ?_, rfl, rfl⟩
  cases b <;> first | rfl | exact absurd (by decide) hb

theorem onStr_changes (s : State) (f : Streams → Streams) : s.changesOnly (s.onStr f) [.str] := by
  refine ⟨fun b hb => ?_, rfl, rfl⟩
  cases b <;> first | rfl | exact absurd (by decide) hb

theorem onPlc_changes (s : State) (f : Placement → Placement) : s.changesOnly (s.onPlc f) [.plc] := by
  refine ⟨fun b hb => ?_, rfl, rfl⟩
  cases b <;> first | rfl | exact absurd (by decide) hb

theorem onDir_changes (s : State) (f : Directory → Directory) : s.changesOnly (s.onDir f) [.dir] := by
  refine ⟨fun b hb => ?_, rfl, rfl⟩
  cases b <;> first | rfl | exact absurd (by decide) hb

theorem onBus_changes (s : State) (f : Bus → Bus) : s.changesOnly (s.onBus f) [.bus] := by
  refine ⟨fun b hb => ?_, rfl, rfl⟩
  cases b <;> first | rfl | exact absurd (by decide) hb

theorem onMem_changes (s : State) (f : Members → Members) : s.changesOnly (s.onMem f) [.mem] := by
  refine ⟨fun b hb => ?_, rfl, rfl⟩
  cases b <;> first | rfl | exact absurd (by decide) hb

theorem onLink_changes (s : State) (f : Link → Link) : s.changesOnly (s.onLink f) [.link] := by
  refine ⟨fun b hb => ?_, rfl, rfl⟩
  cases b <;> first | rfl | exact absurd (by decide) hb

theorem report_changes (s : State) (c : Cause) (slot : Option Byte) (st : Option Ctx)
    (peer : Option Station) (kind : Option Kind) : s.changesOnly (s.report c slot st peer kind) [.flt] :=
  onFlt_changes s _

theorem queueFrame_changes (s : State) (b : Body) : s.changesOnly (s.queueFrame b) [.bus] :=
  onBus_changes s _

theorem queueTo_changes (s : State) (d : Station) (b : Body) : s.changesOnly (s.queueTo d b) [.bus] :=
  onBus_changes s _

theorem withdraw_changes (s : State) (p : Body → Bool) : s.changesOnly (s.withdraw p) [.bus] :=
  onBus_changes s _

theorem setExt_changes (s : State) (k : Slot) (x : Option Ext) : s.changesOnly (s.setExt k x) [.dir] :=
  onDir_changes s _

theorem onExt_changes (s : State) (k : Slot) (f : Ext → Ext) : s.changesOnly (s.onExt k f) [.dir] := by
  unfold State.onExt
  split
  · exact setExt_changes s k _
  · exact State.changesOnly.refl s _

/-- Two changes in a row, within the blocks of both. -/
theorem State.changesOnly.andThen {s t u : State} {l m n : List Block} (h : s.changesOnly t l)
    (g : t.changesOnly u m) (hl : ∀ b ∈ l, b ∈ n) (hm : ∀ b ∈ m, b ∈ n) : s.changesOnly u n :=
  (h.trans g).mono fun b hb => (List.mem_append.1 hb).elim (hl b) (hm b)

/-- What a loop of changes changes. -/
theorem State.changesOnly.foldl {α : Type} {l : List Block} (f : State → α → State)
    (h : ∀ (s : State) x, s.changesOnly (f s x) l) (xs : List α) (s : State) : s.changesOnly (xs.foldl f s) l := by
  induction xs generalizing s with
  | nil => exact State.changesOnly.refl s l
  | cons x xs ih => exact (h s x).andThen (ih _) (fun _ => id) (fun _ => id)

/-! ### Extensions -/

theorem setExt_get (s : State) (k j : Slot) (x : Option Ext) :
    (s.setExt k x).dir.ext[j] = if j = k then x else s.dir.ext[j] := by
  simp only [State.setExt, State.onDir_dir, put_get]

theorem onExt_get (s : State) (k j : Slot) (f : Ext → Ext) :
    (s.onExt k f).dir.ext[j] = if j = k then s.dir.ext[k].map f else s.dir.ext[j] := by
  unfold State.onExt
  split
  next x hx => rw [setExt_get, hx]; rfl
  next hx =>
    split
    next hj => rw [hj, hx]; rfl
    · rfl

/-- Beside the extension, an extension's change leaves the directory engine. -/
theorem onExt_dir (s : State) (k : Slot) (f : Ext → Ext) :
    (s.onExt k f).dir = { s.dir with ext := (s.onExt k f).dir.ext } := by
  unfold State.onExt
  split <;> rfl

/-! ### A frame joins the transmit queue (R86) -/

/-- R86: queued and held frames together grow by the frame at the end. -/
theorem Bus.queue_all (b : Bus) (q : QFrame) :
    (b.queue q).tx ++ (b.queue q).held = b.tx ++ b.held ++ [q] := by
  unfold Bus.queue
  split
  next h => simp only [h.2, List.append_nil]
  · simp only [List.append_assoc]

theorem Bus.queue_gained (b : Bus) (q : QFrame) : b.gained (b.queue q) q := by
  unfold Bus.gained Bus.queue
  split
  next h => exact ⟨rfl, h.2⟩
  · exact ⟨rfl, rfl⟩

theorem Bus.mem_waiting_queue {b : Bus} {q x : QFrame} (h : x ∈ (b.queue q).waiting) :
    x ∈ b.waiting ∨ x = q := by
  unfold Bus.queue Bus.waiting at *
  grind

theorem Bus.gained_first {b b' : Bus} {q : QFrame} (h : b.gained b' q) : b.gainedFirst b' q := by
  unfold Bus.gained at h
  split at h
  next hroom => exact ⟨[], by rw [h.1, h.2, hroom.2, List.append_nil, List.append_nil]⟩
  · exact ⟨[], by rw [h.1, h.2, List.append_assoc]⟩

theorem Bus.queue_gainedFirst (b : Bus) (q : QFrame) : b.gainedFirst (b.queue q) q :=
  ⟨[], b.queue_all q⟩

/-- Frames that join later stand behind. -/
theorem Bus.gainedFirst.then {b b' b'' : Bus} {q : QFrame} (h : b.gainedFirst b' q)
    (g : ∃ l, b''.tx ++ b''.held = b'.tx ++ b'.held ++ l) : b.gainedFirst b'' q := by
  obtain ⟨l, hl⟩ := h
  obtain ⟨m, hm⟩ := g
  exact ⟨l ++ m, by rw [hm, hl, List.append_assoc, List.cons_append]⟩

theorem Bus.gained_carries {b b' : Bus} {x : Body} (h : b.gained b' { dest := none, body := x }) :
    b'.carries x := by
  obtain ⟨l, hl⟩ := Bus.gained_first h
  unfold Bus.carries
  rw [hl]
  simp

/-! ### Frames withdrawn (R91) -/

/-- R91: after a withdrawal the frames wait that waited before and that the test does not pick. -/
theorem Bus.mem_waiting_withdraw {b : Bus} {p : QFrame → Bool} {q : QFrame} :
    q ∈ (b.withdraw p).waiting ↔ q ∈ b.waiting ∧ p q = false := by
  unfold Bus.withdraw Bus.waiting
  cases hs : b.sending with
  | none => simp [or_and_right]
  | some sg =>
    cases ht : b.tx with
    | nil => simp
    | cons h rest => cases hw : sg.withdrawn <;> cases hp : p h <;> simp <;> grind

theorem withdraw_waiting {s : State} {p : Body → Bool} {q : QFrame}
    (h : q ∈ (s.withdraw p).bus.waiting) : q ∈ s.bus.waiting ∧ p q.body = false :=
  Bus.mem_waiting_withdraw.1 h

/-- A withdrawal changes the two lists and the mark of the transmission alone. -/
theorem Bus.withdraw_eq (b : Bus) (p : QFrame → Bool) :
    b.withdraw p = { b with tx := (b.withdraw p).tx, held := (b.withdraw p).held,
                            sending := (b.withdraw p).sending } := by
  unfold Bus.withdraw
  split <;> rfl

/-! ### Counts (R183, R184) -/

theorem report_flt_counts (s : State) (c : Cause) (slot : Option Byte) (st : Option Ctx)
    (peer : Option Station) (kind : Option Kind) :
    (s.report c slot st peer kind).flt.counts =
      put s.flt.counts c.index (satAdd 65535 s.flt.counts[c.index] 1) :=
  report_counts s.flt _

theorem report_count_other (s : State) (c d : Cause) (slot : Option Byte) (st : Option Ctx)
    (peer : Option Station) (kind : Option Kind) (h : d.index ≠ c.index) :
    (s.report c slot st peer kind).flt.counts[d.index] = s.flt.counts[d.index] := by
  rw [report_flt_counts, put_get, if_neg h]

/-- A count that rises rises also where the counts are the same before and after. -/
theorem State.counted.congr {s t s' t' : State} {c : Cause} (h : s.counted t c)
    (hs : s'.flt.counts[c.index] = s.flt.counts[c.index])
    (ht : t'.flt.counts[c.index] = t.flt.counts[c.index]) : s'.counted t' c := by
  unfold State.counted at *
  rw [ht, h, hs]

theorem loadRequest_counts (f : Faults) (r : LastReq) : (f.loadRequest r).counts = f.counts := by
  unfold Faults.loadRequest; split <;> rfl

theorem followRequest_counts (f : Faults) (a : Bool) (t : ReqTag) (g : LastReq → LastReq) :
    (f.followRequest a t g).counts = f.counts := by
  unfold Faults.followRequest
  repeat' split
  all_goals rfl

/-! ### The bus controller on a change of membership state (R87, R96) -/

/-- R87: the frames that wait after a change of membership state are of kinds that the new state permits. -/
theorem Bus.mem_waiting_enter {b : Bus} {full : Nat} {old new : MemberState} {q : QFrame}
    (h : q ∈ (b.enter full old new).waiting) : q ∈ b.waiting ∧ permitted new q.body.kind = true := by
  have hw : q ∈ (b.withdraw fun q => !permitted new q.body.kind).waiting := by
    unfold Bus.enter Bus.waiting at h
    unfold Bus.waiting
    cases new <;> grind
  simpa [Bus.mem_waiting_withdraw] using hw

theorem enter_mem (s : State) (m : MemberState) : (s.enter m).mem = { s.mem with state := m } := rfl

theorem enter_flt (s : State) (m : MemberState) :
    (s.enter m).flt = s.flt.post (.membership m s.mem.attempts) := rfl

theorem enter_bus (s : State) (m : MemberState) :
    (s.enter m).bus = s.bus.enter s.pTicks s.mem.state m := rfl

theorem enter_changes (s : State) (m : MemberState) : s.changesOnly (s.enter m) [.bus, .mem, .flt] := by
  refine ⟨fun b hb => ?_, rfl, rfl⟩
  cases b <;> first | rfl | exact absurd (by decide) hb

theorem enter_counts (s : State) (m : MemberState) : (s.enter m).flt.counts = s.flt.counts :=
  post_counts _ _

theorem enter_rx {s : State} {m : MemberState} (h : m ≠ .isolated) (h' : m ≠ .barred)
    (h'' : m ≠ .dormant) : (s.enter m).bus.rx = s.bus.rx := by
  have hw (p : QFrame → Bool) : (s.bus.withdraw p).rx = s.bus.rx := by
    rw [Bus.withdraw_eq]
  cases m <;> first | contradiction | exact hw _

end Sys2Proof.Machine
end

