-- ==== Sys2Proof/Proofs/Silent.lean ====
section
/-! SUPPORT. Outside MEMBER the placement policy and the shuts it decides send nothing: claims and recalls ask
for MEMBER (R57), and a shut that is due waits for it (R72). Each such operation `f` has one lemma
`silent_f : Silent s (f s)`. -/

namespace Sys2Proof.Machine

/-- `t` comes from `s` without a change of the membership controller and, outside MEMBER, without one of the
bus controller or the fault capture unit. -/
structure Silent (s t : State) : Prop where
  mem : t.mem = s.mem := by rfl
  bus : s.mem.state ≠ .member → t.bus = s.bus := by exact fun _ => rfl
  flt : s.mem.state ≠ .member → t.flt = s.flt := by exact fun _ => rfl

namespace Silent

theorem refl (s : State) : Silent s s where

theorem trans {s t u : State} (h : Silent s t) (g : Silent t u) : Silent s u where
  mem := g.mem.trans h.mem
  bus := fun hm => (g.bus (by rw [h.mem]; exact hm)).trans (h.bus hm)
  flt := fun hm => (g.flt (by rw [h.mem]; exact hm)).trans (h.flt hm)

theorem foldl {α : Type} (f : State → α → State) (h : ∀ s x, Silent s (f s x)) (l : List α)
    (s : State) : Silent s (l.foldl f s) := by
  induction l generalizing s with
  | nil => exact refl s
  | cons x l ih => exact (h s x).trans (ih _)

theorem foldlFlag {α : Type} (f : State × Bool → α → State × Bool)
    (h : ∀ p x, Silent p.1 (f p x).1) (l : List α) (p : State × Bool) :
    Silent p.1 (l.foldl f p).1 := by
  induction l generalizing p with
  | nil => exact refl p.1
  | cons x l ih => exact (h p x).trans (ih _)

theorem ite {s t u : State} {c : Prop} [Decidable c] (h : c → Silent s t) (g : ¬c → Silent s u) :
    Silent s (if c then t else u) := by
  split
  next hc => exact h hc
  next hc => exact g hc

/-- Work that MEMBER alone does is silent. -/
theorem ofMember {s t : State} (hm : t.mem = s.mem) (h : s.mem.state = .member) : Silent s t where
  mem := hm
  bus := fun hn => absurd h hn
  flt := fun hn => absurd h hn

end Silent

theorem silent_onExt (s : State) (k : Slot) (f : Ext → Ext) : Silent s (s.onExt k f) := by
  unfold State.onExt
  split
  · exact {}
  · exact Silent.refl s

theorem silent_endResidency (s : State) (c : Ctx) : Silent s (s.endResidency c) := by
  unfold State.endResidency
  split
  · exact (silent_onExt s _ _).trans {}
  · exact Silent.refl s

theorem silent_grant (s : State) (c : Ctx) (k : Slot) : Silent s (s.grant c k) := by
  unfold State.grant
  split
  · exact {}
  · exact Silent.refl s

/-- R72: a shut decided outside MEMBER queues no SHUT. -/
theorem silent_decideShut (s : State) (k : Slot) (c : ShutCause) (r : Option (ReqTag × Station)) :
    Silent s (s.decideShut k c r) := by
  unfold State.decideShut
  split
  · exact Silent.refl s
  · dsimp only
    refine Silent.ite (fun _ => Silent.refl s) (fun _ => ?_)
    have hends (x : Option Ext) (l : List Ctx) :
        Silent s (l.foldl State.endResidency (s.setExt k x)) :=
      Silent.trans {} (Silent.foldl _ silent_endResidency l _)
    exact Silent.ite (fun hm => Silent.ofMember (hends _ _).mem hm) (fun _ => hends _ _)

theorem silent_leaveSlot (s : State) (c : Ctx) (k : Slot) : Silent s (s.leaveSlot c k) := by
  have hdrop : Silent s (s.dropResident k c) := silent_onExt s k _
  unfold State.leaveSlot
  dsimp only
  split
  · exact Silent.ite (fun _ => hdrop.trans (silent_decideShut _ _ _ _)) (fun _ => hdrop)
  · exact hdrop

/-- R57: claims are queued in MEMBER alone. -/
theorem claimCase_member {s : State} (h : (s.withinQuota || s.fromPool) = true) :
    s.mem.state = .member := by
  have hperm : s.claimPermission = true := by
    rcases Bool.or_eq_true _ _ |>.mp h with h | h
    · simp only [State.withinQuota, Bool.and_eq_true] at h
      exact h.1.1
    · simp only [State.fromPool, Bool.and_eq_true] at h
      exact h.1.1.1
  simp only [State.claimPermission, Bool.and_eq_true, beq_iff_eq] at hperm
  exact hperm.1.1.1.1

theorem queueClaim_mem (s : State) (kind : SlotKind) (c : Option Ctx) :
    (s.queueClaim kind c).mem = s.mem := by
  unfold State.queueClaim
  split <;> rfl

theorem silent_queueClaim (s : State) (kind : SlotKind) (c : Option Ctx)
    (h : (s.withinQuota || s.fromPool) = true) : Silent s (s.queueClaim kind c) :=
  Silent.ofMember (queueClaim_mem s kind c) (claimCase_member h)

theorem beginRecall_mem (s : State) : s.beginRecall.mem = s.mem := by
  unfold State.beginRecall
  split
  · rfl
  · split <;> rfl

/-- R61: recalls are begun in MEMBER alone. -/
theorem silent_beginRecall (s : State) (h : s.recallPermission = true) : Silent s s.beginRecall := by
  simp only [State.recallPermission, Bool.and_eq_true, beq_iff_eq] at h
  exact Silent.ofMember (beginRecall_mem s) h.1.1.1

theorem silent_stepFive (s : State) (c : Ctx) : Silent s (s.stepFive c).1 := by
  unfold State.stepFive
  split
  · split
    · split
      · split
        · exact silent_grant s c _
        · exact silent_decideShut s _ _ _
      · split
        · exact silent_grant s c _
        · exact Silent.refl s
      · exact Silent.refl s
    · exact Silent.refl s
  · split
    · exact Silent.refl s
    · split
      next hc => exact silent_queueClaim s _ _ hc
      · exact Silent.refl s

theorem silent_visit (s : State) (skip : List Ctx) (c : Ctx) : Silent s (s.visit skip c).1 := by
  unfold State.visit
  split
  · exact Silent.refl s
  · split
    · exact Silent.refl s
    · split
      · exact silent_stepFive s c
      · split
        · exact silent_stepFive s c
        · split
          next h => exact silent_queueClaim s _ _ h.2
          · split
            · exact silent_grant s c _
            · split
              next h => exact silent_beginRecall s (recallNeeded_permission h)
              · exact silent_stepFive s c

theorem silent_passOnce (s : State) (skip : List Ctx) : Silent s (s.passOnce skip).1 :=
  Silent.foldlFlag (fun p c => ((p.1.visit skip c).1, p.2 || (p.1.visit skip c).2))
    (fun p c => silent_visit p.1 skip c) _ (s, false)

theorem silent_policyPass (s : State) (skip : List Ctx) : Silent s (s.policyPass skip) := by
  unfold State.policyPass
  refine Silent.ite (fun _ => ?_) (fun _ => Silent.refl s)
  dsimp only
  exact Silent.ite (fun _ => (silent_passOnce s skip).trans (silent_passOnce _ []))
    (fun _ => silent_passOnce s skip)

theorem silent_giveOut (s : State) (k : Slot) (c : Option Ctx) : Silent s (s.giveOut k c) := by
  unfold State.giveOut
  refine Silent.ite (fun _ => ?_) (fun _ => Silent.refl s)
  split
  · split
    · exact silent_grant s _ k
    · split
      · exact silent_grant s _ k
      · exact silent_decideShut s k _ _
  · exact Silent.refl s

/-- R75: outside MEMBER no pressure shut is decided. -/
theorem evalPressure_notMember {s : State} (h : s.mem.state ≠ .member) : s.evalPressure = s := by
  simp only [State.evalPressure, State.pressureEval, h, and_false, if_false, Bool.false_eq_true]

end Sys2Proof.Machine
end

