-- ==== Sys2Proof/Proofs/Transitions.lean ====
section
/-! SUPPORT. What the changes of membership do, in the words of the statements: the listening that follows
CENSUS (R126), the attempts of joining and catch-up (R128, R130, R135), going stale (R53), and the replica
emptied with its holdings (R37, R76, R140, R163). -/

namespace Sys2Proof.Machine

/-! ### The end of a command -/

/-- The station as a command leaves it, its intake unit brought up to date (R7, R181). -/
def State.settled (s : State) : State := { s with intake := s.settledIntake }

@[simp] theorem settled_cls (s : State) : s.settled.cls = s.cls := rfl
@[simp] theorem settled_str (s : State) : s.settled.str = s.str := rfl
@[simp] theorem settled_plc (s : State) : s.settled.plc = s.plc := rfl
@[simp] theorem settled_dir (s : State) : s.settled.dir = s.dir := rfl
@[simp] theorem settled_bus (s : State) : s.settled.bus = s.bus := rfl
@[simp] theorem settled_mem (s : State) : s.settled.mem = s.mem := rfl
@[simp] theorem settled_link (s : State) : s.settled.link = s.link := rfl
@[simp] theorem settled_line (s : State) : s.settled.line = s.line := rfl
@[simp] theorem settled_flt (s : State) : s.settled.flt = s.flt := rfl
@[simp] theorem settled_rst (s : State) : s.settled.rst = s.rst := rfl
@[simp] theorem settled_pending (s : State) : s.settled.pending = s.pending := rfl
@[simp] theorem settled_queue (s : State) : s.settled.intake.queue = s.intake.queue := (settle_from s).1
@[simp] theorem settled_results (s : State) : s.settled.intake.results = s.intake.results :=
  (settle_from s).2.1
@[simp] theorem settled_response (s : State) : s.settled.intake.response = s.intake.response :=
  (settle_from s).2.2

/-- R176: outside a reset a command answers its effect, brought up to date. -/
theorem live_settled {s : State} (f : State → State) (h : s.rst = none) :
    live s f = .next (f s).settled := live_next f h

/-! ### The blocks and the counts -/

theorem startListen_changes (s : State) : s.changesOnly s.startListen [.bus, .mem, .flt] :=
  (enter_changes s _).andThen (onMem_changes _ _) (by simp) (by simp)

theorem censusToListen_changes (s : State) : s.changesOnly s.censusToListen [.bus, .mem, .flt] :=
  (onMem_changes s _).andThen (startListen_changes _) (by simp) (by simp)

theorem beginAttempt_changes (s : State) : s.changesOnly s.beginAttempt [.dir, .bus, .flt] := by
  refine ⟨fun b hb => ?_, rfl, rfl⟩
  cases b <;> first | rfl | exact absurd (by decide) hb

/-- R135: the station in ISOLATED, block by block. -/
theorem isolate_eq (s : State) :
    s.isolate =
      { s with
        bus := s.bus.enter s.pTicks s.mem.state .isolated,
        mem := { s.mem with departing := false, state := .isolated },
        flt := (s.report .catchupExhausted).flt.freeze.post (.membership .isolated s.mem.attempts) } := by
  simp only [State.isolate, State.enter, State.report, State.onFlt, State.onMem, State.onBus, State.post,
    State.pTicks]

theorem isolate_changes (s : State) : s.changesOnly s.isolate [.bus, .mem, .flt] := by
  rw [isolate_eq]
  refine ⟨fun b hb => ?_, rfl, rfl⟩
  cases b <;> first | rfl | exact absurd (by decide) hb

/-- R7: an effect outside the intake unit leaves it as the frame of a statement asks. -/
theorem frame_of_changes {s t : State} {l : List Block} (h : s.changesOnly t l) (hl : .intake ∉ l) :
    s.frame t.settled l :=
  frame_settled (h.mono fun _ hb => List.mem_cons_of_mem _ hb) (.inr (h.1 .intake hl))

/-- A count that has risen stands when the command ends. -/
theorem State.counted.settled {s u t : State} {c : Cause} (h : u.counted t c)
    (hs : s.flt.counts[c.index] = u.flt.counts[c.index]) : s.counted t.settled c :=
  h.congr hs rfl

/-! ### CENSUS to LISTEN (R126) -/

/-- R126: the move from CENSUS, after an entry has been taken. -/
theorem leftCensus_settled {s u : State} (h : s.changesOnly u [.bus]) :
    s.leftCensus u.censusToListen.settled := by
  refine ⟨rfl, fun st => ?_, rfl, rfl,
    frame_of_changes (h.andThen (censusToListen_changes u) (by simp) (by simp)) (by simp)⟩
  change (Vector.replicate 8 (none : Option CensusEntry))[st] = none
  simp

/-! ### Attempts (R130) -/

/-- R87: the kinds CATCHUP permits. -/
theorem permitted_catchup {k : Kind} (h : permitted .catchup k = true) :
    k = .beacon ∨ k = .catchupAsk ∨ k = .defer := by
  simpa [permitted, or_assoc] using h

/-- R130: a first attempt, begun from a state whose gate is that of CATCHUP, and the policy pass after it. -/
theorem beganAttempt_policyPass {s : State} (hs : s.mem.state = .catchup)
    (hw : ∀ q ∈ s.bus.waiting, permitted .catchup q.body.kind = true) :
    s.beganAttempt s.beginAttempt.policyPass := by
  have hp := polices_policyPass s.beginAttempt
  have hq := silent_policyPass s.beginAttempt []
  have hn : s.beginAttempt.mem.state ≠ .member := by
    rw [beginAttempt_state, hs]
    decide
  have hperm : s.beginAttempt.recallPermission = false := by
    have hne : (s.beginAttempt.mem.state == .member) = false := by simpa using hn
    simp only [State.recallPermission, hne, Bool.false_and]
  refine ⟨by rw [hp.mem]; exact hs, hp.rep, (hp.request (.inr (.inr hperm))).trans rfl,
    hp.log.trans rfl, hp.snap.trans rfl, ?_, fun q hq' => ?_⟩
  · rw [hq.bus hn]
    change ((s.bus.queue _).tx ++ (s.bus.queue _).held).getLast? = _
    rw [Bus.queue_all, List.getLast?_concat]
    rfl
  · rw [hq.bus hn] at hq'
    rcases Bus.mem_waiting_queue hq' with hold | rfl
    · exact permitted_catchup (hw q hold)
    · exact .inr (.inl rfl)

/-- What a first attempt begins with is read from the replica, the tag and the attempt count alone. -/
theorem State.beganAttempt.congr {s u t : State} (h : u.beganAttempt t) (hrep : u.dir.rep = s.dir.rep)
    (htag : u.dir.reqTag = s.dir.reqTag) (hatt : u.mem.attempts = s.mem.attempts)
    (hstn : u.mem.stn = s.mem.stn) : s.beganAttempt t := by
  unfold State.beganAttempt at *
  rw [hrep, htag, hatt, hstn] at h
  exact h

theorem State.beganAttempt.settled {s t : State} (h : s.beganAttempt t) :
    s.beganAttempt t.settled := h

/-- R128, R130: the station's own JOIN has been sent. -/
theorem joinTaken_began (s : State) : s.beganAttempt s.joinTaken :=
  State.beganAttempt.congr
    (beganAttempt_policyPass (s := s.enter .catchup) rfl fun _ hq => (Bus.mem_waiting_enter hq).2)
    rfl rfl rfl rfl

theorem joinTaken_changes (s : State) :
    s.changesOnly s.joinTaken [.str, .plc, .dir, .bus, .mem, .flt] :=
  ((enter_changes s _).andThen (beginAttempt_changes _) (n := [.dir, .bus, .mem, .flt]) (by simp)
    (by simp)).andThen (polices_policyPass _).changesOnly (by simp) (by simp [policyBlocks])

theorem joined_settled {s u : State} (h : s.changesOnly u [.bus]) :
    s.joined u.joinTaken.settled := by
  have hdir : u.dir = s.dir := h.1 .dir (by simp)
  have hmem : u.mem = s.mem := h.1 .mem (by simp)
  exact ⟨((joinTaken_began u).congr (by rw [hdir]) (by rw [hdir]) (by rw [hmem]) (by rw [hmem])).settled,
    frame_of_changes (h.andThen (joinTaken_changes u) (by simp) (by simp)) (by simp)⟩

/-! ### Going stale (R53, R63, R154) -/

/-- R53, R63, R154: the station in CATCHUP, before its attempt begins. -/
def State.staleBase (s : State) : State :=
  { s with
    bus := s.bus.enter s.pTicks s.mem.state .catchup,
    flt := s.flt.post (.membership .catchup s.mem.attempts),
    dir := { s.dir with request := none, serving := none },
    plc := { s.plc with claims := s.plc.claims.filter (·.phase != .queued) },
    mem := { s.mem with
      state := .catchup,
      duty := mapIdx s.mem.duty fun _ d => d.filter (·.phase != .queued),
      adoption := s.mem.adoption.filter fun a => !adoptionLost s (s.enter .catchup) a } }

theorem goStale_eq (s : State) : s.goStale = s.staleBase.beginAttempt.policyPass := by
  simp only [State.goStale, State.staleBase, State.enter, State.onPlc, State.onDir,
    State.onFlt, State.onMem, State.onBus, State.post, State.pTicks]

theorem staleBase_changes (s : State) : s.changesOnly s.staleBase [.plc, .dir, .bus, .mem, .flt] := by
  refine ⟨fun b hb => ?_, rfl, rfl⟩
  cases b <;> first | rfl | exact absurd (by decide) hb

theorem goStale_changes (s : State) : s.changesOnly s.goStale [.str, .plc, .dir, .bus, .mem, .flt] := by
  rw [goStale_eq]
  exact ((staleBase_changes s).andThen (beginAttempt_changes _) (n := [.plc, .dir, .bus, .mem, .flt]) (by simp)
    (by simp)).andThen (polices_policyPass _).changesOnly (by simp) (by simp [policyBlocks])

theorem goStale_began (s : State) : s.beganAttempt s.goStale := by
  rw [goStale_eq]
  exact State.beganAttempt.congr (u := s.staleBase)
    (beganAttempt_policyPass rfl fun _ hq => (Bus.mem_waiting_enter hq).2) rfl rfl rfl rfl

/-- R63: no QUEUED claim survives, and the policy pass in CATCHUP queues none. -/
theorem goStale_claims (s : State) : ∀ e ∈ s.goStale.plc.claims, e.phase ≠ .queued := by
  rw [goStale_eq]
  intro e he
  have hp := polices_policyPass s.staleBase.beginAttempt
  obtain ⟨f, hf, hkept⟩ := hp.claims rfl e he
  rw [hkept.2.2]
  have : f ∈ s.plc.claims.filter (·.phase != .queued) := hf
  simpa using (List.mem_filter.1 this).2

theorem goStale_mem (s : State) : s.goStale.mem = s.staleBase.mem := by
  rw [goStale_eq]
  exact (polices_policyPass s.staleBase.beginAttempt).mem

/-- R154: no QUEUED duty survives. -/
theorem goStale_duty (s : State) (h : Station) (d : Duty) (hd : s.goStale.mem.duty[h] = some d) :
    d.phase ≠ .queued := by
  rw [goStale_mem] at hd
  change (mapIdx s.mem.duty fun _ d => d.filter (·.phase != .queued))[h] = some d at hd
  rw [mapIdx_get, Option.filter_eq_some_iff] at hd
  simpa using hd.2

theorem goStale_serving (s : State) : s.goStale.dir.serving = none := by
  rw [goStale_eq]
  exact (polices_policyPass s.staleBase.beginAttempt).serving

/-- R53: the policy pass in CATCHUP is silent, so the counts are those before. -/
theorem goStale_counts (s : State) : s.goStale.flt.counts = s.flt.counts := by
  rw [goStale_eq, (polices_policyPass _).counts]
  exact (loadRequest_counts s.staleBase.flt _).trans (post_counts s.flt _)

theorem goStale_rx (s : State) : s.goStale.bus.rx = s.bus.rx := by
  have henter : s.staleBase.bus.rx = s.bus.rx :=
    enter_rx (s := s) (m := .catchup) (by decide) (by decide) (by decide)
  rw [goStale_eq]
  exact (polices_policyPass s.staleBase.beginAttempt).rx.trans
    ((works_queueFrame s.staleBase _).rx.trans henter)

/-- R53: a station that goes stale after work in the bus controller, the directory engine and the fault
capture unit that leaves its replica and its tag. -/
theorem wentStale_settled {s u : State} (h : s.changesOnly u [.dir, .bus, .flt])
    (hrep : u.dir.rep = s.dir.rep) (htag : u.dir.reqTag = s.dir.reqTag) :
    s.wentStale u.goStale.settled := by
  have hmem : u.mem = s.mem := h.1 .mem (by simp)
  exact ⟨((goStale_began u).congr hrep htag (by rw [hmem]) (by rw [hmem])).settled, goStale_serving u,
    goStale_claims u, goStale_duty u,
    frame_of_changes (h.andThen (goStale_changes u) (by simp) (by simp)) (by simp)⟩

/-! ### Failed attempts (R128, R135) -/

/-- R135: one failure more. -/
def State.failedMore (s : State) : State := s.onMem fun m => { m with attempts := m.attempts + 1 }

theorem countFailure_less {s : State} {next : State → State} (h : s.mem.attempts < 3) :
    s.countFailure next = next s.failedMore := by
  have : s.mem.attempts + 1 < 4 := by omega
  simp only [State.countFailure, State.failedMore, State.onMem_mem, this, if_true]

theorem countFailure_last {s : State} {next : State → State} (h : 3 ≤ s.mem.attempts) :
    s.countFailure next = s.failedMore.isolate := by
  have : ¬ s.mem.attempts + 1 < 4 := by omega
  simp only [State.countFailure, State.failedMore, State.onMem_mem, this, if_false]

/-- R87: the frames that wait in ISOLATED waited before. -/
theorem isolate_waiting {s : State} {q : QFrame} (h : q ∈ s.isolate.bus.waiting) : q ∈ s.bus.waiting :=
  (Bus.mem_waiting_enter h).1

theorem isolate_counted (s : State) : s.counted s.isolate .catchupExhausted :=
  (report_counted s .catchupExhausted none none none none).congr rfl
    (congrArg (·[Cause.catchupExhausted.index]) (enter_counts _ .isolated))

theorem isolate_count_other (s : State) (c : Cause) (h : c.index ≠ Cause.catchupExhausted.index) :
    s.isolate.flt.counts[c.index] = s.flt.counts[c.index] :=
  (congrArg (·[c.index]) (enter_counts _ .isolated)).trans (report_count_other s _ _ _ _ _ _ h)

theorem isolate_frozen (s : State) : s.isolate.flt.frozen = true := Faults.post_frozen _ _

/-- R135: what a failed attempt leaves before the failures are counted. -/
def State.attemptDropped (s : State) : State :=
  ((s.withdraw Body.isAsk).onDir fun d => { d with request := none, log := [], snap := [] }).report
    .catchupFailed (peer := s.responder)

theorem attemptFail_eq (s : State) :
    s.attemptFail = s.attemptDropped.countFailure State.startRetry := rfl

theorem attemptDropped_changes (s : State) : s.changesOnly s.attemptDropped [.dir, .bus, .flt] := by
  refine ⟨fun b hb => ?_, rfl, rfl⟩
  cases b <;> first | rfl | exact absurd (by decide) hb

theorem attemptDropped_counted (s : State) : s.counted s.attemptDropped .catchupFailed :=
  report_counted ((s.withdraw Body.isAsk).onDir fun d => { d with request := none, log := [], snap := [] })
    _ _ _ _ _

/-- R131: no CATCHUP-ASK waits after the attempt's withdrawal. -/
theorem attemptDropped_waiting {s : State} {q : QFrame} (h : q ∈ s.attemptDropped.bus.waiting) :
    q.body.kind ≠ .catchupAsk := by
  have hn := (withdraw_waiting (s := s) (p := Body.isAsk) h).2
  cases hb : q.body <;> simp_all [Body.isAsk, Body.kind]

theorem attemptDropped_pTicks (s : State) : s.attemptDropped.pTicks = s.pTicks := rfl

/-- R135: below the fourth failure the retry timer starts. -/
theorem attemptFail_less {s : State} (h : s.mem.attempts < 3) :
    s.attemptFail = s.attemptDropped.onMem fun m =>
      { m with attempts := m.attempts + 1, retryTimer := some ((m.attempts + 1) * s.pTicks) } :=
  countFailure_less (s := s.attemptDropped) h

/-- R135: the fourth failure isolates the station. -/
theorem attemptFail_last {s : State} (h : 3 ≤ s.mem.attempts) :
    s.attemptFail = s.attemptDropped.failedMore.isolate :=
  countFailure_last (s := s.attemptDropped) h

theorem failedMore_changes (s : State) : s.changesOnly s.failedMore [.mem] := onMem_changes s _

theorem attemptFail_changes (s : State) : s.changesOnly s.attemptFail [.dir, .bus, .mem, .flt] := by
  rcases Nat.lt_or_ge s.mem.attempts 3 with h | h
  · rw [attemptFail_less h]
    exact (attemptDropped_changes s).andThen (onMem_changes _ _) (by simp) (by simp)
  · rw [attemptFail_last h]
    exact ((attemptDropped_changes s).andThen (failedMore_changes _) (n := [.dir, .bus, .mem, .flt]) (by simp)
      (by simp)).andThen (isolate_changes _) (by simp) (by simp)

/-- R135: the attempt fails, after work that left the replica and the holdings. -/
theorem attemptFailed_after {s u : State} (h : s.changesOnly u [.dir, .bus]) (hrep : u.dir.rep = s.dir.rep)
    (hext : u.dir.ext = s.dir.ext) : s.attemptFailed u.attemptFail.settled := by
  have hframe : s.frame u.attemptFail.settled [.dir, .bus, .mem, .flt] :=
    frame_of_changes (h.andThen (attemptFail_changes u) (by simp) (by simp)) (by simp)
  have hmem : u.mem = s.mem := h.1 .mem (by simp)
  have hstate : u.mem.state = s.mem.state := by rw [hmem]
  have hatt : u.mem.attempts + 1 = s.mem.attempts + 1 := by rw [hmem]
  have hflt : u.flt = s.flt := h.1 .flt (by simp)
  have hticks : u.pTicks = s.pTicks := by simp only [State.pTicks, hmem]
  have hcount : s.counted u.attemptDropped .catchupFailed :=
    (attemptDropped_counted u).congr (by rw [hflt]) rfl
  rcases Nat.lt_or_ge s.mem.attempts 3 with hlt | hge
  · rw [attemptFail_less (s := u) (by rw [hmem]; exact hlt)] at hframe ⊢
    refine ⟨fun _ => attemptDropped_waiting, rfl, rfl, rfl, hrep,
      hext, hcount, hatt,
      fun _ => ⟨hstate, ?_⟩, fun h3 => absurd h3 (by omega), hframe⟩
    rw [← hmem, ← hticks]
    rfl
  · rw [attemptFail_last (s := u) (by rw [hmem]; exact hge)] at hframe ⊢
    have hdir : u.attemptDropped.failedMore.isolate.dir = u.attemptDropped.dir :=
      (isolate_changes _).1 .dir (by simp)
    have hkeep := isolate_count_other u.attemptDropped.failedMore .catchupFailed (by decide)
    have hstands : u.attemptDropped.flt.counts[Cause.catchupExhausted.index] =
        s.flt.counts[Cause.catchupExhausted.index] := by
      rw [← hflt]
      exact report_count_other _ _ _ _ _ _ _ (by decide)
    have hexhaust := (isolate_counted u.attemptDropped.failedMore).congr hstands.symm rfl
    unfold State.attemptFailed
    simp only [settled_bus, settled_dir, settled_mem, settled_flt, hdir]
    exact ⟨fun q hq => attemptDropped_waiting (isolate_waiting hq), rfl, rfl, rfl, hrep, hext,
      (hcount.congr rfl hkeep).settled rfl, hatt, fun h3 => absurd h3 (by omega),
      fun _ => ⟨rfl, rfl, isolate_frozen _, hexhaust.settled rfl⟩, hframe⟩

/-- R135: the attempt fails, after work in the bus controller. -/
theorem attemptFailed_settled {s u : State} (h : s.changesOnly u [.bus]) :
    s.attemptFailed u.attemptFail.settled :=
  attemptFailed_after (h.mono (by simp)) (congrArg Directory.rep (h.1 .dir (by simp)))
    (congrArg Directory.ext (h.1 .dir (by simp)))

/-- R128: what a failed JOIN leaves before the failures are counted. -/
def State.joinDropped (s : State) : State :=
  (s.withdraw Body.isJoin).report .catchupFailed (kind := some .join)

theorem joinDropped_changes (s : State) : s.changesOnly s.joinDropped [.bus, .flt] :=
  (withdraw_changes s _).andThen (report_changes _ _ _ _ _ _) (by simp) (by simp)

theorem joinDropped_counted (s : State) : s.counted s.joinDropped .catchupFailed :=
  report_counted (s.withdraw Body.isJoin) _ _ _ _ _

theorem joinDropped_waiting {s : State} {q : QFrame} (h : q ∈ s.joinDropped.bus.waiting) :
    q.body.kind ≠ .join := by
  have hn := (withdraw_waiting (s := s) (p := Body.isJoin) h).2
  cases hb : q.body <;> simp_all [Body.isJoin, Body.kind]

theorem joinFail_less {s : State} (h : s.mem.attempts < 3) :
    s.joinFail = s.joinDropped.failedMore.startListen :=
  countFailure_less (s := s.joinDropped) h

theorem joinFail_last {s : State} (h : 3 ≤ s.mem.attempts) :
    s.joinFail = s.joinDropped.failedMore.isolate :=
  countFailure_last (s := s.joinDropped) h

theorem joinFail_changes (s : State) : s.changesOnly s.joinFail [.bus, .mem, .flt] := by
  have hd := (joinDropped_changes s).andThen (failedMore_changes _) (n := [.bus, .mem, .flt]) (by simp)
    (by simp)
  rcases Nat.lt_or_ge s.mem.attempts 3 with h | h
  · rw [joinFail_less h]
    exact hd.andThen (startListen_changes _) (by simp) (by simp)
  · rw [joinFail_last h]
    exact hd.andThen (isolate_changes _) (by simp) (by simp)

/-- R128: the JOIN fails, after work in the bus controller. -/
theorem joinFailed_settled {s u : State} (h : s.changesOnly u [.bus]) :
    s.joinFailed u.joinFail.settled := by
  have hframe : s.frame u.joinFail.settled [.bus, .mem, .flt] :=
    frame_of_changes (h.andThen (joinFail_changes u) (by simp) (by simp)) (by simp)
  have hmem : u.mem = s.mem := h.1 .mem (by simp)
  have hatt : u.mem.attempts + 1 = s.mem.attempts + 1 := by rw [hmem]
  have hflt : u.flt = s.flt := h.1 .flt (by simp)
  have hticks : u.listenTicks = s.listenTicks := by simp only [State.listenTicks, State.pTicks, hmem]
  have hcount : s.counted u.joinDropped .catchupFailed :=
    (joinDropped_counted u).congr (by rw [hflt]) rfl
  rcases Nat.lt_or_ge s.mem.attempts 3 with hlt | hge
  · rw [joinFail_less (s := u) (by rw [hmem]; exact hlt)] at hframe ⊢
    have hkeep := congrArg (·[Cause.catchupFailed.index]) (enter_counts u.joinDropped.failedMore .listen)
    refine ⟨fun _ hq => joinDropped_waiting (Bus.mem_waiting_enter hq).1, hcount.congr rfl hkeep,
      hatt, fun _ => ⟨rfl, ?_⟩, fun h3 => absurd h3 (by omega), hframe⟩
    rw [← hticks]
    rfl
  · rw [joinFail_last (s := u) (by rw [hmem]; exact hge)] at hframe ⊢
    have hkeep := isolate_count_other u.joinDropped.failedMore .catchupFailed (by decide)
    have hstands : u.joinDropped.flt.counts[Cause.catchupExhausted.index] =
        s.flt.counts[Cause.catchupExhausted.index] := by
      rw [← hflt]
      exact report_count_other _ _ _ _ _ _ _ (by decide)
    have hexhaust := (isolate_counted u.joinDropped.failedMore).congr hstands.symm rfl
    unfold State.joinFailed
    simp only [settled_bus, settled_mem, settled_flt]
    exact ⟨fun q hq => joinDropped_waiting (isolate_waiting hq), (hcount.congr rfl hkeep).settled rfl,
      hatt, fun h3 => absurd h3 (by omega),
      fun _ => ⟨rfl, rfl, isolate_frozen _, hexhaust.settled rfl⟩, hframe⟩

end Sys2Proof.Machine
end

