-- ==== Sys2Proof/Proofs/IntakeCommands.lean ====
section
/-! SUPPORT. The intake unit's own commands (Chapter 1): the descriptor that joins the intake queue, the head
that is refused at validation or at classification (R3 to R13), and the record that leaves (R181). -/

namespace Sys2Proof.Machine

/-! ### The end of a command that works on the intake unit -/

/-- An effect that may change the intake unit, as a statement that lists the unit asks. -/
theorem frame_listed {s t : State} {l : List Block} (h : s.changesOnly t l) (hl : .intake ∈ l) :
    s.frame t.settled l :=
  frame_settled (h.mono fun _ hb => List.mem_cons_of_mem _ hb) (.inl hl)

/-- A command without effect changes nothing but what every command brings up to date. -/
theorem frame_idle (s : State) : s.frame s.settled [] :=
  frame_of_changes (State.changesOnly.refl s _) (by simp)

/-- An effect that leaves of the intake unit what a statement reads when it does not list the unit. -/
theorem frame_kept {s t : State} {l : List Block} (h : s.changesOnly t (.intake :: l))
    (hk : s.intake.settledFrom t.intake) : s.frame t.settled l := by
  obtain ⟨hqueue, hresults, hresponse⟩ := hk
  refine ⟨(frame_settled (l := .intake :: l) (h.mono fun _ hb => List.mem_cons_of_mem _ hb)
    (.inl (by simp))).1.mono (by simp), fun _ => ⟨?_, ?_, ?_⟩⟩
  · exact (settled_queue t).trans hqueue
  · exact (settled_results t).trans hresults
  · exact (settled_response t).trans hresponse

/-! ### The descriptor that passes (R1, R2, R4) -/

/-- Table 1-1: the fields of a descriptor's six bytes. -/
theorem descriptorOf_fields (b0 b1 b2 b3 b4 b5 : Byte) :
    let d := descriptorOf b0 b1 b2 b3 b4 b5
    d.tag.toNat = b0.toNat + 256 * b1.toNat ∧ d.function = b2 ∧ d.nspace.toNat = b3.toNat % 16 ∧
      (b3.toNat < 128 → d.hint = none) ∧
      (128 ≤ b3.toNat → ∃ h, d.hint = some h ∧ h.toNat = b3.toNat / 16 % 8) ∧
      d.length.toNat = b4.toNat + 256 * b5.toNat := by
  have le16 (x y : Byte) : (ofLe16 x y).toNat = x.toNat + 256 * y.toNat := by
    simp only [ofLe16, BitVec.toNat_ofNat]
    omega
  refine ⟨le16 b0 b1, rfl, ?_, fun h => if_neg (by omega), fun h => ?_, le16 b4 b5⟩
  · simp only [descriptorOf, BitVec.toNat_ofNat]
    omega
  · refine ⟨BitVec.ofNat 3 (b3.toNat / 16 % 8), if_pos (by omega), ?_⟩
    rw [BitVec.toNat_ofNat]
    omega

/-- R4: DREADY, outside a reset, is asserted where the intake queue has room. -/
theorem dready_iff {s : State} (hs : s.rst = none) : s.dready = true ↔ s.intake.queue.length < 32 := by
  simp only [State.dready, hs, Option.isNone_none, Bool.true_and, decide_eq_true_eq]

/-- Settles O13: a descriptor passes where DREADY is asserted, and then with the fields of Table 1-1. -/
theorem descriptorJoinsIntakeQueue : Obligations.DescriptorJoinsIntakeQueue := by
  unfold Obligations.DescriptorJoinsIntakeQueue
  intro b0 b1 b2 b3 b4 b5 s hs
  refine ⟨_, live_settled _ hs, fun h => ?_, fun h => ?_⟩
  · rw [if_pos ((dready_iff hs).2 h)]
    exact ⟨⟨_, settled_queue _, descriptorOf_fields b0 b1 b2 b3 b4 b5⟩, settled_results _,
      settled_response _, frame_listed (onIntake_changes s _) (by simp)⟩
  · rw [if_neg (by rw [dready_iff hs]; omega)]
    exact frame_idle s

/-! ### The head refused (R3, R5 to R7) -/

theorem Intake.headMayEnter_idle {i : Intake} (hr : i.results.length < 32) (hw : i.waiters = []) :
    i.headMayEnter = true := by
  simp only [Intake.headMayEnter, hr, hw, decide_true, Bool.and_self]

/-- R5, R7: a refused head that may enter is taken, with its refusal. -/
theorem takeHead_refuse {s : State} {d : Descriptor} {q : List Descriptor} {why : Reason} {o : Option Ctx}
    (hq : s.intake.queue = d :: q) (ho : s.headOutcome d = .refuse why o)
    (he : s.intake.headMayEnter = true) : s.takeHead = s.refuseHead d why o := by
  simp only [State.takeHead, hq, ho, he, if_true]

theorem refuseHead_intake (s : State) (d : Descriptor) (why : Reason) (o : Option Ctx) :
    (s.refuseHead d why o).intake =
      { s.intake.popHead with results := s.intake.results ++ [refusal d.tag why o] } := by
  cases o <;> rfl

/-- R6: a refusal that names no context works on the intake unit alone. -/
theorem refuseHead_changes (s : State) (d : Descriptor) (why : Reason) :
    s.changesOnly (s.refuseHead d why none) [.intake] :=
  onIntake_changes s _

/-- R34: a refusal that names a context is also counted there. -/
theorem refuseHead_changes_str (s : State) (d : Descriptor) (why : Reason) (o : Option Ctx) :
    s.changesOnly (s.refuseHead d why o) [.intake, .str] := by
  cases o with
  | none => exact (refuseHead_changes s d why).mono (by simp)
  | some c => exact (onIntake_changes s _).andThen (onCounters_changes _ c _) (by simp) (by simp)

theorem refuseHead_ctx (s : State) (d : Descriptor) (why : Reason) (c e : Ctx) :
    (s.refuseHead d why (some c)).str.ctxs[e] =
      if e = c then { s.str.ctxs[c] with counters := s.str.ctxs[c].counters.refusing 1 }
      else s.str.ctxs[e] := by
  rw [Counters.refusing_one]
  exact onCounters_get _ c e _

/-- R5, R7: what the taking of a refused head that may enter leaves of the intake unit. -/
theorem exec_takeIntakeHead_refuse {s : State} {d : Descriptor} {q : List Descriptor} {why : Reason}
    {o : Option Ctx} (hs : s.rst = none) (hq : s.intake.queue = d :: q)
    (ho : s.headOutcome d = .refuse why o) (he : s.intake.headMayEnter = true) :
    ∃ t, exec .takeIntakeHead s = .next t ∧ t = (s.refuseHead d why o).settled ∧ t.intake.queue = q ∧
      t.intake.results = s.intake.results ++
        [{ tag := d.tag, status := .refused why, stream := o, extents := [] }] ∧
      t.intake.response = s.intake.response := by
  refine ⟨_, live_settled _ hs, ?_, ?_, ?_, ?_⟩
  · rw [takeHead_refuse hq ho he]
  all_goals rw [takeHead_refuse hq ho he]
  · rw [settled_queue, refuseHead_intake]
    exact congrArg (List.drop 1) hq
  · rw [settled_results, refuseHead_intake]
    rfl
  · rw [settled_response, refuseHead_intake]
    rfl

/-! ### Validation (R6) -/

theorem headOutcome_oversize {s : State} {d : Descriptor} (h : d.length.toNat = 0 ∨ 256 < d.length.toNat) :
    s.headOutcome d = .refuse .oversize none := if_pos h

/-- R6: past the length check the lines decide, then the membership, then the classifier. -/
theorem headOutcome_sized {s : State} {d : Descriptor} (h : 1 ≤ d.length.toNat ∧ d.length.toNat ≤ 256) :
    s.headOutcome d =
      if s.line.warned then .refuse .powerFail none
      else if s.refusesMembers then .refuse .notMember none else s.classify d :=
  if_neg (by omega)

theorem refusesMembers_iff (s : State) :
    s.refusesMembers = true ↔
      s.mem.state ≠ .member ∧ s.mem.state ≠ .catchup ∨ s.mem.departing = true := by
  simp [State.refusesMembers]

/-- Settles O14: the first check that fails gives the reason, and the head is taken with it. -/
theorem headRefusedAtValidation : Obligations.HeadRefusedAtValidation := by
  unfold Obligations.HeadRefusedAtValidation
  intro d q why s hs hq hr hw hwhy
  have ho : s.headOutcome d = .refuse why none := by
    rcases hwhy with ⟨hlen, rfl⟩ | ⟨hlen, ⟨hpf, rfl⟩ | ⟨hpf, hm, rfl⟩⟩
    · exact headOutcome_oversize hlen
    · rw [headOutcome_sized hlen, if_pos hpf]
    · rw [headOutcome_sized hlen, if_neg (by simp [hpf]), if_pos ((refusesMembers_iff s).2 hm)]
  obtain ⟨t, hex, rfl, hqueue, hres, hresp⟩ :=
    exec_takeIntakeHead_refuse hs hq ho (Intake.headMayEnter_idle hr hw)
  exact ⟨_, hex, hqueue, hres, hresp, frame_listed (refuseHead_changes s d why) (by simp)⟩

/-- Settles O17: BLOCKED names no context; PARKED names one, which counts it. -/
theorem headRefusedAtClassification : Obligations.HeadRefusedAtClassification := by
  unfold Obligations.HeadRefusedAtClassification
  intro d q c s hs hq hr hw
  have he := Intake.headMayEnter_idle hr hw
  refine ⟨fun ho => ?_, fun ho => ?_⟩
  · obtain ⟨t, hex, rfl, hqueue, hres, hresp⟩ := exec_takeIntakeHead_refuse hs hq ho he
    exact ⟨_, hex, hqueue, hres, hresp, frame_listed (refuseHead_changes s d _) (by simp)⟩
  · obtain ⟨t, hex, rfl, hqueue, hres, hresp⟩ := exec_takeIntakeHead_refuse hs hq ho he
    refine ⟨_, hex, hqueue, hres, ?_, fun e hne => ?_, hresp,
      frame_listed (refuseHead_changes_str s d _ _) (by simp)⟩
    · rw [settled_str, refuseHead_ctx, if_pos rfl, Counters.refusing_one]
      rfl
    · rw [settled_str, refuseHead_ctx, if_neg hne]

/-! ### Classification (R8 to R13) -/

/-- R6: a head that passes the three checks is the classifier's. -/
theorem headOutcome_valid {s : State} {d : Descriptor} (h1 : 1 ≤ d.length.toNat)
    (h256 : d.length.toNat ≤ 256) (hw : s.line.warned = false)
    (hm : s.mem.state = .member ∨ s.mem.state = .catchup) (hd : s.mem.departing = false) :
    s.headOutcome d = s.classify d := by
  have hr : ¬ s.refusesMembers = true := by
    rw [refusesMembers_iff, hd]
    rcases hm with hm | hm <;> simp [hm]
  rw [headOutcome_sized ⟨h1, h256⟩, if_neg (by simp [hw]), if_neg hr]

theorem Classifier.decide_none {k : Classifier} {d : Descriptor}
    (h : ∀ i : Fin 32, k.entries[i].hits d = false) : k.decide d = none := by
  rw [Classifier.decide, List.find?_eq_none]
  intro e he
  obtain ⟨i, hi, rfl⟩ := List.mem_iff_getElem.1 he
  have := h ⟨i, by simpa using hi⟩
  simpa using this

/-- R8: the first entry that matches decides. -/
theorem Classifier.decide_first {k : Classifier} {d : Descriptor} {i : Fin 32}
    (hi : k.entries[i].hits d = true) (hfirst : ∀ j < i, k.entries[j].hits d = false) :
    k.decide d = some k.entries[i] := by
  rw [Classifier.decide, List.find?_eq_some_iff_getElem]
  refine ⟨hi, i.val, by simp, by simp, fun j hj => ?_⟩
  have := hfirst ⟨j, by omega⟩ hj
  simpa using this

theorem Classifier.classOf_noHint (k : Classifier) {d : Descriptor} (h : d.hint = none) (cl : LifeClass) :
    k.classOf d cl = cl := by
  simp only [Classifier.classOf, h]

theorem Classifier.classOf_hint (k : Classifier) {d : Descriptor} {h : BitVec 3} (hh : d.hint = some h)
    (cl : LifeClass) : k.classOf d cl = k.hintMap[h.toFin] := by
  simp only [Classifier.classOf, hh]

theorem classify_refuse {s : State} {d : Descriptor} {e : ClassEntry} (he : s.cls.decide d = some e)
    (hm : e.mode = .refuse) : s.classify d = .refuse .blocked none := by
  simp only [State.classify, he, hm]

theorem classify_common {s : State} {d : Descriptor} {e : ClassEntry} (he : s.cls.decide d = some e)
    (hm : e.mode = .common) : s.classify d = .accept .common (s.cls.classOf d 0) := by
  simp only [State.classify, he, hm]

/-- R13: a keyed descriptor whose key no context holds brings a new key. -/
theorem classify_newKey {s : State} {d : Descriptor} {e : ClassEntry} {k : Key}
    (he : s.cls.decide d = some e) (hk : formKey e.mode d = some k) (hc : s.str.lookup k = none) :
    s.classify d = .accept (.newKey k) (s.cls.classOf d e.defaultClass) := by
  cases hm : e.mode <;> rw [hm] at hk <;> simp_all [State.classify, formKey]

/-- Settles O15: the classifier's decision by the first entry that matches, its mode and the key. -/
theorem classifierDecidesTheHead : Obligations.ClassifierDecidesTheHead := by
  unfold Obligations.ClassifierDecidesTheHead
  intro d s h1 h256 hw hm hd
  rw [headOutcome_valid h1 h256 hw hm hd]
  have hcommon : ∃ cl, HeadOutcome.accept .common (s.cls.classOf d 0) = .accept .common cl ∧
      (d.hint = none → cl = 0) ∧ (∀ h, d.hint = some h → cl = s.cls.hintMap[h.toFin]) :=
    ⟨_, rfl, fun h => s.cls.classOf_noHint h 0, fun _ h => s.cls.classOf_hint h 0⟩
  refine ⟨fun hno => ?_, fun i hi hfirst => ?_⟩
  · rw [classify_unmatched (Classifier.decide_none hno)]
    exact hcommon
  · have he := Classifier.decide_first hi hfirst
    refine ⟨fun hmode => classify_refuse he hmode, fun hmode => ?_, fun k hk => ⟨fun c hc => ⟨fun hcl => ?_,
      fun hdr hpk => ?_⟩, fun hc => ?_⟩⟩
    · rw [classify_common he hmode]
      exact hcommon
    · rw [classify_held he hk hc, if_pos hcl]
    · rw [classify_held he hk hc, if_neg (not_or.2 ⟨hdr, hpk⟩)]
      exact ⟨_, rfl⟩
    · rw [classify_newKey he hk hc]
      exact ⟨_, rfl, fun h => s.cls.classOf_noHint h _, fun _ h => s.cls.classOf_hint h _⟩

/-! ### The record that leaves (R1, R181, R183) -/

/-- R183: a full notice queue drops the notice, and marks its newest. -/
theorem Faults.post_full {f : Faults} {l : List Notice} {n : Notice} (hl : f.notices = l ++ [n])
    (hfull : 16 ≤ f.notices.length) (b : NoticeBody) :
    f.post b =
      { f with notices := l ++ [{ n with lost := true }], lost := min (f.lost + 1) 65535 } := by
  rw [Faults.post, if_neg (by omega), hl, markLast_append]
  rfl

/-- R181: a record that has left is followed by the next choice. -/
theorem settled_offer_next {s : State} (h : s.intake.offer = none) :
    s.settled.intake.offer =
      (if s.settled.intake.response.isSome then some .response
        else if s.settled.flt.notices ≠ [] then some .notice
        else if s.settled.intake.results ≠ [] then some .result else none) := by
  have hoff : s.settleHead.intake.offer = none := by
    unfold State.settleHead
    dsimp only
    repeat' split
    all_goals exact h
  have hkeep := (works_settleHead s).response
  have hflt : s.settleHead.flt = s.flt := by
    unfold State.settleHead
    dsimp only
    repeat' split
    all_goals rfl
  have hres : s.settleHead.intake.results = s.intake.results := by
    unfold State.settleHead
    dsimp only
    repeat' split
    all_goals rfl
  rw [settled_response, settled_results, settled_flt]
  change s.settledIntake.offer = _
  simp only [State.settledIntake, State.settleOffer, hoff, if_true, State.onIntake_intake, State.nextOffer,
    hkeep, hflt, hres]

theorem takeOffer_offer (s : State) : s.takeOffer.intake.offer = none := by
  unfold State.takeOffer
  split <;> first | assumption | rfl

theorem takeOffer_queue (s : State) : s.takeOffer.intake.queue = s.intake.queue := by
  unfold State.takeOffer
  split <;> rfl

theorem takeOffer_response {s : State} (h : s.intake.offer = some .response) :
    s.takeOffer = s.onIntake fun i => { i with response := none, offer := none } := by
  simp only [State.takeOffer, h]

theorem takeOffer_notice {s : State} (h : s.intake.offer = some .notice) :
    s.takeOffer = (s.onFlt fun f => { f with notices := f.notices.drop 1 }).onIntake fun i =>
      { i with offer := none } := by
  simp only [State.takeOffer, h]

theorem takeOffer_result {s : State} (h : s.intake.offer = some .result) :
    s.takeOffer = s.onIntake fun i => { i with results := i.results.drop 1, offer := none } := by
  simp only [State.takeOffer, h]

/-- Settles O20: a notice by the room of its queue; a record taken by the holding place or queue it
leaves. -/
theorem outboundRecordLeaves : Obligations.OutboundRecordLeaves := by
  unfold Obligations.OutboundRecordLeaves
  refine ⟨fun f b => ⟨fun h => if_pos h, fun l n hl hfull => Faults.post_full hl hfull b⟩, fun s hs => ?_⟩
  refine ⟨_, live_settled _ hs, (settled_queue _).trans (takeOffer_queue s),
    settled_offer_next (takeOffer_offer s), fun h => ?_, fun h => ?_, fun h => ?_⟩
  · rw [takeOffer_response h]
    exact ⟨settled_response _, settled_results _, frame_listed (onIntake_changes s _) (by simp)⟩
  · rw [takeOffer_notice h]
    exact ⟨rfl, frame_kept ((onFlt_changes s _).andThen (onIntake_changes _ _) (by simp) (by simp))
      ⟨rfl, rfl, rfl⟩⟩
  · rw [takeOffer_result h]
    exact ⟨settled_results _, settled_response _, frame_listed (onIntake_changes s _) (by simp)⟩

end Sys2Proof.Machine
end

