-- ==== Sys2Proof/Proofs/ControlRequests.lean ====
section
/-! SUPPORT. Control requests (Chapter 11): the record that fails the first check (R177), the read requests
(R180), SET-CLASSIFIER (R14, R179), RESTORE-SLOT (R108) and CONFIGURE (R121, R122, R178). -/

namespace Sys2Proof.Machine

/-! ### The first check (R177) -/

/-- R177: a record that fails the first check is answered BAD-ARGUMENT and has no effect. -/
theorem control_badRecord {s : State} {code : Nat} {args : List Byte} (act : State → State) (hs : s.ready)
    (hc : firstCheck code args = false) :
    ∃ t, control code args act s = .next t ∧ s.answered t (byteOf code) .badArgument [] ∧
      s.frame t [.intake] := by
  refine ⟨(s.respond code .badArgument).settled, ?_, answered_respond rfl _ _ _,
    frame_listed (respond_changes s _ _ _) (by simp)⟩
  refine (live_settled _ hs.1).trans ?_
  rw [if_neg (by simp [hs.2]), if_neg (by simp [hc])]

/-- R177: while the holding place is occupied no record is taken. -/
theorem control_occupied {s : State} {code : Nat} {args : List Byte} (act : State → State)
    (hr : s.rst = none) (ho : s.intake.response.isSome) :
    ∃ t, control code args act s = .next t ∧ s.frame t [] := by
  refine ⟨s.settled, (live_settled _ hr).trans ?_, frame_idle s⟩
  rw [if_pos ho]

/-- R177: a request that passes and whose action answers an effect outside the intake unit. -/
theorem control_acts {s u : State} {code n : Nat} {args content : List Byte} {act : State → State}
    {st : RespStatus} {l : List Block} (hs : s.ready) (hc : firstCheck code args = true)
    (ha : act s = u.respond n st content) (hu : s.changesOnly u l) (hl : .intake ∉ l) :
    control code args act s = .next (u.respond n st content).settled ∧
      s.answered (u.respond n st content).settled (byteOf n) st content ∧
      s.frame (u.respond n st content).settled (.intake :: l) := by
  refine ⟨?_, answered_respond (hu.1 .intake hl) _ _ _, frame_responded hu _ _ _⟩
  rw [control_next act hs hc, ha]
  rfl

/-- R180: a request whose action is an answer alone. -/
theorem control_reads {s : State} {code : Nat} {args content : List Byte} {act : State → State}
    {st : RespStatus} (hs : s.ready) (hc : firstCheck code args = true)
    (ha : act s = s.respond code st content) :
    ∃ t, control code args act s = .next t ∧ s.answered t (byteOf code) st content ∧
      s.frame t [.intake] := by
  obtain ⟨hnext, hans, hframe⟩ := control_acts hs hc ha (State.changesOnly.refl s []) (by simp)
  exact ⟨_, hnext, hans, hframe⟩

@[simp] theorem byteOf_toNat (b : Byte) : byteOf b.toNat = b := by
  simp [byteOf]

/-- R177: the first check asks for a code from 1 to 15 and its length. -/
theorem firstCheck_badLength {code : Nat} {args : List Byte}
    (h : ∀ n, recordBytes code = some n → n ≠ args.length + 1) : firstCheck code args = false := by
  have hne : recordBytes code ≠ some (args.length + 1) := fun he => h _ he rfl
  simp only [firstCheck, beq_eq_false_iff_ne.2 hne, Bool.false_and]

theorem recordBytes_unknown {code : Nat} (h : code = 0 ∨ 15 < code) : recordBytes code = none := by
  unfold recordBytes
  split <;> first | omega | rfl

/-- Settles O21: a bad record is answered, one that meets an occupied holding place is not taken, and an
unknown code or a wrong length is bad. -/
theorem badControlRecordAnswered : Obligations.BadControlRecordAnswered := by
  unfold Obligations.BadControlRecordAnswered
  intro code args s hr
  refine ⟨fun hresp hc => ?_, fun ho => control_occupied _ hr ho, fun h => ?_⟩
  · obtain ⟨t, hnext, hans, hframe⟩ := control_badRecord (State.actOf code.toNat args) ⟨hr, hresp⟩ hc
    rw [byteOf_toNat] at hans
    exact ⟨t, hnext, hans, hframe⟩
  · refine firstCheck_badLength fun n hn => ?_
    rcases h with h | h | h
    · rw [recordBytes_unknown (.inl h)] at hn
      contradiction
    · rw [recordBytes_unknown (.inr h)] at hn
      contradiction
    · exact h n hn

/-! ### Read requests (R180) -/

theorem slotArg_index (k : Slot) : slotArg [BitVec.ofNat 8 k.val] = some k := by
  have hk : (BitVec.ofNat 8 k.val).toNat = k.val := by
    rw [BitVec.toNat_ofNat]
    omega
  simp only [slotArg, slotOf, hk, k.isLt, dif_pos]

theorem slotArg_outside {b : Byte} (h : 48 ≤ b.toNat) : slotArg [b] = none :=
  dif_neg (by omega)

/-- Settles O27: each read request passes the first check and is its answer alone. -/
theorem readsChangeNothing : Obligations.ReadsChangeNothing := by
  unfold Obligations.ReadsChangeNothing
  intro s hs
  refine ⟨fun c => control_reads hs rfl ?_, fun k => control_reads hs rfl ?_, control_reads hs rfl rfl,
    control_reads hs rfl rfl, control_reads hs rfl rfl⟩
  · simp only [State.actReadStream, ctxOf_index]
  · simp only [State.actReadSlot, slotArg_index]

/-! ### RESTORE-SLOT (R108) -/

theorem actRestoreSlot_quarantined {s : State} {k : Slot} (hm : s.mem.state = .member)
    (hk : s.dir.rep.dir[k] = .quarantined) :
    State.actRestoreSlot [BitVec.ofNat 8 k.val] s = (s.queueFrame (.restore k)).respond 12 .accepted := by
  unfold State.actRestoreSlot
  rw [slotArg_index]
  exact if_pos ⟨hm, hk⟩

theorem actRestoreSlot_wrongState {s : State} {k : Slot}
    (h : s.mem.state ≠ .member ∨ s.dir.rep.dir[k] ≠ .quarantined) :
    State.actRestoreSlot [BitVec.ofNat 8 k.val] s = s.respond 12 .wrongState := by
  unfold State.actRestoreSlot
  rw [slotArg_index]
  exact if_neg (by rw [Decidable.not_and_iff_not_or_not]; exact h)

theorem actRestoreSlot_outside {b : Byte} (h : 48 ≤ b.toNat) (s : State) :
    State.actRestoreSlot [b] s = s.respond 12 .badArgument := by
  unfold State.actRestoreSlot
  rw [slotArg_outside h]
  rfl

/-- Settles O29: RESTORE-SLOT by its three answers. -/
theorem restoreRequested : Obligations.RestoreRequested := by
  unfold Obligations.RestoreRequested
  intro k s hs
  refine ⟨fun hm hk => ?_, fun h => control_answers hs rfl (actRestoreSlot_wrongState h),
    fun b hb => control_answers hs rfl (actRestoreSlot_outside hb s)⟩
  obtain ⟨hnext, hans, hframe⟩ := control_acts (code := 12) (args := [BitVec.ofNat 8 k.val]) hs rfl
    (actRestoreSlot_quarantined hm hk) (queueFrame_changes s _) (by simp)
  exact ⟨_, hnext, hans, Bus.queue_gained s.bus _, hframe⟩

/-! ### SET-CLASSIFIER (R14, R179) -/

/-- R179: the entry that the four bytes of an admissible SET-CLASSIFIER give. -/
def setEntry (f fn ns : Byte) (m : MatchMode) : ClassEntry :=
  { enabled := f.toNat % 2 == 1, function := if 64 ≤ f.toNat % 128 then none else some fn,
    nspace := if 128 ≤ f.toNat then none else some (BitVec.ofNat 4 ns.toNat), mode := m,
    defaultClass := ⟨f.toNat / 16 % 4, Nat.mod_lt _ (by decide)⟩ }

theorem firstCheck_setClassifier (e f fn ns : Byte) :
    firstCheck 2 [e, f, fn, ns] = decide (ns.toNat < 16) := rfl

/-- The ANY bits of the flags byte, bits 6 and 7, as the statement reads them. -/
theorem anyBits (f : Byte) :
    (f.toNat / 64 % 2 == 1) = decide (64 ≤ f.toNat % 128) ∧ (f.toNat / 128 == 1) = decide (128 ≤ f.toNat) := by
  constructor
  · rw [Bool.beq_eq_decide_eq, decide_eq_decide]
    omega
  · rw [Bool.beq_eq_decide_eq, decide_eq_decide]
    omega

theorem setClassifierOf_good {e : Fin 32} {f fn ns : Byte} {m : MatchMode} (hns : ns.toNat < 16)
    (hm : matchModeOf (f.toNat / 2 % 8) = some m) (hfn : 64 ≤ f.toNat % 128 → fn = 0)
    (hany : 128 ≤ f.toNat → ns = 0) :
    setClassifierOf [BitVec.ofNat 8 e.val, f, fn, ns] = some (e, setEntry f fn ns m) := by
  have he : (BitVec.ofNat 8 e.val).toNat = e.val := by
    rw [BitVec.toNat_ofNat]
    omega
  obtain ⟨h6, h7⟩ := anyBits f
  have hclear : ((decide (64 ≤ f.toNat % 128) && fn != 0) || (decide (128 ≤ f.toNat) && ns != 0)) = false := by
    rw [Bool.or_eq_false_iff, Bool.and_eq_false_imp, Bool.and_eq_false_imp]
    exact ⟨fun h => by simp [hfn (by simpa using h)], fun h => by simp [hany (by simpa using h)]⟩
  simp only [setClassifierOf, he, e.isLt, dif_pos, h6, h7, hclear, Bool.false_eq_true, if_false, hm,
    Option.map_some, decide_eq_true_eq, setEntry, Nat.mod_eq_of_lt hns]

theorem matchModeOf_outside {n : Nat} (h : 5 < n) : matchModeOf n = none := by
  unfold matchModeOf
  split <;> first | omega | rfl

theorem setClassifierOf_bad {e f fn ns : Byte}
    (h : 32 ≤ e.toNat ∨ 5 < f.toNat / 2 % 8 ∨ (64 ≤ f.toNat % 128 ∧ fn ≠ 0) ∨ (128 ≤ f.toNat ∧ ns ≠ 0)) :
    setClassifierOf [e, f, fn, ns] = none := by
  obtain ⟨h6, h7⟩ := anyBits f
  simp only [setClassifierOf, h6, h7]
  split
  next he =>
    split
    · rfl
    next hbits =>
      rcases h with h | h | ⟨h, hfn⟩ | ⟨h, hns⟩
      · omega
      · rw [matchModeOf_outside h, Option.map_none]
      · exact absurd (by rw [decide_eq_true h, bne_iff_ne.2 hfn]; rfl) hbits
      · exact absurd (by rw [decide_eq_true h, bne_iff_ne.2 hns]; exact Bool.or_true _) hbits
  · rfl

/-- R14: where SET-CLASSIFIER is admissible it replaces its entry. -/
theorem actSetClassifier_sets {args : List Byte} {i : Fin 32} {x : ClassEntry} {s : State}
    (ha : setClassifierOf args = some (i, x)) (h : s.mem.state = .unconfigured ∨ s.line.mode = .hold) :
    State.actSetClassifier args s =
      (s.onCls fun k => { k with entries := put k.entries i x }).respond 2 .done := by
  unfold State.actSetClassifier
  rw [ha]
  exact if_pos h

theorem actSetClassifier_wrongState {args : List Byte} {i : Fin 32} {x : ClassEntry} {s : State}
    (ha : setClassifierOf args = some (i, x)) (h : s.mem.state ≠ .unconfigured) (hm : s.line.mode = .run) :
    State.actSetClassifier args s = s.respond 2 .wrongState := by
  unfold State.actSetClassifier
  rw [ha]
  exact if_neg (by simp [h, hm])

theorem actSetClassifier_bad {args : List Byte} (ha : setClassifierOf args = none) (s : State) :
    State.actSetClassifier args s = s.respond 2 .badArgument := by
  unfold State.actSetClassifier
  rw [ha]
  rfl

/-- Settles O23: the admissible entry by the state it meets; any other by the check it fails. -/
theorem classifierEntryReplaced : Obligations.ClassifierEntryReplaced := by
  unfold Obligations.ClassifierEntryReplaced
  refine ⟨fun e f fn ns m s hs hns hm hfn hany => ?_, fun e f fn ns s hs h => ?_⟩
  · have ha := setClassifierOf_good (e := e) hns hm hfn hany
    have hc : firstCheck 2 [BitVec.ofNat 8 e.val, f, fn, ns] = true := by
      rw [firstCheck_setClassifier, decide_eq_true hns]
    refine ⟨fun hst => ?_, fun hu hrun => control_answers hs hc (actSetClassifier_wrongState ha hu hrun)⟩
    obtain ⟨hnext, hans, hframe⟩ := control_acts hs hc (actSetClassifier_sets ha hst) (onCls_changes s _)
      (by simp)
    refine ⟨_, setEntry f fn ns m, hnext, ?_, hans, rfl, rfl, rfl, rfl, rfl, rfl, rfl, hframe⟩
    exact (put_get s.cls.entries e e _).symm ▸ (if_pos rfl).symm
  · by_cases hns : ns.toNat < 16
    · refine control_answers hs ?_ (actSetClassifier_bad (setClassifierOf_bad ?_) s)
      · rw [firstCheck_setClassifier, decide_eq_true hns]
      · rcases h with h | h | h | h | h
        · exact .inl h
        · exact .inr (.inl h)
        · exact .inr (.inr (.inl h))
        · exact .inr (.inr (.inr h))
        · omega
    · refine control_badRecord _ hs ?_
      rw [firstCheck_setClassifier, decide_eq_false hns]

/-! ### CONFIGURE (R121, R122, R171, R178) -/

/-- R178: the station configuration that the eleven bytes of an admissible CONFIGURE give. -/
def configOf (b c0 c1 p f i0 i1 dl ct : Byte) : StationCfg :=
  { params := { b := b, c := ofLe16 c0 c1, p := p }, quota := BitVec.ofNat 4 (f.toNat % 16),
    wakeFactor := 2 ^ (f.toNat / 32 % 4),
    pressureMode := if f.toNat / 16 % 2 = 1 then .edge else .level,
    idleMs := (ofLe16 i0 i1).toNat, deadlineMs := dl.toNat,
    closeTimeout := if ct.toNat = 0 then 64 else ct.toNat }

theorem ofLe16_toNat (x y : Byte) : (ofLe16 x y).toNat = x.toNat + 256 * y.toNat := by
  simp only [ofLe16, BitVec.toNat_ofNat]
  omega

theorem firstCheck_configure (b c0 c1 p f i0 i1 dl ct h0 h1 : Byte) :
    firstCheck 1 [b, c0, c1, p, f, i0, i1, dl, ct, h0, h1] = decide (f.toNat < 128) := rfl

theorem configureOf_good {b c0 c1 p f i0 i1 dl ct : Byte} (h0 h1 : Byte) (hb : 8 ≤ b.toNat)
    (hb' : b.toNat ≤ 48) (hc : 1024 ≤ c0.toNat + 256 * c1.toNat) (hp : 1 ≤ p.toNat) (hp' : p.toNat ≤ 16)
    (hq : 1 ≤ f.toNat % 16) (hq' : f.toNat % 16 ≤ 12) (hi : 1 ≤ i0.toNat + 256 * i1.toNat)
    (hi' : i0.toNat + 256 * i1.toNat ≤ 1000) (hd : 1 ≤ dl.toNat) (ht : ct.toNat = 0 ∨ 16 ≤ ct.toNat) :
    configureOf [b, c0, c1, p, f, i0, i1, dl, ct, h0, h1] =
      some (configOf b c0 c1 p f i0 i1 dl ct, hintMapOf (ofLe16 h0 h1)) := by
  refine if_pos ?_
  simp only [ofLe16_toNat]
  exact ⟨hb, hb', hc, hp, hp', hq, hq', hi, hi', hd, ht⟩

theorem configureOf_bad {b c0 c1 p f i0 i1 dl ct : Byte} (h0 h1 : Byte)
    (h : b.toNat < 8 ∨ 48 < b.toNat ∨ c0.toNat + 256 * c1.toNat < 1024 ∨ p.toNat = 0 ∨ 16 < p.toNat ∨
      f.toNat % 16 = 0 ∨ 12 < f.toNat % 16 ∨ i0.toNat + 256 * i1.toNat = 0 ∨
      1000 < i0.toNat + 256 * i1.toNat ∨ dl.toNat = 0 ∨ (ct.toNat ≠ 0 ∧ ct.toNat < 16)) :
    configureOf [b, c0, c1, p, f, i0, i1, dl, ct, h0, h1] = none := by
  refine if_neg ?_
  simp only [ofLe16_toNat]
  omega

/-- The station with its configuration stored, in the state it starts from: what CONFIGURE leaves but for
an onset. -/
def State.started (s : State) (c : StationCfg) (map : Tab 8 LifeClass) : State :=
  (s.storeConfig c map).leaveUnconfigured c

theorem actConfigure_starts {args : List Byte} {c : StationCfg} {map : Tab 8 LifeClass} {s : State}
    (ha : configureOf args = some (c, map)) (h : s.mem.state = .unconfigured) :
    State.actConfigure args s = ((s.started c map).configOnset c).respond 1 .done := by
  unfold State.actConfigure
  rw [ha]
  exact if_pos h

theorem actConfigure_wrongState {args : List Byte} {c : StationCfg} {map : Tab 8 LifeClass} {s : State}
    (ha : configureOf args = some (c, map)) (h : s.mem.state ≠ .unconfigured) :
    State.actConfigure args s = s.respond 1 .wrongState := by
  unfold State.actConfigure
  rw [ha]
  exact if_neg h

theorem actConfigure_bad {args : List Byte} (ha : configureOf args = none) (s : State) :
    State.actConfigure args s = s.respond 1 .badArgument := by
  unfold State.actConfigure
  rw [ha]
  rfl

/-- R122: after a power-on or drive reset the station is in CENSUS, with its ROLL queued. -/
theorem started_census {s : State} {c : StationCfg} {map : Tab 8 LifeClass}
    (h : s.mem.lastReset = .powerOnOrDrive) :
    s.started c map =
      ((s.storeConfig c map).enter .census).queueFrame (.roll s.mem.stn c.quota s.mem.adoptDis c.params) := by
  have h' : (s.storeConfig c map).mem.lastReset = .powerOnOrDrive := h
  simp only [State.started, State.leaveUnconfigured, h']
  rfl

/-- R122: after a station reset the station is in LISTEN. -/
theorem started_listen {s : State} {c : StationCfg} {map : Tab 8 LifeClass}
    (h : s.mem.lastReset = .station) : s.started c map = (s.storeConfig c map).startListen := by
  have h' : (s.storeConfig c map).mem.lastReset = .station := h
  simp only [State.started, State.leaveUnconfigured, h']

theorem storeConfig_changes (s : State) (c : StationCfg) (map : Tab 8 LifeClass) :
    s.changesOnly (s.storeConfig c map) [.cls, .mem] :=
  (onMem_changes s _).andThen (onCls_changes _ _) (by simp) (by simp)

theorem started_changes (s : State) (c : StationCfg) (map : Tab 8 LifeClass) :
    s.changesOnly (s.started c map) [.cls, .bus, .mem, .flt] := by
  cases h : s.mem.lastReset with
  | powerOnOrDrive =>
    rw [started_census h]
    exact ((storeConfig_changes s c map).andThen (enter_changes _ _) (n := [.cls, .bus, .mem, .flt]) (by simp)
      (by simp)).andThen (queueFrame_changes _ _) (by simp) (by simp)
  | station =>
    rw [started_listen h]
    exact (storeConfig_changes s c map).andThen (startListen_changes _) (by simp) (by simp)

/-- The state that CONFIGURE leads to (R122). -/
def LastReset.next : LastReset → MemberState
  | .powerOnOrDrive => .census
  | .station => .listen

theorem started_state (s : State) (c : StationCfg) (map : Tab 8 LifeClass) :
    (s.started c map).mem.state = s.mem.lastReset.next ∧ (s.started c map).mem.cfg = some c ∧
      (s.started c map).cls = { s.cls with hintMap := map } ∧
      (s.started c map).flt = s.flt.post (.membership s.mem.lastReset.next s.mem.attempts) := by
  cases h : s.mem.lastReset with
  | powerOnOrDrive =>
    rw [started_census h]
    exact ⟨rfl, rfl, rfl, rfl⟩
  | station =>
    rw [started_listen h]
    exact ⟨rfl, rfl, rfl, rfl⟩

/-- A notice changes the notice queue and its loss count alone. -/
theorem Faults.post_only (f : Faults) (b : NoticeBody) :
    f.post b = { f with notices := (f.post b).notices, lost := (f.post b).lost } := by
  unfold Faults.post
  split <;> rfl

/-- R57: outside MEMBER and CATCHUP a policy pass does nothing. -/
theorem policyPass_idle {s : State} (hm : s.mem.state ≠ .member) (hc : s.mem.state ≠ .catchup)
    (skip : List Ctx) : s.policyPass skip = s :=
  if_neg (not_or.2 ⟨hm, hc⟩)

/-- R171, R173: an onset outside MEMBER and CATCHUP is its line, its count and its notice. -/
theorem onset_idle {s : State} (hm : s.mem.state ≠ .member) (hc : s.mem.state ≠ .catchup) :
    s.onset = (s.onLine fun l =>
      { l with pressure := true, episodes := min (l.episodes + 1) 65535 }).post
        (.pressure true (min (s.line.episodes + 1) 65535)) := by
  unfold State.onset
  dsimp only
  rw [policyPass_idle (by exact hm) (by exact hc), evalPressure_notMember (by exact hm)]
  rfl

/-- R171: whether CONFIGURE finds an onset. -/
def State.findsOnset (s : State) (c : StationCfg) : Bool :=
  c.pressureMode == .level && s.line.pressureLine && !s.line.pressure

theorem configOnset_idle {s : State} (c : StationCfg) (hm : s.mem.state ≠ .member)
    (hc : s.mem.state ≠ .catchup) :
    s.configOnset c =
      if s.findsOnset c then
        (s.onLine fun l => { l with pressure := true, episodes := min (l.episodes + 1) 65535 }).post
          (.pressure true (min (s.line.episodes + 1) 65535))
      else s := by
  unfold State.configOnset
  rw [onset_idle hm hc]
  refine if_congr ?_ rfl rfl
  simp [State.findsOnset, and_assoc]

/-- What CONFIGURE leaves: the station started, with the onset that the line asks for. -/
def State.configured (s : State) (c : StationCfg) (map : Tab 8 LifeClass) : State :=
  if s.findsOnset c then
    ((s.started c map).onLine fun l =>
      { l with pressure := true, episodes := min (l.episodes + 1) 65535 }).post
        (.pressure true (min (s.line.episodes + 1) 65535))
  else s.started c map

theorem started_configOnset (s : State) (c : StationCfg) (map : Tab 8 LifeClass) :
    (s.started c map).configOnset c = s.configured c map := by
  obtain ⟨hstate, -, -, -⟩ := started_state s c map
  have hline : (s.started c map).line = s.line := (started_changes s c map).1 .line (by simp)
  have hnext (m : LastReset) : m.next ≠ .member ∧ m.next ≠ .catchup := by cases m <;> decide
  rw [configOnset_idle c (by rw [hstate]; exact (hnext _).1) (by rw [hstate]; exact (hnext _).2)]
  unfold State.configured State.findsOnset
  rw [hline]

theorem configured_changes (s : State) (c : StationCfg) (map : Tab 8 LifeClass) :
    s.changesOnly (s.configured c map) [.cls, .bus, .mem, .line, .flt] := by
  unfold State.configured
  split
  · exact ((started_changes s c map).andThen (onLine_changes _ _) (n := [.cls, .bus, .mem, .line, .flt])
      (by simp) (by simp)).andThen (onFlt_changes _ _) (by simp) (by simp)
  · exact (started_changes s c map).mono (by simp)

/-- The onset leaves the membership controller, the classifier and the bus controller. -/
theorem configured_kept (s : State) (c : StationCfg) (map : Tab 8 LifeClass) :
    (s.configured c map).mem = (s.started c map).mem ∧ (s.configured c map).cls = (s.started c map).cls ∧
      (s.configured c map).bus = (s.started c map).bus := by
  unfold State.configured
  split <;> exact ⟨rfl, rfl, rfl⟩

theorem configured_line (s : State) (c : StationCfg) (map : Tab 8 LifeClass) :
    (s.configured c map).line = { s.line with
      pressure := s.line.pressure || s.findsOnset c,
      episodes := if s.findsOnset c then min (s.line.episodes + 1) 65535 else s.line.episodes } := by
  have hline : (s.started c map).line = s.line := (started_changes s c map).1 .line (by simp)
  unfold State.configured
  cases h : s.findsOnset c with
  | true =>
    simp only [if_true, State.post_eq, State.onFlt_line, State.onLine_line, hline, Bool.or_true]
  | false => simp only [Bool.false_eq_true, if_false, hline, Bool.or_false]

theorem configured_flt (s : State) (c : StationCfg) (map : Tab 8 LifeClass) :
    (s.configured c map).flt =
      { s.flt with notices := (s.configured c map).flt.notices, lost := (s.configured c map).flt.lost } := by
  obtain ⟨-, -, -, hflt⟩ := started_state s c map
  have hkept := Faults.post_only s.flt (.membership s.mem.lastReset.next s.mem.attempts)
  unfold State.configured
  cases s.findsOnset c with
  | true =>
    simp only [if_true, State.post_eq, State.onFlt_flt, State.onLine_flt, hflt]
    rw [Faults.post_only, hkept]
  | false =>
    simp only [Bool.false_eq_true, if_false, hflt]
    exact hkept

/-- R173: the PRESSURE notice of the onset stands behind the MEMBERSHIP notice. -/
theorem configured_notice {s : State} {c : StationCfg} (map : Tab 8 LifeClass)
    (h : s.findsOnset c = true) (hn : s.flt.notices.length < 15) :
    { body := .pressure true (min (s.line.episodes + 1) 65535), lost := false } ∈
      (s.configured c map).flt.notices := by
  obtain ⟨-, -, -, hflt⟩ := started_state s c map
  unfold State.configured
  simp only [h, if_true, State.post_eq, State.onFlt_flt, State.onLine_flt, hflt]
  rw [Faults.post_room (by rw [Faults.post_room (by omega), List.length_append, List.length_singleton]; omega)]
  exact List.mem_append_right _ (List.mem_singleton.2 rfl)

/-- A withdrawal finds nothing where nothing waits. -/
theorem Bus.withdraw_empty {b : Bus} (htx : b.tx = []) (hheld : b.held = []) (p : QFrame → Bool) :
    (b.withdraw p).tx = [] ∧ (b.withdraw p).held = [] := by
  cases hs : b.sending <;> simp [Bus.withdraw, hs, htx, hheld]

/-- R122: the ROLL of a station in CENSUS is queued; where nothing waited it is the only frame. -/
theorem started_roll {s : State} {c : StationCfg} (map : Tab 8 LifeClass)
    (h : s.mem.lastReset = .powerOnOrDrive) :
    (s.started c map).bus.carries (.roll s.mem.stn c.quota s.mem.adoptDis c.params) ∧
      (s.bus.tx = [] → s.bus.held = [] → (s.started c map).bus.held = [] ∧ (s.started c map).bus.tx =
        [{ dest := none, body := .roll s.mem.stn c.quota s.mem.adoptDis c.params }]) := by
  rw [started_census h]
  refine ⟨Bus.gained_carries (Bus.queue_gained _ _), fun htx hheld => ?_⟩
  have hempty : ((s.storeConfig c map).enter .census).bus.tx = [] ∧
      ((s.storeConfig c map).enter .census).bus.held = [] := by
    change (s.bus.withdraw _).tx = [] ∧ (s.bus.withdraw _).held = []
    exact Bus.withdraw_empty htx hheld _
  have hq := Bus.queue_gained ((s.storeConfig c map).enter .census).bus
    { dest := none, body := .roll s.mem.stn c.quota s.mem.adoptDis c.params }
  rw [Bus.gained, hempty.1, hempty.2, if_pos ⟨by simp, rfl⟩] at hq
  exact ⟨hq.2, hq.1⟩

theorem started_listenTimer {s : State} {c : StationCfg} (map : Tab 8 LifeClass)
    (h : s.mem.lastReset = .station) :
    (s.started c map).mem.listenTimer = some (c.wakeFactor * (4 * c.params.p.toNat)) := by
  rw [started_listen h]
  rfl

/-- R121, R122: what stands when an admissible CONFIGURE ends. -/
theorem configured_stands (s : State) (b c0 c1 p f i0 i1 dl ct h0 h1 : Byte) :
    let cfg := configOf b c0 c1 p f i0 i1 dl ct
    let t := s.configured cfg (hintMapOf (ofLe16 h0 h1))
    t.mem.cfg = some cfg ∧
      (∀ k : Fin 8, (t.cls.hintMap[k]).val = (h0.toNat + 256 * h1.toNat) / 4 ^ k.val % 4) ∧
      t.cls.entries = s.cls.entries ∧ t.mem.state = s.mem.lastReset.next := by
  intro cfg t
  obtain ⟨hmem, hcls, -⟩ := configured_kept s cfg (hintMapOf (ofLe16 h0 h1))
  obtain ⟨hstate, hcfg, hc, -⟩ := started_state s cfg (hintMapOf (ofLe16 h0 h1))
  refine ⟨by rw [hmem, hcfg], fun k => ?_, by rw [hcls, hc], by rw [hmem, hstate]⟩
  rw [hcls, hc]
  change ((hintMapOf (ofLe16 h0 h1))[k]).val = _
  simp [hintMapOf, ofLe16_toNat]

/-- Settles O22: an admissible CONFIGURE by the state it meets, any other by the check it fails. -/
theorem configureTaken : Obligations.ConfigureTaken := by
  unfold Obligations.ConfigureTaken
  refine ⟨fun b c0 c1 p f i0 i1 dl ct h0 h1 s hs hf hb hb' hc hp hp' hq hq' hi hi' hd ht => ?_,
    fun b c0 c1 p f i0 i1 dl ct h0 h1 s hs h => ?_⟩
  · have ha := configureOf_good h0 h1 hb hb' hc hp hp' hq hq' hi hi' hd ht
    have hfc : firstCheck 1 [b, c0, c1, p, f, i0, i1, dl, ct, h0, h1] = true := by
      rw [firstCheck_configure, decide_eq_true hf]
    refine ⟨fun hu => ?_, fun hu => control_answers hs hfc (actConfigure_wrongState ha hu)⟩
    have hact := actConfigure_starts ha hu
    rw [started_configOnset] at hact
    obtain ⟨hnext, hans, hframe⟩ := control_acts hs hfc hact (configured_changes s _ _) (by simp)
    obtain ⟨hcfg, hmap, hent, hstate⟩ := configured_stands s b c0 c1 p f i0 i1 dl ct h0 h1
    obtain ⟨hmem, -, hbus⟩ :=
      configured_kept s (configOf b c0 c1 p f i0 i1 dl ct) (hintMapOf (ofLe16 h0 h1))
    have hquota : (configOf b c0 c1 p f i0 i1 dl ct).quota.toNat = f.toNat % 16 := by
      simp only [configOf, BitVec.toNat_ofNat]
      omega
    refine ⟨_, configOf b c0 c1 p f i0 i1 dl ct, hnext, hcfg, hans, rfl, ofLe16_toNat c0 c1, rfl, hquota, rfl,
      rfl, ofLe16_toNat i0 i1, rfl, rfl, hmap, hent, ?_, fun hl => ?_, fun hl => ?_, fun on n hon hn => ?_,
      configured_flt s _ _, hframe⟩
    · refine hstate.trans ?_
      cases s.mem.lastReset <;> rfl
    · exact (congrArg Members.listenTimer hmem).trans (started_listenTimer _ hl)
    · have hroll := started_roll (s := s) (c := configOf b c0 c1 p f i0 i1 dl ct)
        (hintMapOf (ofLe16 h0 h1)) hl
      rw [← hbus] at hroll
      exact hroll
    · subst hon hn
      exact ⟨configured_line s _ _, fun h hroom => configured_notice _ h hroom⟩
  · by_cases hf : f.toNat < 128
    · refine control_answers hs ?_ (actConfigure_bad (configureOf_bad h0 h1 ?_) s)
      · rw [firstCheck_configure, decide_eq_true hf]
      · omega
    · refine control_badRecord _ hs ?_
      rw [firstCheck_configure, decide_eq_false hf]

end Sys2Proof.Machine
end

