-- ==== Sys2Proof/Proofs/Resets.lean ====
section
/-! SUPPORT. Resets (R167, R175, R176, R187): their beginning and their end. -/

namespace Sys2Proof.Machine

/-- R167: a reset begins by its line with the station blanked (log entry 31). -/
theorem startReset_blanks (s : State) (k : ResetKind) :
    (s.startReset k).intake = Intake.reset ∧ (s.startReset k).str = Streams.reset ∧
      (s.startReset k).link.state = .portWait ∧ (s.startReset k).flt = { s.flt with notices := [] } ∧
      (s.startReset k).pending = s.pending :=
  ⟨rfl, rfl, rfl, rfl, rfl⟩

/-- R167: power-on reset stands, and DRIVE_RST makes a station reset a drive reset. -/
theorem ResetKind.join_drive (o : Option ResetKind) :
    ResetKind.join o .drive = if o = some .powerOn then .powerOn else .drive := by
  rcases o with _ | k
  · rfl
  · cases k <;> rfl

theorem ResetKind.join_station (o : Option ResetKind) :
    ResetKind.join o .station = match o with | some k => k | none => .station := by
  rcases o with _ | k
  · rfl
  · cases k <;> rfl

theorem ResetKind.join_powerOn (o : Option ResetKind) : ResetKind.join o .powerOn = .powerOn := by
  rcases o with _ | k
  · rfl
  · cases k <;> rfl

theorem ResetKind.last_eq (k : ResetKind) : k.last = if k = .station then .station else .powerOnOrDrive := by
  cases k <;> rfl

/-- R187: the fault capture unit survives a station reset alone, with an empty notice queue. -/
theorem Faults.afterReset_eq (f : Faults) (k : ResetKind) :
    (k = .station → f.afterReset k = { f with notices := [] }) ∧
      (k ≠ .station → f.afterReset k = Faults.reset) := by
  cases k <;> simp [Faults.afterReset]

/-- Settles O60: a reset's beginning by the kind that then stands, its end by the reset value of each
block. -/
theorem resetsTaken : Obligations.ResetsTaken := by
  unfold Obligations.ResetsTaken
  intro s
  have begins (k : ResetKind) := startReset_blanks s k
  refine ⟨⟨_, rfl, congrArg some (ResetKind.join_powerOn s.rst), ?_⟩,
    ⟨_, rfl, ?_, ?_⟩, ⟨_, rfl, congrArg some (ResetKind.join_station s.rst), begins .station⟩,
    fun k stn a hk => ⟨_, execResetEnd_during hk stn a, rfl, rfl, rfl, rfl, rfl, rfl, rfl, rfl, rfl, rfl, ?_,
      Faults.afterReset_eq s.flt k⟩⟩
  · obtain ⟨hi, hs, hl, -, hp⟩ := begins .powerOn
    exact ⟨hi, hs, hl, hp⟩
  · exact congrArg some (ResetKind.join_drive s.rst)
  · obtain ⟨hi, hs, hl, -, hp⟩ := begins .drive
    exact ⟨hi, hs, hl, hp⟩
  · rw [← ResetKind.last_eq]
    rfl

end Sys2Proof.Machine
end

