-- ==== Sys2Proof/Proofs/Receptions.lean ====
section
/-! SUPPORT. Receptions (R78, R81, R83, R85, R89, R90, R93): where they begin, and what their end writes. -/

namespace Sys2Proof.Machine

/-! ### The parts of a reception's end -/

/-- R85: the lost-after mark is set on the youngest entry. -/
theorem markLost_append (l : List RxEntry) (y : RxEntry) :
    markLost (l ++ [y]) = l ++ [{ y with lostAfter := true }] := by
  induction l with
  | nil => rfl
  | cons x l ih => cases l <;> simp_all [markLost]

theorem Bus.write_room {b : Bus} (h : b.rx.length < 4) (e : RxEntry) :
    b.write e = { b with rx := b.rx ++ [e] } := if_pos h

theorem Bus.write_full {b : Bus} {l : List RxEntry} {y : RxEntry} (h : 4 ≤ b.rx.length)
    (hb : b.rx = l ++ [y]) (e : RxEntry) :
    b.write e = { b with rx := l ++ [{ y with lostAfter := true }] } := by
  rw [Bus.write, if_neg (by omega), hb, markLost_append]

/-- R85: a written entry changes the receive queue alone. -/
theorem Bus.write_only (b : Bus) (e : RxEntry) : b.write e = { b with rx := (b.write e).rx } := by
  unfold Bus.write
  split <;> rfl

/-- R93: a reception's end changes the last-heard table alone, in its sender's place. -/
theorem Bus.hear_only (b : Bus) (me : Station) (e : Ending) :
    b.hear me e = { b with heard := (b.hear me e).heard } := by
  unfold Bus.hear
  split <;> (try split) <;> rfl

theorem Bus.hear_other {b : Bus} {me st : Station} {e : Ending}
    (h : ∀ f, e = .clean f → st ≠ f.sender ∨ st = me) : (b.hear me e).heard[st] = b.heard[st] := by
  cases e with
  | clean f =>
    simp only [Bus.hear]
    split
    · rfl
    next hme =>
      have hne : st ≠ f.sender := by
        rcases h f rfl with h | rfl
        · exact h
        · exact fun he => hme he.symm
      exact (put_get _ _ _ _).trans (if_neg hne)
  | checkError => rfl
  | aborted => rfl
  | overlong => rfl

/-- R93: a CLEAN frame of another station restarts its sender's last-heard record. -/
theorem Bus.hear_sender {b : Bus} {me : Station} {f : Frame} (h : f.sender ≠ me) :
    (b.hear me (.clean f)).heard[f.sender] =
      { time := 0, beacon := beaconInfo b.heard[f.sender].beacon f.body, reported := false } := by
  simp only [Bus.hear, if_neg h]
  exact (put_get _ _ _ _).trans (if_pos rfl)

theorem MemberState.writes_iff (m : MemberState) :
    m.writes = true ↔ m = .census ∨ m = .listen ∨ m = .joining ∨ m = .catchup ∨ m = .member := by
  cases m <;> simp [MemberState.writes]

theorem MemberState.not_writes_iff (m : MemberState) :
    m.writes = false ↔ m = .unconfigured ∨ m = .isolated ∨ m = .barred ∨ m = .dormant := by
  cases m <;> simp [MemberState.writes]

theorem Ending.forOther_iff (me : Station) (e : Ending) :
    e.forOther me = true ↔ ∃ f st, e = .clean f ∧ f.dest = some st ∧ st ≠ me := by
  cases e with
  | clean f => cases hd : f.dest <;> simp [Ending.forOther, hd]
  | checkError => simp [Ending.forOther]
  | aborted => simp [Ending.forOther]
  | overlong => simp [Ending.forOther]

/-! ### The bus controller after a reception -/

/-- R83: whether the entry of a reception that ends is the station's own. -/
theorem Bus.isOwn_eq (b : Bus) :
    b.isOwn = (b.ownEnding || b.sending.any (·.readback == .reading)) := rfl

/-- What a reception's end leaves as it is, and what it always sets. -/
theorem Bus.endReception_eq (b : Bus) (m : MemberState) (me : Station) (bits : List Bool) (e : Ending)
    (again : Bool) :
    (b.endReception m me bits e again).receiver = (if again then .receiving 0 else .hunt) ∧
      (b.endReception m me bits e again).ownEnding = false ∧
      (b.endReception m me bits e again).tx = b.tx ∧
      (b.endReception m me bits e again).sending = b.sending.map (·.readTo bits) ∧
      (b.endReception m me bits e again).heard = (b.hear me e).heard := by
  refine ⟨rfl, rfl, ?_, rfl, ?_⟩
  · unfold Bus.endReception
    dsimp only
    split
    · rw [Bus.write_only, Bus.hear_only]
    · rw [Bus.hear_only]
  · unfold Bus.endReception
    dsimp only
    split
    · rw [Bus.write_only]
    · rfl

/-- R85: the entry written, where the membership state writes one and the frame is for this station. -/
theorem Bus.endReception_writes {b : Bus} {m : MemberState} {me : Station} {e : Ending}
    (hm : m.writes = true) (he : e.forOther me = false) (bits : List Bool) (again : Bool) :
    (b.endReception m me bits e again).rx =
      (b.write { status := e, lostAfter := false, own := b.isOwn }).rx := by
  have hrx : (b.hear me e).rx = b.rx := by rw [Bus.hear_only]
  simp only [Bus.endReception, hm, he, Bool.not_false, Bool.and_self, if_true]
  rw [Bus.write, Bus.write, hrx]
  split <;> rfl

theorem Bus.endReception_unwritten {b : Bus} {m : MemberState} {me : Station} {e : Ending}
    (h : m.writes = false ∨ e.forOther me = true) (bits : List Bool) (again : Bool) :
    (b.endReception m me bits e again).rx = b.rx := by
  have hn : (m.writes && !e.forOther me) = false := by
    rcases h with h | h <;> simp [h]
  simp only [Bus.endReception, hn, Bool.false_eq_true, if_false]
  rw [Bus.hear_only]

/-- R89: the bits compared are the stuffed frame and the first bit of the closing delimiter. -/
theorem Frame.comparedBits_eq (f : Frame) :
    f.comparedBits = stuffFrom false 0 (f.bytes.flatMap byteBits) ++ [false] := by
  have hclosing : closingDelimiter = [false] ++ List.replicate 6 true := rfl
  rw [Frame.comparedBits, Frame.lineBits, hclosing, ← List.append_assoc]
  exact List.take_left' (by simp)

/-- R83, R89: the first ending of a transmission is its own, and tells whether it was read as driven. -/
theorem Sending.readTo_closing {sg : Sending} {bits : List Bool} (h : sg.readback = .reading) :
    (sg.readTo bits).readback ≠ .reading ∧ ((sg.readTo bits).readback = .closing ↔ ∃ l, bits =
      stuffFrom false 0 (sg.frame.bytes.flatMap byteBits) ++ false :: l) := by
  have hu : sg.unread = true := by rw [Sending.unread, h]; rfl
  have hprefix : sg.frame.comparedBits.isPrefixOf bits = true ↔ ∃ l, bits =
      stuffFrom false 0 (sg.frame.bytes.flatMap byteBits) ++ false :: l := by
    rw [List.isPrefixOf_iff_prefix, Frame.comparedBits_eq]
    constructor
    · rintro ⟨l, rfl⟩
      exact ⟨l, by rw [List.append_assoc]; rfl⟩
    · rintro ⟨l, rfl⟩
      exact ⟨l, by rw [List.append_assoc]; rfl⟩
  rw [← hprefix]
  cases hp : sg.frame.comparedBits.isPrefixOf bits <;> simp [Sending.readTo, hu, hp]

theorem Sending.readTo_read {sg : Sending} (bits : List Bool) (h : sg.readback ≠ .reading) :
    sg.readTo bits = sg := by
  have hu : ¬ sg.unread = true := by rw [Sending.unread, beq_iff_eq]; exact h
  exact if_neg hu

theorem Sending.readTo_only (sg : Sending) (bits : List Bool) :
    sg.readTo bits = { sg with readback := (sg.readTo bits).readback } := by
  unfold Sending.readTo
  split <;> rfl

/-! ### The statement -/

/-- R83: RECEPTION-END, where a reception is in progress and its bits come to an end. -/
theorem exec_receptionEnd {s : State} {n : Nat} {bits : List Bool} {e : Ending} {again : Bool}
    (hs : s.rst = none) (hr : s.bus.receiver = .receiving n) (hb : receive bits = some (e, again)) :
    exec (.receptionEnd bits) s =
      .next (s.onBus (·.endReception s.mem.state s.me bits e again)).settled := by
  change execReceptionEnd bits s = _
  unfold execReceptionEnd
  rw [live_settled _ hs]
  simp only [hr, hb]

theorem exec_openingDelimiterRead {s : State} (hs : s.rst = none) (hr : s.bus.receiver = .hunt) :
    exec .openingDelimiterRead s = .next
      (s.onBus fun b => { b with receiver := .receiving 0, yieldOwed := false, mediumBusy := true }).settled := by
  change execOpeningDelimiterRead s = _
  unfold execOpeningDelimiterRead
  rw [live_settled _ hs]
  simp only [hr]

/-- Settles O36: the beginning by its update, the end by what it writes, reads back and hears. -/
theorem receptionsBeginAndEnd : Obligations.ReceptionsBeginAndEnd := by
  unfold Obligations.ReceptionsBeginAndEnd
  refine ⟨fun s hs hr => ⟨_, exec_openingDelimiterRead hs hr, rfl,
    frame_of_changes (onBus_changes s _) (by simp)⟩, fun n bits e again s hs hr hb => ?_⟩
  obtain ⟨hrec, hend, htx, hsend, hheard⟩ := Bus.endReception_eq s.bus s.mem.state s.mem.stn bits e again
  refine ⟨_, exec_receptionEnd hs hr hb, hrec, hend, htx, fun h => ?_, fun sg h => ?_, fun hm hf => ?_,
    fun h => ?_, fun f he hf => ?_, fun st hst => ?_, frame_of_changes (onBus_changes s _) (by simp)⟩
  · exact hsend.trans (by rw [h]; rfl)
  · refine ⟨(sg.readTo bits).readback, hsend.trans ?_, ?_⟩
    · rw [h, Option.map_some, ← Sending.readTo_only]
    · by_cases hread : sg.readback = .reading
      · obtain ⟨hne, hiff⟩ := Sending.readTo_closing (bits := bits) hread
        exact ⟨hne, fun h => absurd hread h, fun _ => hiff⟩
      · rw [Sending.readTo_read bits hread]
        exact ⟨hread, fun _ => rfl, fun h => absurd h hread⟩
  · have hother : e.forOther s.mem.stn = false := by
      rw [Bool.eq_false_iff, Ne, Ending.forOther_iff]
      rintro ⟨f, st, he, hd, hne⟩
      exact hne (hf f st he hd)
    have hrx := Bus.endReception_writes (b := s.bus) ((MemberState.writes_iff _).2 hm) hother bits again
    refine ⟨fun hroom => hrx.trans ?_, fun hfull l y hl => hrx.trans ?_⟩
    · rw [Bus.write_room hroom]
      rfl
    · rw [Bus.write_full hfull hl]
  · refine Bus.endReception_unwritten ?_ bits again
    exact h.imp (MemberState.not_writes_iff _).2 (Ending.forOther_iff _ _).2
  · subst he
    have hh := Bus.hear_sender (b := s.bus) hf
    rw [← hheard] at hh
    refine ⟨congrArg Heard.time hh, fun st g cu m hbody => (congrArg Heard.beacon hh).trans ?_⟩
    rw [hbody]
    rfl
  · have hh := Bus.hear_other (b := s.bus) hst
    rw [← hheard] at hh
    exact hh

end Sys2Proof.Machine
end

