-- ==== Sys2Proof/Proofs/TakenFrames.lean ====
section
/-! SUPPORT. The head of the receive queue taken (R84, R89): a CLEAN frame that hides no loss, its kind's
action, and the completion of the station's own transmission that its own frame brings (log entry 12). -/

namespace Sys2Proof.Machine

/-! ### The action of a kind -/

/-- What the taking of a CLEAN frame of a kind does with it, once the entry has left the receive queue. -/
def Kind.take : Kind → Bool → Frame → State → State
  | .roll => takeRoll
  | .seal => takeSeal
  | .beacon => takeBeacon
  | .join => takeJoin
  | .recall => takeRecall
  | .defer => takeDefer
  | .catchupAsk => takeCatchupAsk
  | .catchupOffer => takeCatchupOffer
  | .snapshot => takeSnapshot
  | .snapshotEnd => takeSnapshot
  | .leave | .absent | .claim | .shut | .shutDone | .restore | .takeover | .takeoverEnd =>
    fun _ f s => s.takeDirectory f

/-- Each frame command takes a CLEAN head of its kind. -/
theorem exec_takesKind {c : Instr} {k : Kind} (h : c.takesKind = some k) (s : State) :
    exec c s = takeClean k k.take s := by
  cases c <;> simp only [Instr.takesKind, Option.some.injEq, reduceCtorEq] at h <;> subst h <;> rfl

/-! ### The station as it takes the head -/

/-- R84, R89: the head has left the receive queue, and an own frame has ended its transmission. -/
def State.taken (s : State) (own : Bool) : State := if own then s.popRx.completeTx else s.popRx

theorem takeClean_takes {s : State} {own : Bool} {f : Frame} {rest : List RxEntry} {k : Kind}
    (h : s.takes own f rest) (hk : f.body.kind = k) (act : Bool → Frame → State → State) :
    takeClean k act s = .next (act own f (s.taken own)).settled := by
  obtain ⟨hrst, hrx⟩ := h
  unfold takeClean
  rw [live_settled _ hrst]
  simp only [hrx, hk, and_self, if_true]
  rfl

/-- R84: a command that takes the head's kind makes that kind's action and brings the intake unit up to
date. -/
theorem exec_takes {c : Instr} {s : State} {own : Bool} {f : Frame} {rest : List RxEntry}
    (hc : c.takesKind = some f.body.kind) (h : s.takes own f rest) :
    exec c s = .next (f.body.kind.take own f (s.taken own)).settled := by
  rw [exec_takesKind hc, takeClean_takes h rfl]

/-- The entry of a frame that ends no transmission leaves the receive queue, and nothing else. -/
theorem taken_plain {s : State} {own : Bool} (h : own = true → s.bus.sending = none) :
    s.taken own = s.popRx := by
  cases own with
  | false => rfl
  | true =>
    have hs : s.popRx.bus.sending = none := h rfl
    simp only [State.taken, if_true, State.completeTx, hs]

theorem popRx_eq {s : State} {e : RxEntry} {rest : List RxEntry} (h : s.bus.rx = e :: rest) :
    s.popRx = { s with bus := { s.bus with rx := rest } } := by
  simp only [State.popRx, State.onBus, h, List.drop_one, List.tail_cons]

theorem popRx_changes (s : State) : s.changesOnly s.popRx [.bus] := onBus_changes s _

/-! ### The completion of a transmission (R89, R92, R134, R136) -/

theorem completeTx_idle {s : State} (h : s.bus.sending = none) : s.completeTx = s := by
  simp only [State.completeTx, h]

/-- R89, R92: what a completion does to the bus controller. -/
def Bus.completed (b : Bus) (full : Nat) : Bus :=
  { b.popTx.endAttempt with beacon := b.beacon.restart full }

theorem completeTx_sending {s : State} {sg : Sending} (h : s.bus.sending = some sg) :
    s.completeTx = (((s.onBus (·.completed s.pTicks)).markSent sg.frame.body).servingSent
      sg.frame.body).enterJoining sg.frame.body := by
  simp only [State.completeTx, h]
  rfl

/-- R134: a completion marks the extension of the slot that a SHUT or SHUT-DONE names, and no more. -/
theorem markSent_cases (s : State) (b : Body) :
    s.markSent b = s ∨ ∃ (k : Slot) (x : Ext) (sent : Bool) (rep : Option ShutOutcome),
      s.dir.ext[k] = some x ∧
        s.markSent b = s.setExt k (some { x with shutSent := sent, reportSent := rep }) := by
  have onExt_cases (k : Slot) (g : Ext → Bool) (r : Ext → Option ShutOutcome) :
      s.onExt k (fun x => { x with shutSent := g x, reportSent := r x }) = s ∨
        ∃ (j : Slot) (x : Ext) (sent : Bool) (rep : Option ShutOutcome), s.dir.ext[j] = some x ∧
          s.onExt k (fun x => { x with shutSent := g x, reportSent := r x }) =
            s.setExt j (some { x with shutSent := sent, reportSent := rep }) := by
    cases hx : s.dir.ext[k] with
    | none => exact .inl (by simp only [State.onExt, hx])
    | some x => exact .inr ⟨k, x, g x, r x, hx, by simp only [State.onExt, hx]⟩
  cases b with
  | shut k c a => exact onExt_cases k _ (fun x => x.reportSent)
  | shutDone k o => exact onExt_cases k (fun x => x.shutSent) _
  | _ => exact .inl rfl

theorem servingSent_cases (s : State) (b : Body) :
    s.servingSent b = s ∨
      s.servingSent b = s.onDir fun d => { d with serving := none, snap := [] } := by
  cases b <;> first | exact .inl rfl | exact .inr rfl

/-- R120: a completion enters no JOINING but from LISTEN, with the JOIN. -/
theorem enterJoining_kept {s : State} {b : Body} (h : b.kind ≠ .join ∨ s.mem.state ≠ .listen) :
    s.enterJoining b = s := by
  refine if_neg fun hj => ?_
  obtain ⟨hjoin, hl⟩ := hj
  exact h.elim (fun hk => hk (Body.isJoin_kind hjoin)) fun hs => hs hl

/-- What the completion of a transmission, and the taking of a frame, leave as it is outside LISTEN: all
but the bus controller, the serving and the marks of what has been sent. -/
structure Took (s u : State) : Prop where
  changes : s.changesOnly u [.dir, .bus]
  dir : u.dir = { s.dir with ext := u.dir.ext, serving := u.dir.serving, snap := u.dir.snap }
  ext : ∀ k : Slot, s.dir.ext[k] = none ∧ u.dir.ext[k] = none ∨
    ∃ (x : Ext) (sent : Bool) (rep : Option ShutOutcome), s.dir.ext[k] = some x ∧
      u.dir.ext[k] = some { x with shutSent := sent, reportSent := rep }

namespace Took

theorem refl (s : State) : Took s s := by
  refine ⟨State.changesOnly.refl s _, rfl, fun k => ?_⟩
  cases h : s.dir.ext[k] with
  | none => exact .inl ⟨rfl, rfl⟩
  | some x => exact .inr ⟨x, x.shutSent, x.reportSent, rfl, rfl⟩

theorem trans {s t u : State} (h : Took s t) (g : Took t u) : Took s u := by
  refine ⟨h.changes.andThen g.changes (by simp) (by simp), by rw [g.dir, h.dir], fun k => ?_⟩
  rcases h.ext k with ⟨hs, ht⟩ | ⟨x, sent, rep, hs, ht⟩
  · rcases g.ext k with ⟨-, hu⟩ | ⟨y, -, -, ht', -⟩
    · exact .inl ⟨hs, hu⟩
    · rw [ht] at ht'
      cases ht'
  · rcases g.ext k with ⟨ht', -⟩ | ⟨y, sent', rep', ht', hu⟩
    · rw [ht] at ht'
      cases ht'
    · rw [ht, Option.some.injEq] at ht'
      exact .inr ⟨x, sent', rep', hs, by rw [hu, ← ht']⟩

theorem onBus (s : State) (g : Bus → Bus) : Took s (s.onBus g) :=
  ⟨(onBus_changes s g).mono (by simp), rfl, (refl s).ext⟩

theorem markSent (s : State) (b : Body) : Took s (s.markSent b) := by
  rcases markSent_cases s b with h | ⟨k, x, sent, rep, hx, h⟩
  · rw [h]
    exact refl s
  · rw [h]
    refine ⟨(setExt_changes s k _).mono (by simp), rfl, fun j => ?_⟩
    rw [setExt_get]
    split
    next hj =>
      subst hj
      exact .inr ⟨x, sent, rep, hx, rfl⟩
    · exact (refl s).ext j

theorem servingSent (s : State) (b : Body) : Took s (s.servingSent b) := by
  rcases servingSent_cases s b with h | h
  · rw [h]
    exact refl s
  · rw [h]
    exact ⟨(onDir_changes s _).mono (by simp), rfl, (refl s).ext⟩

section
variable {s u : State} (h : Took s u)
include h

theorem rep : u.dir.rep = s.dir.rep := by rw [h.dir]
theorem closing : u.dir.closing = s.dir.closing := by rw [h.dir]
theorem ignored : u.dir.ignored = s.dir.ignored := by rw [h.dir]
theorem request : u.dir.request = s.dir.request := by rw [h.dir]
theorem reqTag : u.dir.reqTag = s.dir.reqTag := by rw [h.dir]
theorem cooling : u.dir.cooling = s.dir.cooling := by rw [h.dir]
theorem intake : u.intake = s.intake := h.changes.1 .intake (by simp)
theorem str : u.str = s.str := h.changes.1 .str (by simp)
theorem plc : u.plc = s.plc := h.changes.1 .plc (by simp)
theorem mem : u.mem = s.mem := h.changes.1 .mem (by simp)
theorem link : u.link = s.link := h.changes.1 .link (by simp)
theorem line : u.line = s.line := h.changes.1 .line (by simp)
theorem flt : u.flt = s.flt := h.changes.1 .flt (by simp)

theorem me : u.me = s.me := by rw [State.me, h.mem]; rfl

end

end Took

/-- R89: outside LISTEN a completion leaves the rest of the station as it is. -/
theorem took_completeTx {s : State} (h : s.mem.state ≠ .listen) : Took s s.completeTx := by
  cases hs : s.bus.sending with
  | none =>
    rw [completeTx_idle hs]
    exact Took.refl s
  | some sg =>
    have hd := ((Took.onBus s (·.completed s.pTicks)).trans (Took.markSent _ sg.frame.body)).trans
      (Took.servingSent _ sg.frame.body)
    rw [completeTx_sending hs, enterJoining_kept (.inr (by rw [hd.mem]; exact h))]
    exact hd

theorem took_taken {s : State} (own : Bool) (h : s.mem.state ≠ .listen) : Took s (s.taken own) := by
  have hp : Took s s.popRx := Took.onBus s _
  cases own with
  | false => exact hp
  | true => exact hp.trans (took_completeTx (s := s.popRx) h)

/-! ### The completion that the own frame brings (log entry 12) -/

theorem popRx_markSent (s : State) (b : Body) : s.popRx.markSent b = (s.markSent b).popRx := by
  have onExt_pop (k : Slot) (g : Ext → Ext) : s.popRx.onExt k g = (s.onExt k g).popRx := by
    have hx : s.popRx.dir.ext[k] = s.dir.ext[k] := rfl
    unfold State.onExt
    rw [hx]
    cases s.dir.ext[k] <;> rfl
  cases b <;> first | rfl | exact onExt_pop _ _

theorem popRx_servingSent (s : State) (b : Body) : s.popRx.servingSent b = (s.servingSent b).popRx := by
  cases b <;> rfl

/-- A withdrawal reads and changes the transmit side alone. -/
theorem Bus.withdraw_popRx (b : Bus) (p : QFrame → Bool) :
    ({ b with rx := b.rx.drop 1 } : Bus).withdraw p =
      { b.withdraw p with rx := (b.withdraw p).rx.drop 1 } := by
  unfold Bus.withdraw
  dsimp only
  split <;> rfl

theorem popRx_enterJoining (s : State) (b : Body) : s.popRx.enterJoining b = (s.enterJoining b).popRx := by
  unfold State.enterJoining
  have hif : (b.isJoin = true ∧ s.popRx.mem.state = .listen) ↔ b.isJoin = true ∧ s.mem.state = .listen :=
    Iff.rfl
  rw [if_congr hif rfl rfl]
  split
  · simp only [State.enter, State.popRx, State.onBus, State.onMem, State.post, State.onFlt, State.pTicks,
      Bus.enter, Bus.withdraw_popRx]
  · rfl

theorem popRx_completeTx (s : State) : s.popRx.completeTx = s.completeTx.popRx := by
  have hsend : s.popRx.bus.sending = s.bus.sending := rfl
  cases hs : s.bus.sending with
  | none => rw [completeTx_idle hs, completeTx_idle (hsend.trans hs)]
  | some sg =>
    have hbus : s.popRx.onBus (·.completed s.popRx.pTicks) = (s.onBus (·.completed s.pTicks)).popRx := rfl
    rw [completeTx_sending hs, completeTx_sending (hsend.trans hs), hbus, popRx_markSent, popRx_servingSent,
      popRx_enterJoining]

theorem markSent_bus (s : State) (b : Body) : (s.markSent b).bus = s.bus := by
  rcases markSent_cases s b with h | ⟨k, x, sent, rep, -, h⟩
  · rw [h]
  · rw [h]
    rfl

theorem servingSent_bus (s : State) (b : Body) : (s.servingSent b).bus = s.bus := by
  rcases servingSent_cases s b with h | h
  · rw [h]
  · rw [h]
    rfl

theorem enterJoining_rst (s : State) (b : Body) : (s.enterJoining b).rst = s.rst := by
  unfold State.enterJoining
  split <;> rfl

theorem enterJoining_bus {s : State} {b : Body} (h : s.bus.sending = none) :
    (s.enterJoining b).bus.sending = none ∧ (s.enterJoining b).bus.rx = s.bus.rx := by
  unfold State.enterJoining
  split
  · refine ⟨?_, enter_rx (s := s) (m := .joining) (by decide) (by decide) (by decide)⟩
    change (s.bus.withdraw _).sending = none
    simp [Bus.withdraw, h]
  · exact ⟨h, rfl⟩

/-- R89: a completion ends the transmission, and leaves the receive queue. -/
theorem completeTx_bus (s : State) :
    s.completeTx.bus.sending = none ∧ s.completeTx.bus.rx = s.bus.rx ∧ s.completeTx.rst = s.rst := by
  cases hs : s.bus.sending with
  | none =>
    rw [completeTx_idle hs]
    exact ⟨hs, rfl, rfl⟩
  | some sg =>
    rw [completeTx_sending hs]
    have hbus : (((s.onBus (·.completed s.pTicks)).markSent sg.frame.body).servingSent
        sg.frame.body).bus = s.bus.completed s.pTicks := by
      rw [servingSent_bus, markSent_bus]
      rfl
    obtain ⟨hsend, hrx⟩ := enterJoining_bus (b := sg.frame.body) (congrArg Bus.sending hbus)
    have hw := (works_markSent (s.onBus (·.completed s.pTicks)) sg.frame.body).trans
      (works_servingSent _ sg.frame.body)
    exact ⟨hsend, hrx.trans (by rw [hbus]; rfl), (enterJoining_rst _ _).trans hw.rst⟩

/-- Settles O38: a completion before the own frame is taken leaves nothing for the taking to complete. -/
theorem ownEntryEndsItsAttempt : Obligations.OwnEntryEndsItsAttempt := by
  unfold Obligations.OwnEntryEndsItsAttempt
  intro c f rest s hc h
  obtain ⟨hsend, hrx, hrst⟩ := completeTx_bus s
  have h' : s.completeTx.takes true f rest := ⟨hrst.trans h.1, hrx.trans h.2⟩
  have hsame : s.completeTx.taken true = s.taken true := by
    rw [taken_plain fun _ => hsend, ← popRx_completeTx]
    rfl
  rw [exec_takes hc h, exec_takes hc h', hsame]

/-! ### A BEACON in MEMBER (R55) -/

theorem fromPresent_present {s : State} {f : Frame} (h : s.dir.rep.isPresent f.sender = true)
    (act : State → State) : s.fromPresent f act = act s := if_pos (.inr h)

theorem fromPresent_absent {s : State} {f : Frame} (hj : f.body.kind ≠ .join)
    (h : s.dir.rep.isPresent f.sender = false) (act : State → State) :
    s.fromPresent f act = s.countIgnored :=
  if_neg fun hc => hc.elim (fun hjoin => hj (Body.isJoin_kind hjoin)) (by rw [h]; simp)

/-- R55: only another generation of a station in MEMBER is counted. -/
theorem beaconInMember_eq (s : State) (sender st : Station) (g : Gen) (cu : Bool) (m : Mode) :
    s.beaconInMember sender (.beacon st g cu m) =
      if cu = true ∨ g = s.dir.rep.gen then s else s.report .beaconSkew (peer := some sender) := by
  simp only [State.beaconInMember, Bool.or_eq_true, beq_iff_eq]

/-- R55: a BEACON of a PRESENT station taken in MEMBER. -/
theorem exec_beacon_member {s : State} {own : Bool} {f : Frame} {rest : List RxEntry} {st : Station}
    {g : Gen} {cu : Bool} {m : Mode} (h : s.takes own f rest) (hb : f.body = .beacon st g cu m)
    (hm : s.mem.state = .member) (hp : s.dir.rep.isPresent f.sender = true) :
    exec .beacon s =
      .next ((s.taken own).beaconInMember f.sender (.beacon st g cu m)).settled := by
  have htook := took_taken (s := s) own (by rw [hm]; decide)
  have hstate : (s.taken own).mem.state = .member := by rw [htook.mem, hm]
  rw [exec_takes (c := .beacon) (by rw [hb]; rfl) h, hb]
  change Host.Outcome.next (takeBeacon own f (s.taken own)).settled = _
  simp only [takeBeacon, hstate, fromPresent_present (s := s.taken own) (by rw [htook.rep]; exact hp), hb]

/-- Settles O41: a BEACON by whether it shows MEMBER and another generation. -/
theorem beaconCompared : Obligations.BeaconCompared := by
  unfold Obligations.BeaconCompared
  intro f rest st g cu m s h hb hm hp
  have hpop : s.taken false = { s with bus := { s.bus with rx := rest } } := popRx_eq h.2
  refine ⟨_, exec_beacon_member h hb hm hp, ?_⟩
  rw [beaconInMember_eq, hpop]
  have hchanges : s.changesOnly { s with bus := { s.bus with rx := rest } } [.bus] :=
    popRx_eq h.2 ▸ popRx_changes s
  refine ⟨?_, fun hcu hg => ?_, fun hsame => ?_⟩
  · split <;> rfl
  · rw [if_neg (by simp [hcu, hg])]
    exact ⟨State.counted.settled (report_counted { s with bus := { s.bus with rx := rest } } _ _ _ _ _) rfl,
      frame_of_changes (hchanges.andThen (report_changes _ _ _ _ _ _) (by simp) (by simp)) (by simp)⟩
  · rw [if_pos hsame]
    exact frame_of_changes hchanges (by simp)

end Sys2Proof.Machine
end

