-- ==== Sys2Proof/Proofs/EmptiedReplica.lean ====
section
/-! SUPPORT. Holdings removed (R76, R163), the replica emptied with them (R37, R50), and the paths that empty
it: BARRED (R125, R133), named-absent (R140), and WAKE and REJOIN (R141, R142). -/

namespace Sys2Proof.Machine

/-! ### Tracker places freed (R163) -/

theorem TrackPlace.release_eq (hold : Nat) (k : Slot) (g : Gen) (p : TrackPlace) :
    p.release hold k g = p.freed (fun j h => j == k && h == g) hold := by
  unfold TrackPlace.release TrackPlace.freed
  cases p.timer <;> rfl

/-- R163: the release of one incarnation frees its places. -/
theorem Link.release_eq (l : Link) (hold : Nat) (k : Slot) (g : Gen) :
    l.release hold k g = l.freed (fun j h => j == k && h == g) hold := by
  have hplace : TrackPlace.release hold k g = TrackPlace.freed (fun j h => j == k && h == g) hold :=
    funext fun p => TrackPlace.release_eq hold k g p
  rw [Link.release, Link.freed, hplace]

theorem TrackPlace.freed_none (hold : Nat) (p : TrackPlace) : p.freed (fun _ _ => false) hold = p := by
  unfold TrackPlace.freed
  cases p.timer <;> rfl

theorem Link.freed_none (l : Link) (hold : Nat) : l.freed (fun _ _ => false) hold = l := by
  have hplace : TrackPlace.freed (fun _ _ => false) hold = id := funext (TrackPlace.freed_none hold)
  simp only [Link.freed, hplace, List.map_id, Bool.not_false, List.filter_true]

theorem TrackPlace.freed_freed (p q : Slot → Gen → Bool) (hold : Nat) (x : TrackPlace) :
    (x.freed p hold).freed q hold = x.freed (fun k g => p k g || q k g) hold := by
  cases ht : x.timer with
  | released n => simp only [TrackPlace.freed, ht]
  | live n =>
    cases hp : p x.slot x.serial <;> cases hq : q x.slot x.serial <;>
      simp [TrackPlace.freed, ht, hp, hq]

/-- R163: freeing one set of holdings and then another frees both; a place keeps its first hold. -/
theorem Link.freed_freed (l : Link) (p q : Slot → Gen → Bool) (hold : Nat) :
    (l.freed p hold).freed q hold = l.freed (fun k g => p k g || q k g) hold := by
  have hplace : TrackPlace.freed q hold ∘ TrackPlace.freed p hold =
      TrackPlace.freed (fun k g => p k g || q k g) hold := funext (TrackPlace.freed_freed p q hold)
  simp only [Link.freed, List.map_map, hplace, List.filter_filter, Bool.not_or, Bool.and_comm]

/-! ### Holdings removed (R76) -/

/-- `u` comes from `s` by the removal of the holdings in the slots that `gone` picks. -/
structure Removes (s u : State) (gone : Slot → Bool) : Prop where
  changes : s.changesOnly u [.str, .plc, .dir, .link]
  dir : u.dir = { s.dir with ext := u.dir.ext, closing := u.dir.closing }
  comp : u.plc.comp = s.plc.comp
  ctx : ∀ c : Ctx, s.str.ctxs[c].KeptIn u.str.ctxs[c]
  removed : ∀ k : Slot, gone k = true → u.dir.ext[k] = none
  left : ∀ k : Slot, gone k = false → (s.dir.ext[k] = none → u.dir.ext[k] = none) ∧
    ∀ x, s.dir.ext[k] = some x → ∃ y, u.dir.ext[k] = some y ∧ x.KeptIn y
  closing : ∀ k : Slot, gone k = false → (k ∈ u.dir.closing ↔ k ∈ s.dir.closing)
  link : u.link = s.link.freed (fun k g => gone k && s.hasHolding k g) s.closeTicks

theorem Context.KeptIn.trans {x y z : Context} (h : x.KeptIn y) (g : y.KeptIn z) : x.KeptIn z :=
  { pending := g.pending.trans h.pending, key := g.key.trans h.key, cls := g.cls.trans h.cls,
    inFlight := g.inFlight.trans h.inFlight, lastWrite := g.lastWrite.trans h.lastWrite,
    counters := g.counters.trans h.counters }

theorem Ext.KeptIn.trans {x y z : Ext} (h : x.KeptIn y) (g : y.KeptIn z) : x.KeptIn z :=
  { serial := g.serial.trans h.serial, readiness := g.readiness.trans h.readiness,
    cursor := g.cursor.trans h.cursor, inFlight := g.inFlight.trans h.inFlight,
    lastFill := g.lastFill.trans h.lastFill, closeOrderIssued := g.closeOrderIssued.trans h.closeOrderIssued,
    closeReport := g.closeReport.trans h.closeReport, reportSent := g.reportSent.trans h.reportSent,
    due := fun hd => by
      obtain ⟨hdue, hrecall, hsent⟩ := h.due hd
      obtain ⟨gdue, grecall, gsent⟩ := g.due (hdue ▸ hd)
      exact ⟨gdue.trans hdue, grecall.trans hrecall, gsent.trans hsent⟩ }

theorem hasHolding_kept {s u : State} {k : Slot} (h : (s.dir.ext[k] = none → u.dir.ext[k] = none) ∧
    ∀ x, s.dir.ext[k] = some x → ∃ y, u.dir.ext[k] = some y ∧ x.KeptIn y) (g : Gen) :
    u.hasHolding k g = s.hasHolding k g := by
  obtain ⟨hnone, hsome⟩ := h
  cases hx : s.dir.ext[k] with
  | none => simp only [State.hasHolding, hx, hnone hx]
  | some x =>
    obtain ⟨y, hy, hk⟩ := hsome x hx
    simp only [State.hasHolding, hx, hy, hk.serial]

theorem hasHolding_none {s : State} {k : Slot} (h : s.dir.ext[k] = none) (g : Gen) :
    s.hasHolding k g = false := by
  simp only [State.hasHolding, h]

theorem closeTicks_kept {s u : State} (h : u.mem.cfg = s.mem.cfg) : u.closeTicks = s.closeTicks := by
  simp only [State.closeTicks, State.pTicks, h]

namespace Removes

theorem refl (s : State) : Removes s s fun _ => false where
  changes := State.changesOnly.refl s _
  dir := rfl
  comp := rfl
  ctx := fun _ => {}
  removed := fun _ h => by cases h
  left := fun _ _ => ⟨id, fun x h => ⟨x, h, {}⟩⟩
  closing := fun _ _ => Iff.rfl
  link := (Link.freed_none s.link s.closeTicks).symm

theorem trans {s t u : State} {p q : Slot → Bool} (h : Removes s t p) (g : Removes t u q) :
    Removes s u fun k => p k || q k where
  changes := h.changes.andThen g.changes (by simp) (by simp)
  dir := by rw [g.dir, h.dir]
  comp := g.comp.trans h.comp
  ctx := fun c => (h.ctx c).trans (g.ctx c)
  removed := fun k hk => by
    cases hq : q k with
    | true => exact g.removed k hq
    | false => exact (g.left k hq).1 (h.removed k (by simpa [hq] using hk))
  left := fun k hk => by
    obtain ⟨hp, hq⟩ := Bool.or_eq_false_iff.1 hk
    refine ⟨fun hn => (g.left k hq).1 ((h.left k hp).1 hn), fun x hx => ?_⟩
    obtain ⟨y, hy, hxy⟩ := (h.left k hp).2 x hx
    obtain ⟨z, hz, hyz⟩ := (g.left k hq).2 y hy
    exact ⟨z, hz, hxy.trans hyz⟩
  closing := fun k hk => by
    obtain ⟨hp, hq⟩ := Bool.or_eq_false_iff.1 hk
    exact (g.closing k hq).trans (h.closing k hp)
  link := by
    have hmem : t.mem = s.mem := h.changes.1 .mem (by simp)
    rw [g.link, h.link, closeTicks_kept (by rw [hmem]), Link.freed_freed]
    congr 1
    funext k x
    cases hp : p k with
    | true => simp [hasHolding_none (h.removed k hp)]
    | false => simp [hasHolding_kept (h.left k hp)]

end Removes

/-- R76: the ends of residency that come before a removal, and the claim list entry that goes with it. -/
theorem polices_residents (s : State) (l : List Ctx) : Polices s (l.foldl State.endResidency s) :=
  Polices.foldl State.endResidency polices_endResidency l s

theorem endResidency_changes (s : State) (c : Ctx) : s.changesOnly (s.endResidency c) [.str, .plc, .dir] := by
  unfold State.endResidency
  split
  · exact (onExt_changes s _ _).andThen (onCtx_changes _ _ _) (by simp) (by simp)
  · exact State.changesOnly.refl s _

theorem endResidency_dir (s : State) (c : Ctx) :
    (s.endResidency c).dir = { s.dir with ext := (s.endResidency c).dir.ext } := by
  unfold State.endResidency
  split
  · exact onExt_dir s _ _
  · rfl

theorem residents_changes (s : State) (l : List Ctx) :
    s.changesOnly (l.foldl State.endResidency s) [.str, .plc, .dir] :=
  State.changesOnly.foldl State.endResidency endResidency_changes l s

theorem residents_dir (s : State) (l : List Ctx) :
    (l.foldl State.endResidency s).dir = { s.dir with ext := (l.foldl State.endResidency s).dir.ext } := by
  induction l generalizing s with
  | nil => rfl
  | cons c l ih => rw [List.foldl_cons, ih, endResidency_dir]

/-- R76, R163: the removal of one holding. -/
theorem removes_removeHolding (s : State) (k : Slot) : Removes s (s.removeHolding k) (· == k) := by
  unfold State.removeHolding
  cases hx : s.dir.ext[k] with
  | none =>
    refine { Removes.refl s with
      removed := fun j hj => by rw [eq_of_beq hj]; exact hx
      left := fun j _ => (Removes.refl s).left j rfl
      closing := fun _ _ => Iff.rfl
      link := ?_ }
    have hno (j : Slot) (g : Gen) : (j == k && s.hasHolding j g) = false := by
      rw [Bool.and_eq_false_imp]
      intro hj
      rw [eq_of_beq hj, hasHolding_none hx]
    simp only [hno, Link.freed_none]
  | some x =>
    have hp := polices_residents s x.residents
    have hkeep (j : Slot) (hj : (j == k) = false) :
        (put (x.residents.foldl State.endResidency s).dir.ext k none)[j] =
          (x.residents.foldl State.endResidency s).dir.ext[j] :=
      (put_get _ _ _ _).trans (if_neg (by simpa using hj))
    exact {
      changes := ((((residents_changes s x.residents).andThen (onDir_changes _ _)
        (n := [.str, .plc, .dir, .link]) (by simp) (by simp)).andThen (onPlc_changes _ _)
        (n := [.str, .plc, .dir, .link]) (by simp) (by simp)).andThen (onLink_changes _ _) (by simp) (by simp))
      dir := by
        simp only [State.onLink_dir, State.onPlc_dir, State.onDir_dir]
        rw [residents_dir]
      comp := hp.comp
      ctx := hp.ctx
      removed := fun j hj => (put_get _ _ _ _).trans (if_pos (eq_of_beq hj))
      left := fun j hj => by
        simp only [State.onLink_dir, State.onPlc_dir, State.onDir_dir]
        rw [hkeep j hj]
        exact hp.ext j
      closing := fun j hj => by
        simp only [State.onLink_dir, State.onPlc_dir, State.onDir_dir, List.mem_filter, hp.closing]
        rw [bne, hj]
        simp
      link := by
        simp only [State.onLink_link, State.onPlc_link, State.onDir_link, hp.link, Link.release_eq]
        congr 1
        funext j g
        cases hj : j == k with
        | false => simp
        | true =>
          rw [eq_of_beq hj]
          simp only [Bool.true_and, State.hasHolding, hx]
          rw [Bool.beq_comm] }

/-- R76: the removal of the holdings of a list of slots. -/
theorem removes_foldl (l : List Slot) (s : State) :
    Removes s (l.foldl State.removeHolding s) fun k => decide (k ∈ l) := by
  induction l generalizing s with
  | nil => simpa using Removes.refl s
  | cons k l ih =>
    have h := (removes_removeHolding s k).trans (ih (s.removeHolding k))
    have hmem : (fun j => (j == k) || decide (j ∈ l)) = fun j => decide (j ∈ k :: l) := by
      funext j
      simp [List.mem_cons, Bool.decide_or, Bool.beq_eq_decide_eq]
    rw [hmem] at h
    exact h

/-! ### The replica emptied (R37, R50, R76) -/

/-- R76: every holding removed. -/
@[irreducible] def State.dropHoldings (s : State) : State := allSlots.foldl State.removeHolding s

theorem removes_dropHoldings (s : State) : Removes s s.dropHoldings fun _ => true := by
  have h := removes_foldl allSlots s
  have hall : (fun k => decide (k ∈ allSlots)) = fun _ => true :=
    funext fun k => decide_eq_true (List.mem_finRange k)
  rw [hall] at h
  unfold State.dropHoldings
  exact h

/-- R37, R50, R109: the emptied replica, over the holdings removed. -/
theorem emptyReplica_eq (s : State) :
    s.emptyReplica = (s.dropHoldings.onPlc fun p => { p with claims := [] }).onDir fun d =>
      { d with rep := Replica.empty, closing := [], request := none, log := [], snap := [],
               serving := none } := by
  unfold State.emptyReplica State.dropHoldings
  rfl

/-- `e` is `s` with its replica emptied and its holdings gone (R37, R50, R76), and perhaps more forgotten in
the directory engine and the membership controller. -/
structure Emptied (s e : State) : Prop where
  changes : s.changesOnly e [.str, .plc, .dir, .link, .mem]
  rep : e.dir.rep = Replica.empty
  ext : ∀ k : Slot, e.dir.ext[k] = none
  closing : e.dir.closing = []
  request : e.dir.request = none
  claims : e.plc.claims = []
  comp : e.plc.comp = s.plc.comp
  ctx : ∀ c : Ctx, s.str.ctxs[c].KeptIn e.str.ctxs[c]
  link : e.link = s.link.freed s.hasHolding s.closeTicks

theorem emptied_emptyReplica (s : State) : Emptied s s.emptyReplica := by
  have hr := removes_dropHoldings s
  rw [emptyReplica_eq]
  refine ⟨?_, rfl, fun k => hr.removed k rfl, rfl, rfl, rfl, hr.comp, hr.ctx, hr.link.trans ?_⟩
  · exact ((hr.changes.andThen (onPlc_changes _ _) (n := [.str, .plc, .dir, .link, .mem])
      (by simp) (by simp)).andThen (onDir_changes _ _) (by simp) (by simp))
  · simp only [Bool.true_and]

/-- R116, R140: what is forgotten beside the replica. -/
theorem forget_eq (s : State) :
    s.forget = (s.emptyReplica.onDir fun d => { d with cooling := none }).onMem fun m =>
      { m with duty := Vector.replicate 8 none, adoption := [], noAdopter := false, attempts := 0,
               retryTimer := none } := by
  unfold State.forget
  rfl

theorem emptyReplica_mem (s : State) : s.emptyReplica.mem = s.mem := by
  rw [emptyReplica_eq]
  exact (removes_dropHoldings s).changes.1 .mem (by simp)

theorem emptied_forget (s : State) : Emptied s s.forget := by
  have h := emptied_emptyReplica s
  rw [forget_eq]
  generalize s.emptyReplica = e at h ⊢
  exact ⟨(h.changes.andThen (onDir_changes _ _) (n := [.str, .plc, .dir, .link, .mem]) (by simp)
      (by simp)).andThen (onMem_changes _ _) (by simp) (by simp),
    h.rep, h.ext, h.closing, h.request, h.claims, h.comp, h.ctx, h.link⟩

theorem forget_mem (s : State) : s.forget.mem =
    { s.mem with
      duty := Vector.replicate 8 none, adoption := [], noAdopter := false, attempts := 0,
      retryTimer := none } := by
  rw [forget_eq]
  simp only [State.onMem_mem, State.onDir_mem, emptyReplica_mem]

theorem forget_cooling (s : State) : s.forget.dir.cooling = none := by
  rw [forget_eq]
  rfl

theorem Emptied.flt {s e : State} (h : Emptied s e) : e.flt = s.flt := h.changes.1 .flt (by simp)

/-- A station that has the holdings, the tracker places, the completion table and the close timeout of
another. -/
structure SameHoldings (s u : State) : Prop where
  changes : s.changesOnly u [.dir, .bus, .mem, .flt]
  cfg : u.mem.cfg = s.mem.cfg
  holding : ∀ (k : Slot) (g : Gen), u.hasHolding k g = s.hasHolding k g

/-- R37, R50, R76, R163: the replica emptied, with work before it and after it. -/
theorem emptied_settled {s u e v : State} (hu : SameHoldings s u) (he : Emptied u e)
    (hv : e.changesOnly v [.bus, .mem, .flt]) : s.emptied v.settled := by
  have hplc : v.plc = e.plc := hv.1 .plc (by simp)
  have hlink : v.link = e.link := hv.1 .link (by simp)
  have hdir : v.dir = e.dir := hv.1 .dir (by simp)
  have hplc' : u.plc = s.plc := hu.changes.1 .plc (by simp)
  have hlink' : u.link = s.link := hu.changes.1 .link (by simp)
  have hgone : u.hasHolding = s.hasHolding := funext fun k => funext fun g => hu.holding k g
  have hframe : s.frame v.settled [.str, .plc, .dir, .bus, .mem, .link, .flt] := by
    refine frame_of_changes ((hu.changes.andThen he.changes
      (n := [.str, .plc, .dir, .bus, .mem, .link, .flt]) (by simp) (by simp)).andThen hv (by simp)
      (by simp)) (by simp)
  unfold State.emptied
  simp only [settled_dir, settled_plc, settled_link, hplc, hlink, hdir]
  refine ⟨he.rep, he.ext, he.closing, he.request, he.claims, he.comp.trans (by rw [hplc']), ?_, hframe⟩
  rw [he.link, hgone, closeTicks_kept hu.cfg, hlink']

theorem SameHoldings.refl (s : State) : SameHoldings s s :=
  ⟨State.changesOnly.refl s _, rfl, fun _ _ => rfl⟩

theorem Took.sameHoldings {s u : State} (h : Took s u) : SameHoldings s u := by
  refine ⟨h.changes.mono (by simp), by rw [h.mem], fun k g => ?_⟩
  rcases h.ext k with ⟨hs, hu⟩ | ⟨x, sent, rep, hs, hu⟩
  · rw [hasHolding_none hs, hasHolding_none hu]
  · simp only [State.hasHolding, hs, hu]

theorem SameHoldings.report {s u : State} (h : SameHoldings s u) (c : Cause) (slot : Option Byte)
    (st : Option Ctx) (peer : Option Station) (kind : Option Kind) :
    SameHoldings s (u.report c slot st peer kind) :=
  ⟨h.changes.andThen (report_changes _ _ _ _ _ _) (by simp) (by simp), h.cfg, h.holding⟩

/-! ### BARRED (R125, R133) -/

/-- R125, R133: a mismatch of the drive parameters bars the station. -/
theorem barred_settled {s u : State} (h : SameHoldings s u) (hflt : u.flt = s.flt) (peer : Option Station) :
    (u.report .paramMismatch (peer := peer)).bar.settled.mem.state = .barred ∧
      s.emptied (u.report .paramMismatch (peer := peer)).bar.settled ∧
      s.counted (u.report .paramMismatch (peer := peer)).bar.settled .paramMismatch := by
  have he := emptied_emptyReplica (u.report .paramMismatch (peer := peer))
  have hcount := report_counted u .paramMismatch none none peer none
  unfold State.bar
  generalize (u.report .paramMismatch (peer := peer)).emptyReplica = e at he ⊢
  refine ⟨rfl, emptied_settled (h.report _ _ _ _ _) he (enter_changes e _), ?_⟩
  have hcounts : (e.enter .barred).flt.counts = (u.report .paramMismatch (peer := peer)).flt.counts := by
    rw [enter_counts, he.flt]
  exact State.counted.settled (hcount.congr (by rw [hflt])
    (congrArg (·[Cause.paramMismatch.index]) hcounts)) rfl

/-! ### The named-absent path (R140) -/

theorem namedAbsent_stays {s : State} {p : Option Station} (h : s.mem.departing = false) :
    s.namedAbsent p = (s.report .namedAbsent (peer := p)).forget.startListen := by
  have hd : (s.report .namedAbsent (peer := p)).forget.mem.departing = false := by
    rw [forget_mem]
    exact h
  unfold State.namedAbsent
  exact if_neg (by rw [hd]; simp)

theorem namedAbsent_departs {s : State} {p : Option Station} (h : s.mem.departing = true) :
    s.namedAbsent p = ((s.report .namedAbsent (peer := p)).forget.onMem fun m =>
      { m with departing := false }).enter .dormant := by
  have hd : (s.report .namedAbsent (peer := p)).forget.mem.departing = true := by
    rw [forget_mem]
    exact h
  unfold State.namedAbsent
  exact if_pos hd

/-- R140: the named-absent path after work that keeps the holdings. -/
theorem tookAbsent_settled {s u : State} (h : SameHoldings s u)
    (hcount : u.flt.counts[Cause.namedAbsent.index] = s.flt.counts[Cause.namedAbsent.index])
    (hdep : u.mem.departing = s.mem.departing) (p : Option Station) :
    s.tookAbsent (u.namedAbsent p).settled := by
  have hrep : s.counted (u.report .namedAbsent (peer := p)) .namedAbsent :=
    (report_counted u _ _ _ _ _).congr hcount.symm rfl
  have hsame := h.report .namedAbsent none none p none
  have he := emptied_forget (u.report .namedAbsent (peer := p))
  have hmem := congrArg Members.attempts (forget_mem (u.report .namedAbsent (peer := p)))
  cases hd : u.mem.departing with
  | false =>
    rw [namedAbsent_stays hd]
    generalize (u.report .namedAbsent (peer := p)).forget = e at he hmem ⊢
    refine ⟨emptied_settled hsame he (startListen_changes e), ?_, hmem, fun _ => ⟨rfl, rfl⟩, fun hs => ?_⟩
    · have hkept : e.startListen.flt.counts = (u.report .namedAbsent (peer := p)).flt.counts :=
        (enter_counts e .listen).trans (by rw [he.flt])
      exact State.counted.settled (hrep.congr rfl (congrArg (·[Cause.namedAbsent.index]) hkept)) rfl
    · rw [← hdep, hd] at hs
      cases hs
  | true =>
    rw [namedAbsent_departs hd]
    generalize (u.report .namedAbsent (peer := p)).forget = e at he hmem ⊢
    refine ⟨emptied_settled hsame he ((onMem_changes e _).andThen (enter_changes _ _) (by simp) (by simp)), ?_,
      hmem, fun hs => ?_, fun _ => ⟨rfl, rfl⟩⟩
    · have hkept : ((e.onMem fun m => { m with departing := false }).enter .dormant).flt.counts =
          (u.report .namedAbsent (peer := p)).flt.counts :=
        (enter_counts _ .dormant).trans (by rw [State.onMem_flt, he.flt])
      exact State.counted.settled (hrep.congr rfl (congrArg (·[Cause.namedAbsent.index]) hkept)) rfl
    · rw [← hdep, hd] at hs
      cases hs

/-! ### WAKE and REJOIN (R141, R142) -/

/-- R141, R142: the station in LISTEN after it has forgotten its replica, with `g` done to its receiver. -/
def State.restarted (s : State) (g : Bus → Bus) : State := (s.forget.onBus g).startListen

theorem actWake_dormant {s : State} (h : s.mem.state = .dormant) :
    s.actWake = (s.restarted Bus.receiverOn).respond 14 .done := by
  unfold State.actWake
  exact if_pos h

theorem actWake_elsewhere {s : State} (h : s.mem.state ≠ .dormant) :
    s.actWake = s.respond 14 .wrongState := by
  unfold State.actWake
  exact if_neg h

theorem actRejoin_isolated {s : State} (h : s.mem.state = .isolated) :
    s.actRejoin = (s.restarted id).respond 15 .done := by
  unfold State.actRejoin State.restarted
  generalize s.forget = e
  exact if_pos h

theorem actRejoin_elsewhere {s : State} (h : s.mem.state ≠ .isolated) :
    s.actRejoin = s.respond 15 .wrongState := by
  unfold State.actRejoin
  exact if_neg h

/-- R141, R142: a restart works on the stream table, the placement engine, the directory engine, the bus
and membership controllers and the link, and posts its notice. -/
theorem restarted_changes (s : State) (g : Bus → Bus) :
    s.changesOnly (s.restarted g) (.mem :: .link :: policyBlocks) := by
  have he := emptied_forget s
  unfold State.restarted
  generalize s.forget = e at he ⊢
  exact ((he.changes.andThen (onBus_changes e g) (n := .mem :: .link :: policyBlocks)
    (by simp [policyBlocks]) (by simp [policyBlocks])).andThen (startListen_changes _) (by simp)
    (by simp [policyBlocks]))

/-- R141, R142: what stands once the station has restarted. -/
theorem restarted_stands (s : State) (g : Bus → Bus) :
    let t := s.restarted g
    t.mem.state = .listen ∧ t.mem.attempts = 0 ∧ t.mem.retryTimer = none ∧
      t.mem.listenTimer = some s.listenTicks ∧ t.dir.rep = Replica.empty ∧
      (∀ k : Slot, t.dir.ext[k] = none) ∧ t.dir.request = none ∧ t.dir.cooling = none ∧
      t.plc.claims = [] ∧ t.plc.comp = s.plc.comp ∧ t.link = s.link.freed s.hasHolding s.closeTicks ∧
      (∀ x : Ctx, t.str.ctxs[x].key = s.str.ctxs[x].key ∧ t.str.ctxs[x].cls = s.str.ctxs[x].cls ∧
        t.str.ctxs[x].pending = s.str.ctxs[x].pending) := by
  have he := emptied_forget s
  have hmem := forget_mem s
  have hcool := forget_cooling s
  unfold State.restarted
  generalize s.forget = e at he hmem hcool ⊢
  have hticks : (e.onBus g).listenTicks = s.listenTicks := by
    simp only [State.listenTicks, State.pTicks, State.onBus_mem, hmem]
  exact ⟨rfl, congrArg Members.attempts hmem, congrArg Members.retryTimer hmem,
    congrArg some hticks, he.rep, he.ext, he.request, hcool, he.claims, he.comp, he.link,
    fun x => ⟨(he.ctx x).key, (he.ctx x).cls, (he.ctx x).pending⟩⟩

/-- R184 to R186: a restart posts its MEMBERSHIP notice, and reports no fault. -/
theorem restarted_flt (s : State) (g : Bus → Bus) :
    let t := s.restarted g
    t.flt.first = s.flt.first ∧ t.flt.second = s.flt.second ∧ t.flt.counts = s.flt.counts ∧
      t.flt.lastReq = s.flt.lastReq ∧ t.flt.frozen = s.flt.frozen := by
  have he := emptied_forget s
  unfold State.restarted
  generalize s.forget = e at he ⊢
  have hpost := Faults.post_only e.flt (.membership .listen (e.onBus g).mem.attempts)
  have hflt : (e.onBus g).startListen.flt = e.flt.post (.membership .listen (e.onBus g).mem.attempts) := rfl
  rw [← hflt, he.flt] at hpost
  exact ⟨(congrArg Faults.first hpost :), (congrArg Faults.second hpost :), (congrArg Faults.counts hpost :),
    (congrArg Faults.lastReq hpost :), (congrArg Faults.frozen hpost :)⟩

/-- R141: WAKE turns the receiver on. -/
theorem restarted_receiverOn (s : State) :
    (s.restarted Bus.receiverOn).bus.receiver = .hunt ∧ (s.restarted Bus.receiverOn).bus.mediumBusy = true := by
  unfold State.restarted
  generalize s.forget = e
  have hbus : (e.onBus Bus.receiverOn).startListen.bus =
      (e.onBus Bus.receiverOn).bus.enter (e.onBus Bus.receiverOn).pTicks e.mem.state .listen := rfl
  rw [hbus]
  have hreceiver := Bus.enter_off (e.onBus Bus.receiverOn).bus (e.onBus Bus.receiverOn).pTicks e.mem.state
    .listen
  refine ⟨hreceiver, ?_⟩
  unfold Bus.enter Bus.withdraw
  dsimp only
  split <;> rfl

/-- R141, R142: a request that is answered DONE with a restart. -/
theorem exec_restart {c : Instr} {s : State} {code : Nat} {act : State → State} {g : Bus → Bus}
    (hc : exec c s = control code [] act s) (hcode : code = 14 ∨ code = 15) (hs : s.ready)
    (ha : act s = (s.restarted g).respond code .done) :
    exec c s = .next ((s.restarted g).respond code .done).settled ∧
      s.answered ((s.restarted g).respond code .done).settled (byteOf code) .done [] ∧
      s.frame ((s.restarted g).respond code .done).settled (.intake :: .mem :: .link :: policyBlocks) := by
  rw [hc]
  refine control_acts hs ?_ ha (restarted_changes s g) (by simp [policyBlocks])
  rcases hcode with rfl | rfl <;> rfl

/-- Settles O31: both requests restart the station, WAKE with its receiver on; elsewhere both are answered
alone. -/
theorem wakeAndRejoinListen : Obligations.WakeAndRejoinListen := by
  unfold Obligations.WakeAndRejoinListen
  intro s hs
  refine ⟨fun c hc => ?_, fun h => control_answers hs rfl (actWake_elsewhere h),
    fun h => control_answers hs rfl (actRejoin_elsewhere h)⟩
  rcases hc with ⟨rfl, hst⟩ | ⟨rfl, hst⟩
  · obtain ⟨hnext, hans, hframe⟩ := exec_restart (c := .wake []) rfl (.inl rfl) hs (actWake_dormant hst)
    obtain ⟨hstate, hatt, hretry, hlisten, hrep, hext, hnoReq, hcool, hclaims, hcomp, hlink, hctx⟩ := restarted_stands s Bus.receiverOn
    obtain ⟨hf, hsec, hcnt, hreq, hfrz⟩ := restarted_flt s Bus.receiverOn
    have hon := restarted_receiverOn s
    generalize s.restarted Bus.receiverOn = u at *
    exact ⟨_, hnext, hans, hstate, hatt, hretry, hlisten, hrep, hext, hnoReq, hcool, hclaims, hcomp, hlink, hctx,
      fun _ => hon, hf, hsec,
      hcnt, hreq, hfrz, hframe⟩
  · obtain ⟨hnext, hans, hframe⟩ := exec_restart (c := .rejoin []) rfl (.inr rfl) hs (actRejoin_isolated hst)
    obtain ⟨hstate, hatt, hretry, hlisten, hrep, hext, hnoReq, hcool, hclaims, hcomp, hlink, hctx⟩ := restarted_stands s id
    obtain ⟨hf, hsec, hcnt, hreq, hfrz⟩ := restarted_flt s id
    generalize s.restarted id = u at *
    exact ⟨_, hnext, hans, hstate, hatt, hretry, hlisten, hrep, hext, hnoReq, hcool, hclaims, hcomp, hlink, hctx,
      (fun h => nomatch h), hf, hsec,
      hcnt, hreq, hfrz, hframe⟩

end Sys2Proof.Machine
end

