-- ==== Sys2Proof/Proofs/MemberWork.lean ====
section
/-! SUPPORT. Takeover duty and the work of a station in MEMBER (R50, R138, R141, R145): the blocks each part
may change. -/

namespace Sys2Proof.Machine

/-! ### The blocks that the work of a MEMBER may change -/

/-- What the takeover duty of a station may change. -/
def dutyBlocks : List Block := [.bus, .mem, .flt]

/-- What the work of a station in MEMBER may change. -/
def memberBlocks : List Block := [.str, .plc, .dir, .bus, .mem, .flt]

theorem setDuty_changes (s : State) (h : Station) (d : Option Duty) : s.changesOnly (s.setDuty h d) dutyBlocks :=
  (onMem_changes s _).mono (by simp [dutyBlocks])

theorem queue_duty {s t : State} (h : s.changesOnly t dutyBlocks) (b : Body) :
    s.changesOnly (t.queueFrame b) dutyBlocks :=
  h.andThen (queueFrame_changes t b) (fun _ => id) (by simp [dutyBlocks])

theorem takeRun_changes (s : State) (h : Station) : s.changesOnly (s.takeRun h) dutyBlocks := by
  unfold State.takeRun
  split
  · exact queue_duty (setDuty_changes s h _) _
  · exact State.changesOnly.refl s _

theorem takeRuns_changes (s : State) : s.changesOnly s.takeRuns dutyBlocks := by
  unfold State.takeRuns
  split
  · exact State.changesOnly.foldl _ takeRun_changes _ s
  · exact State.changesOnly.refl s _

theorem adoptOne_changes (s : State) : s.changesOnly s.adoptOne dutyBlocks := by
  unfold State.adoptOne
  repeat' split
  all_goals first
    | exact State.changesOnly.refl s _
    | exact queue_duty ((onMem_changes s _).mono (by simp [dutyBlocks])) _

theorem completeRun_changes (s : State) (h : Station) : s.changesOnly (s.completeRun h) dutyBlocks := by
  unfold State.completeRun
  repeat' split
  all_goals first
    | exact State.changesOnly.refl s _
    | exact queue_duty (setDuty_changes s h _) _

theorem failRun_changes (s : State) (h : Station) : s.changesOnly (s.failRun h) dutyBlocks := by
  unfold State.failRun
  split
  · split
    · exact queue_duty (((((report_changes s _ _ _ _ _).andThen (onBus_changes _ _) (n := dutyBlocks)
        (by simp [dutyBlocks]) (by simp [dutyBlocks])).andThen (onMem_changes _ _) (n := dutyBlocks) (by simp)
        (by simp [dutyBlocks])).andThen (setDuty_changes _ h _) (by simp) (by simp))) _
    · exact State.changesOnly.refl s _
  · exact State.changesOnly.refl s _

theorem testNoAdopter_changes (s : State) : s.changesOnly s.testNoAdopter dutyBlocks := by
  unfold State.testNoAdopter
  repeat' split
  · exact State.changesOnly.refl s _
  · exact (onMem_changes s _).andThen (onFlt_changes _ _) (by simp [dutyBlocks]) (by simp [dutyBlocks])
  · exact (onMem_changes s _).mono (by simp [dutyBlocks])

/-- R145: a duty evaluation works on the bus, the membership controller and the fault capture unit. -/
theorem dutyEval_changes (s : State) : s.changesOnly s.dutyEval dutyBlocks := by
  unfold State.dutyEval
  split
  · exact ((((takeRuns_changes s).andThen (State.changesOnly.foldl _ (fun x _ => adoptOne_changes x) _ _)
      (n := dutyBlocks) (fun _ => id) (fun _ => id)).andThen
      (State.changesOnly.foldl _ completeRun_changes _ _) (n := dutyBlocks) (fun _ => id)
      (fun _ => id)).andThen (State.changesOnly.foldl _ failRun_changes _ _) (n := dutyBlocks) (fun _ => id)
      (fun _ => id)).andThen (testNoAdopter_changes _) (fun _ => id) (fun _ => id)
  · exact State.changesOnly.refl s _

theorem queueLeave_changes (s : State) : s.changesOnly s.queueLeave [.bus] := by
  unfold State.queueLeave
  split
  · exact queueFrame_changes s _
  · exact State.changesOnly.refl s _

theorem queueDue_changes (s : State) (k : Slot) : s.changesOnly (s.queueDue k) [.bus, .flt] := by
  have hdone : s.changesOnly (s.queueShutDone k) [.bus, .flt] := by
    unfold State.queueShutDone
    repeat' split
    all_goals first
      | exact State.changesOnly.refl s _
      | exact (queueFrame_changes s _).mono (by simp)
      | exact (report_changes s _ _ _ _ _).andThen (queueFrame_changes _ _) (by simp) (by simp)
  unfold State.queueDue
  repeat' split
  · exact (queueFrame_changes s _).mono (by simp)
  · exact hdone
  · exact State.changesOnly.refl s _

theorem absenceScan_changes (s : State) : s.changesOnly s.absenceScan [.bus] := by
  refine State.changesOnly.foldl _ (fun x st => ?_) _ s
  unfold State.queueAbsent
  repeat' split
  all_goals first
    | exact State.changesOnly.refl x _
    | exact queueFrame_changes x _

theorem evalPressure_changes (s : State) : s.changesOnly s.evalPressure memberBlocks :=
  (polices_evalPressure s).changesOnly.mono (by simp [policyBlocks, memberBlocks])

theorem policyPass_changes (s : State) (skip : List Ctx) : s.changesOnly (s.policyPass skip) memberBlocks :=
  (polices_policyPass s skip).changesOnly.mono (by simp [policyBlocks, memberBlocks])

/-- Work of a MEMBER after work of a MEMBER. -/
theorem State.changesOnly.member {s t u : State} {l : List Block} (h : s.changesOnly t memberBlocks)
    (g : t.changesOnly u l) (hl : ∀ b ∈ l, b ∈ memberBlocks) : s.changesOnly u memberBlocks :=
  h.andThen g (fun _ => id) hl

theorem dutyBlocks_member : ∀ b ∈ dutyBlocks, b ∈ memberBlocks := by decide

/-- R50, R134, R138, R145: the work that follows when the station has become MEMBER. -/
theorem afterMember_changes (s : State) : s.changesOnly s.afterMember memberBlocks := by
  have hdue : s.changesOnly (allSlots.foldl State.queueDue s) memberBlocks :=
    (State.changesOnly.foldl _ queueDue_changes _ s).mono (by simp [memberBlocks])
  unfold State.afterMember
  generalize allSlots.foldl State.queueDue s = t at hdue ⊢
  exact ((((hdue.member (policyPass_changes t []) (fun _ => id)).member (evalPressure_changes _)
    (fun _ => id)).member (absenceScan_changes _) (by simp [memberBlocks])).member (dutyEval_changes _)
    dutyBlocks_member).member (queueLeave_changes _) (by simp [memberBlocks])

/-- R54: the work that follows an applied frame. -/
theorem afterFrame_changes (s : State) : s.changesOnly s.afterFrame memberBlocks := by
  unfold State.afterFrame
  split
  · exact (((policyPass_changes s []).member (evalPressure_changes _) (fun _ => id)).member
      (dutyEval_changes _) dutyBlocks_member).member (queueLeave_changes _) (by simp [memberBlocks])
  · exact State.changesOnly.refl s _

end Sys2Proof.Machine
end

