-- ==== Sys2Proof/Proofs/BadEntries.lean ====
section
/-! SUPPORT. Entries that are not CLEAN (R51, R126, R128, R131) and the frames of the census (R122 to R126). -/

namespace Sys2Proof.Machine

/-! ### The receive queue through a change of membership -/

theorem startListen_rx (s : State) : s.startListen.bus.rx = s.bus.rx :=
  enter_rx (s := s) (m := .listen) (by decide) (by decide) (by decide)

theorem censusToListen_rx (s : State) : s.censusToListen.bus.rx = s.bus.rx :=
  startListen_rx (s.onMem fun m => { m with census := Vector.replicate 8 none, sealTimer := none })

theorem joinTaken_rx (s : State) : s.joinTaken.bus.rx = s.bus.rx :=
  (polices_policyPass (s.enter .catchup).beginAttempt).rx.trans
    ((works_queueFrame _ _).rx.trans (enter_rx (s := s) (m := .catchup) (by decide) (by decide) (by decide)))

/-- R135: the receive queue stands through a failed attempt, but where the station is ISOLATED. -/
theorem attemptFail_rx {s : State} (h : s.attemptFail.mem.state ≠ .isolated) :
    s.attemptFail.bus.rx = s.bus.rx := by
  rcases Nat.lt_or_ge s.mem.attempts 3 with hlt | hge
  · rw [attemptFail_less hlt]
    exact (works_withdraw s Body.isAsk).rx
  · rw [attemptFail_last hge] at h
    exact absurd rfl h

theorem joinFail_rx {s : State} (h : s.joinFail.mem.state ≠ .isolated) : s.joinFail.bus.rx = s.bus.rx := by
  rcases Nat.lt_or_ge s.mem.attempts 3 with hlt | hge
  · rw [joinFail_less hlt]
    exact (startListen_rx s.joinDropped.failedMore).trans (works_withdraw s Body.isJoin).rx
  · rw [joinFail_last hge] at h
    exact absurd rfl h

/-! ### Going stale with a report (R51, R53) -/

/-- R51, R53: a fault reported, and the station stale, after a frame taken. -/
theorem staleWith_settled {s u : State} (h : Took s u) (c : Cause) (slot : Option Byte) (st : Option Ctx)
    (peer : Option Station) (kind : Option Kind) :
    s.counted (u.report c slot st peer kind).goStale.settled c ∧
      s.wentStale (u.report c slot st peer kind).goStale.settled := by
  have hchanges : s.changesOnly (u.report c slot st peer kind) [.dir, .bus, .flt] :=
    h.changes.andThen (report_changes u c slot st peer kind) (by simp) (by simp)
  refine ⟨?_, wentStale_settled hchanges h.rep h.reqTag⟩
  exact State.counted.settled ((report_counted u c slot st peer kind).congr (by rw [h.flt])
    (congrArg (·[c.index]) (goStale_counts _))) rfl

theorem took_popRx (s : State) : Took s s.popRx := Took.onBus s _

/-! ### The entry taken (R84) -/

/-- The entry of a transmission that has been seen to end, or of another station, completes nothing. -/
theorem finishOwn_idle {s : State} {e : RxEntry} (h : e.own = true → s.bus.sending = none) :
    s.finishOwn e = s := by
  unfold State.finishOwn
  split
  next ho =>
    have hs := h ho
    have hclose : s.readToClosing = false := by rw [State.readToClosing, hs]; rfl
    have habort : s.abortTx = s := by simp only [State.abortTx, hs]
    split <;> simp only [completeTx_idle hs, hclose, habort, Bool.false_eq_true, if_false]
  · rfl

theorem RxEntry.isGood_false {e : RxEntry} (h : (∀ f, e.status ≠ .clean f) ∨ e.lostAfter = true) :
    e.isGood = false := by
  unfold RxEntry.isGood
  split
  next f hf =>
    rcases h with h | h
    · exact absurd hf (h f)
    · rw [h]; rfl
  all_goals rfl

/-- R51: a bad entry leaves the receive queue, and the membership state decides. -/
theorem exec_receiveEntryNotClean {s : State} {e : RxEntry} {rest : List RxEntry} (hs : s.rst = none)
    (hrx : s.bus.rx = e :: rest) (ho : e.own = true → s.bus.sending = none)
    (hbad : (∀ f, e.status ≠ .clean f) ∨ e.lostAfter = true) :
    exec .receiveEntryNotClean s = .next (s.popRx.takeBad e).settled := by
  change execReceiveEntryNotClean s = _
  unfold execReceiveEntryNotClean
  rw [live_settled _ hs]
  have hpop : s.popRx.finishOwn e = s.popRx := finishOwn_idle ho
  simp only [hrx, RxEntry.isGood_false hbad, Bool.false_eq_true, if_false, hpop]

theorem RxEntry.ownAborted_iff (e : RxEntry) : e.ownAborted = true ↔ ¬ e.counts := by
  cases ho : e.own <;> cases hl : e.lostAfter <;>
    simp [RxEntry.ownAborted, RxEntry.counts, ho, hl]

/-- R131: which entries fail the attempt, as the model tests it. -/
theorem attemptHit_iff (s : State) (e : RxEntry) :
    s.attemptHit e ↔ e.counts ∧ (s.logging = true ∨ e.own = true ∧ s.askSent = true) := by
  have hask (b : Body) : b.isAsk = false ↔ b.kind ≠ .catchupAsk := by cases b <;> simp [Body.isAsk, Body.kind]
  have hqueued : s.isQueued Body.isAsk = false ↔ ∀ q ∈ s.bus.waiting, q.body.kind ≠ .catchupAsk := by
    simp [State.isQueued, ← hask]
  unfold State.attemptHit State.logging State.askSent
  cases hr : s.dir.request with
  | none => simp
  | some r =>
    rcases r with r | ⟨tag, phase, began, tries, timer⟩
    · simp
    · cases phase <;> simp [hqueued]

theorem badInCatchup_hit {s : State} {e : RxEntry} (h : s.attemptHit e) : s.badInCatchup e = s.attemptFail := by
  obtain ⟨hc, hl⟩ := (attemptHit_iff s e).1 h
  unfold State.badInCatchup
  rw [if_neg fun ha => (RxEntry.ownAborted_iff e).1 ha hc, if_pos (by simpa using hl)]

theorem badInCatchup_spared {s : State} {e : RxEntry} (h : ¬ s.attemptHit e) : s.badInCatchup e = s := by
  rw [attemptHit_iff] at h
  unfold State.badInCatchup
  split
  · rfl
  next ha =>
    have hc : e.counts := not_not.1 fun hc => ha ((RxEntry.ownAborted_iff e).2 hc)
    exact if_neg fun hl => h ⟨hc, by simpa using hl⟩

/-- A withdrawn transmit side reads as before once the head has left the receive queue. -/
theorem attemptHit_popRx (s : State) (e : RxEntry) : s.popRx.attemptHit e ↔ s.attemptHit e := Iff.rfl

/-! ### The entry by membership state -/

theorem takeBad_member {s : State} (h : s.mem.state = .member) (e : RxEntry) :
    s.takeBad e = s.badInMember e := by
  simp only [State.takeBad, h]

theorem takeBad_census {s : State} (h : s.mem.state = .census) (e : RxEntry) :
    s.takeBad e = if e.ownAborted then s else s.censusToListen := by
  simp only [State.takeBad, h]

theorem takeBad_catchup {s : State} (h : s.mem.state = .catchup) (e : RxEntry) :
    s.takeBad e = s.badInCatchup e := by
  simp only [State.takeBad, h]

theorem takeBad_joining {s : State} (h : s.mem.state = .joining) (e : RxEntry) :
    s.takeBad e = s.badInJoining e := by
  simp only [State.takeBad, h]

theorem takeBad_other {s : State} (hm : s.mem.state ≠ .member) (hc : s.mem.state ≠ .census)
    (hu : s.mem.state ≠ .catchup) (hj : s.mem.state ≠ .joining) (e : RxEntry) : s.takeBad e = s := by
  unfold State.takeBad
  split <;> first | contradiction | rfl

theorem badInMember_overrun {s : State} {e : RxEntry} (h : e.status = .overlong ∨ e.lostAfter = true) :
    s.badInMember e = (s.report .busOverrun).goStale := by
  unfold State.badInMember
  rcases h with h | h
  · simp only [h]
    split <;> rfl
  · rw [if_pos h]

theorem badInMember_check {s : State} {e : RxEntry} (hl : e.lostAfter = false)
    (h : e.status = .checkError) : s.badInMember e = (s.report .busCheck).goStale := by
  simp only [State.badInMember, hl, h, Bool.false_eq_true, if_false]

theorem badInMember_aborted {s : State} {e : RxEntry} (hl : e.lostAfter = false) (h : e.status = .aborted) :
    s.badInMember e = if e.own then s else s.report .busAbort := by
  simp only [State.badInMember, hl, h, Bool.false_eq_true, if_false]

theorem badInJoining_own {s : State} {e : RxEntry} (ho : e.own = true) :
    (∀ f, e.status = .clean f → s.badInJoining e = s.joinTaken) ∧
      ((∀ f, e.status ≠ .clean f) → s.badInJoining e = s.joinFail) := by
  unfold State.badInJoining
  rw [if_pos ho]
  refine ⟨fun f hf => by rw [hf], fun hf => ?_⟩
  split <;> first | exact absurd (by assumption) (hf _) | rfl

/-- What a bad entry does in MEMBER (R51, R53, R85). -/
theorem badEntry_member {s : State} {e : RxEntry} {rest : List RxEntry} (hrx : s.bus.rx = e :: rest) :
    (e.lostAfter = false → e.status = .checkError →
      s.counted (s.popRx.badInMember e).settled .busCheck ∧ s.wentStale (s.popRx.badInMember e).settled) ∧
    (e.status = .overlong ∨ e.lostAfter = true →
      s.counted (s.popRx.badInMember e).settled .busOverrun ∧ s.wentStale (s.popRx.badInMember e).settled) ∧
    (e.status = .aborted → e.lostAfter = false →
      (s.popRx.badInMember e).settled.bus = { s.bus with rx := rest } ∧
        (e.own = false → s.counted (s.popRx.badInMember e).settled .busAbort ∧
          s.frame (s.popRx.badInMember e).settled [.bus, .flt]) ∧
        (e.own = true → s.frame (s.popRx.badInMember e).settled [.bus])) := by
  have hpop := popRx_eq hrx
  refine ⟨fun hl h => ?_, fun h => ?_, fun h hl => ?_⟩
  · rw [badInMember_check hl h]
    exact staleWith_settled (took_popRx s) _ _ _ _ _
  · rw [badInMember_overrun h]
    exact staleWith_settled (took_popRx s) _ _ _ _ _
  · rw [badInMember_aborted hl h]
    refine ⟨?_, fun ho => ?_, fun ho => ?_⟩
    · have hbus : s.popRx.bus = { s.bus with rx := rest } := by rw [hpop]
      split <;> exact hbus
    · rw [if_neg (by rw [ho]; decide)]
      exact ⟨State.counted.settled (report_counted s.popRx _ _ _ _ _) rfl,
        frame_of_changes ((popRx_changes s).andThen (report_changes _ _ _ _ _ _) (by simp) (by simp)) (by simp)⟩
    · rw [if_pos ho]
      exact frame_of_changes (popRx_changes s) (by simp)

/-- R84: an entry that is discarded leaves the receive queue, and nothing else. -/
theorem discarded_settled {s : State} {e : RxEntry} {rest : List RxEntry} (hrx : s.bus.rx = e :: rest) :
    s.popRx.settled.bus = { s.bus with rx := rest } ∧ s.frame s.popRx.settled [.bus] :=
  ⟨by rw [settled_bus, popRx_eq hrx], frame_of_changes (popRx_changes s) (by simp)⟩

theorem badInJoining_rx {s : State} {e : RxEntry} (h : (s.badInJoining e).mem.state ≠ .isolated) :
    (s.badInJoining e).bus.rx = s.bus.rx := by
  by_cases ho : e.own = true
  · obtain ⟨hclean, hnot⟩ := badInJoining_own (s := s) ho
    by_cases hc : ∃ f, e.status = .clean f
    · obtain ⟨f, hf⟩ := hc
      rw [hclean f hf]
      exact joinTaken_rx s
    · have hf : s.badInJoining e = s.joinFail := hnot fun f hf => hc ⟨f, hf⟩
      rw [hf] at h ⊢
      exact joinFail_rx h
  · rw [State.badInJoining, if_neg ho]

theorem badInCatchup_rx {s : State} {e : RxEntry} (h : (s.badInCatchup e).mem.state ≠ .isolated) :
    (s.badInCatchup e).bus.rx = s.bus.rx := by
  by_cases hh : s.attemptHit e
  · rw [badInCatchup_hit hh] at h ⊢
    exact attemptFail_rx h
  · rw [badInCatchup_spared hh]

theorem badInMember_rx (s : State) (e : RxEntry) : (s.badInMember e).bus.rx = s.bus.rx := by
  have hstale (c : Cause) : (s.report c).goStale.bus.rx = s.bus.rx := goStale_rx (s.report c)
  unfold State.badInMember
  split
  · exact hstale _
  · split
    · exact hstale _
    · exact hstale _
    · split <;> rfl
    · rfl

/-- R84: the rest of the receive queue stands, but where the station is ISOLATED. -/
theorem takeBad_rx {s : State} {e : RxEntry} (h : (s.takeBad e).mem.state ≠ .isolated) :
    (s.takeBad e).bus.rx = s.bus.rx := by
  unfold State.takeBad at h ⊢
  split at h
  · split
    · rfl
    · exact censusToListen_rx s
  · exact badInJoining_rx h
  · exact badInCatchup_rx h
  · exact badInMember_rx s e
  all_goals rfl

/-- Settles O37: the entry by the membership state that takes it. -/
theorem badEntryTaken : Obligations.BadEntryTaken := by
  unfold Obligations.BadEntryTaken
  intro e rest s hs hrx ho hbad
  refine ⟨_, exec_receiveEntryNotClean hs hrx ho hbad, fun hm => ?_, fun hm => ?_, fun hm => ?_,
    fun hm hown => ?_, fun hm => ?_, fun hiso => ?_⟩
  · rw [takeBad_member (s := s.popRx) hm]
    exact badEntry_member hrx
  · rw [takeBad_census (s := s.popRx) hm]
    refine ⟨fun hc => ?_, fun hc => ?_⟩
    · rw [if_neg fun ha => (RxEntry.ownAborted_iff e).1 ha hc]
      exact leftCensus_settled (popRx_changes s)
    · rw [if_pos ((RxEntry.ownAborted_iff e).2 hc)]
      exact discarded_settled hrx
  · rw [takeBad_catchup (s := s.popRx) hm]
    refine ⟨fun hh => ?_, fun hh => ?_⟩
    · rw [badInCatchup_hit ((attemptHit_popRx s e).2 hh)]
      exact attemptFailed_settled (popRx_changes s)
    · rw [badInCatchup_spared (mt (attemptHit_popRx s e).1 hh)]
      exact discarded_settled hrx
  · rw [takeBad_joining (s := s.popRx) hm]
    obtain ⟨hclean, hnot⟩ := badInJoining_own (s := s.popRx) hown
    refine ⟨fun f hf => ?_, fun hf => ?_⟩
    · rw [hclean f hf]
      exact joined_settled (popRx_changes s)
    · rw [hnot hf]
      exact joinFailed_settled (popRx_changes s)
  · have hkeep : s.popRx.takeBad e = s.popRx := by
      rcases hm with hm | ⟨hm, hother⟩
      · exact takeBad_other (s := s.popRx) (by rw [show s.popRx.mem.state = _ from hm]; decide)
          (by rw [show s.popRx.mem.state = _ from hm]; decide)
          (by rw [show s.popRx.mem.state = _ from hm]; decide)
          (by rw [show s.popRx.mem.state = _ from hm]; decide) e
      · rw [takeBad_joining (s := s.popRx) hm]
        exact if_neg (by rw [hother]; decide)
    rw [hkeep]
    exact discarded_settled hrx
  · have hpop : s.popRx.bus.rx = rest := by rw [popRx_eq hrx]
    exact (takeBad_rx hiso).trans hpop

end Sys2Proof.Machine
end

