-- ==== Sys2Proof/Proofs/Census.lean ====
section
/-! SUPPORT. The census (R122 to R126), and the frames that are not applied (R51 to R53, R80). -/

namespace Sys2Proof.Machine

/-! ### What the work of a MEMBER leaves of the membership controller -/

/-- `t` differs from `s` in the membership controller by the records of takeover duty alone. -/
structure Dutiful (s t : State) : Prop where
  mem : t.mem = { s.mem with
    duty := t.mem.duty, adoption := t.mem.adoption, noAdopter := t.mem.noAdopter }

namespace Dutiful

theorem refl (s : State) : Dutiful s s := ⟨rfl⟩

theorem of_mem {s t : State} (h : t.mem = s.mem) : Dutiful s t := ⟨by rw [h]⟩

theorem trans {s t u : State} (h : Dutiful s t) (g : Dutiful t u) : Dutiful s u :=
  ⟨by rw [g.mem, h.mem]⟩

theorem foldl {α : Type} (f : State → α → State) (h : ∀ s x, Dutiful s (f s x)) (l : List α) (s : State) :
    Dutiful s (l.foldl f s) := by
  induction l generalizing s with
  | nil => exact refl s
  | cons x l ih => exact (h s x).trans (ih _)

end Dutiful

theorem dutiful_takeRuns (s : State) : Dutiful s s.takeRuns := by
  unfold State.takeRuns
  split
  · refine Dutiful.foldl _ (fun x h => ?_) _ s
    unfold State.takeRun
    split
    · exact ⟨rfl⟩
    · exact Dutiful.refl x
  · exact Dutiful.refl s

theorem dutiful_adoptOne (s : State) : Dutiful s s.adoptOne := by
  unfold State.adoptOne
  repeat' split
  all_goals exact ⟨rfl⟩

theorem dutiful_completeRun (s : State) (h : Station) : Dutiful s (s.completeRun h) := by
  unfold State.completeRun
  repeat' split
  all_goals exact ⟨rfl⟩

theorem dutiful_failRun (s : State) (h : Station) : Dutiful s (s.failRun h) := by
  unfold State.failRun
  repeat' split
  all_goals exact ⟨rfl⟩

theorem dutiful_testNoAdopter (s : State) : Dutiful s s.testNoAdopter := by
  unfold State.testNoAdopter
  repeat' split
  all_goals exact ⟨rfl⟩

/-- R145: a duty evaluation changes the records of takeover duty alone. -/
theorem dutiful_dutyEval (s : State) : Dutiful s s.dutyEval := by
  unfold State.dutyEval
  split
  · exact (((((dutiful_takeRuns s).trans (Dutiful.foldl _ (fun x _ => dutiful_adoptOne x) _ _)).trans
      (Dutiful.foldl _ dutiful_completeRun _ _)).trans (Dutiful.foldl _ dutiful_failRun _ _)).trans
      (dutiful_testNoAdopter _))
  · exact Dutiful.refl s

theorem dutiful_queueLeave (s : State) : Dutiful s s.queueLeave :=
  Dutiful.of_mem ((queueLeave_changes s).1 .mem (by simp))

theorem dutiful_afterMember (s : State) : Dutiful s s.afterMember := by
  have hdue : (allSlots.foldl State.queueDue s).mem = s.mem :=
    (State.changesOnly.foldl _ queueDue_changes _ s).1 .mem (by simp)
  unfold State.afterMember
  generalize allSlots.foldl State.queueDue s = t at hdue ⊢
  have hscan := (absenceScan_changes t.policyPass.evalPressure).1 .mem (by simp)
  exact (((((Dutiful.of_mem hdue).trans (Dutiful.of_mem (polices_policyPass t).mem)).trans
    (Dutiful.of_mem (polices_evalPressure _).mem)).trans (Dutiful.of_mem hscan)).trans
    (dutiful_dutyEval _)).trans (dutiful_queueLeave _)

theorem dutiful_afterFrame (s : State) : Dutiful s s.afterFrame := by
  unfold State.afterFrame
  split
  · exact (((Dutiful.of_mem (polices_policyPass s).mem).trans
      (Dutiful.of_mem (polices_evalPressure _).mem)).trans (dutiful_dutyEval _)).trans (dutiful_queueLeave _)
  · exact Dutiful.refl s

theorem postPeer_changes (s : State) (st : Station) : s.changesOnly (s.postPeer st) [.flt] :=
  onFlt_changes s _

/-! ### What each membership state does with any frame -/

/-- R126: in CENSUS every kind but ROLL and SEAL leads to LISTEN. -/
theorem take_census {u : State} {own : Bool} {f : Frame} (h : u.mem.state = .census)
    (hr : f.body.kind ≠ .roll) (hs : f.body.kind ≠ .seal) :
    f.body.kind.take own f u = u.censusToListen := by
  obtain ⟨sender, dest, base, body⟩ := f
  cases body <;>
    first
      | exact absurd rfl hr
      | exact absurd rfl hs
      | simp only [Body.kind, Kind.take, takeBeacon, takeJoin, takeRecall, takeDefer, takeCatchupAsk,
          takeCatchupOffer, takeSnapshot, State.takeDirectory, h]

/-- R80: in MEMBER every kind is taken through the test of its sender's presence. -/
theorem take_member {u : State} (own : Bool) (f : Frame) (h : u.mem.state = .member) :
    ∃ act, f.body.kind.take own f u = u.fromPresent f act := by
  obtain ⟨sender, dest, base, body⟩ := f
  cases body <;>
    exact ⟨_, by simp only [Body.kind, Kind.take, takeRoll, takeSeal, takeBeacon, takeJoin, takeRecall,
      takeDefer, takeCatchupAsk, takeCatchupOffer, takeSnapshot, State.takeDirectory, h]; rfl⟩

/-- R51, R54: the action of a directory kind outside JOINING. -/
theorem take_directory {u : State} {own : Bool} {f : Frame} (hk : f.body.kind.isDirectory = true)
    (hj : u.mem.state ≠ .joining) : f.body.kind.take own f u = u.takeDirectory f := by
  obtain ⟨sender, dest, base, body⟩ := f
  cases body <;> first | contradiction | rfl | skip
  simp only [Body.kind, Kind.take, takeJoin]
  split
  next hs => exact absurd hs hj
  all_goals rfl

theorem takeDirectory_member {u : State} {f : Frame} (h : u.mem.state = .member)
    (hp : f.body.kind = .join ∨ u.dir.rep.isPresent f.sender = true) :
    u.takeDirectory f = u.applyOrStale f := by
  unfold State.takeDirectory
  rw [h]
  refine if_pos (hp.imp_left fun hj => ?_)
  cases hb : f.body <;> simp_all [Body.isJoin, Body.kind]

theorem applyOrStale_applies {u : State} {f : Frame} (h : u.dir.rep.applies f = true) :
    u.applyOrStale f = u.applyLive f := if_pos h

theorem applyOrStale_unfit {u : State} {f : Frame} (h : u.dir.rep.applies f = false) :
    u.applyOrStale f = (u.report .genSkew (slot := f.body.slot?.bind slotByte) (peer := some f.sender)
      (kind := some f.body.kind)).goStale := if_neg (by rw [h]; decide)

/-! ### Frames not applied (R51, R53, R80) -/

/-- R53: a directory-kind frame of a PRESENT station that is not fit makes the station stale. -/
theorem exec_unfit {c : Instr} {s : State} {own : Bool} {f : Frame} {rest : List RxEntry}
    (h : s.takes own f rest) (hm : s.mem.state = .member) (hc : c.takesKind = some f.body.kind)
    (hk : f.body.kind.isDirectory = true) (hp : s.dir.rep.isPresent f.sender = true)
    (ha : s.dir.rep.applies f = false) :
    ∃ t, exec c s = .next t ∧ s.counted t .genSkew ∧ s.wentStale t := by
  have htook := took_taken (s := s) own (by rw [hm]; decide)
  have hmem : (s.taken own).mem.state = .member := by rw [htook.mem, hm]
  refine ⟨_, exec_takes hc h, ?_⟩
  rw [take_directory hk (by rw [hmem]; decide),
    takeDirectory_member hmem (.inr (by rw [htook.rep]; exact hp)),
    applyOrStale_unfit (by rw [htook.rep]; exact ha)]
  exact staleWith_settled htook _ _ _ _ _

/-- R80: a frame of a station that is not PRESENT is counted as ignored. -/
theorem exec_ignored {c : Instr} {s : State} {f : Frame} {rest : List RxEntry} (h : s.takes false f rest)
    (hm : s.mem.state = .member) (hc : c.takesKind = some f.body.kind) (hj : f.body.kind ≠ .join)
    (hp : s.dir.rep.isPresent f.sender = false) :
    ∃ t, exec c s = .next t ∧ t.dir = { s.dir with ignored := min (s.dir.ignored + 1) 65535 } ∧
      t.bus = { s.bus with rx := rest } ∧ s.frame t [.bus, .dir] := by
  refine ⟨_, exec_takes hc h, ?_⟩
  obtain ⟨act, hact⟩ := take_member (u := s.taken false) false f hm
  have hpop : s.taken false = { s with bus := { s.bus with rx := rest } } := popRx_eq h.2
  rw [hact, fromPresent_absent (s := s.taken false) hj hp]
  refine ⟨?_, ?_, frame_of_changes (((popRx_changes s).andThen (onDir_changes _ _)) (by simp) (by simp))
    (by simp)⟩
  · rw [hpop]
    rfl
  · rw [hpop]
    rfl

/-! ### Fitness (R52, R143) -/

theorem heldCount_zero_iff (r : Replica) (st : Station) :
    r.heldCount st = 0 ↔ ∀ j : Slot, r.dir[j].holder? ≠ some st := by
  simp [Replica.heldCount, Replica.holds, List.filter_eq_nil_iff, allSlots]

theorem runNames_false_iff (r : Replica) (st : Station) :
    r.runNames st = false ↔ ∀ j : Station, r.runs[j] ≠ some st := by
  simp [Replica.runNames, allStations]

theorem holdsMixed_false_iff (r : Replica) (st : Station) :
    r.holdsMixed st = false ↔ ∀ j : Slot, r.dir[j].holder? = some st → r.dir[j].kind? ≠ some .mixed := by
  simp [Replica.holdsMixed, Replica.holds, allSlots]

theorem DirEntry.orphanOf_iff (h : Station) (e : DirEntry) :
    e.orphanOf h = true ↔ ∃ kd g n, e = .orphaned h kd g n := by
  cases e <;> simp [DirEntry.orphanOf]

theorem hasOrphan_iff (r : Replica) (h : Station) :
    r.hasOrphan h = true ↔
      ∃ (j : Slot) (kd : SlotKind) (g : Gen) (n : Fin 2), r.dir[j] = .orphaned h kd g n := by
  simp only [Replica.hasOrphan, allSlots, List.any_eq_true, List.mem_finRange, true_and,
    DirEntry.orphanOf_iff]

/-- R143: the adopter is the lowest station that may adopt. -/
theorem adopter_iff (r : Replica) (st : Station) :
    r.adopter = some st ↔ r.mayAdopt st ∧ ∀ j : Station, j < st → ¬ r.mayAdopt j := by
  have hmay (j : Station) : (r.isPresent j && r.roster[j].adoptDis == some false &&
      !r.roster[j].takeoverFailed) = true ↔ r.mayAdopt j := by
    simp [Replica.mayAdopt, and_assoc]
  unfold Replica.adopter allStations
  rw [← Fin.find?_eq_find?_finRange, Fin.find?_eq_some_iff, hmay]
  simp only [← hmay, Bool.not_eq_true]

/-- R52: when a frame that is no JOIN is fit. -/
theorem applies_iff {r : Replica} {f : Frame} (hj : f.body.kind ≠ .join) :
    r.applies f = true ↔ f.base = some r.gen ∧ r.valid f.sender f.body = true := by
  simp [Replica.applies, hj]

theorem valid_claim_iff (r : Replica) (st : Station) (k : Slot) (kd : SlotKind) :
    r.valid st (.claim k kd) = true ↔ k.val < r.budget ∧ r.dir[k] = .free ∧
      (kd = .mixed → ∀ j : Slot, r.dir[j].holder? = some st → r.dir[j].kind? ≠ some .mixed) := by
  rw [← holdsMixed_false_iff]
  cases kd <;> simp [Replica.valid, and_assoc]

theorem valid_shut_iff {r : Replica} {st : Station} {k : Slot} {c : ShutCause}
    {a : Option (ReqTag × Station)} (hc : c ≠ .adopted) :
    r.valid st (.shut k c a) = true ↔ ∃ kd g, r.dir[k] = .opened st kd g := by
  cases c <;> first | contradiction | skip
  all_goals
    simp only [Replica.valid]
    cases r.dir[k] <;> simp

theorem valid_adopted_iff (r : Replica) (st : Station) (k : Slot) (a : Option (ReqTag × Station)) :
    r.valid st (.shut k .adopted a) = true ↔
      ∃ o kd g n, r.dir[k] = .orphaned o kd g n ∧ r.runs[o] = some st := by
  simp only [Replica.valid]
  cases r.dir[k] <;> simp

theorem valid_shutDone_iff (r : Replica) (st : Station) (k : Slot) (o : ShutOutcome) :
    r.valid st (.shutDone k o) = true ↔ ∃ kd g c n, r.dir[k] = .closing st kd g c n ∧
      (o = .retrying → n = 0) ∧ (o = .quarantined → n = 1) := by
  simp only [Replica.valid]
  cases r.dir[k] <;> cases o <;> simp

theorem valid_restore_iff (r : Replica) (st : Station) (k : Slot) :
    r.valid st (.restore k) = true ↔ r.dir[k] = .quarantined := by
  simp [Replica.valid]

theorem valid_absent_iff (r : Replica) (st h : Station) :
    r.valid st (.absent h) = true ↔ r.isPresent h = true ∧ h ≠ st := by
  simp [Replica.valid]

theorem valid_leave_iff (r : Replica) (st h : Station) :
    r.valid st (.leave h) = true ↔
      (∀ j : Slot, r.dir[j].holder? ≠ some st) ∧ ∀ j : Station, r.runs[j] ≠ some st := by
  rw [← heldCount_zero_iff, ← runNames_false_iff]
  simp [Replica.valid]

theorem valid_takeover_iff (r : Replica) (st h : Station) :
    r.valid st (.takeover h) = true ↔ r.runs[h] = none ∧
      (∃ (j : Slot) (kd : SlotKind) (g : Gen) (n : Fin 2), r.dir[j] = .orphaned h kd g n) ∧
      r.mayAdopt st ∧ ∀ j : Station, j < st → ¬ r.mayAdopt j := by
  rw [← hasOrphan_iff, ← adopter_iff]
  simp [Replica.valid, and_assoc]

theorem valid_takeoverEnd_iff (r : Replica) (st h : Station) (o : RunOutcome) :
    r.valid st (.takeoverEnd h o) = true ↔ r.runs[h] = some st ∧ (o = .done →
      ∀ (j : Slot) (kd : SlotKind) (g : Gen) (n : Fin 2), r.dir[j] ≠ .orphaned h kd g n) := by
  have hno : (∀ (j : Slot) (kd : SlotKind) (g : Gen) (n : Fin 2), r.dir[j] ≠ .orphaned h kd g n) ↔
      r.hasOrphan h = false := by
    rw [Bool.eq_false_iff, Ne, hasOrphan_iff]
    push Not
    rfl
  rw [hno]
  cases o <;> simp [Replica.valid]

/-- Settles O45: fitness by the frame's kind; a frame that is not fit, and one of a station that is not
PRESENT, by what MEMBER does with it. -/
theorem unfitFrames : Obligations.UnfitFrames := by
  unfold Obligations.UnfitFrames
  refine ⟨fun r f k h => ⟨fun kd hb => ?_, fun c a hb hc => ?_, fun a hb => ?_, fun o hb => ?_, fun hb => ?_,
    fun hb => ?_, fun hb => ?_, fun hb => ?_, fun o hb => ?_, fun hk => ?_⟩,
    fun c own f rest s hs hm hc => ⟨fun hk hp ha => exec_unfit hs hm hc hk hp ha, fun hj hp ho => ?_⟩⟩
  · rw [applies_iff (by simp [hb, Body.kind]), hb, valid_claim_iff]
  · rw [applies_iff (by simp [hb, Body.kind]), hb, valid_shut_iff hc]
  · rw [applies_iff (by simp [hb, Body.kind]), hb, valid_adopted_iff]
  · rw [applies_iff (by simp [hb, Body.kind]), hb, valid_shutDone_iff]
  · rw [applies_iff (by simp [hb, Body.kind]), hb, valid_restore_iff]
  · rw [applies_iff (by simp [hb, Body.kind]), hb, valid_absent_iff]
  · rw [applies_iff (by simp [hb, Body.kind]), hb, valid_leave_iff]
  · rw [applies_iff (by simp [hb, Body.kind]), hb, valid_takeover_iff]
  · rw [applies_iff (by simp [hb, Body.kind]), hb, valid_takeoverEnd_iff]
  · rw [Replica.applies, hk]
    rfl
  · subst ho
    exact exec_ignored hs hm hc hj hp

/-! ### The census (R122 to R126) -/

/-- A command that takes a frame, in CENSUS, where it completes no transmission. -/
theorem exec_census {c : Instr} {s : State} {own : Bool} {f : Frame} {rest : List RxEntry}
    (h : s.takes own f rest) (ho : own = true → s.bus.sending = none) (hc : c.takesKind = some f.body.kind) :
    exec c s = .next (f.body.kind.take own f s.popRx).settled := by
  rw [exec_takes hc h, taken_plain ho]

/-- R122: what a ROLL does in CENSUS. -/
theorem take_roll {u : State} (own : Bool) {f : Frame} {st : Station} {q : BitVec 4} {a : Bool} {d : Params}
    (hm : u.mem.state = .census) (hb : f.body = .roll st q a d) :
    takeRoll own f u = u.rollInCensus own f.sender q a d := by
  simp only [takeRoll, hm, hb]

theorem take_seal {u : State} (own : Bool) {f : Frame} {l : List SealEntry} {p : Params}
    (hm : u.mem.state = .census) (hb : f.body = .seal l p) :
    takeSeal own f u = u.sealInCensus f.sender l p := by
  simp only [takeSeal, hm, hb]

/-- R122, R123: the entry of a ROLL; the own loopback starts the seal deadline, and another's digest that
differs is reported. -/
theorem rollInCensus_settled {s : State} {rest : List RxEntry} {e : RxEntry} (hrx : s.bus.rx = e :: rest)
    (own : Bool) (st : Station) (q : BitVec 4) (a : Bool) (d : Params) :
    let t := (s.popRx.rollInCensus own st q a d).settled
    t.bus = { s.bus with rx := rest } ∧
      t.mem = { s.mem with
        census := put s.mem.census st (some { quota := q, adoptDis := a }),
        sealTimer :=
          if own then some (4 * s.pTicks + s.mem.stn.val * (s.pTicks / 2)) else s.mem.sealTimer } ∧
      (own = true ∨ s.mem.cfg.map (·.params) = some d → t.flt = s.flt) ∧
      (own = false → s.mem.cfg.map (·.params) ≠ some d → s.counted t .paramMismatch) ∧
      s.frame t [.bus, .mem, .flt] := by
  have hpop := popRx_eq hrx
  have hbus : s.popRx.bus = { s.bus with rx := rest } := by rw [hpop]
  have hentered : s.changesOnly (s.popRx.enterCensus st q a) [.bus, .mem, .flt] :=
    (popRx_changes s).andThen (onMem_changes _ _) (by simp) (by simp)
  cases own with
  | true =>
    exact ⟨hbus, rfl, fun _ => rfl, fun h => (nomatch h),
      frame_of_changes (hentered.andThen (onMem_changes _ _) (fun _ => id) (by simp)) (by simp)⟩
  | false =>
    by_cases hd : s.mem.cfg.map (·.params) = some d
    · have heq : s.popRx.rollInCensus false st q a d = s.popRx.enterCensus st q a := if_pos hd
      rw [heq]
      exact ⟨hbus, rfl, fun _ => rfl, fun _ h => absurd hd h, frame_of_changes hentered (by simp)⟩
    · have heq : s.popRx.rollInCensus false st q a d =
          (s.popRx.enterCensus st q a).report .paramMismatch (peer := some st) := if_neg hd
      rw [heq]
      refine ⟨hbus, rfl, fun h => ?_, fun _ _ => ?_,
        frame_of_changes (hentered.andThen (report_changes _ _ _ _ _ _) (fun _ => id) (by simp)) (by simp)⟩
      · rcases h with h | h
        · cases h
        · exact absurd h hd
      · exact State.counted.settled (report_counted (s.popRx.enterCensus st q a) _ _ _ _ _) rfl

/-- R125: the station in MEMBER with the sealed replica, before the work that follows. -/
def State.sealBase (s : State) (l : List SealEntry) (p : Params) : State :=
  ((((allStations.filter (s.setRep (Replica.ofSeal l p)).dir.rep.isPresent).foldl State.postPeer
    (s.setRep (Replica.ofSeal l p))).onBus Bus.restartHeard).onMem fun m =>
      { m with census := Vector.replicate 8 none, sealTimer := none }).enter .member

theorem sealFrom_eq (s : State) (l : List SealEntry) (p : Params) :
    s.sealFrom l p = (s.sealBase l p).afterMember := by
  simp only [State.sealFrom, State.sealBase]

/-- R125: what stands in MEMBER before the work that follows. -/
theorem sealBase_stands (s : State) (l : List SealEntry) (p : Params) :
    s.changesOnly (s.sealBase l p) memberBlocks ∧ (s.sealBase l p).dir.rep = Replica.ofSeal l p ∧
      (s.sealBase l p).mem = { s.mem with
        state := .member, census := Vector.replicate 8 none, sealTimer := none } ∧
      ∀ st : Station, (s.sealBase l p).bus.heard[st].time = 0 := by
  have hset : s.changesOnly (s.setRep (Replica.ofSeal l p)) memberBlocks :=
    (onDir_changes s _).mono (by simp [memberBlocks])
  have hrep : (s.setRep (Replica.ofSeal l p)).dir.rep = Replica.ofSeal l p := rfl
  have hmem : (s.setRep (Replica.ofSeal l p)).mem = s.mem := rfl
  unfold State.sealBase
  generalize s.setRep (Replica.ofSeal l p) = u at hset hrep hmem ⊢
  have hpeers : u.changesOnly ((allStations.filter u.dir.rep.isPresent).foldl State.postPeer u) [.flt] :=
    State.changesOnly.foldl _ (fun x st => postPeer_changes x st) _ u
  generalize (allStations.filter u.dir.rep.isPresent).foldl State.postPeer u = v at hpeers ⊢
  have hvrep : v.dir.rep = u.dir.rep := congrArg Directory.rep (hpeers.1 .dir (by simp))
  have hvmem : v.mem = u.mem := hpeers.1 .mem (by simp)
  refine ⟨?_, hvrep.trans hrep, ?_, fun st => ?_⟩
  · exact (((hset.member hpeers (by simp [memberBlocks])).member (onBus_changes _ _)
      (by simp [memberBlocks])).member (onMem_changes _ _) (by simp [memberBlocks])).member
      (enter_changes _ _) (by simp [memberBlocks])
  · rw [enter_mem, State.onMem_mem, State.onBus_mem, hvmem, hmem]
  · have hheard : (((v.onBus Bus.restartHeard).onMem fun m =>
        { m with census := Vector.replicate 8 none, sealTimer := none }).enter .member).bus.heard =
        v.bus.restartHeard.heard := by
      change (Bus.withdraw _ _).heard = _
      unfold Bus.withdraw
      split <;> rfl
    rw [hheard]
    exact congrArg Heard.time (mapIdx_get v.bus.heard _ st)

/-- R125: the first SEAL, where it lists the station with its own parameters, makes it MEMBER. -/
theorem sealFrom_settled {s u : State} (h : s.changesOnly u [.bus]) (l : List SealEntry) (p : Params) :
    let t := (u.sealFrom l p).settled
    t.mem.state = .member ∧ t.dir.rep = Replica.ofSeal l p ∧ (∀ st : Station, t.mem.census[st] = none) ∧
      t.mem.sealTimer = none ∧ (∀ st : Station, t.bus.heard[st].time = 0) ∧
      s.frame t [.str, .plc, .dir, .bus, .mem, .flt] := by
  obtain ⟨hchanges, hrep, hmem, hheard⟩ := sealBase_stands u l p
  rw [sealFrom_eq]
  have hw := works_afterMember (u.sealBase l p)
  have hd := dutiful_afterMember (u.sealBase l p)
  have hall := hchanges.member (afterMember_changes (u.sealBase l p)) (fun _ => id)
  generalize (u.sealBase l p).afterMember = v at hw hd hall ⊢
  refine ⟨hw.state.trans (by rw [hmem]), hw.rep.trans hrep, fun st => ?_, ?_, fun st => ?_,
    frame_of_changes (h.andThen hall (by simp) (fun _ => id)) (by simp)⟩
  · rw [settled_mem, hd.mem, hmem]
    simp
  · rw [settled_mem, hd.mem, hmem]
  · rw [settled_bus, hw.heard]
    exact hheard st

/-- R125: whether a SEAL lists the station. -/
theorem listed_iff (l : List SealEntry) (st : Station) :
    l.any (·.station == st) = true ↔ ∃ e ∈ l, e.station = st := by
  simp

/-- Settles O39: a ROLL, the first SEAL by whether and how it lists the station, and any other frame. -/
theorem censusFramesDecide : Obligations.CensusFramesDecide := by
  unfold Obligations.CensusFramesDecide
  intro own f rest s h hm ho
  refine ⟨fun st q a d hb => ?_, fun l p hb => ?_, fun c hc hr hs => ?_⟩
  · have hex := exec_census (c := .roll) h ho (by rw [hb]; rfl)
    rw [hb] at hex
    change _ = Host.Outcome.next (takeRoll own f s.popRx).settled at hex
    rw [take_roll (u := s.popRx) own hm hb] at hex
    exact ⟨_, hex, rollInCensus_settled h.2 own f.sender q a d⟩
  · have hex := exec_census (c := .seal) h ho (by rw [hb]; rfl)
    rw [hb] at hex
    change _ = Host.Outcome.next (takeSeal own f s.popRx).settled at hex
    rw [take_seal (u := s.popRx) own hm hb] at hex
    refine ⟨fun hno => ⟨_, hex, ?_⟩, fun hin hp => ⟨_, hex, ?_⟩, fun hin hp => ⟨_, hex, ?_⟩⟩
    · have hnot : ¬ l.any (·.station == s.popRx.me) = true := fun hl => by
        obtain ⟨e, he, hst⟩ := (listed_iff l _).1 hl
        exact hno e he hst
      rw [State.sealInCensus, if_neg hnot]
      exact leftCensus_settled (popRx_changes s)
    · rw [State.sealInCensus, if_pos ((listed_iff l s.popRx.me).2 hin), if_neg (show ¬ s.popRx.mem.cfg.map (·.params) = some p from hp)]
      exact barred_settled (took_popRx s).sameHoldings rfl _
    · rw [State.sealInCensus, if_pos ((listed_iff l s.popRx.me).2 hin), if_pos (show s.popRx.mem.cfg.map (·.params) = some p from hp)]
      exact sealFrom_settled (popRx_changes s) l p
  · refine ⟨_, exec_census h ho hc, ?_⟩
    rw [take_census (u := s.popRx) hm hr hs]
    exact leftCensus_settled (popRx_changes s)

end Sys2Proof.Machine
end

