-- ==== Sys2Proof/Proofs/Generations.lean ====
section
/-! SUPPORT. The generation of the replica (R45). -/


namespace Sys2Proof.Machine

/-! ### The generation (R45) -/

/-- R54: the effect of a frame leaves the generation that the frame has already advanced. -/
theorem effect_gen (r : Replica) (st : Station) (b : Body) : (r.effect st b).gen = r.gen := by
  cases b with
  | join s q a d =>
    simp only [Replica.effect, Replica.setRoster]
    split <;> simp only [Replica.orphan]
  | takeoverEnd h o => cases o <;> simp only [Replica.effect, Replica.setRoster]
  | _ => simp only [Replica.effect, Replica.setRoster, Replica.setSlot, Replica.orphan]

theorem apply_directory {r : Replica} {st : Station} {b : Body} (h : b.kind.isDirectory = true) :
    r.apply st b = ({ r with gen := r.gen + 1 } : Replica).effect st b := if_pos h

theorem apply_gen {r : Replica} {st : Station} {b : Body} (h : b.kind.isDirectory = true) :
    (r.apply st b).gen = r.gen + 1 := by
  rw [apply_directory h, effect_gen]

theorem unpackSnapshot_gen {parts : List (List Byte)} {g : Gen} {r : Replica}
    (h : unpackSnapshot parts g = some r) : r.gen = g := by
  unfold unpackSnapshot at h
  split at h
  · cases h
    rfl
  · cases h

/-- R180: the generation stands in the response to READ-STATUS. -/
theorem statusContent_gen (s : State) : f4 s.dir.rep.gen.toNat <:+: s.statusContent := by
  unfold State.statusContent
  iterate 12 refine List.IsInfix.trans ?_ (List.prefix_append _ _).isInfix
  exact (List.suffix_append _ _).isInfix

theorem goStale_rep (s : State) : s.goStale.dir.rep = s.dir.rep := by
  obtain ⟨-, hrep, -⟩ := goStale_began s
  exact hrep

/-- Settles O11: the generation through an applied frame, its values at the start, and what carries it. -/
theorem generationCountsAppliedFrames : Obligations.GenerationCountsAppliedFrames := by
  unfold Obligations.GenerationCountsAppliedFrames
  refine ⟨fun r st b h => apply_gen h, fun r st b h => if_neg (by rw [h]; decide), fun r st k kind => ?_, rfl,
    fun _ _ => rfl, fun parts g r h => unpackSnapshot_gen h, by decide, fun _ _ _ _ _ _ => rfl, fun s => ?_,
    fun s f h => ?_⟩
  · rw [apply_directory rfl]
    exact (put_get r.dir k k _).trans (if_pos rfl)
  · obtain ⟨pre, post, h⟩ := statusContent_gen s
    exact ⟨pre, post, h.symm⟩
  · rw [applyOrStale_unfit h, goStale_rep]
    rfl

end Sys2Proof.Machine
end

