-- ==== Sys2Proof/Proofs/PolicyFrames.lean ====
section
/-! SUPPORT. Shuts decided (R72), and the frames that the placement policy queues, each with the record that
stands behind it: claims (R58), the recall (R61, R110) and shuts (R72). -/

namespace Sys2Proof.Machine

/-! ### A shut decided (R72) -/

theorem residents_bus (s : State) (l : List Ctx) : (l.foldl State.endResidency s).bus = s.bus :=
  (residents_changes s l).1 .bus (by simp)

theorem residents_mem (s : State) (l : List Ctx) : (l.foldl State.endResidency s).mem = s.mem :=
  (residents_changes s l).1 .mem (by simp)

/-- R72: where a shut is decided already or applied, or no holding stands, nothing is decided. -/
theorem decideShut_none {s : State} {k : Slot} (c : ShutCause) (r : Option (ReqTag × Station))
    (h : ∀ x, s.dir.ext[k] = some x → x.shutDue.isSome ∨ s.shutApplied k = true) :
    s.decideShut k c r = s := by
  unfold State.decideShut
  split
  · rfl
  next x hx => exact if_pos (h x hx)

/-- R72: what the decision of a shut sets in the extension. -/
def Ext.shutFor (x : Ext) (c : ShutCause) (r : Option (ReqTag × Station)) : Ext :=
  { x with shutDue := some c, shutRecall := r, shutSent := false }

/-- R72: the shut decided, before its SHUT is queued. -/
def State.shutting (s : State) (k : Slot) (x : Ext) (c : ShutCause) (r : Option (ReqTag × Station)) : State :=
  x.residents.foldl State.endResidency (s.setExt k (some (x.shutFor c r)))

theorem decideShut_due {s : State} {k : Slot} {x : Ext} (hx : s.dir.ext[k] = some x)
    (hd : x.shutDue = none) (ha : s.shutApplied k = false) (c : ShutCause) (r : Option (ReqTag × Station)) :
    s.decideShut k c r =
      if s.mem.state = .member then (s.shutting k x c r).queueFrame (shutBody k (x.shutFor c r) c)
      else s.shutting k x c r := by
  unfold State.decideShut
  rw [hx]
  exact if_neg (by rw [hd, ha]; simp)

theorem shutting_bus (s : State) (k : Slot) (x : Ext) (c : ShutCause) (r : Option (ReqTag × Station)) :
    (s.shutting k x c r).bus = s.bus := residents_bus _ _

theorem shutting_ext (s : State) (k : Slot) (x : Ext) (c : ShutCause) (r : Option (ReqTag × Station)) :
    ∃ y, (s.shutting k x c r).dir.ext[k] = some y ∧ (x.shutFor c r).KeptIn y := by
  have hset : (s.setExt k (some (x.shutFor c r))).dir.ext[k] = some (x.shutFor c r) :=
    (setExt_get s k k _).trans (if_pos rfl)
  exact ((polices_residents _ x.residents).ext k).2 _ hset

theorem shutting_request (s : State) (k : Slot) (x : Ext) (c : ShutCause) (r : Option (ReqTag × Station)) :
    (s.shutting k x c r).dir.request = s.dir.request ∧ (s.shutting k x c r).dir.reqTag = s.dir.reqTag := by
  have h := residents_dir (s.setExt k (some (x.shutFor c r))) x.residents
  exact ⟨(congrArg Directory.request h :), (congrArg Directory.reqTag h :)⟩

/-- R72: the shut that is decided stands in the extension. -/
theorem decideShut_ext {s : State} {k : Slot} {x : Ext} (hx : s.dir.ext[k] = some x)
    (hd : x.shutDue = none) (ha : s.shutApplied k = false) (c : ShutCause) (r : Option (ReqTag × Station)) :
    ∃ y, (s.decideShut k c r).dir.ext[k] = some y ∧ (x.shutFor c r).KeptIn y := by
  rw [decideShut_due hx hd ha]
  split <;> exact shutting_ext s k x c r

/-- R72, R86: in MEMBER the SHUT is queued. -/
theorem decideShut_queues {s : State} {k : Slot} {x : Ext} (hx : s.dir.ext[k] = some x)
    (hd : x.shutDue = none) (ha : s.shutApplied k = false) (hm : s.mem.state = .member) (c : ShutCause)
    (r : Option (ReqTag × Station)) :
    (s.decideShut k c r).bus = s.bus.queue { dest := none, body := shutBody k (x.shutFor c r) c } := by
  rw [decideShut_due hx hd ha, if_pos hm]
  exact congrArg (fun b : Bus => b.queue _) (shutting_bus s k x c r)

theorem decideShut_silent {s : State} {k : Slot} (hm : s.mem.state ≠ .member) (c : ShutCause)
    (r : Option (ReqTag × Station)) : (s.decideShut k c r).bus = s.bus :=
  (silent_decideShut s k c r).bus hm

theorem decideShut_request (s : State) (k : Slot) (c : ShutCause) (r : Option (ReqTag × Station)) :
    (s.decideShut k c r).dir.request = s.dir.request ∧ (s.decideShut k c r).dir.reqTag = s.dir.reqTag := by
  unfold State.decideShut
  split
  · exact ⟨rfl, rfl⟩
  next x hx =>
    dsimp only
    split
    · exact ⟨rfl, rfl⟩
    · split <;> exact shutting_request s k x c r

/-! ### What policy work queues -/

/-- The body of a frame that policy work from `s` to `t` has queued, with the record that stands behind it:
a SHUT of a cause in `cs`, a CLAIM, or the RECALL of an empty request list. -/
def State.workOf (s t : State) (cs : List ShutCause) : Body → Prop
  | .shut k c _ => c ∈ cs ∧ ∃ x, t.dir.ext[k] = some x ∧ x.shutDue = some c
  | .claim k kd => s.recallPermission = true ∧ ∃ e ∈ t.plc.claims, e.slot = k ∧ e.kind = kd ∧ e.phase = .queued
  | .recall tag r g => s.recallPermission = true ∧ s.dir.request = none ∧ r = s.mem.stn ∧
      ∃ e, t.dir.request = some (.recall e) ∧ e.tag = tag ∧ e.phase = .queued ∧ e.target = g
  | _ => False

/-- Policy work from `s` to `t`: the request list is as before or holds a new RECALL entry, and the frames
queued are policy frames with shuts of causes in `cs`. -/
structure Queues (cs : List ShutCause) (s t : State) : Prop extends Polices s t where
  asks : t.dir.request = s.dir.request ∧ t.dir.reqTag = s.dir.reqTag ∨
    s.dir.request = none ∧ s.recallStands ≠ none ∧
      ∃ e, t.dir.request = some (.recall e) ∧ e.phase = .queued ∧ e.tag = s.dir.reqTag
  frames : ∃ l m, t.bus.tx = s.bus.tx ++ l ∧ t.bus.held = s.bus.held ++ m ∧
    ∀ q, q ∈ l ∨ q ∈ m → q.dest = none ∧ s.workOf t cs q.body
  behind : ∃ n, t.bus.tx ++ t.bus.held = s.bus.tx ++ s.bus.held ++ n

/-- R111: policy work changes nothing that the need of a recall is read from. -/
theorem Polices.recallStands {s t : State} (h : Polices s t) : t.recallStands = s.recallStands := by
  unfold State.recallStands State.recallTarget State.me
  rw [h.line, h.rep, h.mem]

namespace Queues

theorem of_silent {cs : List ShutCause} {s t : State} (h : Polices s t) (hb : t.bus = s.bus)
    (ha : t.dir.request = s.dir.request ∧ t.dir.reqTag = s.dir.reqTag) : Queues cs s t :=
  { h with
    asks := .inl ha
    frames := ⟨[], [], by rw [hb, List.append_nil], by rw [hb, List.append_nil], by simp⟩
    behind := ⟨[], by rw [hb, List.append_nil]⟩ }

theorem refl (cs : List ShutCause) (s : State) : Queues cs s s := of_silent (Polices.refl s) rfl ⟨rfl, rfl⟩

/-- One frame joins, behind work that left the bus. -/
theorem of_queue {cs : List ShutCause} {s t : State} {q : QFrame} (h : Polices s t)
    (hb : t.bus = s.bus.queue q)
    (ha : t.dir.request = s.dir.request ∧ t.dir.reqTag = s.dir.reqTag ∨ s.dir.request = none ∧
      s.recallStands ≠ none ∧ ∃ e, t.dir.request = some (.recall e) ∧ e.phase = .queued ∧ e.tag = s.dir.reqTag)
    (hq : q.dest = none ∧ s.workOf t cs q.body) : Queues cs s t := by
  refine { h with asks := ha, frames := ?_, behind := ⟨[q], by rw [hb, Bus.queue_all]⟩ }
  have hg := Bus.queue_gained s.bus q
  rw [← hb, Bus.gained] at hg
  split at hg
  next hroom =>
    refine ⟨[q], [], hg.1, by rw [hg.2, hroom.2]; rfl, fun x hx => ?_⟩
    rcases hx with hx | hx
    · rw [List.mem_singleton.1 hx]
      exact hq
    · cases hx
  · refine ⟨[], [q], by rw [hg.1, List.append_nil], hg.2, fun x hx => ?_⟩
    rcases hx with hx | hx
    · cases hx
    · rw [List.mem_singleton.1 hx]
      exact hq

/-- What later policy work leaves of the record behind a frame. -/
theorem workOf_later {cs : List ShutCause} {s t u : State} {b : Body} (h : s.workOf t cs b)
    (g : Queues cs t u) : s.workOf u cs b := by
  refine ?body
  cases b
  case body.shut k c a =>
    obtain ⟨hc, x, hx, hdue⟩ := h
    obtain ⟨y, hy, hkept⟩ := (g.ext k).2 x hx
    exact ⟨hc, y, hy, ((hkept.due (by rw [hdue]; rfl)).1).trans hdue⟩
  case body.claim k kd =>
    obtain ⟨hp, e, he, hslot, hkind, hphase⟩ := h
    obtain ⟨f, hf, fslot, fkind, fphase⟩ := g.kept e he
    exact ⟨hp, f, hf, fslot.trans hslot, fkind.trans hkind, fphase.trans hphase⟩
  case body.recall tag r st =>
    obtain ⟨hp, hno, hr, e, he, htag⟩ := h
    rcases g.asks with ⟨hreq, -⟩ | ⟨hnone, -⟩
    · exact ⟨hp, hno, hr, e, hreq.trans he, htag⟩
    · rw [he] at hnone
      cases hnone
  all_goals exact h

/-- What a frame queued later has been queued for. -/
theorem workOf_earlier {cs : List ShutCause} {s t u : State} {b : Body} (h : Queues cs s t)
    (g : t.workOf u cs b) : s.workOf u cs b := by
  have hperm := h.recallPermission
  refine ?body
  cases b
  case body.shut k c a => exact g
  case body.claim k kd =>
    obtain ⟨hp, he⟩ := g
    exact ⟨hperm ▸ hp, he⟩
  case body.recall tag r st =>
    obtain ⟨hp, hno, hr, he⟩ := g
    refine ⟨hperm ▸ hp, ?_, by rw [hr, h.mem], he⟩
    rcases h.asks with ⟨hreq, -⟩ | ⟨-, -, e, hreq, -⟩
    · rw [← hreq, hno]
    · rw [hno] at hreq
      cases hreq
  all_goals exact g

theorem trans {cs : List ShutCause} {s t u : State} (h : Queues cs s t) (g : Queues cs t u) :
    Queues cs s u := by
  refine { h.toPolices.trans g.toPolices with asks := ?_, frames := ?_, behind := ?_ }
  · rcases h.asks with ⟨hreq, htag⟩ | ⟨hno, hst, e, he, hphase, hetag⟩
    · rcases g.asks with ⟨greq, gtag⟩ | ⟨gno, gst, e, he, hphase, hetag⟩
      · exact .inl ⟨greq.trans hreq, gtag.trans htag⟩
      · exact .inr ⟨by rw [← hreq, gno], by rwa [← h.recallStands], e, he, hphase, hetag.trans htag⟩
    · rcases g.asks with ⟨greq, -⟩ | ⟨gno, -⟩
      · exact .inr ⟨hno, hst, e, greq.trans he, hphase, hetag⟩
      · rw [he] at gno
        cases gno
  · obtain ⟨l, m, hl, hm, hall⟩ := h.frames
    obtain ⟨l', m', hl', hm', hall'⟩ := g.frames
    refine ⟨l ++ l', m ++ m', by rw [hl', hl, List.append_assoc], by rw [hm', hm, List.append_assoc],
      fun q hq => ?_⟩
    have hcases : (q ∈ l ∨ q ∈ m) ∨ q ∈ l' ∨ q ∈ m' := by
      simp only [List.mem_append] at hq
      tauto
    rcases hcases with hq | hq
    · obtain ⟨hd, hb⟩ := hall q hq
      exact ⟨hd, workOf_later hb g⟩
    · obtain ⟨hd, hb⟩ := hall' q hq
      exact ⟨hd, workOf_earlier h hb⟩
  · obtain ⟨l, hl⟩ := h.behind
    obtain ⟨m, hm⟩ := g.behind
    exact ⟨l ++ m, by rw [hm, hl, List.append_assoc]⟩

theorem mono {cs ds : List ShutCause} {s t : State} (h : Queues cs s t) (hsub : ∀ c ∈ cs, c ∈ ds) :
    Queues ds s t := by
  obtain ⟨l, m, hl, hm, hall⟩ := h.frames
  refine { h with frames := ⟨l, m, hl, hm, fun q hq => ⟨(hall q hq).1, ?_⟩⟩ }
  have hb := (hall q hq).2
  cases hbody : q.body <;> rw [hbody] at hb
  case shut k c a => exact ⟨hsub c hb.1, hb.2⟩
  all_goals exact hb

theorem ite {cs : List ShutCause} {s t u : State} {c : Prop} [Decidable c] (h : c → Queues cs s t)
    (g : ¬c → Queues cs s u) : Queues cs s (if c then t else u) := by
  split
  next hc => exact h hc
  next hc => exact g hc

theorem foldlFlag {cs : List ShutCause} {α : Type} (f : State × Bool → α → State × Bool)
    (h : ∀ p x, Queues cs p.1 (f p x).1) (l : List α) (p : State × Bool) :
    Queues cs p.1 (l.foldl f p).1 := by
  induction l generalizing p with
  | nil => exact refl cs p.1
  | cons x l ih => exact (h p x).trans (ih _)

theorem foldl {cs : List ShutCause} {α : Type} (f : State → α → State) (h : ∀ s x, Queues cs s (f s x))
    (l : List α) (s : State) : Queues cs s (l.foldl f s) := by
  induction l generalizing s with
  | nil => exact refl cs s
  | cons x l ih => exact (h s x).trans (ih _)

end Queues

/-! ### The steps of the policy (R57 to R62, R75, R110) -/

theorem queues_grant (s : State) (c : Ctx) (k : Slot) (h : s.str.ctxs[c].state = .waiting)
    (cs : List ShutCause) : Queues cs s (s.grant c k) := by
  refine Queues.of_silent (polices_grant s c k h) ?_ ?_
  · unfold State.grant
    split <;> rfl
  · unfold State.grant
    split <;> exact ⟨rfl, rfl⟩

theorem queues_decideShut (s : State) (k : Slot) {c : ShutCause} (r : Option (ReqTag × Station))
    {cs : List ShutCause} (hc : c ∈ cs) : Queues cs s (s.decideShut k c r) := by
  by_cases hn : ∀ x, s.dir.ext[k] = some x → x.shutDue.isSome ∨ s.shutApplied k = true
  · rw [decideShut_none c r hn]
    exact Queues.refl cs s
  · push Not at hn
    obtain ⟨x, hx, hd, ha⟩ := hn
    have hd' : x.shutDue = none := by simpa using hd
    have ha' : s.shutApplied k = false := by simpa using ha
    by_cases hm : s.mem.state = .member
    · obtain ⟨y, hy, hkept⟩ := decideShut_ext hx hd' ha' c r
      exact Queues.of_queue (polices_decideShut s k c r) (decideShut_queues hx hd' ha' hm c r)
        (.inl (decideShut_request s k c r)) ⟨rfl, hc, y, hy, (hkept.due rfl).1⟩
    · exact Queues.of_silent (polices_decideShut s k c r) (decideShut_silent hm c r)
        (decideShut_request s k c r)

/-- R174: the claim case is one of recall permission. -/
theorem claimCase_permission {s : State} (h : (s.withinQuota || s.fromPool) = true) :
    s.recallPermission = true := by
  have hclaim : s.claimPermission = true := by
    rcases Bool.or_eq_true _ _ |>.mp h with h | h
    · simp only [State.withinQuota, Bool.and_eq_true] at h
      exact h.1.1
    · simp only [State.fromPool, Bool.and_eq_true] at h
      exact h.1.1.1
  simp only [State.claimPermission, Bool.and_eq_true] at hclaim
  simp only [State.recallPermission, Bool.and_eq_true]
  exact ⟨hclaim.1.1, hclaim.2⟩

/-- R58, R62: the claim that is queued, with its entry. -/
theorem queueClaim_some {s : State} {k : Slot} (h : s.claimSlot = some k) (kd : SlotKind) (c : Option Ctx) :
    s.queueClaim kd c = (s.onPlc fun p => { p with claims := p.claims ++
      [{ slot := k, kind := kd, claimant := c, phase := .queued }] }).queueFrame (.claim k kd) := by
  simp only [State.queueClaim, h]

theorem queues_queueClaim (s : State) (kd : SlotKind) (c : Option Ctx)
    (h : (s.withinQuota || s.fromPool) = true) (cs : List ShutCause) : Queues cs s (s.queueClaim kd c) := by
  cases hk : s.claimSlot with
  | none =>
    have hno : s.queueClaim kd c = s := by simp only [State.queueClaim, hk]
    rw [hno]
    exact Queues.refl cs s
  | some k =>
    have hp := polices_queueClaim s kd c h
    rw [queueClaim_some hk] at hp ⊢
    exact Queues.of_queue hp rfl (.inl ⟨rfl, rfl⟩) ⟨rfl, claimCase_permission h, _,
      List.mem_append_right _ (List.mem_singleton.2 rfl), rfl, rfl, rfl⟩

/-- R110: the recall that is begun, before its record is loaded. -/
theorem beginRecall_some {s : State} {g : Station} (hr : s.dir.request = none) (hc : s.dir.cooling = none)
    (hg : s.recallTarget = some g) :
    s.beginRecall =
      ((s.onDir fun d => { d with
          reqTag := d.reqTag + 1,
          request := some (.recall { tag := s.dir.reqTag, phase := .queued, target := g,
                                     began := s.dir.rep.gen, tries := 0, timer := none }) }).queueFrame
        (.recall s.dir.reqTag s.me g)).onFlt (·.loadRequest
          { ask := false, tag := s.dir.reqTag, target := some g, began := s.dir.rep.gen, tries := 0 }) := by
  unfold State.beginRecall
  rw [if_neg (by rw [hr, hc]; simp), hg]
  rfl

theorem beginRecall_none {s : State} (h : s.dir.request.isSome ∨ s.dir.cooling.isSome ∨ s.recallTarget = none) :
    s.beginRecall = s := by
  unfold State.beginRecall
  rcases h with h | h | h
  · exact if_pos (.inl h)
  · exact if_pos (.inr h)
  · rw [h]
    split <;> rfl

/-- R61, R111: where step 4 applies a recall stands. -/
theorem recallNeeded_stands {s : State} (h : s.recallNeeded = true) :
    s.recallPermission = true ∧ s.recallStands = s.recallTarget := by
  simp only [State.recallNeeded, Bool.and_eq_true, decide_eq_true_eq, beq_iff_eq] at h
  obtain ⟨⟨⟨hp, hq⟩, hf⟩, -⟩ := h
  refine ⟨hp, if_pos ?_⟩
  simp only [State.recallPermission, Bool.and_eq_true, beq_iff_eq, Bool.not_eq_true'] at hp
  obtain ⟨⟨⟨-, hrun⟩, hwarn⟩, -⟩ := hp
  exact ⟨hrun, hwarn, by unfold State.prospective at hq; omega, hf⟩

theorem queues_beginRecall (s : State) (h : s.recallNeeded = true) (cs : List ShutCause) :
    Queues cs s s.beginRecall := by
  obtain ⟨hperm, hstands⟩ := recallNeeded_stands h
  by_cases hn : s.dir.request.isSome ∨ s.dir.cooling.isSome ∨ s.recallTarget = none
  · rw [beginRecall_none hn]
    exact Queues.refl cs s
  · push Not at hn
    obtain ⟨hr, hc, hg⟩ := hn
    have hr' : s.dir.request = none := by simpa using hr
    have hc' : s.dir.cooling = none := by simpa using hc
    obtain ⟨g, hg'⟩ := Option.ne_none_iff_exists'.1 hg
    have hp := polices_beginRecall s hperm
    rw [beginRecall_some hr' hc' hg'] at hp ⊢
    exact Queues.of_queue hp rfl (.inr ⟨hr', by rw [hstands]; exact hg, _, rfl, rfl, rfl⟩)
      ⟨rfl, hperm, hr', rfl, _, rfl, rfl, rfl, rfl⟩

theorem queues_stepFive (s : State) (c : Ctx) (h : s.str.ctxs[c].state = .waiting) {cs : List ShutCause}
    (hfull : .full ∈ cs) : Queues cs s (s.stepFive c).1 := by
  unfold State.stepFive
  split
  · split
    · split
      · split
        · exact queues_grant s c _ h cs
        · exact queues_decideShut s _ _ hfull
      · split
        · exact queues_grant s c _ h cs
        · exact Queues.refl cs s
      · exact Queues.refl cs s
    · exact Queues.refl cs s
  · split
    · exact Queues.refl cs s
    · split
      next hc => exact queues_queueClaim s _ _ hc cs
      · exact Queues.refl cs s

theorem queues_visit (s : State) (skip : List Ctx) (c : Ctx) {cs : List ShutCause} (hfull : .full ∈ cs) :
    Queues cs s (s.visit skip c).1 := by
  unfold State.visit
  split
  · exact Queues.refl cs s
  next hw =>
    have hw := not_not.1 hw
    split
    · exact Queues.refl cs s
    · split
      · exact queues_stepFive s c hw hfull
      · split
        · exact queues_stepFive s c hw hfull
        · split
          next h => exact queues_queueClaim s _ _ h.2 cs
          · split
            · exact queues_grant s c _ hw cs
            · split
              next h => exact queues_beginRecall s h cs
              · exact queues_stepFive s c hw hfull

theorem queues_passOnce (s : State) (skip : List Ctx) {cs : List ShutCause} (hfull : .full ∈ cs) :
    Queues cs s (s.passOnce skip).1 :=
  Queues.foldlFlag (fun p c => ((p.1.visit skip c).1, p.2 || (p.1.visit skip c).2))
    (fun p c => queues_visit p.1 skip c hfull) _ (s, false)

/-- R57: the frames of a policy pass. -/
theorem queues_policyPass (s : State) (skip : List Ctx) {cs : List ShutCause} (hfull : .full ∈ cs) :
    Queues cs s (s.policyPass skip) := by
  unfold State.policyPass
  refine Queues.ite (fun _ => ?_) (fun _ => Queues.refl cs s)
  dsimp only
  exact Queues.ite (fun _ => (queues_passOnce s skip hfull).trans (queues_passOnce _ [] hfull))
    (fun _ => queues_passOnce s skip hfull)

theorem queues_pressureShut (s : State) {cs : List ShutCause} (hp : .pressure ∈ cs) :
    Queues cs s s.pressureShut.1 := by
  unfold State.pressureShut
  split
  · split
    · exact queues_decideShut s _ _ hp
    · exact Queues.refl cs s
  · exact Queues.refl cs s

theorem queues_pressureEval (s : State) {cs : List ShutCause} (hp : .pressure ∈ cs) :
    Queues cs s s.pressureEval.1 := by
  unfold State.pressureEval
  split
  · exact Queues.foldlFlag (fun p _ => (p.1.pressureShut.1, p.2 || p.1.pressureShut.2))
      (fun p _ => queues_pressureShut p.1 hp) (List.range 4) (s, false)
  · exact Queues.refl cs s

/-- R75: the frames of an evaluation of the open excess. -/
theorem queues_evalPressure (s : State) {cs : List ShutCause} (hfull : .full ∈ cs) (hp : .pressure ∈ cs) :
    Queues cs s s.evalPressure := by
  unfold State.evalPressure
  dsimp only
  exact Queues.ite (fun _ => (queues_pressureEval s hp).trans (queues_policyPass _ [] hfull))
    (fun _ => queues_pressureEval s hp)

/-! ### What follows for the frames that wait -/

/-- A frame that waits after policy work waited before or has been queued by it. -/
theorem Queues.waiting {cs : List ShutCause} {s t : State} (h : Queues cs s t) {q : QFrame}
    (hq : q ∈ t.bus.waiting) : q ∈ s.bus.waiting ∨ q.dest = none ∧ s.workOf t cs q.body := by
  obtain ⟨l, m, hl, hm, hall⟩ := h.frames
  have hsend := h.sending
  have hcases : q ∈ s.bus.waiting ∨ q ∈ l ∨ q ∈ m := by
    unfold Bus.waiting at hq ⊢
    rw [hsend, hl, hm] at hq
    cases hs : s.bus.sending <;> cases ht : s.bus.tx <;> simp only [hs, ht] at hq ⊢
    · simp only [List.nil_append, List.mem_append] at hq ⊢
      tauto
    · simp only [List.mem_append, List.mem_cons] at hq ⊢
      tauto
    · cases l with
      | nil => simp only [List.nil_append, List.mem_append] at hq ⊢; tauto
      | cons x l =>
        simp only [List.nil_append] at hq ⊢
        split at hq <;> simp only [List.mem_append, List.mem_cons] at hq ⊢ <;> tauto
    · simp only [List.cons_append] at hq
      split at hq <;> simp_all only [List.mem_append, List.mem_cons, if_true, if_false,
        Bool.false_eq_true] <;> tauto
  rcases hcases with hq | hq
  · exact .inl hq
  · exact .inr (hall q hq)

end Sys2Proof.Machine
end

