-- ==== Sys2Proof/Proofs/BusAttempts.lean ====
section
/-! SUPPORT. The ends of an attempt (R88, R89, R90, R91, R92), and the timers of the placement bus (R78,
R86, R92, R94, R138). -/

namespace Sys2Proof.Machine

/-! ### The ends of an attempt -/

/-- R83, log entry 34: the reception that goes on as an attempt ends is the station's own. -/
theorem readsOwn_sending {b : Bus} {sg : Sending} (h : b.sending = some sg) :
    b.readsOwn = (match b.receiver with
      | .receiving _ => sg.readback == .reading
      | _ => false) := by
  unfold Bus.readsOwn
  cases b.receiver <;> simp only [h, Option.any_some, Sending.unread]

/-- R89, R92: the bus controller after a completion. -/
theorem completed_sending {b : Bus} {sg : Sending} (h : b.sending = some sg) (full : Nat) :
    b.completed full = { b with
      sending := none, tx := b.tx.drop 1, yieldOwed := true,
      ownEnding := (match b.receiver with
        | .receiving _ => sg.readback == .reading
        | _ => false),
      beacon := (match b.beacon with | .stopped => .stopped | _ => .running full) } := by
  have hbeacon : b.beacon.restart full = (match b.beacon with | .stopped => .stopped | _ => .running full) := by
    cases b.beacon <;> rfl
  rw [← readsOwn_sending h, ← hbeacon]
  rfl

/-- R89, R91: the bus controller after an abort. -/
def Bus.aborted (b : Bus) (sg : Sending) : Bus := if sg.withdrawn then b.popTx.endAttempt else b.endAttempt

theorem aborted_sending {b : Bus} {sg : Sending} (h : b.sending = some sg) :
    b.aborted sg = { b with
      sending := none, tx := if sg.withdrawn then b.tx.drop 1 else b.tx, yieldOwed := true,
      ownEnding := (match b.receiver with
        | .receiving _ => sg.readback == .reading
        | _ => false) } := by
  rw [← readsOwn_sending h]
  unfold Bus.aborted
  split <;> rfl

theorem abortTx_sending {s : State} {sg : Sending} (h : s.bus.sending = some sg) :
    s.abortTx = (s.onBus (·.aborted sg)).enterJoining sg.frame.body := by
  simp only [State.abortTx, h]
  rfl

/-- R128: the end of the JOIN's transmission moves LISTEN to JOINING. -/
theorem enterJoining_join {s : State} {b : Body} (hk : b.kind = .join) (hl : s.mem.state = .listen) :
    s.enterJoining b = s.enter .joining := by
  refine if_pos ⟨?_, hl⟩
  cases b <;> first | rfl | cases hk

theorem enter_joining_sending {s : State} (h : s.bus.sending = none) :
    (s.enter .joining).bus.sending = none ∧ (s.enter .joining).bus.yieldOwed = s.bus.yieldOwed := by
  change (s.bus.withdraw _).sending = none ∧ (s.bus.withdraw _).yieldOwed = _
  simp [Bus.withdraw, h]

/-- Settles O53: a loss of arbitration, a completion and an abort. -/
theorem attemptEnds : Obligations.AttemptEnds := by
  unfold Obligations.AttemptEnds
  intro sg s hs hsend
  have hlost : execArbitrationLost s = _ := live_settled _ hs
  have hcomplete : execTransmissionComplete s = _ := live_settled _ hs
  have habort : execTransmissionAbort s = _ := live_settled _ hs
  refine ⟨⟨_, hlost, ?_⟩, fun hkept => ⟨⟨_, hcomplete, ?_⟩, _, habort, ?_⟩, fun hjoin hl c hc => ?_⟩
  · simp only [hsend]
    refine ⟨?_, frame_of_changes (onBus_changes s _) (by simp)⟩
    change (if sg.withdrawn = true then _ else _) = _
    split <;> rfl
  · rw [completeTx_sending hsend]
    have htook := ((Took.onBus s (·.completed s.pTicks)).trans (Took.markSent _ sg.frame.body)).trans
      (Took.servingSent _ sg.frame.body)
    rw [enterJoining_kept (hkept.imp_right fun hn => by rw [htook.mem]; exact hn)]
    refine ⟨?_, htook.rep, htook.request, frame_of_changes (htook.changes.mono (by simp)) (by simp)⟩
    rw [settled_bus, servingSent_bus, markSent_bus]
    exact completed_sending hsend _
  · rw [abortTx_sending hsend, enterJoining_kept (s := s.onBus (·.aborted sg)) hkept]
    exact ⟨aborted_sending hsend, frame_of_changes (onBus_changes s _) (by simp)⟩
  · rcases hc with rfl | rfl
    · have hsame : s.completeTx = (s.onBus (·.completed s.pTicks)).enter .joining := by
        rw [completeTx_sending hsend]
        cases hb : sg.frame.body <;> rw [hb] at hjoin <;>
          first | exact enterJoining_join rfl hl | cases hjoin
      have hbus := completed_sending hsend s.pTicks
      obtain ⟨hnone, hyield⟩ := enter_joining_sending (s := s.onBus (·.completed s.pTicks))
        (congrArg Bus.sending hbus)
      refine ⟨_, hcomplete, ?_⟩
      rw [hsame]
      exact ⟨rfl, hnone, hyield.trans (congrArg Bus.yieldOwed hbus), frame_of_changes
        ((onBus_changes s _).andThen (enter_changes _ _) (by simp) (by simp)) (by simp)⟩
    · have hbus := aborted_sending hsend
      obtain ⟨hnone, hyield⟩ := enter_joining_sending (s := s.onBus (·.aborted sg))
        (congrArg Bus.sending hbus)
      refine ⟨_, habort, ?_⟩
      rw [abortTx_sending hsend, enterJoining_join (s := s.onBus (·.aborted sg)) hjoin hl]
      exact ⟨rfl, hnone, hyield.trans (congrArg Bus.yieldOwed hbus), frame_of_changes
        ((onBus_changes s _).andThen (enter_changes _ _) (by simp) (by simp)) (by simp)⟩

/-! ### The timers of the bus -/

/-- R138: an ABSENT for the station waits. -/
theorem isQueued_absent (s : State) (st : Station) :
    s.isQueued (Body.isAbsentOf st) = true ↔ ∃ q ∈ s.bus.waiting, q.body = .absent st := by
  unfold State.isQueued
  rw [List.any_eq_true]
  refine exists_congr fun q => and_congr_right fun _ => ?_
  cases q.body <;> simp [Body.isAbsentOf]

/-- R138: a PRESENT station that no waiting ABSENT names has one queued. -/
theorem queueAbsent_due {s : State} {st : Station} (hst : st ≠ s.me) (hp : s.dir.rep.isPresent st = true)
    (hw : ∀ q ∈ s.bus.waiting, q.body ≠ .absent st) : s.queueAbsent st = s.queueFrame (.absent st) := by
  refine if_pos ⟨hp, hst, ?_⟩
  rw [Bool.eq_false_iff, ne_eq, isQueued_absent]
  push Not
  exact hw

theorem queueAbsent_kept {s : State} {st : Station}
    (h : s.dir.rep.isPresent st = false ∨ ∃ q ∈ s.bus.waiting, q.body = .absent st) :
    s.queueAbsent st = s := by
  refine if_neg fun ⟨hp, _, hq⟩ => ?_
  rcases h with habs | hw
  · exact absurd hp (by rw [habs]; simp)
  · rw [(isQueued_absent s st).2 hw] at hq
    cases hq

theorem queueAbsent_changes (s : State) (st : Station) : s.changesOnly (s.queueAbsent st) [.bus] := by
  unfold State.queueAbsent
  split
  · exact queueFrame_changes s _
  · exact State.changesOnly.refl s _

theorem queueAbsent_heard (s : State) (st : Station) : (s.queueAbsent st).bus.heard = s.bus.heard := by
  unfold State.queueAbsent
  split
  · exact (congrArg Bus.heard (Bus.queue_rest s.bus _) :)
  · rfl

/-- R94: the silence of a station, reported. -/
def State.silenceReported (s : State) (st : Station) : State :=
  s.onBus fun b =>
    { b with heard := put b.heard st { s.bus.heard[st] with
        time := max s.bus.heard[st].time (3 * s.pTicks), reported := true } }

theorem exec_lastHeardExpiry {s : State} {st : Station} (hs : s.rst = none) (hst : st ≠ s.me)
    (hoff : s.bus.receiver ≠ .off) (hrep : s.bus.heard[st].reported = false) (hcfg : s.mem.cfg.isSome) :
    exec (.lastHeardExpiry st) s = .next
      (if s.mem.state = .member then (s.silenceReported st).queueAbsent st
        else s.silenceReported st).settled := by
  have hdue : ¬(st = s.me ∨ s.bus.receiver = .off ∨ s.bus.heard[st].reported = true ∨ s.mem.cfg = none) := by
    rintro (h | h | h | h)
    · exact hst h
    · exact hoff h
    · rw [hrep] at h
      cases h
    · rw [h] at hcfg
      cases hcfg
  change execLastHeardExpiry st s = _
  unfold execLastHeardExpiry
  rw [live_settled _ hs]
  simp only [if_neg hdue]
  rfl

/-- Settles O54: the yield gap, a held frame, the beacon timer and a silence of 3P. -/
theorem busTimersFire : Obligations.BusTimersFire := by
  unfold Obligations.BusTimersFire
  intro s hs
  have hyield : execYieldGapExpiry s = _ := live_settled _ hs
  have hjoins : execHeldFrameJoins s = _ := live_settled _ hs
  have hbeacon : execBeaconTimerExpiry s = _ := live_settled _ hs
  refine ⟨fun hr hsend => ⟨_, hyield, ?_⟩, fun q rest hheld hroom => ⟨_, hjoins, ?_⟩,
    fun n hb => ⟨_, hbeacon, ?_⟩,
    fun st hst hoff hrep hcfg => ⟨_, exec_lastHeardExpiry hs hst hoff hrep hcfg, ?_⟩⟩
  · rw [if_pos ⟨hr, by rw [hsend]; rfl⟩]
    exact ⟨rfl, frame_of_changes (onBus_changes s _) (by simp)⟩
  · refine ⟨?_, frame_of_changes (onBus_changes s _) (by simp)⟩
    simp only [settled_bus, State.onBus, hheld, hroom, if_true]
  · simp only [hb]
    refine ⟨?_, frame_of_changes (onBus_changes s _) (by simp)⟩
    simp only [settled_bus, State.onBus, Bus.beaconExpires, Bool.and_eq_true, List.isEmpty_iff]
    rfl
  · have hheard : ∀ j : Station, (s.silenceReported st).bus.heard[j] =
        if j = st then { s.bus.heard[st] with
          time := max s.bus.heard[st].time (3 * s.pTicks), reported := true } else s.bus.heard[j] :=
      fun j => put_get _ _ _ _
    have hsame : (if s.mem.state = .member then (s.silenceReported st).queueAbsent st
        else s.silenceReported st).settled.bus.heard = (s.silenceReported st).bus.heard := by
      rw [settled_bus]
      split
      · exact queueAbsent_heard _ st
      · rfl
    have hchanges : s.changesOnly (if s.mem.state = .member then (s.silenceReported st).queueAbsent st
        else s.silenceReported st) [.bus] := by
      split
      · exact (onBus_changes s _).andThen (queueAbsent_changes _ st) (by simp) (by simp)
      · exact onBus_changes s _
    rw [hsame]
    refine ⟨?_, ?_, fun j hj => ?_, fun hm hp hw => ?_, fun h => ?_, frame_of_changes hchanges (by simp)⟩
    · rw [hheard, if_pos rfl]
    · rw [hheard, if_pos rfl]
      exact Nat.le_max_right _ _
    · rw [hheard, if_neg hj]
    · rw [if_pos hm, queueAbsent_due (s := s.silenceReported st) hst hp hw]
      exact (Bus.queue_gained (s.silenceReported st).bus _ :)
    · split
      next hm =>
        rw [queueAbsent_kept (s := s.silenceReported st) (h.resolve_left fun hn => hn hm)]
        exact ⟨rfl, rfl⟩
      · exact ⟨rfl, rfl⟩

end Sys2Proof.Machine
end

