-- ==== Sys2Proof/Proofs/Directives.lean ====
section
/-! SUPPORT. What the station hands to the back-end link (R103, R157, R159, R161, R162). -/

namespace Sys2Proof.Machine

theorem shutApplied_iff (s : State) (k : Slot) :
    s.shutApplied k = true ↔ ∃ kd g c a, s.dir.rep.dir[k] = .closing s.mem.stn kd g c a := by
  unfold State.shutApplied State.holdsSlot State.me
  unfold Replica.holds
  cases hk : s.dir.rep.dir[k] <;> simp [DirEntry.holder?, DirEntry.isClosing]

/-- R103: the conditions of a CLOSE-ORDER, room apart. -/
theorem closeWanted_iff (s : State) (k : Slot) :
    s.closeWanted k = true ↔ ∃ x kd g c a, s.dir.ext[k] = some x ∧
      s.dir.rep.dir[k] = .closing s.mem.stn kd g c a ∧ x.shutDue = none ∧ x.inFlight = 0 ∧
      (x.readiness = .ready ∨ x.readiness = .openFailed) ∧ x.closeOrderIssued = false ∧
      x.closeReport = none := by
  unfold State.closeWanted
  cases hx : s.dir.ext[k] with
  | none => simp
  | some x =>
    have hready : x.readiness ≠ .awaitingOpen ↔ x.readiness = .ready ∨ x.readiness = .openFailed := by
      cases x.readiness <;> simp
    simp only [Bool.and_eq_true, shutApplied_iff, bne_iff_ne, hready, beq_iff_eq, Option.isNone_iff_eq_none,
      Bool.not_eq_true', Option.some.injEq]
    constructor
    · rintro ⟨⟨⟨⟨⟨⟨kd, g, c, a, hk⟩, hdue⟩, hfly⟩, hrdy⟩, hiss⟩, hrep⟩
      exact ⟨x, kd, g, c, a, rfl, hk, hdue, hfly, hrdy, hiss, hrep⟩
    · rintro ⟨y, kd, g, c, a, rfl, hk, hdue, hfly, hrdy, hiss, hrep⟩
      exact ⟨⟨⟨⟨⟨⟨kd, g, c, a, hk⟩, hdue⟩, hfly⟩, hrdy⟩, hiss⟩, hrep⟩

theorem queueRoom_iff (s : State) :
    s.queueRoom = true ↔ (s.mem.state = .member ∨ s.mem.state = .catchup) ∧ s.link.queue.length < 16 := by
  unfold State.queueRoom MemberState.issues
  cases s.mem.state <;> simp

/-- R103: no CLOSE-ORDER can be issued. -/
theorem nextClose_none_iff (s : State) :
    s.nextClose = none ↔ ((s.mem.state ≠ .member ∧ s.mem.state ≠ .catchup) ∨
      16 ≤ s.link.queue.length ∨ 4 ≤ s.link.closes.length ∨
      ∀ k ∈ s.dir.closing, s.closeWanted k = false) := by
  unfold State.nextClose
  have hroom := queueRoom_iff s
  split
  next h =>
    simp only [Bool.and_eq_true, decide_eq_true_eq] at h
    obtain ⟨hr, hc⟩ := h
    obtain ⟨hm, hq⟩ := hroom.1 hr
    rw [List.find?_eq_none]
    simp only [Bool.not_eq_true]
    refine ⟨fun h => .inr (.inr (.inr h)), ?_⟩
    rintro (⟨hn, hn'⟩ | h | h | h)
    · exact absurd hm (by tauto)
    · omega
    · omega
    · exact h
  next h =>
    simp only [Bool.and_eq_true, decide_eq_true_eq, hroom] at h
    refine iff_of_true rfl ?_
    by_cases hm : s.mem.state = .member ∨ s.mem.state = .catchup
    · by_cases hq : s.link.queue.length < 16
      · exact .inr (.inr (.inl (by by_contra hc; exact h ⟨⟨hm, hq⟩, by omega⟩)))
      · exact .inr (.inl (by omega))
    · exact .inl (by tauto)

/-- R161: an OPEN-ORDER for which there is room, and before which no CLOSE-ORDER goes. -/
theorem exec_issueOpenOrder {s : State} {o : OpenOrder} {rest : List OpenOrder} (hs : s.rst = none)
    (hroom : s.queueRoom = true) (ho : s.link.opens.length < 4) (hheld : s.link.heldOpens = o :: rest)
    (hc : s.nextClose = none) :
    exec .issueOpenOrder s = .next (s.onLink (·.issueOpen o)).settled := by
  have hnext : s.nextOpen = some o := by
    simp only [State.nextOpen, hroom, ho, hheld, decide_true, Bool.and_self, if_true, List.head?_cons]
  change execIssueOpenOrder s = _
  unfold execIssueOpenOrder
  rw [live_settled _ hs]
  simp only [hc, hnext, Option.isSome_none, Bool.false_eq_true, if_false]

/-- R103, R162: the CLOSE-ORDER of the first holding in order for which there is room. -/
theorem exec_issueCloseOrder {s : State} {k : Slot} {x : Ext} {h : Station} {kd : SlotKind} {g : Gen}
    {c : ShutCause} {a : Fin 2} (hs : s.rst = none) (hroom : s.queueRoom = true)
    (hc : s.link.closes.length < 4) (hk : s.dir.closing.find? s.closeWanted = some k)
    (hx : s.dir.ext[k] = some x) (he : s.dir.rep.dir[k] = .closing h kd g c a) :
    exec .issueCloseOrder s = .next
      ((s.setExt k (some { x with closeOrderIssued := true })).onLink
        (·.issueClose k x.serial c s.closeTicks)).settled := by
  have hnext : s.nextClose = some k := by
    simp only [State.nextClose, hroom, hc, hk, decide_true, Bool.and_self, if_true]
  change execIssueCloseOrder s = _
  unfold execIssueCloseOrder
  rw [live_settled _ hs]
  simp only [hnext, State.issueClose, hx, he]

/-- Settles O57: the head of the directive queue, the CLOSE-ORDER and the OPEN-ORDER. -/
theorem directivesIssued : Obligations.DirectivesIssued := by
  unfold Obligations.DirectivesIssued
  refine ⟨closeWanted_iff, nextClose_none_iff, fun s hs => ?_⟩
  have hsent : execDirectiveSent s = _ := live_settled _ hs
  refine ⟨fun ho => ⟨_, hsent, ?_⟩, fun hw => ⟨_, hsent, ?_⟩, fun hm hq =>
    ⟨fun o rest hroom hheld hc => ?_, fun k x h kd g c a hroom hk hx he => ?_⟩⟩
  · rw [if_pos ho]
    exact ⟨rfl, frame_of_changes (onLink_changes s _) (by simp)⟩
  · rw [if_neg (by rw [hw]; decide)]
    exact frame_idle s
  · refine ⟨_, exec_issueOpenOrder hs ((queueRoom_iff s).2 ⟨hm, hq⟩) hroom hheld hc, ?_,
      frame_of_changes (onLink_changes s _) (by simp)⟩
    simp only [settled_link, State.onLink, Link.issueOpen, hheld, List.drop_one, List.tail_cons]
  · refine ⟨_, exec_issueCloseOrder hs ((queueRoom_iff s).2 ⟨hm, hq⟩) hroom hk hx he, rfl, rfl,
      frame_of_changes ((setExt_changes s k _).andThen (onLink_changes _ _) (by simp) (by simp)) (by simp)⟩

end Sys2Proof.Machine
end

