-- ==== Sys2Proof/Proofs/RecallExchange.lean ====
section
/-! SUPPORT. The recall exchange (R112 to R116): the candidate of a RECALL, the answers, the tries and the
exhausted request, by frame and by timer. -/

namespace Sys2Proof.Machine

/-! ### Frames taken with no transmission of the station's own still to end -/

theorem exec_takesPop {c : Instr} {s : State} {own : Bool} {f : Frame} {rest : List RxEntry}
    (hc : c.takesKind = some f.body.kind) (h : s.takes own f rest)
    (hown : own = true → s.bus.sending = none) :
    exec c s = .next (f.body.kind.take own f s.popRx).settled := by
  rw [exec_takes hc h, taken_plain hown]

theorem popRx_bus {s : State} {own : Bool} {f : Frame} {rest : List RxEntry} (h : s.takes own f rest) :
    s.popRx.bus = { s.bus with rx := rest } :=
  congrArg State.bus (popRx_eq h.2)

/-- A change behind the taking of the head. -/
theorem frame_popRx {s t : State} {l m : List Block} (h : s.popRx.changesOnly t l) (hl : ∀ b ∈ l, b ∈ m)
    (hb : .bus ∈ m) (hi : .intake ∉ m) : s.frame t.settled m :=
  frame_of_changes ((popRx_changes s).andThen h (by simpa using hb) hl) hi

/-! ### The slot to shut (R75, R113) -/

/-- The better of what has been chosen so far and the next. -/
def better {α : Type} (beats : α → α → Bool) (best : Option α) (k : α) : Option α :=
  match best with
  | none => some k
  | some b => if beats k b then some k else some b

theorem foldl_better_none {α : Type} {beats : α → α → Bool} {l : List α} :
    l.foldl (better beats) none = none ↔ l = [] := by
  refine ⟨fun h => ?_, fun h => by rw [h]; rfl⟩
  cases l using List.reverseRecOn with
  | nil => rfl
  | append_singleton l x =>
    rw [List.foldl_concat] at h
    unfold better at h
    split at h
    · cases h
    · split at h <;> cases h

/-- The choice goes through a list: it beats what stands before it, and nothing behind it beats it. -/
theorem foldl_better_some {α : Type} {beats : α → α → Bool}
    (htrans : ∀ a b c, beats a b = true → beats b c = true → beats a c = true)
    (hneg : ∀ a b c, beats a b = true → beats c b = false → beats a c = true) (l : List α) {k : α}
    (h : l.foldl (better beats) none = some k) :
    ∃ pre post, l = pre ++ k :: post ∧ (∀ j ∈ pre, beats k j = true) ∧ ∀ j ∈ post, beats j k = false := by
  induction l using List.reverseRecOn generalizing k with
  | nil => cases h
  | append_singleton l j ih =>
    rw [List.foldl_concat] at h
    cases hb : l.foldl (better beats) none with
    | none =>
      rw [hb] at h
      have hl := foldl_better_none.1 hb
      cases h
      exact ⟨[], [], by rw [hl], by simp, by simp⟩
    | some b =>
      rw [hb] at h
      obtain ⟨pre, post, hl, hpre, hpost⟩ := ih hb
      by_cases hbeat : beats j b = true
      · have hjk : j = k := by simpa [better, hbeat] using h
        subst hjk
        refine ⟨l, [], rfl, fun i hi => ?_, by simp⟩
        rw [hl, List.mem_append, List.mem_cons] at hi
        rcases hi with hi | rfl | hi
        · exact htrans _ _ _ hbeat (hpre i hi)
        · exact hbeat
        · exact hneg _ _ _ hbeat (hpost i hi)
      · have hbk : b = k := by simpa [better, hbeat] using h
        subst hbk
        refine ⟨pre, post ++ [j], by rw [hl]; simp, hpre, fun i hi => ?_⟩
        rcases List.mem_append.1 hi with hi | hi
        · exact hpost i hi
        · rw [List.mem_singleton.1 hi]
          exact Bool.eq_false_iff.2 hbeat

theorem leastFilled_eq (s : State) (l : List Slot) :
    s.leastFilled l =
      l.foldl (better fun k b => filledEarlier (s.lastFillAt k) (s.lastFillAt b)) none := by
  unfold State.leastFilled
  congr 1
  funext best k
  cases best <;> rfl

/-- R49: the least recently filled, and the first of those filled alike. -/
theorem leastFilled_some {s : State} {l : List Slot} {k : Slot} (h : s.leastFilled l = some k) :
    ∃ pre post, l = pre ++ k :: post ∧
      (∀ j ∈ pre, filledEarlier (s.lastFillAt k) (s.lastFillAt j) = true) ∧
      ∀ j ∈ post, filledEarlier (s.lastFillAt j) (s.lastFillAt k) = false := by
  have htrans (a b c : Option (BitVec 32)) (h : filledEarlier a b = true) (g : filledEarlier b c = true) :
      filledEarlier a c = true := by
    cases a <;> cases b <;> cases c <;> simp only [filledEarlier, decide_eq_true_eq, reduceCtorEq] at h g ⊢
    omega
  have hneg (a b c : Option (BitVec 32)) (h : filledEarlier a b = true) (g : filledEarlier c b = false) :
      filledEarlier a c = true := by
    cases a <;> cases b <;> cases c <;>
      simp only [filledEarlier, decide_eq_true_eq, decide_eq_false_iff_not, reduceCtorEq] at h g ⊢
    omega
  rw [leastFilled_eq] at h
  exact foldl_better_some (fun a b c => htrans (s.lastFillAt a) (s.lastFillAt b) (s.lastFillAt c))
    (fun a b c => hneg (s.lastFillAt a) (s.lastFillAt b) (s.lastFillAt c)) l h

theorem leastFilled_mem {s : State} {l : List Slot} {k : Slot} (h : s.leastFilled l = some k) : k ∈ l := by
  obtain ⟨pre, post, hl, -⟩ := leastFilled_some h
  rw [hl]
  simp

theorem leastFilled_none {s : State} {l : List Slot} : s.leastFilled l = none ↔ l = [] := by
  rw [leastFilled_eq]
  exact foldl_better_none

theorem grantable_iff (s : State) (k : Slot) :
    s.grantable k = true ↔ ∃ x, s.dir.ext[k] = some x ∧ s.holdsSlot k = true ∧
      s.dir.rep.dir[k].isOpen = true ∧ x.readiness = .ready ∧ x.shutDue = none := by
  unfold State.grantable
  cases s.dir.ext[k] <;> simp [and_assoc]

theorem shutCandidate_grantable {s : State} {k : Slot} (h : s.shutCandidate = some k) :
    s.grantable k = true := by
  unfold State.shutCandidate at h
  split at h
  next j hj =>
    have := (List.mem_filter.1 (leastFilled_mem hj)).2
    rw [← Option.some.inj h]
    exact (Bool.and_eq_true _ _ ▸ this).1
  · exact (List.mem_filter.1 (leastFilled_mem h)).2

theorem isOpen_notApplied {s : State} {k : Slot} (h : s.dir.rep.dir[k].isOpen = true) :
    s.shutApplied k = false := by
  unfold State.shutApplied
  cases hk : s.dir.rep.dir[k] <;> rw [hk] at h <;> simp_all [DirEntry.isClosing, DirEntry.isOpen]

/-- R72, R86: in MEMBER a shut decided for a holding that no shut is due or applied for stands, and its SHUT
is the first frame queued, whatever policy work follows. -/
theorem decideShut_stands {s t : State} {k : Slot} {x : Ext} {cs : List ShutCause} {c : ShutCause}
    {r : Option (ReqTag × Station)} (hx : s.dir.ext[k] = some x) (hd : x.shutDue = none)
    (ha : s.shutApplied k = false) (ht : Queues cs (s.decideShut k c r) t) :
    (∃ y, t.dir.ext[k] = some y ∧ y.shutDue = some c ∧ y.shutRecall = r) ∧
      (s.mem.state = .member →
        s.bus.gainedFirst t.bus { dest := none, body := shutBody k (x.shutFor c r) c }) := by
  refine ⟨?_, fun hm => ?_⟩
  · obtain ⟨y, hy, hkept⟩ := decideShut_ext hx hd ha c r
    obtain ⟨z, hz, hkept'⟩ := (ht.ext k).2 y hy
    have hdue := (hkept.trans hkept').due rfl
    exact ⟨z, hz, hdue.1, hdue.2.1⟩
  · have hq := decideShut_queues hx hd ha hm c r
    refine Bus.gainedFirst.then ?_ ht.behind
    rw [hq]
    exact Bus.queue_gainedFirst _ _

/-! ### The answer to a RECALL (R112, R113) -/

theorem answerRecall_noneOver {s : State} (h : s.dir.rep.excess s.mem.stn ≤ 0) (tag : ReqTag) (r : Station) :
    s.answerRecall tag r = s.queueTo r (.defer tag .noneOver) := if_pos h

theorem answerRecall_allShutting {s : State} (h : 0 < s.dir.rep.excess s.mem.stn)
    (hn : s.openExcess ≤ 0 ∨ s.shutCandidate = none) (tag : ReqTag) (r : Station) :
    s.answerRecall tag r = s.queueTo r (.defer tag .allShutting) := by
  refine (if_neg (by exact not_le.2 h)).trans ?_
  rcases hn with ho | hc
  · exact if_pos ho
  · rw [hc]
    exact ite_self _

theorem answerRecall_shuts {s : State} {k : Slot} (h : 0 < s.dir.rep.excess s.mem.stn)
    (ho : 0 < s.openExcess) (hk : s.shutCandidate = some k) (tag : ReqTag) (r : Station) :
    s.answerRecall tag r = (s.decideShut k .recalled (some (tag, r))).policyPass := by
  refine (if_neg (by exact not_le.2 h)).trans ((if_neg (not_le.2 ho)).trans ?_)
  rw [hk]

theorem recallSent_queued {s : State} {e : RecallEntry} {tag : ReqTag}
    (he : s.dir.request = some (.recall e)) (ht : e.tag = tag) (hq : e.phase = .queued) :
    s.recallSent tag = s.onDir fun d =>
      { d with request := some (.recall { e with phase := .asked, timer := some (2 * s.pTicks) }) } := by
  simp only [State.recallSent, he, ht, hq, and_self, if_true]

theorem answerRecall_changes (s : State) (tag : ReqTag) (r : Station) :
    s.changesOnly (s.answerRecall tag r) policyBlocks := by
  unfold State.answerRecall
  split
  · exact (queueTo_changes s _ _).mono (by simp [policyBlocks])
  · split
    · exact (queueTo_changes s _ _).mono (by simp [policyBlocks])
    · split
      · exact (queueTo_changes s _ _).mono (by simp [policyBlocks])
      · exact ((polices_decideShut s _ _ _).trans (polices_policyPass _ _)).changesOnly

/-- R113: a target with a slot to shut shuts it RECALLED. -/
theorem answerRecall_shut {s : State} {k : Slot} (hm : s.mem.state = .member)
    (h : 0 < s.dir.rep.excess s.mem.stn) (ho : 0 < s.openExcess) (hk : s.shutCandidate = some k)
    (tag : ReqTag) (r : Station) :
    (∃ x, (s.answerRecall tag r).dir.ext[k] = some x ∧ x.shutDue = some .recalled ∧
      x.shutRecall = some (tag, r)) ∧
    s.bus.gainedFirst (s.answerRecall tag r).bus
      { dest := none, body := .shut k .recalled (some (tag, r)) } := by
  obtain ⟨x, hx, -, hopen, -, hdue⟩ := (grantable_iff s k).1 (shutCandidate_grantable hk)
  rw [answerRecall_shuts h ho hk]
  obtain ⟨hext, hfirst⟩ := decideShut_stands hx hdue (isOpen_notApplied hopen)
    (queues_policyPass (s.decideShut k .recalled (some (tag, r))) [] (cs := [.full]) (by simp))
  exact ⟨hext, hfirst hm⟩

theorem takeRecall_rep (own : Bool) (f : Frame) (s : State) :
    (takeRecall own f s).dir.rep = s.dir.rep ∧ (takeRecall own f s).bus.rx = s.bus.rx := by
  unfold takeRecall
  split
  · exact ⟨congrArg Directory.rep ((censusToListen_changes s).1 .dir (by simp)), censusToListen_rx s⟩
  next tag r g _ _ =>
    unfold State.fromPresent
    split
    · exact ⟨(works_recallInMember s own tag r g).rep, (works_recallInMember s own tag r g).rx⟩
    · exact ⟨rfl, rfl⟩
  · split
    · exact ⟨(works_queueTo s _ _).rep, (works_queueTo s _ _).rx⟩
    · exact ⟨rfl, rfl⟩
  · exact ⟨rfl, rfl⟩

/-- Settles O47: a RECALL, its loopback and its answer. -/
theorem recallTaken : Obligations.RecallTaken := by
  unfold Obligations.RecallTaken
  intro own f rest tag r g s h hb hp hown
  have hbus := popRx_bus h
  have hexec : exec .recall s = .next (takeRecall own f s.popRx).settled := by
    rw [exec_takesPop (c := .recall) (by rw [hb]; rfl) h hown, hb]
    rfl
  have hmember (hm : s.mem.state = .member) :
      takeRecall own f s.popRx = s.popRx.recallInMember own tag r g := by
    have hm' : s.popRx.mem.state = .member := hm
    simp only [takeRecall, hm', hb]
    exact fromPresent_present (s := s.popRx) hp _
  have hcatchup (hm : s.mem.state = .catchup) (hg : g = s.mem.stn) :
      takeRecall own f s.popRx = s.popRx.queueTo r (.defer tag .stale) := by
    have hm' : s.popRx.mem.state = .catchup := hm
    simp only [takeRecall, hm', hb]
    exact if_pos ⟨hg, hp⟩
  obtain ⟨hrep, hrx⟩ := takeRecall_rep own f s.popRx
  refine ⟨_, hexec, hrep, hrx.trans (congrArg Bus.rx hbus), fun hm ho e he het hq => ?_,
    fun hm ho hg => ?_, fun hm hg => ?_, fun hm ho hg => ?_⟩
  · rw [hmember hm]
    subst ho
    have hsent : s.popRx.recallInMember true tag r g = s.popRx.recallSent tag := rfl
    rw [hsent, recallSent_queued (s := s.popRx) he het hq]
    exact ⟨rfl, frame_popRx (onDir_changes _ _) (by simp) (by simp) (by simp)⟩
  · subst ho hg
    have hanswer : s.popRx.recallInMember false tag r s.mem.stn = s.popRx.answerRecall tag r := if_pos rfl
    rw [hmember hm, hanswer]
    refine ⟨fun hx => ?_, fun hx hn => ?_, fun hx ho k hk => ?_⟩
    · rw [answerRecall_noneOver (s := s.popRx) hx]
      exact ⟨(Bus.queue_gained s.popRx.bus _ :),
        frame_popRx (queueTo_changes _ _ _) (by simp) (by simp) (by simp)⟩
    · rw [answerRecall_allShutting (s := s.popRx) hx hn]
      exact ⟨(Bus.queue_gained s.popRx.bus _ :),
        frame_popRx (queueTo_changes _ _ _) (by simp) (by simp) (by simp)⟩
    · obtain ⟨hext, hfirst⟩ := answerRecall_shut (s := s.popRx) hm hx ho hk tag r
      exact ⟨hext, hfirst, frame_popRx (answerRecall_changes s.popRx tag r) (fun _ hb => hb)
        (by simp [policyBlocks]) (by simp [policyBlocks])⟩
  · rw [hcatchup hm hg]
    exact ⟨(Bus.queue_gained s.popRx.bus _ :),
      frame_popRx (queueTo_changes _ _ _) (by simp) (by simp) (by simp)⟩
  · have hidle : s.popRx.recallInMember own tag r g = s.popRx := by
      subst ho
      exact if_neg hg
    rw [hmember hm, hidle]
    exact ⟨hbus, frame_of_changes (popRx_changes s) (by simp)⟩

/-! ### The tries of a recall (R115, R116, R185) -/

theorem tryFails_less {s : State} {e : RecallEntry} (h : e.tries < 4) (a : Bool) :
    s.tryFails e a = s.backOff e a := if_pos h

theorem tryFails_last {s : State} {e : RecallEntry} (h : 4 ≤ e.tries) (a : Bool) :
    s.tryFails e a = s.exhaustRecall e := if_neg (by omega)

/-- R116, R185: the request exhausted, before the policy pass that follows. -/
def State.exhausted (s : State) (e : RecallEntry) : State :=
  (((s.onFlt (·.followRequest false e.tag fun r => { r with target := some e.target, tries := e.tries })).report
    .recallExhausted (peer := some e.target)).onFlt Faults.freeze).onDir
      fun d => { d with request := none, cooling := some (8 * s.pTicks) }

theorem exhaustRecall_eq (s : State) (e : RecallEntry) : s.exhaustRecall e = (s.exhausted e).policyPass := rfl

theorem exhausted_changes (s : State) (e : RecallEntry) : s.changesOnly (s.exhausted e) [.dir, .flt] := by
  refine ⟨fun b hb => ?_, rfl, rfl⟩
  cases b <;> first | rfl | exact absurd (by decide) hb

theorem exhausted_counted (s : State) (e : RecallEntry) : s.counted (s.exhausted e) .recallExhausted :=
  (report_counted (s.onFlt (·.followRequest false e.tag fun r =>
    { r with target := some e.target, tries := e.tries })) _ _ _ _ _).congr
      (congrArg (·[Cause.recallExhausted.index]) (followRequest_counts s.flt _ _ _).symm) rfl

/-- R116: the exhausted request is gone, and while the cooling period runs the pass begins no other. -/
theorem exhaustRecall_settled (s : State) (e : RecallEntry) :
    (s.exhaustRecall e).dir.request = none ∧ (s.exhaustRecall e).dir.cooling = some (8 * s.pTicks) ∧
      (s.exhaustRecall e).flt.frozen = true ∧ s.counted (s.exhaustRecall e) .recallExhausted ∧
      s.changesOnly (s.exhaustRecall e) policyBlocks := by
  rw [exhaustRecall_eq]
  have hp := polices_policyPass (s.exhausted e)
  exact ⟨hp.request (.inr (.inl rfl)), hp.cooling, hp.frozen,
    (exhausted_counted s e).congr rfl (congrArg (·[Cause.recallExhausted.index]) hp.counts),
    (exhausted_changes s e).andThen hp.changesOnly (by simp [policyBlocks]) fun _ h => h⟩

theorem deferred_tag {s : State} {e : RecallEntry} (he : s.dir.request = some (.recall e)) {tag : ReqTag}
    (ht : e.tag = tag) (st : Station) (why : DeferReason) :
    s.deferred st tag why =
      if e.phase = .asked ∧ st = e.target then s.tryFails e (why == .allShutting) else s := by
  simp only [State.deferred, he, ht, if_true]

theorem deferred_unexpected {s : State} {tag : ReqTag}
    (h : ∀ e, s.dir.request = some (.recall e) → e.tag ≠ tag) (st : Station) (why : DeferReason) :
    s.deferred st tag why = s.report .unexpectedAnswer (peer := some st) := by
  unfold State.deferred
  split
  next e he => exact if_neg (h e he)
  · rfl

theorem tryFails_rx (s : State) (e : RecallEntry) (a : Bool) : (s.tryFails e a).bus.rx = s.bus.rx := by
  unfold State.tryFails
  split
  · rfl
  · rw [exhaustRecall_eq]
    exact (polices_policyPass _).rx

theorem deferred_rx (s : State) (st : Station) (tag : ReqTag) (why : DeferReason) :
    (s.deferred st tag why).bus.rx = s.bus.rx := by
  unfold State.deferred
  split
  · split
    · split
      · exact tryFails_rx s _ _
      · rfl
    · rfl
  · rfl

/-- Settles O48: a DEFER by the tag of the RECALL entry. -/
theorem deferTaken : Obligations.DeferTaken := by
  unfold Obligations.DeferTaken
  intro f rest tag why s h hb hm hp
  have hexec : exec .defer s = .next (s.popRx.deferred f.sender tag why).settled := by
    rw [exec_takesPop (c := .defer) (by rw [hb]; rfl) h (by simp), hb]
    change Host.Outcome.next (takeDefer false f s.popRx).settled = _
    have hm' : s.popRx.mem.state = .member := hm
    simp only [takeDefer, hm', hb]
    rw [fromPresent_present (s := s.popRx) hp]
  have hrx : (s.popRx.deferred f.sender tag why).bus.rx = rest :=
    (deferred_rx s.popRx f.sender tag why).trans (congrArg Bus.rx (popRx_bus h))
  refine ⟨_, hexec, hrx, fun e he ht => ⟨fun hq hf hn => ?_, fun hq hf hn => ?_, fun hn => ?_⟩, fun hn => ?_⟩
  · rw [deferred_tag (s := s.popRx) he ht, if_pos ⟨hq, hf⟩, tryFails_less hn]
    refine ⟨?_, frame_popRx (onDir_changes _ _) (by simp) (by simp) (by simp)⟩
    simp only [settled_dir, State.backOff, State.onDir, beq_iff_eq]
    rfl
  · rw [deferred_tag (s := s.popRx) he ht, if_pos ⟨hq, hf⟩, tryFails_last hn]
    obtain ⟨hreq, hcool, hfrozen, hcount, hch⟩ := exhaustRecall_settled s.popRx e
    exact ⟨hreq, hcool, hfrozen, hcount, frame_popRx hch (fun _ hb => hb) (by simp [policyBlocks])
      (by simp [policyBlocks])⟩
  · rw [deferred_tag (s := s.popRx) he ht, if_neg (by tauto)]
    exact frame_of_changes (popRx_changes s) (by simp)
  · rw [deferred_unexpected (s := s.popRx) hn]
    exact ⟨report_counted s.popRx _ _ _ _ _,
      frame_popRx (report_changes _ _ _ _ _ _) (by simp) (by simp) (by simp)⟩

end Sys2Proof.Machine
end

