-- ==== Sys2Proof/Proofs/CatchupFrames.lean ====
section
/-! SUPPORT. The frames of the catch-up exchange (R128, R131, R132, R136, R137), and the timers of
membership (R124, R127, R135). -/

namespace Sys2Proof.Machine

/-! ### The CATCHUP-ASK and the offers (R131, R132, R136) -/

theorem askTaken_asking {s : State} {e : AskEntry} {tag : ReqTag} (he : s.dir.request = some (.ask e))
    (ht : e.tag = tag) (hp : e.phase = .asking) :
    s.askTaken tag = s.onDir fun d =>
      { d with request := some (.ask { e with phase := .offers, timer := some (3 * s.pTicks) }) } := by
  simp only [State.askTaken, he, ht, hp, and_self, if_true]

theorem startServing_free {s : State} (h : s.dir.serving = none) (tag : ReqTag) (a : Station) :
    s.startServing tag a = s.onDir fun d =>
      { d with serving := some { tag, asker := a, phase := .delay ((s.mem.stn.val + 1) * (s.pTicks / 4)) } } := by
  simp only [State.startServing, h]
  rfl

/-- R132: the first offer, before the record follows it. -/
def State.offered (s : State) (e : AskEntry) (r : Station) : State :=
  s.onDir fun d =>
    { d with request := some (.ask { e with phase := .receiving r 0, timer := some (2 * s.pTicks) }) }

theorem offerTaken_first {s : State} {e : AskEntry} {tag : ReqTag} (he : s.dir.request = some (.ask e))
    (ht : e.tag = tag) (hp : e.phase = .offers) (r : Station) :
    s.offerTaken tag s.mem.stn r =
      (s.offered e r).onFlt (·.followRequest true tag fun l => { l with target := some r }) := by
  have hme : s.mem.stn = s.me := rfl
  subst ht
  simp only [State.offerTaken, he, hp, hme, and_self, if_true]
  rfl

/-- R185: the record follows the request it holds. -/
theorem followRequest_loaded {u : Faults} {l : LastReq} {ask : Bool} {tag : ReqTag} (hf : u.frozen = false)
    (hl : u.lastReq = some l) (ha : l.ask = ask) (ht : l.tag = tag) (g : LastReq → LastReq) :
    (u.followRequest ask tag g).lastReq = some (g l) := by
  simp only [Faults.followRequest, hf, hl, ha, ht, and_self, if_true, Bool.false_eq_true, if_false]

theorem queueTo_foldl_all (a : Station) (l : List Body) (s : State) :
    (l.foldl (fun x b => x.queueTo a b) s).bus.tx ++ (l.foldl (fun x b => x.queueTo a b) s).bus.held =
      s.bus.tx ++ s.bus.held ++ l.map fun b => { dest := some a, body := b } := by
  induction l generalizing s with
  | nil => simp
  | cons b l ih =>
    have hall := Bus.queue_all s.bus { dest := some a, body := b }
    rw [List.foldl_cons, ih (s.queueTo a b), List.map_cons, ← List.singleton_append, ← List.append_assoc,
      ← hall]
    rfl

theorem queueTo_foldl_changes (a : Station) (l : List Body) (s : State) :
    s.changesOnly (l.foldl (fun x b => x.queueTo a b) s) [.bus] :=
  State.changesOnly.foldl _ (fun x b => queueTo_changes x a b) l s

/-- R137: the serving once its offer has won. -/
def State.snapshotting (s : State) (v : Serving) : State :=
  s.onDir fun d => { d with serving := some { v with phase := .sending } }

theorem startSnapshot_queues (s : State) (v : Serving) :
    (s.startSnapshot v).bus.tx ++ (s.startSnapshot v).bus.held = s.bus.tx ++ s.bus.held ++
      ((List.finRange 7).map fun p => { dest := some v.asker, body := .snapshot v.tag p [] }) ++
      [{ dest := some v.asker, body := .snapshotEnd v.tag 0 7 0 }] := by
  have hall := queueTo_foldl_all v.asker (servingBodies v.tag) (s.snapshotting v)
  refine hall.trans ?_
  rw [servingBodies, List.map_append, List.map_map, ← List.append_assoc]
  rfl

theorem startSnapshot_changes (s : State) (v : Serving) :
    (s.snapshotting v).changesOnly (s.startSnapshot v) [.bus] :=
  queueTo_foldl_changes v.asker (servingBodies v.tag) (s.snapshotting v)

/-! ### The log (R131) -/

/-- R131: the attempt logs in every phase but ASKING. -/
theorem logging_iff (s : State) :
    s.logging = true ↔ ∃ e, s.dir.request = some (.ask e) ∧ e.phase ≠ .asking := by
  unfold State.logging
  cases hr : s.dir.request with
  | none => simp
  | some q =>
    rcases q with e | ⟨tag, phase, began, tries, timer⟩
    · simp
    · cases phase <;> simp

theorem part0Taken_iff {s : State} {e : AskEntry} (he : s.dir.request = some (.ask e)) :
    s.part0Taken = true ↔ ∃ r n, e.phase = .receiving r n ∧ 0 < n := by
  unfold State.part0Taken
  rw [he]
  obtain ⟨tag, phase, began, tries, timer⟩ := e
  cases phase <;> simp

/-- R131: the log with the frame behind it. -/
def State.logged (s : State) (f : Frame) : State :=
  s.onDir fun d => { d with log := d.log ++ [{ frame := f, afterPart0 := s.part0Taken }] }

theorem logFrame_idle {s : State} (h : s.logging = false) (f : Frame) : s.logFrame f = s := by
  simp only [State.logFrame, h, Bool.false_eq_true, if_false]

theorem logFrame_full {s : State} (h : s.logging = true) (hl : 16 ≤ s.dir.log.length) (f : Frame) :
    s.logFrame f = s.attemptFail := by
  have hn : ¬ s.dir.log.length < 16 := by omega
  simp only [State.logFrame, h, hn, if_true, if_false]

/-- R131: an ABSENT that names the responder fails the attempt. -/
theorem logFrame_responder {s : State} {f : Frame} {e : AskEntry} {r : Station} {n : Nat}
    (he : s.dir.request = some (.ask e)) (hp : e.phase = .receiving r n) (hl : s.dir.log.length < 16)
    (hb : f.body = .absent r) : s.logFrame f = (s.logged f).attemptFail := by
  have h : s.logging = true := (logging_iff s).2 ⟨e, he, by rw [hp]; simp⟩
  have hr : s.responder = some r := by
    obtain ⟨tag, phase, began, tries, timer⟩ := e
    cases hp
    simp only [State.responder, he]
  simp only [State.logFrame, h, hl, hb, hr, if_true]
  rfl

theorem logFrame_logs {s : State} {f : Frame} {e : AskEntry} (he : s.dir.request = some (.ask e))
    (hp : e.phase ≠ .asking) (hl : s.dir.log.length < 16)
    (hb : ∀ r n, f.body = .absent r → e.phase ≠ .receiving r n) : s.logFrame f = s.logged f := by
  have h : s.logging = true := (logging_iff s).2 ⟨e, he, hp⟩
  simp only [State.logFrame, h, hl, if_true]
  split
  next st r hst hr =>
    refine if_neg fun hsr => ?_
    subst hsr
    unfold State.responder at hr
    rw [he] at hr
    split at hr
    next hask =>
      cases hask
      cases hr
      exact hb st _ hst rfl
    · cases hr
  · rfl

/-- Settles O49: joining, the CATCHUP-ASK, the offers, the parts and the log. -/
theorem catchupFramesTaken : Obligations.CatchupFramesTaken := by
  unfold Obligations.CatchupFramesTaken
  intro own f rest tag s h hown
  have hask (ha : f.body.kind = .catchupAsk) :
      exec .catchupAsk s = .next (takeCatchupAsk own f s.popRx).settled := by
    rw [exec_takesPop (c := .catchupAsk) (by rw [ha]; rfl) h hown, ha]
    rfl
  have hoffer (ha : f.body.kind = .catchupOffer) :
      exec .catchupOffer s = .next (takeCatchupOffer own f s.popRx).settled := by
    rw [exec_takesPop (c := .catchupOffer) (by rw [ha]; rfl) h hown, ha]
    rfl
  refine ⟨fun a hb => ⟨fun e hm ho he ht hp => ⟨_, hask (by rw [hb]; rfl), ?_⟩,
      fun hm ho hp hn => ⟨_, hask (by rw [hb]; rfl), ?_⟩⟩,
    fun a r hb => ⟨fun e hm he ht ha hp => ⟨_, hoffer (by rw [hb]; rfl), ?_⟩, fun v hm hp hv ht ha => ?_⟩,
    fun p bytes e r n hb hm he hp hf ht => ?_, fun st q a d hb hm => ?_,
    fun c hc hk hm => ⟨fun e he hp => ⟨fun hl hr => ?_, fun hor => ?_⟩, fun hn => ?_⟩⟩
  · have htake : takeCatchupAsk own f s.popRx = s.popRx.askTaken tag := by
      have hm' : s.popRx.mem.state = .catchup := hm
      simp only [takeCatchupAsk, hm', hb, ho, if_true]
    rw [htake, askTaken_asking (s := s.popRx) he ht hp]
    exact ⟨rfl, frame_popRx (onDir_changes _ _) (by simp) (by simp) (by simp)⟩
  · have htake : takeCatchupAsk own f s.popRx = s.popRx.startServing tag a := by
      have hm' : s.popRx.mem.state = .member := hm
      simp only [takeCatchupAsk, hm', hb, ho, Bool.false_eq_true, if_false]
      exact fromPresent_present (s := s.popRx) hp _
    rw [htake, startServing_free (s := s.popRx) hn]
    exact ⟨rfl, frame_popRx (onDir_changes _ _) (by simp) (by simp) (by simp)⟩
  · have htake : takeCatchupOffer own f s.popRx = s.popRx.offerTaken tag a r := by
      have hm' : s.popRx.mem.state = .catchup := hm
      simp only [takeCatchupOffer, hm', hb]
    rw [htake, ha, show s.mem.stn = s.popRx.mem.stn from rfl, offerTaken_first (s := s.popRx) he ht hp]
    exact ⟨rfl, fun l hl hask htag hf => followRequest_loaded hf hl hask htag _,
      frame_popRx ((onDir_changes _ _).andThen (onFlt_changes _ _) (n := [.dir, .flt]) (by simp) (by simp))
        (by simp) (by simp) (by simp)⟩
  · have htake : takeCatchupOffer own f s.popRx = s.popRx.offerSeen own tag a := by
      have hm' : s.popRx.mem.state = .member := hm
      simp only [takeCatchupOffer, hm', hb]
      exact fromPresent_present (s := s.popRx) hp _
    have hv' : s.popRx.dir.serving = some v := hv
    have hexec := hoffer (by rw [hb]; rfl)
    rw [htake] at hexec
    refine ⟨fun ho hph => ⟨_, hexec, ?_⟩, fun ho hph => ⟨_, hexec, ?_⟩⟩
    · obtain ⟨n, hph⟩ := hph
      simp only [State.offerSeen, hv', ht, ha, hph, ho, and_self, if_true, Bool.false_eq_true, if_false]
      exact ⟨rfl, frame_popRx (onDir_changes _ _) (by simp) (by simp) (by simp)⟩
    · obtain ⟨b, hph⟩ := hph
      have hwon : s.popRx.offerSeen own tag a = s.popRx.startSnapshot v := by
        simp only [State.offerSeen, hv', ht, ha, hph, ho, and_self, if_true]
      have hch := startSnapshot_changes s.popRx v
      have hall := startSnapshot_queues s.popRx v
      rw [hwon]
      rw [ht, ha] at hall
      generalize s.popRx.startSnapshot v = t at hch hall ⊢
      exact ⟨hch.1 .dir (by simp), hall,
        frame_popRx ((onDir_changes _ _).andThen hch (n := [.bus, .dir]) (by simp) (by simp))
          (by simp) (by simp) (by simp)⟩
  · have htake : takeSnapshot own f s.popRx = s.popRx.partTaken e r n p bytes := by
      have hm' : s.popRx.mem.state = .catchup := hm
      have he' : s.popRx.dir.request = some (.ask e) := he
      simp only [takeSnapshot, hm', State.snapshotFrame, he', hp, hb, hf, ht, and_self, if_true]
    have hexec : exec .snapshot s = .next (s.popRx.partTaken e r n p bytes).settled := by
      rw [exec_takesPop (c := .snapshot) (by rw [hb]; rfl) h hown, hb, ← htake]
      rfl
    refine ⟨fun hn => ⟨_, hexec, ?_⟩, fun hn => ⟨_, hexec, ?_⟩⟩
    · have hpart : s.popRx.partTaken e r n p bytes = _ := if_pos hn
      rw [hpart]
      exact ⟨rfl, frame_popRx (onDir_changes _ _) (by simp) (by simp) (by simp)⟩
    · have hpart : s.popRx.partTaken e r n p bytes = s.popRx.attemptFail := if_neg hn
      rw [hpart]
      exact attemptFailed_settled (popRx_changes s)
  · have hexec : exec .join s = .next (if own then s.popRx.joinTaken else s.popRx).settled := by
      have hm' : s.popRx.mem.state = .joining := hm
      rw [exec_takesPop (c := .join) (by rw [hb]; rfl) h hown, hb]
      change Host.Outcome.next (takeJoin own f s.popRx).settled = _
      simp only [takeJoin, hm']
    refine ⟨fun ho => ⟨_, hexec, ?_⟩, fun ho => ⟨_, hexec, ?_⟩⟩
    · rw [if_pos ho]
      exact joined_settled (popRx_changes s)
    · rw [if_neg (by rw [ho]; decide)]
      exact ⟨popRx_bus h, frame_of_changes (popRx_changes s) (by simp)⟩
  all_goals
    have hexec : exec c s = .next (s.popRx.logFrame f).settled := by
      have hm' : s.popRx.mem.state = .catchup := hm
      rw [exec_takesPop hc h hown, take_directory hk (by rw [hm']; decide)]
      simp only [State.takeDirectory, hm']
  · refine ⟨_, (s.popRx).part0Taken, hexec, ?_⟩
    rw [logFrame_logs (s := s.popRx) he hp hl hr]
    exact ⟨rfl, part0Taken_iff (s := s.popRx) he,
      frame_popRx (onDir_changes _ _) (by simp) (by simp) (by simp)⟩
  · refine ⟨_, hexec, ?_⟩
    by_cases hl : 16 ≤ s.dir.log.length
    · rw [logFrame_full (s := s.popRx) ((logging_iff _).2 ⟨e, he, hp⟩) hl]
      exact attemptFailed_settled (popRx_changes s)
    · obtain ⟨r, n, hb, hph⟩ := hor.resolve_left hl
      rw [logFrame_responder (s := s.popRx) he hph (Nat.lt_of_not_le hl) hb]
      exact attemptFailed_after ((popRx_changes s).andThen (onDir_changes _ _) (by simp) (by simp)) rfl rfl
  · refine ⟨_, hexec, ?_⟩
    have hidle : s.popRx.logging = false := by
      rw [Bool.eq_false_iff, ne_eq, logging_iff]
      rintro ⟨e, he, hp⟩
      exact hp (hn e he)
    rw [logFrame_idle hidle]
    exact ⟨popRx_bus h, frame_of_changes (popRx_changes s) (by simp)⟩

/-! ### The timers of membership (R124, R127, R135) -/

theorem memberHeard_iff (s : State) :
    s.memberHeard = true ↔ ∃ (st : Station) (b : BeaconInfo), st ≠ s.mem.stn ∧
      s.bus.heard[st].time < 3 * s.pTicks ∧ s.bus.heard[st].beacon = some b ∧ b.catchup = false := by
  unfold State.memberHeard
  rw [List.any_eq_true]
  constructor
  · rintro ⟨st, -, h⟩
    rw [Bool.and_eq_true, Bool.and_eq_true, bne_iff_ne] at h
    obtain ⟨⟨hst, hh⟩, hb⟩ := h
    split at hb
    next b hbe => exact ⟨st, b, hst, of_decide_eq_true hh, hbe, by simpa using hb⟩
    · cases hb
  · rintro ⟨st, b, hst, hh, hb, hc⟩
    refine ⟨st, List.mem_finRange st, ?_⟩
    rw [Bool.and_eq_true, Bool.and_eq_true, bne_iff_ne, hb]
    exact ⟨⟨hst, decide_eq_true hh⟩, by simp [hc]⟩

theorem exec_sealDeadlineExpiry {s : State} {cfg : StationCfg} {n : Nat} (hs : s.rst = none)
    (hcfg : s.mem.cfg = some cfg) (ht : s.mem.sealTimer = some n) (hm : s.mem.state = .census) :
    exec .sealDeadlineExpiry s =
      .next ((s.onMem fun m => { m with sealTimer := none }).queueFrame (.seal [] cfg.params)).settled := by
  change execSealDeadlineExpiry s = _
  unfold execSealDeadlineExpiry
  rw [live_settled _ hs]
  simp only [ht, hcfg]
  exact congrArg (fun t : State => Host.Outcome.next t.settled) (if_pos hm)

theorem exec_listenTimerExpiry {s : State} {cfg : StationCfg} {n : Nat} (hs : s.rst = none)
    (hcfg : s.mem.cfg = some cfg) (ht : s.mem.listenTimer = some n) (hm : s.mem.state = .listen) :
    exec .listenTimerExpiry s = .next
      (if s.memberHeard then (s.onMem fun m => { m with listenTimer := none }).queueFrame (s.joinBody cfg)
        else s.onMem fun m => { m with listenTimer := some s.listenTicks }).settled := by
  change execListenTimerExpiry s = _
  unfold execListenTimerExpiry
  rw [live_settled _ hs]
  simp only [ht, hcfg]
  exact congrArg (fun t : State => Host.Outcome.next t.settled) (if_pos hm)

theorem exec_retryTimerExpiry {s : State} {n : Nat} (hs : s.rst = none) (ht : s.mem.retryTimer = some n)
    (hm : s.mem.state = .catchup) :
    exec .retryTimerExpiry s =
      .next (s.onMem fun m => { m with retryTimer := none }).beginAttempt.settled := by
  change execRetryTimerExpiry s = _
  unfold execRetryTimerExpiry
  rw [live_settled _ hs]
  simp only [ht]
  exact congrArg (fun t : State => Host.Outcome.next t.settled) (if_pos hm)

/-- Settles O55: the seal deadline, the listen timer and the retry timer. -/
theorem membershipTimersFire : Obligations.MembershipTimersFire := by
  unfold Obligations.MembershipTimersFire
  intro cfg n s hs hcfg
  refine ⟨fun ht hm => ⟨_, exec_sealDeadlineExpiry hs hcfg ht hm, ?_⟩, fun ht hm => ⟨fun hex => ?_, fun hall => ?_⟩,
    fun ht hm => ⟨_, exec_retryTimerExpiry hs ht hm, ?_⟩⟩
  · exact ⟨rfl, (Bus.queue_gained s.bus _ :),
      frame_of_changes ((onMem_changes s _).andThen (queueFrame_changes _ _) (by simp) (by simp)) (by simp)⟩
  · refine ⟨_, exec_listenTimerExpiry hs hcfg ht hm, ?_⟩
    rw [if_pos ((memberHeard_iff s).2 hex)]
    exact ⟨rfl, (Bus.queue_gained s.bus _ :),
      frame_of_changes ((onMem_changes s _).andThen (queueFrame_changes _ _) (by simp) (by simp)) (by simp)⟩
  · have hnone : ¬ s.memberHeard = true := by
      rw [memberHeard_iff]
      rintro ⟨st, b, hst, hh, hb, hc⟩
      rw [hall st b hst hh hb] at hc
      cases hc
    have hticks : s.listenTicks = cfg.wakeFactor * s.pTicks := by simp only [State.listenTicks, hcfg]
    refine ⟨_, exec_listenTimerExpiry hs hcfg ht hm, ?_⟩
    rw [if_neg hnone, hticks]
    exact ⟨rfl, frame_of_changes (onMem_changes s _) (by simp)⟩
  · refine ⟨rfl, rfl, (Bus.queue_gained s.bus _ :), fun hf => ?_,
      frame_of_changes ((onMem_changes s _).andThen (beginAttempt_changes _) (by simp) (by simp)) (by simp)⟩
    change (s.flt.loadRequest _).lastReq = _
    simp only [Faults.loadRequest, hf, Bool.false_eq_true, if_false]
    rfl

end Sys2Proof.Machine
end

