-- ==== Sys2Proof/Proofs/HeadChecks.lean ====
section
/-! SUPPORT. The check of a head at its contention, kind by kind (R97, R98, R111, R124, R136, R137). -/

namespace Sys2Proof.Machine

/-! ### Verdicts -/

theorem Verdict.unless_withdraw (w : Bool) (b : Body) : Verdict.unless w b = .withdraw ↔ w = true := by
  cases w <;> simp [Verdict.unless]

theorem Verdict.unless_pass {w : Bool} (b : Body) (h : w = false) : Verdict.unless w b = .pass b := by
  simp [Verdict.unless, h]

theorem mode_hold_iff (m : Mode) : m = .hold ↔ m ≠ .run := by cases m <;> simp

/-! ### Recalls (R110, R111) -/

theorem recallTarget_eq (s : State) :
    s.recallTarget = (s.dir.rep.presentList.filter fun st => st != s.me && decide (0 < s.dir.rep.excess st)).foldl
      (better fun st b => decide (s.dir.rep.excess b ≤ s.dir.rep.excess st)) none := by
  unfold State.recallTarget
  congr 1
  funext best k
  cases best <;> simp [better]

theorem mem_recallTargets (s : State) (st : Station) :
    st ∈ (s.dir.rep.presentList.filter fun st => st != s.me && decide (0 < s.dir.rep.excess st)) ↔
      st ≠ s.mem.stn ∧ s.dir.rep.isPresent st = true ∧ 0 < s.dir.rep.excess st := by
  have hme : s.me = s.mem.stn := rfl
  simp only [Replica.presentList, allStations, List.mem_filter, List.mem_finRange, true_and, Bool.and_eq_true,
    bne_iff_ne, decide_eq_true_eq, hme]
  tauto

/-- R110: no station but this one has an excess. -/
theorem recallTarget_none_iff (s : State) :
    s.recallTarget = none ↔
      ∀ st : Station, st ≠ s.mem.stn → s.dir.rep.isPresent st = true → s.dir.rep.excess st ≤ 0 := by
  rw [recallTarget_eq, foldl_better_none, List.eq_nil_iff_forall_not_mem]
  refine forall_congr' fun st => ?_
  rw [mem_recallTargets]
  push Not
  exact Iff.rfl

/-- R110: the greatest excess, and the highest number among equals. -/
theorem recallTarget_some {s : State} {g : Station} (h : s.recallTarget = some g) :
    g ≠ s.mem.stn ∧ s.dir.rep.isPresent g = true ∧ 0 < s.dir.rep.excess g ∧
      ∀ st : Station, st ≠ s.mem.stn → s.dir.rep.isPresent st = true →
        s.dir.rep.excess st < s.dir.rep.excess g ∨
          (s.dir.rep.excess st = s.dir.rep.excess g ∧ st ≤ g) := by
  rw [recallTarget_eq] at h
  obtain ⟨pre, post, hl, hpre, hpost⟩ := foldl_better_some
    (fun a b c hab hbc => by simp only [decide_eq_true_eq] at *; omega)
    (fun a b c hab hcb => by simp only [decide_eq_true_eq, decide_eq_false_iff_not] at *; omega) _ h
  have hmem := mem_recallTargets s
  rw [hl] at hmem
  have hsorted : (pre ++ g :: post).Pairwise (· < ·) := by
    rw [← hl]
    exact ((List.pairwise_lt_finRange 8).filter _).filter _
  obtain ⟨hg, hgp, hgx⟩ := (hmem g).1 (by simp)
  refine ⟨hg, hgp, hgx, fun st hst hp => ?_⟩
  by_cases hx : 0 < s.dir.rep.excess st
  · have hin := (hmem st).2 ⟨hst, hp, hx⟩
    rw [List.mem_append, List.mem_cons] at hin
    rcases hin with hin | rfl | hin
    · have hle := of_decide_eq_true (hpre st hin)
      have hlt : st < g := (List.pairwise_append.1 hsorted).2.2 st hin g (by simp)
      rcases lt_or_eq_of_le hle with h | h
      · exact .inl h
      · exact .inr ⟨h, hlt.le⟩
    · exact .inr ⟨rfl, le_rfl⟩
    · have := of_decide_eq_false (hpost st hin)
      exact .inl (by omega)
  · exact .inl (by omega)

/-- R111: what takes a recall's need or permission away. -/
theorem recallStands_none_iff (s : State) :
    s.recallStands = none ↔ s.line.mode = .hold ∨ s.line.warned = true ∨
      s.dir.rep.quota s.mem.stn ≤ s.dir.rep.heldCount s.mem.stn ∨ s.dir.rep.freeCount ≠ 0 ∨
      ∀ st : Station, st ≠ s.mem.stn → s.dir.rep.isPresent st = true → s.dir.rep.excess st ≤ 0 := by
  rw [mode_hold_iff, ← recallTarget_none_iff]
  unfold State.recallStands
  split
  next h =>
    obtain ⟨hrun, hwarn, hheld, hfree⟩ := h
    have hheld' : ¬ s.dir.rep.quota s.mem.stn ≤ s.dir.rep.heldCount s.mem.stn := not_le.2 hheld
    simp [hrun, hwarn, hheld', hfree]
  next h =>
    refine iff_of_true rfl ?_
    by_contra hn
    push Not at hn
    obtain ⟨hrun, hwarn, hheld, hfree, -⟩ := hn
    exact h ⟨hrun, by simpa using hwarn, hheld, hfree⟩

theorem recallStands_some {s : State} {g : Station} (h : s.recallStands = some g) :
    s.recallTarget = some g := by
  unfold State.recallStands at h
  split at h
  · exact h
  · cases h

/-! ### Claims (R98) -/

theorem claimAllowed_iff (s : State) (kd : SlotKind) :
    s.claimAllowed kd = true ↔ s.line.mode = .run ∧ s.line.warned = false ∧
      ((s.dir.rep.heldCount s.mem.stn < s.dir.rep.quota s.mem.stn ∧ 0 < s.dir.rep.freeCount) ∨
        (s.dir.rep.quota s.mem.stn ≤ s.dir.rep.heldCount s.mem.stn ∧ s.line.pressure = false ∧
          s.dir.rep.reserve s.mem.stn < s.dir.rep.freeCount)) ∧
      (kd = .mixed → s.dir.rep.holdsMixed s.mem.stn = false) := by
  have hme : s.me = s.mem.stn := rfl
  unfold State.claimAllowed
  cases kd <;> simp [hme, and_assoc]

/-- R98: what takes a claim's permission away. -/
theorem claimAllowed_false_iff (s : State) (kd : SlotKind) :
    s.claimAllowed kd = false ↔ s.line.mode = .hold ∨ s.line.warned = true ∨
      (s.dir.rep.heldCount s.mem.stn < s.dir.rep.quota s.mem.stn ∧ s.dir.rep.freeCount = 0) ∨
      (s.dir.rep.quota s.mem.stn ≤ s.dir.rep.heldCount s.mem.stn ∧
        (s.line.pressure = true ∨ s.dir.rep.freeCount ≤ s.dir.rep.reserve s.mem.stn)) ∨
      (kd = .mixed ∧ s.dir.rep.holdsMixed s.mem.stn = true) := by
  have hfree : s.dir.rep.freeCount = 0 ↔ ¬ 0 < s.dir.rep.freeCount := by omega
  have hpool := not_lt (a := s.dir.rep.reserve s.mem.stn) (b := s.dir.rep.freeCount)
  rw [← Bool.not_eq_true, claimAllowed_iff, mode_hold_iff, hfree, ← hpool, ← Bool.not_eq_false,
    ← Bool.not_eq_false, ← Bool.not_eq_false]
  rcases Nat.lt_or_ge (s.dir.rep.heldCount s.mem.stn) (s.dir.rep.quota s.mem.stn) with hq | hq
  · simp only [hq, not_le.2 hq, true_and, false_and, or_false, false_or, not_and_or, Classical.not_imp]
  · simp only [hq, not_lt.2 hq, true_and, false_and, false_or, not_and_or, Classical.not_imp]

/-- R98: the slots a CLAIM may be rewritten for. -/
theorem rewritable_iff (s : State) (k j : Slot) :
    (s.dir.rep.dir[j] == .free && !s.queuedClaims.any fun e => e.slot == j && j != k) = true ↔
      s.dir.rep.dir[j] = .free ∧ ∀ e ∈ s.plc.claims, e.phase = .queued → e.slot = j → j = k := by
  rw [Bool.and_eq_true, beq_iff_eq]
  refine and_congr_right fun _ => ?_
  simp only [Bool.not_eq_true', List.any_eq_false, State.queuedClaims, List.mem_filter, beq_iff_eq, and_imp,
    Bool.and_eq_true, bne_iff_ne, not_and, not_not]

/-- R98: the slot a CLAIM is rewritten for: the lowest FREE one that no other QUEUED entry names. -/
theorem rewriteSlot_some {s : State} {k j : Slot} (h : s.rewriteSlot k = some j) :
    s.dir.rep.dir[j] = .free ∧
      (s.dir.rep.dir[k] ≠ .free → (∀ e ∈ s.plc.claims, e.phase = .queued → e.slot ≠ j) ∧
        ∀ i : Slot, i < j → s.dir.rep.dir[i] = .free → ∃ e ∈ s.plc.claims, e.phase = .queued ∧ e.slot = i) := by
  unfold State.rewriteSlot allSlots at h
  rw [← Fin.find?_eq_find?_finRange, Fin.find?_eq_some_iff] at h
  obtain ⟨hj, hlow⟩ := h
  obtain ⟨hfree, hnamed⟩ := (rewritable_iff s k j).1 hj
  refine ⟨hfree, fun hk => ⟨fun e he hq hs => ?_, fun i hi hif => ?_⟩⟩
  · rw [hnamed e he hq hs] at hfree
    exact hk hfree
  · have hno := hlow i hi
    rw [← Bool.not_eq_true, rewritable_iff] at hno
    push Not at hno
    obtain ⟨e, he, hq, hs, -⟩ := hno hif
    exact ⟨e, he, hq, hs⟩

theorem rewriteSlot_none_iff (s : State) (k : Slot) :
    s.rewriteSlot k = none ↔ ∀ j : Slot, s.dir.rep.dir[j] = .free → j ≠ k ∧
      ∃ e ∈ s.plc.claims, e.phase = .queued ∧ e.slot = j := by
  unfold State.rewriteSlot
  rw [List.find?_eq_none]
  constructor
  · intro h j hfree
    have hno := h j (List.mem_finRange j)
    rw [rewritable_iff] at hno
    push Not at hno
    obtain ⟨e, he, hq, hs, hjk⟩ := hno hfree
    exact ⟨hjk, e, he, hq, hs⟩
  · intro h j _
    rw [rewritable_iff]
    rintro ⟨hfree, hnamed⟩
    obtain ⟨hjk, e, he, hq, hs⟩ := h j hfree
    exact hjk (hnamed e he hq hs)

theorem checkClaim_denied {s : State} {kd : SlotKind} (h : s.claimAllowed kd = false) (k : Slot) :
    s.checkClaim k kd = .withdraw := by
  simp only [State.checkClaim, h, Bool.false_eq_true, if_false]

theorem checkClaim_free {s : State} {k : Slot} {kd : SlotKind} (h : s.claimAllowed kd = true)
    (hk : k.val < s.dir.rep.budget ∧ s.dir.rep.dir[k] = .free) : s.checkClaim k kd = .pass (.claim k kd) := by
  unfold State.checkClaim
  rw [if_pos h, if_pos hk]

theorem checkClaim_rewritten {s : State} {k : Slot} {kd : SlotKind} (h : s.claimAllowed kd = true)
    (hk : ¬ (k.val < s.dir.rep.budget ∧ s.dir.rep.dir[k] = .free)) :
    s.checkClaim k kd = (match s.rewriteSlot k with
      | some j => .pass (.claim j kd)
      | none => .withdraw) :=
  (if_pos h).trans (if_neg hk)

theorem checkClaim_withdraw_iff (s : State) (k : Slot) (kd : SlotKind) :
    s.checkClaim k kd = .withdraw ↔ s.claimAllowed kd = false ∨
      ((s.dir.rep.dir[k] ≠ .free ∨ s.dir.rep.budget ≤ k.val) ∧ s.rewriteSlot k = none) := by
  cases hal : s.claimAllowed kd with
  | false => exact iff_of_true (checkClaim_denied hal k) (.inl rfl)
  | true =>
    by_cases hk : k.val < s.dir.rep.budget ∧ s.dir.rep.dir[k] = .free
    · obtain ⟨hb, hf⟩ := hk
      rw [checkClaim_free hal ⟨hb, hf⟩]
      simp [hf, hb]
    · have hk' : s.dir.rep.dir[k] ≠ .free ∨ s.dir.rep.budget ≤ k.val := by
        by_contra hn
        push Not at hn
        exact hk ⟨hn.2, hn.1⟩
      rw [checkClaim_rewritten hal hk]
      cases s.rewriteSlot k with
      | none => exact iff_of_true rfl (.inr ⟨hk', rfl⟩)
      | some j => exact iff_of_false (by simp) (by simp)

theorem checkClaim_pass {s : State} {k : Slot} {kd : SlotKind} {b : Body}
    (h : s.checkClaim k kd = .pass b) :
    (b = .claim k kd ∧ k.val < s.dir.rep.budget ∧ s.dir.rep.dir[k] = .free) ∨
      ¬ (k.val < s.dir.rep.budget ∧ s.dir.rep.dir[k] = .free) ∧
        ∃ j, b = .claim j kd ∧ s.rewriteSlot k = some j := by
  cases hal : s.claimAllowed kd with
  | false =>
    rw [checkClaim_denied hal] at h
    cases h
  | true =>
    by_cases hk : k.val < s.dir.rep.budget ∧ s.dir.rep.dir[k] = .free
    · rw [checkClaim_free hal hk] at h
      exact .inl ⟨(Verdict.pass.inj h).symm, hk⟩
    · rw [checkClaim_rewritten hal hk] at h
      cases hj : s.rewriteSlot k with
      | none =>
        rw [hj] at h
        cases h
      | some j =>
        rw [hj] at h
        exact .inr ⟨hk, j, (Verdict.pass.inj h).symm, rfl⟩

/-! ### The SEAL and the snapshot (R124, R137) -/

theorem census_get (s : State) (st : Station) (x : SealEntry) :
    ((s.mem.census[st].map fun e : CensusEntry =>
      { station := st, quota := e.quota, adoptDis := e.adoptDis : SealEntry }) = some x) ↔
      x.station = st ∧ s.mem.census[st] = some { quota := x.quota, adoptDis := x.adoptDis } := by
  obtain ⟨xs, xq, xa⟩ := x
  cases s.mem.census[st] with
  | none => simp
  | some e =>
    obtain ⟨q, a⟩ := e
    simp only [Option.map_some, Option.some.injEq, SealEntry.mk.injEq, CensusEntry.mk.injEq]
    tauto

/-- R124: the census list as a SEAL carries it. -/
def State.sealList (s : State) : List SealEntry :=
  allStations.filterMap fun st =>
    s.mem.census[st].map fun e => { station := st, quota := e.quota, adoptDis := e.adoptDis }

theorem sealList_ascends (s : State) : s.sealList.Pairwise fun x y => x.station < y.station := by
  refine List.Pairwise.filterMap _ (fun a b hab x hx y hy => ?_) (List.pairwise_lt_finRange 8)
  rw [census_get] at hx hy
  rw [hx.1, hy.1]
  exact hab

theorem mem_sealList (s : State) (x : SealEntry) :
    x ∈ s.sealList ↔ s.mem.census[x.station] = some { quota := x.quota, adoptDis := x.adoptDis } := by
  unfold State.sealList
  rw [List.mem_filterMap]
  constructor
  · rintro ⟨st, -, hx⟩
    obtain ⟨rfl, hc⟩ := (census_get s st x).1 hx
    exact hc
  · exact fun hc => ⟨x.station, List.mem_finRange _, (census_get s _ x).2 ⟨rfl, hc⟩⟩

theorem getD_getElem {α : Type} {l : List α} {n : Nat} {x d : α} (h : l[n]? = some x) : l.getD n d = x := by
  rw [List.getD_eq_getElem?_getD, h]
  rfl

/-- Settles O51: the check of a head, kind by kind. -/
theorem headChecksByKind : Obligations.HeadChecksByKind := by
  unfold Obligations.HeadChecksByKind
  intro d k h tag s
  refine ⟨?_, ?_, ?_, ?_, ?_, rfl, fun _ _ => rfl, fun r g => ?_, fun kd => ⟨?_, fun b hb => ?_⟩,
    fun r g b hb => ?_, fun l p cfg hcfg => ⟨s.sealList, ?_, sealList_ascends s, mem_sealList s⟩,
    fun a r v hv => ⟨?_, fun hn => ?_⟩, fun a part l g n w => ⟨fun hp => ⟨?_, ?_⟩, fun hp =>
      ⟨fun h0 l' hl => ?_, fun h0 l' hl => ?_, ?_⟩⟩⟩
  · refine (Verdict.unless_withdraw _ _).trans ?_
    rw [Bool.or_eq_true, decide_eq_true_eq, ← Bool.not_eq_false, runNames_false_iff]
    push Not
    exact Iff.rfl
  · exact (Verdict.unless_withdraw _ _).trans (bne_iff_ne ..)
  · refine (Verdict.unless_withdraw _ _).trans ?_
    rw [Bool.or_eq_true, Bool.not_eq_true', State.heardWithin, decide_eq_true_eq]
  · refine (Verdict.unless_withdraw _ _).trans ?_
    rw [Bool.or_eq_true, Bool.or_eq_true, bne_iff_ne, bne_iff_ne, Bool.not_eq_true', or_assoc]
    exact Iff.rfl
  · refine (Verdict.unless_withdraw _ _).trans ?_
    simp
  · rw [← recallStands_none_iff]
    unfold State.check
    cases s.recallStands <;> simp
  · refine (checkClaim_withdraw_iff s k kd).trans ?_
    rw [claimAllowed_false_iff, rewriteSlot_none_iff]
    simp only [or_assoc]
  · rcases checkClaim_pass hb with ⟨rfl, hk, hf⟩ | ⟨hk, j, rfl, hj⟩
    · exact ⟨⟨k, rfl, hf⟩, fun _ _ => rfl, fun hn => absurd hf hn⟩
    · obtain ⟨hf, hlow⟩ := rewriteSlot_some hj
      exact ⟨⟨j, rfl, hf⟩, fun hkf hkb => absurd ⟨hkb, hkf⟩ hk, fun hn => ⟨j, rfl, hlow hn⟩⟩
  · unfold State.check at hb
    cases hst : s.recallStands with
    | none =>
      rw [hst] at hb
      cases hb
    | some g' =>
      rw [hst] at hb
      exact ⟨g', (Verdict.pass.inj hb).symm, recallTarget_some (recallStands_some hst)⟩
  · change Verdict.pass (s.sealBody p) = _
    unfold State.sealBody
    rw [hcfg]
    rfl
  · refine (Verdict.unless_withdraw _ _).trans ?_
    rw [hv]
    obtain ⟨vt, va, phase⟩ := v
    cases phase <;> simp
  · refine Verdict.unless_pass _ ?_
    rw [hv]
    obtain ⟨vt, va, phase⟩ := v
    cases phase <;> simp_all
  · exact (Verdict.unless_withdraw _ _).2 (by rw [State.askerGone, hp]; rfl)
  · exact (Verdict.unless_withdraw _ _).2 (by rw [State.askerGone, hp]; rfl)
  · refine (Verdict.unless_pass _ (by rw [State.askerGone, hp]; rfl)).trans ?_
    subst h0
    rw [getD_getElem (x := l') (by rw [State.snapNow, if_pos rfl]; exact hl)]
  · refine (Verdict.unless_pass _ (by rw [State.askerGone, hp]; rfl)).trans ?_
    rw [getD_getElem (x := l') (by rw [State.snapNow, if_neg h0]; exact hl)]
  · exact Verdict.unless_pass _ (by rw [State.askerGone, hp]; rfl)

end Sys2Proof.Machine
end

