-- ==== Sys2Proof/Proofs/PolicySteps.lean ====
section
/-! SUPPORT. A pass of the placement policy over one waiting stream, step by step (R57 to R62). -/

namespace Sys2Proof.Machine

/-! ### What the steps read -/

theorem headNeed_cons {s : State} {c : Ctx} {e : PendingEntry} {rest : List PendingEntry}
    (h : s.str.ctxs[c].pending = e :: rest) :
    s.str.headNeed c = some (e.headExtent.isSome, e.remaining) := by
  simp only [Streams.headNeed, h]

theorem roomFor_iff {s : State} {c : Ctx} {e : PendingEntry} {rest : List PendingEntry}
    (h : s.str.ctxs[c].pending = e :: rest) (x : Ext) :
    s.roomFor c x = true ↔ (if e.headExtent.isSome then e.remaining else 1) ≤ s.dir.rep.capacity - x.cursor := by
  unfold State.roomFor State.space
  rw [headNeed_cons h]
  cases e.headExtent.isSome
  · simp only [decide_eq_true_eq, Bool.false_eq_true, if_false]
    omega
  · simp only [decide_eq_true_eq, if_true]

/-- R60: an OPEN, READY holding with no shut due. -/
theorem grantable_opened_iff (s : State) (k : Slot) :
    s.grantable k = true ↔ ∃ x kd g, s.dir.ext[k] = some x ∧ s.dir.rep.dir[k] = .opened s.mem.stn kd g ∧
      x.readiness = .ready ∧ x.shutDue = none := by
  have hopen : s.holdsSlot k = true ∧ s.dir.rep.dir[k].isOpen = true ↔
      ∃ kd g, s.dir.rep.dir[k] = .opened s.mem.stn kd g := by
    unfold State.holdsSlot Replica.holds State.me
    cases s.dir.rep.dir[k] <;> simp [DirEntry.holder?, DirEntry.isOpen]
  rw [grantable_iff]
  constructor
  · rintro ⟨x, hx, hh, ho, hr, hd⟩
    obtain ⟨kd, g, hk⟩ := hopen.1 ⟨hh, ho⟩
    exact ⟨x, kd, g, hx, hk, hr, hd⟩
  · rintro ⟨x, kd, g, hx, hk, hr, hd⟩
    obtain ⟨hh, ho⟩ := hopen.2 ⟨kd, g, hk⟩
    exact ⟨x, hx, hh, ho, hr, hd⟩

theorem takesEntry_iff {s : State} {c : Ctx} {e : PendingEntry} {rest : List PendingEntry}
    (h : s.str.ctxs[c].pending = e :: rest) {k : Slot} {x : Ext} (hx : s.dir.ext[k] = some x) :
    s.takesEntry e k ↔ s.grantable k = true ∧ s.roomFor c x = true := by
  rw [grantable_opened_iff, roomFor_iff h]
  constructor
  · rintro ⟨y, kd, g, hy, hk, hr, hd, hroom⟩
    cases hx.symm.trans hy
    exact ⟨⟨x, kd, g, hx, hk, hr, hd⟩, hroom⟩
  · rintro ⟨⟨y, kd, g, hy, hk, hr, hd⟩, hroom⟩
    cases hx.symm.trans hy
    exact ⟨x, kd, g, hx, hk, hr, hd, hroom⟩

theorem fit_iff {s : State} {c : Ctx} {e : PendingEntry} {rest : List PendingEntry} {cl : LifeClass}
    (h : s.str.ctxs[c].pending = e :: rest) (hcl : s.str.ctxs[c].cls = some cl) (k : Slot) :
    s.fit c k = true ↔ s.fits cl e k := by
  unfold State.fit State.fits
  rw [hcl]
  cases hx : s.dir.ext[k] with
  | none =>
    have hno : s.grantable k = false := by simp only [State.grantable, hx]
    simp only [hno, Bool.false_and, Bool.false_eq_true, false_iff, not_and]
    rintro ⟨x, -, -, hx', -⟩
    cases hx.symm.trans hx'
  | some x =>
    rw [takesEntry_iff h hx]
    cases hkd : s.dir.rep.dir[k].kind? with
    | none => simp
    | some kd =>
      cases kd with
      | mixed => simp
      | normal cl' =>
        simp only [Bool.and_eq_true, beq_iff_eq, decide_eq_true_eq, Option.some.injEq, SlotKind.normal.injEq,
          exists_eq_left']
        tauto

/-- R60: among fit slots the one with the greatest remaining space, the lower number among equals. -/
theorem bestFit_eq (s : State) (c : Ctx) :
    s.bestFit c = (allSlots.filter (s.fit c)).foldl
      (better fun k b => decide (s.spaceAt b < s.spaceAt k)) none := by
  unfold State.bestFit
  congr 1
  funext best k
  cases best <;> simp [better]

theorem bestFit_some {s : State} {c : Ctx} {k : Slot} (h : s.bestFit c = some k) :
    s.fit c k = true ∧ ∀ j, s.fit c j = true →
      s.spaceAt j < s.spaceAt k ∨ (s.spaceAt j = s.spaceAt k ∧ k ≤ j) := by
  rw [bestFit_eq] at h
  obtain ⟨pre, post, hl, hpre, hpost⟩ := foldl_better_some
    (fun a b c hab hbc => by simp only [decide_eq_true_eq] at *; omega)
    (fun a b c hab hcb => by simp only [decide_eq_true_eq, decide_eq_false_iff_not] at *; omega) _ h
  have hmem (j : Slot) : j ∈ pre ++ k :: post ↔ s.fit c j = true := by
    rw [← hl, List.mem_filter]
    exact ⟨fun h => h.2, fun h => ⟨List.mem_finRange j, h⟩⟩
  have hsorted : (pre ++ k :: post).Pairwise (· < ·) := by
    rw [← hl]
    exact (List.pairwise_lt_finRange 48).filter _
  refine ⟨(hmem k).1 (by simp), fun j hj => ?_⟩
  have hin := (hmem j).2 hj
  rw [List.mem_append, List.mem_cons] at hin
  rcases hin with hin | rfl | hin
  · exact .inl (of_decide_eq_true (hpre j hin))
  · exact .inr ⟨rfl, le_rfl⟩
  · have hle := of_decide_eq_false (hpost j hin)
    have hlt : k < j := List.rel_of_pairwise_cons (List.pairwise_append.1 hsorted).2.1 hin
    rcases Nat.lt_or_ge (s.spaceAt j) (s.spaceAt k) with h | h
    · exact .inl h
    · exact .inr ⟨by omega, hlt.le⟩

theorem bestFit_none {s : State} {c : Ctx} (h : s.bestFit c = none) (k : Slot) : s.fit c k = false := by
  rw [bestFit_eq, foldl_better_none, List.filter_eq_nil_iff] at h
  simpa using h k (List.mem_finRange k)

/-! ### Claims (R58, R59) -/

theorem recallPermission_iff (s : State) : s.recallPermission = true ↔ s.mayAsk := by
  unfold State.recallPermission State.mayAsk
  simp [and_assoc]

/-- R58, R59: step 1 or step 2 applies. -/
theorem mayClaim_iff (s : State) : (s.withinQuota || s.fromPool) = true ↔ s.mayClaim := by
  have hme : s.me = s.mem.stn := rfl
  have hperm : s.claimPermission = true ↔ s.mayAsk ∧ s.plc.claims.length < 4 := by
    unfold State.claimPermission State.mayAsk
    simp only [Bool.and_eq_true, beq_iff_eq, Bool.not_eq_true', decide_eq_true_eq]
    tauto
  have hprosp : s.prospective = s.dir.rep.heldCount s.mem.stn + s.queuedCount := rfl
  have havail : s.available = s.dir.rep.freeCount - s.queuedCount := rfl
  unfold State.withinQuota State.fromPool State.mayClaim
  simp only [Bool.or_eq_true, Bool.and_eq_true, hperm, hme, hprosp, havail, decide_eq_true_eq,
    Bool.not_eq_true']
  constructor
  · rintro (⟨⟨⟨ha, hl⟩, hq⟩, hf⟩ | ⟨⟨⟨⟨ha, hl⟩, hq⟩, hp⟩, hr⟩)
    · exact ⟨ha, hl, by omega, .inl hq⟩
    · exact ⟨ha, hl, by omega, .inr ⟨hq, hp, hr⟩⟩
  · rintro ⟨ha, hl, hf, hq | ⟨hq, hp, hr⟩⟩
    · exact .inl ⟨⟨⟨ha, hl⟩, hq⟩, by omega⟩
    · exact .inr ⟨⟨⟨⟨ha, hl⟩, hq⟩, hp⟩, hr⟩

/-- R58: a FREE slot that no QUEUED entry names. -/
theorem claimable_iff (s : State) (k : Slot) :
    (s.dir.rep.dir[k] == .free && !s.queuedClaims.any (·.slot == k)) = true ↔
      s.dir.rep.dir[k] = .free ∧ ∀ e ∈ s.plc.claims, e.phase = .queued → e.slot ≠ k := by
  rw [Bool.and_eq_true, beq_iff_eq]
  refine and_congr_right fun _ => ?_
  simp only [Bool.not_eq_true', List.any_eq_false, State.queuedClaims, List.mem_filter, beq_iff_eq, and_imp,
    ne_eq]

/-- R58: there are more FREE slots than QUEUED entries, so one of them is named by none. -/
theorem claimSlot_isSome {s : State} (h : s.queuedCount < s.dir.rep.freeCount) :
    ∃ k, s.claimSlot = some k := by
  by_contra hno
  have hnone : s.claimSlot = none := by
    rw [← Option.not_isSome_iff_eq_none, Option.isSome_iff_exists]
    exact hno
  unfold State.claimSlot at hnone
  rw [List.find?_eq_none] at hnone
  have hsub : (allSlots.filter fun k => s.dir.rep.dir[k] == .free) ⊆ s.queuedClaims.map (·.slot) := by
    intro k hk
    obtain ⟨hin, hfree⟩ := List.mem_filter.1 hk
    have hnot := hnone k hin
    rw [claimable_iff] at hnot
    push Not at hnot
    obtain ⟨e, he, hq, hs⟩ := hnot (beq_iff_eq.1 hfree)
    exact List.mem_map.2 ⟨e, List.mem_filter.2 ⟨he, by rw [hq]; rfl⟩, hs⟩
  have hnodup : (allSlots.filter fun k => s.dir.rep.dir[k] == .free).Nodup :=
    (List.nodup_finRange 48).filter _
  have hlen := (hnodup.subperm hsub).length_le
  rw [List.length_map] at hlen
  exact absurd h (by unfold State.queuedCount Replica.freeCount; exact Nat.not_lt.2 hlen)

theorem claimSlot_some {s : State} {k : Slot} (h : s.claimSlot = some k) :
    s.dir.rep.dir[k] = .free ∧ (∀ e ∈ s.plc.claims, e.phase = .queued → e.slot ≠ k) ∧
      ∀ j : Slot, j < k → s.dir.rep.dir[j] = .free → ∃ e ∈ s.plc.claims, e.phase = .queued ∧ e.slot = j := by
  unfold State.claimSlot allSlots at h
  rw [← Fin.find?_eq_find?_finRange, Fin.find?_eq_some_iff] at h
  obtain ⟨hk, hlow⟩ := h
  obtain ⟨hfree, hnamed⟩ := (claimable_iff s k).1 hk
  refine ⟨hfree, hnamed, fun j hj hjf => ?_⟩
  have hno := hlow j hj
  rw [← Bool.not_eq_true, claimable_iff] at hno
  push Not at hno
  exact hno hjf

/-- R58, R62: the CLAIM with its entry. -/
theorem queueClaim_claimed {s : State} (h : s.mayClaim) (kd : SlotKind) (cl : Option Ctx) :
    s.claimed (s.queueClaim kd cl) kd cl := by
  obtain ⟨k, hk⟩ := claimSlot_isSome h.2.2.1
  obtain ⟨hfree, hnamed, hlow⟩ := claimSlot_some hk
  have hq : s.queueClaim kd cl = (s.onPlc fun p =>
      { p with claims := p.claims ++ [{ slot := k, kind := kd, claimant := cl, phase := .queued }] }
      ).queueFrame (.claim k kd) := by simp only [State.queueClaim, hk]
  rw [hq]
  exact ⟨k, hfree, hnamed, hlow, rfl, (Bus.queue_gained s.bus _ :), rfl, rfl⟩

/-! ### Grants (R25, R60) -/

/-- R25: the stream becomes a resident of the slot. -/
def State.resident (s : State) (c : Ctx) (k : Slot) (x : Ext) : State :=
  s.setExt k (some { x with residents := x.residents ++ [c] })

theorem grant_eq {s : State} {k : Slot} {x : Ext} (hx : s.dir.ext[k] = some x) (c : Ctx) :
    s.grant c k = (s.resident c k x).onCtx c fun t => { t with state := .bound, slot := some (k, x.serial) } := by
  simp only [State.grant, hx]
  rfl

theorem grant_self {s : State} {k : Slot} {x : Ext} (hx : s.dir.ext[k] = some x) (c : Ctx) :
    (s.grant c k).str.ctxs[c].state = .bound ∧ (s.grant c k).str.ctxs[c].slot = some (k, x.serial) ∧
      (s.grant c k).str.ctxs[c].pending = s.str.ctxs[c].pending := by
  have hget := (onCtx_get (s.resident c k x) c c fun t =>
    { t with state := .bound, slot := some (k, x.serial) }).trans (if_pos rfl)
  rw [grant_eq hx]
  exact ⟨congrArg Context.state hget, congrArg Context.slot hget, (congrArg Context.pending hget :)⟩

theorem grant_other {s : State} {c b : Ctx} (hb : b ≠ c) (k : Slot) :
    (s.grant c k).str.ctxs[b] = s.str.ctxs[b] := by
  cases hx : s.dir.ext[k] with
  | none => simp only [State.grant, hx]
  | some x =>
    rw [grant_eq hx]
    exact (onCtx_get (s.resident c k x) c b _).trans (if_neg hb)

theorem grant_dir {s : State} {k : Slot} {x : Ext} (hx : s.dir.ext[k] = some x) (c : Ctx) :
    (s.grant c k).dir = (s.resident c k x).dir ∧ (s.grant c k).bus = s.bus := by
  rw [grant_eq hx]
  exact ⟨(onCtx_changes _ _ _).1 .dir (by simp), (onCtx_changes _ _ _).1 .bus (by simp)⟩

/-- R63: no claim is cleared of a claimant it does not name. -/
theorem clearClaimant_unnamed {c : Ctx} {x : Context} {l : List ClaimEntry}
    (h : ∀ y ∈ l, y.claimant ≠ some c) : clearClaimant c x l = l := by
  unfold clearClaimant
  split
  · rfl
  · refine (List.map_congr_left fun y hy => ?_).trans l.map_id
    exact if_neg (h y hy)

theorem grant_plc {s : State} {k : Slot} {c : Ctx} (h : ∀ y ∈ s.plc.claims, y.claimant ≠ some c) :
    (s.grant c k).plc = s.plc := by
  cases hx : s.dir.ext[k] with
  | none => simp only [State.grant, hx]
  | some x =>
    rw [grant_eq hx]
    exact congrArg (fun l => { s.plc with claims := l }) (clearClaimant_unnamed h)

theorem grant_granted {s : State} {k : Slot} {x : Ext} {c : Ctx} (hx : s.dir.ext[k] = some x)
    (h : ∀ y ∈ s.plc.claims, y.claimant ≠ some c) : s.granted (s.grant c k) c k := by
  obtain ⟨hstate, hslot, hpend⟩ := grant_self hx c
  obtain ⟨hdir, hbus⟩ := grant_dir hx c
  exact ⟨x, hx, hdir, hstate, hslot, hpend, fun b hb => grant_other hb k, grant_plc h, hbus⟩

/-! ### Recalls (R61, R110) -/

theorem mayRecall_iff (s : State) : s.recallNeeded = true ↔ s.mayRecall := by
  have hme : s.me = s.mem.stn := rfl
  have hprosp : s.prospective = s.dir.rep.heldCount s.mem.stn + s.queuedCount := rfl
  unfold State.recallNeeded State.mayRecall
  simp only [Bool.and_eq_true, recallPermission_iff, hme, hprosp, decide_eq_true_eq, beq_iff_eq,
    List.any_eq_true, Replica.presentList, List.mem_filter, allStations, List.mem_finRange, true_and, and_assoc]

/-- R110: where a recall may begin another station has an excess. -/
theorem recallTarget_isSome {s : State} (h : s.mayRecall) : ∃ g, s.recallTarget = some g := by
  obtain ⟨-, hq, -, st, hp, hx⟩ := h
  by_contra hno
  have hnone : s.recallTarget = none := by
    rw [← Option.not_isSome_iff_eq_none, Option.isSome_iff_exists]
    exact hno
  rw [recallTarget_none_iff] at hnone
  have hst : st ≠ s.mem.stn := by
    rintro rfl
    unfold Replica.excess at hx
    omega
  exact absurd (hnone st hst hp) (by omega)

theorem beginRecall_recalled {s : State} (h : s.mayRecall) (hr : s.dir.request = none)
    (hc : s.dir.cooling = none) : s.recalled s.beginRecall := by
  obtain ⟨g, hg⟩ := recallTarget_isSome h
  obtain ⟨hne, hp, -, hbest⟩ := recallTarget_some hg
  have hidle : ¬ (s.dir.request.isSome ∨ s.dir.cooling.isSome) := by simp [hr, hc]
  simp only [State.beginRecall, if_neg hidle, hg]
  exact ⟨g, hne, hp, hbest, rfl, (Bus.queue_gained s.bus _ :), rfl, rfl⟩

theorem beginRecall_kept {s : State} (h : s.dir.request.isSome ∨ s.dir.cooling.isSome) :
    s.beginRecall = s := if_pos h

/-! ### Step 5 (R62) -/

theorem mixedSlot_some {s : State} {k : Slot} (h : s.mixedSlot = some k) :
    s.dir.rep.dir[k].holder? = some s.mem.stn ∧ s.dir.rep.dir[k].kind? = some .mixed := by
  have := List.find?_some h
  simpa [State.holdsSlot, Replica.holds, State.me] using this

theorem mixedSlot_none_iff (s : State) :
    s.mixedSlot = none ↔
      ∀ k : Slot, s.dir.rep.dir[k].holder? = some s.mem.stn → s.dir.rep.dir[k].kind? ≠ some .mixed := by
  unfold State.mixedSlot
  rw [List.find?_eq_none]
  simp [State.holdsSlot, Replica.holds, State.me, allSlots]

theorem stepFive_mixed {s : State} {c : Ctx} {e : PendingEntry} {rest : List PendingEntry} {k : Slot}
    {x : Ext} (hp : s.str.ctxs[c].pending = e :: rest) (hk : s.mixedSlot = some k)
    (hx : s.dir.ext[k] = some x) :
    s.stepFive c =
      if s.grantable k then
        if s.roomFor c x then (s.grant c k, false)
        else if e.headExtent.isSome then (s.decideShut k .full, true) else (s, false)
      else (s, false) := by
  unfold State.stepFive State.roomFor
  simp only [hk, hx, headNeed_cons hp]
  cases e.headExtent.isSome <;> simp

theorem stepFive_hidden {s : State} {c : Ctx} {k : Slot} (hk : s.mixedSlot = some k)
    (hx : s.dir.ext[k] = none) : s.stepFive c = (s, false) := by
  unfold State.stepFive
  simp only [hk, hx, ite_self]

theorem stepFive_unmixed {s : State} (hk : s.mixedSlot = none) (c : Ctx) :
    s.stepFive c =
      if s.plc.claims.any (·.kind == .mixed) then (s, false)
      else if s.withinQuota || s.fromPool then (s.queueClaim .mixed none, false)
      else (s, false) := by
  simp only [State.stepFive, hk]

theorem sameWork_refl (s : State) : s.sameWork s := ⟨rfl, rfl, rfl, rfl⟩

theorem tooLong_iff {s : State} {c : Ctx} {e : PendingEntry} {rest : List PendingEntry}
    (h : s.str.ctxs[c].pending = e :: rest) {k : Slot} {x : Ext} (hx : s.dir.ext[k] = some x) :
    s.tooLong e k ↔ s.grantable k = true ∧ s.roomFor c x = false ∧ e.headExtent.isSome := by
  rw [grantable_opened_iff, ← Bool.not_eq_true, roomFor_iff h]
  constructor
  · rintro ⟨y, kd, g, hy, hk, hr, hd, htail, hlt⟩
    cases hx.symm.trans hy
    exact ⟨⟨x, kd, g, hx, hk, hr, hd⟩, by rw [if_pos htail]; exact Nat.not_le.2 hlt, htail⟩
  · rintro ⟨⟨y, kd, g, hy, hk, hr, hd⟩, hroom, htail⟩
    cases hx.symm.trans hy
    rw [if_pos htail] at hroom
    exact ⟨x, kd, g, hx, hk, hr, hd, htail, Nat.not_le.1 hroom⟩

/-- R62: step 5 for the head `e`; where it shuts the MIXED slot, with whatever policy work follows. -/
theorem mixedStep_stepFive {s t : State} {c : Ctx} {e : PendingEntry} {rest : List PendingEntry}
    (hp : s.str.ctxs[c].pending = e :: rest) (hc : ∀ y ∈ s.plc.claims, y.claimant ≠ some c)
    (hsame : (s.stepFive c).2 = false → t = (s.stepFive c).1)
    (hthen : ∃ cs, Queues cs (s.stepFive c).1 t) : s.mixedStep t c e := by
  refine ⟨fun k hh hk huniq => ?_, fun hno => ?_⟩
  · have hmix : s.mixedSlot = some k := by
      cases hm : s.mixedSlot with
      | none => exact absurd hk ((mixedSlot_none_iff s).1 hm k hh)
      | some j =>
        obtain ⟨hjh, hjk⟩ := mixedSlot_some hm
        rw [huniq j hjh hjk]
    cases hx : s.dir.ext[k] with
    | none =>
      rw [stepFive_hidden hmix hx] at hsame
      refine ⟨fun ht => ?_, fun ht => ?_, fun _ _ => by rw [hsame rfl]; exact sameWork_refl s⟩
      · obtain ⟨x, -, -, hx', -⟩ := ht
        cases hx.symm.trans hx'
      · obtain ⟨x, -, -, hx', -⟩ := ht
        cases hx.symm.trans hx'
    | some x =>
      rw [stepFive_mixed hp hmix hx] at hsame hthen
      rw [takesEntry_iff hp hx, tooLong_iff hp hx]
      refine ⟨fun ht => ?_, fun ht => ?_, fun hn hl => ?_⟩
      · obtain ⟨hg, hr⟩ := ht
        rw [if_pos hg, if_pos hr] at hsame
        rw [hsame rfl]
        exact grant_granted hx hc
      · obtain ⟨hg, hr, htail⟩ := ht
        rw [if_pos hg, if_neg (by rw [hr]; decide), if_pos htail] at hthen
        obtain ⟨cs, hq⟩ := hthen
        obtain ⟨y, hy, -, hopen, -, hdue⟩ := (grantable_iff s k).1 hg
        cases hx.symm.trans hy
        obtain ⟨⟨z, hz, hzd, -⟩, hfirst⟩ := decideShut_stands hx hdue (isOpen_notApplied hopen) hq
        exact ⟨⟨z, hz, hzd⟩, hfirst⟩
      · have hidle : s.stepFive c = (s, false) := by
          rw [stepFive_mixed hp hmix hx]
          split
          next hg =>
            rw [if_neg fun hr => hn ⟨hg, hr⟩, if_neg fun htail => hl ⟨hg, ?_, htail⟩]
            exact Bool.eq_false_iff.2 fun hr => hn ⟨hg, hr⟩
          · rfl
        rw [stepFive_mixed hp hmix hx] at hidle
        rw [hidle] at hsame
        rw [hsame rfl]
        exact sameWork_refl s
  · rw [stepFive_unmixed ((mixedSlot_none_iff s).2 hno)] at hsame
    have hany : (s.plc.claims.any (·.kind == .mixed)) = true ↔ ∃ y ∈ s.plc.claims, y.kind = .mixed := by
      simp
    refine ⟨fun hn => ?_, fun hk hm => ?_⟩
    · have hidle : (if s.plc.claims.any (·.kind == .mixed) then (s, false)
          else if s.withinQuota || s.fromPool then (s.queueClaim .mixed none, false)
          else (s, false)) = (s, false) := by
        split
        · rfl
        next hnot =>
          exact if_neg (by rw [mayClaim_iff]; exact hn.resolve_left fun h => hnot (hany.2 h))
      rw [hidle] at hsame
      rw [hsame rfl]
      exact sameWork_refl s
    · have hnot : ¬ (s.plc.claims.any (·.kind == .mixed)) = true := by
        rw [hany]
        rintro ⟨y, hy, hyk⟩
        exact hk y hy hyk
      rw [if_neg hnot, if_pos ((mayClaim_iff s).2 hm)] at hsame
      rw [hsame rfl]
      exact queueClaim_claimed hm _ _

/-! ### The step of a stream (R57 to R62) -/

theorem visit_five {s : State} {skip : List Ctx} {c : Ctx} (hw : s.str.ctxs[c].state = .waiting)
    (hc : ∀ y ∈ s.plc.claims, y.claimant ≠ some c) (h : c = 0 ∨ s.str.ctxs[c].cls = none) :
    s.visit skip c = s.stepFive c := by
  have hany : ¬ (s.plc.claims.any (·.claimant == some c)) = true := by simpa using hc
  unfold State.visit
  rw [if_neg (by rw [hw]; decide), if_neg hany]
  split
  · rfl
  next h0 => simp only [h.resolve_left h0]

theorem visit_class {s : State} {skip : List Ctx} {c : Ctx} {cl : LifeClass}
    (hw : s.str.ctxs[c].state = .waiting) (hc : ∀ y ∈ s.plc.claims, y.claimant ≠ some c) (h0 : c ≠ 0)
    (hcl : s.str.ctxs[c].cls = some cl) :
    s.visit skip c =
      if c ∉ skip ∧ (s.withinQuota || s.fromPool) then (s.queueClaim (.normal cl) (some c), false)
      else
        match s.bestFit c with
        | some k => (s.grant c k, false)
        | none => if s.recallNeeded then (s.beginRecall, false) else s.stepFive c := by
  have hany : ¬ (s.plc.claims.any (·.claimant == some c)) = true := by simpa using hc
  unfold State.visit
  rw [if_neg (by rw [hw]; decide), if_neg hany, if_neg h0]
  simp only [hcl] <;> rfl

/-- R57 to R62: the step of a stream that is visited; where it shuts a slot, with the work that follows. -/
theorem policyStep_visit {s t : State} {c : Ctx} {e : PendingEntry} {rest : List PendingEntry}
    (hw : s.str.ctxs[c].state = .waiting) (hp : s.str.ctxs[c].pending = e :: rest)
    (hc : ∀ y ∈ s.plc.claims, y.claimant ≠ some c) (hsame : (s.visit [] c).2 = false → t = (s.visit [] c).1)
    (hthen : ∃ cs, Queues cs (s.visit [] c).1 t) : s.policyStep t c e := by
  refine ⟨fun cl h0 hcl => ?_, fun h => ?_⟩
  · rw [visit_class hw hc h0 hcl] at hsame hthen
    refine ⟨fun hm => ?_, fun hm => ?_⟩
    · rw [if_pos ⟨by simp, (mayClaim_iff s).2 hm⟩] at hsame
      rw [hsame rfl]
      exact queueClaim_claimed hm _ _
    · rw [if_neg fun h => hm ((mayClaim_iff s).1 h.2)] at hsame hthen
      refine ⟨fun hfit => ?_, fun hfit => ?_⟩
      · cases hbest : s.bestFit c with
        | none =>
          obtain ⟨k, hk⟩ := hfit
          have hno := bestFit_none hbest k
          rw [(fit_iff hp hcl k).2 hk] at hno
          cases hno
        | some k =>
          obtain ⟨hk, hk'⟩ := bestFit_some hbest
          have hfits := (fit_iff hp hcl k).1 hk
          rw [hbest] at hsame
          rw [hsame rfl]
          refine ⟨k, hfits, fun j hj => hk' j ((fit_iff hp hcl j).2 hj), ?_⟩
          obtain ⟨⟨x, -, -, hx, -⟩, -⟩ := hfits
          exact grant_granted hx hc
      · have hbest : s.bestFit c = none := by
          cases hbest : s.bestFit c with
          | none => rfl
          | some k => exact absurd ((fit_iff hp hcl k).1 (bestFit_some hbest).1) (hfit k)
        rw [hbest] at hsame hthen
        dsimp only at hsame hthen
        refine ⟨fun hr => ?_, fun hr => ?_⟩
        · rw [if_pos ((mayRecall_iff s).2 hr)] at hsame
          rw [hsame rfl]
          exact ⟨beginRecall_recalled hr, fun hk => by rw [beginRecall_kept hk]; exact sameWork_refl s⟩
        · rw [if_neg fun h => hr ((mayRecall_iff s).1 h)] at hsame hthen
          exact mixedStep_stepFive hp hc hsame hthen
  · rw [visit_five hw hc h] at hsame hthen
    exact mixedStep_stepFive hp hc hsame hthen

/-! ### The pass (R57) -/

theorem waitingOrder_alone {t : Streams} {c : Ctx} (hw : t.ctxs[c].state = .waiting)
    (h : ∀ b : Ctx, b ≠ c → t.ctxs[b].state ≠ .waiting) : t.waitingOrder = [c] := by
  have hfilter : (allCtxs.filter fun b => t.ctxs[b].state == .waiting) = [c] := by
    have hiff : (allCtxs.filter fun b => t.ctxs[b].state == .waiting) = allCtxs.filter (· == c) := by
      refine List.filter_congr fun b _ => ?_
      by_cases hb : b = c
      · rw [hb, hw]
        simp
      · rw [beq_eq_false_iff_ne.2 (h b hb), beq_eq_false_iff_ne.2 hb]
    rw [hiff, List.filter_beq, allCtxs,
      List.count_eq_one_of_mem (List.nodup_finRange 64) (List.mem_finRange c)]
    rfl
  unfold Streams.waitingOrder
  rw [hfilter]
  rfl

theorem policyPass_none {s : State} (h : ∀ c : Ctx, s.str.ctxs[c].state ≠ .waiting) (skip : List Ctx) :
    s.policyPass skip = s := by
  have hempty : s.str.waitingOrder = [] := by
    rw [List.eq_nil_iff_forall_not_mem]
    exact fun c hc => h c ((mem_waitingOrder _ c).1 hc)
  unfold State.policyPass State.passOnce
  rw [hempty]
  simp

/-- R57: a policy pass over a waiting order of one stream at most. -/
theorem passed_policyPass (s : State) : s.passed s.policyPass := by
  refine ⟨fun hm hcu => ?_, fun hno => ?_, fun hm c e rest hw hother hp hc => ?_⟩
  · have hidle : s.policyPass = s := if_neg (by tauto)
    rw [hidle]
    exact sameWork_refl s
  · rw [policyPass_none hno]
    exact sameWork_refl s
  · have honce : s.passOnce [] = s.visit [] c := by
      unfold State.passOnce
      rw [waitingOrder_alone hw hother]
      simp
    have hpass : s.policyPass =
        if (s.visit [] c).2 then ((s.visit [] c).1.passOnce []).1 else (s.visit [] c).1 := by
      rw [← honce]
      exact if_pos hm
    refine policyStep_visit hw hp hc (fun hf => by rw [hpass, hf]; rfl) ⟨[.full], ?_⟩
    rw [hpass]
    split
    · exact queues_passOnce _ [] (by simp)
    · exact Queues.refl _ _

end Sys2Proof.Machine
end

