-- ==== Sys2Proof/Proofs/ExchangeTimers.lean ====
section
/-! SUPPORT. The timers of the catch-up exchange and of the recall (R115, R116, R132, R136). -/

namespace Sys2Proof.Machine

/-! ### Catch-up -/

theorem exec_offerTimerExpiry {s : State} {e : AskEntry} (hs : s.rst = none)
    (he : s.dir.request = some (.ask e)) (hp : e.phase = .offers) :
    exec .offerTimerExpiry s = .next s.attemptFail.settled := by
  obtain ⟨tag, phase, began, tries, timer⟩ := e
  cases hp
  change execOfferTimerExpiry s = _
  unfold execOfferTimerExpiry
  rw [live_settled _ hs]
  simp only [he]

theorem exec_partGapTimerExpiry {s : State} {e : AskEntry} {r : Station} {n : Nat} (hs : s.rst = none)
    (he : s.dir.request = some (.ask e)) (hp : e.phase = .receiving r n) :
    exec .partGapTimerExpiry s = .next s.attemptFail.settled := by
  obtain ⟨tag, phase, began, tries, timer⟩ := e
  cases hp
  change execPartGapTimerExpiry s = _
  unfold execPartGapTimerExpiry
  rw [live_settled _ hs]
  simp only [he]

theorem exec_offerDelayExpiry {s : State} {v : Serving} {n : Nat} (hs : s.rst = none)
    (hv : s.dir.serving = some v) (hp : v.phase = .delay n) (hm : s.mem.state = .member) :
    exec .offerDelayExpiry s = .next
      ((s.onDir fun d => { d with serving := some { v with phase := .offered false } }).queueFrame
        (.catchupOffer v.tag v.asker s.me)).settled := by
  change execOfferDelayExpiry s = _
  unfold execOfferDelayExpiry
  rw [live_settled _ hs]
  simp only [hv, hp, if_pos hm]

/-! ### Recalls -/

theorem exec_answerTimerExpiry {s : State} {e : RecallEntry} (hs : s.rst = none)
    (he : s.dir.request = some (.recall e)) (hp : e.phase = .asked) :
    exec .answerTimerExpiry s = .next (s.tryFails e false).settled := by
  change execAnswerTimerExpiry s = _
  unfold execAnswerTimerExpiry
  rw [live_settled _ hs]
  simp only [he, if_pos hp]

/-- R116: the backoff's end with a recall that stands, and with one that does not. -/
theorem exec_backoffTimerExpiry {s : State} {e : RecallEntry} (hs : s.rst = none)
    (he : s.dir.request = some (.recall e)) (hp : e.phase = .backoff) :
    (∀ g, s.recallStands = some g → exec .backoffTimerExpiry s = .next (s.retryRecall e g).settled) ∧
      (s.recallStands = none → exec .backoffTimerExpiry s =
        .next (s.onDir fun d => { d with request := none }).policyPass.settled) := by
  refine ⟨fun g hg => ?_, fun hg => ?_⟩ <;>
  · change execBackoffTimerExpiry s = _
    unfold execBackoffTimerExpiry
    rw [live_settled _ hs]
    simp only [he, if_pos hp, hg]

theorem retryRecall_changes (s : State) (e : RecallEntry) (g : Station) :
    s.changesOnly (s.retryRecall e g) [.dir, .bus, .flt] := by
  refine ⟨fun b hb => ?_, rfl, rfl⟩
  cases b <;> first | rfl | exact absurd (by decide) hb

theorem exec_coolingPeriodExpiry {s : State} (hs : s.rst = none) (hc : s.dir.cooling.isSome) :
    exec .coolingPeriodExpiry s = .next (s.onDir fun d => { d with cooling := none }).policyPass.settled := by
  obtain ⟨n, hn⟩ := Option.isSome_iff_exists.1 hc
  change execCoolingPeriodExpiry s = _
  unfold execCoolingPeriodExpiry
  rw [live_settled _ hs]
  simp only [hn]

/-- What a pass has led to stands when the command ends. -/
theorem State.passed.settled {u t : State} (h : u.passed t) : u.passed t.settled := h

/-- The blocks of a policy pass behind a change in the directory engine. -/
theorem frame_policyPass {s u : State} {l : List Block} (h : s.changesOnly u l) (hl : ∀ b ∈ l, b ∈ policyBlocks)
    (skip : List Ctx) : s.frame (u.policyPass skip).settled policyBlocks :=
  frame_of_changes (h.andThen (polices_policyPass u skip).changesOnly hl fun _ hb => hb) (by simp [policyBlocks])

/-- Settles O56: the timers of the catch-up exchange, of the recall and of the cooling period. -/
theorem exchangeTimersFire : Obligations.ExchangeTimersFire := by
  unfold Obligations.ExchangeTimersFire
  intro s hs
  refine ⟨fun e he hp => ⟨_, exec_offerTimerExpiry hs he hp, attemptFailed_settled (.refl s _)⟩,
    fun e r n he hp => ⟨_, exec_partGapTimerExpiry hs he hp, attemptFailed_settled (.refl s _)⟩,
    fun v n hv hp hm => ⟨_, exec_offerDelayExpiry hs hv hp hm, rfl, (Bus.queue_gained s.bus _ :), ?_⟩,
    fun e he hp => ⟨fun hn => ⟨_, exec_answerTimerExpiry hs he hp, ?_⟩,
      fun hn => ⟨_, exec_answerTimerExpiry hs he hp, ?_⟩⟩,
    fun e he hp => ⟨fun g hg => ⟨_, (exec_backoffTimerExpiry hs he hp).1 g hg, ?_⟩,
      fun hg => ⟨_, (exec_backoffTimerExpiry hs he hp).2 hg, ?_⟩⟩,
    fun hc => ⟨_, exec_coolingPeriodExpiry hs hc, ?_⟩⟩
  · exact frame_of_changes ((onDir_changes s _).andThen (queueFrame_changes _ _) (by simp) (by simp)) (by simp)
  · rw [tryFails_less hn]
    exact ⟨rfl, frame_of_changes (onDir_changes s _) (by simp)⟩
  · rw [tryFails_last hn]
    obtain ⟨hreq, hcool, hfrozen, hcount, hch⟩ := exhaustRecall_settled s e
    exact ⟨hreq, hcool, hfrozen, hcount, frame_of_changes hch (by simp [policyBlocks])⟩
  · exact ⟨rfl, (Bus.queue_gained s.bus _ :),
      frame_of_changes ((retryRecall_changes s e g).mono (by simp)) (by simp)⟩
  · have hq := queues_policyPass (s.onDir fun d => { d with request := none }) [] (cs := [.full]) (by simp)
    have hnone : (s.onDir fun d => { d with request := none }).policyPass.dir.request = none := by
      rcases hq.asks with ⟨hreq, -⟩ | ⟨-, hst, -⟩
      · exact hreq
      · exact absurd hg hst
    exact ⟨hnone, hq.counts, frame_policyPass (onDir_changes s _) (by simp [policyBlocks]) []⟩
  · have hp := polices_policyPass (s.onDir fun d => { d with cooling := none })
    exact ⟨hp.cooling, hp.rep, (passed_policyPass _).settled,
      frame_policyPass (onDir_changes s _) (by simp [policyBlocks]) []⟩

end Sys2Proof.Machine
end

