-- ==== Sys2Proof/Proofs/Pressing.lean ====
section
/-! SUPPORT. The shuts under pressure (R75): the slot that is shut first, and an evaluation of the open
excess with the policy work around it. -/

namespace Sys2Proof.Machine

/-! ### The slot that is shut first (R49, R75) -/

theorem mayShut_iff (s : State) (k : Slot) : s.mayShut k ↔ s.grantable k = true :=
  (grantable_opened_iff s k).symm

theorem filledBefore_asymm {s : State} {k j : Slot} (h : s.filledBefore k j) : ¬ s.filledBefore j k := by
  unfold State.filledBefore at h ⊢
  cases hk : s.lastFillAt k <;> cases hj : s.lastFillAt j <;> simp only [hk, hj] at h ⊢
  · exact fun h' => absurd (lt_trans h h') (lt_irrefl _)
  · exact not_false
  · rintro (h' | ⟨h', hlt⟩)
    · rcases h with h | ⟨h, -⟩
      · omega
      · rw [h] at h'
        omega
    · rcases h with h | ⟨h, hlt'⟩
      · rw [h'] at h
        omega
      · exact absurd (lt_trans hlt hlt') (lt_irrefl _)

/-- R75: one slot at most is shut first. -/
theorem shutFirst_unique {s : State} {k j : Slot} (hk : s.shutFirst k) (hj : s.shutFirst j) : k = j := by
  by_contra hne
  rcases hk.2 j (Ne.symm hne) hj.1 with ⟨hjm, hkm⟩ | ⟨-, hf⟩
  · rcases hj.2 k hne hk.1 with ⟨hkm', -⟩ | ⟨hiff, -⟩
    · exact hkm hkm'
    · exact hkm (hiff.2 hjm)
  · rcases hj.2 k hne hk.1 with ⟨hkm, hjm⟩ | ⟨-, hf'⟩
    · rcases hk.2 j (Ne.symm hne) hj.1 with ⟨hjm', -⟩ | ⟨hiff, -⟩
      · exact hjm hjm'
      · exact hjm (hiff.2 hkm)
    · exact filledBefore_asymm hf hf'

/-- R49: the least recently filled of an ascending list of slots is filled before the others. -/
theorem leastFilled_before {s : State} {p : Slot → Bool} {k : Slot}
    (h : s.leastFilled (allSlots.filter p) = some k) :
    p k = true ∧ ∀ j, j ≠ k → p j = true → s.filledBefore k j := by
  obtain ⟨pre, post, hl, hpre, hpost⟩ := leastFilled_some h
  have hmem (j : Slot) : j ∈ pre ++ k :: post ↔ p j = true := by
    rw [← hl, List.mem_filter]
    exact ⟨fun h => h.2, fun h => ⟨List.mem_finRange j, h⟩⟩
  have hsorted : (pre ++ k :: post).Pairwise (· < ·) := by
    rw [← hl]
    exact (List.pairwise_lt_finRange 48).filter _
  refine ⟨(hmem k).1 (by simp), fun j hne hj => ?_⟩
  have hin := (hmem j).2 hj
  rw [List.mem_append, List.mem_cons] at hin
  unfold State.filledBefore
  rcases hin with hin | rfl | hin
  · have hearly := hpre j hin
    cases hk : s.lastFillAt k <;> cases hj' : s.lastFillAt j <;> rw [hk, hj'] at hearly <;>
      simp only [filledEarlier, decide_eq_true_eq, reduceCtorEq] at hearly ⊢
    exact .inl hearly
  · exact absurd rfl hne
  · have hlate := hpost j hin
    have hlt : k < j := List.rel_of_pairwise_cons (List.pairwise_append.1 hsorted).2.1 hin
    cases hk : s.lastFillAt k <;> cases hj' : s.lastFillAt j <;> rw [hk, hj'] at hlate <;>
      simp only [filledEarlier, decide_eq_false_iff_not, reduceCtorEq] at hlate ⊢
    · exact hlt
    next a b =>
      rcases Nat.lt_or_ge a.toNat b.toNat with h | h
      · exact .inl h
      · exact .inr ⟨BitVec.eq_of_toNat_eq (by omega), hlt⟩

theorem shutCandidate_first {s : State} {k : Slot} (h : s.shutCandidate = some k) : s.shutFirst k := by
  unfold State.shutCandidate at h
  split at h
  next i hi =>
    obtain rfl := Option.some.inj h
    obtain ⟨hp, hbefore⟩ := leastFilled_before hi
    rw [Bool.and_eq_true, bne_iff_ne] at hp
    refine ⟨(mayShut_iff s i).2 hp.1, fun j hne hj => ?_⟩
    by_cases hjm : s.isMixed j
    · exact .inl ⟨hjm, hp.2⟩
    · refine .inr ⟨⟨fun h => absurd h hjm, fun h => absurd h hp.2⟩, hbefore j hne ?_⟩
      rw [Bool.and_eq_true, bne_iff_ne]
      exact ⟨(mayShut_iff s j).1 hj, hjm⟩
  next hnone =>
    rw [leastFilled_none, List.filter_eq_nil_iff] at hnone
    have hmixed (j : Slot) (hj : s.mayShut j) : s.isMixed j := by
      have := hnone j (List.mem_finRange j)
      rw [Bool.and_eq_true, bne_iff_ne, not_and, not_not] at this
      exact this ((mayShut_iff s j).1 hj)
    obtain ⟨hp, hbefore⟩ := leastFilled_before h
    have hk := (mayShut_iff s k).2 hp
    exact ⟨hk, fun j hne hj => .inr ⟨iff_of_true (hmixed j hj) (hmixed k hk),
      hbefore j hne ((mayShut_iff s j).1 hj)⟩⟩

theorem shutCandidate_none_iff (s : State) : s.shutCandidate = none ↔ ∀ k, ¬ s.mayShut k := by
  constructor
  · intro h k hk
    unfold State.shutCandidate at h
    split at h
    · cases h
    · rw [leastFilled_none, List.filter_eq_nil_iff] at h
      exact h k (List.mem_finRange k) ((mayShut_iff s k).1 hk)
  · intro h
    cases hc : s.shutCandidate with
    | none => rfl
    | some k => exact absurd (shutCandidate_first hc).1 (h k)

theorem shutCandidate_of_first {s : State} {k : Slot} (h : s.shutFirst k) : s.shutCandidate = some k := by
  cases hc : s.shutCandidate with
  | none => exact absurd h.1 ((shutCandidate_none_iff s).1 hc k)
  | some j => rw [shutFirst_unique h (shutCandidate_first hc)]

/-! ### The open excess and the close capacity -/

/-- R75: the open excess calls for a shut, and one can be decided. -/
def State.callsForShut (s : State) : Prop := 0 < s.openExcess ∧ s.closeCount < 4 ∧ ∃ k, s.mayShut k

theorem not_callsForShut_iff (s : State) :
    ¬ s.callsForShut ↔ s.openExcess ≤ 0 ∨ 4 ≤ s.closeCount ∨ ∀ k, ¬ s.mayShut k := by
  unfold State.callsForShut
  rw [not_and_or, not_and_or, not_lt, not_lt, not_exists]

/-- R75: a slot counts as open until a shut is due for it. -/
def State.countsOpen (s : State) (k : Slot) : Bool :=
  s.holdsSlot k && s.dir.rep.dir[k].isOpen &&
    (match s.dir.ext[k] with | some x => x.shutDue == none | none => true)

/-- R75, R147: a slot counts against the close tracker once a shut is due or applied. -/
def State.countsClose (s : State) (k : Slot) : Bool :=
  s.holdsSlot k &&
    (s.dir.rep.dir[k].isClosing || (match s.dir.ext[k] with | some x => x.shutDue.isSome | none => false))

theorem openExcess_eq (s : State) :
    s.openExcess = ((allSlots.filter s.countsOpen).length : Int) - (s.dir.rep.quota s.mem.stn : Int) := rfl

theorem closeCount_eq (s : State) :
    s.closeCount = (allSlots.filter s.countsClose).length +
      (s.mem.adoption.filter fun a => s.dir.rep.dir[a.slot].orphanOf a.former).length := rfl

theorem polices_holdsSlot {s t : State} (h : Polices s t) (k : Slot) : t.holdsSlot k = s.holdsSlot k := by
  simp only [State.holdsSlot, State.me, h.rep, h.mem]

/-- R72: policy work takes no shut back. -/
theorem due_later {s t : State} (h : Polices s t) {k : Slot} {x y : Ext} (hx : s.dir.ext[k] = some x)
    (hy : t.dir.ext[k] = some y) (hd : x.shutDue.isSome) : y.shutDue.isSome := by
  obtain ⟨z, hz, hkept⟩ := (h.ext k).2 x hx
  cases hy.symm.trans hz
  rw [(hkept.due hd).1]
  exact hd

theorem countsOpen_later {s t : State} (h : Polices s t) {k : Slot} (hk : t.countsOpen k = true) :
    s.countsOpen k = true := by
  unfold State.countsOpen at hk ⊢
  rw [polices_holdsSlot h, h.rep, Bool.and_eq_true] at hk
  rw [Bool.and_eq_true]
  refine ⟨hk.1, ?_⟩
  cases hx : s.dir.ext[k] with
  | none => rfl
  | some x =>
    obtain ⟨y, hy, -⟩ := (h.ext k).2 x hx
    have hdue := hk.2
    rw [hy] at hdue
    cases hd : x.shutDue with
    | none => simp [hd]
    | some c =>
      have := due_later h hx hy (by rw [hd]; rfl)
      rw [beq_iff_eq.1 hdue] at this
      cases this

theorem countsClose_later {s t : State} (h : Polices s t) {k : Slot} (hk : s.countsClose k = true) :
    t.countsClose k = true := by
  unfold State.countsClose at hk ⊢
  rw [Bool.and_eq_true, Bool.or_eq_true] at hk
  rw [polices_holdsSlot h, h.rep, Bool.and_eq_true, Bool.or_eq_true]
  refine ⟨hk.1, hk.2.imp_right fun hdue => ?_⟩
  cases hx : s.dir.ext[k] with
  | none =>
    rw [hx] at hdue
    cases hdue
  | some x =>
    obtain ⟨y, hy, -⟩ := (h.ext k).2 x hx
    rw [hx] at hdue
    rw [hy]
    exact due_later h hx hy hdue

theorem openExcess_later {s t : State} (h : Polices s t) : t.openExcess ≤ s.openExcess := by
  have hle : (allSlots.filter t.countsOpen).length ≤ (allSlots.filter s.countsOpen).length :=
    (List.monotone_filter_right allSlots fun _ hk => countsOpen_later h hk).length_le
  rw [openExcess_eq, openExcess_eq, h.rep, h.mem]
  omega

theorem closeCount_later {s t : State} (h : Polices s t) : s.closeCount ≤ t.closeCount := by
  have hle : (allSlots.filter s.countsClose).length ≤ (allSlots.filter t.countsClose).length :=
    (List.monotone_filter_right allSlots fun _ hk => countsClose_later h hk).length_le
  rw [closeCount_eq, closeCount_eq, h.rep, h.mem]
  omega

theorem mayShut_later {s t : State} (h : Polices s t) {k : Slot} (hk : t.mayShut k) : s.mayShut k := by
  obtain ⟨y, kd, g, hy, hopen, hready, hdue⟩ := hk
  cases hx : s.dir.ext[k] with
  | none =>
    rw [(h.ext k).1 hx] at hy
    cases hy
  | some x =>
    obtain ⟨z, hz, hkept⟩ := (h.ext k).2 x hx
    cases hy.symm.trans hz
    refine ⟨x, kd, g, hx, by rw [← h.rep, ← h.mem]; exact hopen, hkept.readiness ▸ hready, ?_⟩
    cases hd : x.shutDue with
    | none => rfl
    | some c =>
      have := (hkept.due (by rw [hd]; rfl)).1
      rw [hdue, hd] at this
      cases this

/-- R75: policy work does not raise the open excess again, nor the close capacity. -/
theorem callsForShut_later {s t : State} (h : Polices s t) (ht : t.callsForShut) : s.callsForShut := by
  obtain ⟨ho, hc, k, hk⟩ := ht
  exact ⟨lt_of_lt_of_le ho (openExcess_later h), lt_of_le_of_lt (closeCount_later h) hc, k, mayShut_later h hk⟩

/-- R75: a shut that is decided takes a place of the close tracker. -/
theorem closeCount_decideShut {s : State} {k : Slot} (h : s.mayShut k) (c : ShutCause) :
    s.closeCount < (s.decideShut k c).closeCount := by
  obtain ⟨x, hx, hholds, hopen, -, hdue⟩ := (grantable_iff s k).1 ((mayShut_iff s k).1 h)
  have hp := polices_decideShut s k c none
  obtain ⟨y, hy, hkept⟩ := decideShut_ext hx hdue (isOpen_notApplied hopen) c none
  have hbefore : s.countsClose k = false := by
    have hnot : s.dir.rep.dir[k].isClosing = false := by
      cases hk : s.dir.rep.dir[k] <;> simp_all [DirEntry.isOpen, DirEntry.isClosing]
    simp only [State.countsClose, hx, hdue, hnot, Option.isSome_none, Bool.or_self, Bool.and_false]
  have hafter : (s.decideShut k c).countsClose k = true := by
    have hyd : y.shutDue.isSome := by
      rw [(hkept.due rfl).1]
      rfl
    simp only [State.countsClose, polices_holdsSlot hp, hholds, hy, hyd, Bool.or_true, Bool.and_self]
  have hnodup : (k :: allSlots.filter s.countsClose).Nodup := by
    refine List.nodup_cons.2 ⟨fun hmem => ?_, (List.nodup_finRange 48).filter _⟩
    rw [(List.mem_filter.1 hmem).2] at hbefore
    cases hbefore
  have hsub : k :: allSlots.filter s.countsClose ⊆ allSlots.filter (s.decideShut k c).countsClose := by
    intro j hj
    rcases List.mem_cons.1 hj with rfl | hj
    · exact List.mem_filter.2 ⟨List.mem_finRange j, hafter⟩
    · obtain ⟨hin, hc⟩ := List.mem_filter.1 hj
      exact List.mem_filter.2 ⟨hin, countsClose_later hp hc⟩
  have hlen := (hnodup.subperm hsub).length_le
  rw [closeCount_eq, closeCount_eq, hp.rep, hp.mem]
  rw [List.length_cons] at hlen
  omega

/-! ### The evaluation of the open excess (R75) -/

theorem pressureShut_idle {s : State} (h : ¬ s.callsForShut) : s.pressureShut = (s, false) := by
  unfold State.pressureShut
  split
  next hcond =>
    have hnone : s.shutCandidate = none := by
      rw [shutCandidate_none_iff]
      exact fun k hk => h ⟨hcond.1, hcond.2, k, hk⟩
    rw [hnone]
  · rfl

theorem pressureShut_first {s : State} {k : Slot} (ho : 0 < s.openExcess) (hc : s.closeCount < 4)
    (hk : s.shutFirst k) : s.pressureShut = (s.decideShut k .pressure, true) := by
  unfold State.pressureShut
  rw [if_pos ⟨ho, hc⟩, shutCandidate_of_first hk]

/-- Some steps of the evaluation, and whether one has decided a shut. -/
def State.pressureSteps (s : State) (n : Nat) : State × Bool :=
  (List.range n).foldl (fun acc _ => (acc.1.pressureShut.1, acc.2 || acc.1.pressureShut.2)) (s, false)

theorem pressureSteps_succ (s : State) (n : Nat) :
    s.pressureSteps (n + 1) = ((s.pressureSteps n).1.pressureShut.1,
      (s.pressureSteps n).2 || (s.pressureSteps n).1.pressureShut.2) := by
  unfold State.pressureSteps
  rw [List.range_succ, List.foldl_concat]

theorem polices_pressureSteps (s : State) (n : Nat) : Polices s (s.pressureSteps n).1 := by
  induction n with
  | zero => exact Polices.refl s
  | succ n ih =>
    rw [pressureSteps_succ]
    exact ih.trans (polices_pressureShut _)

/-- R75: each step decides a shut until no more is called for. -/
theorem pressureSteps_done (s : State) (n : Nat) :
    ¬ (s.pressureSteps n).1.callsForShut ∨ n ≤ (s.pressureSteps n).1.closeCount := by
  induction n with
  | zero => exact .inr (Nat.zero_le _)
  | succ n ih =>
    rw [pressureSteps_succ]
    by_cases hc : (s.pressureSteps n).1.callsForShut
    · have hcount := ih.resolve_left fun h => h hc
      obtain ⟨ho, hlt, k, hk⟩ := hc
      cases hcand : (s.pressureSteps n).1.shutCandidate with
      | none => exact absurd hk ((shutCandidate_none_iff _).1 hcand k)
      | some j =>
        have hfirst := shutCandidate_first hcand
        rw [pressureShut_first ho hlt hfirst]
        have := closeCount_decideShut hfirst.1 .pressure
        exact .inr (Nat.succ_le_of_lt (lt_of_le_of_lt hcount this))
    · rw [pressureShut_idle hc]
      exact .inl hc

theorem pressureEval_active {s : State} (hp : s.line.pressure = true) (hm : s.mem.state = .member) :
    s.pressureEval = s.pressureSteps 4 := if_pos ⟨hp, hm⟩

theorem pressureEval_idle {s : State} (h : s.mem.state ≠ .member ∨ ¬ s.callsForShut) :
    s.pressureEval = (s, false) := by
  unfold State.pressureEval
  split
  next hcond =>
    have hcalls := h.resolve_left fun hn => hn hcond.2
    have hsteps (n : Nat) : s.pressureSteps n = (s, false) := by
      induction n with
      | zero => rfl
      | succ n ih => rw [pressureSteps_succ, ih, pressureShut_idle hcalls]; rfl
    exact hsteps 4
  · rfl

theorem evalPressure_idle {s : State} (h : s.mem.state ≠ .member ∨ ¬ s.callsForShut) : s.evalPressure = s := by
  unfold State.evalPressure
  rw [pressureEval_idle h]
  rfl

/-- R75: after the evaluation no more shuts are called for. -/
theorem evalPressure_done {s : State} (hp : s.line.pressure = true) (hm : s.mem.state = .member) :
    ¬ s.evalPressure.callsForShut := by
  have hdone : ¬ s.pressureEval.1.callsForShut := by
    rw [pressureEval_active hp hm]
    rcases pressureSteps_done s 4 with h | h
    · exact h
    · exact fun hc => absurd hc.2.1 (by omega)
  unfold State.evalPressure
  dsimp only
  split
  · exact fun hc => hdone (callsForShut_later (polices_policyPass _ _) hc)
  · exact hdone

/-- R75: the slot that is shut first is shut first. -/
theorem evalPressure_first {s : State} {k : Slot} (hp : s.line.pressure = true) (hm : s.mem.state = .member)
    (ho : 0 < s.openExcess) (hc : s.closeCount < 4) (hk : s.shutFirst k) :
    Queues [.full, .pressure] (s.decideShut k .pressure) s.evalPressure := by
  have hsteps (n : Nat) : Queues [.full, .pressure] (s.decideShut k .pressure) (s.pressureSteps (n + 1)).1 := by
    induction n with
    | zero =>
      rw [pressureSteps_succ]
      change Queues _ _ s.pressureShut.1
      rw [pressureShut_first ho hc hk]
      exact Queues.refl _ _
    | succ n ih =>
      rw [pressureSteps_succ]
      exact ih.trans (queues_pressureShut _ (by simp))
  have heval := hsteps 3
  rw [← pressureEval_active hp hm] at heval
  unfold State.evalPressure
  dsimp only
  split
  · exact heval.trans (queues_policyPass _ [] (by simp))
  · exact heval

/-- R57, R75: a policy pass with the evaluation behind it, under pressure. -/
theorem pressed_evalPressure {s : State} (hp : s.line.pressure = true) :
    s.pressed s.policyPass.evalPressure := by
  have hpol := polices_policyPass s
  refine ⟨fun h => ?_, fun hm => ⟨?_, fun hno ho hc k hk => ?_⟩⟩
  · have hidle : s.policyPass.mem.state ≠ .member ∨ ¬ s.policyPass.callsForShut := by
      rw [← not_callsForShut_iff] at h
      rw [hpol.mem]
      exact h.imp_right fun hn hc => hn (callsForShut_later hpol hc)
    rw [evalPressure_idle hidle]
    exact passed_policyPass s
  · rw [← not_callsForShut_iff]
    exact evalPressure_done (by rw [hpol.line]; exact hp) (by rw [hpol.mem]; exact hm)
  · rw [policyPass_none hno]
    have hq := evalPressure_first hp hm ho hc hk
    obtain ⟨x, hx, -, hopen, -, hdue⟩ := (grantable_iff s k).1 ((mayShut_iff s k).1 hk.1)
    obtain ⟨⟨y, hy, hyd, -⟩, hfirst⟩ := decideShut_stands hx hdue (isOpen_notApplied hopen) hq
    exact ⟨⟨y, hy, hyd⟩, hfirst hm⟩

end Sys2Proof.Machine
end

