-- ==== Sys2Proof/Proofs/LineEdges.lean ====
section
/-! SUPPORT. The edges of the PFW and PRESSURE lines (R57, R75, R119, R170 to R173). -/

namespace Sys2Proof.Machine

/-! ### An edge of a line -/

theorem lineEdge_reset {s : State} (h : s.rst.isSome) (pin act : State → State) (edge : Bool) :
    lineEdge pin act edge s = .next (pin s) := if_pos h

theorem lineEdge_edge {s : State} (h : s.rst = none) (pin act : State → State) :
    lineEdge pin act true s = .next (act s).settled := by
  refine (if_neg (by rw [h]; decide)).trans ?_
  rw [live_settled _ h]
  rfl

/-- The station with another state of the line monitor. -/
def State.withLine (s : State) (l : Lines) : State := { s with line := l }

theorem withLine_changes (s : State) (l : Lines) : s.changesOnly (s.withLine l) [.line] := by
  refine ⟨fun b hb => ?_, rfl, rfl⟩
  cases b <;> first | rfl | exact absurd (by decide) hb

/-! ### The power-fail warning (R119, R170) -/

/-- R170: the line monitor WARNED. -/
def State.warnedLine (s : State) : Lines := { s.line with pfwLine := true, warned := true }

/-- R119: the station warned, its CLAIMs and its recall dropped, before a policy pass. -/
def State.warned (s : State) : State := (s.withLine s.warnedLine).dropClaims.dropRecall

theorem queues_warn (s : State) : Queues [.full] s.warned s.warn := by
  unfold State.warn
  dsimp only
  split
  · exact queues_policyPass _ [] (by simp)
  · exact Queues.refl _ _

theorem dropRecall_drops {s : State} {e : RecallEntry} (he : s.dir.request = some (.recall e))
    (hn : ∀ k, e.phase ≠ .releasing k) :
    s.dropRecall = (s.withdraw Body.isRecall).onDir fun d => { d with request := none } := by
  have hrel : e.isReleasing = false := by
    unfold RecallEntry.isReleasing
    split
    next k hk => exact absurd hk (hn k)
    all_goals rfl
  simp only [State.dropRecall, he, hrel, Bool.false_eq_true, if_false]

theorem dropRecall_kept {s : State} (h : ∀ e, s.dir.request = some (.recall e) → ∃ k, e.phase = .releasing k) :
    s.dropRecall = s := by
  unfold State.dropRecall
  split
  next e he =>
    obtain ⟨k, hk⟩ := h e he
    exact if_pos (by simp only [RecallEntry.isReleasing, hk])
  · rfl

theorem dropRecall_cases (s : State) : s.dropRecall = s ∨
    s.dropRecall = (s.withdraw Body.isRecall).onDir fun d => { d with request := none } := by
  unfold State.dropRecall
  split
  · split
    · exact .inl rfl
    · exact .inr rfl
  · exact .inl rfl

theorem dropRecall_changes (s : State) : s.changesOnly s.dropRecall [.dir, .bus] := by
  rcases dropRecall_cases s with h | h <;> rw [h]
  · exact .refl s _
  · exact (withdraw_changes s _).andThen (onDir_changes _ _) (by simp) (by simp)

theorem dropClaims_changes (s : State) : s.changesOnly s.dropClaims [.plc, .bus] :=
  (withdraw_changes s _).andThen (onPlc_changes _ _) (by simp) (by simp)

theorem dropClaims_claims (s : State) :
    s.dropClaims.plc.claims = s.plc.claims.filter (·.phase != .queued) := rfl

theorem dropClaims_waiting {s : State} {q : QFrame} (h : q ∈ s.dropClaims.bus.waiting) :
    q.body.kind ≠ .claim := by
  have hno := (withdraw_waiting (s := s) (p := Body.isClaim) h).2
  cases hb : q.body <;> simp_all [Body.isClaim, Body.kind]

/-- R119: no recall but one RELEASING is left. -/
theorem dropRecall_releasing {s : State} {e : RecallEntry} (h : s.dropRecall.dir.request = some (.recall e)) :
    ∃ k, e.phase = .releasing k := by
  by_cases hn : ∀ e', s.dir.request = some (.recall e') → ∃ k, e'.phase = .releasing k
  · rw [dropRecall_kept hn] at h
    exact hn e h
  · push Not at hn
    obtain ⟨e', he', hk⟩ := hn
    rw [dropRecall_drops he' hk] at h
    cases h

theorem dropRecall_waiting {s : State} {q : QFrame} (h : q ∈ s.dropRecall.bus.waiting) : q ∈ s.bus.waiting := by
  rcases dropRecall_cases s with hd | hd <;> rw [hd] at h
  · exact h
  · exact (withdraw_waiting (s := s) h).1

/-- R119: the frame of a recall that ends is withdrawn. -/
theorem dropRecall_unasked {s : State} {e : RecallEntry} (he : s.dir.request = some (.recall e))
    (hn : ∀ k, e.phase ≠ .releasing k) {q : QFrame} (h : q ∈ s.dropRecall.bus.waiting) :
    q.body.kind ≠ .recall := by
  rw [dropRecall_drops he hn] at h
  have hno := (withdraw_waiting (s := s) (p := Body.isRecall) h).2
  cases hb : q.body <;> simp_all [Body.isRecall, Body.kind]

theorem dropRecall_rep (s : State) : s.dropRecall.dir.rep = s.dir.rep := by
  rcases dropRecall_cases s with h | h
  · rw [h]
  · rw [h]
    rfl

theorem warned_changes (s : State) : s.changesOnly s.warned [.line, .plc, .dir, .bus] :=
  ((withLine_changes s _).andThen (dropClaims_changes _) (n := [.line, .plc, .bus]) (by simp) (by simp)).andThen
    (dropRecall_changes _) (by simp) (by simp)

section
variable (s : State)

/-- R119: the station warned, before its recall is dropped. -/
def State.unclaimed : State := (s.withLine s.warnedLine).dropClaims

theorem warned_line : s.warned.line = s.warnedLine :=
  ((dropRecall_changes s.unclaimed).1 .line (by simp)).trans
    ((dropClaims_changes (s.withLine s.warnedLine)).1 .line (by simp))

theorem warned_claims : s.warned.plc.claims = s.plc.claims.filter (·.phase != .queued) :=
  (congrArg Placement.claims ((dropRecall_changes s.unclaimed).1 .plc (by simp))).trans
    (dropClaims_claims (s.withLine s.warnedLine))

theorem unclaimed_dir : s.unclaimed.dir = s.dir := (dropClaims_changes (s.withLine s.warnedLine)).1 .dir (by simp)

theorem warned_rep : s.warned.dir.rep = s.dir.rep :=
  (dropRecall_rep s.unclaimed).trans (congrArg Directory.rep (unclaimed_dir s))

theorem warned_unasking : s.warned.recallPermission = false := by
  have hw : s.warned.line.warned = true := by
    rw [warned_line]
    rfl
  simp [State.recallPermission, hw]

/-- R119: a recall RELEASING goes on. -/
theorem warned_request (h : ∀ e, s.dir.request = some (.recall e) → ∃ k, e.phase = .releasing k) :
    s.warned.dir.request = s.dir.request := by
  rw [← unclaimed_dir s] at h
  exact (congrArg (fun u : State => u.dir.request) (dropRecall_kept h)).trans
    (congrArg Directory.request (unclaimed_dir s))

end

/-! ### Pressure (R75, R171 to R173) -/

/-- The line monitor after an assertion of PRESSURE. -/
def State.risenLine (s : State) : Lines :=
  { s.line with
    pressureLine := true,
    pressure := s.line.pressure || s.mem.cfg.isSome,
    episodes := if s.line.pressure = false ∧ s.mem.cfg.isSome then min (s.line.episodes + 1) 65535
      else s.line.episodes,
    episode := if s.mem.cfg.map (·.pressureMode) = some .edge then some (16 * s.pTicks) else s.line.episode }

/-- R171, R172: an assertion is an onset where there was no pressure and the station is configured. -/
theorem pressureRises_onset {s : State} (hp : s.line.pressure = false) (hc : s.mem.cfg.isSome) :
    (s.setPressureLine true).pressureRises =
      ((s.withLine s.risenLine).post (.pressure true s.risenLine.episodes)).policyPass.evalPressure := by
  obtain ⟨cfg, hcfg⟩ := Option.isSome_iff_exists.1 hc
  have hp' : ¬ (s.setPressureLine true).line.pressure = true := by
    change ¬ s.line.pressure = true
    rw [hp]
    decide
  have hmode : (s.setPressureLine true).pressureMode? = some cfg.pressureMode :=
    congrArg (Option.map fun c : StationCfg => c.pressureMode) hcfg
  have hline (e : Option Nat) : s.risenLine.episode = e → s.risenLine =
      { s.line with pressureLine := true, pressure := true, episodes := satAdd 65535 s.line.episodes 1,
                    episode := e } := by
    rintro rfl
    simp only [State.risenLine, hp, hcfg, Option.isSome_some, Bool.false_or, and_self, if_true, satAdd]
  unfold State.pressureRises
  rw [hmode]
  cases hpm : cfg.pressureMode with
  | level =>
    rw [hline s.line.episode (if_neg (by rw [hcfg, Option.map_some, hpm]; decide))]
    exact if_neg hp'
  | edge =>
    rw [hline (some (16 * s.pTicks)) (if_pos (by rw [hcfg, Option.map_some, hpm]))]
    exact if_neg hp'

theorem pressureRises_idle {s : State} (h : s.line.pressure = true ∨ s.mem.cfg = none) :
    (s.setPressureLine true).pressureRises = s.withLine s.risenLine := by
  unfold State.pressureRises
  cases hcfg : s.mem.cfg with
  | none =>
    have hmode : (s.setPressureLine true).pressureMode? = none :=
      congrArg (Option.map fun c : StationCfg => c.pressureMode) hcfg
    have hline : s.risenLine = { s.line with pressureLine := true } := by
      simp [State.risenLine, hcfg]
    rw [hmode, hline]
    rfl
  | some cfg =>
    have hp : s.line.pressure = true := h.resolve_right (by rw [hcfg]; simp)
    have hmode : (s.setPressureLine true).pressureMode? = some cfg.pressureMode :=
      congrArg (Option.map fun c : StationCfg => c.pressureMode) hcfg
    have hline (e : Option Nat) : s.risenLine.episode = e →
        s.risenLine = { s.line with pressureLine := true, episode := e } := by
      rintro rfl
      simp [State.risenLine, hp]
    rw [hmode]
    cases hpm : cfg.pressureMode with
    | level =>
      rw [hline s.line.episode (if_neg (by rw [hcfg, Option.map_some, hpm]; decide))]
      exact if_pos hp
    | edge =>
      rw [hline (some (16 * s.pTicks)) (if_pos (by rw [hcfg, Option.map_some, hpm]))]
      exact if_pos hp

/-- The line monitor after a deassertion of PRESSURE. -/
def State.fallenLine (s : State) : Lines :=
  { s.line with
    pressureLine := false,
    pressure := s.line.pressure && s.mem.cfg.map (·.pressureMode) != some .level }

/-- R171: in LEVEL mode the deassertion ends the pressure. -/
theorem pressureFalls_ends {s : State} (hp : s.line.pressure = true)
    (hm : s.mem.cfg.map (·.pressureMode) = some .level) :
    (s.setPressureLine false).pressureFalls =
      ((s.withLine s.fallenLine).post (.pressure false s.line.episodes)).policyPass := by
  have hmode : (s.setPressureLine false).pressureMode? = some .level := hm
  have hline : s.fallenLine = { s.line with pressureLine := false, pressure := false } := by
    simp [State.fallenLine, hm]
  unfold State.pressureFalls
  rw [hmode, hline]
  exact if_pos hp

theorem pressureFalls_idle {s : State} (h : s.line.pressure = false ∨
    s.mem.cfg.map (·.pressureMode) ≠ some .level) :
    (s.setPressureLine false).pressureFalls = s.withLine s.fallenLine := by
  have hline : s.fallenLine = { s.line with pressureLine := false } := by
    have hp : (s.line.pressure && s.mem.cfg.map (·.pressureMode) != some .level) = s.line.pressure := by
      rcases h with h | h
      · rw [h]
        rfl
      · rw [bne_iff_ne.2 h, Bool.and_true]
    simp [State.fallenLine, hp]
  unfold State.pressureFalls
  rw [hline]
  split
  · rfl
  next hm =>
    have hp : s.line.pressure = false := h.resolve_right fun hn => hn hm
    have hno : ¬ (s.setPressureLine false).line.pressure = true := Bool.eq_false_iff.1 hp
    exact if_neg hno
  · rfl

/-- The line monitor after the episode. -/
def State.endedLine (s : State) : Lines := { s.line with episode := none, pressure := false }

theorem exec_episodeTimerExpiry {s : State} (hs : s.rst = none) (he : s.line.episode.isSome) :
    exec .episodeTimerExpiry s = .next (if s.line.pressure = true then
      ((s.withLine s.endedLine).post (.pressure false s.line.episodes)).policyPass
      else s.withLine s.endedLine).settled := by
  obtain ⟨n, hn⟩ := Option.isSome_iff_exists.1 he
  change execEpisodeTimerExpiry s = _
  unfold execEpisodeTimerExpiry
  rw [live_settled _ hs]
  simp only [hn]
  cases hp : s.line.pressure with
  | true =>
    have hp' : (s.onLine fun l => { l with episode := none }).line.pressure = true := hp
    rw [if_pos hp', if_pos rfl]
    rfl
  | false =>
    have hp' : ¬ (s.onLine fun l => { l with episode := none }).line.pressure = true := Bool.eq_false_iff.1 hp
    have hline : s.endedLine = { s.line with episode := none } := by simp [State.endedLine, hp]
    rw [if_neg hp', if_neg (by decide), hline]
    rfl

/-! ### The edges -/

/-- R57: a pass behind a notice reads what it would have read without it. -/
theorem passed_post (u : State) (b : NoticeBody) : u.passed (u.post b).policyPass :=
  passed_policyPass (u.post b)

theorem pressed_post {u : State} (h : u.line.pressure = true) (b : NoticeBody) :
    u.pressed (u.post b).policyPass.evalPressure :=
  pressed_evalPressure (s := u.post b) h

theorem frame_line {s t : State} {l : Lines} (h : (s.withLine l).changesOnly t policyBlocks) :
    s.frame t.settled (.line :: policyBlocks) :=
  frame_of_changes ((withLine_changes s l).andThen h (by simp) fun _ hb => List.mem_cons_of_mem _ hb)
    (by simp [policyBlocks])

theorem post_policyBlocks (s : State) (b : NoticeBody) : s.changesOnly (s.post b) policyBlocks :=
  (onFlt_changes s _).mono (by simp [policyBlocks])

/-- R119, R170: the warning. -/
theorem pfwAsserted_spec {s : State} (hs : s.rst = none) (hl : s.line.pfwLine = false) :
    ∃ t, exec .pfwAsserted s = .next t ∧ t.line = { s.line with pfwLine := true, warned := true } ∧
      (∀ e ∈ t.plc.claims, e.phase ≠ .queued) ∧
      (∀ e, t.dir.request = some (.recall e) → ∃ k, e.phase = .releasing k) ∧
      (∀ q ∈ t.bus.waiting, q.body.kind ≠ .claim) ∧
      (∀ e, s.dir.request = some (.recall e) → (∀ k, e.phase ≠ .releasing k) →
        ∀ q ∈ t.bus.waiting, q.body.kind ≠ .recall) ∧
      (∀ e k, s.dir.request = some (.recall e) → e.phase = .releasing k → t.dir.request = s.dir.request) ∧
      (∀ e ∈ s.plc.claims, e.phase = .opening →
        ∃ y ∈ t.plc.claims, y.slot = e.slot ∧ y.kind = e.kind ∧ y.phase = .opening) ∧
      t.dir.rep = s.dir.rep ∧ s.frame t (.line :: policyBlocks) := by
  have hexec : execPfwAsserted s = .next s.warn.settled := by
    unfold execPfwAsserted
    rw [hl]
    exact lineEdge_edge hs _ _
  have hq := queues_warn s
  have hperm := warned_unasking s
  have hkept : s.warn.dir.request = s.warned.dir.request := hq.request (.inr (.inr hperm))
  -- a frame that waits waited when the policy began, or is a SHUT
  have hwait (q : QFrame) (h : q ∈ s.warn.bus.waiting) :
      q ∈ s.warned.bus.waiting ∨ q.body.kind ≠ .claim ∧ q.body.kind ≠ .recall := by
    rcases hq.waiting h with h | ⟨-, h⟩
    · exact .inl h
    · refine .inr ?_
      unfold State.workOf at h
      cases hb : q.body <;> rw [hb] at h <;> simp_all [Body.kind]
  refine ⟨_, hexec, hq.line.trans (warned_line s), fun e he => ?_, fun e he => ?_, fun q hw => ?_,
    fun e he hn q hw => ?_, fun e k he hk => ?_, fun e he ho => ?_, hq.rep.trans (warned_rep s), ?_⟩
  · obtain ⟨f, hf, -, -, hphase⟩ := hq.claims hperm e he
    rw [warned_claims] at hf
    rw [hphase]
    simpa using (List.mem_filter.1 hf).2
  · exact dropRecall_releasing (s := s.unclaimed) (hkept.symm.trans he)
  · exact (hwait q hw).elim (fun h => dropClaims_waiting (s := s.withLine s.warnedLine) (dropRecall_waiting h))
      fun h => h.1
  · rw [← unclaimed_dir s] at he
    exact (hwait q hw).elim (fun h => dropRecall_unasked he hn h) fun h => h.2
  · exact hkept.trans (warned_request s fun e' he' => by cases he.symm.trans he'; exact ⟨k, hk⟩)
  · obtain ⟨f, hf, hslot, hkind, hphase⟩ := hq.kept e (by
      rw [warned_claims]
      exact List.mem_filter.2 ⟨he, by rw [ho]; rfl⟩)
    exact ⟨f, hf, hslot, hkind, hphase.trans ho⟩
  · exact frame_of_changes ((warned_changes s).andThen hq.toPolices.changesOnly (by simp [policyBlocks])
      fun _ hb => List.mem_cons_of_mem _ hb) (by simp [policyBlocks])

/-- Settles O59: the edges of the PFW and PRESSURE lines. -/
theorem linesFollowed : Obligations.LinesFollowed := by
  unfold Obligations.LinesFollowed
  intro s
  refine ⟨fun hs => ⟨pfwAsserted_spec hs, fun hl => ?_, fun hl l hl' => ?_, fun hl l hl' => ?_,
    fun he l hl' => ?_⟩, fun hr => ?_⟩
  · have hexec : execPfwDeasserted s = .next
        (s.withLine { s.line with pfwLine := false, warned := false }).policyPass.settled := by
      unfold execPfwDeasserted
      rw [hl]
      exact lineEdge_edge hs _ _
    have hp := polices_policyPass (s.withLine { s.line with pfwLine := false, warned := false })
    exact ⟨_, hexec, hp.line, hp.rep, (passed_policyPass _).settled, frame_line hp.changesOnly⟩
  · obtain rfl : l = s.risenLine := hl'
    have hexec : execPressureAsserted s = .next (s.setPressureLine true).pressureRises.settled := by
      unfold execPressureAsserted
      rw [hl]
      exact lineEdge_edge hs _ _
    refine ⟨_, hexec, ?_⟩
    by_cases hon : s.line.pressure = false ∧ s.mem.cfg.isSome
    · obtain ⟨hp, hc⟩ := hon
      have hactive : (s.withLine s.risenLine).line.pressure = true := by
        change (s.line.pressure || s.mem.cfg.isSome) = true
        rw [hc, Bool.or_true]
      let u := (s.withLine s.risenLine).post (.pressure true s.risenLine.episodes)
      have hpol := (polices_policyPass u).trans (polices_evalPressure _)
      rw [pressureRises_onset hp hc]
      refine ⟨hpol.line, fun _ _ => ⟨⟨hpol.notices, hpol.lost⟩, pressed_post hactive _⟩, fun h => ?_,
        frame_line ((post_policyBlocks _ _).andThen hpol.changesOnly (fun _ hb => hb) fun _ hb => hb)⟩
      rcases h with h | h
      · rw [hp] at h
        cases h
      · rw [h] at hc
        cases hc
    · have hidle : s.line.pressure = true ∨ s.mem.cfg = none := by
        rw [not_and_or, Bool.not_eq_false, Option.not_isSome_iff_eq_none] at hon
        exact hon
      rw [pressureRises_idle hidle]
      exact ⟨rfl, fun hp hc => absurd ⟨hp, hc⟩ hon, fun _ => frame_of_changes (withLine_changes s _) (by simp),
        frame_line (.refl _ _)⟩
  · obtain rfl : l = s.fallenLine := hl'
    have hexec : execPressureDeasserted s = .next (s.setPressureLine false).pressureFalls.settled := by
      unfold execPressureDeasserted
      rw [hl]
      exact lineEdge_edge hs _ _
    refine ⟨_, hexec, ?_⟩
    by_cases hon : s.line.pressure = true ∧ s.mem.cfg.map (·.pressureMode) = some .level
    · obtain ⟨hp, hm⟩ := hon
      let u := (s.withLine s.fallenLine).post (.pressure false s.line.episodes)
      have hpol := polices_policyPass u
      rw [pressureFalls_ends hp hm]
      refine ⟨hpol.line, fun _ _ => ⟨⟨hpol.notices, hpol.lost⟩, passed_post _ _⟩, fun h => ?_,
        frame_line ((post_policyBlocks _ _).andThen hpol.changesOnly (fun _ hb => hb) fun _ hb => hb)⟩
      rcases h with h | h
      · rw [hp] at h
        cases h
      · exact absurd hm h
    · have hidle : s.line.pressure = false ∨ s.mem.cfg.map (·.pressureMode) ≠ some .level := by
        rw [not_and_or, Bool.not_eq_true] at hon
        exact hon
      rw [pressureFalls_idle hidle]
      exact ⟨rfl, fun hp hm => absurd ⟨hp, hm⟩ hon, fun _ => frame_of_changes (withLine_changes s _) (by simp),
        frame_line (.refl _ _)⟩
  · obtain rfl : l = s.endedLine := hl'
    refine ⟨_, exec_episodeTimerExpiry hs he, ?_⟩
    cases hp : s.line.pressure with
    | true =>
      let u := (s.withLine s.endedLine).post (.pressure false s.line.episodes)
      have hpol := polices_policyPass u
      rw [if_pos rfl]
      exact ⟨hpol.line, fun _ => ⟨⟨hpol.notices, hpol.lost⟩, passed_post _ _⟩, fun h => (nomatch h),
        frame_line ((post_policyBlocks _ _).andThen hpol.changesOnly (fun _ hb => hb) fun _ hb => hb)⟩
    | false =>
      rw [if_neg (by decide)]
      exact ⟨rfl, fun h => (nomatch h), fun _ => frame_of_changes (withLine_changes s _) (by simp),
        frame_line (.refl _ _)⟩
  · have hpin (pin act : State → State) (edge : Bool) := lineEdge_reset hr pin act edge
    exact ⟨hpin (·.setPfw true) .., hpin (·.setPfw false) .., hpin (·.setPressureLine true) ..,
      hpin (·.setPressureLine false) ..⟩

end Sys2Proof.Machine
end

