-- ==== Sys2Proof/Proofs/DutyEvaluation.lean ====
section
/-! SUPPORT. The duty evaluation (R145, R147, R150, R151): the frames it queues with the records behind them,
and what becomes of a record. -/

namespace Sys2Proof.Machine

/-! ### Frames behind a withdrawal that spares the medium (R91, R151) -/

/-- R151: what waits after the withdrawal waited before; a frame it picks waits only as the head on the
medium. -/
theorem Bus.mem_waiting_withdrawUnsent {b : Bus} {p : QFrame → Bool} {q : QFrame}
    (h : q ∈ (b.withdrawUnsent p).waiting) :
    q ∈ b.waiting ∧ (p q = true → q ∈ (b.withdrawUnsent p).tx) := by
  unfold Bus.withdrawUnsent at h ⊢
  split at h
  next sg x rest hs ht =>
    unfold Bus.waiting at *
    simp only [hs, ht] at h ⊢
    cases hw : sg.withdrawn <;> simp only [hw, if_true, if_false, Bool.false_eq_true] at h ⊢ <;> grind
  · obtain ⟨hq, hp⟩ := Bus.mem_waiting_withdraw.1 h
    exact ⟨hq, fun hp' => by rw [hp] at hp'; cases hp'⟩

theorem Bus.carries_withdrawUnsent {b : Bus} {p : QFrame → Bool} {x : Body} (h : b.carries x)
    (hp : p { dest := none, body := x } = false) : (b.withdrawUnsent p).carries x := by
  unfold Bus.withdrawUnsent Bus.withdraw Bus.carries at *
  split
  · grind
  · split <;> grind

theorem Bus.carries_queue {b : Bus} {x : Body} (h : b.carries x) (q : QFrame) : (b.queue q).carries x := by
  unfold Bus.carries at *
  rw [Bus.queue_all]
  exact List.mem_append_left _ h

theorem Bus.withdrawUnsent_idle {b : Bus} (h : b.sending = none) (p : QFrame → Bool) :
    (b.withdrawUnsent p).sending = none := by
  simp [Bus.withdrawUnsent, Bus.withdraw, h]

/-! ### The frames of a duty evaluation -/

/-- The record of takeover duty behind a frame. -/
def State.dutyBacked (s : State) : Body → Prop
  | .shut k c _ => c = .adopted ∧ ∃ a ∈ s.mem.adoption, a.slot = k
  | .takeover h => ∃ d, s.mem.duty[h] = some d ∧ d.phase = .queued
  | .takeoverEnd h o => ∃ d, s.mem.duty[h] = some d ∧ d.phase = .ending o
  | _ => False

/-- The body is a SHUT of an orphan. -/
def Body.isAdopting : Body → Bool
  | .shut _ c _ => c == .adopted
  | _ => false

/-- Takeover duty done from `s` to `t`: a frame that waits waited before or has a record behind it, and no
frame loses its record; the reports are those of failed runs. -/
structure Evaluates (s t : State) : Prop where
  changes : s.changesOnly t dutyBlocks
  dutiful : Dutiful s t
  waits : ∀ q ∈ t.bus.waiting, q ∈ s.bus.waiting ∨ q.dest = none ∧ t.dutyBacked q.body
  keeps : ∀ q ∈ t.bus.waiting, s.dutyBacked q.body → t.dutyBacked q.body
  carries : ∀ b : Body, b.isAdopting = false → s.bus.carries b → t.bus.carries b
  idle : s.bus.sending = none → t.bus.sending = none
  others : ∀ c : Cause, c ≠ .takeoverFailed → t.flt.counts[c.index] = s.flt.counts[c.index]
  raised : min s.flt.counts[Cause.takeoverFailed.index] 65535 ≤ t.flt.counts[Cause.takeoverFailed.index]

namespace Evaluates

theorem refl (s : State) : Evaluates s s :=
  ⟨State.changesOnly.refl s _, Dutiful.refl s, fun _ h => .inl h, fun _ _ h => h, fun _ _ h => h, id,
    fun _ _ => rfl, Nat.min_le_left _ _⟩

theorem trans {s t u : State} (h : Evaluates s t) (g : Evaluates t u) : Evaluates s u where
  changes := h.changes.andThen g.changes (fun _ => id) (fun _ => id)
  dutiful := h.dutiful.trans g.dutiful
  waits := fun q hq => (g.waits q hq).elim
    (fun ht => (h.waits q ht).imp_right fun hb => ⟨hb.1, g.keeps q hq hb.2⟩) .inr
  keeps := fun q hq hb => (g.waits q hq).elim (fun ht => g.keeps q hq (h.keeps q ht hb)) fun hu => hu.2
  carries := fun b hb hc => g.carries b hb (h.carries b hb hc)
  idle := fun hs => g.idle (h.idle hs)
  others := fun c hc => (g.others c hc).trans (h.others c hc)
  raised := le_trans (le_min h.raised (Nat.min_le_right _ _)) g.raised

theorem foldl {α : Type} (f : State → α → State) (h : ∀ s x, Evaluates s (f s x)) (l : List α) (s : State) :
    Evaluates s (l.foldl f s) := by
  induction l generalizing s with
  | nil => exact refl s
  | cons x l ih => exact (h s x).trans (ih _)

/-- A record is made or changed and a frame queued for it. -/
theorem of_queue {s u : State} {b : Body} (hc : s.changesOnly u [.mem]) (hd : Dutiful s u)
    (hkeeps : ∀ x, s.dutyBacked x → u.dutyBacked x) (hb : u.dutyBacked b) :
    Evaluates s (u.queueFrame b) where
  changes := hc.andThen (queueFrame_changes u b) (by simp [dutyBlocks]) (by simp [dutyBlocks])
  dutiful := ⟨hd.mem⟩
  waits := fun q hq => by
    have hbus : u.bus = s.bus := hc.1 .bus (by simp)
    rcases Bus.mem_waiting_queue hq with hq | rfl
    · exact .inl (hbus ▸ hq)
    · exact .inr ⟨rfl, hb⟩
  keeps := fun _ _ hx => hkeeps _ hx
  carries := fun x _ hx => by
    have hbus : u.bus = s.bus := hc.1 .bus (by simp)
    exact Bus.carries_queue (by rw [hbus]; exact hx) _
  idle := fun hs => by
    have hbus : u.bus = s.bus := hc.1 .bus (by simp)
    exact (congrArg Bus.sending (Bus.queue_rest u.bus _)).trans (by rw [hbus]; exact hs)
  others := fun c _ => by
    have hflt : u.flt = s.flt := hc.1 .flt (by simp)
    exact congrArg (fun f : Faults => f.counts[c.index]) hflt
  raised := by
    have hflt : u.flt = s.flt := hc.1 .flt (by simp)
    exact (Nat.min_le_left _ _).trans_eq (congrArg (fun f : Faults => f.counts[Cause.takeoverFailed.index]) hflt).symm

end Evaluates

/-- A new or changed record of one former holder leaves the others behind their frames. -/
theorem dutyBacked_setDuty {s : State} {h : Station} {d : Duty}
    (hold : ∀ d', s.mem.duty[h] = some d' → d'.phase = .running) {x : Body} (hx : s.dutyBacked x) :
    (s.setDuty h (some d)).dutyBacked x := by
  have hget (j : Station) : (s.setDuty h (some d)).mem.duty[j] = if j = h then some d else s.mem.duty[j] :=
    put_get _ _ _ _
  cases x with
  | shut k c a => exact hx
  | takeover j =>
    obtain ⟨e, he, hp⟩ := hx
    have hne : j ≠ h := by
      rintro rfl
      have := hold e he
      rw [hp] at this
      cases this
    exact ⟨e, (hget j).trans ((if_neg hne).trans he), hp⟩
  | takeoverEnd j o =>
    obtain ⟨e, he, hp⟩ := hx
    have hne : j ≠ h := by
      rintro rfl
      have := hold e he
      rw [hp] at this
      cases this
    exact ⟨e, (hget j).trans ((if_neg hne).trans he), hp⟩
  | _ => exact hx

theorem setDuty_get (s : State) (h : Station) (d : Option Duty) (j : Station) :
    (s.setDuty h d).mem.duty[j] = if j = h then d else s.mem.duty[j] := put_get _ _ _ _

theorem evaluates_takeRun (s : State) (h : Station) : Evaluates s (s.takeRun h) := by
  unfold State.takeRun
  split
  next hc =>
    obtain ⟨-, -, hnone⟩ := hc
    exact Evaluates.of_queue (onMem_changes s _) ⟨rfl⟩
      (fun x hx => dutyBacked_setDuty (fun d' hd' => by rw [hnone] at hd'; cases hd') hx)
      ⟨_, (setDuty_get s h _ h).trans (if_pos rfl), rfl⟩
  · exact Evaluates.refl s

theorem evaluates_adoptOne (s : State) : Evaluates s s.adoptOne := by
  unfold State.adoptOne
  repeat' split
  next h k _ g _ =>
    refine Evaluates.of_queue (onMem_changes s _) ⟨rfl⟩ (fun x hx => ?_)
      ⟨rfl, _, List.mem_append_right _ (List.mem_singleton.2 rfl), rfl⟩
    cases x with
    | shut k c a =>
      obtain ⟨hc, a, ha, hk⟩ := hx
      exact ⟨hc, a, List.mem_append_left _ ha, hk⟩
    | _ => exact hx
  all_goals exact Evaluates.refl s

theorem evaluates_completeRun (s : State) (h : Station) : Evaluates s (s.completeRun h) := by
  unfold State.completeRun
  split
  next d hd =>
    split
    next hc =>
      exact Evaluates.of_queue (onMem_changes s _) ⟨rfl⟩
        (fun x hx => dutyBacked_setDuty (fun d' hd' => by rw [hd, Option.some.injEq] at hd'; rw [← hd']; exact hc.1) hx)
        ⟨_, (setDuty_get s h _ h).trans (if_pos rfl), rfl⟩
    · exact Evaluates.refl s
  · exact Evaluates.refl s

/-! ### A failed run (R151) -/

/-- R151: the orphans of a former holder that this station has adopted. -/
def State.orphansOf (s : State) (h : Station) : List Slot :=
  (s.mem.adoption.filter fun a => a.former == h && s.dir.rep.dir[a.slot].orphanOf h).map (·.slot)

/-- R151: a failed run reported, and the SHUTs of its orphans withdrawn but for one on the medium. -/
def State.runReported (s : State) (h : Station) (d : Duty) : State :=
  (s.report .takeoverFailed (slot := d.lastTimeout.bind slotByte) (peer := some h)).onBus
    (·.withdrawUnsent fun q => adoptsOneOf (s.orphansOf h) q.body)

/-- R151: the adoption of a slot ends with the withdrawal of its SHUT. -/
def State.dropsAdoption (s : State) (h : Station) (d : Duty) (a : Adoption) : Bool :=
  (s.orphansOf h).contains a.slot && s.isQueued (adoptsOneOf [a.slot]) &&
    !((s.runReported h d).bus.tx.any fun q => adoptsOneOf [a.slot] q.body)

/-- R151: the adoptions of a failed run ended. -/
def State.runDropped (s : State) (h : Station) (d : Duty) : State :=
  (s.runReported h d).onMem fun m => { m with adoption := m.adoption.filter fun a => !s.dropsAdoption h d a }

theorem failRun_fails {s : State} {h : Station} {d : Duty} (hd : s.mem.duty[h] = some d)
    (hr : d.phase = .running) (ht : 2 ≤ d.timeouts) :
    s.failRun h = ((s.runDropped h d).setDuty h (some { d with phase := .ending .failed })).queueFrame
      (.takeoverEnd h .failed) := by
  simp only [State.failRun, hd, if_pos (And.intro hr ht)]
  rfl

theorem failRun_kept {s : State} {h : Station}
    (hn : ∀ d, s.mem.duty[h] = some d → d.phase = .running → d.timeouts < 2) : s.failRun h = s := by
  unfold State.failRun
  split
  next d hd => exact if_neg fun ⟨hr, ht⟩ => absurd (hn d hd hr) (by omega)
  · rfl

theorem adoptsOneOf_iff (l : List Slot) (b : Body) :
    adoptsOneOf l b = true ↔ ∃ k a, b = .shut k .adopted a ∧ k ∈ l := by
  cases b <;> simp [adoptsOneOf]

theorem evaluates_runDropped (s : State) (h : Station) (d : Duty) : Evaluates s (s.runDropped h d) where
  changes := ((report_changes s _ _ _ _ _).andThen (onBus_changes _ _) (n := dutyBlocks) (by simp [dutyBlocks])
    (by simp [dutyBlocks])).andThen (onMem_changes _ _) (fun _ => id) (by simp [dutyBlocks])
  dutiful := ⟨rfl⟩
  waits := fun q hq => .inl (Bus.mem_waiting_withdrawUnsent (b := s.bus) hq).1
  keeps := fun q hq hb => by
    have hwait := (Bus.mem_waiting_withdrawUnsent (b := s.bus) hq).2
    cases hbody : q.body with
    | shut k c r =>
      rw [hbody] at hb
      obtain ⟨hc, a, ha, hk⟩ := hb
      refine ⟨hc, a, List.mem_filter.2 ⟨ha, ?_⟩, hk⟩
      have hadopts : adoptsOneOf [a.slot] q.body = true :=
        (adoptsOneOf_iff _ _).2 ⟨k, r, by rw [hbody, hc], by rw [hk]; simp⟩
      -- the frame that waits is still queued, so the adoption is not dropped
      cases hmine : (s.orphansOf h).contains a.slot with
      | false => simp only [State.dropsAdoption, hmine, Bool.false_and, Bool.not_false]
      | true =>
        have hpick : adoptsOneOf (s.orphansOf h) q.body = true :=
          (adoptsOneOf_iff _ _).2 ⟨k, r, by rw [hbody, hc], by rw [← hk]; exact List.contains_iff_mem.1 hmine⟩
        have hany : ((s.runReported h d).bus.tx.any fun q => adoptsOneOf [a.slot] q.body) = true :=
          List.any_eq_true.2 ⟨q, hwait hpick, hadopts⟩
        simp only [State.dropsAdoption, hany, Bool.not_true, Bool.and_false, Bool.not_false]
    | _ =>
      rw [hbody] at hb
      exact hb
  carries := fun b hb hc => by
    refine Bus.carries_withdrawUnsent (b := s.bus) hc (Bool.eq_false_iff.2 fun hp => ?_)
    obtain ⟨k, a, rfl, -⟩ := (adoptsOneOf_iff _ _).1 hp
    cases hb
  idle := fun hs => Bus.withdrawUnsent_idle hs _
  others := fun c hc => report_count_other s .takeoverFailed c _ _ _ _ fun he => hc (by
    cases c <;> first | rfl | exact absurd he (by decide))
  raised := by
    have hcount : s.counted (s.runDropped h d) .takeoverFailed := report_counted s _ _ _ _ _
    rw [hcount]
    omega

/-- R151: a failed run is counted. -/
theorem runDropped_counted (s : State) (h : Station) (d : Duty) :
    s.counted (s.runDropped h d) .takeoverFailed := report_counted s _ _ _ _ _

theorem evaluates_failRun (s : State) (h : Station) : Evaluates s (s.failRun h) := by
  by_cases hc : ∃ d, s.mem.duty[h] = some d ∧ d.phase = .running ∧ 2 ≤ d.timeouts
  · obtain ⟨d, hd, hr, ht⟩ := hc
    rw [failRun_fails hd hr ht]
    have hduty : (s.runDropped h d).mem.duty[h] = some d := hd
    exact (evaluates_runDropped s h d).trans (Evaluates.of_queue (onMem_changes _ _) ⟨rfl⟩
      (fun x hx => dutyBacked_setDuty (fun d' hd' => by
        rw [hduty, Option.some.injEq] at hd'
        rw [← hd']
        exact hr) hx)
      ⟨_, (setDuty_get _ h _ h).trans (if_pos rfl), rfl⟩)
  · push Not at hc
    rw [failRun_kept hc]
    exact Evaluates.refl s

/-! ### The evaluation (R145) -/

theorem testNoAdopter_cases (s : State) :
    (s.testNoAdopter.bus = s.bus ∧ s.testNoAdopter.mem.duty = s.mem.duty ∧
      s.testNoAdopter.mem.adoption = s.mem.adoption) ∧ s.testNoAdopter.flt.counts = s.flt.counts := by
  unfold State.testNoAdopter
  repeat' split
  · exact ⟨⟨rfl, rfl, rfl⟩, rfl⟩
  · exact ⟨⟨rfl, rfl, rfl⟩, post_counts s.flt _⟩
  · exact ⟨⟨rfl, rfl, rfl⟩, rfl⟩

theorem dutyBacked_congr {s t : State} (hd : t.mem.duty = s.mem.duty) (ha : t.mem.adoption = s.mem.adoption)
    {x : Body} (h : s.dutyBacked x) : t.dutyBacked x := by
  cases x with
  | shut k c a =>
    obtain ⟨hc, e, he, hk⟩ := h
    exact ⟨hc, e, ha ▸ he, hk⟩
  | takeover j =>
    obtain ⟨e, he, hp⟩ := h
    exact ⟨e, hd ▸ he, hp⟩
  | takeoverEnd j o =>
    obtain ⟨e, he, hp⟩ := h
    exact ⟨e, hd ▸ he, hp⟩
  | _ => exact h

theorem evaluates_testNoAdopter (s : State) : Evaluates s s.testNoAdopter := by
  obtain ⟨⟨hbus, hduty, hadopt⟩, hcounts⟩ := testNoAdopter_cases s
  exact {
    changes := testNoAdopter_changes s
    dutiful := dutiful_testNoAdopter s
    waits := fun q hq => .inl (hbus ▸ hq)
    keeps := fun _ _ hb => dutyBacked_congr hduty hadopt hb
    carries := fun _ _ hc => by rw [hbus]; exact hc
    idle := fun hs => by rw [hbus]; exact hs
    others := fun c _ => by rw [hcounts]
    raised := by rw [hcounts]; exact Nat.min_le_left _ _ }

theorem evaluates_takeRuns (s : State) : Evaluates s s.takeRuns := by
  unfold State.takeRuns
  split
  · exact Evaluates.foldl _ evaluates_takeRun _ s
  · exact Evaluates.refl s

/-- R145, R147: the adoptions of an evaluation. -/
def State.adoptAll (s : State) : State := (List.range 4).foldl (fun x _ => x.adoptOne) s

theorem evaluates_adoptAll (s : State) : Evaluates s s.adoptAll :=
  Evaluates.foldl _ (fun x _ => evaluates_adoptOne x) _ s

theorem dutyEval_member {s : State} (h : s.mem.state = .member) :
    s.dutyEval = (allStations.foldl State.failRun
      (allStations.foldl State.completeRun s.takeRuns.adoptAll)).testNoAdopter := if_pos h

theorem dutyEval_idle {s : State} (h : s.mem.state ≠ .member) : s.dutyEval = s := if_neg h

theorem evaluates_dutyEval (s : State) : Evaluates s s.dutyEval := by
  by_cases hm : s.mem.state = .member
  · rw [dutyEval_member hm]
    exact ((((evaluates_takeRuns s).trans (evaluates_adoptAll _)).trans
      (Evaluates.foldl _ evaluates_completeRun _ _)).trans (Evaluates.foldl _ evaluates_failRun _ _)).trans
      (evaluates_testNoAdopter _)
  · rw [dutyEval_idle hm]
    exact Evaluates.refl s

/-! ### What becomes of a record -/

theorem takeRuns_kept {s : State} {h : Station} {d : Duty} (hd : s.mem.duty[h] = some d) :
    s.takeRuns.mem.duty[h] = some d ∧ s.takeRuns.mem.adoption = s.mem.adoption := by
  have hfold (l : List Station) (s : State) (hd : s.mem.duty[h] = some d) :
      (l.foldl State.takeRun s).mem.duty[h] = some d ∧
        (l.foldl State.takeRun s).mem.adoption = s.mem.adoption := by
    induction l generalizing s with
    | nil => exact ⟨hd, rfl⟩
    | cons j l ih =>
      have hstep : (s.takeRun j).mem.duty[h] = some d ∧ (s.takeRun j).mem.adoption = s.mem.adoption := by
        unfold State.takeRun
        split
        next hc =>
          refine ⟨(setDuty_get s j _ h).trans ((if_neg ?_).trans hd), rfl⟩
          rintro rfl
          rw [hc.2.2] at hd
          cases hd
        · exact ⟨hd, rfl⟩
      obtain ⟨hd', ha'⟩ := ih _ hstep.1
      exact ⟨hd', ha'.trans hstep.2⟩
  unfold State.takeRuns
  split
  · exact hfold _ s hd
  · exact ⟨hd, rfl⟩

theorem adoptOne_kept (s : State) :
    s.adoptOne.mem.duty = s.mem.duty ∧ ∀ a ∈ s.mem.adoption, a ∈ s.adoptOne.mem.adoption := by
  unfold State.adoptOne
  repeat' split
  all_goals first
    | exact ⟨rfl, fun _ h => h⟩
    | exact ⟨rfl, fun _ h => List.mem_append_left _ h⟩

theorem adoptAll_kept (s : State) :
    s.adoptAll.mem.duty = s.mem.duty ∧ ∀ a ∈ s.mem.adoption, a ∈ s.adoptAll.mem.adoption := by
  have hfold (l : List Nat) (s : State) : (l.foldl (fun x _ => x.adoptOne) s).mem.duty = s.mem.duty ∧
      ∀ a ∈ s.mem.adoption, a ∈ (l.foldl (fun x _ => x.adoptOne) s).mem.adoption := by
    induction l generalizing s with
    | nil => exact ⟨rfl, fun _ h => h⟩
    | cons _ l ih =>
      obtain ⟨hd, ha⟩ := adoptOne_kept s
      obtain ⟨hd', ha'⟩ := ih s.adoptOne
      exact ⟨hd'.trans hd, fun a h => ha' a (ha a h)⟩
  unfold State.adoptAll
  exact hfold (List.range 4) s

/-- R150: a run is complete once neither an orphan nor an adoption of its former holder is left. -/
theorem completeRun_completes {s : State} {h : Station} {d : Duty} (hd : s.mem.duty[h] = some d)
    (hr : d.phase = .running) (ho : s.dir.rep.hasOrphan h = false) (ha : ∀ a ∈ s.mem.adoption, a.former ≠ h) :
    s.completeRun h =
      (s.setDuty h (some { d with phase := .ending .done })).queueFrame (.takeoverEnd h .done) := by
  have hany : s.mem.adoption.any (fun a => a.former == h) = false := by simpa using ha
  simp only [State.completeRun, hd, if_pos (And.intro hr (And.intro ho hany))]

theorem completeRun_kept {s : State} {h : Station}
    (hn : ∀ d, s.mem.duty[h] = some d → d.phase = .running →
      s.dir.rep.hasOrphan h = true ∨ ∃ a ∈ s.mem.adoption, a.former = h) : s.completeRun h = s := by
  unfold State.completeRun
  split
  next d hd =>
    refine if_neg fun ⟨hr, ho, ha⟩ => ?_
    rcases hn d hd hr with h1 | ⟨a, hmem, hf⟩
    · rw [ho] at h1
      cases h1
    · simp only [List.any_eq_false, beq_iff_eq] at ha
      exact ha a hmem hf
  · rfl

theorem completeRun_other {s : State} {h j : Station} (hne : h ≠ j) :
    (s.completeRun j).mem.duty[h] = s.mem.duty[h] := by
  unfold State.completeRun
  split
  · split
    · exact (setDuty_get s j _ h).trans (if_neg hne)
    · rfl
  · rfl

theorem completeRun_adoption (s : State) (j : Station) : (s.completeRun j).mem.adoption = s.mem.adoption := by
  unfold State.completeRun
  repeat' split
  all_goals rfl

theorem failRun_other {s : State} {h j : Station} (hne : h ≠ j) :
    (s.failRun j).mem.duty[h] = s.mem.duty[h] := by
  by_cases hc : ∃ d, s.mem.duty[j] = some d ∧ d.phase = .running ∧ 2 ≤ d.timeouts
  · obtain ⟨d, hd, hr, ht⟩ := hc
    rw [failRun_fails hd hr ht]
    exact (setDuty_get (s.runDropped j d) j _ h).trans (if_neg hne)
  · push Not at hc
    rw [failRun_kept hc]

theorem evaluates_completeRuns (l : List Station) (s : State) : Evaluates s (l.foldl State.completeRun s) :=
  Evaluates.foldl _ evaluates_completeRun l s

theorem evaluates_failRuns (l : List Station) (s : State) : Evaluates s (l.foldl State.failRun s) :=
  Evaluates.foldl _ evaluates_failRun l s

theorem Evaluates.rep {s t : State} (h : Evaluates s t) : t.dir.rep = s.dir.rep :=
  congrArg Directory.rep (h.changes.1 .dir (by simp [dutyBlocks]))

/-- R150: a record that is not RUNNING, or whose run is not complete, is as before. -/
theorem completeRuns_kept {h : Station} {d : Duty} (l : List Station) {s : State}
    (hd : s.mem.duty[h] = some d)
    (hn : d.phase = .running → s.dir.rep.hasOrphan h = true ∨ ∃ a ∈ s.mem.adoption, a.former = h) :
    (l.foldl State.completeRun s).mem.duty[h] = some d := by
  induction l generalizing s with
  | nil => exact hd
  | cons j l ih =>
    refine ih ?_ fun hr => ?_
    · by_cases hj : h = j
      · subst hj
        rw [completeRun_kept fun d' hd' hr => ?_]
        · exact hd
        · cases hd.symm.trans hd'
          exact hn hr
      · exact (completeRun_other hj).trans hd
    · rw [(evaluates_completeRun s j).rep, completeRun_adoption]
      exact hn hr

/-- R150: a complete run is ENDING, its TAKEOVER-END queued. -/
theorem completeRuns_done {h : Station} {d : Duty} {l : List Station} (hl : h ∈ l) {s : State}
    (hd : s.mem.duty[h] = some d) (hr : d.phase = .running) (ho : s.dir.rep.hasOrphan h = false)
    (ha : ∀ a ∈ s.mem.adoption, a.former ≠ h) :
    (l.foldl State.completeRun s).mem.duty[h] = some { d with phase := .ending .done } ∧
      (l.foldl State.completeRun s).bus.carries (.takeoverEnd h .done) := by
  induction l generalizing s with
  | nil => cases hl
  | cons j l ih =>
    by_cases hj : h = j
    · subst hj
      rw [List.foldl_cons, completeRun_completes hd hr ho ha]
      refine ⟨completeRuns_kept l ((setDuty_get s h _ h).trans (if_pos rfl)) fun hr => (nomatch hr),
        (evaluates_completeRuns l _).carries _ rfl ?_⟩
      exact Bus.gained_carries (Bus.queue_gained s.bus _)
    · refine ih ((List.mem_cons.1 hl).resolve_left hj) ((completeRun_other hj).trans hd) ?_ ?_
      · rw [(evaluates_completeRun s j).rep]
        exact ho
      · rw [completeRun_adoption]
        exact ha

/-- R151: a record that is not RUNNING, or has not counted two timeouts, is as before. -/
theorem failRuns_kept {h : Station} {d : Duty} (l : List Station) {s : State} (hd : s.mem.duty[h] = some d)
    (hn : d.phase = .running → d.timeouts < 2) : (l.foldl State.failRun s).mem.duty[h] = some d := by
  induction l generalizing s with
  | nil => exact hd
  | cons j l ih =>
    refine ih ?_
    by_cases hj : h = j
    · subst hj
      rw [failRun_kept fun d' hd' hr => ?_]
      · exact hd
      · cases hd.symm.trans hd'
        exact hn hr
    · exact (failRun_other hj).trans hd

/-- R151: a failed run is ENDING, its TAKEOVER-END queued and its fault counted. -/
theorem failRuns_failed {h : Station} {d : Duty} {l : List Station} (hl : h ∈ l) {s : State}
    (hd : s.mem.duty[h] = some d) (hr : d.phase = .running) (ht : 2 ≤ d.timeouts) :
    (l.foldl State.failRun s).mem.duty[h] = some { d with phase := .ending .failed } ∧
      (l.foldl State.failRun s).bus.carries (.takeoverEnd h .failed) ∧
      min (s.flt.counts[Cause.takeoverFailed.index] + 1) 65535 ≤
        (l.foldl State.failRun s).flt.counts[Cause.takeoverFailed.index] := by
  induction l generalizing s with
  | nil => cases hl
  | cons j l ih =>
    by_cases hj : h = j
    · subst hj
      have hcount : (s.failRun h).flt.counts[Cause.takeoverFailed.index] =
          min (s.flt.counts[Cause.takeoverFailed.index] + 1) 65535 := by
        rw [failRun_fails hd hr ht]
        exact runDropped_counted s h d
      have hraised := (evaluates_failRuns l (s.failRun h)).raised
      rw [hcount] at hraised
      refine ⟨?_, ?_, le_trans (le_min le_rfl (Nat.min_le_right _ _)) hraised⟩
      · rw [List.foldl_cons, failRun_fails hd hr ht]
        exact failRuns_kept l ((setDuty_get (s.runDropped h d) h _ h).trans (if_pos rfl)) fun hr => (nomatch hr)
      · rw [List.foldl_cons, failRun_fails hd hr ht]
        refine (evaluates_failRuns l _).carries _ rfl ?_
        exact Bus.gained_carries (Bus.queue_gained (s.runDropped h d).bus _)
    · obtain ⟨hd', hc, hcount⟩ := ih ((List.mem_cons.1 hl).resolve_left hj) ((failRun_other hj).trans hd)
      have hraised := (evaluates_failRun s j).raised
      exact ⟨hd', hc, le_trans (by omega) hcount⟩

/-- What an evaluation makes of the records once the runs due are taken. -/
theorem dutyEval_taken {s : State} {h : Station} {d : Duty} (hd : s.mem.duty[h] = some d) :
    s.takeRuns.adoptAll.mem.duty[h] = some d ∧
      (∀ a ∈ s.mem.adoption, a ∈ s.takeRuns.adoptAll.mem.adoption) ∧
      s.takeRuns.adoptAll.dir.rep = s.dir.rep := by
  obtain ⟨htake, hadopt⟩ := takeRuns_kept hd
  obtain ⟨hduty, hkeep⟩ := adoptAll_kept s.takeRuns
  refine ⟨by rw [hduty]; exact htake, fun a ha => hkeep a (by rw [hadopt]; exact ha), ?_⟩
  exact (evaluates_adoptAll _).rep.trans (evaluates_takeRuns s).rep

/-- R145: an evaluation leaves a record that is not RUNNING, and one of a run that goes on. -/
theorem dutyEval_kept {s : State} {h : Station} {d : Duty} (hd : s.mem.duty[h] = some d)
    (hn : d.phase = .running → d.timeouts < 2 ∧
      (s.dir.rep.hasOrphan h = true ∨ ∃ a ∈ s.mem.adoption, a.former = h)) :
    s.dutyEval.mem.duty[h] = some d := by
  by_cases hm : s.mem.state = .member
  · obtain ⟨hd1, ha1, hr1⟩ := dutyEval_taken hd
    rw [dutyEval_member hm, (testNoAdopter_cases _).1.2.1]
    refine failRuns_kept _ (completeRuns_kept _ hd1 fun hr => ?_) fun hr => (hn hr).1
    rw [hr1]
    exact (hn hr).2.imp_right fun ⟨a, ha, hf⟩ => ⟨a, ha1 a ha, hf⟩
  · rw [dutyEval_idle hm]
    exact hd

theorem saturated_succ_le {a b c top : Nat} (h : min a top ≤ b) (g : min b top ≤ c) :
    min (a + 1) top ≤ min (c + 1) top := by omega

/-- R150, R151: the end of an evaluation for a run that has counted two timeouts and is not complete. -/
theorem runsTested_failed {u : State} {h : Station} {d : Duty} (hd : u.mem.duty[h] = some d)
    (hr : d.phase = .running) (ht : 2 ≤ d.timeouts)
    (hn : u.dir.rep.hasOrphan h = true ∨ ∃ a ∈ u.mem.adoption, a.former = h) {t : State}
    (hte : t = (allStations.foldl State.failRun (allStations.foldl State.completeRun u)).testNoAdopter) :
    t.mem.duty[h] = some { d with phase := .ending .failed } ∧ t.bus.carries (.takeoverEnd h .failed) ∧
      min (u.flt.counts[Cause.takeoverFailed.index] + 1) 65535 ≤
        t.flt.counts[Cause.takeoverFailed.index] := by
  have hd2 := completeRuns_kept allStations hd fun _ => hn
  have hraised := (evaluates_completeRuns allStations u).raised
  generalize allStations.foldl State.completeRun u = v at hd2 hraised hte
  have hmem : h ∈ allStations := List.mem_finRange h
  obtain ⟨hd3, hc3, hcount⟩ := failRuns_failed hmem hd2 hr ht
  generalize allStations.foldl State.failRun v = w at hd3 hc3 hcount hte
  obtain ⟨⟨hbus, hduty, -⟩, hcounts⟩ := testNoAdopter_cases w
  subst hte
  rw [hduty, hbus, hcounts]
  exact ⟨hd3, hc3, le_trans (saturated_succ_le hraised (Nat.min_le_left _ _)) hcount⟩

/-- R151: an evaluation fails a run that has counted two timeouts and is not complete. -/
theorem dutyEval_failed {s : State} (hm : s.mem.state = .member) {h : Station} {d : Duty}
    (hd : s.mem.duty[h] = some d) (hr : d.phase = .running) (ht : 2 ≤ d.timeouts)
    (hn : s.dir.rep.hasOrphan h = true ∨ ∃ a ∈ s.mem.adoption, a.former = h) :
    s.dutyEval.mem.duty[h] = some { d with phase := .ending .failed } ∧
      s.dutyEval.bus.carries (.takeoverEnd h .failed) ∧
      min (s.flt.counts[Cause.takeoverFailed.index] + 1) 65535 ≤
        s.dutyEval.flt.counts[Cause.takeoverFailed.index] := by
  obtain ⟨hd1, ha1, hr1⟩ := dutyEval_taken hd
  have hraised := ((evaluates_takeRuns s).trans (evaluates_adoptAll _)).raised
  obtain ⟨hd3, hc3, hcount⟩ := runsTested_failed hd1 hr ht
    (by rw [hr1]; exact hn.imp_right fun ⟨a, ha, hf⟩ => ⟨a, ha1 a ha, hf⟩) (dutyEval_member hm)
  exact ⟨hd3, hc3, le_trans (saturated_succ_le hraised (Nat.min_le_left _ _)) hcount⟩

/-! ### A LEAVE (R141) -/

/-- R141: a departing station's LEAVE is the one frame queued. -/
theorem queueLeave_waits {s : State} {q : QFrame} (h : q ∈ s.queueLeave.bus.waiting) :
    q ∈ s.bus.waiting ∨ q = { dest := none, body := .leave s.mem.stn } ∧ s.mem.departing = true ∧
      s.dir.rep.heldCount s.mem.stn = 0 ∧ s.dir.rep.runNames s.mem.stn = false := by
  unfold State.queueLeave at h
  split at h
  next hc =>
    obtain ⟨-, hdep, hheld, hruns, -⟩ := hc
    rcases Bus.mem_waiting_queue h with h | h
    · exact .inl h
    · exact .inr ⟨h, hdep, hheld, hruns⟩
  · exact .inl h

theorem queueLeave_carries {s : State} {b : Body} (h : s.bus.carries b) : s.queueLeave.bus.carries b := by
  unfold State.queueLeave
  split
  · exact Bus.carries_queue h _
  · exact h

end Sys2Proof.Machine
end

