-- ==== Sys2Proof/Proofs/GivingOut.lean ====
section
/-! SUPPORT. The giving out of a slot that has become READY (R26, R64), with the policy pass and the
evaluation of the open excess behind it. -/

namespace Sys2Proof.Machine

/-! ### The waiting order (R26) -/

/-- The age of a stream's head entry, within a window of half the acceptance numbers. -/
def Streams.age (t : Streams) (base : BitVec 16) (c : Ctx) : Nat := (t.ctxs[c].headAcc - base).toNat

theorem older_iff {a b base : BitVec 16} (ha : (a - base).toNat < 32768) (hb : (b - base).toNat < 32768) :
    older a b = true ↔ (a - base).toNat < (b - base).toNat := by
  unfold older
  simp only [Bool.and_eq_true, bne_iff_ne, decide_eq_true_eq, ne_eq, ← BitVec.toNat_inj, BitVec.toNat_sub] at *
  have := a.isLt
  have := b.isLt
  have := base.isLt
  omega

/-- R26: a stream inserted by its age leaves the order ascending. -/
theorem insertByAge_ascends {t : Streams} {base : BitVec 16} {c : Ctx} {l : List Ctx}
    (hc : t.age base c < 32768) (hl : ∀ d ∈ l, t.age base d < 32768)
    (h : l.Pairwise fun a b => t.age base a ≤ t.age base b) :
    (insertByAge t c l).Pairwise fun a b => t.age base a ≤ t.age base b := by
  induction l with
  | nil => simp [insertByAge]
  | cons d l ih =>
    obtain ⟨hd, hrest⟩ := List.pairwise_cons.1 h
    have hdw := hl d List.mem_cons_self
    unfold insertByAge
    split
    next ho =>
      have hlt := (older_iff hc hdw).1 ho
      refine List.pairwise_cons.2 ⟨fun x hx => ?_, h⟩
      rcases List.mem_cons.1 hx with rfl | hx
      · exact hlt.le
      · exact hlt.le.trans (hd x hx)
    next ho =>
      have hle : t.age base d ≤ t.age base c := by
        by_contra hn
        exact ho ((older_iff hc hdw).2 (Nat.lt_of_not_le hn))
      refine List.pairwise_cons.2 ⟨fun x hx => ?_, ih (fun x hx => hl x (List.mem_cons_of_mem _ hx)) hrest⟩
      rcases (mem_insertByAge ..).1 hx with rfl | hx
      · exact hle
      · exact hd x hx

/-- R26: streams inserted by their age one after another stand in ascending order. -/
theorem ageOrder_ascends {t : Streams} {base : BitVec 16} {l m : List Ctx} (hl : ∀ c ∈ l, t.age base c < 32768)
    (hm : ∀ c ∈ m, t.age base c < 32768) (hp : m.Pairwise fun a b => t.age base a ≤ t.age base b) :
    (l.foldl (fun l c => insertByAge t c l) m).Pairwise fun a b => t.age base a ≤ t.age base b := by
  induction l generalizing m with
  | nil => exact hp
  | cons c l ih =>
    refine ih (fun x hx => hl x (List.mem_cons_of_mem _ hx)) (fun x hx => ?_)
      (insertByAge_ascends (hl c List.mem_cons_self) hm hp)
    rcases (mem_insertByAge ..).1 hx with rfl | hx
    · exact hl x List.mem_cons_self
    · exact hm x hx

theorem waitingOrder_ascends {t : Streams} {base : BitVec 16}
    (h : ∀ c : Ctx, t.ctxs[c].state = .waiting → t.age base c < 32768) :
    t.waitingOrder.Pairwise fun a b => t.age base a ≤ t.age base b := by
  refine ageOrder_ascends (fun c hc => h c ?_) (by simp) List.Pairwise.nil
  simpa using (List.mem_filter.1 hc).2

/-- R64: the oldest stream of an ascending order that a test picks. -/
theorem find?_oldest {t : Streams} {base : BitVec 16} {l : List Ctx} {p : Ctx → Bool} {c : Ctx}
    (hl : l.Pairwise fun a b => t.age base a ≤ t.age base b) (hc : c ∈ l) (hp : p c = true)
    (hold : ∀ b, b ≠ c → b ∈ l → p b = true → t.age base c < t.age base b) : l.find? p = some c := by
  induction l with
  | nil => cases hc
  | cons d l ih =>
    obtain ⟨hd, hrest⟩ := List.pairwise_cons.1 hl
    by_cases hdc : d = c
    · subst hdc
      exact List.find?_cons_of_pos hp
    · have hcl := (List.mem_cons.1 hc).resolve_left (Ne.symm hdc)
      have hno : ¬ p d = true := fun hpd =>
        absurd (hd c hcl) (Nat.not_le.2 (hold d hdc List.mem_cons_self hpd))
      rw [List.find?_cons_of_neg hno]
      exact ih hrest hcl fun b hb hbl => hold b hb (List.mem_cons_of_mem _ hbl)

/-! ### A pass that shuts nothing (R57, R62) -/

/-- Policy work that shuts nothing: a BOUND stream stays BOUND, and the residents of a slot stay. -/
structure Grants (s t : State) : Prop extends Polices s t where
  bound : ∀ c : Ctx, s.str.ctxs[c].state = .bound →
    t.str.ctxs[c].state = .bound ∧ t.str.ctxs[c].slot = s.str.ctxs[c].slot
  stays : ∀ (k : Slot) x, s.dir.ext[k] = some x →
    ∃ y l, t.dir.ext[k] = some y ∧ y.residents = x.residents ++ l

namespace Grants

theorem of_same {s t : State} (h : Polices s t) (hs : t.str = s.str) (he : t.dir.ext = s.dir.ext) :
    Grants s t where
  toPolices := h
  bound := fun c hc => by rw [hs]; exact ⟨hc, rfl⟩
  stays := fun k x hx => ⟨x, [], by rw [he]; exact hx, (List.append_nil _).symm⟩

theorem refl (s : State) : Grants s s := of_same (Polices.refl s) rfl rfl

theorem trans {s t u : State} (h : Grants s t) (g : Grants t u) : Grants s u where
  toPolices := h.toPolices.trans g.toPolices
  bound := fun c hc => by
    obtain ⟨hb, hs⟩ := h.bound c hc
    obtain ⟨hb', hs'⟩ := g.bound c hb
    exact ⟨hb', hs'.trans hs⟩
  stays := fun k x hx => by
    obtain ⟨y, l, hy, hl⟩ := h.stays k x hx
    obtain ⟨z, m, hz, hm⟩ := g.stays k y hy
    exact ⟨z, l ++ m, hz, by rw [hm, hl, List.append_assoc]⟩

end Grants

theorem grants_grant {s : State} {c : Ctx} (hw : s.str.ctxs[c].state = .waiting) (k : Slot) :
    Grants s (s.grant c k) where
  toPolices := polices_grant s c k hw
  bound := fun b hb => by
    have hne : b ≠ c := by
      rintro rfl
      rw [hw] at hb
      cases hb
    rw [grant_other hne]
    exact ⟨hb, rfl⟩
  stays := fun j x hx => by
    cases hk : s.dir.ext[k] with
    | none =>
      have hsame : s.grant c k = s := by simp only [State.grant, hk]
      rw [hsame]
      exact ⟨x, [], hx, (List.append_nil _).symm⟩
    | some z =>
      have hget : (s.grant c k).dir.ext[j] =
          if j = k then some { z with residents := z.residents ++ [c] } else s.dir.ext[j] := by
        rw [(grant_dir hk c).1]
        exact setExt_get s k j _
      rw [hget]
      split
      next hj =>
        subst hj
        cases hk.symm.trans hx
        exact ⟨_, [c], rfl, rfl⟩
      · exact ⟨x, [], hx, (List.append_nil _).symm⟩

theorem queueClaim_same (s : State) (kd : SlotKind) (c : Option Ctx) :
    (s.queueClaim kd c).str = s.str ∧ (s.queueClaim kd c).dir = s.dir := by
  unfold State.queueClaim
  split <;> exact ⟨rfl, rfl⟩

theorem beginRecall_same (s : State) : s.beginRecall.str = s.str ∧ s.beginRecall.dir.ext = s.dir.ext := by
  unfold State.beginRecall
  split
  · exact ⟨rfl, rfl⟩
  · split <;> exact ⟨rfl, rfl⟩

theorem grants_queueClaim {s : State} (kd : SlotKind) (c : Option Ctx)
    (h : (s.withinQuota || s.fromPool) = true) : Grants s (s.queueClaim kd c) :=
  .of_same (polices_queueClaim s kd c h) (queueClaim_same s kd c).1
    (congrArg Directory.ext (queueClaim_same s kd c).2)

/-- R62: step 5 without a MIXED slot shuts nothing. -/
theorem grants_stepFive {s : State} (h : s.mixedSlot = none) (c : Ctx) :
    Grants s (s.stepFive c).1 ∧ (s.stepFive c).2 = false := by
  rw [stepFive_unmixed h]
  split
  · exact ⟨Grants.refl s, rfl⟩
  · split
    next hq => exact ⟨grants_queueClaim _ _ hq, rfl⟩
    · exact ⟨Grants.refl s, rfl⟩

theorem grants_visit {s : State} (h : s.mixedSlot = none) (skip : List Ctx) (c : Ctx) :
    Grants s (s.visit skip c).1 ∧ (s.visit skip c).2 = false := by
  unfold State.visit
  split
  · exact ⟨Grants.refl s, rfl⟩
  next hw =>
    rw [not_not] at hw
    split
    · exact ⟨Grants.refl s, rfl⟩
    · split
      · exact grants_stepFive h c
      · split
        · exact grants_stepFive h c
        · split
          next hq => exact ⟨grants_queueClaim _ _ hq.2, rfl⟩
          · split
            · exact ⟨grants_grant hw _, rfl⟩
            · split
              next hr => exact ⟨.of_same (polices_beginRecall s (recallNeeded_permission hr))
                  (beginRecall_same s).1 (beginRecall_same s).2, rfl⟩
              · exact grants_stepFive h c

theorem mixedSlot_later {s t : State} (h : Polices s t) : t.mixedSlot = s.mixedSlot := by
  simp only [State.mixedSlot, polices_holdsSlot h, h.rep]

theorem grants_passOnce {s : State} (h : s.mixedSlot = none) (skip : List Ctx) :
    Grants s (s.passOnce skip).1 ∧ (s.passOnce skip).2 = false := by
  have hfold (l : List Ctx) (p : State × Bool) (hm : p.1.mixedSlot = none) (hf : p.2 = false) :
      Grants p.1 (l.foldl (fun acc c => ((acc.1.visit skip c).1, acc.2 || (acc.1.visit skip c).2)) p).1 ∧
        (l.foldl (fun acc c => ((acc.1.visit skip c).1, acc.2 || (acc.1.visit skip c).2)) p).2 = false := by
    induction l generalizing p with
    | nil => exact ⟨Grants.refl _, hf⟩
    | cons c l ih =>
      obtain ⟨hg, hv⟩ := grants_visit hm skip c
      obtain ⟨hg', hv'⟩ := ih ((p.1.visit skip c).1, p.2 || (p.1.visit skip c).2)
        ((mixedSlot_later hg.toPolices).trans hm) (by rw [hf, hv]; rfl)
      exact ⟨hg.trans hg', hv'⟩
  exact hfold _ (s, false) h rfl

/-- R57: a pass without a MIXED slot shuts nothing. -/
theorem grants_policyPass {s : State} (h : s.mixedSlot = none) : Grants s s.policyPass := by
  obtain ⟨hg, hf⟩ := grants_passOnce h []
  unfold State.policyPass
  split
  · dsimp only
    rw [if_neg (by rw [hf]; decide)]
    exact hg
  · exact Grants.refl s

/-! ### The slot given out (R64) -/

/-- The streams that a slot may be given to beside its claimant. -/
def State.takesOver (s : State) (k : Slot) (c : Ctx) : Bool :=
  c != 0 && !s.plc.claims.any (·.claimant == some c) && s.fit c k

theorem giveOut_normal {s : State} {k : Slot} {cl : LifeClass} {g : Gen} {x : Ext}
    (hk : s.dir.rep.dir[k] = .opened s.mem.stn (.normal cl) g) (hx : s.dir.ext[k] = some x)
    (hr : x.readiness = .ready) (hd : x.shutDue = none) (claimant : Option Ctx) :
    s.giveOut k claimant =
      match claimant.filter (fun c => s.str.ctxs[c].state == .waiting) with
      | some c => s.grant c k
      | none =>
        match s.str.waitingOrder.find? (s.takesOver k) with
        | some c => s.grant c k
        | none => s.decideShut k .idle := by
  have hg : s.grantable k = true := (grantable_opened_iff s k).2 ⟨x, _, g, hx, hk, hr, hd⟩
  have hkd : s.dir.rep.dir[k].kind? = some (.normal cl) := by rw [hk]; rfl
  unfold State.giveOut
  rw [if_pos hg, hkd]
  rfl

theorem giveOut_kept {s : State} {k : Slot} (h : (∀ cl g, s.dir.rep.dir[k] ≠ .opened s.mem.stn (.normal cl) g) ∨
    ∀ x, s.dir.ext[k] = some x → x.shutDue ≠ none) (claimant : Option Ctx) : s.giveOut k claimant = s := by
  unfold State.giveOut
  split
  next hg =>
    obtain ⟨x, kd, g, hx, hk, -, hd⟩ := (grantable_opened_iff s k).1 hg
    have hkd : s.dir.rep.dir[k].kind? = some kd := by rw [hk]; rfl
    rw [hkd]
    cases kd with
    | mixed => rfl
    | normal cl => exact absurd hd ((h.resolve_left fun hn => hn cl g hk) x hx)
  · rfl

theorem takesOver_iff {s : State} {k : Slot} {cl : LifeClass}
    (hk : s.dir.rep.dir[k].kind? = some (.normal cl)) {c : Ctx} (hw : s.str.ctxs[c].state = .waiting) :
    s.takesOver k c = true ↔ s.standsBy cl c ∧ s.fit c k = true := by
  have hcls (h : s.fit c k = true) : s.str.ctxs[c].cls = some cl := by
    unfold State.fit at h
    rw [hk] at h
    cases hx : s.dir.ext[k] <;> cases hc : s.str.ctxs[c].cls <;> rw [hx, hc] at h <;> simp at h
    rw [h.2.1.1]
  unfold State.takesOver State.standsBy
  simp only [Bool.and_eq_true, bne_iff_ne, Bool.not_eq_true', List.any_eq_false, beq_iff_eq]
  constructor
  · rintro ⟨⟨h0, hc⟩, hf⟩
    exact ⟨⟨h0, hw, hcls hf, hc⟩, hf⟩
  · rintro ⟨⟨h0, -, -, hc⟩, hf⟩
    exact ⟨⟨h0, hc⟩, hf⟩

/-- What follows the giving out of a slot: a policy pass and the evaluation of the open excess. -/
def State.gaveOn (s : State) (k : Slot) (claimant : Option Ctx) : State :=
  (s.giveOut k claimant).policyPass.evalPressure

/-- R25, R64: the slot is given to a WAITING stream. -/
theorem gaveTo_grant {s : State} {k : Slot} {x : Ext} {c : Ctx} (hx : s.dir.ext[k] = some x)
    (hw : s.str.ctxs[c].state = .waiting) :
    s.gaveTo (s.grant c k).policyPass.evalPressure k x c := by
  intro hidle halone
  have hp := polices_grant s c k hw
  obtain ⟨hstate, hslot, hpend⟩ := grant_self hx c
  have hext : (s.grant c k).dir.ext[k] = some { x with residents := x.residents ++ [c] } := by
    rw [(grant_dir hx c).1]
    exact (setExt_get s k k _).trans (if_pos rfl)
  have hgrants : Grants (s.grant c k) (s.grant c k).policyPass := by
    rcases halone with halone | hmixed
    · rw [policyPass_none fun b => ?_]
      · exact Grants.refl _
      · by_cases hb : b = c
        · rw [hb, hstate]
          decide
        · rw [grant_other hb]
          exact halone b hb
    · refine grants_policyPass ((mixedSlot_later hp).trans ?_)
      rw [mixedSlot_none_iff]
      exact hmixed
  have hpass := (hp.trans hgrants.toPolices)
  have hdone : (s.grant c k).policyPass.evalPressure = (s.grant c k).policyPass := by
    have heval : (s.grant c k).policyPass.pressureEval = ((s.grant c k).policyPass, false) := by
      refine if_neg fun h => ?_
      rw [hpass.line, hpass.mem] at h
      rcases hidle with hl | hm
      · rw [hl] at h
        cases h.1
      · exact hm h.2
    unfold State.evalPressure
    rw [heval]
    rfl
  rw [hdone]
  obtain ⟨hb, hs⟩ := hgrants.bound c hstate
  obtain ⟨y, l, hy, hl⟩ := hgrants.stays k _ hext
  refine ⟨hb, hs.trans hslot, ((hgrants.ctx c).pending).trans hpend, y, l, hy, ?_⟩
  rw [hl, List.append_assoc]
  rfl

/-- R64: a slot that is READY is given out. -/
theorem gaveOut_giveOut {s : State} {k : Slot} (hready : ∀ x, s.dir.ext[k] = some x → x.readiness = .ready)
    (claimant : Option Ctx) : s.gaveOut (s.gaveOn k claimant) k claimant := by
  refine ⟨fun cl g x hk hx hd => ?_, fun hn => ?_⟩
  · have hgive := giveOut_normal hk hx (hready x hx) hd claimant
    have hkd : s.dir.rep.dir[k].kind? = some (.normal cl) := by rw [hk]; rfl
    unfold State.gaveOn
    rw [hgive]
    refine ⟨fun c hc hw => ?_, fun hc => ?_⟩
    · have hfilter : claimant.filter (fun c => s.str.ctxs[c].state == .waiting) = some c := by
        rw [hc]
        simp only [Option.filter_some, hw, beq_self_eq_true, if_true]
      rw [hfilter]
      exact gaveTo_grant hx hw
    · have hfilter : claimant.filter (fun c => s.str.ctxs[c].state == .waiting) = none := by
        rw [Option.filter_eq_none_iff]
        intro c hcm hw
        exact hc c hcm (beq_iff_eq.1 hw)
      rw [hfilter]
      dsimp only
      refine ⟨fun c e rest base hs hp hf hwin hold => ?_, fun hno => ?_⟩
      · have hw := hs.2.1
        have hfind : s.str.waitingOrder.find? (s.takesOver k) = some c := by
          refine find?_oldest (base := base) (waitingOrder_ascends hwin) ((mem_waitingOrder _ c).2 hw)
            ((takesOver_iff hkd hw).2 ⟨hs, (fit_iff hp hs.2.2.1 k).2 hf⟩) fun b hb hbl hbt => ?_
          obtain ⟨hbs, hbf⟩ := (takesOver_iff hkd ((mem_waitingOrder _ b).1 hbl)).1 hbt
          exact hold b hb hbs fun e' rest' hp' => (fit_iff hp' hbs.2.2.1 k).1 hbf
        rw [hfind]
        exact gaveTo_grant hx hw
      · have hfind : s.str.waitingOrder.find? (s.takesOver k) = none := by
          rw [List.find?_eq_none]
          intro c hcl hct
          obtain ⟨hcs, hcf⟩ := (takesOver_iff hkd ((mem_waitingOrder _ c).1 hcl)).1 hct
          obtain ⟨e, rest, hp, hnf⟩ := hno c hcs
          exact hnf ((fit_iff hp hcs.2.2.1 k).1 hcf)
        rw [hfind]
        have hq := (queues_policyPass (s.decideShut k .idle) [] (cs := [.full, .pressure]) (by simp)).trans
          (queues_evalPressure _ (by simp) (by simp))
        obtain ⟨⟨y, hy, hyd, -⟩, hfirst⟩ := decideShut_stands hx hd
          (isOpen_notApplied (by rw [hk]; rfl)) hq
        exact ⟨⟨y, hy, hyd⟩, hfirst⟩
  · unfold State.gaveOn
    rw [giveOut_kept hn]
    refine ⟨fun hp => ?_, fun hp => pressed_evalPressure hp⟩
    have hline := (polices_policyPass s).line
    have heval : s.policyPass.pressureEval = (s.policyPass, false) := by
      refine if_neg fun h => ?_
      rw [hline, hp] at h
      cases h.1
    have hdone : s.policyPass.evalPressure = s.policyPass := by
      unfold State.evalPressure
      rw [heval]
      rfl
    rw [hdone]
    exact passed_policyPass s

end Sys2Proof.Machine
end

