-- ==== Sys2Proof/Proofs/Completions.lean ====
section
/-! SUPPORT. The completions of the back-end link (R101, R104, R105, R149, R161 to R165). -/

namespace Sys2Proof.Machine

/-! ### Tracker places -/

theorem isFor_iff (p : TrackPlace) (k : Slot) (g : Gen) : p.isFor k g = true ↔ p.slot = k ∧ p.serial = g := by
  simp [TrackPlace.isFor]

theorem isReleased_iff (p : TrackPlace) : p.isReleased = true ↔ ∃ n, p.timer = .released n := by
  unfold TrackPlace.isReleased
  cases p.timer <;> simp

theorem isReleased_false_iff (p : TrackPlace) : p.isReleased = false ↔ ∃ n, p.timer = .live n := by
  unfold TrackPlace.isReleased
  cases p.timer <;> simp

/-- Of some places the first that a test picks is found, and erased. -/
theorem eraseP_split {p : TrackPlace → Bool} {pre post : List TrackPlace} {x : TrackPlace} (hx : p x = true)
    (hpre : ∀ q ∈ pre, p q = false) :
    (pre ++ x :: post).eraseP p = pre ++ post ∧ (pre ++ x :: post).find? p = some x := by
  induction pre with
  | nil => simp [hx]
  | cons q pre ih =>
    have hq := hpre q List.mem_cons_self
    obtain ⟨he, hf⟩ := ih fun y hy => hpre y (List.mem_cons_of_mem _ hy)
    refine ⟨?_, ?_⟩
    · rw [List.cons_append, List.eraseP_cons_of_neg (by rw [hq]; decide), he]
      rfl
    · rw [List.cons_append, List.find?_cons_of_neg (by rw [hq]; decide), hf]

theorem slotOf_slot (k : Slot) : slotOf (BitVec.ofNat 8 k.val) = some k := by
  have hk : (BitVec.ofNat 8 k.val).toNat = k.val := by
    rw [BitVec.toNat_ofNat]
    exact Nat.mod_eq_of_lt (by omega)
  unfold slotOf
  rw [dif_pos (by rw [hk]; exact k.isLt)]
  exact congrArg some (Fin.ext hk)

/-! ### Completions that match nothing (R164, R165) -/

/-- R165: in PORT-WAIT completions are passed over. -/
theorem exec_portWait {s : State} (hs : s.rst = none) (hw : s.link.state = .portWait) {c : Instr} {b : Byte}
    {g : Gen} {o : CompletionOutcome} {tg : DTag}
    (hc : c = .openReady b g o ∨ c = .closeDone b g o ∨ c = .placeDone tg o) :
    exec c s = .next s.settled := by
  rcases hc with rfl | rfl | rfl
  · change execOpenReady b g o s = _
    unfold execOpenReady
    rw [live_settled _ hs, if_pos hw]
  · change execCloseDone b g o s = _
    unfold execCloseDone
    rw [live_settled _ hs, if_pos hw]
  · change execPlaceDone tg o s = _
    unfold execPlaceDone
    rw [live_settled _ hs, if_pos hw]

theorem exec_openReady {s : State} (hs : s.rst = none) (ho : s.link.state = .operating) (b : Byte) (g : Gen)
    (o : CompletionOutcome) :
    exec (.openReady b g o) s = .next (match o with
      | .ok => s.openReady b g true
      | .failed => s.openReady b g false
      | .closed => s.unknown (some b)
      | .undef => s.unknown (some b)).settled := by
  have hstep : execOpenReady b g o s = _ := live_settled _ hs
  have hwait : ¬ s.link.state = .portWait := by rw [ho]; decide
  refine hstep.trans (congrArg (fun u : State => Host.Outcome.next u.settled) ((if_neg hwait).trans ?_))
  cases o <;> rfl

theorem exec_closeDone {s : State} (hs : s.rst = none) (ho : s.link.state = .operating) (b : Byte) (g : Gen)
    (o : CompletionOutcome) :
    exec (.closeDone b g o) s = .next (match o with
      | .closed => s.closeDone b g .closed
      | .failed => s.closeDone b g .failed
      | .ok => s.unknown (some b)
      | .undef => s.unknown (some b)).settled := by
  have hstep : execCloseDone b g o s = _ := live_settled _ hs
  have hwait : ¬ s.link.state = .portWait := by rw [ho]; decide
  refine hstep.trans (congrArg (fun u : State => Host.Outcome.next u.settled) ((if_neg hwait).trans ?_))
  cases o <;> rfl

theorem findPlace_none {l : List TrackPlace} {b : Byte} {g : Gen} {k : Slot} (hk : slotOf b = some k)
    (h : ∀ p ∈ l, p.slot.val = b.toNat → p.serial ≠ g) : findPlace l k g = none := by
  have hval : k.val = b.toNat := by
    unfold slotOf at hk
    split at hk
    · rw [← Option.some.inj hk]
    · cases hk
  unfold findPlace
  rw [List.find?_eq_none]
  intro p hp
  rw [isFor_iff]
  rintro ⟨rfl, hg⟩
  exact h p hp hval hg

theorem openReady_unmatched {s : State} {b : Byte} {g : Gen}
    (h : ∀ p ∈ s.link.opens, p.slot.val = b.toNat → p.serial ≠ g) (ok : Bool) :
    s.openReady b g ok = s.unknown (some b) := by
  unfold State.openReady
  split
  · rfl
  next k hk => rw [findPlace_none hk h]

theorem closeDone_unmatched {s : State} {b : Byte} {g : Gen}
    (h : ∀ p ∈ s.link.closes, p.slot.val = b.toNat → p.serial ≠ g) (r : CloseReport) :
    s.closeDone b g r = s.unknown (some b) := by
  unfold State.closeDone
  split
  · rfl
  next k hk => rw [findPlace_none hk h]

theorem unknown_spec (s : State) (b : Option Byte) :
    s.counted (s.unknown b).settled .unknownCompletion ∧ s.frame (s.unknown b).settled [.flt] :=
  ⟨(report_counted s _ _ _ _ _).settled rfl, frame_of_changes (report_changes s _ _ _ _ _) (by simp)⟩

theorem exec_placeDone_unmatched {s : State} (hs : s.rst = none) (ho : s.link.state = .operating) {tg : DTag}
    {o : CompletionOutcome}
    (h : o = .closed ∨ o = .undef ∨ ∀ e, s.plc.comp[tg] = some e → e.outcome ≠ .outstanding) :
    exec (.placeDone tg o) s = .next (s.unknown none).settled := by
  change execPlaceDone tg o s = _
  unfold execPlaceDone
  rw [live_settled _ hs, if_neg (by rw [ho]; decide)]
  cases hout : s.outstanding tg with
  | none => cases o <;> rfl
  | some e =>
    have hout' : s.plc.comp[tg] = some e ∧ e.outcome = .outstanding := by
      simpa [State.outstanding, Option.filter_eq_some_iff] using hout
    rcases h with rfl | rfl | h
    · rfl
    · rfl
    · exact absurd hout'.2 (h e hout'.1)

/-- R164: a completion that matches nothing is counted, and changes nothing else. -/
theorem completion_unmatched {s : State} (hs : s.rst = none) (ho : s.link.state = .operating) {c : Instr}
    (hc : c = .portClean ∨
      (∃ b g o, c = .openReady b g o ∧ (o = .closed ∨ o = .undef ∨
        ∀ p ∈ s.link.opens, p.slot.val = b.toNat → p.serial ≠ g)) ∨
      (∃ b g o, c = .closeDone b g o ∧ (o = .ok ∨ o = .undef ∨
        ∀ p ∈ s.link.closes, p.slot.val = b.toNat → p.serial ≠ g)) ∨
      (∃ tg o, c = .placeDone tg o ∧ (o = .closed ∨ o = .undef ∨
        ∀ e, s.plc.comp[tg] = some e → e.outcome ≠ .outstanding))) :
    ∃ b, exec c s = .next (s.unknown b).settled := by
  rcases hc with rfl | ⟨b, g, o, rfl, h⟩ | ⟨b, g, o, rfl, h⟩ | ⟨tg, o, rfl, h⟩
  · refine ⟨none, ?_⟩
    change execPortClean s = _
    unfold execPortClean
    rw [live_settled _ hs]
    simp only [ho]
  · refine ⟨some b, (exec_openReady hs ho b g o).trans ?_⟩
    rcases h with rfl | rfl | h
    · rfl
    · rfl
    · cases o <;> simp only [openReady_unmatched h]
  · refine ⟨some b, (exec_closeDone hs ho b g o).trans ?_⟩
    rcases h with rfl | rfl | h
    · rfl
    · rfl
    · cases o <;> simp only [closeDone_unmatched h]
  · exact ⟨none, exec_placeDone_unmatched hs ho h⟩

/-! ### OPEN-READY (R101) -/

section
variable {s : State} {k : Slot} {g : Gen} {p : TrackPlace} {pre post : List TrackPlace}

theorem freeOpen_eq (hl : s.link.opens = pre ++ p :: post) (hk : p.slot = k) (hg : p.serial = g)
    (hpre : ∀ q ∈ pre, q.slot = k → q.serial ≠ g) :
    s.freeOpen k g = { s with link := { s.link with opens := pre ++ post } } ∧
      findPlace s.link.opens k g = some p := by
  have hpre' : ∀ q ∈ pre, q.isFor k g = false := fun q hq =>
    Bool.eq_false_iff.2 fun h => hpre q hq ((isFor_iff q k g).1 h).1 ((isFor_iff q k g).1 h).2
  obtain ⟨he, hf⟩ := eraseP_split (post := post) ((isFor_iff p k g).2 ⟨hk, hg⟩) hpre'
  refine ⟨?_, by rw [hl]; exact hf⟩
  simp only [State.freeOpen, State.onLink, hl, he]

theorem freeClose_eq (hl : s.link.closes = pre ++ p :: post) (hk : p.slot = k) (hg : p.serial = g)
    (hpre : ∀ q ∈ pre, q.slot = k → q.serial ≠ g) :
    s.freeClose k g = { s with link := { s.link with closes := pre ++ post } } ∧
      findPlace s.link.closes k g = some p := by
  have hpre' : ∀ q ∈ pre, q.isFor k g = false := fun q hq =>
    Bool.eq_false_iff.2 fun h => hpre q hq ((isFor_iff q k g).1 h).1 ((isFor_iff q k g).1 h).2
  obtain ⟨he, hf⟩ := eraseP_split (post := post) ((isFor_iff p k g).2 ⟨hk, hg⟩) hpre'
  refine ⟨?_, by rw [hl]; exact hf⟩
  simp only [State.freeClose, State.onLink, hl, he]

theorem openReady_matched (hl : s.link.opens = pre ++ p :: post) (hk : p.slot = k) (hg : p.serial = g)
    (hpre : ∀ q ∈ pre, q.slot = k → q.serial ≠ g) (ok : Bool) :
    s.openReady (BitVec.ofNat 8 k.val) g ok =
      if p.isReleased then s.freeOpen k g else (s.freeOpen k g).opened k g ok := by
  unfold State.openReady
  rw [slotOf_slot]
  dsimp only
  rw [(freeOpen_eq hl hk hg hpre).2]

theorem closeDone_matched (hl : s.link.closes = pre ++ p :: post) (hk : p.slot = k) (hg : p.serial = g)
    (hpre : ∀ q ∈ pre, q.slot = k → q.serial ≠ g) (r : CloseReport) :
    s.closeDone (BitVec.ofNat 8 k.val) g r =
      if p.isReleased then s.freeClose k g else (s.freeClose k g).closeEnded k g r := by
  unfold State.closeDone
  rw [slotOf_slot]
  dsimp only
  rw [(freeClose_eq hl hk hg hpre).2]

end

theorem opened_awaiting {s : State} {k : Slot} {x : Ext} {g : Gen} (hx : s.dir.ext[k] = some x)
    (hg : x.serial = g) (hr : x.readiness = .awaitingOpen) (ok : Bool) :
    s.opened k g ok = if ok then s.openedOk k else s.openedFailed k := by
  unfold State.opened
  rw [hx]
  exact if_pos ⟨hg, hr⟩

/-- R63, R101: the slot is READY and its claim has ended. -/
def State.readied (s : State) (k : Slot) (x : Ext) : State :=
  (s.setExt k (some { x with readiness := .ready })).endOpening k

theorem openedOk_eq {s : State} {k : Slot} {x : Ext} (hx : s.dir.ext[k] = some x) :
    s.openedOk k = (s.readied k x).gaveOn k ((s.openingEntry k).bind (·.claimant)) := by
  have hext : s.onExt k (fun x => { x with readiness := .ready }) =
      s.setExt k (some { x with readiness := .ready }) := by simp only [State.onExt, hx]
  unfold State.openedOk
  dsimp only
  rw [hext]
  rfl

/-- The opening of the slot has failed: the state that decides the shut. -/
def State.unopened (s : State) (k : Slot) (x : Ext) : State :=
  ((s.setExt k (some { x with readiness := .openFailed })).report .openFailed (slot := slotByte k)).endOpening k

theorem openedFailed_eq {s : State} {k : Slot} {x : Ext} (hx : s.dir.ext[k] = some x) :
    s.openedFailed k = ((s.unopened k x).decideShut k .fault).policyPass := by
  have hext : s.onExt k (fun x => { x with readiness := .openFailed }) =
      s.setExt k (some { x with readiness := .openFailed }) := by simp only [State.onExt, hx]
  unfold State.openedFailed
  dsimp only
  rw [hext]
  rfl

theorem readied_get (s : State) (k : Slot) (x : Ext) :
    (s.readied k x).dir.ext[k] = some { x with readiness := .ready } :=
  (setExt_get s k k _).trans (if_pos rfl)

theorem unopened_get (s : State) (k : Slot) (x : Ext) :
    (s.unopened k x).dir.ext[k] = some { x with readiness := .openFailed } :=
  (setExt_get s k k _).trans (if_pos rfl)

theorem readied_changes (s : State) (k : Slot) (x : Ext) :
    s.changesOnly (s.readied k x) policyBlocks :=
  (setExt_changes s k _).andThen (onPlc_changes _ _) (by simp [policyBlocks]) (by simp [policyBlocks])

theorem unopened_changes (s : State) (k : Slot) (x : Ext) :
    s.changesOnly (s.unopened k x) policyBlocks :=
  ((setExt_changes s k _).andThen (report_changes _ _ _ _ _ _) (l := [.dir]) (n := [.dir, .flt])
    (by simp) (by simp)).andThen (onPlc_changes _ _) (by simp [policyBlocks]) (by simp [policyBlocks])

theorem polices_gaveOn (s : State) (k : Slot) (c : Option Ctx) : Polices s (s.gaveOn k c) :=
  ((polices_giveOut s k c).trans (polices_policyPass _ _)).trans (polices_evalPressure _)

/-- R64, R101: what the slot and its claims are once it is READY and given out. -/
theorem gaveOn_readied {s : State} {k : Slot} {x : Ext} (c : Option Ctx) :
    (∃ y, ((s.readied k x).gaveOn k c).dir.ext[k] = some y ∧ y.readiness = .ready ∧ y.serial = x.serial) ∧
      ((s.readied k x).gaveOn k c).dir.rep = s.dir.rep ∧
      ∀ e ∈ ((s.readied k x).gaveOn k c).plc.claims, e.slot = k → e.phase ≠ .opening := by
  have hp := polices_gaveOn (s.readied k x) k c
  obtain ⟨y, hy, hk⟩ := (hp.ext k).2 _ (readied_get s k x)
  refine ⟨⟨y, hy, hk.readiness, hk.serial⟩, hp.rep, fun e he hs hph => ?_⟩
  obtain ⟨f, hf, hslot, -, hphase⟩ := hp.opening e he hph
  have hkeep := (List.mem_filter.1 (show f ∈ s.plc.claims.filter _ from hf)).2
  rw [← hslot, hs, ← hphase, hph] at hkeep
  simp at hkeep

/-- R50, R101: what an opening that failed leaves. -/
theorem openedFailed_spec {s : State} {k : Slot} {x : Ext} (hx : s.dir.ext[k] = some x) :
    ∃ y, (s.openedFailed k).dir.ext[k] = some y ∧ y.readiness = .openFailed ∧
      s.counted (s.openedFailed k) .openFailed ∧
      (x.shutDue = none → s.dir.rep.dir[k].isClosing = false → y.shutDue = some .fault ∧
        (s.mem.state = .member →
          s.bus.gainedFirst (s.openedFailed k).bus { dest := none, body := .shut k .fault none })) ∧
      (s.openedFailed k).dir.rep = s.dir.rep ∧ s.changesOnly (s.openedFailed k) policyBlocks ∧
      (s.openedFailed k).link = s.link := by
  rw [openedFailed_eq hx]
  have hget := unopened_get s k x
  have hpass := polices_policyPass ((s.unopened k x).decideShut k .fault)
  have hp := (polices_decideShut (s.unopened k x) k .fault none).trans hpass
  obtain ⟨y, hy, hk⟩ := (hp.ext k).2 _ hget
  refine ⟨y, hy, hk.readiness, ?_, fun hdue hcl => ?_, hp.rep,
    (unopened_changes s k x).andThen hp.changesOnly (fun _ => id) (fun _ => id), hp.link⟩
  · exact (report_counted (s.setExt k (some { x with readiness := .openFailed })) _ _ _ _ _).congr rfl
      (congrArg (·[Cause.openFailed.index]) hp.counts)
  · have hna : (s.unopened k x).shutApplied k = false := by
      rw [Bool.eq_false_iff]
      intro h
      obtain ⟨kd, g, c, a, hc⟩ := (shutApplied_iff _ k).1 h
      rw [show s.dir.rep.dir[k] = _ from hc] at hcl
      cases hcl
    obtain ⟨⟨z, hz, hzd, -⟩, hfirst⟩ := decideShut_stands (c := .fault) (r := none) hget hdue hna
      (queues_policyPass ((s.unopened k x).decideShut k .fault) [] (cs := [.full]) (by simp))
    rw [hy] at hz
    cases hz
    exact ⟨hzd, hfirst⟩

/-! ### The end of a close (R104, R105, R149, R151, R154) -/

/-- What follows a close-report. -/
def State.closeSettled (s : State) (k : Slot) (g : Gen) (expired : Bool) : State :=
  (s.countForRun k g expired).afterClose k g

theorem countForRun_changes (s : State) (k : Slot) (g : Gen) (expired : Bool) :
    s.changesOnly (s.countForRun k g expired) [.mem] := by
  unfold State.countForRun
  split
  · exact onMem_changes s _
  · exact State.changesOnly.refl s _

theorem countForRun_mem (s : State) (k : Slot) (g : Gen) (expired : Bool) :
    (s.countForRun k g expired).mem =
      { s.mem with duty := (s.countForRun k g expired).mem.duty } := by
  unfold State.countForRun
  split <;> rfl

theorem countForRun_state (s : State) (k : Slot) (g : Gen) (expired : Bool) :
    (s.countForRun k g expired).mem.state = s.mem.state := by rw [countForRun_mem]

theorem countForRun_adoptionOf (s : State) (k : Slot) (g : Gen) (expired : Bool) (j : Slot) (f : Gen) :
    (s.countForRun k g expired).adoptionOf j f = s.adoptionOf j f := by
  unfold State.adoptionOf
  rw [countForRun_mem]

theorem queueShutDone_changes (s : State) (k : Slot) : s.changesOnly (s.queueShutDone k) [.bus, .flt] := by
  unfold State.queueShutDone
  split
  · split
    · exact State.changesOnly.refl s _
    · exact (queueFrame_changes s _).mono (by simp)
    · split
      · exact (queueFrame_changes s _).mono (by simp)
      · exact (report_changes s _ _ _ _ _).andThen (queueFrame_changes _ _) (by simp) (by simp)
  · exact State.changesOnly.refl s _

/-- R105: the SHUT-DONE of the second failure is reported; nothing else is. -/
theorem queueShutDone_count_other (s : State) (k : Slot) {c : Cause}
    (hc : c.index ≠ Cause.closeFailed.index) :
    (s.queueShutDone k).flt.counts[c.index] = s.flt.counts[c.index] := by
  unfold State.queueShutDone
  split
  · split
    · rfl
    · rfl
    · split
      · rfl
      · exact report_count_other s _ _ _ _ _ _ hc
  · rfl

/-- R105: the SHUT-DONE that a close-report decides. -/
theorem queueShutDone_gained {s : State} {k : Slot} {y : Ext} {r : CloseReport} (hy : s.dir.ext[k] = some y)
    (hr : y.closeReport = some r) {h : Station} {kd : SlotKind} {g : Gen} {c : ShutCause} {a : Fin 2}
    (hk : s.dir.rep.dir[k] = .closing h kd g c a) {o : ShutOutcome}
    (ho : o = (if r = .closed then .closed else if a = 0 then .retrying else .quarantined)) :
    s.bus.gained (s.queueShutDone k).bus { dest := none, body := .shutDone k o } ∧
      (o = .quarantined → s.counted (s.queueShutDone k) .closeFailed) := by
  unfold State.queueShutDone
  rw [hy, hk]
  dsimp only
  rw [hr]
  cases r with
  | closed => subst ho; exact ⟨Bus.queue_gained s.bus _, by simp⟩
  | failed =>
    dsimp only
    by_cases ha : a = 0
    · rw [if_pos ha]
      have : o = .retrying := by rw [ho, if_neg (by decide), if_pos ha]
      subst this
      exact ⟨Bus.queue_gained s.bus _, by simp⟩
    · rw [if_neg ha]
      have : o = .quarantined := by rw [ho, if_neg (by decide), if_neg ha]
      subst this
      exact ⟨Bus.queue_gained s.bus _, fun _ => report_counted s _ _ _ _ _⟩

/-- R105: the SHUT-DONE is queued in MEMBER. -/
def State.reportedClose (s : State) (k : Slot) : State :=
  if s.mem.state = .member then s.queueShutDone k else s

theorem reportedClose_changes (s : State) (k : Slot) : s.changesOnly (s.reportedClose k) [.bus, .flt] := by
  unfold State.reportedClose
  split
  · exact queueShutDone_changes s k
  · exact State.changesOnly.refl s _

theorem reportedClose_count_other (s : State) (k : Slot) {c : Cause}
    (hc : c.index ≠ Cause.closeFailed.index) :
    (s.reportedClose k).flt.counts[c.index] = s.flt.counts[c.index] := by
  unfold State.reportedClose
  split
  · exact queueShutDone_count_other s k hc
  · rfl

theorem closeSettled_eq (s : State) (k : Slot) (g : Gen) (expired : Bool) :
    s.closeSettled k g expired =
      if (s.adoptionOf k g).isSome then ((s.countForRun k g expired).reportedClose k).dutyEval
      else (s.countForRun k g expired).reportedClose k := by
  have hmem := (reportedClose_changes (s.countForRun k g expired) k).1 .mem (by simp)
  have hadopt : ((s.countForRun k g expired).reportedClose k).adoptionOf k g = s.adoptionOf k g := by
    rw [← countForRun_adoptionOf s k g expired k g]
    unfold State.adoptionOf
    rw [show _ = _ from hmem]
  rw [← hadopt]
  rfl

theorem closeSettled_evaluates (s : State) (k : Slot) (g : Gen) (expired : Bool) :
    Evaluates ((s.countForRun k g expired).reportedClose k) (s.closeSettled k g expired) := by
  rw [closeSettled_eq]
  split
  · exact evaluates_dutyEval _
  · exact Evaluates.refl _

theorem closeSettled_changes (s : State) (k : Slot) (g : Gen) (expired : Bool) :
    s.changesOnly (s.closeSettled k g expired) dutyBlocks :=
  ((countForRun_changes s k g expired).andThen (reportedClose_changes _ k) (n := dutyBlocks)
    (by simp [dutyBlocks]) (by simp [dutyBlocks])).andThen (closeSettled_evaluates s k g expired).changes
      (fun _ => id) (fun _ => id)

theorem closeSettled_count_other (s : State) (k : Slot) (g : Gen) (expired : Bool) {c : Cause}
    (hc : c.index ≠ Cause.closeFailed.index) (hd : c ≠ .takeoverFailed) :
    (s.closeSettled k g expired).flt.counts[c.index] = s.flt.counts[c.index] := by
  have hflt := (countForRun_changes s k g expired).1 .flt (by simp)
  exact ((closeSettled_evaluates s k g expired).others c hd).trans
    ((reportedClose_count_other _ k hc).trans (congrArg (fun f : Faults => f.counts[c.index]) hflt))

theorem closeAnswered_closeSettled {s : State} {k : Slot} {g : Gen} {r : CloseReport} {y : Ext}
    (hy : s.dir.ext[k] = some y) (hr : y.closeReport = some r) (expired : Bool) :
    s.closeAnswered (s.closeSettled k g expired) k g r := by
  have heval := closeSettled_evaluates s k g expired
  have hc := countForRun_changes s k g expired
  have heq := closeSettled_eq s k g expired
  have hst : (s.countForRun k g expired).mem.state = s.mem.state :=
    countForRun_state s k g expired
  have hdir : (s.countForRun k g expired).dir = s.dir := hc.1 .dir (by simp)
  have hbus : (s.countForRun k g expired).bus = s.bus := hc.1 .bus (by simp)
  have hflt : (s.countForRun k g expired).flt = s.flt := hc.1 .flt (by simp)
  generalize s.countForRun k g expired = u at *
  refine ⟨fun hm => ?_, fun hm h kd sg c a o hk ho => ?_⟩
  · have hrep : u.reportedClose k = u := if_neg (by rw [hst]; exact hm)
    rw [heq, hrep, dutyEval_idle (by rw [hst]; exact hm)]
    simp only [ite_self, hbus]
  · have hrep : u.reportedClose k = u.queueShutDone k := if_pos (hst.trans hm)
    obtain ⟨hgain, hcount⟩ := queueShutDone_gained (s := u) (by rw [hdir]; exact hy) hr
      (by rw [hdir]; exact hk) ho
    rw [hrep] at heval heq
    refine ⟨heval.carries _ rfl (Bus.gained_carries hgain), fun hq => ?_, fun hno => ?_⟩
    · exact (hcount hq).congr (by rw [hflt]) (heval.others _ (by decide))
    · have hnone : s.adoptionOf k g = none := by
        unfold State.adoptionOf
        rw [List.find?_eq_none]
        intro ad had
        simpa using hno ad had
      rw [heq, hnone, ← hbus]
      exact hgain

theorem countForRun_get {s : State} {k : Slot} {g : Gen} {ad : Adoption} {d : Duty}
    (ha : s.adoptionOf k g = some ad) (hd : s.mem.duty[ad.former] = some d) (expired : Bool) :
    (s.countForRun k g expired).mem.duty[ad.former] = some (d.counted k expired) := by
  unfold State.countForRun
  rw [ha]
  refine (put_get _ _ _ _).trans ((if_pos rfl).trans ?_)
  rw [hd]
  rfl

theorem Duty.counted_running {d : Duty} (h : d.phase = .running) (k : Slot) (expired : Bool) :
    d.counted k expired =
      if 2 ≤ d.timeouts then d
      else if expired then { d with timeouts := d.timeouts + 1, lastTimeout := some k }
      else { d with timeouts := 0 } := by
  unfold Duty.counted
  by_cases ht : 2 ≤ d.timeouts
  · rw [if_pos ht, if_neg fun hc => absurd hc.2 (by omega)]
  · rw [if_neg ht, if_pos ⟨h, by omega⟩]

theorem countedForRun_closeSettled (s : State) (k : Slot) (g : Gen) (expired : Bool) :
    s.countedForRun (s.closeSettled k g expired) k g expired := by
  intro pre ad post d hl hk hg hpre hd hrun d' hd'
  have hadopt : s.adoptionOf k g = some ad := by
    unfold State.adoptionOf
    rw [List.find?_eq_some_iff_append]
    refine ⟨by simp [hk, hg], pre, post, hl, fun x hx => ?_⟩
    simpa [imp_iff_not_or] using hpre x hx
  rw [← Duty.counted_running hrun] at hd'
  have hget := countForRun_get hadopt hd expired
  rw [← hd'] at hget
  have hmem : ad ∈ (s.countForRun k g expired).mem.adoption := by
    rw [countForRun_mem]
    exact hl ▸ List.mem_append_right _ List.mem_cons_self
  have hphase : d'.phase = .running := by
    rw [hd', Duty.counted]
    split
    · split <;> exact hrun
    · exact hrun
  have hst : (s.countForRun k g expired).mem.state = s.mem.state :=
    countForRun_state s k g expired
  have hflt : (s.countForRun k g expired).flt = s.flt :=
    (countForRun_changes s k g expired).1 .flt (by simp)
  have hcount := reportedClose_count_other (s.countForRun k g expired) k
    (c := .takeoverFailed) (by decide)
  have hrmem := (reportedClose_changes (s.countForRun k g expired) k).1 .mem (by simp)
  rw [closeSettled_eq, hadopt, if_pos Option.isSome_some]
  generalize (s.countForRun k g expired).reportedClose k = w at *
  generalize s.countForRun k g expired = u at *
  rw [hflt] at hcount
  rw [← (show w.mem = u.mem from hrmem)] at hget hmem hst
  refine ⟨fun h => ?_, fun hm ht => ?_⟩
  · by_cases hm : w.mem.state = .member
    · exact dutyEval_kept hget fun _ => ⟨h.resolve_left fun hn => hn (hst.symm.trans hm),
        .inr ⟨ad, hmem, rfl⟩⟩
    · rw [dutyEval_idle hm]
      exact hget
  · rw [← hcount]
    exact dutyEval_failed (hst.trans hm) hget hphase ht (.inr ⟨ad, hmem, rfl⟩)

theorem State.closeAnswered.congr {s w t : State} {k : Slot} {g : Gen} {r : CloseReport}
    (h : w.closeAnswered t k g r) (hb : w.bus = s.bus) (hm : w.mem = s.mem) (hr : w.dir.rep = s.dir.rep)
    (hc : s.flt.counts[Cause.closeFailed.index] = w.flt.counts[Cause.closeFailed.index]) :
    s.closeAnswered t k g r := by
  unfold State.closeAnswered at *
  rw [hb, hm, hr] at h
  refine ⟨h.1, fun hst hd kd sg c a o hk ho => ?_⟩
  obtain ⟨hcar, hq, hg⟩ := h.2 hst hd kd sg c a o hk ho
  exact ⟨hcar, fun hqu => (hq hqu).congr hc rfl, hg⟩

theorem State.countedForRun.congr {s w t : State} {k : Slot} {g : Gen} {expired : Bool}
    (h : w.countedForRun t k g expired) (hm : w.mem = s.mem)
    (hc : s.flt.counts[Cause.takeoverFailed.index] = w.flt.counts[Cause.takeoverFailed.index]) :
    s.countedForRun t k g expired := by
  unfold State.countedForRun at *
  rw [hm, ← hc] at h
  exact h

/-- The extension of a slot whose CLOSE-ORDER has been answered. -/
def Ext.answeredClose (x : Ext) (r : CloseReport) : Ext :=
  { x with closeOrderIssued := false, closeReport := some r, reportSent := none }

theorem closeReported_eq {s : State} {k : Slot} {g : Gen} {x : Ext} (hx : s.dir.ext[k] = some x)
    (hg : x.serial = g) (r : CloseReport) :
    s.closeReported k g r = s.setExt k (some (x.answeredClose r)) := by
  simp only [State.closeReported, State.onExt, hx, if_pos hg]
  rfl

/-- R104, R105, R149: what a close-report leads to. -/
theorem closeEnded_spec {s : State} {k : Slot} {g : Gen} {x : Ext} (hx : s.dir.ext[k] = some x)
    (hg : x.serial = g) (r : CloseReport) :
    ∃ y, (s.closeEnded k g r).dir.ext[k] = some y ∧ y.closeReport = some r ∧
      y.closeOrderIssued = false ∧ (s.closeEnded k g r).dir.rep = s.dir.rep ∧
      s.closeAnswered (s.closeEnded k g r) k g r ∧ s.countedForRun (s.closeEnded k g r) k g false ∧
      s.changesOnly (s.closeEnded k g r) [.dir, .bus, .mem, .flt] := by
  have heq : s.closeEnded k g r = (s.setExt k (some (x.answeredClose r))).closeSettled k g false := by
    rw [← closeReported_eq hx hg r]
    rfl
  have hc := closeSettled_changes (s.setExt k (some (x.answeredClose r))) k g false
  have hdir := hc.1 .dir (by simp [dutyBlocks])
  have hget : (s.setExt k (some (x.answeredClose r))).dir.ext[k] = some (x.answeredClose r) :=
    (setExt_get s k k _).trans (if_pos rfl)
  rw [heq]
  refine ⟨x.answeredClose r, (congrArg (fun d : Directory => d.ext[k]) hdir).trans hget, rfl, rfl,
    (congrArg (fun d : Directory => d.rep) hdir :), (closeAnswered_closeSettled hget rfl false).congr rfl rfl rfl rfl,
    (countedForRun_closeSettled _ k g false).congr rfl rfl,
    (setExt_changes s k _).andThen hc (by simp) (by simp [dutyBlocks])⟩

/-- The close timeout has left its place and been reported. -/
def State.closeLapsed (s : State) (k : Slot) (x : Ext) : State :=
  (s.setExt k (some (x.answeredClose .failed))).report .closeTimeout (slot := slotByte k)

/-- R104, R105, R149: what a close timeout leads to. -/
theorem closeLapsed_spec {s : State} {k : Slot} (g : Gen) {x : Ext} :
    ∃ y, ((s.closeLapsed k x).closeSettled k g true).dir.ext[k] = some y ∧
      y.closeReport = some .failed ∧ s.counted ((s.closeLapsed k x).closeSettled k g true) .closeTimeout ∧
      s.closeAnswered ((s.closeLapsed k x).closeSettled k g true) k g .failed ∧
      s.countedForRun ((s.closeLapsed k x).closeSettled k g true) k g true ∧
      s.changesOnly ((s.closeLapsed k x).closeSettled k g true) [.dir, .bus, .mem, .flt] := by
  have hc := closeSettled_changes (s.closeLapsed k x) k g true
  have hdir := hc.1 .dir (by simp [dutyBlocks])
  have hget : (s.closeLapsed k x).dir.ext[k] = some (x.answeredClose .failed) :=
    (setExt_get s k k _).trans (if_pos rfl)
  have hother (c : Cause) (h : c.index ≠ Cause.closeTimeout.index) :
      s.flt.counts[c.index] = (s.closeLapsed k x).flt.counts[c.index] :=
    (report_count_other (s.setExt k (some (x.answeredClose .failed))) _ _ _ _ _ _ h).symm
  have hcount : s.counted (s.closeLapsed k x) .closeTimeout :=
    report_counted (s.setExt k (some (x.answeredClose .failed))) _ _ _ _ _
  refine ⟨x.answeredClose .failed, (congrArg (fun d : Directory => d.ext[k]) hdir).trans hget, rfl,
    hcount.congr rfl (closeSettled_count_other _ k g true (by decide) (by decide)),
    (closeAnswered_closeSettled hget rfl true).congr rfl rfl rfl (hother _ (by decide)),
    (countedForRun_closeSettled _ k g true).congr rfl (hother _ (by decide)), ?_⟩
  exact ((setExt_changes s k _).andThen (report_changes _ _ _ _ _ _) (l := [.dir]) (n := [.dir, .flt])
    (by simp) (by simp)).andThen hc (by simp) (by simp [dutyBlocks])

/-! ### Timers of the trackers (R104, R163) -/

/-- A tracker place has been freed. -/
def State.withOpens (s : State) (l : List TrackPlace) : State := { s with link := { s.link with opens := l } }

/-- A tracker place has been freed. -/
def State.withCloses (s : State) (l : List TrackPlace) : State := { s with link := { s.link with closes := l } }

theorem withOpens_changes (s : State) (l : List TrackPlace) : s.changesOnly (s.withOpens l) [.link] :=
  onLink_changes s fun _ => (s.withOpens l).link

theorem withCloses_changes (s : State) (l : List TrackPlace) : s.changesOnly (s.withCloses l) [.link] :=
  onLink_changes s fun _ => (s.withCloses l).link

theorem isLive_iff (p : TrackPlace) (k : Slot) (g : Gen) :
    p.isLive k g = true ↔ (p.slot = k ∧ p.serial = g) ∧ ∃ n, p.timer = .live n := by
  rw [TrackPlace.isLive, Bool.and_eq_true, isFor_iff, Bool.not_eq_true', isReleased_false_iff]

theorem live_not_released {p : TrackPlace} {n : Option Nat} (h : p.timer = .live n) (m : Nat) :
    p.timer ≠ .released m := by rw [h]; simp

theorem freeReleased_eq {k : Slot} {g : Gen} {p : TrackPlace} {pre post : List TrackPlace} {n : Nat}
    (hk : p.slot = k) (hg : p.serial = g) (hn : p.timer = .released n)
    (hpre : ∀ q ∈ pre, q.slot = k → q.serial = g → ∃ m, q.timer = .live m) :
    freeReleased (pre ++ p :: post) k g = pre ++ post := by
  refine (eraseP_split ?_ fun q hq => ?_).1
  · rw [(isFor_iff p k g).2 ⟨hk, hg⟩, (isReleased_iff p).2 ⟨n, hn⟩]
    rfl
  · rw [Bool.eq_false_iff]
    intro h
    obtain ⟨hfor, hrel⟩ := Bool.and_eq_true_iff.1 h
    obtain ⟨hs, hser⟩ := (isFor_iff q k g).1 hfor
    obtain ⟨m, hm⟩ := (isReleased_iff q).1 hrel
    obtain ⟨m', hm'⟩ := hpre q hq hs hser
    exact live_not_released hm' m hm

/-- R163: a release hold ends. -/
theorem exec_releaseHold {s : State} (hs : s.rst = none) (tr : Tracker) (k : Slot) (g : Gen) :
    exec (.releaseHoldExpiry tr k g) s = .next (s.onLink fun l => match tr with
      | .opens => { l with opens := freeReleased l.opens k g }
      | .closes => { l with closes := freeReleased l.closes k g }).settled := by
  have hstep : execReleaseHoldExpiry tr k g s = _ := live_settled _ hs
  refine hstep.trans ?_
  cases tr <;> rfl

/-- R104: the close timeout of a place that no completion matched. -/
theorem exec_closeTimeout {s : State} (hs : s.rst = none) {k : Slot} {g : Gen} {p : TrackPlace}
    {pre post : List TrackPlace} {n : Option Nat} {x : Ext} (hl : s.link.closes = pre ++ p :: post)
    (hk : p.slot = k) (hg : p.serial = g) (hn : p.timer = .live n) (hx : s.dir.ext[k] = some x)
    (hxg : x.serial = g)
    (hpre : ∀ q ∈ pre, q.slot = k → q.serial = g → ∃ m, q.timer = .released m) :
    exec (.closeTimeoutExpiry k g) s =
      .next (((s.withCloses (pre ++ post)).closeLapsed k x).closeSettled k g true).settled := by
  have hlive : p.isLive k g = true := (isLive_iff p k g).2 ⟨⟨hk, hg⟩, n, hn⟩
  have hany : s.link.closes.any (·.isLive k g) = true := by
    rw [hl, List.any_append, List.any_cons, hlive]
    simp
  have herase : s.link.closes.eraseP (·.isLive k g) = pre ++ post := by
    rw [hl]
    refine (eraseP_split hlive fun q hq => ?_).1
    rw [Bool.eq_false_iff]
    intro h
    obtain ⟨⟨hs, hser⟩, m, hm⟩ := (isLive_iff q k g).1 h
    obtain ⟨m', hm'⟩ := hpre q hq hs hser
    exact live_not_released hm m' hm'
  change execCloseTimeoutExpiry k g s = _
  unfold execCloseTimeoutExpiry
  rw [live_settled _ hs, if_pos hany]
  unfold State.closeTimedOut State.onLink
  dsimp only
  rw [herase, closeReported_eq (s := { s with link := { s.link with closes := pre ++ post } }) hx hxg]
  rfl

/-! ### The completions of an incarnation -/

/-- R163: a completion of a released place frees it. -/
theorem exec_openReady_released {s : State} (hs : s.rst = none) (ho : s.link.state = .operating) {k : Slot}
    {g : Gen} {p : TrackPlace} {pre post : List TrackPlace} (hl : s.link.opens = pre ++ p :: post)
    (hk : p.slot = k) (hg : p.serial = g) (hpre : ∀ q ∈ pre, q.slot = k → q.serial ≠ g)
    (hrel : ∃ n, p.timer = .released n) {o : CompletionOutcome} (hout : o = .ok ∨ o = .failed) :
    exec (.openReady (BitVec.ofNat 8 k.val) g o) s = .next (s.withOpens (pre ++ post)).settled := by
  have hopen (ok : Bool) : s.openReady (BitVec.ofNat 8 k.val) g ok = s.withOpens (pre ++ post) :=
    (openReady_matched hl hk hg hpre ok).trans
      ((if_pos ((isReleased_iff p).2 hrel)).trans (freeOpen_eq hl hk hg hpre).1)
  refine (exec_openReady hs ho _ g o).trans ?_
  rcases hout with rfl | rfl <;> simp only [hopen]

theorem exec_closeDone_released {s : State} (hs : s.rst = none) (ho : s.link.state = .operating) {k : Slot}
    {g : Gen} {p : TrackPlace} {pre post : List TrackPlace} (hl : s.link.closes = pre ++ p :: post)
    (hk : p.slot = k) (hg : p.serial = g) (hpre : ∀ q ∈ pre, q.slot = k → q.serial ≠ g)
    (hrel : ∃ n, p.timer = .released n) {o : CompletionOutcome} (hout : o = .closed ∨ o = .failed) :
    exec (.closeDone (BitVec.ofNat 8 k.val) g o) s = .next (s.withCloses (pre ++ post)).settled := by
  have hclose (r : CloseReport) : s.closeDone (BitVec.ofNat 8 k.val) g r = s.withCloses (pre ++ post) :=
    (closeDone_matched hl hk hg hpre r).trans
      ((if_pos ((isReleased_iff p).2 hrel)).trans (freeClose_eq hl hk hg hpre).1)
  refine (exec_closeDone hs ho _ g o).trans ?_
  rcases hout with rfl | rfl <;> simp only [hclose]

/-- R101: a completion of an opening that is awaited acts. -/
theorem exec_openReady_live {s : State} (hs : s.rst = none) (ho : s.link.state = .operating) {k : Slot}
    {g : Gen} {p : TrackPlace} {pre post : List TrackPlace} (hl : s.link.opens = pre ++ p :: post)
    (hk : p.slot = k) (hg : p.serial = g) (hpre : ∀ q ∈ pre, q.slot = k → q.serial ≠ g) {n : Option Nat}
    (hn : p.timer = .live n) {x : Ext} (hx : s.dir.ext[k] = some x) (hxg : x.serial = g)
    (hr : x.readiness = .awaitingOpen) :
    exec (.openReady (BitVec.ofNat 8 k.val) g .ok) s =
        .next (((s.withOpens (pre ++ post)).readied k x).gaveOn k
          ((s.openingEntry k).bind (·.claimant))).settled ∧
      exec (.openReady (BitVec.ofNat 8 k.val) g .failed) s =
        .next ((s.withOpens (pre ++ post)).openedFailed k).settled := by
  have hrel := (isReleased_false_iff p).2 ⟨n, hn⟩
  have hopen (ok : Bool) : s.openReady (BitVec.ofNat 8 k.val) g ok =
      (s.withOpens (pre ++ post)).opened k g ok :=
    (openReady_matched hl hk hg hpre ok).trans
      ((if_neg (by rw [hrel]; decide)).trans (congrArg (fun u : State => u.opened k g ok)
        (freeOpen_eq hl hk hg hpre).1))
  simp only [opened_awaiting (s := s.withOpens (pre ++ post)) hx hxg hr] at hopen
  refine ⟨(exec_openReady hs ho _ g .ok).trans ?_, (exec_openReady hs ho _ g .failed).trans ?_⟩
  · simp only [hopen, if_true]
    rw [openedOk_eq (s := s.withOpens (pre ++ post)) hx]
    rfl
  · simp only [hopen, Bool.false_eq_true, if_false]

/-- R104: a completion of a close acts. -/
theorem exec_closeDone_live {s : State} (hs : s.rst = none) (ho : s.link.state = .operating) {k : Slot}
    {g : Gen} {p : TrackPlace} {pre post : List TrackPlace} (hl : s.link.closes = pre ++ p :: post)
    (hk : p.slot = k) (hg : p.serial = g) (hpre : ∀ q ∈ pre, q.slot = k → q.serial ≠ g) {n : Option Nat}
    (hn : p.timer = .live n) {o : CompletionOutcome} {r : CloseReport}
    (hor : o = .closed ∧ r = .closed ∨ o = .failed ∧ r = .failed) :
    exec (.closeDone (BitVec.ofNat 8 k.val) g o) s =
      .next ((s.withCloses (pre ++ post)).closeEnded k g r).settled := by
  have hrel := (isReleased_false_iff p).2 ⟨n, hn⟩
  have hclose : s.closeDone (BitVec.ofNat 8 k.val) g r = (s.withCloses (pre ++ post)).closeEnded k g r :=
    (closeDone_matched hl hk hg hpre r).trans
      ((if_neg (by rw [hrel]; decide)).trans (congrArg (fun u : State => u.closeEnded k g r)
        (freeClose_eq hl hk hg hpre).1))
  refine (exec_closeDone hs ho _ g o).trans ?_
  rcases hor with ⟨rfl, rfl⟩ | ⟨rfl, rfl⟩ <;> simp only [hclose]

/-- R64, R101: what a slot that has become READY leaves. -/
theorem readied_settled {s : State} {k : Slot} {x : Ext} {g : Gen} {l : List TrackPlace} (hxg : x.serial = g)
    {c : Option Ctx} {t : State} (ht : t = ((s.withOpens l).readied k x).gaveOn k c) :
    ∃ y, t.settled.dir.ext[k] = some y ∧ t.settled.link = { s.link with opens := l } ∧
      y.readiness = .ready ∧ y.serial = g ∧ t.settled.dir.rep = s.dir.rep ∧
      (∀ e ∈ t.settled.plc.claims, e.slot = k → e.phase ≠ .opening) ∧
      ((s.withOpens l).readied k x).gaveOut t.settled k c ∧ s.frame t.settled (.link :: policyBlocks) := by
  have hp := polices_gaveOn ((s.withOpens l).readied k x) k c
  have hgave := gaveOut_giveOut (k := k) (s := (s.withOpens l).readied k x)
    (fun z hz => by rw [readied_get] at hz; cases hz; rfl) c
  obtain ⟨⟨y, hy, hyr, hys⟩, hrep, hclaims⟩ := gaveOn_readied (s := s.withOpens l) (k := k) (x := x) c
  have hframe := (withOpens_changes s l).andThen (n := .link :: policyBlocks)
    ((readied_changes (s.withOpens l) k x).andThen hp.changesOnly (fun _ => id) (fun _ => id))
    (by simp) fun _ hb => List.mem_cons_of_mem _ hb
  have hlink := hp.link
  rw [← ht] at *
  exact ⟨y, hy, hlink, hyr, hys.trans hxg, hrep, hclaims, hgave, frame_of_changes hframe (by simp [policyBlocks])⟩

/-- Settles O58: a completion frees the place it matches and acts for the incarnation there. -/
theorem completionsMatched : Obligations.CompletionsMatched := by
  intro s hs
  refine ⟨fun hw => ⟨fun c b g o tg hc => ⟨_, exec_portWait hs hw hc, frame_idle s⟩, ?_⟩, fun ho c hc => ?_,
    fun ho k g p pre post hk hg hpre => ⟨fun hl => ⟨fun hrel o hout => ?_, fun n x hn hx hxg hr => ?_⟩,
      fun hl => ⟨fun hrel o hout => ?_, fun n x r o hn hx hxg hor => ?_⟩⟩,
    fun k g p pre post hk hg => ⟨fun n x hl hn hx hxg hpre => ?_, fun n hl hn hpre => ?_,
      fun n hl hn hpre => ?_⟩⟩
  · have hx : execPortClean s = _ := live_settled _ hs
    simp only [hw] at hx
    exact ⟨_, hx, rfl, frame_of_changes (onLink_changes s _) (by simp)⟩
  · obtain ⟨b, hx⟩ := completion_unmatched hs ho hc
    exact ⟨_, hx, unknown_spec s b⟩
  · exact ⟨_, exec_openReady_released hs ho hl hk hg hpre hrel hout, rfl,
      frame_of_changes (withOpens_changes s _) (by simp)⟩
  · obtain ⟨hok, hfailed⟩ := exec_openReady_live hs ho hl hk hg hpre hn hx hxg hr
    refine ⟨?_, ?_⟩
    · obtain ⟨y, hy, hlink, hyr, hys, hrep, hclaims, hgave, hframe⟩ :=
        readied_settled (s := s) (k := k) (l := pre ++ post) hxg (c := (s.openingEntry k).bind (·.claimant)) rfl
      refine ⟨_, y, hok, hy, hlink, hyr, hys, hrep, hclaims, ?_, hframe⟩
      rintro u rfl
      exact hgave
    · obtain ⟨y, hy, hyr, hcount, hshut, hrep, hc, hlink⟩ :=
        openedFailed_spec (s := s.withOpens (pre ++ post)) hx
      have hframe := (withOpens_changes s (pre ++ post)).andThen hc (n := .link :: policyBlocks)
        (by simp) fun _ hb => List.mem_cons_of_mem _ hb
      generalize (s.withOpens (pre ++ post)).openedFailed k = t at *
      exact ⟨_, y, hfailed, hy, hlink, hyr, hcount, hshut, hrep,
        frame_of_changes hframe (by simp [policyBlocks])⟩
  · exact ⟨_, exec_closeDone_released hs ho hl hk hg hpre hrel hout, rfl,
      frame_of_changes (withCloses_changes s _) (by simp)⟩
  · obtain ⟨y, hy, hyr, hyo, hrep, hans, hrun, hc⟩ :=
      closeEnded_spec (s := s.withCloses (pre ++ post)) hx hxg r
    have hstep := exec_closeDone_live hs ho hl hk hg hpre hn hor
    have hlink := hc.1 .link (by simp)
    have hframe := (withCloses_changes s (pre ++ post)).andThen hc
      (n := [.dir, .bus, .mem, .link, .flt]) (by simp) (by simp)
    generalize (s.withCloses (pre ++ post)).closeEnded k g r = t at *
    exact ⟨_, y, hstep, hy, hlink, hyr, hyo, hrep, hans, hrun, frame_of_changes hframe (by simp)⟩
  · obtain ⟨y, hy, hyr, hcount, hans, hrun, hc⟩ :=
      closeLapsed_spec (s := s.withCloses (pre ++ post)) (k := k) g (x := x)
    have hstep := exec_closeTimeout hs hl hk hg hn hx hxg hpre
    have hlink := hc.1 .link (by simp)
    have hframe := (withCloses_changes s (pre ++ post)).andThen hc
      (n := [.dir, .bus, .mem, .link, .flt]) (by simp) (by simp)
    generalize ((s.withCloses (pre ++ post)).closeLapsed k x).closeSettled k g true = t at *
    exact ⟨_, y, hstep, hy, hlink, hyr, hcount, hans, hrun, frame_of_changes hframe (by simp)⟩
  · refine ⟨_, exec_releaseHold hs .opens k g, ?_, frame_of_changes (onLink_changes s _) (by simp)⟩
    change ({ s.link with opens := freeReleased s.link.opens k g } : Link) = _
    rw [hl, freeReleased_eq hk hg hn hpre]
  · refine ⟨_, exec_releaseHold hs .closes k g, ?_, frame_of_changes (onLink_changes s _) (by simp)⟩
    change ({ s.link with closes := freeReleased s.link.closes k g } : Link) = _
    rw [hl, freeReleased_eq hk hg hn hpre]

end Sys2Proof.Machine
end

