-- ==== Sys2Proof/Proofs/Contention.lean ====
section
/-! SUPPORT. The contention event (R78, R79, R80, R87, R97): the check of one head after another, the start of
a frame, and the work that withdrawals lead to. -/

namespace Sys2Proof.Machine

/-! ### The head of the transmit queue while work is done -/

/-- Work that leaves the bus as a transmission reads it: what is being sent, the receiver, the medium, and
the head, but for a SHUT of an orphan that is not on the medium. -/
structure Heads (s t : State) : Prop where
  sending : t.bus.sending = s.bus.sending
  receiver : t.bus.receiver = s.bus.receiver
  mediumBusy : t.bus.mediumBusy = s.bus.mediumBusy
  head : ∀ q, s.bus.tx.head? = some q → (s.bus.sending.isSome ∨ q.body.isAdopting = false) →
    t.bus.tx.head? = some q

namespace Heads

theorem of_bus {s t : State} (h : t.bus = s.bus) : Heads s t :=
  ⟨by rw [h], by rw [h], by rw [h], fun q hq _ => by rw [h, hq]⟩

theorem refl (s : State) : Heads s s := of_bus rfl

theorem trans {s t u : State} (h : Heads s t) (g : Heads t u) : Heads s u where
  sending := g.sending.trans h.sending
  receiver := g.receiver.trans h.receiver
  mediumBusy := g.mediumBusy.trans h.mediumBusy
  head := fun q hq hc => g.head q (h.head q hq hc) (by rw [h.sending]; exact hc)

theorem ite {s t u : State} {c : Prop} [Decidable c] (h : Heads s t) (g : Heads s u) :
    Heads s (if c then t else u) := by
  split
  · exact h
  · exact g

theorem foldl {α : Type} (f : State → α → State) (h : ∀ s x, Heads s (f s x)) (l : List α) (s : State) :
    Heads s (l.foldl f s) := by
  induction l generalizing s with
  | nil => exact refl s
  | cons x l ih => exact (h s x).trans (ih _)

end Heads

theorem heads_of_polices {s t : State} (h : Polices s t) : Heads s t where
  sending := h.sending
  receiver := h.receiver
  mediumBusy := h.mediumBusy
  head := fun q hq _ => by
    obtain ⟨l, hl⟩ := h.tx
    rw [hl, List.head?_append, hq]
    rfl

theorem heads_queueFrame (s : State) (b : Body) : Heads s (s.queueFrame b) where
  sending := (congrArg Bus.sending (Bus.queue_rest s.bus _) :)
  receiver := (congrArg Bus.receiver (Bus.queue_rest s.bus _) :)
  mediumBusy := (congrArg Bus.mediumBusy (Bus.queue_rest s.bus _) :)
  head := fun q hq _ => by
    change (s.bus.queue _).tx.head? = _
    unfold Bus.queue
    split
    · rw [List.head?_append, hq]
      rfl
    · exact hq

theorem heads_queued {s u : State} {b : Body} (h : u.bus = s.bus) : Heads s (u.queueFrame b) :=
  (Heads.of_bus h).trans (heads_queueFrame u b)

/-- R151: a withdrawal of SHUTs of orphans. -/
theorem heads_withdrawUnsent (s : State) {p : QFrame → Bool} (hp : ∀ q, p q = true → q.body.isAdopting = true) :
    Heads s (s.onBus (·.withdrawUnsent p)) := by
  have hspared {q : QFrame} (h : q.body.isAdopting = false) : p q = false :=
    Bool.eq_false_iff.2 fun hq => by rw [hp q hq] at h; cases h
  cases hs : s.bus.sending with
  | some sg =>
    cases ht : s.bus.tx with
    | nil => refine ⟨?_, ?_, ?_, fun q hq => ?_⟩ <;>
        simp_all [State.onBus, Bus.withdrawUnsent, Bus.withdraw]
    | cons x l => refine ⟨?_, ?_, ?_, fun q hq => ?_⟩ <;>
        simp_all [State.onBus, Bus.withdrawUnsent]
  | none =>
    refine ⟨?_, ?_, ?_, fun q hq hc => ?_⟩
    · simp [State.onBus, Bus.withdrawUnsent, Bus.withdraw, hs]
    · simp [State.onBus, Bus.withdrawUnsent, Bus.withdraw, hs]
    · simp [State.onBus, Bus.withdrawUnsent, Bus.withdraw, hs]
    · have hq' : p q = false := hspared (hc.resolve_left (by rw [hs]; simp))
      cases ht : s.bus.tx with
      | nil => rw [ht] at hq; cases hq
      | cons x l =>
        rw [ht] at hq
        cases hq
        simp [State.onBus, Bus.withdrawUnsent, Bus.withdraw, hs, ht, hq']

theorem heads_takeRun (s : State) (h : Station) : Heads s (s.takeRun h) := by
  unfold State.takeRun
  split
  · exact heads_queued rfl
  · exact Heads.refl s

theorem heads_adoptOne (s : State) : Heads s s.adoptOne := by
  unfold State.adoptOne
  repeat' split
  next => exact heads_queued rfl
  all_goals exact Heads.refl s

theorem heads_completeRun (s : State) (h : Station) : Heads s (s.completeRun h) := by
  unfold State.completeRun
  split
  · exact Heads.ite (heads_queued rfl) (Heads.refl s)
  · exact Heads.refl s

theorem heads_runReported (s : State) (h : Station) (d : Duty) : Heads s (s.runReported h d) := by
  unfold State.runReported
  have hpick (q : QFrame) (hq : adoptsOneOf (s.orphansOf h) q.body = true) : q.body.isAdopting = true := by
    obtain ⟨k, a, hb, -⟩ := (adoptsOneOf_iff _ _).1 hq
    rw [hb]
    rfl
  have hreport : Heads s (s.report .takeoverFailed (slot := d.lastTimeout.bind slotByte) (peer := some h)) :=
    Heads.of_bus rfl
  exact hreport.trans (heads_withdrawUnsent _ hpick)

theorem heads_failRun (s : State) (h : Station) : Heads s (s.failRun h) := by
  by_cases hc : ∃ d, s.mem.duty[h] = some d ∧ d.phase = .running ∧ 2 ≤ d.timeouts
  · obtain ⟨d, hd, hr, ht⟩ := hc
    rw [failRun_fails hd hr ht]
    exact (heads_runReported s h d).trans (heads_queued rfl)
  · push Not at hc
    rw [failRun_kept hc]
    exact Heads.refl s

/-- R145: an evaluation leaves the head. -/
theorem heads_dutyEval (s : State) : Heads s s.dutyEval := by
  unfold State.dutyEval
  refine Heads.ite ?_ (Heads.refl s)
  have htake : Heads s s.takeRuns := by
    unfold State.takeRuns
    exact Heads.ite (Heads.foldl _ heads_takeRun _ s) (Heads.refl s)
  exact ((((htake.trans (Heads.foldl _ (fun x _ => heads_adoptOne x) _ _)).trans
    (Heads.foldl _ heads_completeRun _ _)).trans (Heads.foldl _ heads_failRun _ _)).trans
    (Heads.of_bus (testNoAdopter_cases _).1.1))

theorem heads_queueLeave (s : State) : Heads s s.queueLeave := by
  unfold State.queueLeave
  exact Heads.ite (heads_queueFrame s _) (Heads.refl s)

/-! ### The work that withdrawals lead to (R57, R63, R145, R146) -/

theorem heads_settle (c : Contend) : Heads c.st c.settle := by
  unfold Contend.settle
  dsimp only
  have hpass : Heads c.st (if c.ended then c.st.policyPass c.skip else c.st) :=
    Heads.ite (heads_of_polices (polices_policyPass _ _)) (Heads.refl _)
  exact (Heads.trans hpass (Heads.ite (heads_dutyEval _) (Heads.refl _))).trans (heads_queueLeave _)

theorem settle_changes (c : Contend) : c.st.changesOnly c.settle memberBlocks := by
  unfold Contend.settle
  dsimp only
  have hpass : c.st.changesOnly (if c.ended then c.st.policyPass c.skip else c.st) memberBlocks := by
    split
    · exact policyPass_changes _ _
    · exact State.changesOnly.refl _ _
  generalize (if c.ended then c.st.policyPass c.skip else c.st) = u at hpass ⊢
  have hduty : u.changesOnly (if c.duty then u.dutyEval else u) memberBlocks := by
    split
    · exact (dutyEval_changes u).mono (by simp [dutyBlocks, memberBlocks])
    · exact State.changesOnly.refl _ _
  exact (hpass.andThen hduty (fun _ => id) fun _ => id).andThen (queueLeave_changes _) (fun _ => id)
    (by simp [memberBlocks])

/-- The event has withdrawn nothing that leads to work. -/
theorem settle_idle {c : Contend} (he : c.ended = false) (hd : c.duty = false) : c.settle = c.st.queueLeave := by
  simp only [Contend.settle, he, hd, Bool.false_eq_true, if_false]

/-- A frame of policy work has its record while the claims, the directory and the number stand. -/
theorem backed_of_work {s t u : State} {b : Body} (h : s.workOf t [.full] b) (hplc : u.plc = t.plc)
    (hdir : u.dir = t.dir) (hstn : u.mem.stn = s.mem.stn) : u.backed b := by
  unfold State.backed
  rw [hplc, hdir, hstn]
  refine ?body
  cases b
  case body.shut k c r =>
    obtain ⟨hc, x, hx, hdue⟩ := h
    obtain rfl := List.mem_singleton.1 hc
    exact .inl ⟨rfl, x, hx, hdue⟩
  case body.claim k kd => exact h.2
  case body.recall tag r g => exact h.2.2
  all_goals exact h.elim

theorem backed_of_duty {s : State} {b : Body} (h : s.dutyBacked b) : s.backed b := by
  cases b with
  | shut k c r => exact .inr h
  | takeover _ => exact h
  | takeoverEnd _ _ => exact h
  | _ => exact h.elim

/-- The frames that the work of the withdrawals has queued have their records behind them. -/
theorem settle_backed {c : Contend} (hs : c.st.bus.sending = none) (htx : c.st.bus.tx = []) {x : QFrame}
    (hx : x ∈ c.settle.bus.tx ++ c.settle.bus.held) :
    x ∈ c.st.bus.held ∨ x.dest = none ∧ c.settle.backed x.body := by
  have hpass : Queues [.full] c.st (if c.ended then c.st.policyPass c.skip else c.st) :=
    Queues.ite (fun _ => queues_policyPass _ _ (by simp)) (fun _ => Queues.refl _ _)
  unfold Contend.settle at hx ⊢
  dsimp only at hx ⊢
  generalize (if c.ended then c.st.policyPass c.skip else c.st) = u at hpass hx ⊢
  have hduty : Evaluates u (if c.duty then u.dutyEval else u) := by
    split
    · exact evaluates_dutyEval u
    · exact Evaluates.refl u
  generalize (if c.duty then u.dutyEval else u) = v at hduty hx ⊢
  have hlater := queueLeave_changes v
  have hplc : v.queueLeave.plc = v.plc := hlater.1 .plc (by simp)
  have hdir : v.queueLeave.dir = v.dir := hlater.1 .dir (by simp)
  have hmem : v.queueLeave.mem = v.mem := hlater.1 .mem (by simp)
  have hplc' : v.plc = u.plc := hduty.changes.1 .plc (by simp [dutyBlocks])
  have hdir' : v.dir = u.dir := hduty.changes.1 .dir (by simp [dutyBlocks])
  have hstn : v.mem.stn = c.st.mem.stn := by rw [hduty.dutiful.mem, hpass.mem]
  have hidle : v.queueLeave.bus.sending = none := by
    rw [(heads_queueLeave v).sending]
    exact hduty.idle (hpass.sending.trans hs)
  rcases queueLeave_waits (s := v) (q := x) (by rw [Bus.waiting, hidle]; exact hx) with hx | ⟨rfl, -, hheld, hruns⟩
  · rcases hduty.waits x hx with hx | ⟨hdest, hb⟩
    · obtain ⟨l, m, hl, hm, hall⟩ := hpass.frames
      rw [Bus.waiting, hpass.sending.trans hs, hl, hm, htx] at hx
      have hwork (h : x ∈ l ∨ x ∈ m) : x.dest = none ∧ v.queueLeave.backed x.body :=
        ⟨(hall x h).1, backed_of_work (hall x h).2 (hplc.trans hplc') (hdir.trans hdir') (by rw [hmem, hstn])⟩
      rcases List.mem_append.1 hx with hx | hx
      · exact .inr (hwork (.inl hx))
      · exact (List.mem_append.1 hx).imp_right fun hx => hwork (.inr hx)
    · exact .inr ⟨hdest, backed_of_duty (dutyBacked_congr (by rw [hmem]) (by rw [hmem]) hb)⟩
  · refine .inr ⟨rfl, by rw [hmem], ?_, ?_⟩ <;> rw [hdir] <;> assumption

/-! ### The check of one head after another (R97) -/

/-- The event before a head is checked. -/
def Contend.start (s : State) : Contend := { st := s, skip := [], ended := false, duty := false, passed := none }

/-- The medium seen quiet (R78). -/
def State.quieted (s : State) : State := { s with bus := { s.bus with mediumBusy := false } }

/-- R97: the event once the first head has been withdrawn. -/
def State.firstWithdrawn (s : State) (b : Body) : Contend :=
  Contend.withdrawn (Contend.start (s.onBus Bus.popTx)) b

theorem contend_withdraw {s : State} {q : QFrame} {rest : List QFrame} (htx : s.bus.tx = q :: rest)
    (hq : s.check q = .withdraw) (n : Nat) :
    contend (n + 1) (Contend.start s) = contend n (s.firstWithdrawn q.body) := by
  have htx' : (Contend.start s).st.bus.tx = q :: rest := htx
  have hq' : (Contend.start s).st.check q = .withdraw := hq
  rw [contend, htx']
  dsimp only
  rw [hq']
  rfl

/-- R97: the event once a head has passed its check. -/
def Contend.passedBy (c : Contend) (q : QFrame) (rest : List QFrame) (b : Body) : Contend :=
  let s1 := (c.st.onBus fun u => { u with tx := { q with body := b } :: rest }).passing q.body b
  { c with st := s1, passed := some (s1.stamp q.dest b) }

theorem contend_pass {c : Contend} {q : QFrame} {rest : List QFrame} {b : Body} (htx : c.st.bus.tx = q :: rest)
    (hq : c.st.check q = .pass b) (n : Nat) : contend (n + 1) c = c.passedBy q rest b := by
  unfold contend
  rw [htx]
  dsimp only
  rw [hq]
  rfl

theorem contend_empty {c : Contend} (htx : c.st.bus.tx = []) (n : Nat) : contend n c = c := by
  cases n with
  | zero => rfl
  | succ n =>
    unfold contend
    rw [htx]

theorem withdrawn_tx (c : Contend) (b : Body) :
    (c.withdrawn b).st.bus.tx.length ≤ c.st.bus.tx.length := by
  have hserve : ((c.st.withdraw Body.isServing).onDir fun d => { d with serving := none, snap := [] }).bus.tx.length
      ≤ c.st.bus.tx.length := by
    change (c.st.bus.withdraw _).tx.length ≤ _
    unfold Bus.withdraw
    split
    next h rest _ ht =>
      rw [ht]
      simpa using List.length_filter_le _ rest
    · exact List.length_filter_le _ _
  cases b with
  | snapshot => exact hserve
  | snapshotEnd => exact hserve
  | _ => exact le_rfl

/-- R97: the check of the heads ends within the queue. -/
theorem contend_fuel {n m : Nat} {c : Contend} (hn : c.st.bus.tx.length ≤ n) (hm : c.st.bus.tx.length ≤ m) :
    contend n c = contend m c := by
  induction n generalizing m c with
  | zero =>
    have h : c.st.bus.tx = [] := List.length_eq_zero_iff.1 (Nat.le_zero.1 hn)
    rw [contend_empty h, contend_empty h]
  | succ n ih =>
    cases m with
    | zero =>
      have h : c.st.bus.tx = [] := List.length_eq_zero_iff.1 (Nat.le_zero.1 hm)
      rw [contend_empty h, contend_empty h]
    | succ m =>
      unfold contend
      split
      · rfl
      next q rest htx =>
        split
        · have hpop : (c.st.onBus Bus.popTx).bus.tx.length ≤ rest.length := by
            change (c.st.bus.tx.drop 1).length ≤ _
            rw [htx]
            exact le_rfl
          have hlen := (withdrawn_tx { c with st := c.st.onBus Bus.popTx } q.body).trans hpop
          rw [htx, List.length_cons] at hn hm
          exact ih (by omega) (by omega)
        · rfl

/-- R97: what a withdrawn head leaves. -/
theorem firstWithdrawn_st {s : State} {q : QFrame} {rest : List QFrame} (hs : s.bus.sending = none)
    (htx : s.bus.tx = q :: rest) : (s.firstWithdrawn q.body).st = s.afterWithdrawal q.body rest := by
  have hpop : s.onBus Bus.popTx = { s with bus := { s.bus with tx := rest } } := by
    simp only [State.onBus, Bus.popTx, htx, List.drop_succ_cons, List.drop_zero]
  have hserve (t : State) (ht : t.bus.sending = none) : t.withdraw Body.isServing =
      { t with bus := { t.bus with tx := t.bus.tx.filter fun q => !q.body.isServing,
                                   held := t.bus.held.filter fun q => !q.body.isServing } } := by
    simp only [State.withdraw, State.onBus, Bus.withdraw, ht]
  unfold State.firstWithdrawn Contend.start
  rw [hpop]
  cases q.body with
  | snapshot =>
    unfold Contend.withdrawn
    dsimp only
    rw [hserve { s with bus := { s.bus with tx := rest } } hs]
    rfl
  | snapshotEnd =>
    unfold Contend.withdrawn
    dsimp only
    rw [hserve { s with bus := { s.bus with tx := rest } } hs]
    rfl
  | _ => rfl

/-- R57, R145: the withdrawal of a head of another kind is no occasion for work. -/
theorem firstWithdrawn_start {s : State} {b : Body} (h : b.kind.leadsToWork = false) :
    s.firstWithdrawn b = Contend.start (s.firstWithdrawn b).st := by
  cases b <;> first | rfl | exact absurd h (by simp [Body.kind, Kind.leadsToWork])

theorem firstWithdrawn_passed (s : State) (b : Body) : (s.firstWithdrawn b).passed = none := by
  cases b <;> rfl

theorem check_quieted (s : State) (q : QFrame) : s.quieted.check q = s.check q := by
  unfold State.check
  cases q.body <;> rfl

theorem afterWithdrawal_quieted (s : State) (b : Body) (rest : List QFrame) :
    s.quieted.afterWithdrawal b rest = (s.afterWithdrawal b rest).quieted := by
  cases b <;> rfl

/-! ### The bus and the replica after a withdrawal -/

theorem afterWithdrawal_rep (s : State) (b : Body) (rest : List QFrame) :
    (s.afterWithdrawal b rest).dir.rep = s.dir.rep ∧ (s.afterWithdrawal b rest).mem.stn = s.mem.stn := by
  cases b <;> exact ⟨rfl, rfl⟩

theorem afterWithdrawal_bus (s : State) (b : Body) (rest : List QFrame) :
    (s.afterWithdrawal b rest).bus = { s.bus with
      tx := (s.afterWithdrawal b rest).bus.tx, held := (s.afterWithdrawal b rest).bus.held } := by
  cases b <;> rfl

theorem afterWithdrawal_changes (s : State) (b : Body) (rest : List QFrame) :
    s.changesOnly (s.afterWithdrawal b rest) memberBlocks := by
  refine ⟨fun bl hbl => ?_, ?_, ?_⟩
  · cases bl <;> first | exact absurd (by decide) hbl | (cases b <;> rfl)
  · cases b <;> rfl
  · cases b <;> rfl

/-! ### The start of a frame (R79, R80, R87) -/

theorem passing_keeps (s : State) (old new : Body) :
    (s.passing old new).bus = s.bus ∧ (s.passing old new).dir.rep = s.dir.rep ∧
      (s.passing old new).mem = s.mem ∧ s.changesOnly (s.passing old new) [.plc, .dir] := by
  unfold State.passing
  split
  · exact ⟨rfl, rfl, rfl, (onPlc_changes s _).mono (by simp)⟩
  · exact ⟨rfl, rfl, rfl, (onDir_changes s _).mono (by simp)⟩
  · split
    · exact ⟨rfl, rfl, rfl, (onDir_changes s _).mono (by simp)⟩
    · exact ⟨rfl, rfl, rfl, State.changesOnly.refl s _⟩
  · exact ⟨rfl, rfl, rfl, State.changesOnly.refl s _⟩

/-- R87: the frame that goes out, as stamped. -/
def State.frameOf (s : State) (dest : Option Station) (b : Body) : Frame :=
  { sender := s.mem.stn, dest := dest, base := if b.kind.hasBase then some s.dir.rep.gen else none, body := b }

/-- R87: the event once a head that has passed its check is begun. -/
def Contend.begun (c : Contend) (q : QFrame) (rest : List QFrame) (b : Body) (dom : Bool) : Contend :=
  { c.passedBy q rest b with st := (c.passedBy q rest b).st.begin (c.st.frameOf q.dest b) dom }

theorem begun_st (c : Contend) (q : QFrame) (rest : List QFrame) (b : Body) (dom : Bool) :
    ∃ v : State, (c.begun q rest b dom).st = v.begin (c.st.frameOf q.dest b) dom ∧
      v.bus = { c.st.bus with tx := { q with body := b } :: rest } ∧ v.dir.rep = c.st.dir.rep ∧
      c.st.changesOnly v [.plc, .dir, .bus] := by
  obtain ⟨hbus, hrep, -, hc⟩ :=
    passing_keeps (c.st.onBus fun u => { u with tx := { q with body := b } :: rest }) q.body b
  exact ⟨_, rfl, hbus, hrep, (onBus_changes _ _).andThen hc (by simp) (by simp)⟩

theorem begun_changes (c : Contend) (q : QFrame) (rest : List QFrame) (b : Body) (dom : Bool) :
    c.st.changesOnly (c.begun q rest b dom).st [.plc, .dir, .bus] ∧
      (c.begun q rest b dom).st.dir.rep = c.st.dir.rep ∧
      (c.begun q rest b dom).st.bus.tx.head? = some { q with body := b } ∧
      (c.begun q rest b dom).st.bus.mediumBusy = true := by
  obtain ⟨v, hv, hbus, hrep, hc⟩ := begun_st c q rest b dom
  rw [hv]
  refine ⟨hc.andThen (onBus_changes _ _) (fun _ => id) (by simp), hrep, ?_, ?_⟩ <;>
    cases dom <;> simp [State.begin, State.onBus, hbus]

/-- R87: on a line that is recessive the frame goes out, and its opening delimiter is read. -/
theorem begun_sends (c : Contend) (q : QFrame) (rest : List QFrame) (b : Body) :
    (c.begun q rest b false).st.bus.sending =
        some { frame := c.st.frameOf q.dest b, withdrawn := false, readback := .reading } ∧
      (c.begun q rest b false).st.bus.receiver = .receiving 0 := ⟨rfl, rfl⟩

/-- R87: on a line already dominant nothing begins. -/
theorem begun_waits (c : Contend) (q : QFrame) (rest : List QFrame) (b : Body) :
    (c.begun q rest b true).st.bus.sending = c.st.bus.sending ∧
      (c.begun q rest b true).st.bus.receiver = c.st.bus.receiver := by
  obtain ⟨v, hv, hbus, -⟩ := begun_st c q rest b true
  rw [hv]
  simp [State.begin, State.onBus, hbus]

theorem contention_begun {s : State} {n : Nat} {c : Contend} {q : QFrame} {rest : List QFrame} {b : Body}
    (hc : contend s.bus.tx.length (Contend.start s) = contend (n + 1) c) (htx : c.st.bus.tx = q :: rest)
    (hq : c.st.check q = .pass b) (dom : Bool) : s.contention dom = (c.begun q rest b dom).settle := by
  have hpass := hc.trans (contend_pass htx hq n)
  obtain ⟨-, hrep, hmem, -⟩ :=
    passing_keeps (c.st.onBus fun u => { u with tx := { q with body := b } :: rest }) q.body b
  have hstamp : (c.passedBy q rest b).st.stamp q.dest b = c.st.frameOf q.dest b := by
    unfold Contend.passedBy State.stamp State.frameOf State.me
    dsimp only
    rw [hrep, hmem]
    rfl
  unfold State.contention
  change (match (contend s.bus.tx.length (Contend.start s)).passed with
    | some f => Contend.settle { contend s.bus.tx.length (Contend.start s) with
        st := (contend s.bus.tx.length (Contend.start s)).st.begin f dom }
    | none => (contend s.bus.tx.length (Contend.start s)).settle) = _
  rw [hpass]
  have hpassed : (c.passedBy q rest b).passed = some (c.st.frameOf q.dest b) := by
    rw [← hstamp]
    rfl
  rw [hpassed]
  rfl

theorem contention_ended {s : State} {n : Nat} {c : Contend}
    (hc : contend s.bus.tx.length (Contend.start s) = contend n c) (htx : c.st.bus.tx = [])
    (hp : c.passed = none) (dom : Bool) : s.contention dom = c.settle := by
  have hend := hc.trans (contend_empty htx n)
  unfold State.contention
  change (match (contend s.bus.tx.length (Contend.start s)).passed with
    | some f => Contend.settle { contend s.bus.tx.length (Contend.start s) with
        st := (contend s.bus.tx.length (Contend.start s)).st.begin f dom }
    | none => (contend s.bus.tx.length (Contend.start s)).settle) = _
  rw [hend, hp]

theorem Verdict.eq_of_unless {w : Bool} {b b' : Body} (h : Verdict.unless w b = .pass b') : b = b' := by
  unfold Verdict.unless at h
  split at h
  · cases h
  · exact Verdict.pass.inj h

/-- R97: a SHUT passes as it stands, and no other kind becomes one. -/
theorem check_pass_adopting {s : State} {q : QFrame} {b : Body} (h : s.check q = .pass b)
    (hb : b.isAdopting = true) : ∃ k a, q.body = .shut k .adopted a := by
  cases b with
  | shut k c a =>
    have hc : c = .adopted := by simpa [Body.isAdopting] using hb
    subst hc
    unfold State.check at h
    cases hq : q.body <;> rw [hq] at h <;> dsimp only at h
    case shut k' c' a' =>
      cases h
      exact ⟨k, a, rfl⟩
    case claim k' kd =>
      unfold State.checkClaim at h
      split at h
      · split at h
        · cases h
        · split at h <;> cases h
      · cases h
    case shut.recall tag r g => split at h <;> cases h
    case shut.seal l p => unfold State.sealBody at h; cases h
    all_goals first | cases h | cases Verdict.eq_of_unless h
  | _ => cases hb

/-! ### The event (R87, R97) -/

theorem exec_contention {s : State} (hs : s.rst = none) (hr : s.bus.receiver = .hunt)
    (hn : s.bus.sending = none) (hy : s.bus.yieldOwed = false) (hrx : s.bus.rx = []) (htx : s.bus.tx ≠ [])
    (dom : Bool) : exec (.contention dom) s = .next (s.quieted.contention dom).settled := by
  change execContention dom s = _
  unfold execContention
  rw [live_settled _ hs]
  have hquiet : s.sawQuiet = s.quieted := if_pos ⟨hr, by rw [hn]; rfl⟩
  have hcontends : s.quieted.contends = true := by
    have htx' : s.bus.tx.isEmpty = false := by simpa using htx
    simp [State.contends, State.quieted, hr, hn, hy, hrx, htx']
  dsimp only
  rw [hquiet, if_pos hcontends]

theorem exec_contention_idle {s : State} (hs : s.rst = none)
    (h : s.bus.receiver ≠ .hunt ∨ s.bus.sending.isSome ∨ s.bus.yieldOwed = true ∨ s.bus.rx ≠ [] ∨ s.bus.tx = [])
    (dom : Bool) : exec (.contention dom) s = .next s.sawQuiet.settled := by
  change execContention dom s = _
  unfold execContention
  rw [live_settled _ hs]
  have hno : s.sawQuiet.contends = false := by
    unfold State.sawQuiet State.contends
    rcases h with h | h | h | h | h <;> split <;> simp_all [State.onBus]
  dsimp only
  rw [hno]
  rfl

theorem quieted_changes (s : State) : s.changesOnly s.quieted [.bus] :=
  onBus_changes s fun b => { b with mediumBusy := false }

/-- R141: a LEAVE joins behind the head. -/
theorem queueLeave_head {s : State} {q : QFrame} (h : s.bus.tx.head? = some q) :
    s.queueLeave.bus.tx.head? = some q := by
  unfold State.queueLeave
  split
  · change (s.bus.queue _).tx.head? = _
    unfold Bus.queue
    split
    · rw [List.head?_append, h]
      rfl
    · exact h
  · exact h

/-- R87: a frame that is begun, and the work behind it, on a quiet medium. -/
theorem begun_settled {s : State} {c : Contend} {q : QFrame} {rest : List QFrame} {b : Body} {dom : Bool}
    {l : List Block} {t : State} (ht : t = (c.begun q rest b dom).settle)
    (hc : s.changesOnly c.st l) (hrep : c.st.dir.rep = s.dir.rep) (hstn : c.st.mem.stn = s.mem.stn)
    (hn : c.st.bus.sending = none) (hr : c.st.bus.receiver = .hunt)
    (hl : ∀ bl ∈ l, bl ∈ memberBlocks) :
    (dom = false → t.bus.sending = some
        { frame := { sender := s.mem.stn, dest := q.dest,
                     base := if b.kind.hasBase then some s.dir.rep.gen else none, body := b },
          withdrawn := false, readback := .reading } ∧ t.bus.receiver = .receiving 0) ∧
      (dom = true → t.bus.sending = none ∧ t.bus.receiver = .hunt) ∧ t.bus.mediumBusy = true ∧
      ((dom = false ∨ b.isAdopting = false) → t.bus.tx.head? = some { q with body := b }) ∧
      t.dir.rep = s.dir.rep ∧ s.changesOnly t memberBlocks := by
  have hheads := heads_settle (c.begun q rest b dom)
  have hsettle := settle_changes (c.begun q rest b dom)
  have hworks := (works_contendSettle (c.begun q rest b dom)).rep
  obtain ⟨hchanges, hrep', hhead, hbusy⟩ := begun_changes c q rest b dom
  rw [← ht] at hheads hsettle hworks
  refine ⟨?_, ?_, hheads.mediumBusy.trans hbusy, fun h => hheads.head _ hhead (h.imp_left ?_),
    hworks.trans (hrep'.trans hrep), ((hc.andThen hchanges hl ?_)).andThen hsettle (fun _ => id) fun _ => id⟩
  · rintro rfl
    obtain ⟨hsend, hrec⟩ := begun_sends c q rest b
    refine ⟨hheads.sending.trans (hsend.trans ?_), hheads.receiver.trans hrec⟩
    rw [State.frameOf, hrep, hstn]
  · rintro rfl
    obtain ⟨hsend, hrec⟩ := begun_waits c q rest b
    exact ⟨hheads.sending.trans (hsend.trans hn), hheads.receiver.trans (hrec.trans hr)⟩
  · rintro rfl
    rw [(begun_sends c q rest b).1]
    rfl
  · simp [memberBlocks]

/-- R87: a head that passes is begun; nothing but a LEAVE can follow. -/
theorem begun_start {s : State} {q : QFrame} {rest : List QFrame} {b : Body} {dom : Bool} {t : State}
    (ht : t = ((Contend.start s.quieted).begun q rest b dom).settle) :
    t.bus.tx.head? = some { q with body := b } ∧ s.changesOnly t [.plc, .dir, .bus] := by
  obtain ⟨hchanges, -, hhead, -⟩ := begun_changes (Contend.start s.quieted) q rest b dom
  rw [settle_idle (c := (Contend.start s.quieted).begun q rest b dom) rfl rfl] at ht
  subst ht
  exact ⟨queueLeave_head hhead, ((quieted_changes s).andThen hchanges (by simp) fun _ => id).andThen
    (queueLeave_changes _) (fun _ => id) (by simp)⟩

/-- R97: the check goes on in the station that a withdrawn head leaves. -/
theorem contend_withdrawn {s : State} {q : QFrame} {rest : List QFrame} (htx : s.bus.tx = q :: rest)
    (hq : s.check q = .withdraw) :
    contend s.quieted.bus.tx.length (Contend.start s.quieted) =
      contend rest.length (s.quieted.firstWithdrawn q.body) := by
  have hlen : s.quieted.bus.tx.length = rest.length + 1 := congrArg List.length htx
  rw [hlen]
  exact contend_withdraw (s := s.quieted) htx ((check_quieted s q).trans hq) rest.length

theorem firstWithdrawn_quieted {s : State} {q : QFrame} {rest : List QFrame} (hn : s.bus.sending = none)
    (htx : s.bus.tx = q :: rest) :
    (s.quieted.firstWithdrawn q.body).st = (s.afterWithdrawal q.body rest).quieted :=
  (firstWithdrawn_st (s := s.quieted) hn htx).trans (afterWithdrawal_quieted s q.body rest)

theorem afterWithdrawal_tx_le (s : State) (b : Body) (rest : List QFrame) :
    (s.afterWithdrawal b rest).bus.tx.length ≤ rest.length := by
  cases b <;> first | exact le_rfl | exact List.length_filter_le _ _

/-- R57, R97: the withdrawal of a head that leads to no work leaves the event as it begins without it. -/
theorem contention_skips {s : State} {q : QFrame} {rest : List QFrame} (hn : s.bus.sending = none)
    (htx : s.bus.tx = q :: rest) (hq : s.check q = .withdraw) (hk : q.body.kind.leadsToWork = false) (dom : Bool) :
    s.quieted.contention dom = (s.afterWithdrawal q.body rest).quieted.contention dom := by
  have hstart : s.quieted.firstWithdrawn q.body = Contend.start (s.afterWithdrawal q.body rest).quieted := by
    rw [firstWithdrawn_start hk, firstWithdrawn_quieted hn htx]
  have hend : contend s.quieted.bus.tx.length (Contend.start s.quieted) =
      contend (s.afterWithdrawal q.body rest).quieted.bus.tx.length
        (Contend.start (s.afterWithdrawal q.body rest).quieted) := by
    rw [contend_withdrawn htx hq, hstart]
    exact contend_fuel (afterWithdrawal_tx_le s q.body rest) le_rfl
  unfold State.contention
  dsimp only
  exact congrArg (fun c : Contend => match c.passed with
    | some f => Contend.settle { c with st := c.st.begin f dom }
    | none => c.settle) hend

/-- R97: no head is left: the queue holds what the withdrawal has led to. -/
theorem emptied_settle {s u : State} {q : QFrame} {rest : List QFrame} (hn : s.bus.sending = none)
    (hr : s.bus.receiver = .hunt) (htx : s.bus.tx = q :: rest) (hu : u = s.afterWithdrawal q.body rest)
    (he : u.bus.tx = []) {t : State} (ht : t = (s.quieted.firstWithdrawn q.body).settle) :
    t.bus.sending = none ∧ t.bus.receiver = .hunt ∧
      (∀ x ∈ t.bus.tx ++ t.bus.held, x ∈ u.bus.held ∨ x.dest = none ∧ t.backed x.body) ∧
      (q.body.kind.leadsToWork = false → s.mem.departing = false → t = u.quieted) ∧
      t.dir.rep = s.dir.rep ∧ s.changesOnly t memberBlocks := by
  have hst := firstWithdrawn_quieted hn htx
  rw [← hu] at hst
  have hbus := afterWithdrawal_bus s q.body rest
  have hheads := heads_settle (s.quieted.firstWithdrawn q.body)
  have hchanges := settle_changes (s.quieted.firstWithdrawn q.body)
  have hworks := (works_contendSettle (s.quieted.firstWithdrawn q.body)).rep
  have hbacked (x : QFrame) := settle_backed (c := s.quieted.firstWithdrawn q.body) (x := x)
  rw [hst] at hchanges hworks hbacked
  have hsend : u.bus.sending = none := by rw [hu, hbus]; exact hn
  have hrec : u.bus.receiver = .hunt := by rw [hu, hbus]; exact hr
  refine ⟨?_, ?_, fun x hx => ?_, fun hk hd => ?_, ?_, ?_⟩
  · rw [ht, hheads.sending, hst]
    exact hsend
  · rw [ht, hheads.receiver, hst]
    exact hrec
  · subst ht
    exact hbacked x hsend he hx
  · have hdep : u.quieted.mem.departing = false := by
      rw [hu]
      cases hq : q.body <;> exact hd
    rw [ht, firstWithdrawn_start hk, settle_idle rfl rfl, hst]
    exact if_neg fun h => by
      rw [show (Contend.start u.quieted).st.mem.departing = false from hdep] at h
      exact absurd h.2.1 (by decide)
  · rw [ht, hworks]
    exact (congrArg (fun v : State => v.dir.rep) hu).trans (afterWithdrawal_rep s q.body rest).1
  · rw [ht]
    rw [hu] at hchanges
    exact ((afterWithdrawal_changes s q.body rest).andThen (quieted_changes _) (n := memberBlocks) (fun _ => id)
      (by simp [memberBlocks])).andThen (hu ▸ hchanges) (fun _ => id) fun _ => id

/-- Settles O52: what a contention event begins, and what it withdraws. -/
theorem contentionTaken : Obligations.ContentionTaken := by
  intro s hs
  refine ⟨fun q rest hr hn hy hrx htx => ?_, fun h dom => ⟨_, exec_contention_idle hs h dom, ?_⟩⟩
  · have hstep := exec_contention hs hr hn hy hrx (by rw [htx]; simp)
    refine ⟨fun b hb => ?_, fun hq u hu => ⟨fun he dom => ?_, fun hne hk dom => ?_, fun q2 rest2 b htx2 hb => ?_⟩⟩
    · have hbegun := contention_begun (s := s.quieted) (c := Contend.start s.quieted) (n := rest.length)
        (congrArg (fun n => contend n (Contend.start s.quieted)) (congrArg List.length htx)) htx
        ((check_quieted s q).trans hb)
      have hspec (dom : Bool) := begun_settled (hbegun dom) (quieted_changes s) rfl rfl hn hr
        (by simp [memberBlocks])
      have hstart (dom : Bool) := begun_start (hbegun dom)
      generalize s.quieted.contention = t at *
      obtain ⟨hsends, -, hbusy, -, hrep, -⟩ := hspec false
      obtain ⟨-, hwaits, hbusy', -, hrep', -⟩ := hspec true
      exact ⟨⟨_, hstep false, (hsends rfl).1, (hsends rfl).2, hbusy, (hstart false).1, hrep,
          frame_of_changes (hstart false).2 (by simp)⟩,
        ⟨_, hstep true, (hwaits rfl).1, (hwaits rfl).2, hbusy', (hstart true).1, hrep',
          frame_of_changes (hstart true).2 (by simp)⟩⟩
    · have hend := contention_ended (contend_withdrawn htx hq)
        (by rw [firstWithdrawn_quieted hn htx, ← hu]; exact he) (firstWithdrawn_passed _ _) dom
      obtain ⟨hsend, hrec, hwork, hidle, hrep, hc⟩ := emptied_settle hn hr htx hu he hend
      have hstep := hstep dom
      generalize s.quieted.contention dom = t at *
      refine ⟨_, hstep, hsend, hrec, hwork, fun hk hd => ?_, hrep, frame_of_changes hc (by simp)⟩
      rw [hidle hk hd]
      exact ⟨he, rfl, rfl, rfl, rfl, rfl⟩
    · have hbus : u.bus = { s.bus with tx := u.bus.tx, held := u.bus.held } := hu ▸ afterWithdrawal_bus s q.body rest
      have hrst : u.rst = none := hu ▸ (afterWithdrawal_changes s q.body rest).2.1.trans hs
      rw [hstep dom, exec_contention hrst (by rw [hbus]; exact hr) (by rw [hbus]; exact hn)
        (by rw [hbus]; exact hy) (by rw [hbus]; exact hrx) hne dom, contention_skips hn htx hq hk dom, hu]
    · have hst := firstWithdrawn_quieted hn htx
      rw [← hu] at hst
      obtain ⟨m, hm⟩ : ∃ m, rest.length = m + 1 := by
        have hle := afterWithdrawal_tx_le s q.body rest
        rw [← hu, htx2, List.length_cons] at hle
        exact ⟨rest.length - 1, by omega⟩
      have hbegun := contention_begun ((contend_withdrawn htx hq).trans (by rw [hm])) (n := m)
        (by rw [hst]; exact htx2) (by rw [hst]; exact (check_quieted u q2).trans hb)
      have hbus : u.bus = { s.bus with tx := u.bus.tx, held := u.bus.held } := hu ▸ afterWithdrawal_bus s q.body rest
      have hchanges : s.changesOnly u.quieted memberBlocks := (hu ▸ afterWithdrawal_changes s q.body rest :
        s.changesOnly u memberBlocks).andThen (quieted_changes u) (fun _ => id) (by simp [memberBlocks])
      obtain ⟨hrep, hstn⟩ : u.dir.rep = s.dir.rep ∧ u.mem.stn = s.mem.stn := hu ▸ afterWithdrawal_rep s q.body rest
      have hspec (dom : Bool) := begun_settled (s := s) (hbegun dom) (by rw [hst]; exact hchanges)
        (by rw [hst]; exact hrep) (by rw [hst]; exact hstn)
        (by rw [hst]; exact (congrArg Bus.sending hbus).trans hn)
        (by rw [hst]; exact (congrArg Bus.receiver hbus).trans hr) fun _ => id
      have hadopt (h : ∀ k a, q2.body ≠ .shut k .adopted a) : b.isAdopting = false := by
        rw [Bool.eq_false_iff]
        intro hab
        obtain ⟨k, a, hk⟩ := check_pass_adopting hb hab
        exact h k a hk
      generalize s.quieted.contention = t at *
      obtain ⟨hsends, -, hbusy, hhead, hrep', hc⟩ := hspec false
      obtain ⟨-, hwaits, hbusy', hhead', hrep'', hc'⟩ := hspec true
      exact ⟨⟨_, hstep false, (hsends rfl).1, (hsends rfl).2, hbusy, hhead (.inl rfl), hrep',
          frame_of_changes hc (by simp)⟩,
        ⟨_, hstep true, (hwaits rfl).1, (hwaits rfl).2, hbusy', fun h => hhead' (.inr (hadopt h)), hrep'',
          frame_of_changes hc' (by simp)⟩⟩
  · unfold State.sawQuiet
    split
    · exact ⟨rfl, frame_of_changes (onBus_changes s _) (by simp)⟩
    · exact ⟨rfl, frame_of_changes (State.changesOnly.refl s [.bus]) (by simp)⟩

end Sys2Proof.Machine
end

