-- ==== Sys2Proof/Proofs/Application.lean ====
section
/-! SUPPORT. The application of a directory-kind frame in MEMBER (R54): the reports it makes, the station's
own frames, and the work that follows. -/

namespace Sys2Proof.Machine

/-! ### The work that follows an applied frame (R54, R57, R75, R141, R145) -/

/-- The work after a frame is policy work, then takeover duty, then a LEAVE. -/
theorem afterFrame_work (w : State) : ∃ p q, Queues [.full, .pressure] w p ∧ Evaluates p q ∧
    w.afterFrame = q.queueLeave ∧ (w.mem.state = .member → q = p.dutyEval) := by
  by_cases hm : w.mem.state = .member
  · refine ⟨w.policyPass.evalPressure, _, (queues_policyPass w [] (by simp)).trans
      (queues_evalPressure _ (by simp) (by simp)), evaluates_dutyEval _, if_pos hm, fun _ => rfl⟩
  · refine ⟨w, w, Queues.refl _ w, Evaluates.refl w, ?_, fun h => absurd h hm⟩
    unfold State.afterFrame State.queueLeave
    rw [if_neg hm, if_neg fun h => hm h.1]

/-- What the work after a frame leaves of the directory, the streams and the placement engine is what policy
work leaves. -/
theorem afterFrame_policy (w : State) : ∃ p, Queues [.full, .pressure] w p ∧ w.afterFrame.dir = p.dir ∧
    w.afterFrame.plc = p.plc ∧ w.afterFrame.str = p.str := by
  obtain ⟨p, q, hp, hq, ht, -⟩ := afterFrame_work w
  have hl := queueLeave_changes q
  rw [ht]
  exact ⟨p, hp, (hl.1 .dir (by simp)).trans (hq.changes.1 .dir (by simp [dutyBlocks])),
    (hl.1 .plc (by simp)).trans (hq.changes.1 .plc (by simp [dutyBlocks])),
    (hl.1 .str (by simp)).trans (hq.changes.1 .str (by simp [dutyBlocks]))⟩

theorem afterFrame_ext {w : State} {k : Slot} :
    (w.dir.ext[k] = none → w.afterFrame.dir.ext[k] = none) ∧
      ∀ x, w.dir.ext[k] = some x → ∃ y, w.afterFrame.dir.ext[k] = some y ∧ x.KeptIn y := by
  obtain ⟨p, hp, hdir, -, -⟩ := afterFrame_policy w
  rw [hdir]
  exact hp.ext k

theorem afterFrame_closing (w : State) : w.afterFrame.dir.closing = w.dir.closing := by
  obtain ⟨p, hp, hdir, -, -⟩ := afterFrame_policy w
  rw [hdir]
  exact hp.closing

/-- R57: the request list after the work: as before, or a RECALL that a policy pass has begun. -/
theorem afterFrame_request (w : State) :
    (w.dir.request ≠ none → w.afterFrame.dir.request = w.dir.request) ∧
      (w.dir.request = none → ∀ q, w.afterFrame.dir.request = some q →
        ∃ n, q = .recall n ∧ n.phase = .queued ∧ n.tag = w.dir.reqTag) := by
  obtain ⟨p, hp, hdir, -, -⟩ := afterFrame_policy w
  rw [hdir]
  rcases hp.asks with ⟨hreq, -⟩ | ⟨hno, -, e, he, hphase, htag⟩
  · refine ⟨fun _ => hreq, fun hn q hq => ?_⟩
    rw [hreq, hn] at hq
    cases hq
  · refine ⟨fun hn => absurd hno hn, fun _ q hq => ?_⟩
    rw [he] at hq
    cases hq
    exact ⟨e, rfl, hphase, htag⟩

/-- Every count but that of failed runs stands. -/
theorem afterFrame_counts (w : State) {c : Cause} (hc : c ≠ .takeoverFailed) :
    w.afterFrame.flt.counts[c.index] = w.flt.counts[c.index] := by
  obtain ⟨p, q, hp, hq, ht, -⟩ := afterFrame_work w
  have hflt : q.queueLeave.flt = q.flt := (queueLeave_changes q).1 .flt (by simp)
  rw [ht, hflt, hq.others c hc, hp.counts]

/-- With a request in the list no RECALL is queued. -/
theorem afterFrame_noRecall {w : State} (hr : w.dir.request ≠ none)
    (hw : ∀ q ∈ w.bus.waiting, q.body.kind ≠ .recall) {q : QFrame} (hq : q ∈ w.afterFrame.bus.waiting) :
    q.body.kind ≠ .recall := by
  obtain ⟨p, v, hp, hv, ht, -⟩ := afterFrame_work w
  rw [ht] at hq
  rcases queueLeave_waits hq with hq | ⟨rfl, -⟩
  · rcases hv.waits q hq with hq | ⟨-, hb⟩
    · rcases hp.waiting hq with hq | ⟨-, hb⟩
      · exact hw q hq
      · cases hbody : q.body <;> rw [hbody] at hb <;> simp only [Body.kind, ne_eq, reduceCtorEq, not_false_eq_true]
        exact absurd hb.2.1 hr
    · cases hbody : q.body <;> rw [hbody] at hb <;> simp only [Body.kind, ne_eq, reduceCtorEq, not_false_eq_true]
      exact hb.elim
  · simp [Body.kind]

/-! ### Notices that have been posted (R183) -/

/-- A notice of this content is queued. -/
def Faults.tells (f : Faults) (b : NoticeBody) : Prop := ∃ n ∈ f.notices, n.body = b

/-- R183: a notice once queued stays until it is sent; only its mark may change. -/
theorem tells_post {f : Faults} {b : NoticeBody} (h : f.tells b) (x : NoticeBody) : (f.post x).tells b := by
  obtain ⟨n, hn, hb⟩ := h
  rcases Nat.lt_or_ge f.notices.length 16 with hroom | hfull
  · exact ⟨n, by rw [Faults.post_room hroom]; exact List.mem_append_left _ hn, hb⟩
  · obtain ⟨l, m, hl⟩ : ∃ l m, f.notices = l ++ [m] :=
      ⟨_, _, (List.dropLast_append_getLast (List.ne_nil_of_mem hn)).symm⟩
    rw [Faults.post_full hl hfull]
    rw [hl] at hn
    rcases List.mem_append.1 hn with hn | hn
    · exact ⟨n, List.mem_append_left _ hn, hb⟩
    · rw [List.mem_singleton.1 hn] at hb
      exact ⟨{ m with lost := true }, List.mem_append_right _ (List.mem_singleton.2 rfl), hb⟩

theorem tells_report {f : Faults} {b : NoticeBody} (h : f.tells b) (r : FaultRec) : (f.report r).tells b := by
  unfold Faults.report
  dsimp only
  split
  · exact tells_post (f := { f with counts := _, first := some r }) h _
  · exact h

/-- A loop of steps that keep the notices. -/
theorem tells_foldl {α : Type} {b : NoticeBody} (f : State → α → State)
    (h : ∀ s x, s.flt.tells b → (f s x).flt.tells b) (l : List α) {s : State} (hs : s.flt.tells b) :
    (l.foldl f s).flt.tells b := by
  induction l generalizing s with
  | nil => exact hs
  | cons x l ih => exact ih (h s x hs)

theorem tells_dutyEval {s : State} {b : NoticeBody} (h : s.flt.tells b) : s.dutyEval.flt.tells b := by
  have htake (s : State) (st : Station) (h : s.flt.tells b) : (s.takeRun st).flt.tells b := by
    unfold State.takeRun
    split <;> exact h
  have hadopt (s : State) (h : s.flt.tells b) : s.adoptOne.flt.tells b := by
    unfold State.adoptOne
    repeat' split
    all_goals exact h
  have hcomplete (s : State) (st : Station) (h : s.flt.tells b) : (s.completeRun st).flt.tells b := by
    unfold State.completeRun
    repeat' split
    all_goals exact h
  have hfail (s : State) (st : Station) (h : s.flt.tells b) : (s.failRun st).flt.tells b := by
    unfold State.failRun
    repeat' split
    · exact tells_report h _
    · exact h
    · exact h
  have htest (s : State) (h : s.flt.tells b) : s.testNoAdopter.flt.tells b := by
    unfold State.testNoAdopter
    repeat' split
    · exact h
    · exact tells_post h _
    · exact h
  unfold State.dutyEval
  split
  · have hruns : s.takeRuns.flt.tells b := by
      unfold State.takeRuns
      split
      · exact tells_foldl _ htake _ h
      · exact h
    exact htest _ (tells_foldl _ hfail _ (tells_foldl _ hcomplete _
      (tells_foldl _ (fun s _ => hadopt s) _ hruns)))
  · exact h

theorem tells_afterFrame {w : State} {b : NoticeBody} (h : w.flt.tells b) : w.afterFrame.flt.tells b := by
  have hflt (q : State) : q.queueLeave.flt = q.flt := (queueLeave_changes q).1 .flt (by simp)
  unfold State.afterFrame
  split
  · rw [hflt]
    refine tells_dutyEval ?_
    unfold Faults.tells
    rw [(polices_evalPressure _).notices, (polices_policyPass _).notices]
    exact h
  · exact h

/-! ### The reports of an application (R54, R114, R129) -/

/-- R54: the frame applied to the replica, and reported. -/
def State.applied (u : State) (f : Frame) : State := (u.applyRep f).applyReports f

/-- What a report of an application leaves: all but the bus, the request and the fault capture unit. -/
structure Reports (s t : State) : Prop where
  changes : s.changesOnly t [.dir, .bus, .flt]
  dir : t.dir = { s.dir with request := t.dir.request }

theorem Reports.of_flt {s t : State} (h : s.changesOnly t [.flt]) : Reports s t := by
  have hdir : t.dir = s.dir := h.1 .dir (by simp)
  exact ⟨h.mono (by simp), by rw [hdir]⟩

theorem Reports.trans {s t u : State} (h : Reports s t) (g : Reports t u) : Reports s u :=
  ⟨h.changes.andThen g.changes (fun _ => id) (fun _ => id), by rw [g.dir, h.dir]⟩

theorem postRosterChange_changes (s : State) (st : Station) (b : Body) :
    s.changesOnly (s.postRosterChange st b) [.flt] := by
  unfold State.postRosterChange
  split <;> first | exact postPeer_changes s _ | exact State.changesOnly.refl s _

theorem reportDigest_changes (s : State) (st : Station) (b : Body) :
    s.changesOnly (s.reportDigest st b) [.flt] := by
  unfold State.reportDigest
  repeat' split
  · exact State.changesOnly.refl s _
  · exact report_changes s _ _ _ _ _
  · exact State.changesOnly.refl s _

theorem reports_recallAnswered (s : State) (st : Station) (k : Slot) (tag : ReqTag) :
    Reports s (s.recallAnswered st k tag) := by
  have hun := Reports.of_flt (report_changes s .unexpectedAnswer (slotByte k) none (some st) none)
  have hmet (e : RecallEntry) : Reports s ((s.withdraw Body.isRecall).onDir fun d =>
      { d with request := some (.recall e) }) :=
    ⟨(withdraw_changes s _).andThen (onDir_changes _ _) (by simp) (by simp), rfl⟩
  unfold State.recallAnswered
  dsimp only
  repeat' split
  all_goals first | exact hun | exact hmet _

theorem reports_answerOf (s : State) (st : Station) (b : Body) : Reports s (s.answerOf st b) := by
  unfold State.answerOf
  repeat' split
  · exact reports_recallAnswered s _ _ _
  · exact Reports.of_flt (State.changesOnly.refl s _)
  · exact Reports.of_flt (State.changesOnly.refl s _)

theorem reports_applied (u : State) (f : Frame) : Reports (u.applyRep f) (u.applied f) :=
  ((Reports.of_flt (postRosterChange_changes _ _ _)).trans (Reports.of_flt (reportDigest_changes _ _ _))).trans
    (reports_answerOf _ _ _)

/-- R114: a RECALL entry that waits on a slot is not answered again. -/
theorem recallAnswered_waits {s : State} {e : RecallEntry} {j : Slot} (h : s.dir.request = some (.recall e))
    (hj : e.phase = .releasing j) (st : Station) (k : Slot) (tag : ReqTag) :
    s.recallAnswered st k tag = s.report .unexpectedAnswer (slot := slotByte k) (peer := some st) := by
  unfold State.recallAnswered
  rw [h]
  dsimp only
  rw [hj]
  exact ite_self _

theorem answerOf_waits {s : State} {e : RecallEntry} {j : Slot} (h : s.dir.request = some (.recall e))
    (hj : e.phase = .releasing j) (st : Station) (b : Body) : (s.answerOf st b).dir = s.dir := by
  unfold State.answerOf
  split
  · split
    · rw [recallAnswered_waits h hj]
      rfl
    · rfl
  · rfl

theorem applied_waits {u : State} {f : Frame} {e : RecallEntry} {j : Slot}
    (h : u.dir.request = some (.recall e)) (hj : e.phase = .releasing j) :
    (u.applied f).dir.request = u.dir.request := by
  have hdir := ((postRosterChange_changes (u.applyRep f) f.sender f.body).andThen
    (reportDigest_changes _ f.sender f.body) (fun _ => id) (fun _ => id)).1 .dir (by simp)
  unfold State.applied State.applyReports
  rw [answerOf_waits (by rw [show State.dir _ = _ from hdir]; exact h) hj, show State.dir _ = _ from hdir]
  rfl

/-! ### The station's own frames (R49, R99, R102, R106, R141, R146, R152) -/

/-- What an applied frame of this station's own leaves of the directory engine: the replica and the request. -/
structure Acts (s t : State) : Prop where
  changes : s.changesOnly t [.str, .plc, .dir, .bus, .mem, .link, .flt]
  rep : t.dir.rep = s.dir.rep := by rfl
  request : t.dir.request = s.dir.request := by rfl
  reqTag : t.dir.reqTag = s.dir.reqTag := by rfl

namespace Acts

theorem refl (s : State) : Acts s s := { changes := State.changesOnly.refl s _ }

theorem trans {s t u : State} (h : Acts s t) (g : Acts t u) : Acts s u where
  changes := h.changes.andThen g.changes (fun _ => id) (fun _ => id)
  rep := g.rep.trans h.rep
  request := g.request.trans h.request
  reqTag := g.reqTag.trans h.reqTag

theorem foldl {α : Type} (f : State → α → State) (h : ∀ s x, Acts s (f s x)) (l : List α) (s : State) :
    Acts s (l.foldl f s) := by
  induction l generalizing s with
  | nil => exact refl s
  | cons x l ih => exact (h s x).trans (ih _)

theorem of_still {s t : State} (h : s.changesOnly t [.str, .plc, .bus, .mem, .link, .flt]) : Acts s t := by
  have hdir : t.dir = s.dir := h.1 .dir (by simp)
  exact ⟨h.mono (by simp), by rw [hdir], by rw [hdir], by rw [hdir]⟩

end Acts

theorem acts_decideShut (s : State) (k : Slot) (c : ShutCause) (r : Option (ReqTag × Station)) :
    Acts s (s.decideShut k c r) where
  changes := (polices_decideShut s k c r).changesOnly.mono (by simp [policyBlocks])
  rep := (polices_decideShut s k c r).rep
  request := (decideShut_request s k c r).1
  reqTag := (decideShut_request s k c r).2

/-- R49, R63, R100: the holding of an applied CLAIM, before a departing station's shut. -/
def State.slotClaimed (s : State) (k : Slot) (kind : SlotKind) : State :=
  ((s.setExt k (some (Ext.fresh s.dir.rep.gen))).onPlc fun p =>
    { p with claims := p.claims.map fun e =>
        if e.slot = k ∧ e.phase = .queued then { e with phase := .opening } else e }).onLink fun l =>
    { l with heldOpens := l.heldOpens ++ [{ slot := k, serial := s.dir.rep.gen, kind := kind }] }

theorem ownClaim_eq (s : State) (k : Slot) (kind : SlotKind) :
    s.ownClaim k kind =
      if s.mem.departing then (s.slotClaimed k kind).decideShut k .leaving else s.slotClaimed k kind := rfl

theorem acts_ownClaim (s : State) (k : Slot) (kind : SlotKind) : Acts s (s.ownClaim k kind) := by
  have hclaimed : Acts s (s.slotClaimed k kind) :=
    { changes := ((setExt_changes s k _).andThen (onPlc_changes _ _)
        (n := [.str, .plc, .dir, .bus, .mem, .link, .flt]) (by simp) (by simp)).andThen (onLink_changes _ _)
        (by simp) (by simp) }
  rw [ownClaim_eq]
  split
  · exact hclaimed.trans (acts_decideShut _ k _ _)
  · exact hclaimed

theorem acts_onDir {s : State} {g : Directory → Directory} (hrep : (g s.dir).rep = s.dir.rep)
    (hreq : (g s.dir).request = s.dir.request) (htag : (g s.dir).reqTag = s.dir.reqTag) : Acts s (s.onDir g) :=
  ⟨(onDir_changes s g).mono (by simp), hrep, hreq, htag⟩

theorem acts_onExt (s : State) (k : Slot) (g : Ext → Ext) : Acts s (s.onExt k g) := by
  unfold State.onExt
  split
  · exact acts_onDir rfl rfl rfl
  · exact Acts.refl s

theorem acts_residents (s : State) (l : List Ctx) : Acts s (l.foldl State.endResidency s) := by
  have hdir := residents_dir s l
  exact ⟨(residents_changes s l).mono (by simp), by rw [hdir], by rw [hdir], by rw [hdir]⟩

theorem acts_ownShut (s : State) (k : Slot) (c : ShutCause) : Acts s (s.ownShut k c) := by
  unfold State.ownShut
  refine Acts.trans ?_ (acts_onDir rfl rfl rfl)
  repeat' split
  · exact acts_onDir rfl rfl rfl
  · exact Acts.refl s
  · exact (acts_residents s _).trans (acts_onExt _ k _)
  · exact Acts.refl s

theorem acts_endClose (s : State) (k : Slot) : Acts s (s.endClose k) :=
  (acts_onDir (s := s) rfl rfl rfl).trans (Acts.of_still ((onMem_changes _ _).mono (by simp)))

theorem acts_post (s : State) (b : NoticeBody) : Acts s (s.post b) :=
  Acts.of_still ((onFlt_changes s _).mono (by simp))

theorem acts_ownShutDone (s : State) (k : Slot) (o : ShutOutcome) : Acts s (s.ownShutDone k o) := by
  unfold State.ownShutDone
  repeat' split
  · exact acts_onExt s k _
  · exact acts_endClose s k
  · exact (acts_endClose s k).trans (acts_post _ _)
  · exact acts_endClose s k

theorem acts_ownEffect (s : State) (b : Body) : Acts s (s.ownEffect b) := by
  cases b with
  | claim k kd => exact acts_ownClaim s k kd
  | shut k c a => exact acts_ownShut s k c
  | shutDone k o => exact acts_ownShutDone s k o
  | takeover h =>
    exact (Acts.of_still ((onMem_changes s _).mono (by simp))).trans (acts_post _ _)
  | takeoverEnd h o =>
    exact ((Acts.of_still ((onMem_changes s _).mono (by simp))).trans
      (Acts.of_still ((onMem_changes _ _).mono (by simp)))).trans (acts_post _ _)
  | leave st =>
    exact (Acts.of_still ((onMem_changes s _).mono (by simp))).trans
      (Acts.of_still ((enter_changes _ _).mono (by simp)))
  | _ => exact Acts.refl s

theorem acts_removeHolding (s : State) (k : Slot) : Acts s (s.removeHolding k) := by
  have h := removes_removeHolding s k
  exact ⟨h.changes.mono (by simp), by rw [h.dir], by rw [h.dir], by rw [h.dir]⟩

theorem acts_dropOrphaned (s : State) (k : Slot) : Acts s (s.dropOrphaned k) := by
  unfold State.dropOrphaned
  split
  · exact Acts.refl s
  · exact acts_removeHolding s k

/-! ### The application (R54, R76, R117) -/

/-- R54, R76: what a frame does to the station before the work that follows. -/
def State.acted (u : State) (f : Frame) : State :=
  let v := if f.sender = u.me then (u.applied f).ownEffect f.body else u.applied f
  if f.body.isJoin ∧ f.sender = u.me then allSlots.foldl State.dropOrphaned v else v

theorem acts_acted (u : State) (f : Frame) : Acts (u.applied f) (u.acted f) := by
  have hown : Acts (u.applied f) (if f.sender = u.me then (u.applied f).ownEffect f.body else u.applied f) := by
    split
    · exact acts_ownEffect _ _
    · exact Acts.refl _
  unfold State.acted
  generalize (if f.sender = u.me then (u.applied f).ownEffect f.body else u.applied f) = v at hown ⊢
  dsimp only
  split
  · exact hown.trans (Acts.foldl _ acts_dropOrphaned _ v)
  · exact hown

theorem acted_other {u : State} {f : Frame} (h : f.sender ≠ u.me) : u.acted f = u.applied f := by
  unfold State.acted
  rw [if_neg h]
  exact if_neg fun hc => h hc.2

theorem acted_own {u : State} {f : Frame} (h : f.sender = u.me) (hj : f.body.kind ≠ .join) :
    u.acted f = (u.applied f).ownEffect f.body := by
  unfold State.acted
  rw [if_pos h]
  exact if_neg fun hc => hj (Body.isJoin_kind hc.1)

theorem applyLive_eq {u : State} {f : Frame} (h : f.body ≠ .absent u.me) :
    u.applyLive f = (u.acted f).recallReleased.afterFrame := by
  unfold State.applyLive State.acted
  dsimp only
  split
  next st hb =>
    have hne : st ≠ u.me := fun he => h (by rw [hb, he])
    rw [if_neg hne, hb]
    have hown : (if f.sender = u.me then State.ownEffect ((u.applyRep f).applyReports f) (.absent st)
        else (u.applyRep f).applyReports f) = (u.applyRep f).applyReports f := ite_self _
    exact congrArg (fun v : State => v.recallReleased.afterFrame) hown.symm
  · rfl

theorem recallReleased_changes (s : State) : s.changesOnly s.recallReleased [.dir] := by
  unfold State.recallReleased
  repeat' split
  · exact State.changesOnly.refl s _
  · exact onDir_changes s _
  · exact State.changesOnly.refl s _

/-- R117: an entry that waits on a slot stays while the slot is CLOSING. -/
theorem recallReleased_waits {s : State} {e : RecallEntry} {j : Slot} (h : s.dir.request = some (.recall e))
    (hj : e.phase = .releasing j) :
    s.recallReleased = if s.dir.rep.dir[j].isClosing then s else s.onDir fun d => { d with request := none } := by
  obtain ⟨target, tag, phase, tries, timer⟩ := e
  dsimp only at hj
  subst hj
  unfold State.recallReleased
  rw [h]

theorem recallReleased_dir (s : State) :
    s.recallReleased.dir = { s.dir with request := s.recallReleased.dir.request } := by
  unfold State.recallReleased
  repeat' split
  all_goals rfl

theorem applied_rep (u : State) (f : Frame) : (u.applied f).dir.rep = u.dir.rep.apply f.sender f.body := by
  rw [(reports_applied u f).dir]
  rfl

theorem acted_rep (u : State) (f : Frame) : (u.acted f).dir.rep = u.dir.rep.apply f.sender f.body :=
  (acts_acted u f).rep.trans (applied_rep u f)

theorem applied_changes (u : State) (f : Frame) : u.changesOnly (u.applied f) [.dir, .bus, .flt] :=
  (onDir_changes u _).andThen (reports_applied u f).changes (by simp) fun _ => id

/-- R54: the end of an application. -/
def State.followed (u : State) (f : Frame) : State := (u.acted f).recallReleased.afterFrame

theorem followed_rep (u : State) (f : Frame) : (u.followed f).dir.rep = u.dir.rep.apply f.sender f.body :=
  ((works_recallReleased _).trans (works_afterFrame _)).rep.trans (acted_rep u f)

theorem followed_changes (u : State) (f : Frame) :
    u.changesOnly (u.followed f) [.str, .plc, .dir, .bus, .mem, .link, .flt] :=
  ((((applied_changes u f).mono (by simp)).andThen (acts_acted u f).changes
    (n := [.str, .plc, .dir, .bus, .mem, .link, .flt]) (fun _ => id) fun _ => id).andThen
    (recallReleased_changes _) (n := [.str, .plc, .dir, .bus, .mem, .link, .flt]) (fun _ => id)
    (by simp)).andThen (afterFrame_changes _) (fun _ => id) (by simp [memberBlocks])

theorem followed_link {u : State} {f : Frame} (h : f.sender ≠ u.me) : (u.followed f).link = u.link := by
  unfold State.followed
  rw [((works_recallReleased _).trans (works_afterFrame _)).link, acted_other h]
  exact (applied_changes u f).1 .link (by simp)

/-- R114, R117: the request list after an application, where a RECALL entry waits on a slot. -/
theorem followed_request {u : State} {f : Frame} {e : RecallEntry} {j : Slot}
    (h : u.dir.request = some (.recall e)) (hj : e.phase = .releasing j) :
    ((u.dir.rep.apply f.sender f.body).dir[j].isClosing = true →
        (u.followed f).dir.request = u.dir.request) ∧
      ((u.dir.rep.apply f.sender f.body).dir[j].isClosing = false → ∀ q,
        (u.followed f).dir.request = some q →
          ∃ n, q = .recall n ∧ n.phase = .queued ∧ n.tag = u.dir.reqTag) := by
  have hacts := acts_acted u f
  have hreq : (u.acted f).dir.request = u.dir.request := hacts.request.trans (applied_waits h hj)
  have htag : (u.acted f).dir.reqTag = u.dir.reqTag := by
    rw [hacts.reqTag, (reports_applied u f).dir]
    rfl
  have hrep := acted_rep u f
  unfold State.followed
  generalize u.acted f = w at hreq htag hrep
  have hreleased := recallReleased_waits (hreq.trans h) hj
  rw [hrep] at hreleased
  refine ⟨fun hc => ?_, fun hc q hq => ?_⟩
  · rw [hc, if_pos rfl] at hreleased
    rw [hreleased, (afterFrame_request w).1 (by rw [hreq, h]; simp), hreq]
  · rw [hc] at hreleased
    rw [hreleased] at hq
    obtain ⟨n, hn, hphase, hntag⟩ := (afterFrame_request _).2 rfl q hq
    exact ⟨n, hn, hphase, hntag.trans htag⟩

/-- R54: an application in MEMBER, but for an ABSENT that names the station. -/
theorem exec_applied {c : Instr} {s : State} {own : Bool} {f : Frame} {rest : List RxEntry}
    (h : s.takes own f rest) (hm : s.mem.state = .member) (hc : c.takesKind = some f.body.kind)
    (hk : f.body.kind.isDirectory = true)
    (hp : f.body.kind = .join ∨ s.dir.rep.isPresent f.sender = true) (ha : s.dir.rep.applies f = true) :
    exec c s = .next ((s.taken own).applyLive f).settled := by
  have htook := took_taken (s := s) own (by rw [hm]; decide)
  have hmem : (s.taken own).mem.state = .member := by rw [htook.mem, hm]
  rw [exec_takes hc h, take_directory hk (by rw [hmem]; decide),
    takeDirectory_member hmem (by rw [htook.rep]; exact hp),
    applyOrStale_applies (by rw [htook.rep]; exact ha)]

/-- R54, R117: what every application leaves. -/
theorem follows_followed {s u : State} (h : Took s u) (f : Frame) :
    s.follows (u.followed f).settled f (s.dir.rep.apply f.sender f.body) := by
  rw [← h.rep]
  refine ⟨followed_rep u f, fun hne => ?_, fun e j he hj => ?_, frame_of_changes (h.changes.andThen
    (followed_changes u f) (by simp) fun _ => id) (by simp)⟩
  · exact (followed_link (u := u) (by rw [h.me]; exact hne)).trans h.link
  · have hreq := followed_request (u := u) (f := f) (h.request.trans he) hj
    rw [h.request, h.reqTag] at hreq
    exact hreq

/-- R54: the application of a frame of a PRESENT station. -/
theorem exec_inStep {c : Instr} {s : State} {f : Frame} (h : s.takesInStep f)
    (hc : c.takesKind = some f.body.kind) (hk : f.body.kind.isDirectory = true)
    (hv : s.dir.rep.valid f.sender f.body = true) (hn : f.body ≠ .absent s.mem.stn) :
    ∃ u, Took s u ∧ (s.bus.sending = none → u = s.popRx) ∧ exec c s = .next (u.followed f).settled ∧
      s.follows (u.followed f).settled f (s.dir.rep.apply f.sender f.body) := by
  obtain ⟨⟨own, rest, htakes⟩, hm, hp, hb⟩ := h
  have htook := took_taken (s := s) own (by rw [hm]; decide)
  have ha : s.dir.rep.applies f = true := by
    rw [Replica.applies, hb, hv]
    simp
  refine ⟨s.taken own, htook, fun hs => taken_plain fun _ => hs, ?_, follows_followed htook f⟩
  rw [exec_applied htakes hm hc hk (.inr hp) ha, applyLive_eq (by rw [htook.me]; exact hn)]
  rfl

end Sys2Proof.Machine
end

