-- ==== Sys2Proof/Proofs/SlotFrames.lean ====
section
/-! SUPPORT. Frames of slots applied in MEMBER (R99, R102, R106, R108, R114). -/

namespace Sys2Proof.Machine

/-! ### The answer to the station's own recall (R114) -/

theorem ownShut_bus (s : State) (k : Slot) (c : ShutCause) :
    (s.ownShut k c).bus = s.bus ∧ (s.ownShut k c).flt = s.flt := by
  have hres (l : List Ctx) : (l.foldl State.endResidency s).bus = s.bus ∧
      (l.foldl State.endResidency s).flt = s.flt :=
    ⟨residents_bus s l, (residents_changes s l).1 .flt (by simp)⟩
  unfold State.ownShut State.onExt
  repeat' split
  all_goals first | exact ⟨rfl, rfl⟩ | exact hres _

theorem acted_shut {u : State} {f : Frame} {k : Slot} {c : ShutCause} {a : Option (ReqTag × Station)}
    (hb : f.body = .shut k c a) :
    (u.acted f).bus = (u.applied f).bus ∧ (u.acted f).flt = (u.applied f).flt := by
  by_cases h : f.sender = u.me
  · rw [acted_own h (by rw [hb]; simp [Body.kind]), hb]
    exact ownShut_bus _ k c
  · rw [acted_other h]
    exact ⟨rfl, rfl⟩

theorem applied_recalled {u : State} {f : Frame} {k : Slot} {tag : ReqTag}
    (hb : f.body = .shut k .recalled (some (tag, u.me))) :
    u.applied f = (u.applyRep f).recallAnswered f.sender k tag := by
  unfold State.applied State.applyReports
  rw [hb]
  exact if_pos rfl

theorem recallAnswered_met {s : State} {e : RecallEntry} {tag : ReqTag} (h : s.dir.request = some (.recall e))
    (ht : e.tag = tag) (hj : ∀ j, e.phase ≠ .releasing j) (st : Station) (k : Slot) :
    s.recallAnswered st k tag = (s.withdraw Body.isRecall).onDir fun d =>
      { d with request := some (.recall { e with phase := .releasing k, timer := none }) } := by
  unfold State.recallAnswered
  rw [h]
  dsimp only
  rw [if_pos ht]
  cases hp : e.phase with
  | releasing j => exact absurd hp (hj j)
  | _ => rfl

theorem recallAnswered_unexpected {s : State} {tag : ReqTag}
    (h : ∀ e, s.dir.request = some (.recall e) → e.tag = tag → ∃ j, e.phase = .releasing j)
    (st : Station) (k : Slot) :
    s.recallAnswered st k tag = s.report .unexpectedAnswer (slot := slotByte k) (peer := some st) := by
  unfold State.recallAnswered
  dsimp only
  split
  next e he =>
    by_cases ht : e.tag = tag
    · obtain ⟨j, hj⟩ := h e he ht
      rw [if_pos ht, hj]
    · rw [if_neg ht]
  · rfl

/-- R114, R117: the answer of an applied SHUT RECALLED that names the station. -/
theorem recallMet_followed {s u : State} {f : Frame} {k : Slot} {tag : ReqTag} (h : Took s u)
    (hb : f.body = .shut k .recalled (some (tag, s.mem.stn)))
    (hclosing : (s.dir.rep.apply f.sender f.body).dir[k].isClosing = true) :
    s.recallMet (u.followed f).settled tag k := by
  have hme : u.me = s.mem.stn := h.me
  have happ := applied_recalled (u := u) (f := f) (k := k) (tag := tag) (by rw [hme]; exact hb)
  obtain ⟨hbus, hflt⟩ := acted_shut (u := u) hb
  have hacts := acts_acted u f
  have hrep := acted_rep u f
  rw [h.rep] at hrep
  have hreq : (u.applyRep f).dir.request = s.dir.request := h.request
  unfold State.followed
  generalize u.acted f = w at *
  refine ⟨fun e he ht hj => ?_, fun hun => ?_⟩
  · rw [recallAnswered_met (hreq.trans he) ht hj] at happ
    have hwreq : w.dir.request = some (.recall { e with phase := .releasing k, timer := none }) := by
      rw [hacts.request, happ]
      rfl
    have hkept : w.recallReleased = w := by
      rw [recallReleased_waits hwreq rfl, hrep, hclosing, if_pos rfl]
    have hquiet (q : QFrame) (hq : q ∈ w.bus.waiting) : q.body.kind ≠ .recall := by
      rw [hbus, happ] at hq
      have hn := (withdraw_waiting (s := u.applyRep f) (p := Body.isRecall) hq).2
      cases hbody : q.body <;> rw [hbody] at hn <;> simp [Body.kind, Body.isRecall] at hn ⊢
    rw [hkept]
    have hsome : w.dir.request ≠ none := by rw [hwreq]; simp
    exact ⟨((afterFrame_request w).1 hsome).trans hwreq, fun q hq => afterFrame_noRecall hsome hquiet hq⟩
  · rw [recallAnswered_unexpected (fun e he => hun e (hreq.symm.trans he))] at happ
    have hcount : (u.applyRep f).counted w .unexpectedAnswer :=
      (report_counted (u.applyRep f) _ _ _ _ _).congr rfl (by rw [hflt, happ])
    have hrel : w.recallReleased.flt = w.flt := (recallReleased_changes w).1 .flt (by simp)
    have hs : (u.applyRep f).flt = s.flt := h.flt
    exact hcount.congr (by rw [hs])
      ((afterFrame_counts w.recallReleased (c := .unexpectedAnswer) (by decide)).trans (by rw [hrel]))

/-! ### The directory entries (R54) -/

/-- R54: the effect of a frame that names a slot. -/
theorem apply_slot {r : Replica} {st : Station} {b : Body} {k : Slot} {e : DirEntry}
    (hk : b.kind.isDirectory = true)
    (he : ({ r with gen := r.gen + 1 } : Replica).effect st b =
      ({ r with gen := r.gen + 1 } : Replica).setSlot k e) :
    r.apply st b = { r with gen := r.gen + 1, dir := put r.dir k e } := by
  rw [apply_directory hk, he]
  rfl

/-- Settles O42: the slot of an applied frame, from the validity and the effect of its kind. -/
theorem slotFramesApplied : Obligations.SlotFramesApplied := by
  intro f k s h
  refine ⟨fun kd hb hlt hfree hmixed => ?_, fun c a kd g hb hc hk => ?_, fun a o kd g n hb hk hrun => ?_,
    fun kd g c n hk => ⟨fun hb => ?_, fun hb hn => ?_, fun hb hn => ?_⟩, fun hb hk => ?_⟩
  · obtain ⟨u, -, -, hstep, hfollows⟩ := exec_inStep (c := .claim) h (by rw [hb]; rfl) (by rw [hb]; rfl)
      (by rw [hb, valid_claim_iff]; exact ⟨hlt, hfree, hmixed⟩) (by rw [hb]; simp)
    rw [hb, apply_slot (k := k) rfl rfl] at hfollows
    exact ⟨_, hstep, hfollows⟩
  · obtain ⟨u, htook, -, hstep, hfollows⟩ := exec_inStep (c := .shut) h (by rw [hb]; rfl) (by rw [hb]; rfl)
      (by rw [hb, valid_shut_iff hc]; exact ⟨kd, g, hk⟩) (by rw [hb]; simp)
    have happly : s.dir.rep.apply f.sender f.body = { s.dir.rep with
        gen := s.dir.rep.gen + 1, dir := put s.dir.rep.dir k (.closing f.sender kd g c 0) } := by
      rw [hb]
      refine apply_slot (k := k) rfl ?_
      change Replica.setSlot _ k (Replica.shutEntry f.sender c s.dir.rep.dir[k]) = _
      rw [hk]
      rfl
    have hmet (tag : ReqTag) (hcr : c = .recalled) (ha : a = some (tag, s.mem.stn)) :
        s.recallMet (u.followed f).settled tag k :=
      recallMet_followed htook (by rw [hb, hcr, ha]) (by
        rw [happly]
        exact congrArg DirEntry.isClosing ((put_get _ _ _ _).trans (if_pos rfl)))
    rw [happly] at hfollows
    exact ⟨_, hstep, hfollows, hmet⟩
  · obtain ⟨u, -, -, hstep, hfollows⟩ := exec_inStep (c := .shut) h (by rw [hb]; rfl) (by rw [hb]; rfl)
      (by rw [hb, valid_adopted_iff]; exact ⟨o, kd, g, n, hk, hrun⟩) (by rw [hb]; simp)
    rw [hb, apply_slot (k := k) (e := .closing f.sender kd g .adopted n) rfl (by
      change Replica.setSlot _ k (Replica.shutEntry f.sender .adopted s.dir.rep.dir[k]) = _
      rw [hk]
      rfl)] at hfollows
    exact ⟨_, hstep, hfollows⟩
  · obtain ⟨u, -, -, hstep, hfollows⟩ := exec_inStep (c := .shutDone) h (by rw [hb]; rfl) (by rw [hb]; rfl)
      (by rw [hb, valid_shutDone_iff]; exact ⟨kd, g, c, n, hk, by simp, by simp⟩) (by rw [hb]; simp)
    rw [hb, apply_slot (k := k) (e := .free) rfl rfl] at hfollows
    exact ⟨_, hstep, hfollows⟩
  · obtain ⟨u, -, -, hstep, hfollows⟩ := exec_inStep (c := .shutDone) h (by rw [hb]; rfl) (by rw [hb]; rfl)
      (by rw [hb, valid_shutDone_iff]; exact ⟨kd, g, c, n, hk, fun _ => hn, by simp⟩) (by rw [hb]; simp)
    rw [hb, apply_slot (k := k) (e := .closing f.sender kd g c 1) rfl (by
      change Replica.setSlot _ k (Replica.shutDoneEntry .retrying s.dir.rep.dir[k]) = _
      rw [hk]
      rfl)] at hfollows
    exact ⟨_, hstep, hfollows⟩
  · obtain ⟨u, -, -, hstep, hfollows⟩ := exec_inStep (c := .shutDone) h (by rw [hb]; rfl) (by rw [hb]; rfl)
      (by rw [hb, valid_shutDone_iff]; exact ⟨kd, g, c, n, hk, by simp, fun _ => hn⟩) (by rw [hb]; simp)
    rw [hb, apply_slot (k := k) (e := .quarantined) rfl rfl] at hfollows
    exact ⟨_, hstep, hfollows⟩
  · obtain ⟨u, -, -, hstep, hfollows⟩ := exec_inStep (c := .restore) h (by rw [hb]; rfl) (by rw [hb]; rfl)
      (by rw [hb, valid_restore_iff]; exact hk) (by rw [hb]; simp)
    rw [hb, apply_slot (k := k) (e := .free) rfl rfl] at hfollows
    exact ⟨_, hstep, hfollows⟩

end Sys2Proof.Machine
end

