-- ==== Sys2Proof/Proofs/RosterFrames.lean ====
section
/-! SUPPORT. Frames of the roster and of runs applied in MEMBER (R43, R44, R129, R139 to R141, R146, R152). -/

namespace Sys2Proof.Machine

/-! ### What the work after a frame leaves of a duty record (R145) -/

theorem afterFrame_mem {w : State} (hm : w.mem.state = .member) : ∃ p : State, p.mem = w.mem ∧
    p.dir.rep = w.dir.rep ∧ w.afterFrame.mem = p.dutyEval.mem := by
  obtain ⟨p, q, hp, -, ht, hq⟩ := afterFrame_work w
  rw [hq hm] at ht
  rw [ht]
  exact ⟨p, hp.mem, hp.rep, (queueLeave_changes _).1 .mem (by simp)⟩

theorem afterFrame_duty {w : State} (hm : w.mem.state = .member) {h : Station} {d : Duty}
    (hd : w.mem.duty[h] = some d)
    (hn : d.phase = .running → d.timeouts < 2 ∧ (w.dir.rep.hasOrphan h = true ∨ ∃ a ∈ w.mem.adoption, a.former = h)) :
    w.afterFrame.mem.duty[h] = some d := by
  obtain ⟨p, hmem, hrep, ht⟩ := afterFrame_mem hm
  rw [ht]
  exact dutyEval_kept (by rw [hmem]; exact hd) (by rw [hmem, hrep]; exact hn)

/-- R145: no record is made while the station is not the adopter or the former holder has no orphan. -/
theorem takeRuns_none {s : State} {h : Station} (hd : s.mem.duty[h] = none)
    (hn : s.dir.rep.hasOrphan h = false ∨ s.dir.rep.adopter ≠ some s.mem.stn) :
    s.takeRuns.mem.duty[h] = none := by
  have hfold (l : List Station) (s : State) (hd : s.mem.duty[h] = none) (ho : s.dir.rep.hasOrphan h = false) :
      (l.foldl State.takeRun s).mem.duty[h] = none := by
    induction l generalizing s with
    | nil => exact hd
    | cons j l ih =>
      refine ih (s.takeRun j) ?_ (by rw [(evaluates_takeRun s j).rep]; exact ho)
      unfold State.takeRun
      split
      next hc =>
        refine (setDuty_get s j _ h).trans ((if_neg ?_).trans hd)
        rintro rfl
        rw [ho] at hc
        exact absurd hc.1 (by decide)
      · exact hd
  unfold State.takeRuns
  split
  next hc => exact hfold _ s hd (hn.resolve_right fun hne => hne hc.1)
  · exact hd

/-- A loop of steps, each of which leaves a record absent. -/
theorem foldl_noDuty {h : Station} (f : State → Station → State)
    (hself : ∀ s : State, s.mem.duty[h] = none → f s h = s)
    (hother : ∀ (s : State) (j : Station), h ≠ j → (f s j).mem.duty[h] = s.mem.duty[h])
    (l : List Station) {s : State} (hd : s.mem.duty[h] = none) : (l.foldl f s).mem.duty[h] = none := by
  induction l generalizing s with
  | nil => exact hd
  | cons j l ih =>
    refine ih (s := f s j) ?_
    by_cases hj : h = j
    · rw [← hj, hself s hd]
      exact hd
    · rw [hother s j hj]
      exact hd

theorem dutyEval_none {s : State} {h : Station} (hd : s.mem.duty[h] = none)
    (hn : s.dir.rep.hasOrphan h = false ∨ s.dir.rep.adopter ≠ some s.mem.stn) : s.dutyEval.mem.duty[h] = none := by
  by_cases hm : s.mem.state = .member
  · have hno (s : State) (hd : s.mem.duty[h] = none) (d : Duty) (hd' : s.mem.duty[h] = some d) : False := by
      rw [hd] at hd'
      cases hd'
    have htaken : s.takeRuns.adoptAll.mem.duty[h] = none := by
      rw [(adoptAll_kept _).1]
      exact takeRuns_none hd hn
    rw [dutyEval_member hm, (testNoAdopter_cases _).1.2.1]
    generalize s.takeRuns.adoptAll = u at htaken
    have hcomplete := foldl_noDuty State.completeRun
      (fun s hd => completeRun_kept fun d hd' => (hno s hd d hd').elim)
      (fun s j hne => completeRun_other hne) allStations htaken
    generalize allStations.foldl State.completeRun u = v at hcomplete
    exact foldl_noDuty State.failRun (fun s hd => failRun_kept fun d hd' => (hno s hd d hd').elim)
      (fun s j hne => failRun_other hne) allStations hcomplete
  · rw [dutyEval_idle hm]
    exact hd

theorem afterFrame_noDuty {w : State} (hm : w.mem.state = .member) {h : Station} (hd : w.mem.duty[h] = none)
    (hn : w.dir.rep.hasOrphan h = false ∨ w.dir.rep.adopter ≠ some w.mem.stn) :
    w.afterFrame.mem.duty[h] = none := by
  obtain ⟨p, hmem, hrep, ht⟩ := afterFrame_mem hm
  rw [ht]
  exact dutyEval_none (by rw [hmem]; exact hd) (by rw [hmem, hrep]; exact hn)

/-! ### The roster (R43, R129, R139, R141) -/

/-- R43: the slots and runs of a station that is orphaned. -/
theorem orphaned_of {r r' : Replica} (h : Station)
    (hd : r'.dir = mapIdx r.dir fun _ e => Replica.orphanEntry h e)
    (hr : r'.runs = mapIdx r.runs fun _ a => if a = some h then none else a) : r.orphaned r' h := by
  have hdir (k : Slot) : r'.dir[k] = Replica.orphanEntry h r.dir[k] := by
    rw [hd]
    exact mapIdx_get _ _ k
  refine ⟨fun k kd g hk => ?_, fun k kd g c a hk => ?_, fun k hk => ?_, fun j => ?_⟩
  · rw [hdir, hk]
    exact if_pos rfl
  · rw [hdir, hk]
    exact if_pos rfl
  · rw [hdir]
    cases he : r.dir[k] <;> rw [he] at hk <;> simp only [Replica.orphanEntry]
    · exact if_neg fun h' => hk (by rw [h']; rfl)
    · exact if_neg fun h' => hk (by rw [h']; rfl)
  · rw [hr]
    exact mapIdx_get _ _ j

/-- R43: an orphaning after which only the roster changes. -/
theorem orphaned_setRoster (r : Replica) (g : Gen) (h st : Station) (e : RosterEntry → RosterEntry) :
    r.orphaned ((({ r with gen := g } : Replica).orphan h).setRoster st e) h ∧
      ((({ r with gen := g } : Replica).orphan h).setRoster st e).gen = g ∧
      ((({ r with gen := g } : Replica).orphan h).setRoster st e).params = r.params ∧
      ((({ r with gen := g } : Replica).orphan h).setRoster st e).roster =
        put r.roster st (e r.roster[st]) := by
  unfold Replica.setRoster Replica.orphan
  exact ⟨orphaned_of h (by dsimp only) (by dsimp only), by dsimp only, by dsimp only, by dsimp only⟩

/-- R129, R139: the replica an applied JOIN leaves. -/
theorem apply_join (r : Replica) (sender st : Station) (q : BitVec 4) (a : Bool) (d : Params) :
    (r.apply sender (.join st q a d)).gen = r.gen + 1 ∧
      (r.apply sender (.join st q a d)).params = r.params ∧
      (r.apply sender (.join st q a d)).roster = put r.roster sender
        { state := .present, quota := some q, adoptDis := some a, takeoverFailed := false } ∧
      (r.isPresent sender = true → r.orphaned (r.apply sender (.join st q a d)) sender) ∧
      (r.isPresent sender = false → (r.apply sender (.join st q a d)).dir = r.dir ∧
        (r.apply sender (.join st q a d)).runs = r.runs) := by
  have happly : r.apply sender (.join st q a d) =
      (if r.isPresent sender then ({ r with gen := r.gen + 1 } : Replica).orphan sender
        else { r with gen := r.gen + 1 }).setRoster sender fun _ =>
      { state := .present, quota := some q, adoptDis := some a, takeoverFailed := false } := rfl
  rw [happly]
  cases hp : r.isPresent sender with
  | true =>
    obtain ⟨horphan, hgen, hparams, hroster⟩ := orphaned_setRoster r (r.gen + 1) sender sender fun _ =>
      { state := .present, quota := some q, adoptDis := some a, takeoverFailed := false }
    rw [if_pos rfl]
    exact ⟨hgen, hparams, hroster, fun _ => horphan, fun h => (nomatch h)⟩
  | false => exact ⟨rfl, rfl, rfl, fun h => (nomatch h), fun _ => ⟨rfl, rfl⟩⟩

theorem dropOrphaned_flt (l : List Slot) (s : State) : (l.foldl State.dropOrphaned s).flt = s.flt := by
  have h : s.changesOnly (l.foldl State.dropOrphaned s) [.str, .plc, .dir, .link] := by
    refine State.changesOnly.foldl _ (fun x k => ?_) l s
    unfold State.dropOrphaned
    split
    · exact State.changesOnly.refl x _
    · exact (removes_removeHolding x k).changes
  exact h.1 .flt (by simp)

/-- R129: a JOIN with another digest is reported. -/
theorem followed_digest {s u : State} (h : Took s u) {f : Frame} {st : Station} {q : BitVec 4} {a : Bool}
    {d : Params} (hb : f.body = .join st q a d) (hd : s.dir.rep.params ≠ some d) :
    s.counted (u.followed f).settled .paramMismatch := by
  obtain ⟨-, hparams, -⟩ := apply_join u.dir.rep f.sender st q a d
  have happ : u.applied f =
      ((u.applyRep f).postPeer f.sender).report .paramMismatch (peer := some f.sender) := by
    unfold State.applied State.applyReports
    rw [hb]
    refine (if_neg ?_ :)
    change ¬ (u.dir.rep.apply f.sender f.body).params = some d
    rw [hb, hparams, h.rep]
    exact hd
  have hacted : (u.acted f).flt = (u.applied f).flt := by
    unfold State.acted
    rw [hb]
    have hown : (if f.sender = u.me then (u.applied f).ownEffect (.join st q a d) else u.applied f) =
        u.applied f := ite_self _
    dsimp only
    rw [hown]
    split
    · exact dropOrphaned_flt allSlots _
    · rfl
  have hcount : ((u.applyRep f).postPeer f.sender).counted (u.acted f) .paramMismatch :=
    (report_counted ((u.applyRep f).postPeer f.sender) _ _ _ _ _).congr rfl (by rw [hacted, happ])
  have hpost : ((u.applyRep f).postPeer f.sender).flt.counts = s.flt.counts :=
    (post_counts _ _).trans (congrArg Faults.counts h.flt)
  have hrel : (u.acted f).recallReleased.flt = (u.acted f).flt := (recallReleased_changes _).1 .flt (by simp)
  unfold State.followed
  generalize u.acted f = w at *
  exact hcount.congr (by rw [hpost])
    ((afterFrame_counts w.recallReleased (c := .paramMismatch) (by decide)).trans (by rw [hrel]))

/-- R129: a JOIN is applied whatever its base generation. -/
theorem exec_join {s : State} {own : Bool} {f : Frame} {rest : List RxEntry} {st : Station} {q : BitVec 4}
    {a : Bool} {d : Params} (h : s.takes own f rest) (hm : s.mem.state = .member) (hb : f.body = .join st q a d) :
    Took s (s.taken own) ∧ exec .join s = .next ((s.taken own).followed f).settled := by
  refine ⟨took_taken own (by rw [hm]; decide), ?_⟩
  have hk : f.body.kind = .join := by rw [hb]; rfl
  have ha : s.dir.rep.applies f = true := by
    rw [Replica.applies, hk]
    rfl
  rw [exec_applied h hm (by rw [hk]; rfl) (by rw [hk]; rfl) (.inl hk) ha, applyLive_eq (by rw [hb]; simp)]
  rfl

/-- R54: the membership state after a frame of another station. -/
theorem followed_state {u : State} {f : Frame} (h : (u.acted f) = u.applied f) :
    (u.followed f).mem.state = u.mem.state := by
  unfold State.followed
  rw [((works_recallReleased _).trans (works_afterFrame _)).state, h]
  exact congrArg Members.state ((applied_changes u f).1 .mem (by simp))

/-- R141: the station's own LEAVE makes it DORMANT, and no work follows. -/
theorem followed_leave {u : State} {f : Frame} {st : Station} (hb : f.body = .leave st) (h : f.sender = u.me) :
    (u.followed f).mem.state = .dormant ∧ (u.followed f).mem.departing = false ∧
      (u.followed f).bus.receiver = .off ∧ (u.followed f).bus.tx = [] ∧ (u.followed f).bus.held = [] := by
  have hacted : u.acted f = (u.applied f).ownLeave := by
    rw [acted_own h (by rw [hb]; simp [Body.kind]), hb]
    rfl
  have hrel := recallReleased_changes (u.applied f).ownLeave
  have hmem : (u.applied f).ownLeave.recallReleased.mem = (u.applied f).ownLeave.mem := hrel.1 .mem (by simp)
  have hbus : (u.applied f).ownLeave.recallReleased.bus = (u.applied f).ownLeave.bus := hrel.1 .bus (by simp)
  have hidle : (u.applied f).ownLeave.recallReleased.afterFrame = (u.applied f).ownLeave.recallReleased :=
    if_neg (by rw [hmem]; exact (by decide : MemberState.dormant ≠ .member))
  unfold State.followed
  rw [hacted, hidle, hmem, hbus]
  exact ⟨rfl, rfl, rfl, rfl, rfl⟩

/-- R140: an applied ABSENT that names the station. -/
theorem applyLive_named {u : State} {f : Frame} (hb : f.body = .absent u.me) :
    u.applyLive f = (u.applied f).namedAbsent (some f.sender) := by
  unfold State.applyLive
  rw [hb]
  exact if_pos rfl

theorem applied_absent {u : State} {f : Frame} {st : Station} (hb : f.body = .absent st) :
    u.applied f = (u.applyRep f).postPeer st := by
  unfold State.applied State.applyReports
  rw [hb]
  rfl

/-- Settles O43: the roster after a JOIN, a LEAVE and an ABSENT. -/
theorem rosterFramesApplied : Obligations.RosterFramesApplied := by
  refine ⟨fun own f rest st q a d s h hm hb => ?_, fun f st s h hb hheld hruns => ?_,
    fun f st s h hb hne hp => ⟨fun hself => ?_, fun hself => ?_⟩⟩
  · obtain ⟨htook, hstep⟩ := exec_join h hm hb
    have hfollows := follows_followed htook f
    obtain ⟨hgen, -, hroster, hpresent, habsent⟩ := apply_join s.dir.rep f.sender st q a d
    rw [← hb] at hgen hroster hpresent habsent
    have hrep := hfollows.1
    rw [← hrep] at hfollows hgen hroster hpresent habsent
    exact ⟨_, hstep, hfollows, hgen, hroster, hpresent, habsent, fun hd => followed_digest htook hb hd⟩
  · obtain ⟨u, htook, -, hstep, hfollows⟩ := exec_inStep (c := .leave) h (by rw [hb]; rfl) (by rw [hb]; rfl)
      (by rw [hb, valid_leave_iff, ← heldCount_zero_iff]; exact ⟨hheld, hruns⟩) (by rw [hb]; simp)
    have happly : s.dir.rep.apply f.sender f.body = { s.dir.rep with
        gen := s.dir.rep.gen + 1,
        roster := put s.dir.rep.roster f.sender
          { s.dir.rep.roster[f.sender] with state := .departed } } := by
      rw [hb]
      rfl
    rw [happly] at hfollows
    refine ⟨_, hstep, hfollows, fun hne => ?_, fun heq => followed_leave hb (by rw [htook.me]; exact heq)⟩
    refine (followed_state (acted_other (by rw [htook.me]; exact hne))).trans ?_
    rw [htook.mem]
    exact h.2.1
  · obtain ⟨u, htook, -, hstep, hfollows⟩ := exec_inStep (c := .absent) h (by rw [hb]; rfl) (by rw [hb]; rfl)
      (by rw [hb, valid_absent_iff]; exact ⟨hp, hne⟩) (by rw [hb, Ne, Body.absent.injEq]; exact hself)
    have happly : s.dir.rep.apply f.sender f.body =
        (({ s.dir.rep with gen := s.dir.rep.gen + 1 } : Replica).orphan st).setRoster st fun e =>
          { e with state := .absent } := by
      rw [hb]
      rfl
    have hrep := hfollows.1
    rw [← hrep] at hfollows
    rw [happly] at hrep
    have hacted : u.acted f = u.applied f := by
      by_cases hown : f.sender = u.me
      · rw [acted_own hown (by rw [hb]; simp [Body.kind]), hb]
        rfl
      · exact acted_other hown
    obtain ⟨horphan, hgen, -, hroster⟩ := orphaned_setRoster s.dir.rep (s.dir.rep.gen + 1) st st fun e =>
      { e with state := .absent }
    rw [← hrep] at horphan hgen hroster
    exact ⟨_, hstep, hfollows, (followed_state hacted).trans (by rw [htook.mem]; exact h.2.1), hgen, horphan,
      hroster⟩
  · obtain ⟨⟨own, rest, htakes⟩, hm, hpresent, hbase⟩ := h
    have htook := took_taken (s := s) own (by rw [hm]; decide)
    have ha : s.dir.rep.applies f = true := by
      rw [applies_iff (by rw [hb]; simp [Body.kind]), hb, valid_absent_iff]
      exact ⟨hbase, hp, hne⟩
    refine ⟨_, exec_applied htakes hm (by rw [hb]; rfl) (by rw [hb]; rfl) (.inr hpresent) ha, ?_⟩
    rw [applyLive_named (by rw [hb, hself, htook.me]; rfl)]
    have hchanges := applied_changes (s.taken own) f
    have hext : ((s.taken own).applied f).dir.ext = (s.taken own).dir.ext := by
      rw [(reports_applied _ f).dir]
      rfl
    have hmem : ((s.taken own).applied f).mem = s.mem := (hchanges.1 .mem (by simp)).trans htook.mem
    refine tookAbsent_settled ⟨htook.changes.andThen hchanges (by simp) (by simp), by rw [hmem], fun k g => ?_⟩ ?_
      (by rw [hmem]) _
    · rw [← htook.sameHoldings.holding k g]
      unfold State.hasHolding
      rw [hext]
    · rw [applied_absent hb]
      exact congrArg (·[Cause.namedAbsent.index]) ((post_counts _ _).trans (congrArg Faults.counts htook.flt))

/-! ### Runs (R44, R146, R152) -/

theorem recallReleased_mem (s : State) :
    s.recallReleased.mem = s.mem ∧ s.recallReleased.flt = s.flt ∧ s.recallReleased.dir.rep = s.dir.rep :=
  ⟨(recallReleased_changes s).1 .mem (by simp), (recallReleased_changes s).1 .flt (by simp),
    (works_recallReleased s).rep⟩

/-- R146: the station's own TAKEOVER begins the run. -/
theorem followed_takeover {u : State} {f : Frame} {h : Station} (hm : u.mem.state = .member)
    (hb : f.body = .takeover h) (hown : f.sender = u.me) (ho : u.dir.rep.hasOrphan h = true) :
    (u.followed f).mem.duty[h] = some { phase := .running, timeouts := 0, lastTimeout := none } := by
  have hacted : u.acted f = (u.applied f).ownTakeover h := by
    rw [acted_own hown (by rw [hb]; simp [Body.kind]), hb]
    rfl
  have hmem : (u.applied f).mem = u.mem := (applied_changes u f).1 .mem (by simp)
  have hrep := acted_rep u f
  unfold State.followed
  rw [hacted] at hrep ⊢
  have hduty : ((u.applied f).ownTakeover h).mem.duty[h] =
      some { phase := .running, timeouts := 0, lastTimeout := none } :=
    (setDuty_get (u.applied f) h _ h).trans (if_pos rfl)
  have hstate : ((u.applied f).ownTakeover h).mem.state = .member := by
    change (u.applied f).mem.state = _
    rw [hmem, hm]
  generalize (u.applied f).ownTakeover h = w at hrep hduty hstate ⊢
  obtain ⟨hrmem, -, hrrep⟩ := recallReleased_mem w
  refine afterFrame_duty (by rw [hrmem, hstate]) (by rw [hrmem]; exact hduty) fun _ => ⟨by decide, .inl ?_⟩
  rw [hrrep, hrep, hb]
  exact ho

/-- R44: the replica that an applied TAKEOVER-END leaves gives its sender no new run of that former holder. -/
theorem apply_takeoverEnd_noRun {r : Replica} {st h : Station} {o : RunOutcome}
    (ho : o = .done → r.hasOrphan h = false) :
    (r.apply st (.takeoverEnd h o)).hasOrphan h = false ∨
      (r.apply st (.takeoverEnd h o)).adopter ≠ some st := by
  cases o with
  | done => exact .inl (ho rfl)
  | failed =>
    refine .inr fun hc => ?_
    obtain ⟨-, -, hf⟩ := ((adopter_iff _ st).1 hc).1
    have hget : (r.apply st (.takeoverEnd h .failed)).roster[st] =
        { r.roster[st] with takeoverFailed := true } := (put_get _ _ _ _).trans (if_pos rfl)
    rw [hget] at hf
    cases hf

theorem acted_takeoverEnd {u : State} {f : Frame} {h : Station} {o : RunOutcome} (hb : f.body = .takeoverEnd h o) :
    u.applied f = (u.applyRep f).postPeer f.sender ∧
      u.acted f = if f.sender = u.me then (u.applied f).ownTakeoverEnd h o else u.applied f := by
  refine ⟨?_, ?_⟩
  · unfold State.applied State.applyReports
    rw [hb]
    rfl
  · split
    next hown =>
      rw [acted_own hown (by rw [hb]; simp [Body.kind]), hb]
      rfl
    next hown => exact acted_other hown

/-- R152: the station's own TAKEOVER-END ends its record. -/
theorem followed_takeoverEnd {u : State} {f : Frame} {h : Station} {o : RunOutcome} (hm : u.mem.state = .member)
    (hb : f.body = .takeoverEnd h o) (hown : f.sender = u.me) (ho : o = .done → u.dir.rep.hasOrphan h = false) :
    (u.followed f).mem.duty[h] = none := by
  have hacted := (acted_takeoverEnd (u := u) hb).2
  rw [if_pos hown] at hacted
  have hmem : (u.applied f).mem = u.mem := (applied_changes u f).1 .mem (by simp)
  have hrep := acted_rep u f
  unfold State.followed
  rw [hacted] at hrep ⊢
  have hduty : ((u.applied f).ownTakeoverEnd h o).mem.duty[h] = none :=
    (setDuty_get (u.applied f) h none h).trans (if_pos rfl)
  have hkept : ((u.applied f).ownTakeoverEnd h o).mem.state = u.mem.state ∧
      ((u.applied f).ownTakeoverEnd h o).mem.stn = u.mem.stn := by
    change (u.applied f).mem.state = _ ∧ (u.applied f).mem.stn = _
    rw [hmem]
    exact ⟨rfl, rfl⟩
  generalize (u.applied f).ownTakeoverEnd h o = w at hrep hduty hkept ⊢
  obtain ⟨hrmem, -, hrrep⟩ := recallReleased_mem w
  refine afterFrame_noDuty (by rw [hrmem, hkept.1, hm]) (by rw [hrmem]; exact hduty) ?_
  rw [hrrep, hrep, hrmem, hkept.2, hb, hown]
  exact apply_takeoverEnd_noRun ho

/-- R152: the PEER notice of an applied TAKEOVER-END. -/
theorem followed_tells {u : State} {f : Frame} {h : Station} {o : RunOutcome} (hb : f.body = .takeoverEnd h o)
    (hroom : u.flt.notices.length < 16) :
    (u.followed f).flt.tells (.peer f.sender (u.dir.rep.apply f.sender f.body).roster[f.sender].state
      (u.dir.rep.apply f.sender f.body).roster[f.sender].takeoverFailed
      ((u.dir.rep.apply f.sender f.body).quota f.sender)) := by
  obtain ⟨happlied, hacted⟩ := acted_takeoverEnd (u := u) hb
  have htold : (u.applied f).flt.tells (.peer f.sender (u.dir.rep.apply f.sender f.body).roster[f.sender].state
      (u.dir.rep.apply f.sender f.body).roster[f.sender].takeoverFailed
      ((u.dir.rep.apply f.sender f.body).quota f.sender)) := by
    rw [happlied]
    refine ⟨{ body := _, lost := false }, ?_, rfl⟩
    change _ ∈ ((u.applyRep f).flt.post _).notices
    rw [Faults.post_room (f := (u.applyRep f).flt) hroom]
    exact List.mem_append_right _ (List.mem_singleton.2 rfl)
  have hown : (u.acted f).flt.tells (.peer f.sender (u.dir.rep.apply f.sender f.body).roster[f.sender].state
      (u.dir.rep.apply f.sender f.body).roster[f.sender].takeoverFailed
      ((u.dir.rep.apply f.sender f.body).quota f.sender)) := by
    rw [hacted]
    split
    · exact tells_post htold _
    · exact htold
  unfold State.followed
  refine tells_afterFrame ?_
  rw [(recallReleased_mem _).2.1]
  exact hown

/-- Settles O44: the runs after a TAKEOVER and a TAKEOVER-END. -/
theorem takeoverFramesApplied : Obligations.TakeoverFramesApplied := by
  refine fun f h s hf => ⟨fun hb hrun ho had => ?_, fun o hb hrun ho => ?_⟩
  · obtain ⟨u, htook, -, hstep, hfollows⟩ := exec_inStep (c := .takeover) hf (by rw [hb]; rfl) (by rw [hb]; rfl)
      (by rw [hb]; simp [Replica.valid, hrun, ho, had]) (by rw [hb]; simp)
    have happly : s.dir.rep.apply f.sender f.body = { s.dir.rep with
        gen := s.dir.rep.gen + 1, runs := put s.dir.rep.runs h (some f.sender) } := by
      rw [hb]
      rfl
    rw [happly] at hfollows
    exact ⟨_, hstep, hfollows, fun hown => ⟨_, followed_takeover (by rw [htook.mem]; exact hf.2.1) hb
      (by rw [htook.me]; exact hown) (by rw [htook.rep]; exact ho), rfl, rfl⟩⟩
  · obtain ⟨u, htook, -, hstep, hfollows⟩ := exec_inStep (c := .takeoverEnd) hf (by rw [hb]; rfl)
      (by rw [hb]; rfl) (by rw [hb]; cases o <;> simp_all [Replica.valid]) (by rw [hb]; simp)
    refine ⟨_, hstep, fun hd => ?_, fun hfail => ?_, fun hroom => ?_, fun hown => ?_⟩
    · rw [hb, hd] at hfollows
      exact hfollows
    · rw [hb, hfail] at hfollows
      exact hfollows
    · have htells := followed_tells (u := u) hb (by rw [htook.flt]; exact hroom)
      rw [htook.rep] at htells
      have hget : (s.dir.rep.apply f.sender f.body).roster[f.sender] = { s.dir.rep.roster[f.sender] with
          takeoverFailed := o == .failed || s.dir.rep.roster[f.sender].takeoverFailed } := by
        rw [hb]
        cases o with
        | done => rfl
        | failed => exact (put_get _ _ _ _).trans (if_pos rfl)
      have hpresent : s.dir.rep.roster[f.sender].state = .present := eq_of_beq hf.2.2.1
      rw [hget] at htells
      dsimp only at htells
      rw [hpresent, ← hfollows.1] at htells
      exact htells
    · exact followed_takeoverEnd (by rw [htook.mem]; exact hf.2.1) hb (by rw [htook.me]; exact hown)
        (by rw [htook.rep]; exact ho)

end Sys2Proof.Machine
end

