-- ==== Sys2Proof/Proofs/OwnFrames.lean ====
section
/-! SUPPORT. The station's own CLAIM, SHUT and SHUT-DONE, and its holdings (R49, R50, R63, R99 to R106,
R174). -/

namespace Sys2Proof.Machine

/-! ### The station's own frame (R54) -/

/-- The station as its own frame acts on it: only the replica, the request and the fault capture unit have
changed. -/
structure OwnStands (s v : State) (f : Frame) : Prop where
  dir : v.dir = { s.dir with rep := s.dir.rep.apply f.sender f.body, request := v.dir.request }
  mem : v.mem = s.mem
  plc : v.plc = s.plc
  link : v.link = s.link

theorem exec_own {c : Instr} {s : State} {f : Frame} (h : s.takesInStep f) (hown : f.sender = s.mem.stn)
    (hs : s.bus.sending = none) (hc : c.takesKind = some f.body.kind) (hk : f.body.kind.isDirectory = true)
    (hj : f.body.kind ≠ .join) (hn : f.body ≠ .absent s.mem.stn) (ha : s.dir.rep.applies f = true) :
    ∃ v, OwnStands s v f ∧
      exec c s = .next ((v.ownEffect f.body).recallReleased.afterFrame).settled := by
  have hv : s.dir.rep.valid f.sender f.body = true := ((applies_iff hj).1 ha).2
  obtain ⟨u, htook, hpop, hstep, -⟩ := exec_inStep h hc hk hv hn
  obtain rfl := hpop hs
  have hchanges := applied_changes s.popRx f
  refine ⟨s.popRx.applied f, ⟨?_, (hchanges.1 .mem (by simp) :), (hchanges.1 .plc (by simp) :),
    (hchanges.1 .link (by simp) :)⟩, ?_⟩
  · rw [(reports_applied s.popRx f).dir]
    rfl
  · rw [hstep, State.followed, acted_own (by rw [htook.me]; exact hown) hj]

/-- What the work after an own frame leaves of the holdings, the claim list and the link. -/
structure OwnWorked (w t : State) : Prop where
  gone : ∀ k : Slot, w.dir.ext[k] = none → t.dir.ext[k] = none
  ext : ∀ (k : Slot) (x : Ext), w.dir.ext[k] = some x → ∃ y, t.dir.ext[k] = some y ∧ x.KeptIn y ∧
    (w.shutApplied k = true → y.shutDue = x.shutDue)
  closing : t.dir.closing = w.dir.closing
  claims : ∀ e ∈ w.plc.claims, ∃ e' ∈ t.plc.claims, e.keptAs e'
  link : t.link = w.link

theorem ownWorked (w : State) : OwnWorked w w.recallReleased.afterFrame := by
  obtain ⟨p, hp, hdir, hplc, -⟩ := afterFrame_policy w.recallReleased
  have hrel := recallReleased_dir w
  have hext : w.recallReleased.dir.ext = w.dir.ext := by rw [hrel]
  have hmem : w.recallReleased.mem = w.mem := (recallReleased_changes w).1 .mem (by simp)
  have hclaims : w.recallReleased.plc = w.plc := (recallReleased_changes w).1 .plc (by simp)
  have happlied (k : Slot) : w.recallReleased.shutApplied k = w.shutApplied k := by
    simp only [State.shutApplied, State.holdsSlot, State.me, hmem, (recallReleased_mem w).2.2]
  refine ⟨fun k hk => ?_, fun k x hk => ?_, ?_, fun e he => ?_,
    ((works_recallReleased w).trans (works_afterFrame _)).link⟩
  · rw [hdir]
    exact (hp.ext k).1 (by rw [hext]; exact hk)
  · obtain ⟨y, hy, hkept⟩ := (hp.ext k).2 x (by rw [hext]; exact hk)
    exact ⟨y, by rw [hdir]; exact hy, hkept, fun ha =>
      (hp.noShut k x y (by rw [hext]; exact hk) (by rw [happlied]; exact ha) hy).1⟩
  · rw [hdir, hp.closing, hrel]
  · rw [hplc]
    exact hp.kept e (by rw [hclaims]; exact he)

/-! ### CLAIM (R49, R63, R99, R174) -/

theorem ownClaim_holds {s v : State} {f : Frame} (h : OwnStands s v f) (k : Slot) (kd : SlotKind)
    (hk : (s.dir.rep.apply f.sender f.body).dir[k].isOpen = true) :
    ∃ x, (v.ownClaim k kd).dir.ext[k] = some x ∧ (Ext.fresh (s.dir.rep.apply f.sender f.body).gen).KeptIn x ∧
      (s.mem.departing = true → x.shutDue = some .leaving) := by
  have hgen : v.dir.rep.gen = (s.dir.rep.apply f.sender f.body).gen := by rw [h.dir]
  have hget : (v.slotClaimed k kd).dir.ext[k] = some (Ext.fresh (s.dir.rep.apply f.sender f.body).gen) := by
    rw [← hgen]
    exact (setExt_get v k k _).trans (if_pos rfl)
  rw [ownClaim_eq, h.mem]
  cases hd : s.mem.departing with
  | false => exact ⟨_, hget, {}, fun h => by cases h⟩
  | true =>
    have hopen : (v.slotClaimed k kd).dir.rep.dir[k].isOpen = true := by
      change v.dir.rep.dir[k].isOpen = true
      rw [h.dir]
      exact hk
    obtain ⟨y, hy, hkept⟩ := decideShut_ext hget rfl (isOpen_notApplied hopen) .leaving none
    have hdue := (hkept.due rfl).1
    exact ⟨y, hy, { hkept with due := fun hn => (nomatch hn) }, fun _ => hdue⟩

theorem ownClaim_kept (v : State) (k : Slot) (kd : SlotKind) :
    (v.ownClaim k kd).link = { v.link with heldOpens := v.link.heldOpens ++
        [{ slot := k, serial := v.dir.rep.gen, kind := kd }] } ∧
      ∀ e ∈ v.plc.claims, e.slot = k →
        ∃ e' ∈ (v.ownClaim k kd).plc.claims, e'.slot = k ∧ e'.phase = .opening := by
  have hclaims (e : ClaimEntry) (he : e ∈ v.plc.claims) (hs : e.slot = k) :
      ∃ e' ∈ (v.slotClaimed k kd).plc.claims, e'.slot = k ∧ e'.phase = .opening := by
    refine ⟨_, List.mem_map_of_mem he, ?_⟩
    cases hp : e.phase with
    | queued =>
      rw [if_pos ⟨hs, rfl⟩]
      exact ⟨hs, rfl⟩
    | opening =>
      rw [if_neg (by simp)]
      exact ⟨hs, hp⟩
  rw [ownClaim_eq]
  split
  · have hp := polices_decideShut (v.slotClaimed k kd) k .leaving none
    refine ⟨hp.link, fun e he hs => ?_⟩
    obtain ⟨e', he', hs', hph'⟩ := hclaims e he hs
    obtain ⟨e'', he'', hslot, -, hphase⟩ := hp.kept e' he'
    exact ⟨e'', he'', hslot.trans hs', hphase.trans hph'⟩
  · exact ⟨rfl, hclaims⟩

/-! ### SHUT (R50, R102, R148) -/

theorem ownShut_kept (v : State) (k : Slot) (c : ShutCause) :
    (v.ownShut k c).link = v.link ∧ (v.ownShut k c).mem = v.mem := by
  have hres (l : List Ctx) : (l.foldl State.endResidency v).link = v.link ∧
      (l.foldl State.endResidency v).mem = v.mem :=
    ⟨(residents_changes v l).1 .link (by simp), (residents_changes v l).1 .mem (by simp)⟩
  unfold State.ownShut State.onExt
  repeat' split
  all_goals first | exact ⟨rfl, rfl⟩ | exact hres _

theorem ownShut_held {v : State} {k : Slot} {c : ShutCause} {x : Ext} (hc : c ≠ .adopted)
    (hx : v.dir.ext[k] = some x) : ∃ y, (v.ownShut k c).dir.ext[k] = some y ∧ y.shutDue = none ∧
      y.serial = x.serial ∧ y.cursor = x.cursor ∧ y.inFlight = x.inFlight ∧
      (v.ownShut k c).dir.closing = v.dir.closing ++ [k] ∧ (v.ownShut k c).dir.rep = v.dir.rep := by
  obtain ⟨z, hz, hkept⟩ := ((polices_residents v x.residents).ext k).2 x hx
  have hdir := residents_dir v x.residents
  have heq : v.ownShut k c = ((x.residents.foldl State.endResidency v).onExt k fun y =>
      { y with shutDue := none, shutRecall := none, shutSent := false }).onDir
        fun d => { d with closing := d.closing ++ [k] } := by
    unfold State.ownShut
    rw [if_neg hc, hx]
  rw [heq]
  generalize x.residents.foldl State.endResidency v = u at hz hdir
  have hget := (onExt_get u k k fun y => { y with shutDue := none, shutRecall := none, shutSent := false }).trans
    (if_pos rfl)
  have hdir' := onExt_dir u k fun y => { y with shutDue := none, shutRecall := none, shutSent := false }
  rw [hz] at hget
  generalize (u.onExt k fun y => { y with shutDue := none, shutRecall := none, shutSent := false }) = u' at hget hdir'
  refine ⟨_, hget, rfl, hkept.serial, hkept.cursor, hkept.inFlight, ?_, ?_⟩
  · change u'.dir.closing ++ [k] = _
    rw [hdir', hdir]
  · change u'.dir.rep = _
    rw [hdir', hdir]

theorem ownShut_adopted {v : State} {k : Slot} {g : Gen} (hg : v.dir.rep.dir[k].serial? = some g) :
    (v.ownShut k .adopted).dir.ext[k] = some (Ext.forClose g v.dir.rep.capacity) ∧
      (v.ownShut k .adopted).dir.closing = v.dir.closing ++ [k] := by
  have heq : v.ownShut k .adopted = (v.setExt k (some (Ext.forClose g v.dir.rep.capacity))).onDir
      fun d => { d with closing := d.closing ++ [k] } := by
    unfold State.ownShut
    rw [if_pos rfl, hg]
  rw [heq]
  exact ⟨(setExt_get v k k _).trans (if_pos rfl), rfl⟩

/-! ### SHUT-DONE (R106) -/

theorem endClose_gone (v : State) (k : Slot) :
    (v.endClose k).dir.ext[k] = none ∧ k ∉ (v.endClose k).dir.closing ∧ (v.endClose k).link = v.link :=
  ⟨(put_get _ _ _ _).trans (if_pos rfl), fun h => by simpa using (List.mem_filter.1 h).2, rfl⟩

theorem ownShutDone_ended {v : State} {k : Slot} {o : ShutOutcome} (ho : o ≠ .retrying) :
    (v.ownShutDone k o).dir.ext[k] = none ∧ k ∉ (v.ownShutDone k o).dir.closing ∧
      (v.ownShutDone k o).link = v.link := by
  cases o with
  | retrying => exact absurd rfl ho
  | closed => exact endClose_gone v k
  | quarantined =>
    unfold State.ownShutDone
    cases v.dir.ext[k] with
    | none => exact endClose_gone v k
    | some x => exact endClose_gone v k

theorem ownShutDone_retrying (v : State) (k : Slot) :
    (v.ownShutDone k .retrying).link = v.link ∧ ∀ x, v.dir.ext[k] = some x →
      (v.ownShutDone k .retrying).dir.ext[k] = some { x with closeReport := none, reportSent := none } := by
  have hlink := (onExt_changes v k fun x => { x with closeReport := none, reportSent := none }).1 .link (by simp)
  refine ⟨hlink, fun x hx => ?_⟩
  have hget := (onExt_get v k k fun x => { x with closeReport := none, reportSent := none }).trans (if_pos rfl)
  rw [hx] at hget
  exact hget

/-- R49, R63, R99, R174: the station's own CLAIM. -/
theorem exec_ownClaim {s : State} {f : Frame} {k : Slot} (hf : s.takesInStep f) (hown : f.sender = s.mem.stn)
    (hs : s.bus.sending = none) {kd : SlotKind} (hb : f.body = .claim k kd)
    (ha : s.dir.rep.applies f = true) :
    ∃ t x, exec .claim s = .next t ∧ t.dir.ext[k] = some x ∧ x.serial = s.dir.rep.gen + 1 ∧
      x.readiness = .awaitingOpen ∧ x.cursor = 0 ∧ x.inFlight = 0 ∧
      t.link = { s.link with heldOpens := s.link.heldOpens ++
        [{ slot := k, serial := s.dir.rep.gen + 1, kind := kd }] } ∧
      (∀ e ∈ s.plc.claims, e.slot = k → ∃ y ∈ t.plc.claims, y.slot = k ∧ y.phase = .opening) ∧
      (s.mem.departing = true → x.shutDue = some .leaving) := by
  obtain ⟨v, hv, hstep⟩ := exec_own (c := .claim) hf hown hs (by rw [hb]; rfl) (by rw [hb]; rfl)
    (by rw [hb]; simp [Body.kind]) (by rw [hb]; simp) ha
  rw [hb] at hstep
  have happly : s.dir.rep.apply f.sender f.body = { s.dir.rep with
      gen := s.dir.rep.gen + 1,
      dir := put s.dir.rep.dir k (.opened f.sender kd (s.dir.rep.gen + 1)) } := by
    rw [hb]
    rfl
  have hopen : (s.dir.rep.apply f.sender f.body).dir[k].isOpen = true := by
    rw [happly]
    exact congrArg DirEntry.isOpen ((put_get _ _ _ _).trans (if_pos rfl))
  have hgen : (s.dir.rep.apply f.sender f.body).gen = s.dir.rep.gen + 1 := by rw [happly]
  obtain ⟨x, hx, hfresh, hleave⟩ := ownClaim_holds hv k kd hopen
  obtain ⟨hlink, hclaims⟩ := ownClaim_kept v k kd
  have hvgen : v.dir.rep.gen = s.dir.rep.gen + 1 := by rw [hv.dir, hgen]
  rw [hgen] at hfresh
  rw [hvgen, hv.link] at hlink
  rw [hv.plc] at hclaims
  change exec .claim s = .next (v.ownClaim k kd).recallReleased.afterFrame.settled at hstep
  generalize v.ownClaim k kd = w at hstep hx hlink hclaims
  have hwork := ownWorked w
  generalize w.recallReleased.afterFrame = t at hstep hwork
  obtain ⟨y, hy, hkept, -⟩ := hwork.ext k x hx
  refine ⟨_, y, hstep, hy, hkept.serial.trans hfresh.serial, hkept.readiness.trans hfresh.readiness,
    hkept.cursor.trans hfresh.cursor, hkept.inFlight.trans hfresh.inFlight, hwork.link.trans hlink,
    fun e he hek => ?_, fun hd => ?_⟩
  · obtain ⟨e', he', hs', hp'⟩ := hclaims e he hek
    obtain ⟨e'', he'', hslot, -, hphase⟩ := hwork.claims e' he'
    exact ⟨e'', he'', hslot.trans hs', hphase.trans hp'⟩
  · have hdue := hleave hd
    exact ((hkept.due (by rw [hdue]; rfl)).1).trans hdue

/-- R50, R102: the station's own SHUT of a slot it has filled. -/
theorem exec_ownShut {s : State} {f : Frame} {k : Slot} (hf : s.takesInStep f) (hown : f.sender = s.mem.stn)
    (hs : s.bus.sending = none) {c : ShutCause} {a : Option (ReqTag × Station)} {x : Ext}
    (hb : f.body = .shut k c a) (hc : c ≠ .adopted) (ha : s.dir.rep.applies f = true)
    (hx : s.dir.ext[k] = some x) :
    ∃ t y, exec .shut s = .next t ∧ t.dir.ext[k] = some y ∧ y.shutDue = none ∧
      y.serial = x.serial ∧ y.cursor = x.cursor ∧ y.inFlight = x.inFlight ∧
      t.dir.closing = s.dir.closing ++ [k] ∧ t.link = s.link := by
  obtain ⟨v, hv, hstep⟩ := exec_own (c := .shut) hf hown hs (by rw [hb]; rfl) (by rw [hb]; rfl)
    (by rw [hb]; simp [Body.kind]) (by rw [hb]; simp) ha
  obtain ⟨kd, g, hk⟩ := (valid_shut_iff hc).1 (hb ▸ ((applies_iff (by rw [hb]; simp [Body.kind])).1 ha).2)
  rw [hb] at hstep
  have hclosing : (s.dir.rep.apply f.sender f.body).dir[k] = .closing s.mem.stn kd g c 0 := by
    rw [hb]
    refine (put_get _ _ _ _).trans ((if_pos rfl).trans ?_)
    change Replica.shutEntry f.sender c s.dir.rep.dir[k] = _
    rw [hk, ← hown]
    rfl
  obtain ⟨z, hz, hzdue, hzser, hzcur, hzin, hzcl, hzrep⟩ := ownShut_held hc
    (show v.dir.ext[k] = some x by rw [hv.dir]; exact hx)
  obtain ⟨hlink, hmem⟩ := ownShut_kept v k c
  have hwmem : (v.ownShut k c).mem.stn = s.mem.stn := by rw [hmem, hv.mem]
  have happlied : (v.ownShut k c).shutApplied k = true := by
    rw [shutApplied_iff, hwmem, hzrep, hv.dir]
    exact ⟨kd, g, c, 0, hclosing⟩
  rw [hv.dir] at hzcl
  rw [hv.link] at hlink
  change exec .shut s = .next (v.ownShut k c).recallReleased.afterFrame.settled at hstep
  generalize v.ownShut k c = w at *
  have hwork := ownWorked w
  generalize w.recallReleased.afterFrame = t at hstep hwork
  obtain ⟨y, hy, hkept, hdue⟩ := hwork.ext k z hz
  exact ⟨_, y, hstep, hy, (hdue happlied).trans hzdue, hkept.serial.trans hzser, hkept.cursor.trans hzcur,
    hkept.inFlight.trans hzin, hwork.closing.trans hzcl, hwork.link.trans hlink⟩

/-- R148: the station's own SHUT of an orphan. -/
theorem exec_ownAdopted {s : State} {f : Frame} {k : Slot} (hf : s.takesInStep f) (hown : f.sender = s.mem.stn)
    (hs : s.bus.sending = none) {a : Option (ReqTag × Station)} {h : Station} {kd : SlotKind} {g : Gen}
    {n : Fin 2} (hb : f.body = .shut k .adopted a) (ha : s.dir.rep.applies f = true)
    (hk : s.dir.rep.dir[k] = .orphaned h kd g n) :
    ∃ t y, exec .shut s = .next t ∧ t.dir.ext[k] = some y ∧ y.serial = g ∧ y.readiness = .ready ∧
      y.cursor = s.dir.rep.capacity ∧ t.dir.closing = s.dir.closing ++ [k] ∧ t.link = s.link := by
  obtain ⟨v, hv, hstep⟩ := exec_own (c := .shut) hf hown hs (by rw [hb]; rfl) (by rw [hb]; rfl)
    (by rw [hb]; simp [Body.kind]) (by rw [hb]; simp) ha
  rw [hb] at hstep
  have hclosing : (s.dir.rep.apply f.sender f.body).dir[k] = .closing f.sender kd g .adopted n := by
    rw [hb]
    refine (put_get _ _ _ _).trans ((if_pos rfl).trans ?_)
    change Replica.shutEntry f.sender .adopted s.dir.rep.dir[k] = _
    rw [hk]
    rfl
  have hcapacity : v.dir.rep.capacity = s.dir.rep.capacity := by
    rw [hv.dir, hb]
    rfl
  obtain ⟨hext, hcl⟩ := ownShut_adopted (v := v) (k := k) (g := g) (by
    rw [hv.dir]
    exact congrArg DirEntry.serial? hclosing)
  obtain ⟨hlink, -⟩ := ownShut_kept v k .adopted
  rw [hcapacity] at hext
  rw [hv.dir] at hcl
  rw [hv.link] at hlink
  change exec .shut s = .next (v.ownShut k .adopted).recallReleased.afterFrame.settled at hstep
  generalize v.ownShut k .adopted = w at *
  have hwork := ownWorked w
  generalize w.recallReleased.afterFrame = t at hstep hwork
  obtain ⟨y, hy, hkept, -⟩ := hwork.ext k _ hext
  exact ⟨_, y, hstep, hy, hkept.serial, hkept.readiness, hkept.cursor, hwork.closing.trans hcl,
    hwork.link.trans hlink⟩

/-- R106: the station's own SHUT-DONE. -/
theorem exec_ownShutDone {s : State} {f : Frame} {k : Slot} (hf : s.takesInStep f) (hown : f.sender = s.mem.stn)
    (hs : s.bus.sending = none) {o : ShutOutcome} (hb : f.body = .shutDone k o)
    (ha : s.dir.rep.applies f = true) :
    ∃ t, exec .shutDone s = .next t ∧ t.link = s.link ∧
      (o ≠ .retrying → t.dir.ext[k] = none ∧ k ∉ t.dir.closing) ∧
      (o = .retrying → ∀ x, s.dir.ext[k] = some x →
        ∃ y, t.dir.ext[k] = some y ∧ y.closeReport = none ∧ y.serial = x.serial) := by
  obtain ⟨v, hv, hstep⟩ := exec_own (c := .shutDone) hf hown hs (by rw [hb]; rfl) (by rw [hb]; rfl)
    (by rw [hb]; simp [Body.kind]) (by rw [hb]; simp) ha
  rw [hb] at hstep
  have hended := ownShutDone_ended (v := v) (k := k) (o := o)
  have hretry := ownShutDone_retrying v k
  have hext : v.dir.ext = s.dir.ext := by rw [hv.dir]
  have hlink : (v.ownShutDone k o).link = s.link := by
    rw [← hv.link]
    by_cases ho : o = .retrying
    · rw [ho]
      exact hretry.1
    · exact (hended ho).2.2
  rw [hext] at hretry
  change exec .shutDone s = .next (v.ownShutDone k o).recallReleased.afterFrame.settled at hstep
  have hwork := ownWorked (v.ownShutDone k o)
  generalize hw : v.ownShutDone k o = w at *
  generalize w.recallReleased.afterFrame = t at hstep hwork
  refine ⟨_, hstep, hwork.link.trans hlink, fun ho => ⟨hwork.gone k (hended ho).1, ?_⟩, fun ho x hx => ?_⟩
  · rw [settled_dir, hwork.closing]
    exact (hended ho).2.1
  · subst ho
    have hget := hretry.2 x hx
    rw [hw] at hget
    obtain ⟨y, hy, hkept, -⟩ := hwork.ext k _ hget
    exact ⟨y, hy, hkept.closeReport, hkept.serial⟩

/-- Settles O46: what the station's own CLAIM, SHUT and SHUT-DONE do to its holdings. -/
theorem ownFramesActOnHoldings : Obligations.OwnFramesActOnHoldings :=
  fun _ _ _ hf hown hs => ⟨fun _ hb ha => exec_ownClaim hf hown hs hb ha,
    fun _ _ _ hb hc ha hx => exec_ownShut hf hown hs hb hc ha hx,
    fun _ _ _ _ _ hb ha hk => exec_ownAdopted hf hown hs hb ha hk,
    fun _ hb ha => exec_ownShutDone hf hown hs hb ha⟩

end Sys2Proof.Machine
end

