-- ==== Sys2Proof/Proofs/HandOff.lean ====
section
/-! SUPPORT. The intake head accepted into a stream (R5, R13, R20 to R24), and a waiting result that enters
the result queue (R5, R7, R22, R70). -/

namespace Sys2Proof.Machine

/-! ### The hand-off (R20 to R24) -/

theorem joinList_changes (s : State) (c : Ctx) (d : Descriptor) : s.changesOnly (s.joinList c d) [.str, .plc] :=
  (onCtx_changes s c _).andThen (onStr_changes _ _) (fun _ => id) (by simp)

theorem joinList_accept (s : State) (c : Ctx) (d : Descriptor) :
    (s.joinList c d).str.accept = s.str.accept + 1 := rfl

theorem joinList_ctx (s : State) (c e : Ctx) (d : Descriptor) :
    (s.joinList c d).str.ctxs[e] =
      if e = c then { s.str.ctxs[c].joined (s.newEntry d) with
        idle := idleAfter s.idleTicks c s.str.ctxs[c] (s.str.ctxs[c].joined (s.newEntry d)) }
      else s.str.ctxs[e] := onCtx_get s c e fun x => x.joined (s.newEntry d)

theorem joinList_pending (s : State) (c e : Ctx) (d : Descriptor) :
    (s.joinList c d).str.ctxs[e].pending =
      if e = c then s.str.ctxs[c].pending ++ [s.newEntry d] else s.str.ctxs[e].pending := by
  rw [joinList_ctx]
  split <;> rfl

theorem joinList_own (s : State) (c : Ctx) (d : Descriptor) :
    (s.joinList c d).str.ctxs[c].key = s.str.ctxs[c].key ∧
      (s.joinList c d).str.ctxs[c].cls = s.str.ctxs[c].cls ∧
      (s.joinList c d).str.ctxs[c].counters = s.str.ctxs[c].counters := by
  rw [joinList_ctx, if_pos rfl]
  exact ⟨rfl, rfl, rfl⟩

/-- R13, R20 to R24: what the hand-off of an accepted descriptor leaves of the streams. -/
structure Joins (s v : State) (dest : Dest) (cl : LifeClass) (c : Ctx) (e : PendingEntry) : Prop where
  changes : s.changesOnly v [.str, .plc]
  accept : v.str.accept = s.str.accept + 1
  others : ∀ b, b ≠ c → v.str.ctxs[b].pending = s.str.ctxs[b].pending
  known : (∀ k, dest ≠ .newKey k) ∨ s.str.freeCtx = none →
    v.str.ctxs[c].pending = s.str.ctxs[c].pending ++ [e]
  fresh : ∀ k, dest = .newKey k → s.str.freeCtx = some c →
    v.str.ctxs[c].pending = [e] ∧ v.str.ctxs[c].key = some k ∧ v.str.ctxs[c].cls = some cl ∧
      v.str.ctxs[c].counters = Counters.zero
  spilled : ∀ k, dest = .newKey k → s.str.freeCtx = none →
    v.str.ctxs[c].counters.spilled = min (s.str.ctxs[c].counters.spilled + 1) 4294967295

/-- R24: the entry joins a list that stands. -/
theorem joins_list {s : State} {d : Descriptor} {dest : Dest} {cl : LifeClass} {c : Ctx}
    (hd : ∀ k, dest ≠ .newKey k) : Joins s (s.joinList c d) dest cl c (s.newEntry d) where
  changes := joinList_changes s c d
  accept := rfl
  others := fun b hb => (joinList_pending s c b d).trans (if_neg hb)
  known := fun _ => (joinList_pending s c c d).trans (if_pos rfl)
  fresh := fun k hk => absurd hk (hd k)
  spilled := fun k hk => absurd hk (hd k)

/-- R20: a new key takes a free context. -/
theorem joins_fresh {s : State} {d : Descriptor} {k : Key} {cl : LifeClass} {c : Ctx}
    (hf : s.str.freeCtx = some c) :
    Joins s ((s.setCtx c (Context.assigned k cl)).joinList c d) (.newKey k) cl c (s.newEntry d) := by
  have hget (b : Ctx) : (s.setCtx c (Context.assigned k cl)).str.ctxs[b] =
      if b = c then { Context.assigned k cl with
        idle := idleAfter s.idleTicks c s.str.ctxs[c] (Context.assigned k cl) } else s.str.ctxs[b] :=
    onCtx_get s c b fun _ => Context.assigned k cl
  have hself := (hget c).trans (if_pos rfl)
  have hchanges : s.changesOnly (s.setCtx c (Context.assigned k cl)) [.str, .plc] :=
    onCtx_changes s c fun _ => Context.assigned k cl
  have haccept : (s.setCtx c (Context.assigned k cl)).str.accept = s.str.accept := rfl
  have hentry : (s.setCtx c (Context.assigned k cl)).newEntry d = s.newEntry d := rfl
  generalize s.setCtx c (Context.assigned k cl) = u at *
  obtain ⟨hkey, hcls, hcount⟩ := joinList_own u c d
  refine ⟨hchanges.andThen (joinList_changes u c d) (fun _ => id) (fun _ => id),
    (joinList_accept u c d).trans (by rw [haccept]), fun b hb => ?_, fun h => ?_, fun k' hk' _ => ?_,
    fun _ _ hn => ?_⟩
  · rw [joinList_pending, if_neg hb, hget, if_neg hb]
  · rcases h with h | h
    · exact absurd rfl (h k)
    · rw [hf] at h
      cases h
  · cases hk'
    rw [joinList_pending, if_pos rfl, hkey, hcls, hcount, hself, hentry]
    exact ⟨rfl, rfl, rfl, rfl⟩
  · rw [hf] at hn
    cases hn

/-- R21: a new key with no free context spills to context 0. -/
theorem joins_spilled {s : State} {d : Descriptor} {k : Key} {cl : LifeClass} (hf : s.str.freeCtx = none) :
    Joins s ((s.onCounters 0 fun n => { n with spilled := sat32 n.spilled 1 }).joinList 0 d) (.newKey k) cl 0
      (s.newEntry d) := by
  have hget (b : Ctx) := onCounters_get s 0 b fun n => { n with spilled := sat32 n.spilled 1 }
  have hchanges := onCounters_changes s 0 fun n => { n with spilled := sat32 n.spilled 1 }
  have haccept : (s.onCounters 0 fun n => { n with spilled := sat32 n.spilled 1 }).str.accept = s.str.accept := rfl
  have hentry : (s.onCounters 0 fun n => { n with spilled := sat32 n.spilled 1 }).newEntry d = s.newEntry d := rfl
  generalize (s.onCounters 0 fun n => { n with spilled := sat32 n.spilled 1 }) = u at *
  refine ⟨hchanges.andThen (joinList_changes u 0 d) (by simp) (fun _ => id),
    (joinList_accept u 0 d).trans (by rw [haccept]), fun b hb => ?_, fun _ => ?_, fun k' _ hs => ?_, fun _ _ _ => ?_⟩
  · rw [joinList_pending, if_neg hb, hget, if_neg hb]
  · rw [joinList_pending, if_pos rfl, hget, if_pos rfl, hentry]
  · rw [hf] at hs
    cases hs
  · rw [(joinList_own u 0 d).2.2, hget, if_pos rfl]
    rfl

theorem joins_handOff {s : State} {d : Descriptor} {dest : Dest} {cl : LifeClass} {c : Ctx}
    (hc : dest = .common ∧ c = 0 ∨ dest = .held c ∨
      ∃ k, dest = .newKey k ∧ (s.str.freeCtx = some c ∨ s.str.freeCtx = none ∧ c = 0)) :
    Joins s (s.handOff d dest cl) dest cl c (s.newEntry d) := by
  rcases hc with ⟨rfl, rfl⟩ | rfl | ⟨k, rfl, hf | ⟨hf, rfl⟩⟩
  · exact joins_list (by simp)
  · exact joins_list (by simp)
  · unfold State.handOff
    dsimp only
    rw [hf]
    exact joins_fresh hf
  · unfold State.handOff
    dsimp only
    rw [hf]
    exact joins_spilled hf

theorem takeHead_accept {s : State} {d : Descriptor} {q : List Descriptor} {dest : Dest} {cl : LifeClass}
    (hq : s.intake.queue = d :: q) (ho : s.headOutcome d = .accept dest cl) (hu : s.storeUsed < 128) :
    s.takeHead = s.acceptHead d dest cl := by
  simp only [State.takeHead, hq, ho, hu, if_true]

/-- Settles O18: an accepted head joins its stream's list. -/
theorem headAcceptedIntoAStream : Obligations.HeadAcceptedIntoAStream := by
  intro d q dest cl c s hs hq ho hu hc
  have hj := joins_handOff (s := s.onIntake Intake.popHead) (d := d) (cl := cl) hc
  have hp := polices_policyPass ((s.onIntake Intake.popHead).handOff d dest cl) []
  have hexec : exec .takeIntakeHead s = .next (s.acceptHead d dest cl).settled := by
    refine (live_settled _ hs : execTakeIntakeHead s = _).trans ?_
    rw [takeHead_accept hq ho hu]
  have hintake : (s.acceptHead d dest cl).intake = s.intake.popHead :=
    hp.intake.trans (hj.changes.1 .intake (by simp))
  have hchanges : s.changesOnly (s.acceptHead d dest cl) (.intake :: policyBlocks) :=
    (((onIntake_changes s _).andThen hj.changes (n := .intake :: policyBlocks) (by simp)
      (by simp [policyBlocks])).andThen hp.changesOnly) (fun _ => id) fun _ hb => List.mem_cons_of_mem _ hb
  have haccept : (s.acceptHead d dest cl).str.accept = s.str.accept + 1 := hp.accept.trans hj.accept
  have hctx (b : Ctx) : (((s.onIntake Intake.popHead).handOff d dest cl).str.ctxs[b]).KeptIn
      (s.acceptHead d dest cl).str.ctxs[b] := hp.ctx b
  generalize s.acceptHead d dest cl = t at *
  refine ⟨_, hexec, ?_, ?_, ?_, haccept, ⟨_, rfl, fun h => ?_, fun k hk hf => ?_, fun k hk hf => ?_⟩,
    fun b hb => ?_, frame_listed hchanges (by simp)⟩
  · rw [settled_queue, hintake]
    exact congrArg (List.drop 1) hq
  · rw [settled_results, hintake]
    rfl
  · rw [settled_response, hintake]
    rfl
  · exact (hctx c).pending.trans (hj.known h)
  · obtain ⟨hpend, hkey, hcls, hcount⟩ := hj.fresh k hk hf
    exact ⟨(hctx c).pending.trans hpend, (hctx c).key.trans hkey, (hctx c).cls.trans hcls,
      (hctx c).counters.trans hcount⟩
  · exact (congrArg Counters.spilled (hctx c).counters).trans (hj.spilled k hk hf)
  · exact (hctx b).pending.trans (hj.others b hb)

/-! ### A waiting result (R7, R22, R70) -/

/-- Bringing the intake unit up to date leaves the results that wait. -/
theorem settled_waiters (s : State) :
    s.settled.intake.waiters.filter (· != .intakeHead) = s.intake.waiters.filter (· != .intakeHead) := by
  change s.settledIntake.waiters.filter _ = _
  unfold State.settledIntake State.settleOffer State.settleHead
  dsimp only
  repeat' split
  all_goals simp [State.onIntake]

/-- R70: the entries freed with the result that entry `g` holds. -/
theorem freeParts_spec {p : Placement} {g : DTag} {e : CompEntry} (hg : p.comp[g] = some e)
    (hs : e.second = false) :
    (p.freeParts g).comp[g] = none ∧ (∀ h, e.partner = some h → (p.freeParts g).comp[h] = none) ∧
      (∀ h, h ≠ g → e.partner ≠ some h → (p.freeParts g).comp[h] = p.comp[h]) ∧
      (p.freeParts g).claims = p.claims := by
  cases hp : e.partner with
  | none =>
    have hfree : p.freeParts g = { p with comp := put p.comp g none } := by
      simp only [Placement.freeParts, Placement.parts, hg, hs, hp]
    rw [hfree]
    exact ⟨(put_get _ _ _ _).trans (if_pos rfl), by simp, fun h hne _ => (put_get _ _ _ _).trans (if_neg hne), rfl⟩
  | some t2 =>
    cases h2 : p.comp[t2] with
    | none =>
      have hfree : p.freeParts g = { p with comp := put p.comp g none } := by
        simp only [Placement.freeParts, Placement.parts, hg, hs, hp, h2, Option.map_none]
      rw [hfree]
      refine ⟨(put_get _ _ _ _).trans (if_pos rfl), fun h hh => ?_,
        fun h hne _ => (put_get _ _ _ _).trans (if_neg hne), rfl⟩
      cases hh
      refine (put_get _ _ _ _).trans ?_
      split
      · rfl
      · exact h2
    | some e2 =>
      have hfree : p.freeParts g = { p with comp := put (put p.comp g none) t2 none } := by
        simp only [Placement.freeParts, Placement.parts, hg, hs, hp, h2, Option.map_some]
      rw [hfree]
      refine ⟨?_, fun h hh => ?_, fun h hne hh => ?_, rfl⟩
      · refine (put_get _ _ _ _).trans ?_
        split
        · rfl
        · exact (put_get _ _ _ _).trans (if_pos rfl)
      · cases hh
        exact (put_get _ _ _ _).trans (if_pos rfl)
      · refine (put_get _ _ _ _).trans ((if_neg fun he => hh (by rw [he])).trans ?_)
        exact (put_get _ _ _ _).trans (if_neg hne)

theorem exec_enters {s : State} (hs : s.rst = none) (hr : s.intake.results.length < 32) :
    exec .resultEntersQueue s = .next s.admitWaiter.settled := by
  refine (live_settled _ hs : execResultEntersQueue s = _).trans ?_
  rw [if_pos hr]

theorem popWaiter_kept {i : Intake} {w : Waiter} {ws : List Waiter} (h : i.waiters = w :: ws) (r : ResultRec) :
    (i.popWaiter.addResult r).waiters = ws ∧ (i.popWaiter.addResult r).results = i.results ++ [r] ∧
      (i.popWaiter.addResult r).queue = i.queue ∧ (i.popWaiter.addResult r).response = i.response := by
  unfold Intake.addResult Intake.popWaiter
  rw [h]
  exact ⟨rfl, rfl, rfl, rfl⟩

/-- R7: the result of the waiter that has waited longest has joined the result queue. -/
theorem entered_settled {s t : State} {w : Waiter} {ws : List Waiter} {r : ResultRec}
    (hw : s.intake.waiters = w :: ws) (ht : t.intake = s.intake.popWaiter.addResult r) :
    t.settled.intake.results = s.intake.results ++ [r] ∧
      t.settled.intake.waiters.filter (· != .intakeHead) = ws.filter (· != .intakeHead) ∧
      t.settled.intake.queue = s.intake.queue ∧ t.settled.intake.response = s.intake.response := by
  obtain ⟨hwait, hres, hqueue, hresp⟩ := popWaiter_kept hw r
  rw [settled_waiters, settled_results, settled_queue, settled_response, ht, hwait]
  exact ⟨hres, rfl, hqueue, hresp⟩

theorem exec_enters_head {s : State} (hs : s.rst = none) (hr : s.intake.results.length < 32) {ws : List Waiter}
    (hw : s.intake.waiters = .intakeHead :: ws) : exec .resultEntersQueue s = exec .takeIntakeHead s := by
  have htake : s.admitWaiter = s.takeHead := by
    unfold State.admitWaiter
    rw [hw]
  rw [exec_enters hs hr, htake]
  exact (live_settled _ hs : execTakeIntakeHead s = _).symm

/-- Settles O19: the first waiter enters the result queue. -/
theorem waitingResultEnters : Obligations.WaitingResultEnters := by
  intro w ws s hs hw hr
  refine ⟨fun r hwr => ?_, fun g e r hwg hg hsec hres => ?_, fun hwh => ?_⟩
  · subst hwr
    have hadmit : s.admitWaiter = s.onIntake fun i => i.popWaiter.addResult r := by
      unfold State.admitWaiter
      rw [hw]
    obtain ⟨hresults, hwaiters, hqueue, hresp⟩ := entered_settled (t := s.onIntake fun i => i.popWaiter.addResult r)
      hw rfl
    rw [← hadmit] at hresults hwaiters hqueue hresp
    exact ⟨_, exec_enters hs hr, hresults, hwaiters, hqueue, hresp,
      frame_listed (hadmit ▸ onIntake_changes s _) (by simp)⟩
  · subst hwg
    have hadmit : s.admitWaiter = (s.onIntake fun i => i.popWaiter.addResult r).onPlc (·.freeParts g) := by
      unfold State.admitWaiter
      rw [hw]
      dsimp only
      rw [hg]
      dsimp only [Option.bind_some]
      rw [hres]
    obtain ⟨hresults, hwaiters, hqueue, hresp⟩ := entered_settled
      (t := (s.onIntake fun i => i.popWaiter.addResult r).onPlc (·.freeParts g)) hw rfl
    obtain ⟨hself, hpartner, hothers, hclaims⟩ := freeParts_spec hg hsec
    have hchanges := (onIntake_changes s fun i => i.popWaiter.addResult r).andThen
      (onPlc_changes _ (·.freeParts g)) (n := [.intake, .plc]) (by simp) (by simp)
    rw [← hadmit] at hresults hwaiters hqueue hresp hchanges
    have hplc : s.admitWaiter.plc = s.plc.freeParts g := by
      rw [hadmit]
      rfl
    rw [← hplc] at hself hpartner hothers hclaims
    exact ⟨_, exec_enters hs hr, hresults, hwaiters, hself, hpartner, hothers, hclaims, hqueue, hresp,
      frame_listed hchanges (by simp)⟩
  · subst hwh
    have hexec := exec_enters_head hs hr hw
    refine ⟨hexec, fun d q why o hq ho => ?_⟩
    have hmay : s.intake.headMayEnter = true := by
      simp only [Intake.headMayEnter, hw, hr, decide_true, Bool.and_self]
    obtain ⟨t, hstep, ht, hqueue, hresults, hresp⟩ := exec_takeIntakeHead_refuse hs hq ho hmay
    refine ⟨t, hexec.trans hstep, hqueue, hresults, fun hn => ?_, fun c hc => ⟨?_, fun e he => ?_⟩, ?_, hresp, ?_⟩
    · rw [ht, hn]
      rfl
    · rw [ht, hc, settled_str, refuseHead_ctx, if_pos rfl]
    · rw [ht, hc, settled_str, refuseHead_ctx, if_neg he]
    · rw [ht, settled_waiters, refuseHead_intake]
      change (s.intake.waiters.filter (· != .intakeHead)).filter _ = _
      rw [hw, List.filter_filter]
      simp
    · rw [ht]
      exact frame_listed (refuseHead_changes_str s d why o) (by simp)

end Sys2Proof.Machine
end

