-- ==== Sys2Proof/Proofs/ContextTimers.lean ====
section
/-! SUPPORT. Two timers of the stream table: the deadline of a pending descriptor (R28) and the idle time of
a context (R30), with what a stream that leaves its slot leaves behind (R25, R74). -/

namespace Sys2Proof.Machine

/-! ### A stream leaves its slot (R25, R50, R74) -/

theorem dropResident_bus (s : State) (k : Slot) (c : Ctx) : (s.dropResident k c).bus = s.bus := by
  unfold State.dropResident State.onExt
  split <;> rfl

theorem dropResident_rep (s : State) (k : Slot) (c : Ctx) : (s.dropResident k c).dir.rep = s.dir.rep :=
  (polices_dropResident s k c).rep

/-- R74: a NORMAL slot whose last resident leaves is shut IDLE. -/
theorem leaveSlot_last {s : State} {k : Slot} {x : Ext} {c : Ctx} {cl : LifeClass} (hx : s.dir.ext[k] = some x)
    (hkind : s.dir.rep.dir[k].kind? = some (.normal cl)) (hlast : ∀ b ∈ x.residents, b = c) :
    s.leaveSlot c k = (s.dropResident k c).decideShut k .idle := by
  have hext : (s.dropResident k c).dir.ext[k] = some { x with residents := x.residents.filter (· != c) } := by
    refine (onExt_get s k k _).trans ((if_pos rfl).trans ?_)
    rw [hx]
    rfl
  have hempty : x.residents.filter (· != c) = [] := by
    rw [List.filter_eq_nil_iff]
    intro b hb
    simp [hlast b hb]
  unfold State.leaveSlot
  simp only [hext, dropResident_rep, hkind, hempty, if_true]

/-- R25: of a slot that a stream leaves, the extension without it, whatever shut is decided. -/
theorem polices_leave_dropped (s : State) (c : Ctx) (k : Slot) :
    Polices (s.dropResident k c) (s.leaveSlot c k) := by
  unfold State.leaveSlot
  dsimp only
  split
  · exact Polices.ite (fun _ => polices_decideShut _ _ _ _) (fun _ => Polices.refl _)
  · exact Polices.refl _

/-- R25, R50, R74: what stands of a slot that a stream has left, whatever policy work follows. -/
theorem leftSlot_released {s u t : State} {c : Ctx} {cs : List ShutCause} (hdir : u.dir = s.dir)
    (hbus : u.bus = s.bus) (hmem : u.mem.state = s.mem.state) (hw : u.str.ctxs[c].state ≠ .waiting)
    (hb : u.str.ctxs[c].state ≠ .bound) (ht : Queues cs (u.releaseSlot c s.str.ctxs[c].slot) t) :
    s.leftSlot t c := by
  intro k x hk hx
  obtain ⟨p, hslot, rfl⟩ := Option.map_eq_some_iff.1 hk
  rw [hslot] at ht
  change Queues cs (u.leaveSlot c p.1) t at ht
  have hpol := (polices_leave_dropped u c p.1).trans ht.toPolices
  have hext : (u.dropResident p.1 c).dir.ext[p.1] = some { x with residents := x.residents.filter (· != c) } := by
    refine (onExt_get u p.1 p.1 _).trans ((if_pos rfl).trans ?_)
    rw [hdir, hx]
    rfl
  obtain ⟨y, hy, -⟩ := (hpol.ext p.1).2 _ hext
  refine ⟨y, hy, fun hc => ?_, fun hlast hkind hdue hclosing => ?_⟩
  · have hctx : (u.dropResident p.1 c).str.ctxs[c] = u.str.ctxs[c] :=
      congrArg (fun v : Streams => v.ctxs[c]) (u.dropResident_str p.1 c)
    rcases hpol.residents p.1 y c hy hc with ⟨z, hz, hcz⟩ | hstate | hstate
    · rw [hext] at hz
      cases hz
      simp at hcz
    · exact hw (hctx ▸ hstate)
    · exact hb (hctx ▸ hstate)
  · obtain ⟨cl, hkind⟩ := hkind
    rw [leaveSlot_last (hdir ▸ hx) (hdir ▸ hkind) hlast] at ht
    have happlied : (u.dropResident p.1 c).shutApplied p.1 = false := by
      unfold State.shutApplied
      rw [dropResident_rep, hdir, hclosing, Bool.and_false]
    obtain ⟨⟨z, hz, hzdue, -⟩, hqueued⟩ := decideShut_stands hext hdue happlied ht
    rw [hy] at hz
    cases hz
    refine ⟨hzdue, fun hm => ?_⟩
    have hgained := hqueued ((polices_dropResident u p.1 c).mem ▸ hmem.trans hm)
    rw [dropResident_bus, hbus] at hgained
    exact hgained

/-! ### The idle time of a context (R30) -/

/-- Settles O33: an idle context returns to UNASSIGNED. -/
theorem idleContextReturns : Obligations.IdleContextReturns := by
  intro c s hs
  refine ⟨fun hc hidle => ?_, fun hnone => ?_⟩
  · have hx : exec (.idleTimerExpiry c) s =
        .next ((s.onCtx c Context.expired).releaseSlot c s.str.ctxs[c].slot).policyPass.settled := by
      refine (live_settled _ hs : execIdleTimerExpiry c s = _).trans ?_
      rw [State.expireIdle, if_pos ⟨hc, hidle⟩]
    have hctx : (s.onCtx c Context.expired).str.ctxs[c] = { Context.unassigned with
        counters := s.str.ctxs[c].counters, inFlight := s.str.ctxs[c].inFlight } := by
      refine (onCtx_get s c c _).trans ((if_pos rfl).trans ?_)
      simp [idleAfter, Context.quiet, Context.expired, Context.unassigned]
    have hstate : (s.onCtx c Context.expired).str.ctxs[c].state = .unassigned := congrArg Context.state hctx
    have hother (b : Ctx) (hb : b ≠ c) : (s.onCtx c Context.expired).str.ctxs[b] = s.str.ctxs[b] :=
      (onCtx_get s c b _).trans (if_neg hb)
    have hchanges := onCtx_changes s c Context.expired
    have hdir : (s.onCtx c Context.expired).dir = s.dir := rfl
    have hbus : (s.onCtx c Context.expired).bus = s.bus := rfl
    have hmem : (s.onCtx c Context.expired).mem.state = s.mem.state := rfl
    generalize s.onCtx c Context.expired = u at *
    have hqueues : Queues [.full] (u.releaseSlot c s.str.ctxs[c].slot)
        (u.releaseSlot c s.str.ctxs[c].slot).policyPass := queues_policyPass _ [] (by simp)
    have hpol := (polices_releaseSlot u c s.str.ctxs[c].slot).trans hqueues.toPolices
    have hleft := leftSlot_released hdir hbus hmem (by rw [hstate]; decide) (by rw [hstate]; decide) hqueues
    generalize (u.releaseSlot c s.str.ctxs[c].slot).policyPass = t at *
    refine ⟨_, hx, ?_, fun b hb => ?_, hleft, hpol.rep.trans (congrArg Directory.rep hdir), ?_⟩
    · exact (hpol.still c (by rw [hstate]; decide) (by rw [hstate]; decide)).trans hctx
    · rw [← hother b hb]
      exact ⟨(hpol.ctx b).pending, (hpol.ctx b).key⟩
    · exact frame_of_changes (hchanges.andThen hpol.changesOnly (by simp [policyBlocks]) fun _ h => h)
        (by simp [policyBlocks])
  · refine ⟨_, (live_settled _ hs : execIdleTimerExpiry c s = _), ?_⟩
    rw [State.expireIdle, if_neg]
    · exact frame_idle s
    · rintro ⟨hc, hidle⟩
      rcases hnone with h | h
      · exact hc h
      · rw [h] at hidle
        cases hidle

/-! ### The deadline of a pending descriptor (R28) -/

/-- R28: the entry whose deadline expires is the first that has one. -/
theorem takeDeadline_oldest {pre post : List PendingEntry} {e : PendingEntry} (hpre : ∀ x ∈ pre, x.deadline = none)
    (he : e.deadline.isSome) : takeDeadline (pre ++ e :: post) = some (e, pre ++ post) := by
  induction pre with
  | nil => exact if_pos he
  | cons x pre ih =>
    have hx : x.deadline.isSome = false := by rw [hpre x (by simp)]; rfl
    rw [List.cons_append, takeDeadline, hx, if_neg (by simp), ih fun y hy => hpre y (List.mem_cons_of_mem _ hy)]
    rfl

theorem runs_iff (s : State) : s.runs = true ↔ s.line.mode = .run ∧ s.line.warned = false := by
  simp [State.runs]

/-- R7: a delivered result is in the result queue, or waits. -/
theorem delivered_settled {s t : State} {r : ResultRec} (h : t.intake = (s.deliver r).intake) :
    (s.intake.results.length < 32 → s.intake.waiters = [] → t.settled.intake.results = s.intake.results ++ [r]) ∧
      (32 ≤ s.intake.results.length ∨ s.intake.waiters ≠ [] →
        t.settled.intake.results = s.intake.results ∧ .store r ∈ t.settled.intake.waiters) ∧
      t.settled.intake.queue = s.intake.queue ∧ t.settled.intake.response = s.intake.response := by
  rw [deliver_intake] at h
  refine ⟨fun hr hw => ?_, fun hn => ?_, ?_, ?_⟩
  · rw [settled_results, h, if_pos ⟨hr, hw⟩]
  · have hfull : ¬ (s.intake.results.length < 32 ∧ s.intake.waiters = []) := fun ⟨hr, hw⟩ =>
      hn.elim (fun h => absurd hr (Nat.not_lt.2 h)) (fun h => h hw)
    rw [if_neg hfull] at h
    refine ⟨by rw [settled_results, h], settle_waiters t _ ?_ (by simp)⟩
    rw [h]
    simp
  · rw [settled_queue, h]
    split <;> rfl
  · rw [settled_response, h]
    split <;> rfl

/-- R22, R28, R34: an entry of a list refused, its list without it. -/
def State.deadlineRefused (s : State) (c : Ctx) (e : PendingEntry) (l : List PendingEntry) : State :=
  ((s.onCtx c fun x => x.withPending l).countRefused c).deliver (refusal e.tag .noPlacement (some c))

theorem expireDeadline_eq {s : State} {c : Ctx} {e : PendingEntry} {l : List PendingEntry}
    (h : takeDeadline s.str.ctxs[c].pending = some (e, l)) :
    s.expireDeadline c = (s.deadlineRefused c e l).policyPass := by
  rw [State.expireDeadline, h]
  rfl

theorem deadlineRefused_ctx (s : State) (c : Ctx) (e : PendingEntry) (l : List PendingEntry) :
    (s.deadlineRefused c e l).str.ctxs[c].pending = l ∧
      (s.deadlineRefused c e l).str.ctxs[c].counters.refused = min (s.str.ctxs[c].counters.refused + 1) 4294967295 ∧
      (s.str.ctxs[c].state = .waiting → l = [] → (s.deadlineRefused c e l).str.ctxs[c].state = .idle) ∧
      ∀ b, b ≠ c → (s.deadlineRefused c e l).str.ctxs[b] = s.str.ctxs[b] := by
  have hget (b : Ctx) := onCounters_get (s.onCtx c fun x => x.withPending l) c b
    fun n => { n with refused := sat32 n.refused 1 }
  have hself := (hget c).trans (if_pos rfl)
  rw [(onCtx_get s c c _).trans (if_pos rfl)] at hself
  refine ⟨(congrArg Context.pending hself :), (congrArg (fun x => x.counters.refused) hself :), fun hw hl => ?_,
    fun b hb => ?_⟩
  · refine (congrArg Context.state hself).trans ?_
    exact if_pos ⟨hw, hl⟩
  · exact (hget b).trans ((if_neg hb).trans ((onCtx_get s c b _).trans (if_neg hb)))

theorem deadlineRefused_changes (s : State) (c : Ctx) (e : PendingEntry) (l : List PendingEntry) :
    s.changesOnly (s.deadlineRefused c e l) [.intake, .str, .plc] :=
  ((onCtx_changes s c _).andThen (onCounters_changes _ c _) (n := [.intake, .str, .plc]) (by simp) (by simp)).andThen
    (onIntake_changes _ _) (by simp) (by simp)

/-- Settles O32: a deadline that expires refuses its descriptor. -/
theorem deadlineRefuses : Obligations.DeadlineRefuses := by
  intro c pre post e s hs hpend hpre he
  refine ⟨fun hrun hwarn => ?_, fun hno => ?_⟩
  · have hx : exec (.deadlineExpiry c) s = .next (s.deadlineRefused c e (pre ++ post)).policyPass.settled := by
      refine (live_settled _ hs : execDeadlineExpiry c s = _).trans ?_
      rw [if_pos ((runs_iff s).2 ⟨hrun, hwarn⟩), expireDeadline_eq]
      rw [hpend]
      exact takeDeadline_oldest hpre he
    obtain ⟨hpending, hcount, hidle, hothers⟩ := deadlineRefused_ctx s c e (pre ++ post)
    have hchanges := deadlineRefused_changes s c e (pre ++ post)
    have hintake : (s.deadlineRefused c e (pre ++ post)).intake =
      (s.deliver (refusal e.tag .noPlacement (some c))).intake := rfl
    have hpol := polices_policyPass (s.deadlineRefused c e (pre ++ post))
    generalize s.deadlineRefused c e (pre ++ post) = u at *
    obtain ⟨hroom, hfull, hqueue, hresp⟩ := delivered_settled (hpol.intake.trans hintake)
    refine ⟨_, _, hx, rfl, (hpol.ctx c).pending.trans hpending,
      (congrArg Counters.refused (hpol.ctx c).counters).trans hcount, fun hw hl => ?_, fun b hb => ?_, hroom, hfull,
      hqueue, hresp, frame_listed (hchanges.andThen hpol.changesOnly ?_ fun _ h => List.mem_cons_of_mem _ h) (by simp)⟩
    · have hst := hidle hw hl
      exact (congrArg Context.state (hpol.still c (by rw [hst]; decide) (by rw [hst]; decide))).trans hst
    · exact (hpol.ctx b).pending.trans (congrArg Context.pending (hothers b hb))
    · simp [policyBlocks]
  · refine ⟨_, (live_settled _ hs : execDeadlineExpiry c s = _), ?_⟩
    rw [if_neg]
    · exact frame_idle s
    · rw [runs_iff]
      rintro ⟨hrun, hwarn⟩
      rcases hno with h | h
      · rw [h] at hrun
        cases hrun
      · rw [h] at hwarn
        cases hwarn

end Sys2Proof.Machine
end

