-- ==== Sys2Proof/Proofs/PlaceIssue.lean ====
section
/-! SUPPORT. The issue of a PLACE (R65, R66, R73): the stream and the tag whose turn it is, the extent
allocated, and the slot a tail is too long for. -/

namespace Sys2Proof.Machine

/-! ### Whose turn it is (R27, R66, R160) -/

/-- R66: a stream may issue while its slot takes data. -/
theorem mayIssue_iff (s : State) (c : Ctx) : s.mayIssue c = true ↔ ∃ k g e rest x kd,
    s.str.ctxs[c].state = .bound ∧ s.str.ctxs[c].slot = some (k, g) ∧
      s.str.ctxs[c].pending = e :: rest ∧ s.dir.ext[k] = some x ∧ x.serial = g ∧
      s.dir.rep.dir[k] = .opened s.mem.stn kd g ∧ x.readiness = .ready ∧ x.shutDue = none := by
  constructor
  · intro h
    unfold State.mayIssue at h
    split at h
    next k g e rest hstate hslot hpend =>
      rw [Bool.and_eq_true, Bool.and_eq_true, grantable_opened_iff] at h
      obtain ⟨⟨⟨x, kd, g', hx, hk, hr, hd⟩, hg⟩, hserial⟩ := h
      rw [hx] at hg
      rw [hk] at hserial
      have hgg : g' = g := by simpa [DirEntry.serial?] using hserial
      exact ⟨k, g, e, rest, x, kd, hstate, hslot, hpend, hx, eq_of_beq hg, hgg ▸ hk, hr, hd⟩
    · cases h
  · rintro ⟨k, g, e, rest, x, kd, hstate, hslot, hpend, hx, hg, hk, hr, hd⟩
    have hgrant := (grantable_opened_iff s k).2 ⟨x, kd, g, hx, hk, hr, hd⟩
    unfold State.mayIssue
    rw [hstate, hslot, hpend]
    simp [hgrant, hx, hg, hk, DirEntry.serial?]

theorem mem_placers (s : State) (b : Ctx) :
    b ∈ (allCtxs.filter s.mayIssue).foldl (fun l c => insertByAge s.str c l) [] ↔ s.mayIssue b = true := by
  rw [mem_ageOrder]
  simp [allCtxs]

/-- R27, R66: the oldest head goes first. -/
theorem nextPlacer_oldest {s : State} {base : BitVec 16}
    (hage : ∀ b : Ctx, s.mayIssue b = true → (s.str.ctxs[b].headAcc - base).toNat < 32768) {c : Ctx}
    (h : s.nextPlacer = some c) : s.mayIssue c = true ∧ ∀ b : Ctx, s.mayIssue b = true →
      (s.str.ctxs[c].headAcc - base).toNat ≤ (s.str.ctxs[b].headAcc - base).toNat := by
  have hasc : ((allCtxs.filter s.mayIssue).foldl (fun l c => insertByAge s.str c l) []).Pairwise
      fun a b => s.str.age base a ≤ s.str.age base b :=
    ageOrder_ascends (fun b hb => hage b (List.mem_filter.1 hb).2) (by simp) List.Pairwise.nil
  have hmem := mem_placers s
  unfold State.nextPlacer at h
  generalize (allCtxs.filter s.mayIssue).foldl (fun l c => insertByAge s.str c l) [] = l at *
  cases l with
  | nil => cases h
  | cons d l =>
    cases h
    refine ⟨(hmem c).1 List.mem_cons_self, fun b hb => ?_⟩
    rcases List.mem_cons.1 ((hmem b).2 hb) with rfl | hbl
    · exact le_refl _
    · exact (List.pairwise_cons.1 hasc).1 b hbl

theorem nextPlacer_mayIssue {s : State} {c : Ctx} (h : s.nextPlacer = some c) : s.mayIssue c = true :=
  (mem_placers s c).1 (List.mem_of_mem_head? h)

theorem nextPlacer_none {s : State} (h : s.nextPlacer = none) (b : Ctx) : s.mayIssue b = false := by
  rw [State.nextPlacer, List.head?_eq_none_iff] at h
  have hb := mem_placers s b
  rw [h] at hb
  simpa using hb

/-- R160: the tag of a PLACE is the lowest that is free. -/
theorem freeTag_iff (p : Placement) (tg : DTag) :
    p.freeTag = some tg ↔ p.comp[tg] = none ∧ ∀ h : DTag, h < tg → p.comp[h] ≠ none := by
  unfold Placement.freeTag
  rw [← Fin.find?_eq_find?_finRange, Fin.find?_eq_some_iff]
  simp [← Option.isSome_iff_ne_none]

/-! ### What every step of a policy pass keeps (R57 to R62) -/

/-- Each act of the policy keeps `P`: a grant of a slot with room for the head, a shut, a claim, a recall. -/
structure PolicyKept (P : State → Prop) : Prop where
  grant : ∀ {s : State} {b : Ctx} {j : Slot} {x : Ext}, P s → s.str.ctxs[b].state = .waiting →
    s.dir.ext[j] = some x → s.roomFor b x = true → P (s.grant b j)
  shut : ∀ {s : State} (j : Slot) (why : ShutCause), P s → P (s.decideShut j why)
  claim : ∀ {s : State} (kd : SlotKind) (b : Option Ctx), P s → (s.withinQuota || s.fromPool) = true →
    (∀ c, b = some c → s.str.ctxs[c].state = .waiting) → P (s.queueClaim kd b)
  recalls : ∀ {s : State}, P s → s.recallNeeded = true → P s.beginRecall

theorem fit_room {s : State} {c : Ctx} {k : Slot} (h : s.fit c k = true) :
    ∃ x, s.dir.ext[k] = some x ∧ s.roomFor c x = true := by
  unfold State.fit at h
  rw [Bool.and_eq_true] at h
  have h2 := h.2
  split at h2
  next x cl cl' hx _ _ =>
    rw [Bool.and_eq_true] at h2
    exact ⟨x, hx, h2.2⟩
  · cases h2

namespace PolicyKept

theorem stepFive {P : State → Prop} (hk : PolicyKept P) {s : State} (h : P s) {b : Ctx}
    (hw : s.str.ctxs[b].state = .waiting) : P (s.stepFive b).1 := by
  unfold State.stepFive
  split
  next j _ =>
    split
    · split
      next x n hx hneed =>
        split
        next hle => exact hk.grant h hw hx (by simp [State.roomFor, hneed, hle])
        · exact hk.shut j .full h
      next x hx hneed =>
        split
        next hlt =>
          refine hk.grant h hw hx ?_
          unfold State.roomFor
          split
          next n hn => exact absurd hn (hneed n)
          · simpa using hlt
          · simpa using hlt
        · exact h
      · exact h
    · exact h
  · split
    · exact h
    · split
      next hq => exact hk.claim _ none h hq nofun
      · exact h

theorem visit {P : State → Prop} (hk : PolicyKept P) {s : State} (h : P s) (skip : List Ctx) (b : Ctx) :
    P (s.visit skip b).1 := by
  unfold State.visit
  split
  · exact h
  next hw =>
    rw [not_not] at hw
    split
    · exact h
    · split
      · exact hk.stepFive h hw
      · split
        · exact hk.stepFive h hw
        · split
          next hq =>
            refine hk.claim _ _ h hq.2 fun c hc => ?_
            cases hc
            exact hw
          · split
            next j hbest =>
              obtain ⟨x, hx, hroom⟩ := fit_room (bestFit_some hbest).1
              exact hk.grant h hw hx hroom
            · split
              next hr => exact hk.recalls h hr
              · exact hk.stepFive h hw

theorem passOnce {P : State → Prop} (hk : PolicyKept P) {s : State} (h : P s) (skip : List Ctx) :
    P (s.passOnce skip).1 := by
  have hfold (l : List Ctx) (p : State × Bool) (hp : P p.1) :
      P (l.foldl (fun acc b => ((acc.1.visit skip b).1, acc.2 || (acc.1.visit skip b).2)) p).1 := by
    induction l generalizing p with
    | nil => exact hp
    | cons b l ih => exact ih _ (hk.visit hp skip b)
  exact hfold _ (s, false) h

theorem policyPass {P : State → Prop} (hk : PolicyKept P) {s : State} (h : P s) (skip : List Ctx) :
    P (s.policyPass skip) := by
  unfold State.policyPass
  split
  · dsimp only
    split
    · exact hk.passOnce (hk.passOnce h skip) []
    · exact hk.passOnce h skip
  · exact h

end PolicyKept

/-! ### A slot that does not fit a stream's head (R60, R62, R65) -/

/-- The stream is not resident in the slot, and the slot has no room for its head. -/
def State.apart (s : State) (c : Ctx) (k : Slot) : Prop :=
  (∀ h, s.str.ctxs[c].slot ≠ some (k, h)) ∧ ∀ x, s.dir.ext[k] = some x → s.roomFor c x = false

/-- The room a slot has for a stream's head stands through policy work. -/
theorem roomFor_kept {s t : State} (h : Polices s t) (c : Ctx) {x y : Ext} (hxy : x.KeptIn y) :
    t.roomFor c y = s.roomFor c x := by
  have hneed : t.str.headNeed c = s.str.headNeed c := by
    unfold Streams.headNeed
    rw [(h.ctx c).pending]
  have hspace : t.space y = s.space x := by
    unfold State.space
    rw [h.rep, hxy.cursor]
  unfold State.roomFor
  rw [hneed, hspace]

theorem apart_of_slot {s t : State} {c : Ctx} {k : Slot} (h : Polices s t) (hs : s.apart c k)
    (hslot : ∀ g, t.str.ctxs[c].slot ≠ some (k, g)) : t.apart c k := by
  refine ⟨hslot, fun y hy => ?_⟩
  cases hx : s.dir.ext[k] with
  | none =>
    rw [(h.ext k).1 hx] at hy
    cases hy
  | some x =>
    obtain ⟨z, hz, hkept⟩ := (h.ext k).2 x hx
    rw [hy] at hz
    cases hz
    exact (roomFor_kept h c hkept).trans (hs.2 x hx)

theorem apart_of_same {s t : State} {c : Ctx} {k : Slot} (h : Polices s t) (hs : s.apart c k)
    (hstr : t.str = s.str) : t.apart c k :=
  apart_of_slot h hs fun g => by rw [hstr]; exact hs.1 g

/-- R25: the end of a residency leaves a stream's slot, or leaves it without one. -/
theorem endResidency_slot (s : State) (b c : Ctx) :
    (s.endResidency b).str.ctxs[c].slot = s.str.ctxs[c].slot ∨ (s.endResidency b).str.ctxs[c].slot = none := by
  unfold State.endResidency
  split
  next j _ _ _ =>
    have hstr := s.dropResident_str j b
    generalize s.dropResident j b = u at *
    rw [onCtx_get]
    split
    · exact .inr rfl
    · exact .inl (by rw [hstr])
  · exact .inl rfl

theorem residents_slot (s : State) (l : List Ctx) (c : Ctx) :
    (l.foldl State.endResidency s).str.ctxs[c].slot = s.str.ctxs[c].slot ∨
      (l.foldl State.endResidency s).str.ctxs[c].slot = none := by
  induction l generalizing s with
  | nil => exact .inl rfl
  | cons b l ih =>
    rcases ih (s.endResidency b) with h | h
    · rcases endResidency_slot s b c with h' | h'
      · exact .inl (h.trans h')
      · exact .inr (h.trans h')
    · exact .inr h

theorem decideShut_slot (s : State) (k : Slot) (why : ShutCause) (r : Option (ReqTag × Station)) (c : Ctx) :
    (s.decideShut k why r).str.ctxs[c].slot = s.str.ctxs[c].slot ∨
      (s.decideShut k why r).str.ctxs[c].slot = none := by
  unfold State.decideShut
  split
  · exact .inl rfl
  · dsimp only
    split
    · exact .inl rfl
    · split <;> exact residents_slot _ _ c

theorem apart_of_left {s t : State} {c : Ctx} {k : Slot} (h : Polices s t) (hs : s.apart c k)
    (hslot : t.str.ctxs[c].slot = s.str.ctxs[c].slot ∨ t.str.ctxs[c].slot = none) : t.apart c k := by
  refine apart_of_slot h hs fun g => ?_
  rcases hslot with he | he
  · rw [he]
    exact hs.1 g
  · rw [he]
    exact nofun

theorem apart_decideShut {s : State} {c : Ctx} {k : Slot} (h : s.apart c k) (j : Slot) (why : ShutCause) :
    (s.decideShut j why).apart c k :=
  apart_of_left (polices_decideShut s j why none) h (decideShut_slot s j why none c)

/-- R60, R62: a grant of a slot that has room for the stream it is granted to. -/
theorem apart_grant {s : State} {c : Ctx} {k : Slot} (h : s.apart c k) {b : Ctx} {j : Slot} {x : Ext}
    (hw : s.str.ctxs[b].state = .waiting) (hx : s.dir.ext[j] = some x) (hroom : s.roomFor b x = true) :
    (s.grant b j).apart c k := by
  refine apart_of_slot (polices_grant s b j hw) h fun g => ?_
  by_cases hbc : c = b
  · subst hbc
    rw [(grant_self hx c).2.1]
    intro hk
    cases hk
    rw [h.2 x hx] at hroom
    cases hroom
  · rw [grant_other hbc]
    exact h.1 g

/-- R57, R60, R62: a policy pass grants no stream a slot without room for its head. -/
theorem apart_policy (c : Ctx) (k : Slot) : PolicyKept fun s => s.apart c k where
  grant := fun h hw hx hroom => apart_grant h hw hx hroom
  shut := fun j why h => apart_decideShut h j why
  claim := fun kd b h hq _ => apart_of_same (polices_queueClaim _ kd b hq) h (queueClaim_same _ kd b).1
  recalls := fun h hr => apart_of_same (polices_beginRecall _ (recallNeeded_permission hr)) h (beginRecall_same _).1

/-! ### The extent allocated (R65, R66, R73) -/

/-- R65, R66: the entry and the slot of the stream whose turn it is. -/
theorem exec_issuePlace {s : State} {c : Ctx} {tg : DTag} {k : Slot} {g : Gen} {e : PendingEntry}
    {rest : List PendingEntry} {x : Ext} (hs : s.rst = none)
    (hm : s.mem.state = .member ∨ s.mem.state = .catchup) (hq : s.link.queue.length < 16)
    (hrun : s.line.mode = .run) (hwarn : s.line.warned = false) (hclose : s.nextClose = none)
    (hopen : s.nextOpen = none) (hnext : s.nextPlacer = some c) (htag : s.plc.freeTag = some tg)
    (hslot : s.str.ctxs[c].slot = some (k, g)) (hpend : s.str.ctxs[c].pending = e :: rest)
    (hx : s.dir.ext[k] = some x) :
    exec .issuePlace s =
      .next (s.allocate { c := c, t := tg, e := e, rest := rest, k := k, x := x }).policyPass.settled := by
  have hroom : s.queueRoom = true := by
    rcases hm with hm | hm <;> simp [State.queueRoom, hm, MemberState.issues, hq]
  have hturn : s.placeTurn = some (c, tg) := by
    unfold State.placeTurn
    rw [hroom, (runs_iff s).2 ⟨hrun, hwarn⟩, hclose, hopen, hnext, htag]
    rfl
  have hjob : s.placeJob c tg = some { c := c, t := tg, e := e, rest := rest, k := k, x := x } := by
    unfold State.placeJob
    rw [hslot, hpend]
    simp only [hx, Option.map_some]
  refine (live_settled _ hs : execIssuePlace s = _).trans ?_
  rw [hturn]
  change Host.Outcome.next (State.settled (match s.placeJob c tg with
    | some j => (s.allocate j).policyPass
    | none => s)) = _
  rw [hjob]

/-- R66: a PLACE of `n` PU is issued, the shut FULL left aside. -/
def State.placed (s : State) (j : PlaceJob) (n : Nat) (isHead : Bool) : State :=
  (((s.onPlc (j.table n isHead)).setExt j.k (some (j.filled n s.str.timeMs))).onCtx j.c
    (j.ctx n isHead (s.dir.rep.dir[j.k].kind? == some .mixed) s.str.timeMs)).onLink
      fun l => { l with queue := l.queue ++ [j.directive n] }

theorem issue_eq (s : State) (j : PlaceJob) (n : Nat) (isHead : Bool) :
    s.issue j n isHead =
      if s.dir.rep.capacity ≤ j.x.cursor + n then (s.placed j n isHead).decideShut j.k .full
      else s.placed j n isHead := rfl

/-- R65: the extent of an entry that fits, or that is split. -/
theorem allocate_issue {s : State} {j : PlaceJob}
    (h : j.e.remaining ≤ s.dir.rep.capacity - j.x.cursor ∨ j.e.headExtent = none) :
    s.allocate j = s.issue j (min j.e.remaining (s.dir.rep.capacity - j.x.cursor))
      (!decide (j.e.remaining ≤ s.dir.rep.capacity - j.x.cursor)) := by
  unfold State.allocate State.space
  split
  next hfit => rw [Nat.min_eq_left hfit, decide_eq_true hfit]; rfl
  next hlong =>
    rw [if_neg (by rw [h.resolve_left hlong]; decide), Nat.min_eq_right (Nat.le_of_not_le hlong),
      decide_eq_false hlong]
    rfl

theorem allocate_release {s : State} {j : PlaceJob} (h : s.dir.rep.capacity - j.x.cursor < j.e.remaining)
    (ht : j.e.headExtent.isSome) : s.allocate j = s.releaseTail j := by
  unfold State.allocate State.space
  rw [if_neg (Nat.not_le.2 h), if_pos ht]

/-- R56, R66: the completion table holds the entry of the PLACE. -/
theorem table_entry (j : PlaceJob) (n : Nat) (isHead : Bool) (p : Placement) :
    ∃ tail partner, (j.table n isHead p).comp[j.t] = some (j.entry n tail partner) := by
  unfold PlaceJob.table
  split
  · split
    · exact ⟨_, _, (put_get _ _ _ _).trans (if_pos rfl)⟩
    · exact ⟨_, _, (put_get _ _ _ _).trans (if_pos rfl)⟩
  · exact ⟨_, _, (put_get _ _ _ _).trans (if_pos rfl)⟩

theorem placed_ctx (s : State) (j : PlaceJob) (n : Nat) (isHead : Bool) :
    (∃ i, (s.placed j n isHead).str.ctxs[j.c] =
      { j.ctx n isHead (s.dir.rep.dir[j.k].kind? == some .mixed) s.str.timeMs s.str.ctxs[j.c] with idle := i }) ∧
      ∀ b, b ≠ j.c → (s.placed j n isHead).str.ctxs[b] = s.str.ctxs[b] := by
  have hget := onCtx_get ((s.onPlc (j.table n isHead)).setExt j.k (some (j.filled n s.str.timeMs))) j.c
  exact ⟨⟨_, (hget j.c _).trans (if_pos rfl)⟩, fun b hb => (hget b _).trans (if_neg hb)⟩

theorem placed_changes (s : State) (j : PlaceJob) (n : Nat) (isHead : Bool) :
    s.changesOnly (s.placed j n isHead) (.link :: policyBlocks) :=
  ((((onPlc_changes s _).andThen (setExt_changes _ _ _) (n := .link :: policyBlocks) (by simp [policyBlocks])
    (by simp [policyBlocks])).andThen (onCtx_changes _ _ _) (fun _ h => h) (by simp [policyBlocks])).andThen
      (onLink_changes _ _) (fun _ h => h) (by simp))

/-- R57, R66, R73: policy work behind a PLACE, the shut FULL among it. -/
theorem queues_issue (s : State) (j : PlaceJob) (n : Nat) (isHead : Bool) :
    Queues [.full] (s.placed j n isHead) (s.issue j n isHead).policyPass := by
  rw [issue_eq]
  exact (Queues.ite (fun _ => queues_decideShut _ _ none (by simp)) fun _ => Queues.refl _ _).trans
    (queues_policyPass _ [] (by simp))

/-- R34: the counters after a PLACE. -/
theorem counted_eq (j : PlaceJob) (long : Bool) (kd : Option SlotKind) (n : Counters) :
    j.counted long (kd == some .mixed) n =
      { n with
        split := if long then min (n.split + 1) 4294967295 else n.split,
        spilled := if kd = some .mixed ∧ j.c ≠ 0 ∧ j.e.headExtent = none then min (n.spilled + 1) 4294967295
          else n.spilled } := by
  simp only [PlaceJob.counted, sat32, satAdd, Bool.and_eq_true, beq_iff_eq, bne_iff_ne, Option.isNone_iff_eq_none,
    and_assoc]

/-- R65: what TAIL-RELEASE leaves to the policy pass that follows it. -/
theorem releaseTail_ctx (s : State) (j : PlaceJob) :
    (s.onCtx j.c fun x => { x with state := .waiting, slot := none }).str.ctxs[j.c].pending = s.str.ctxs[j.c].pending ∧
      (s.onCtx j.c fun x => { x with state := .waiting, slot := none }).str.ctxs[j.c].inFlight =
        s.str.ctxs[j.c].inFlight ∧
      (s.onCtx j.c fun x => { x with state := .waiting, slot := none }).str.ctxs[j.c].slot = none := by
  have hget := (onCtx_get s j.c j.c fun x => { x with state := .waiting, slot := none }).trans (if_pos rfl)
  exact ⟨(congrArg Context.pending hget :), (congrArg Context.inFlight hget :), (congrArg Context.slot hget :)⟩

theorem leaveSlot_slot (s : State) (c : Ctx) (k : Slot) :
    (s.leaveSlot c k).str.ctxs[c].slot = s.str.ctxs[c].slot ∨ (s.leaveSlot c k).str.ctxs[c].slot = none := by
  have hstr : (s.dropResident k c).str.ctxs[c].slot = s.str.ctxs[c].slot :=
    congrArg (fun v : Streams => v.ctxs[c].slot) (s.dropResident_str k c)
  unfold State.leaveSlot
  dsimp only
  split
  · split
    · rw [← hstr]
      exact decideShut_slot _ _ _ none c
    · exact .inl hstr
  · exact .inl hstr

/-- Settles O34: the PLACE that is issued. -/
theorem placeIssued : Obligations.PlaceIssued := by
  refine ⟨fun c tg k g e rest x s hs hm hq hrun hwarn hclose hopen hnext htag hslot hpend hx => ?_,
    mayIssue_iff, fun s base hage => ⟨fun c hc => nextPlacer_oldest hage hc, nextPlacer_none⟩, freeTag_iff⟩
  have hexec := exec_issuePlace hs hm hq hrun hwarn hclose hopen hnext htag hslot hpend hx
  obtain ⟨k', g', e', rest', x', kd, hbound, hslot', hpend', hx', hserial, hk, hready, hdue⟩ :=
    (mayIssue_iff s c).1 (nextPlacer_mayIssue hnext)
  cases hslot.symm.trans hslot'
  cases hpend.symm.trans hpend'
  cases hx.symm.trans hx'
  have hopen : s.shutApplied k = false := isOpen_notApplied (by rw [hk]; rfl)
  obtain ⟨j, hj⟩ : ∃ j : PlaceJob, j = { c := c, t := tg, e := e, rest := rest, k := k, x := x } := ⟨_, rfl⟩
  rw [← hj] at hexec
  have hjc : j.c = c := by rw [hj]
  have hjt : j.t = tg := by rw [hj]
  have hjk : j.k = k := by rw [hj]
  have hjx : j.x = x := by rw [hj]
  have hje : j.e = e := by rw [hj]
  have hjr : j.rest = rest := by rw [hj]
  subst hjc hjt hjk hjx hje hjr
  refine ⟨fun n hn hfit => ?_, fun hlong htail => ?_⟩
  · rw [allocate_issue hfit, ← hn] at hexec
    generalize hlong : (!decide (j.e.remaining ≤ s.dir.rep.capacity - j.x.cursor)) = long at hexec
    obtain ⟨⟨i, hctx⟩, hothers⟩ := placed_ctx s j n long
    obtain ⟨tail, partner, hentry⟩ := table_entry j n long s.plc
    have hext : (s.placed j n long).dir.ext[j.k] = some (j.filled n s.str.timeMs) :=
      (setExt_get _ j.k j.k _).trans (if_pos rfl)
    have hchanges := placed_changes s j n long
    have hqueues := queues_issue s j n long
    have hfull (hc : s.dir.rep.capacity ≤ j.x.cursor + n) :=
      decideShut_stands (t := (s.issue j n long).policyPass) (cs := [.full]) (c := .full) (r := none) hext hdue hopen
        (by rw [issue_eq, if_pos hc]; exact queues_policyPass _ [] (by simp))
    have hlink : (s.placed j n long).link = { s.link with queue := s.link.queue ++ [j.directive n] } := rfl
    have hcomp : (s.placed j n long).plc.comp = (j.table n long s.plc).comp := rfl
    have hrep : (s.placed j n long).dir.rep = s.dir.rep := rfl
    have hbus : (s.placed j n long).bus = s.bus := rfl
    have hstate : (s.placed j n long).mem.state = s.mem.state := rfl
    generalize s.placed j n long = u at *
    generalize (s.issue j n long).policyPass = t at *
    have hpol := hqueues.toPolices
    have hkeep := hpol.ctx j.c
    rw [hctx] at hkeep
    obtain ⟨y, hy, hxy⟩ := (hpol.ext j.k).2 _ hext
    refine ⟨_, hexec, hpol.link.trans hlink, ⟨j.entry n tail partner, ?_, rfl, rfl, rfl, rfl, rfl, rfl⟩,
      ⟨y, hy, hxy.cursor, hxy.inFlight, hxy.lastFill, fun hc => ?_⟩, fun hc hmem => ?_, hkeep.inFlight,
      hkeep.lastWrite, ?_, fun hle => ?_, fun hlt => ⟨?_, ?_⟩, fun b hb => ?_, hpol.rep.trans hrep, ?_⟩
    · rw [settled_plc, hpol.comp, hcomp]
      exact hentry
    · obtain ⟨⟨z, hz, hzdue, -⟩, -⟩ := hfull hc
      cases hy.symm.trans hz
      exact hzdue
    · rw [← hbus]
      exact (hfull hc).2 (hstate.trans hmem)
    · refine hkeep.counters.trans ((counted_eq j long _ _).trans ?_)
      by_cases hle : j.e.remaining ≤ s.dir.rep.capacity - j.x.cursor
      · simp [← hlong, hle]
      · simp [← hlong, hle]
    · refine hkeep.pending.trans (if_neg ?_)
      rw [← hlong, decide_eq_true hle]
      decide
    · refine hkeep.pending.trans (if_pos ?_)
      rw [← hlong, decide_eq_false (Nat.not_le.2 hlt)]
      rfl
    · rw [settled_str, hkeep.counters, ← hlong, decide_eq_false (Nat.not_le.2 hlt)]
      rfl
    · exact (hpol.ctx b).pending.trans (congrArg Context.pending (hothers b hb))
    · exact frame_of_changes (hchanges.andThen hpol.changesOnly (fun _ h => h) fun _ h => List.mem_cons_of_mem _ h)
        (by simp [policyBlocks])
  · rw [allocate_release hlong htail] at hexec
    obtain ⟨hpending, hflight, hslot0⟩ := releaseTail_ctx s j
    have hroom : (s.onCtx j.c fun x => { x with state := .waiting, slot := none }).roomFor j.c j.x = false := by
      unfold State.roomFor Streams.headNeed
      rw [hpending, hpend]
      simp only [htail]
      exact decide_eq_false (Nat.not_le.2 hlong)
    have hchanges := onCtx_changes s j.c fun x => { x with state := .waiting, slot := none }
    have hapart : (s.onCtx j.c fun x => { x with state := .waiting, slot := none }).apart j.c j.k := by
      refine ⟨fun h => by rw [hslot0]; exact nofun, fun z hz => ?_⟩
      cases hx.symm.trans hz
      exact hroom
    unfold State.releaseTail at hexec
    have hlink : (s.onCtx j.c fun x => { x with state := .waiting, slot := none }).link = s.link := rfl
    have hcomp : (s.onCtx j.c fun x => { x with state := .waiting, slot := none }).plc.comp = s.plc.comp := rfl
    have hrep : (s.onCtx j.c fun x => { x with state := .waiting, slot := none }).dir.rep = s.dir.rep := rfl
    generalize (s.onCtx j.c fun x => { x with state := .waiting, slot := none }) = u at *
    have hleave := polices_leaveSlot u j.c j.k
    have hpol := hleave.trans (polices_policyPass _)
    refine ⟨_, hexec, hpol.link.trans hlink, hpol.comp.trans hcomp,
      (hpol.ctx j.c).pending.trans (hpending.trans hpend), (hpol.ctx j.c).inFlight.trans hflight,
      ((apart_policy j.c j.k).policyPass (apart_of_left hleave hapart (leaveSlot_slot u j.c j.k)) []).1, hpol.rep.trans hrep,
      frame_of_changes (hchanges.andThen hpol.changesOnly ?_ fun _ h => h) (by simp [policyBlocks])⟩
    simp [policyBlocks]

end Sys2Proof.Machine
end

