-- ==== Sys2Proof/Proofs/Refusals.lean ====
section
/-! SUPPORT. Pending descriptors that are refused out of their lists (R31, R35, R70): the results and their
counts, and the tails that leave with them. -/

namespace Sys2Proof.Machine

/-! ### Results that come in one event (R7) -/

/-- R7: one result, with the place it waits in. -/
def Intake.gain (i : Intake) (p : ResultRec × Waiter) : Intake :=
  if i.hasRoom then { i with results := i.results ++ [p.1] } else { i with waiters := i.waiters ++ [p.2] }

theorem Intake.hasRoom_iff (i : Intake) : i.hasRoom = true ↔ i.results.length < 32 ∧ i.waiters = [] := by
  simp [Intake.hasRoom]

theorem Intake.gain_kept (i : Intake) (p : ResultRec × Waiter) :
    (i.gain p).queue = i.queue ∧ (i.gain p).response = i.response := by
  unfold Intake.gain
  split <;> exact ⟨rfl, rfl⟩

/-- R7: results that come one after another. -/
theorem Intake.took_gained {i : Intake} {l : List (ResultRec × Waiter)} (hl : ∀ p ∈ l, p.2 ≠ .intakeHead) :
    i.took (l.foldl Intake.gain i) l := by
  induction l generalizing i with
  | nil => simp [Intake.took]
  | cons p l ih =>
    have ih' := ih (i := i.gain p) fun q hq => hl q (List.mem_cons_of_mem _ hq)
    rw [List.foldl_cons]
    generalize l.foldl Intake.gain (i.gain p) = j at *
    obtain ⟨hres, hwait⟩ := ih'
    by_cases hroom : i.hasRoom = true
    · obtain ⟨hlen, hw⟩ := (Intake.hasRoom_iff i).1 hroom
      have hgain : i.gain p = { i with results := i.results ++ [p.1] } := if_pos hroom
      have hn : 32 - i.results.length = (32 - (i.results.length + 1)) + 1 := by omega
      rw [hgain] at hres hwait
      simp only [hw, if_true, List.length_append, List.length_singleton] at hres hwait
      unfold Intake.took
      simp only [hw, if_true]
      rw [hn, List.take_succ_cons, List.drop_succ_cons]
      exact ⟨by rw [hres, List.map_cons, List.append_assoc]; rfl, hwait⟩
    · have hgain : i.gain p = { i with waiters := i.waiters ++ [p.2] } := if_neg hroom
      have hn : (if i.waiters = [] then 32 - i.results.length else 0) = 0 := by
        split
        next hw =>
          rw [Intake.hasRoom_iff] at hroom
          have : ¬ i.results.length < 32 := fun h => hroom ⟨h, hw⟩
          omega
        · rfl
      have hne : p.2 ≠ .intakeHead := hl p List.mem_cons_self
      rw [hgain] at hres hwait
      simp only [List.append_eq_nil_iff, List.cons_ne_nil, and_false, if_false, List.take_zero, List.map_nil,
        List.append_nil, List.drop_zero] at hres hwait
      unfold Intake.took
      simp only [hn, List.take_zero, List.drop_zero, List.map_nil, List.append_nil, List.map_cons]
      exact ⟨hres, by rw [hwait, List.filter_append]; simp [hne]⟩

/-- Bringing the intake unit up to date leaves the results that have come. -/
theorem Intake.took_settled {i : Intake} {t : State} {l : List (ResultRec × Waiter)} (h : i.took t.intake l) :
    i.took t.settled.intake l :=
  ⟨(settled_results t).trans h.1, (settled_waiters t).trans h.2⟩

/-! ### Counts of refusals (R34) -/

theorem Counters.refusing_add (x : Counters) (m n : Nat) : (x.refusing m).refusing n = x.refusing (m + n) := by
  unfold Counters.refusing
  by_cases hm : m = 0
  · simp [hm]
  · by_cases hn : n = 0
    · simp [hn]
    · have hmn : m + n ≠ 0 := by omega
      simp only [hm, hn, hmn, if_false]
      congr 1
      omega

/-! ### The tail of a stream (R56, R69, R70) -/

/-- The completion table entry of extent 1 of the stream's tail: neither failed nor answered. -/
def State.ownsTail (s : State) (c : Ctx) (g : DTag) (y : CompEntry) : Prop :=
  s.plc.tailOwner c = some g ∧ s.plc.comp[g] = some y ∧ y.second = false ∧ y.partner = none ∧ y.result = none ∧
    y.outcome ≠ .failed

theorem tailOwner_some {p : Placement} {c : Ctx} {g : DTag} (h : p.tailOwner c = some g) :
    ∃ y, p.comp[g] = some y ∧ y.stream = c ∧ y.tail = some .waiting := by
  have hp := List.find?_some h
  split at hp
  next y hy =>
    rw [Bool.and_eq_true] at hp
    exact ⟨y, hy, eq_of_beq hp.1, eq_of_beq hp.2⟩
  · cases hp

/-- The tail of a stream stays found while the entries of other streams alone change. -/
theorem tailOwner_congr {p q : Placement} {c : Ctx}
    (h : ∀ g : DTag, q.comp[g] = p.comp[g] ∨
      (∀ y, p.comp[g] = some y → y.stream ≠ c) ∧ ∀ y, q.comp[g] = some y → y.stream ≠ c) :
    q.tailOwner c = p.tailOwner c := by
  have hno (r : Placement) (g : DTag) (hr : ∀ y, r.comp[g] = some y → y.stream ≠ c) :
      (match r.comp[g] with | some e => e.stream == c && e.tail == some .waiting | none => false) = false := by
    cases hg : r.comp[g] with
    | none => rfl
    | some y => simp [hr y hg]
  unfold Placement.tailOwner
  congr 1
  funext g
  rcases h g with he | ⟨hp, hq⟩
  · rw [he]
  · exact (hno q g hq).trans (hno p g hp).symm

theorem refusalOf_waits {s : State} {why : Reason} {c : Ctx} {e : PendingEntry} {p : ResultRec × Waiter}
    (h : s.refusalOf why c e = some p) : p.2 ≠ .intakeHead := by
  unfold State.refusalOf at h
  split at h
  · cases h
    exact nofun
  · split at h
    · split at h
      · cases h
        exact nofun
      · cases h
    · cases h
  · cases h

theorem refusalOf_congr {s u : State} {why : Reason} {c : Ctx} {e : PendingEntry}
    (h : e.headExtent.isSome → u.plc.tailOwner c = s.plc.tailOwner c ∧
      ∀ g, s.plc.tailOwner c = some g → u.plc.comp[g] = s.plc.comp[g]) :
    u.refusalOf why c e = s.refusalOf why c e := by
  unfold State.refusalOf
  cases he : e.headExtent with
  | none => rfl
  | some x =>
    obtain ⟨hown, hcomp⟩ := h (by rw [he]; rfl)
    rw [hown]
    cases hg : s.plc.tailOwner c with
    | none => rfl
    | some g => simp only [hcomp g hg]

/-! ### One refusal (R31, R35, R70) -/

/-- `t` comes from `s` by refusing one entry of a list. -/
structure Refuses (why : Reason) (s t : State) (c : Ctx) (e : PendingEntry) : Prop where
  intake : t.intake = (s.refusalOf why c e).toList.foldl Intake.gain s.intake
  self : t.str.ctxs[c] = { s.str.ctxs[c] with
    counters := s.str.ctxs[c].counters.refusing (s.refusalOf why c e).toList.length }
  others : ∀ b, b ≠ c → t.str.ctxs[b] = s.str.ctxs[b]
  comp : ∀ g, (e.headExtent.isSome → s.plc.tailOwner c ≠ some g) → t.plc.comp[g] = s.plc.comp[g]
  left : e.headExtent.isSome → ∀ g y, s.plc.tailOwner c = some g → t.plc.comp[g] = some y → y.stream = c
  tail : e.headExtent.isSome → ∀ g y, s.plc.tailOwner c = some g → s.plc.comp[g] = some y →
    y.outcome = .outstanding → t.plc.comp[g] = some { y with tail := some (.refused (some why)) }

/-- The tails of the other streams stay where they are. -/
theorem Refuses.tailOwner {why : Reason} {s t : State} {c : Ctx} {e : PendingEntry} (h : Refuses why s t c e)
    {b : Ctx} (hb : e.headExtent.isSome → b ≠ c) :
    t.plc.tailOwner b = s.plc.tailOwner b ∧ ∀ g, s.plc.tailOwner b = some g → t.plc.comp[g] = s.plc.comp[g] := by
  refine ⟨tailOwner_congr fun g => ?_, fun g hg => h.comp g fun he hc => ?_⟩
  · by_cases hg : e.headExtent.isSome ∧ s.plc.tailOwner c = some g
    · obtain ⟨he, hg⟩ := hg
      refine .inr ⟨fun y hy hyb => ?_, fun y hy hyb => hb he (hyb.symm.trans (h.left he g y hg hy))⟩
      obtain ⟨z, hz, hzc, -⟩ := tailOwner_some hg
      cases hy.symm.trans hz
      exact hb he (hyb.symm.trans hzc)
    · exact .inl (h.comp g fun he hc => hg ⟨he, hc⟩)
  · obtain ⟨y, hy, hyb, -⟩ := tailOwner_some hg
    obtain ⟨z, hz, hzc, -⟩ := tailOwner_some hc
    cases hy.symm.trans hz
    exact hb he (hyb.symm.trans hzc)

theorem countRefused_ctx (s : State) (c b : Ctx) :
    (s.countRefused c).str.ctxs[b] =
      if b = c then { s.str.ctxs[c] with counters := s.str.ctxs[c].counters.refusing 1 }
      else s.str.ctxs[b] := by
  rw [Counters.refusing_one]
  exact onCounters_get _ c b _

theorem refuses_whole {s : State} {why : Reason} {c : Ctx} {e : PendingEntry} (he : e.headExtent = none) :
    Refuses why s (s.refuseEntry c why e) c e := by
  have hstep : s.refuseEntry c why e = (s.countRefused c).deliver (refusal e.tag why (some c)) := by
    unfold State.refuseEntry
    rw [he]
  have href : s.refusalOf why c e = some (refusal e.tag why (some c), .store (refusal e.tag why (some c))) := by
    unfold State.refusalOf
    rw [he]
    rfl
  have hno : e.headExtent.isSome = true → False := by rw [he]; exact nofun
  rw [hstep]
  refine ⟨?_, ?_, fun b hb => ?_, fun g _ => rfl, fun h => (hno h).elim, fun h => (hno h).elim⟩
  · rw [href]
    rfl
  · rw [href]
    exact (countRefused_ctx s c c).trans (if_pos rfl)
  · exact (countRefused_ctx s c b).trans (if_neg hb)

/-- R69, R70: the table with the tail of entry `g` refused. -/
def State.tailMarked (s : State) (g : DTag) (y : CompEntry) (why : Option Reason) : State :=
  s.onPlc fun p => { p with comp := put p.comp g (some { y with tail := some (.refused why) }) }

theorem tailMarked_get (s : State) (g h : DTag) (y : CompEntry) (why : Option Reason) :
    (s.tailMarked g y why).plc.comp[h] =
      if h = g then some { y with tail := some (.refused why) } else s.plc.comp[h] := put_get _ _ _ _

theorem refuseTail_eq {s : State} {c : Ctx} {g : DTag} {y : CompEntry} (hown : s.plc.tailOwner c = some g)
    (hy : s.plc.comp[g] = some y) (why : Option Reason) :
    s.refuseTail c why = (s.tailMarked g y why).tryAssemble g := by
  unfold State.refuseTail
  rw [hown]
  have hmap : (s.plc.comp[g]).map (fun e => { e with tail := some (.refused why) }) =
      some { y with tail := some (.refused why) } := by rw [hy]; rfl
  exact congrArg (fun o => (s.onPlc fun p => { p with comp := put p.comp g o }).tryAssemble g) hmap

/-- R70: the result of an undivided descriptor, or of a head whose tail has left, joins the queue or is kept
in its entry. -/
theorem tryAssemble_alone {s : State} {g : DTag} {y : CompEntry} (hy : s.plc.comp[g] = some y)
    (hsec : y.second = false) (hpart : y.partner = none) (hres : y.result = none) :
    s.tryAssemble g =
      match assemble y none with
      | none => s
      | some r =>
        if s.intake.hasRoom then
          ((s.countResult y.stream r.status).onIntake fun i => { i with results := i.results ++ [r] }).onPlc
            (·.freeParts g)
        else
          ((s.countResult y.stream r.status).onIntake fun i => { i with waiters := i.waiters ++ [.completion g] }).onPlc
            fun p => { p with comp := put p.comp g (some { y with result := some r }) } := by
  have hparts : s.plc.parts g = some (g, y, none) := by
    simp only [Placement.parts, hy, hsec, hpart]
  have hroom (st : Status) : (s.countResult y.stream st).intake = s.intake := by
    cases st <;> rfl
  unfold State.tryAssemble
  simp only [hparts, hres, Option.map_none, hroom]
  cases assemble y none <;> rfl

/-- R70: a tail whose extent 1 is not yet done is marked, and its result comes later. -/
theorem refuses_early {s : State} {why : Reason} {c : Ctx} {e : PendingEntry} {g : DTag} {y : CompEntry}
    (he : e.headExtent.isSome) (h : s.ownsTail c g y) (ho : y.outcome = .outstanding) :
    Refuses why s (s.refuseEntry c why e) c e := by
  obtain ⟨hown, hy, hsec, hpart, hres, -⟩ := h
  obtain ⟨x, hx⟩ := Option.isSome_iff_exists.1 he
  have hstep : s.refuseEntry c why e = s.tailMarked g y (some why) := by
    have hself := (tailMarked_get s g g y (some why)).trans (if_pos rfl)
    unfold State.refuseEntry
    rw [hx]
    refine (refuseTail_eq hown hy _).trans ((tryAssemble_alone hself hsec hpart hres).trans ?_)
    simp only [assemble, ho]
  have href : s.refusalOf why c e = none := by
    unfold State.refusalOf
    simp only [hx, hown, hy, ho]
    rfl
  have hyc : y.stream = c := by
    obtain ⟨z, hz, hzc, -⟩ := tailOwner_some hown
    cases hy.symm.trans hz
    exact hzc
  rw [hstep]
  refine ⟨?_, ?_, fun _ _ => rfl, fun k hk => ?_, fun _ k z hk hz => ?_, fun _ k z hk hz _ => ?_⟩
  · rw [href]
    rfl
  · rw [href]
    rfl
  · exact (tailMarked_get s g k y _).trans (if_neg fun hkg : k = g => hk he (hkg ▸ hown))
  · cases hown.symm.trans hk
    rw [(tailMarked_get s g g y _).trans (if_pos rfl)] at hz
    cases hz
    exact hyc
  · cases hown.symm.trans hk
    cases hy.symm.trans hz
    exact (tailMarked_get s g g y _).trans (if_pos rfl)

/-- R70: a tail whose extent 1 is done gives the result of its descriptor. -/
theorem refuses_done {s : State} {why : Reason} {c : Ctx} {e : PendingEntry} {g : DTag} {y : CompEntry}
    (he : e.headExtent.isSome) (h : s.ownsTail c g y) (ho : y.outcome = .ok) :
    Refuses why s (s.refuseEntry c why e) c e := by
  obtain ⟨hown, hy, hsec, hpart, hres, -⟩ := h
  obtain ⟨x, hx⟩ := Option.isSome_iff_exists.1 he
  have hyc : y.stream = c := by
    obtain ⟨z, hz, hzc, -⟩ := tailOwner_some hown
    cases hy.symm.trans hz
    exact hzc
  obtain ⟨r, hr⟩ : ∃ r : ResultRec,
      r = ({ tag := y.tag, status := .refused why, stream := some c, extents := [(y.extent, false)] } : ResultRec) :=
    ⟨_, rfl⟩
  have href : s.refusalOf why c e = some (r, .completion g) := by
    unfold State.refusalOf
    simp only [hx, hown, hy, ho, hr]
    rfl
  have hself := (tailMarked_get s g g y (some why)).trans (if_pos rfl)
  have hasm : assemble { y with tail := some (.refused (some why)) } none = some r := by
    simp only [assemble, ho, hr, hyc, CompEntry.listed]
    rfl
  have hstep : s.refuseEntry c why e =
      if s.intake.hasRoom then
        (((s.tailMarked g y (some why)).countRefused c).onIntake fun i =>
          { i with results := i.results ++ [r] }).onPlc (·.freeParts g)
      else
        (((s.tailMarked g y (some why)).countRefused c).onIntake fun i =>
          { i with waiters := i.waiters ++ [.completion g] }).onPlc fun p =>
            { p with comp := put p.comp g (some { y with tail := some (.refused (some why)), result := some r }) } := by
    unfold State.refuseEntry
    rw [hx]
    refine (refuseTail_eq hown hy _).trans ((tryAssemble_alone hself hsec hpart hres).trans ?_)
    rw [hasm]
    simp only [hr, hyc]
    rfl
  have hctx (b : Ctx) := countRefused_ctx (s.tailMarked g y (some why)) c b
  have hno : y.outcome ≠ .outstanding := by rw [ho]; decide
  have hfree := freeParts_spec (p := (s.tailMarked g y (some why)).plc) hself hsec
  rw [hstep]
  by_cases hroom : s.intake.hasRoom = true
  · rw [if_pos hroom]
    obtain ⟨hgone, -, hrest, -⟩ := hfree
    refine ⟨?_, ?_, fun b hb => (hctx b).trans (if_neg hb), fun k hk => ?_, fun _ k z hk hz => ?_,
      fun _ k z hk hz hout => ?_⟩
    · rw [href]
      exact (if_pos hroom).symm
    · rw [href]
      exact (hctx c).trans (if_pos rfl)
    · have hkg : k ≠ g := fun hkg => hk he (hkg ▸ hown)
      exact (hrest k hkg (by rw [hpart]; exact nofun)).trans ((tailMarked_get s g k y _).trans (if_neg hkg))
    · cases hown.symm.trans hk
      cases hgone.symm.trans hz
    · cases hown.symm.trans hk
      cases hy.symm.trans hz
      exact absurd hout hno
  · rw [if_neg hroom]
    refine ⟨?_, ?_, fun b hb => (hctx b).trans (if_neg hb), fun k hk => ?_, fun _ k z hk hz => ?_,
      fun _ k z hk hz hout => ?_⟩
    · rw [href]
      exact (if_neg hroom).symm
    · rw [href]
      exact (hctx c).trans (if_pos rfl)
    · have hkg : k ≠ g := fun hkg => hk he (hkg ▸ hown)
      exact (put_get _ _ _ _).trans ((if_neg hkg).trans ((tailMarked_get s g k y _).trans (if_neg hkg)))
    · cases hown.symm.trans hk
      cases ((put_get _ _ _ _).trans (if_pos rfl)).symm.trans hz
      exact hyc
    · cases hown.symm.trans hk
      cases hy.symm.trans hz
      exact absurd hout hno

/-- R31, R35, R70: an entry refused, whether it is a tail or not. -/
theorem refuses_refuseEntry {s : State} (why : Reason) {c : Ctx} {e : PendingEntry}
    (h : e.headExtent.isSome → ∃ g y, s.ownsTail c g y) : Refuses why s (s.refuseEntry c why e) c e := by
  cases he : e.headExtent with
  | none => exact refuses_whole he
  | some x =>
    have hs : e.headExtent.isSome := by rw [he]; rfl
    obtain ⟨g, y, hy⟩ := h hs
    cases ho : y.outcome with
    | outstanding => exact refuses_early hs hy ho
    | ok => exact refuses_done hs hy ho
    | failed =>
      obtain ⟨-, -, -, -, -, hnf⟩ := hy
      exact absurd ho hnf

/-! ### A list of refusals (R7, R31, R35) -/

/-- The results of the refusals that a test of the stream picks, with the places they wait in. -/
def State.refusals (s : State) (why : Reason) (l : List (Ctx × PendingEntry)) : List (ResultRec × Waiter) :=
  l.filterMap fun p => s.refusalOf why p.1 p.2

/-- The tails of a list stand in the completion table, one for a stream at most. -/
def State.ownsTails (s : State) (l : List (Ctx × PendingEntry)) : Prop :=
  (∀ p ∈ l, p.2.headExtent.isSome → ∃ g y, s.ownsTail p.1 g y) ∧
    l.Pairwise fun p q => p.2.headExtent.isSome → q.2.headExtent.isSome → p.1 ≠ q.1

/-- `t` comes from `s` by refusing the entries of a list in its order. -/
structure RefusesAll (why : Reason) (s t : State) (l : List (Ctx × PendingEntry)) : Prop where
  intake : t.intake = (s.refusals why l).foldl Intake.gain s.intake
  ctx : ∀ c : Ctx, t.str.ctxs[c] = { s.str.ctxs[c] with
    counters := s.str.ctxs[c].counters.refusing (s.refusals why (l.filter (·.1 == c))).length }
  comp : ∀ g, (∀ p ∈ l, p.2.headExtent.isSome → s.plc.tailOwner p.1 ≠ some g) → t.plc.comp[g] = s.plc.comp[g]
  tail : ∀ p ∈ l, p.2.headExtent.isSome → ∀ g y, s.plc.tailOwner p.1 = some g → s.plc.comp[g] = some y →
    y.outcome = .outstanding → t.plc.comp[g] = some { y with tail := some (.refused (some why)) }

theorem refusals_cons (s : State) (why : Reason) (p : Ctx × PendingEntry) (l : List (Ctx × PendingEntry)) :
    s.refusals why (p :: l) = (s.refusalOf why p.1 p.2).toList ++ s.refusals why l := by
  unfold State.refusals
  rw [List.filterMap_cons]
  cases s.refusalOf why p.1 p.2 <;> rfl

theorem refusals_wait {s : State} {why : Reason} {l : List (Ctx × PendingEntry)} {p : ResultRec × Waiter}
    (h : p ∈ s.refusals why l) : p.2 ≠ .intakeHead := by
  obtain ⟨q, -, hq⟩ := List.mem_filterMap.1 h
  exact refusalOf_waits hq

/-- R70: a refusal leaves the tails of the entries behind it, and what they give. -/
theorem Refuses.later {why : Reason} {s t : State} {p : Ctx × PendingEntry} {l : List (Ctx × PendingEntry)}
    (h : Refuses why s t p.1 p.2) (hl : s.ownsTails (p :: l)) :
    (∀ q ∈ l, q.2.headExtent.isSome → t.plc.tailOwner q.1 = s.plc.tailOwner q.1 ∧
      ∀ g, s.plc.tailOwner q.1 = some g → t.plc.comp[g] = s.plc.comp[g]) ∧ t.ownsTails l := by
  obtain ⟨hown, hone⟩ := hl
  obtain ⟨hp, hrest⟩ := List.pairwise_cons.1 hone
  have hkept (q : Ctx × PendingEntry) (hq : q ∈ l) (he : q.2.headExtent.isSome) :=
    h.tailOwner (b := q.1) fun hpe => (hp q hq hpe he).symm
  refine ⟨hkept, fun q hq he => ?_, hrest⟩
  obtain ⟨g, y, hg, hy, hkeep⟩ := hown q (List.mem_cons_of_mem _ hq) he
  obtain ⟨howner, hcomp⟩ := hkept q hq he
  exact ⟨g, y, howner.trans hg, (hcomp g hg).trans hy, hkeep⟩

theorem refusals_congr {s u : State} {why : Reason} {l : List (Ctx × PendingEntry)}
    (h : ∀ q ∈ l, q.2.headExtent.isSome → u.plc.tailOwner q.1 = s.plc.tailOwner q.1 ∧
      ∀ g, s.plc.tailOwner q.1 = some g → u.plc.comp[g] = s.plc.comp[g]) : u.refusals why l = s.refusals why l :=
  List.filterMap_congr fun q hq => refusalOf_congr (h q hq)

theorem refusesAll_fold {s : State} (why : Reason) {l : List (Ctx × PendingEntry)} (hl : s.ownsTails l) :
    RefusesAll why s (l.foldl (fun t p => t.refuseEntry p.1 why p.2) s) l := by
  induction l generalizing s with
  | nil => exact ⟨rfl, fun _ => rfl, fun _ _ => rfl, by simp⟩
  | cons p l ih =>
    have hstep := refuses_refuseEntry why (hl.1 p List.mem_cons_self)
    rw [List.foldl_cons]
    generalize s.refuseEntry p.1 why p.2 = u at *
    obtain ⟨hkept, hlater⟩ := hstep.later hl
    have hall := ih hlater
    generalize l.foldl (fun t p => t.refuseEntry p.1 why p.2) u = t at *
    have hsame (c : Ctx) : u.refusals why (l.filter (·.1 == c)) = s.refusals why (l.filter (·.1 == c)) :=
      refusals_congr fun q hq => hkept q (List.mem_of_mem_filter hq)
    refine ⟨?_, fun c => ?_, fun g hg => ?_, fun q hq he g y hown hy ho => ?_⟩
    · rw [hall.intake, refusals_congr hkept, hstep.intake, refusals_cons, List.foldl_append]
    · rw [hall.ctx c, hsame c]
      by_cases hpc : p.1 = c
      · subst hpc
        rw [hstep.self, Counters.refusing_add, List.filter_cons_of_pos (by simp), refusals_cons,
          List.length_append]
      · rw [hstep.others c (Ne.symm hpc), List.filter_cons_of_neg (by simpa using hpc)]
    · refine (hall.comp g fun q hq he => ?_).trans (hstep.comp g (hg p List.mem_cons_self))
      rw [(hkept q hq he).1]
      exact hg q (List.mem_cons_of_mem _ hq) he
    · rcases List.mem_cons.1 hq with rfl | hq
      · refine (hall.comp g fun r hr hre => ?_).trans (hstep.tail he g y hown hy ho)
        rw [(hkept r hr hre).1]
        intro hg
        obtain ⟨z, hz, hzq, -⟩ := tailOwner_some hown
        obtain ⟨w, hw, hwr, -⟩ := tailOwner_some hg
        cases hz.symm.trans hw
        exact (List.pairwise_cons.1 hl.2).1 r hr he hre (hzq.symm.trans hwr)
      · obtain ⟨howner, hcomp⟩ := hkept q hq he
        exact hall.tail q hq he g y (howner.trans hown) ((hcomp g hown).trans hy) ho

/-! ### What refusals leave, whatever the lists hold -/

/-- `t` comes from `s` by refusals: the lists, the claims, and the intake queue stand. -/
structure Refusing (s t : State) : Prop where
  changes : s.changesOnly t [.intake, .str, .plc]
  queue : t.intake.queue = s.intake.queue
  response : t.intake.response = s.intake.response
  claims : t.plc.claims = s.plc.claims
  ctx : ∀ c : Ctx, ∃ n, t.str.ctxs[c] = { s.str.ctxs[c] with counters := n }

namespace Refusing

theorem refl (s : State) : Refusing s s := ⟨.refl s _, rfl, rfl, rfl, fun _ => ⟨_, rfl⟩⟩

theorem trans {s t u : State} (h : Refusing s t) (g : Refusing t u) : Refusing s u where
  changes := h.changes.andThen g.changes (fun _ hb => hb) (fun _ hb => hb)
  queue := g.queue.trans h.queue
  response := g.response.trans h.response
  claims := g.claims.trans h.claims
  ctx := fun c => by
    obtain ⟨m, hm⟩ := h.ctx c
    obtain ⟨n, hn⟩ := g.ctx c
    exact ⟨n, by rw [hn, hm]⟩

theorem foldl {α : Type} (f : State → α → State) (h : ∀ s x, Refusing s (f s x)) (l : List α) (s : State) :
    Refusing s (l.foldl f s) := by
  induction l generalizing s with
  | nil => exact refl s
  | cons x l ih => exact (h s x).trans (ih _)

end Refusing

theorem refusing_onIntake (s : State) {f : Intake → Intake} (hq : (f s.intake).queue = s.intake.queue)
    (hr : (f s.intake).response = s.intake.response) : Refusing s (s.onIntake f) :=
  ⟨(onIntake_changes s f).mono (by simp), hq, hr, rfl, fun _ => ⟨_, rfl⟩⟩

theorem refusing_onPlc (s : State) {f : Placement → Placement} (h : (f s.plc).claims = s.plc.claims) :
    Refusing s (s.onPlc f) :=
  ⟨(onPlc_changes s f).mono (by simp), rfl, rfl, h, fun _ => ⟨_, rfl⟩⟩

theorem refusing_onCounters (s : State) (c : Ctx) (f : Counters → Counters) : Refusing s (s.onCounters c f) := by
  refine ⟨(onCounters_changes s c f).mono (by simp), rfl, rfl, rfl, fun b => ?_⟩
  rw [onCounters_get]
  split
  next hb =>
    subst hb
    exact ⟨_, rfl⟩
  · exact ⟨_, rfl⟩

theorem refusing_countResult (s : State) (c : Ctx) (st : Status) : Refusing s (s.countResult c st) := by
  unfold State.countResult State.countRefused
  split
  · exact refusing_onCounters s c _
  · exact refusing_onCounters s c _
  · exact Refusing.refl s

theorem refusing_tryAssemble (s : State) (g : DTag) : Refusing s (s.tryAssemble g) := by
  unfold State.tryAssemble
  split
  · exact Refusing.refl s
  · split
    · dsimp only
      split
      · exact ((refusing_countResult s _ _).trans (refusing_onIntake _ rfl rfl)).trans
          (refusing_onPlc _ (Placement.freeParts_claims _ _))
      · exact ((refusing_countResult s _ _).trans (refusing_onIntake _ rfl rfl)).trans (refusing_onPlc _ rfl)
    · exact Refusing.refl s

theorem refusing_refuseEntry (s : State) (c : Ctx) (why : Reason) (e : PendingEntry) :
    Refusing s (s.refuseEntry c why e) := by
  unfold State.refuseEntry
  split
  · unfold State.refuseTail
    split
    · exact Refusing.refl s
    · exact Refusing.trans (refusing_onPlc s (by rfl)) (refusing_tryAssemble _ _)
  · refine (refusing_onCounters s c _).trans (refusing_onIntake _ ?_ ?_) <;> split <;> rfl

theorem refusing_fold (s : State) (why : Reason) (l : List (Ctx × PendingEntry)) :
    Refusing s (l.foldl (fun t p => t.refuseEntry p.1 why p.2) s) :=
  Refusing.foldl _ (fun s p => refusing_refuseEntry s p.1 why p.2) l s

end Sys2Proof.Machine
end

