-- ==== Sys2Proof/Proofs/StreamPark.lean ====
section
/-! SUPPORT. PARK-STREAM (R31, R32): the list of a stream that parks, its slot, and the claims that name it
(R63). -/

namespace Sys2Proof.Machine

/-! ### A stream that no claim names (R63) -/

/-- The stream is neither WAITING nor BOUND, and no claim list entry names it. -/
def State.unnamed (s : State) (c : Ctx) : Prop :=
  s.str.ctxs[c].state ≠ .waiting ∧ s.str.ctxs[c].state ≠ .bound ∧ ∀ y ∈ s.plc.claims, y.claimant ≠ some c

theorem clearClaimant_named {b c : Ctx} {x : Context} {l : List ClaimEntry} (h : ∀ y ∈ l, y.claimant ≠ some c) :
    ∀ y ∈ clearClaimant b x l, y.claimant ≠ some c := by
  unfold clearClaimant
  split
  · exact h
  · intro y hy
    obtain ⟨z, hz, rfl⟩ := List.mem_map.1 hy
    split
    · exact nofun
    · exact h z hz

/-- R63: a stream that is not WAITING any more is named by no claim. -/
theorem onCtx_unnamed {s : State} {c : Ctx} {f : Context → Context} (h : (f s.str.ctxs[c]).state ≠ .waiting) :
    ∀ y ∈ (s.onCtx c f).plc.claims, y.claimant ≠ some c := by
  change ∀ y ∈ clearClaimant c (f s.str.ctxs[c]) s.plc.claims, _
  unfold clearClaimant
  rw [if_neg h]
  intro y hy
  obtain ⟨z, -, rfl⟩ := List.mem_map.1 hy
  split
  · exact nofun
  · assumption

theorem onCtx_named {s : State} {c : Ctx} (h : ∀ y ∈ s.plc.claims, y.claimant ≠ some c) (b : Ctx)
    (f : Context → Context) : ∀ y ∈ (s.onCtx b f).plc.claims, y.claimant ≠ some c :=
  clearClaimant_named h

theorem dropResident_plc (s : State) (k : Slot) (c : Ctx) : (s.dropResident k c).plc = s.plc :=
  (onExt_changes s k _).1 .plc (by simp)

theorem endResidency_named {s : State} {c : Ctx} (h : ∀ y ∈ s.plc.claims, y.claimant ≠ some c) (b : Ctx) :
    ∀ y ∈ (s.endResidency b).plc.claims, y.claimant ≠ some c := by
  unfold State.endResidency
  split
  · refine onCtx_named ?_ b _
    rw [dropResident_plc]
    exact h
  · exact h

theorem residents_named {s : State} {c : Ctx} (h : ∀ y ∈ s.plc.claims, y.claimant ≠ some c) (l : List Ctx) :
    ∀ y ∈ (l.foldl State.endResidency s).plc.claims, y.claimant ≠ some c := by
  induction l generalizing s with
  | nil => exact h
  | cons b l ih => exact ih (endResidency_named h b)

theorem decideShut_named {s : State} {c : Ctx} (h : ∀ y ∈ s.plc.claims, y.claimant ≠ some c) (k : Slot)
    (why : ShutCause) : ∀ y ∈ (s.decideShut k why).plc.claims, y.claimant ≠ some c := by
  unfold State.decideShut
  split
  · exact h
  · dsimp only
    split
    · exact h
    · split <;> exact residents_named (s := s.setExt k _) h _

theorem releaseSlot_named {s : State} {c : Ctx} (h : ∀ y ∈ s.plc.claims, y.claimant ≠ some c) (b : Ctx)
    (k : Option (Slot × Gen)) : ∀ y ∈ (s.releaseSlot b k).plc.claims, y.claimant ≠ some c := by
  have hdrop (j : Slot) : ∀ y ∈ (s.dropResident j b).plc.claims, y.claimant ≠ some c := by
    rw [dropResident_plc]
    exact h
  unfold State.releaseSlot State.leaveSlot
  dsimp only
  split
  · split
    · split
      · exact decideShut_named (hdrop _) _ _
      · exact hdrop _
    · exact hdrop _
  · exact h

theorem unnamed_of_claims {s t : State} {c : Ctx} (h : Polices s t) (hs : s.unnamed c)
    (hc : ∀ y ∈ t.plc.claims, y.claimant ≠ some c) : t.unnamed c := by
  obtain ⟨hw, hb, -⟩ := hs
  rw [State.unnamed, h.still c hw hb]
  exact ⟨hw, hb, hc⟩

theorem beginRecall_plc (s : State) : s.beginRecall.plc = s.plc := by
  unfold State.beginRecall
  split
  · rfl
  · split <;> rfl

/-- R57, R63: the policy names no stream that is not WAITING. -/
theorem unnamed_policy (c : Ctx) : PolicyKept fun s => s.unnamed c where
  grant := fun {s b j x} h hw hx _ => by
    refine unnamed_of_claims (polices_grant s b j hw) h ?_
    rw [grant_eq hx]
    exact onCtx_named (s := s.setExt j _) h.2.2 b _
  shut := fun {s} j why h => unnamed_of_claims (polices_decideShut s j why none) h (decideShut_named h.2.2 j why)
  claim := fun {s} kd b h hq hb => by
    refine unnamed_of_claims (polices_queueClaim s kd b hq) h ?_
    unfold State.queueClaim
    split
    · exact h.2.2
    · intro y hy
      rcases List.mem_append.1 hy with hy | hy
      · exact h.2.2 y hy
      · rw [List.mem_singleton.1 hy]
        exact fun hbc => h.1 (hb c hbc)
  recalls := fun {s} h hr => by
    refine unnamed_of_claims (polices_beginRecall s (recallNeeded_permission hr)) h ?_
    rw [beginRecall_plc]
    exact h.2.2

/-! ### A slot that has been left (R25, R74) -/

/-- What stands of a slot that a stream has left, behind changes in other blocks and policy work. -/
theorem leftSlot_later {s v w t : State} {c : Ctx} {cs : List ShutCause} (h : s.leftSlot v c) (hdir : w.dir = v.dir)
    (hbus : w.bus = v.bus) (hw : w.str.ctxs[c].state ≠ .waiting) (hb : w.str.ctxs[c].state ≠ .bound)
    (ht : Queues cs w t) : s.leftSlot t c := by
  intro k x hk hx
  obtain ⟨y, hy, hcy, hshut⟩ := h k x hk hx
  obtain ⟨z, hz, hyz⟩ := (ht.ext k).2 y (hdir ▸ hy)
  refine ⟨z, hz, fun hcz => ?_, fun hlast hkind hdue hclosing => ?_⟩
  · rcases ht.residents k z c hz hcz with ⟨y', hy', hc⟩ | hstate | hstate
    · rw [hdir, hy] at hy'
      cases hy'
      exact hcy hc
    · exact hw hstate
    · exact hb hstate
  · obtain ⟨hydue, hqueued⟩ := hshut hlast hkind hdue hclosing
    refine ⟨(hyz.due (by rw [hydue]; rfl)).1.trans hydue, fun hm => ?_⟩
    have hgained := hqueued hm
    rw [← hbus] at hgained
    exact hgained.then ht.behind

/-! ### The park (R31, R32) -/

/-- R31: the stream parked, all it had pending refused, its slot not yet released. -/
def State.parkRefused (s : State) (c : Ctx) : State :=
  (s.str.ctxs[c].pending.map fun e => (c, e)).foldl (fun t p => t.refuseEntry p.1 .parked p.2)
    (s.onCtx c Context.parking)

theorem park_eq (s : State) (c : Ctx) : s.park c = (s.parkRefused c).releaseSlot c s.str.ctxs[c].slot := by
  unfold State.park State.parkRefused
  dsimp only
  rw [List.foldl_map]

theorem refusing_park (s : State) (c : Ctx) : Refusing (s.onCtx c Context.parking) (s.parkRefused c) :=
  refusing_fold _ _ _

/-- R31: the context that parks. -/
theorem parkRefused_ctx (s : State) (c : Ctx) :
    ∃ n, (s.parkRefused c).str.ctxs[c] = { s.str.ctxs[c].parking with idle := none, counters := n } := by
  obtain ⟨n, hn⟩ := (refusing_park s c).ctx c
  refine ⟨n, ?_⟩
  rw [hn, (onCtx_get s c c _).trans (if_pos rfl)]
  have hquiet : s.str.ctxs[c].parking.quiet c = false := by
    unfold Context.quiet Context.parking
    dsimp only
    split <;> simp
  simp only [idleAfter, hquiet, Bool.false_eq_true, if_false]

theorem parkRefused_other (s : State) {b c : Ctx} (hb : b ≠ c) :
    (s.parkRefused c).str.ctxs[b].pending = s.str.ctxs[b].pending := by
  obtain ⟨n, hn⟩ := (refusing_park s c).ctx b
  rw [hn, (onCtx_get s c b _).trans (if_neg hb)]

theorem parkRefused_unnamed (s : State) (c : Ctx) : (s.parkRefused c).unnamed c := by
  obtain ⟨n, hn⟩ := parkRefused_ctx s c
  have hstate : (s.parkRefused c).str.ctxs[c].state = s.str.ctxs[c].parking.state := by rw [hn]
  have hno : s.str.ctxs[c].parking.state ≠ .waiting ∧ s.str.ctxs[c].parking.state ≠ .bound := by
    unfold Context.parking
    dsimp only
    split <;> exact ⟨nofun, nofun⟩
  refine ⟨hstate ▸ hno.1, hstate ▸ hno.2, ?_⟩
  rw [(refusing_park s c).claims]
  exact onCtx_unnamed hno.1

/-- R69, R70: the tails of one list. -/
theorem ownsTails_list {s : State} {c : Ctx} (h : s.tailHeld c) :
    s.ownsTails (s.str.ctxs[c].pending.map fun e => (c, e)) := by
  obtain ⟨hone, hown⟩ := h
  refine ⟨fun p hp he => ?_, ?_⟩
  · obtain ⟨e, hmem, rfl⟩ := List.mem_map.1 hp
    exact hown e hmem he
  · rw [List.pairwise_map]
    refine (List.pairwise_filter (p := fun e : PendingEntry => e.headExtent.isSome)).1 ?_
    generalize s.str.ctxs[c].pending.filter (·.headExtent.isSome) = l at hone
    match l, hone with
    | [], _ => exact List.Pairwise.nil
    | [_], _ => exact List.pairwise_singleton _ _

theorem refusals_list (s : State) (why : Reason) (c : Ctx) (l : List PendingEntry) :
    s.refusals why (l.map fun e => (c, e)) = l.filterMap (s.refusalOf why c) := by
  unfold State.refusals
  rw [List.filterMap_map]
  rfl

/-- R31, R34, R70: the results of a park, and what it counts. -/
theorem parkRefused_refuses {s : State} {c : Ctx} (h : s.tailHeld c) :
    s.intake.took (s.parkRefused c).intake (s.str.ctxs[c].pending.filterMap (s.refusalOf .parked c)) ∧
      s.tailRefused (s.parkRefused c) .parked c ∧
      (s.parkRefused c).str.ctxs[c].counters = s.str.ctxs[c].counters.refusing
        (s.str.ctxs[c].pending.filterMap (s.refusalOf .parked c)).length := by
  have htails : (s.onCtx c Context.parking).ownsTails (s.str.ctxs[c].pending.map fun e => (c, e)) := ownsTails_list h
  have hall := refusesAll_fold .parked htails
  have hsame (l : List PendingEntry) : (s.onCtx c Context.parking).refusals .parked (l.map fun e => (c, e)) =
      l.filterMap (s.refusalOf .parked c) := refusals_list s .parked c l
  have hfilter : (s.str.ctxs[c].pending.map fun e => (c, e)).filter (·.1 == c) =
      s.str.ctxs[c].pending.map fun e => (c, e) := by
    rw [List.filter_eq_self]
    intro p hp
    obtain ⟨e, -, rfl⟩ := List.mem_map.1 hp
    simp
  refine ⟨?_, fun e he hs g y hg hy ho => ?_, ?_⟩
  · have hintake : (s.parkRefused c).intake = _ := hall.intake
    rw [hintake, hsame]
    refine Intake.took_gained (i := s.intake) fun p hp => ?_
    obtain ⟨e, -, he⟩ := List.mem_filterMap.1 hp
    exact refusalOf_waits he
  · exact hall.tail (c, e) (List.mem_map.2 ⟨e, he, rfl⟩) hs g y hg hy ho
  · have hctx : (s.parkRefused c).str.ctxs[c] = _ := hall.ctx c
    rw [hctx, hfilter, hsame, (onCtx_get s c c _).trans (if_pos rfl)]
    rfl

/-! ### The command (R31, R32) -/

/-- What a state `v` behind a park keeps of it: all but what becomes of the context itself. -/
structure State.Parks (s v : State) (c : Ctx) : Prop where
  changes : s.changesOnly v (.intake :: policyBlocks)
  intake : v.intake = (s.parkRefused c).intake
  comp : v.plc.comp = (s.parkRefused c).plc.comp
  rep : v.dir.rep = s.dir.rep
  left : s.leftSlot v c
  unnamed : v.unnamed c
  others : ∀ b, b ≠ c → v.str.ctxs[b].pending = s.str.ctxs[b].pending

theorem parks_park (s : State) (c : Ctx) : s.Parks (s.park c) c := by
  have hunnamed := parkRefused_unnamed s c
  have href := refusing_park s c
  have hchanges := (onCtx_changes s c Context.parking).andThen href.changes (n := [.intake, .str, .plc])
    (by simp) (by simp)
  have hothers (b : Ctx) (hb : b ≠ c) := parkRefused_other s hb
  rw [park_eq]
  generalize hu : s.parkRefused c = u at *
  have hpol := polices_releaseSlot u c s.str.ctxs[c].slot
  have hdir : u.dir = s.dir := hchanges.1 .dir (by simp)
  have hmem : u.mem = s.mem := hchanges.1 .mem (by simp)
  exact {
    changes := hchanges.andThen hpol.changesOnly (by simp [policyBlocks]) fun _ h => List.mem_cons_of_mem _ h
    intake := hpol.intake.trans (by rw [hu])
    comp := hpol.comp.trans (by rw [hu])
    rep := hpol.rep.trans (congrArg Directory.rep hdir)
    left := leftSlot_released hdir (hchanges.1 .bus (by simp)) (congrArg Members.state hmem) hunnamed.1 hunnamed.2.1
      (Queues.refl [.full] _)
    unnamed := unnamed_of_claims hpol hunnamed (releaseSlot_named hunnamed.2.2 c _)
    others := fun b hb => (hpol.ctx b).pending.trans (hothers b hb) }

/-- R32: with nothing in flight the context is reinitialised at once. -/
theorem parks_parkedNow {s v : State} {c : Ctx} (h : s.Parks v c) : s.Parks (v.onCtx c Context.parkedNow) c := by
  have hself := (onCtx_get v c c Context.parkedNow).trans (if_pos rfl)
  have hstate : (v.onCtx c Context.parkedNow).str.ctxs[c].state = .parked := (congrArg Context.state hself :)
  have hw : (v.onCtx c Context.parkedNow).str.ctxs[c].state ≠ .waiting := by rw [hstate]; exact nofun
  have hb : (v.onCtx c Context.parkedNow).str.ctxs[c].state ≠ .bound := by rw [hstate]; exact nofun
  exact {
    changes := h.changes.andThen (onCtx_changes v c _) (fun _ hb => hb) (by simp [policyBlocks])
    intake := h.intake
    comp := h.comp
    rep := h.rep
    left := leftSlot_later (w := v.onCtx c Context.parkedNow) h.left rfl rfl hw hb (Queues.refl [.full] _)
    unnamed := ⟨hw, hb, onCtx_unnamed nofun⟩
    others := fun b hb => by
      rw [(onCtx_get v c b _).trans (if_neg hb)]
      exact h.others b hb }

theorem parks_policyPass {s v : State} {c : Ctx} (h : s.Parks v c) : s.Parks v.policyPass c where
  changes := h.changes.andThen (polices_policyPass v).changesOnly (fun _ hb => hb) fun _ hb => List.mem_cons_of_mem _ hb
  intake := (polices_policyPass v).intake.trans h.intake
  comp := (polices_policyPass v).comp.trans h.comp
  rep := (polices_policyPass v).rep.trans h.rep
  left := leftSlot_later h.left rfl rfl h.unnamed.1 h.unnamed.2.1 (queues_policyPass v [] (cs := [.full]) (by simp))
  unnamed := (unnamed_policy c).policyPass h.unnamed []
  others := fun b hb => ((polices_policyPass v).ctx b).pending.trans (h.others b hb)

theorem policyPass_unnamed {v : State} {c : Ctx} (h : v.unnamed c) : v.policyPass.str.ctxs[c] = v.str.ctxs[c] :=
  (polices_policyPass v).still c h.1 h.2.1

/-- R31: the context of a stream that has parked, but for its counters. -/
theorem park_ctx (s : State) (c : Ctx) :
    ∃ n, (s.park c).str.ctxs[c] = { s.str.ctxs[c].parking with idle := none, counters := n } ∧
      n = (s.parkRefused c).str.ctxs[c].counters := by
  obtain ⟨n, hn⟩ := parkRefused_ctx s c
  have hunnamed := parkRefused_unnamed s c
  refine ⟨n, ?_, by rw [hn]⟩
  rw [park_eq, (polices_releaseSlot _ c _).still c hunnamed.1 hunnamed.2.1, hn]

/-- What the answer to a park leaves of it. -/
theorem parked_answered {s v : State} {c : Ctx} (h : s.Parks v c) (st : RespStatus) (content : List Byte) :
    (∀ l, l = s.str.ctxs[c].pending.filterMap (s.refusalOf .parked c) → s.tailHeld c →
        s.intake.took (v.respond 4 st content).settled.intake l ∧
          s.tailRefused (v.respond 4 st content).settled .parked c) ∧
      (v.respond 4 st content).settled.intake.response = some { code := 4, status := st, content := content } ∧
      (v.respond 4 st content).settled.intake.queue = s.intake.queue ∧
      s.frame (v.respond 4 st content).settled (.intake :: policyBlocks) := by
  refine ⟨fun l hl htail => ?_, settled_response _, ?_, ?_⟩
  · obtain ⟨htook, hmarked, -⟩ := parkRefused_refuses htail
    rw [hl]
    refine ⟨Intake.took_settled ?_, fun e he hs g y hg hy ho => ?_⟩
    · rw [← h.intake] at htook
      exact htook
    · rw [settled_plc]
      change v.plc.comp[g] = _
      rw [h.comp]
      exact hmarked e he hs g y hg hy ho
  · rw [settled_queue]
    change v.intake.queue = _
    rw [h.intake]
    exact (refusing_park s c).queue
  · exact frame_listed (h.changes.andThen (respond_changes v 4 st content) (fun _ hb => hb) (by simp)) (by simp)

theorem parkable_iff (x : CtxState) : x.parkable = true ↔ x = .idle ∨ x = .waiting ∨ x = .bound := by
  cases x <;> simp [CtxState.parkable]

theorem not_parkable_iff (x : CtxState) : x.parkable = false ↔ x = .unassigned ∨ x = .draining ∨ x = .parked := by
  cases x <;> simp [CtxState.parkable]

theorem actParkStream_parkable {s : State} {c : Ctx} (hc : c ≠ 0) (hp : s.str.ctxs[c].state.parkable = true) :
    State.actParkStream [BitVec.ofNat 8 c.val] s =
      if s.str.ctxs[c].inFlight = 0 then
        ((s.park c).onCtx c Context.parkedNow).policyPass.respond 4 .done ((s.park c).parkContent c)
      else (s.park c).policyPass.respond 4 .accepted := by
  unfold State.actParkStream
  rw [keyedCtxOf_index hc]
  dsimp only
  rw [if_pos hp]

/-- Settles O25: PARK-STREAM by its answers. -/
theorem streamParked : Obligations.StreamParked := by
  intro c s hs
  refine ⟨fun hc hstate => ?_, fun hc hstate => ?_, fun b hb => ?_⟩
  · have hx : exec (.parkStream [BitVec.ofNat 8 c.val]) s =
        .next (State.actParkStream [BitVec.ofNat 8 c.val] s).settled := control_next _ hs rfl
    rw [actParkStream_parkable hc ((parkable_iff _).2 hstate)] at hx
    obtain ⟨n, hctx, hn⟩ := park_ctx s c
    have hparks := parks_park s c
    by_cases hfl : s.str.ctxs[c].inFlight = 0
    · rw [if_pos hfl] at hx
      have hv := parks_policyPass (parks_parkedNow hparks)
      obtain ⟨hrefused, hresp, hqueue, hframe⟩ := parked_answered hv .done ((s.park c).parkContent c)
      refine ⟨_, hx, fun l hl htail m hm => ?_, fun _ => ?_, fun h => absurd hfl h, hv.left, hv.unnamed.2.2,
        hv.others, hqueue, hv.rep, hframe⟩
      · obtain ⟨htook, hmarked⟩ := hrefused l hl htail
        refine ⟨htook, hmarked, fun _ => hresp.trans ?_, fun h => absurd hfl h⟩
        have hcount : (s.park c).str.ctxs[c].counters = m := by
          rw [hm, hl, ← (parkRefused_refuses htail).2.2, hctx]
          exact hn
        unfold State.parkContent
        rw [hcount]
        rfl
      · refine (policyPass_unnamed (parks_parkedNow hparks).unnamed).trans ?_
        refine (onCtx_get _ c c _).trans ((if_pos rfl).trans ?_)
        rw [hctx]
        simp [Context.parkedNow, Context.parking, idleAfter, Context.quiet, Context.unassigned]
    · rw [if_neg hfl] at hx
      have hv := parks_policyPass hparks
      obtain ⟨hrefused, hresp, hqueue, hframe⟩ := parked_answered hv .accepted []
      have hkept := (policyPass_unnamed hparks.unnamed).trans hctx
      refine ⟨_, hx, fun l hl htail m hm => ?_, fun h => absurd h hfl, fun _ => ⟨hresp, ?_⟩, hv.left,
        hv.unnamed.2.2, hv.others, hqueue, hv.rep, hframe⟩
      · obtain ⟨htook, hmarked⟩ := hrefused l hl htail
        refine ⟨htook, hmarked, fun h => absurd h hfl, fun _ => ?_⟩
        refine (congrArg Context.counters hkept).trans ?_
        rw [hm, hl, ← (parkRefused_refuses htail).2.2]
        exact hn
      · rw [settled_str, show ((s.park c).policyPass.respond 4 .accepted).str.ctxs[c] = _ from hkept]
        exact ⟨if_neg hfl, rfl, rfl, rfl, rfl, rfl, rfl⟩
  · exact control_answers hs rfl (by
      unfold State.actParkStream
      rw [keyedCtxOf_index hc]
      exact if_neg (by rw [(not_parkable_iff _).2 hstate]; decide))
  · exact control_answers hs rfl (by
      unfold State.actParkStream
      rw [keyedCtxOf_outside hb]
      rfl)

end Sys2Proof.Machine
end

