-- ==== Sys2Proof/Proofs/DepartureRefusals.lean ====
section
/-! SUPPORT. DEPART (R35, R174): every pending descriptor refused in the order of acceptance, the claims and
the recall ended, and the holdings shut. -/

namespace Sys2Proof.Machine

/-! ### Every pending entry, oldest first (R7, R35) -/

/-- The age of an entry, within a window of half the acceptance numbers. -/
def PendingEntry.age (e : PendingEntry) (base : BitVec 16) : Nat := (e.acc - base).toNat

theorem insertEntry_perm (x : Ctx × PendingEntry) (l : List (Ctx × PendingEntry)) :
    (insertEntry x l).Perm (x :: l) := by
  induction l with
  | nil => exact List.Perm.refl _
  | cons y l ih =>
    unfold insertEntry
    split
    · exact List.Perm.refl _
    · exact (List.Perm.cons y ih).trans (List.Perm.swap x y l)

/-- R35: an entry inserted by its age leaves the order ascending. -/
theorem insertEntry_ascends {base : BitVec 16} {x : Ctx × PendingEntry} {l : List (Ctx × PendingEntry)}
    (hx : x.2.age base < 32768) (hl : ∀ y ∈ l, y.2.age base < 32768)
    (h : l.Pairwise fun p q => p.2.age base ≤ q.2.age base) :
    (insertEntry x l).Pairwise fun p q => p.2.age base ≤ q.2.age base := by
  induction l with
  | nil => exact List.pairwise_singleton _ _
  | cons y l ih =>
    obtain ⟨hy, hrest⟩ := List.pairwise_cons.1 h
    have hyw := hl y List.mem_cons_self
    unfold insertEntry
    split
    next ho =>
      have hlt : x.2.age base < y.2.age base := (older_iff hx hyw).1 ho
      refine List.pairwise_cons.2 ⟨fun z hz => ?_, h⟩
      rcases List.mem_cons.1 hz with rfl | hz
      · exact hlt.le
      · exact hlt.le.trans (hy z hz)
    next ho =>
      have hle : y.2.age base ≤ x.2.age base := by
        by_contra hn
        exact ho ((older_iff hx hyw).2 (Nat.lt_of_not_le hn))
      refine List.pairwise_cons.2 ⟨fun z hz => ?_, ih (fun z hz => hl z (List.mem_cons_of_mem _ hz)) hrest⟩
      rcases List.mem_cons.1 ((insertEntry_perm x l).mem_iff.1 hz) with rfl | hz
      · exact hle
      · exact hy z hz

theorem entryOrder_perm (l m : List (Ctx × PendingEntry)) :
    (l.foldl (fun l x => insertEntry x l) m).Perm (l ++ m) := by
  induction l generalizing m with
  | nil => exact List.Perm.refl _
  | cons x l ih =>
    exact (ih _).trans (((insertEntry_perm x m).append_left l).trans List.perm_middle)

theorem entryOrder_ascends {base : BitVec 16} {l m : List (Ctx × PendingEntry)}
    (hl : ∀ x ∈ l, x.2.age base < 32768) (hm : ∀ x ∈ m, x.2.age base < 32768)
    (h : m.Pairwise fun p q => p.2.age base ≤ q.2.age base) :
    (l.foldl (fun l x => insertEntry x l) m).Pairwise fun p q => p.2.age base ≤ q.2.age base := by
  induction l generalizing m with
  | nil => exact h
  | cons x l ih =>
    refine ih (fun y hy => hl y (List.mem_cons_of_mem _ hy)) (fun y hy => ?_)
      (insertEntry_ascends (hl x List.mem_cons_self) hm h)
    rcases List.mem_cons.1 ((insertEntry_perm x m).mem_iff.1 hy) with rfl | hy
    · exact hl y List.mem_cons_self
    · exact hm y hy

/-- Every pending entry with its context. -/
def Streams.entries (t : Streams) : List (Ctx × PendingEntry) :=
  allCtxs.flatMap fun c => t.ctxs[c].pending.map fun e => (c, e)

theorem mem_entries {t : Streams} {p : Ctx × PendingEntry} : p ∈ t.entries ↔ p.2 ∈ t.ctxs[p.1].pending := by
  unfold Streams.entries
  rw [List.mem_flatMap]
  constructor
  · rintro ⟨c, -, hc⟩
    obtain ⟨e, he, rfl⟩ := List.mem_map.1 hc
    exact he
  · intro h
    exact ⟨p.1, List.mem_finRange _, List.mem_map.2 ⟨p.2, h, rfl⟩⟩

theorem allPending_perm (t : Streams) : t.allPending.Perm t.entries := by
  have h := entryOrder_perm t.entries []
  rwa [List.append_nil] at h

theorem allPending_ascends {t : Streams} {base : BitVec 16}
    (h : ∀ (c : Ctx), ∀ e ∈ t.ctxs[c].pending, (e.acc - base).toNat < 32768) :
    t.allPending.Pairwise fun p q => (p.2.acc - base).toNat ≤ (q.2.acc - base).toNat :=
  entryOrder_ascends (fun x hx => h x.1 x.2 (mem_entries.1 hx)) (by simp) List.Pairwise.nil

theorem flatMap_single {α β : Type} {l : List α} (hl : l.Nodup) {c : α} (hc : c ∈ l) {f : α → List β}
    (h : ∀ b, b ≠ c → f b = []) : l.flatMap f = f c := by
  induction l with
  | nil => cases hc
  | cons b l ih =>
    obtain ⟨hb, hrest⟩ := List.nodup_cons.1 hl
    rw [List.flatMap_cons]
    rcases List.mem_cons.1 hc with rfl | hcl
    · have hnil : l.flatMap f = [] :=
        List.flatMap_eq_nil_iff.2 fun a ha => h a fun hac => hb (hac ▸ ha)
      rw [hnil, List.append_nil]
    · rw [h b fun hbc => hb (hbc ▸ hcl), ih hrest hcl]
      rfl

/-- The entries of one context. -/
theorem entries_filter (t : Streams) (c : Ctx) :
    t.entries.filter (·.1 == c) = t.ctxs[c].pending.map fun e => (c, e) := by
  unfold Streams.entries allCtxs
  rw [List.filter_flatMap, flatMap_single (List.nodup_finRange 64) (List.mem_finRange c)]
  · rw [List.filter_eq_self]
    intro p hp
    obtain ⟨e, -, rfl⟩ := List.mem_map.1 hp
    simp
  · intro b hb
    rw [List.filter_eq_nil_iff]
    intro p hp
    obtain ⟨e, -, rfl⟩ := List.mem_map.1 hp
    simpa using hb

/-- R69, R70: the tails of all lists, one for a stream. -/
theorem ownsTails_all {s : State} (h : ∀ c, s.tailHeld c) : s.ownsTails s.str.allPending := by
  refine ⟨fun p hp he => ?_, ?_⟩
  · exact (h p.1).2 p.2 (mem_entries.1 ((allPending_perm s.str).mem_iff.1 hp)) he
  · refine ((allPending_perm s.str).pairwise_iff fun {p q} hpq hp hq => (hpq hq hp).symm).2 ?_
    unfold Streams.entries
    refine List.pairwise_flatMap.2 ⟨fun c _ => (ownsTails_list (h c)).2, ?_⟩
    refine (List.nodup_finRange 64).imp fun {a b} hab p hp q hq _ _ => ?_
    obtain ⟨e, -, rfl⟩ := List.mem_map.1 hp
    obtain ⟨f, -, rfl⟩ := List.mem_map.1 hq
    exact hab

/-! ### Every list emptied (R35) -/

theorem emptied_fold (l : List Ctx) (s : State) (c : Ctx) :
    let t := l.foldl (fun t c => t.onCtx c fun x => x.withPending []) s
    t.str.ctxs[c].counters = s.str.ctxs[c].counters ∧
      (c ∈ l ∨ s.str.ctxs[c].pending = [] ∧ s.str.ctxs[c].state ≠ .waiting →
        t.str.ctxs[c].pending = [] ∧ t.str.ctxs[c].state ≠ .waiting) := by
  induction l generalizing s with
  | nil => exact ⟨rfl, fun h => h.resolve_left (by simp)⟩
  | cons b l ih =>
    obtain ⟨hcount, hempty⟩ := ih (s.onCtx b fun x => x.withPending [])
    rw [List.foldl_cons]
    have hget := onCtx_get s b c fun x => x.withPending []
    refine ⟨hcount.trans ?_, fun h => hempty ?_⟩
    · rw [hget]
      split
      next hcb => rw [hcb]; rfl
      · rfl
    · by_cases hcb : c = b
      · subst hcb
        refine .inr ?_
        rw [hget, if_pos rfl]
        refine ⟨rfl, ?_⟩
        unfold Context.withPending
        dsimp only
        split
        · exact nofun
        next hn => exact fun hw => hn ⟨hw, rfl⟩
      · rw [hget, if_neg hcb]
        exact h.imp (fun hc => (List.mem_cons.1 hc).resolve_left hcb) id

theorem emptyLists_ctx (s : State) (c : Ctx) :
    s.emptyLists.str.ctxs[c].counters = s.str.ctxs[c].counters ∧ s.emptyLists.str.ctxs[c].pending = [] ∧
      s.emptyLists.str.ctxs[c].state ≠ .waiting := by
  have hmem : c ∈ allCtxs := List.mem_finRange c
  unfold State.emptyLists
  generalize allCtxs = l at *
  obtain ⟨hcount, hempty⟩ := emptied_fold l s c
  exact ⟨hcount, hempty (.inl hmem)⟩

theorem emptyLists_changes (s : State) : s.changesOnly s.emptyLists [.str, .plc] :=
  State.changesOnly.foldl _ (fun s c => onCtx_changes s c _) allCtxs s

theorem emptyLists_comp (s : State) : s.emptyLists.plc.comp = s.plc.comp := by
  unfold State.emptyLists
  generalize allCtxs = l
  induction l generalizing s with
  | nil => rfl
  | cons c l ih => exact ih _

/-! ### Every pending descriptor refused (R35, R174) -/

theorem refusing_all (s : State) : Refusing s.emptyLists s.refuseAll := refusing_fold _ _ _

theorem refuseAll_ctx (s : State) (c : Ctx) :
    s.refuseAll.str.ctxs[c].pending = [] ∧ s.refuseAll.str.ctxs[c].state ≠ .waiting := by
  have hrefusing := refusing_all s
  have hempty := emptyLists_ctx s c
  generalize s.emptyLists = u at *
  generalize s.refuseAll = v at *
  obtain ⟨n, hn⟩ := hrefusing.ctx c
  rw [hn]
  exact hempty.2

theorem refuseAll_changes (s : State) : s.changesOnly s.refuseAll [.intake, .str, .plc] :=
  (emptyLists_changes s).andThen (refusing_all s).changes (by simp) (by simp)

theorem refuseAll_intake (s : State) : s.refuseAll.intake.queue = s.intake.queue ∧
    s.refuseAll.intake.response = s.intake.response := by
  have hintake : s.emptyLists.intake = s.intake := (emptyLists_changes s).1 .intake (by simp)
  exact ⟨(refusing_all s).queue.trans (by rw [hintake]), (refusing_all s).response.trans (by rw [hintake])⟩

/-- R34, R35, R70: the results of a departure, and what they count. -/
theorem refuseAll_refuses {s : State} (h : ∀ c, s.tailHeld c) :
    s.intake.took s.refuseAll.intake (s.str.allPending.filterMap fun p => s.refusalOf .notMember p.1 p.2) ∧
      ∀ c : Ctx, s.tailRefused s.refuseAll .notMember c ∧
        s.refuseAll.str.ctxs[c].counters = s.str.ctxs[c].counters.refusing
          (s.str.ctxs[c].pending.filterMap (s.refusalOf .notMember c)).length := by
  have hcomp (g : DTag) : s.emptyLists.plc.comp[g] = s.plc.comp[g] := by rw [emptyLists_comp]
  have howner (c : Ctx) : s.emptyLists.plc.tailOwner c = s.plc.tailOwner c :=
    tailOwner_congr fun g => .inl (hcomp g)
  have htails : s.emptyLists.ownsTails s.str.allPending := by
    obtain ⟨hown, hone⟩ := ownsTails_all h
    refine ⟨fun p hp he => ?_, hone⟩
    obtain ⟨g, y, hg, hy, hkeep⟩ := hown p hp he
    exact ⟨g, y, (howner p.1).trans hg, (hcomp g).trans hy, hkeep⟩
  have hsame (l : List (Ctx × PendingEntry)) : s.emptyLists.refusals .notMember l = s.refusals .notMember l :=
    refusals_congr fun q _ _ => ⟨howner q.1, fun g _ => hcomp g⟩
  have hall : RefusesAll .notMember s.emptyLists s.refuseAll s.str.allPending := refusesAll_fold .notMember htails
  refine ⟨?_, fun c => ⟨fun e he hs g y hg hy ho => ?_, ?_⟩⟩
  · rw [hall.intake, hsame, (emptyLists_changes s).1 .intake (by simp)]
    exact Intake.took_gained fun p hp => refusals_wait hp
  · refine hall.tail (c, e) ?_ hs g y ((howner c).trans hg) ((hcomp g).trans hy) ho
    exact (allPending_perm s.str).mem_iff.2 (mem_entries.2 he)
  · have hlen : (s.refusals .notMember (s.str.allPending.filter (·.1 == c))).length =
        (s.str.ctxs[c].pending.filterMap (s.refusalOf .notMember c)).length := by
      rw [← refusals_list, ← entries_filter]
      exact (((allPending_perm s.str).filter _).filterMap _).length_eq
    rw [hall.ctx c, hsame, hlen]
    exact congrArg (fun n : Counters => n.refusing _) (emptyLists_ctx s c).1

end Sys2Proof.Machine
end

