-- ==== Sys2Proof/Proofs/Departure.lean ====
section
/-! SUPPORT. DEPART (R141, R174): the claims and the recall that end, the holdings shut LEAVING, and the answer. -/

namespace Sys2Proof.Machine

/-! ### Streams with nothing pending (R25) -/

/-- No stream has anything pending or waits. -/
def State.listless (s : State) : Prop := ∀ c : Ctx, s.str.ctxs[c].pending = [] ∧ s.str.ctxs[c].state ≠ .waiting

theorem listless_endResidency {s : State} (h : s.listless) (b : Ctx) : (s.endResidency b).listless := by
  intro c
  obtain ⟨hpend, hstate⟩ := h c
  unfold State.endResidency
  split
  next j _ _ _ =>
    have hstr := s.dropResident_str j b
    generalize s.dropResident j b = u at *
    rw [onCtx_get, hstr]
    split
    next hcb =>
      subst hcb
      refine ⟨hpend, ?_⟩
      unfold Context.afterResidency
      rw [hpend]
      exact nofun
    · exact ⟨hpend, hstate⟩
  · exact ⟨hpend, hstate⟩

theorem listless_residents {s : State} (h : s.listless) (l : List Ctx) : (l.foldl State.endResidency s).listless := by
  induction l generalizing s with
  | nil => exact h
  | cons b l ih => exact ih (listless_endResidency h b)

theorem listless_decideShut {s : State} (h : s.listless) (k : Slot) (why : ShutCause) :
    (s.decideShut k why).listless := by
  unfold State.decideShut
  split
  · exact h
  · dsimp only
    split
    · exact h
    · split <;> exact listless_residents (s := s.setExt k _) h _

/-! ### A shut of one slot leaves the others (R72) -/

theorem dropResident_due (s : State) (k j : Slot) (b : Ctx) :
    ((s.dropResident k b).dir.ext[j]).map Ext.shutDue = (s.dir.ext[j]).map Ext.shutDue := by
  unfold State.dropResident
  rw [onExt_get]
  split
  next hj =>
    rw [hj, Option.map_map]
    rfl
  · rfl

theorem endResidency_due (s : State) (b : Ctx) (j : Slot) :
    ((s.endResidency b).dir.ext[j]).map Ext.shutDue = (s.dir.ext[j]).map Ext.shutDue := by
  unfold State.endResidency
  split
  · exact dropResident_due s _ j b
  · rfl

theorem residents_due (s : State) (l : List Ctx) (j : Slot) :
    ((l.foldl State.endResidency s).dir.ext[j]).map Ext.shutDue = (s.dir.ext[j]).map Ext.shutDue := by
  induction l generalizing s with
  | nil => rfl
  | cons b l ih => exact (ih _).trans (endResidency_due s b j)

theorem decideShut_due_other (s : State) {k j : Slot} (hj : j ≠ k) (why : ShutCause) :
    ((s.decideShut k why).dir.ext[j]).map Ext.shutDue = (s.dir.ext[j]).map Ext.shutDue := by
  have hset (x : Option Ext) (l : List Ctx) :
      ((l.foldl State.endResidency (s.setExt k x)).dir.ext[j]).map Ext.shutDue = (s.dir.ext[j]).map Ext.shutDue := by
    rw [residents_due, setExt_get, if_neg hj]
  unfold State.decideShut
  split
  · rfl
  · dsimp only
    split
    · rfl
    · split <;> exact hset _ _

/-- R72: shuts decided for some slots, of one cause. -/
def State.shutEach (s : State) (l : List Slot) (why : ShutCause) : State := l.foldl (fun t k => t.decideShut k why) s

theorem queues_shutEach (s : State) (l : List Slot) (why : ShutCause) : Queues [why] s (s.shutEach l why) :=
  Queues.foldl _ (fun s k => queues_decideShut s k none (by simp)) l s

theorem gainedFirst_carries {b b' : Bus} {x : Body} (h : b.gainedFirst b' { dest := none, body := x }) :
    b'.carries x := by
  obtain ⟨l, hl⟩ := h
  unfold Bus.carries
  rw [hl]
  simp

/-- R72, R174: each holding without a shut is shut, and its SHUT queued in MEMBER. -/
theorem shutEach_stands {s : State} {l : List Slot} {k : Slot} {x : Ext} {why : ShutCause} (hk : k ∈ l)
    (hwhy : why ≠ .recalled) (hm : s.mem.state = .member) (hx : s.dir.ext[k] = some x) (hd : x.shutDue = none)
    (ha : s.shutApplied k = false) :
    (∃ y, (s.shutEach l why).dir.ext[k] = some y ∧ y.shutDue = some why) ∧
      (s.shutEach l why).bus.carries (.shut k why none) := by
  induction l generalizing s x with
  | nil => cases hk
  | cons j l ih =>
    by_cases hkj : k = j
    · subst hkj
      obtain ⟨⟨y, hy, hdue, -⟩, hqueued⟩ := decideShut_stands hx hd ha (queues_shutEach (s.decideShut k why) l why)
      refine ⟨⟨y, hy, hdue⟩, gainedFirst_carries (b := s.bus) ?_⟩
      have hbody : shutBody k (x.shutFor why none) why = .shut k why none := by
        unfold shutBody
        rw [if_neg hwhy]
      rw [← hbody]
      exact hqueued hm
    · have hpol := polices_decideShut s j why none
      have hdue := decideShut_due_other s hkj why
      rw [hx, Option.map_some, hd, Option.map_eq_some_iff] at hdue
      obtain ⟨y, hy, hyd⟩ := hdue
      exact ih ((List.mem_cons.1 hk).resolve_left hkj) (hpol.mem ▸ hm) hy hyd ((hpol.shutApplied k).trans ha)

theorem listless_shutEach {s : State} (h : s.listless) (l : List Slot) (why : ShutCause) :
    (s.shutEach l why).listless := by
  induction l generalizing s with
  | nil => exact h
  | cons k l ih => exact ih (listless_decideShut h k why)

/-- R174: of a departing station, policy work queues shuts alone. -/
theorem queues_waiting {s t : State} {cs : List ShutCause} (h : Queues cs s t) (hd : s.recallPermission = false)
    {q : QFrame} (hq : q ∈ t.bus.waiting) : q ∈ s.bus.waiting ∨ q.body.kind = .shut := by
  obtain ⟨l, m, htx, hheld, hall⟩ := h.frames
  have hmem : q ∈ s.bus.waiting ∨ q ∈ l ∨ q ∈ m := by
    unfold Bus.waiting at *
    rw [h.sending, htx, hheld] at hq
    grind
  refine hmem.imp id fun hnew => ?_
  have hwork := (hall q hnew).2
  generalize q.body = b at hwork
  refine ?body
  cases b
  case body.shut k c a => rfl
  case body.claim k kd =>
    have hp := hwork.1
    rw [hd] at hp
    cases hp
  case body.recall tag r g =>
    have hp := hwork.1
    rw [hd] at hp
    cases hp
  all_goals exact hwork.elim

/-! ### The recall ended (R174) -/

theorem endRecall_cases (s : State) :
    s.endRecall = s ∧ (∀ e, s.dir.request ≠ some (.recall e)) ∨
      s.endRecall = (s.withdraw Body.isRecall).onDir fun d => { d with request := none } := by
  unfold State.endRecall
  split
  · exact .inr rfl
  next hn => exact .inl ⟨rfl, hn⟩

theorem endRecall_changes (s : State) : s.changesOnly s.endRecall [.dir, .bus] := by
  rcases endRecall_cases s with ⟨h, -⟩ | h <;> rw [h]
  · exact .refl s _
  · exact (withdraw_changes s _).andThen (onDir_changes _ _) (by simp) (by simp)

theorem endRecall_dir (s : State) : s.endRecall.dir.rep = s.dir.rep ∧ s.endRecall.dir.ext = s.dir.ext ∧
    ∀ e, s.endRecall.dir.request ≠ some (.recall e) := by
  rcases endRecall_cases s with ⟨h, hno⟩ | h <;> rw [h]
  · exact ⟨rfl, rfl, hno⟩
  · exact ⟨rfl, rfl, nofun⟩

theorem endRecall_waiting {s : State} {q : QFrame} (h : q ∈ s.endRecall.bus.waiting) :
    q ∈ s.bus.waiting ∧ ((∃ e, s.dir.request = some (.recall e)) → q.body.kind ≠ .recall) := by
  rcases endRecall_cases s with ⟨he, hno⟩ | he <;> rw [he] at h
  · exact ⟨h, fun ⟨e, hr⟩ => absurd hr (hno e)⟩
  · obtain ⟨hw, hp⟩ := withdraw_waiting (s := s) h
    refine ⟨hw, fun _ => ?_⟩
    generalize q.body = b at hp
    cases b <;> simp_all [Body.isRecall, Body.kind]

/-! ### The departure (R35, R141, R174) -/

/-- R174: the mark set, the lists refused, the claims and the recall ended; no shut decided yet. -/
def State.departed (s : State) : State :=
  (s.onMem fun m => { m with departing := true }).refuseAll.dropClaims.endRecall

theorem depart_eq (s : State) :
    s.depart = ((s.departed.shutEach allSlots .leaving).policyPass).queueLeave := rfl

/-- R174: the lists of a station that departs refused. -/
def State.departRefused (s : State) : State := (s.onMem fun m => { m with departing := true }).refuseAll

/-- What a state `v` behind a departure has of it. -/
structure State.Departs (s v : State) : Prop where
  changes : s.changesOnly v (.intake :: .mem :: policyBlocks)
  intake : v.intake = s.departRefused.intake
  comp : v.plc.comp = s.departRefused.plc.comp
  counters : ∀ c : Ctx, v.str.ctxs[c].counters = s.departRefused.str.ctxs[c].counters
  listless : v.listless
  mem : v.mem = { s.mem with departing := true }
  rep : v.dir.rep = s.dir.rep
  claims : ∀ e ∈ v.plc.claims, e.phase ≠ .queued
  request : ∀ e, v.dir.request ≠ some (.recall e)
  frames : ∀ q ∈ v.bus.waiting, q.body.kind ≠ .claim ∧
    ((∃ e, s.dir.request = some (.recall e)) → q.body.kind ≠ .recall)

theorem departs_departed (s : State) : s.Departs s.departed ∧ s.departed.dir.ext = s.dir.ext := by
  have hchanges := (onMem_changes s fun m => { m with departing := true }).andThen (refuseAll_changes _)
    (n := [.intake, .str, .plc, .mem]) (by simp) (by simp)
  have hmem : s.departRefused.mem = { s.mem with departing := true } :=
    (refuseAll_changes (s.onMem fun m => { m with departing := true })).1 .mem (by simp)
  have hctx := refuseAll_ctx (s.onMem fun m => { m with departing := true })
  have hd : s.departed = s.departRefused.dropClaims.endRecall := rfl
  rw [hd]
  change s.changesOnly s.departRefused _ at hchanges
  change ∀ c : Ctx, s.departRefused.str.ctxs[c].pending = [] ∧ s.departRefused.str.ctxs[c].state ≠ .waiting at hctx
  generalize hu : s.departRefused = u at *
  have hdrop := dropClaims_changes u
  have hclaims := dropClaims_claims u
  have hwait (q : QFrame) (h : q ∈ u.dropClaims.bus.waiting) := dropClaims_waiting h
  have hcomp : u.dropClaims.plc.comp = u.plc.comp := rfl
  generalize u.dropClaims = v at *
  have hend := endRecall_changes v
  obtain ⟨hrep, hext, hno⟩ := endRecall_dir v
  have hplc : v.endRecall.plc = v.plc := hend.1 .plc (by simp)
  have hdir : v.dir = s.dir := (hdrop.1 .dir (by simp)).trans (hchanges.1 .dir (by simp))
  have hstr : v.endRecall.str = u.str := (hend.1 .str (by simp)).trans (hdrop.1 .str (by simp))
  refine ⟨{
    changes := (hchanges.andThen hdrop (n := [.intake, .str, .plc, .mem, .bus]) (by simp) (by simp)).andThen hend
      (by simp [policyBlocks]) (by simp [policyBlocks])
    intake := ((hend.1 .intake (by simp)).trans (hdrop.1 .intake (by simp))).trans (by rw [hu])
    comp := by rw [hplc, hcomp, hu]
    counters := fun c => by rw [hstr, hu]
    listless := fun c => by rw [hstr]; exact hctx c
    mem := ((hend.1 .mem (by simp)).trans (hdrop.1 .mem (by simp))).trans hmem
    rep := by rw [hrep, hdir]
    claims := fun e he => by
      rw [hplc, hclaims] at he
      simpa using (List.mem_filter.1 he).2
    request := hno
    frames := fun q hq => ?_ }, by rw [hext, hdir]⟩
  obtain ⟨hq, hrecall⟩ := endRecall_waiting hq
  rw [hdir] at hrecall
  exact ⟨hwait q hq, hrecall⟩

theorem departs_shutEach {s v : State} (h : s.Departs v) (l : List Slot) : s.Departs (v.shutEach l .leaving) := by
  have hq := queues_shutEach v l .leaving
  have hlist := listless_shutEach h.listless l .leaving
  have hperm : v.recallPermission = false := by
    unfold State.recallPermission
    rw [h.mem]
    simp
  generalize v.shutEach l .leaving = w at *
  exact {
    changes := h.changes.andThen hq.toPolices.changesOnly (fun _ hb => hb)
      fun _ hb => List.mem_cons_of_mem _ (List.mem_cons_of_mem _ hb)
    intake := hq.intake.trans h.intake
    comp := hq.comp.trans h.comp
    counters := fun c => (hq.ctx c).counters.trans (h.counters c)
    listless := hlist
    mem := hq.mem.trans h.mem
    rep := hq.rep.trans h.rep
    claims := fun f hf => by
      obtain ⟨e, he, -, -, hphase⟩ := hq.claims hperm f hf
      rw [hphase]
      exact h.claims e he
    request := fun e => by
      rw [hq.request (.inr (.inr hperm))]
      exact h.request e
    frames := fun q hqw => by
      rcases queues_waiting hq hperm hqw with hw | hshut
      · exact h.frames q hw
      · rw [hshut]
        exact ⟨nofun, fun _ => nofun⟩ }

theorem departs_queueLeave {s v : State} (h : s.Departs v) : s.Departs v.queueLeave := by
  have hchanges := queueLeave_changes v
  have hwaits (q : QFrame) (hq : q ∈ v.queueLeave.bus.waiting) := queueLeave_waits hq
  generalize v.queueLeave = w at *
  have hplc : w.plc = v.plc := hchanges.1 .plc (by simp)
  have hstr : w.str = v.str := hchanges.1 .str (by simp)
  have hdir : w.dir = v.dir := hchanges.1 .dir (by simp)
  exact {
    changes := h.changes.andThen hchanges (fun _ hb => hb) (by simp [policyBlocks])
    intake := (hchanges.1 .intake (by simp)).trans h.intake
    comp := by rw [hplc, h.comp]
    counters := fun c => by rw [hstr, h.counters c]
    listless := fun c => by rw [hstr]; exact h.listless c
    mem := (hchanges.1 .mem (by simp)).trans h.mem
    rep := by rw [hdir, h.rep]
    claims := by rw [hplc]; exact h.claims
    request := by rw [hdir]; exact h.request
    frames := fun q hq => by
      rcases hwaits q hq with hw | ⟨rfl, -⟩
      · exact h.frames q hw
      · exact ⟨nofun, fun _ => nofun⟩ }

theorem depart_policyPass {v : State} (h : v.listless) : v.policyPass = v := policyPass_none (fun c => (h c).2) []

/-- Settles O30: a departure begins, or is answered WRONG-STATE. -/
theorem departureBegins : Obligations.DepartureBegins := by
  intro s hs
  refine ⟨fun hm hdep => ?_, fun hno => ?_⟩
  · have hx : exec (.depart []) s = .next (s.depart.respond 13 .accepted).settled := by
      refine (control_next _ hs rfl).trans ?_
      rw [State.actDepart, if_pos ⟨hm, hdep⟩]
      rfl
    obtain ⟨hdeparted, hext⟩ := departs_departed s
    have hshut := departs_shutEach hdeparted allSlots
    have hstands {k : Slot} {x : Ext} (hx : s.dir.ext[k] = some x) (hd : x.shutDue = none)
        (ha : s.shutApplied k = false) := shutEach_stands (s := s.departed) (l := allSlots) (k := k) (why := .leaving)
      (List.mem_finRange k) nofun ((congrArg Members.state hdeparted.mem).trans hm) (hext ▸ hx) hd (by
        unfold State.shutApplied State.holdsSlot State.me
        rw [hdeparted.rep, hdeparted.mem]
        exact ha)
    rw [depart_eq, depart_policyPass hshut.listless] at hx
    generalize s.departed.shutEach allSlots .leaving = u at *
    have hleft := departs_queueLeave hshut
    have hdir : u.queueLeave.dir = u.dir := (queueLeave_changes u).1 .dir (by simp)
    have hcarries {b : Body} (h : u.bus.carries b) := queueLeave_carries h
    generalize u.queueLeave = v at *
    have hqueue := (refuseAll_intake (s.onMem fun m => { m with departing := true })).1
    refine ⟨_, hx, settled_response _, ?_, fun base hage htails => ⟨⟨s.str.allPending, allPending_perm s.str,
      allPending_ascends hage, ?_⟩, fun c => ⟨fun e he hs g y hg hy ho => ?_, ?_⟩⟩, hleft.mem,
      fun c => (hleft.listless c).1, fun c => (hleft.listless c).2, hleft.claims, hleft.request,
      fun q hq => (hleft.frames q hq).1, fun e he q hq => (hleft.frames q hq).2 ⟨e, he⟩,
      fun k x hx hd ha => ?_, hleft.rep, ?_⟩
    · rw [settled_queue]
      change v.intake.queue = _
      rw [hleft.intake]
      exact hqueue
    · refine Intake.took_settled ?_
      have htook := (refuseAll_refuses (s := s.onMem fun m => { m with departing := true }) htails).1
      change s.intake.took s.departRefused.intake _ at htook
      rw [← hleft.intake] at htook
      exact htook
    · have hmarked := ((refuseAll_refuses (s := s.onMem fun m => { m with departing := true }) htails).2 c).1
      change v.plc.comp[g] = _
      rw [hleft.comp]
      exact hmarked e he hs g y hg hy ho
    · have hcount := ((refuseAll_refuses (s := s.onMem fun m => { m with departing := true }) htails).2 c).2
      exact (hleft.counters c).trans hcount
    · obtain ⟨⟨y, hy, hdue⟩, hqueued⟩ := hstands hx hd ha
      refine ⟨⟨y, ?_, hdue⟩, hcarries hqueued⟩
      change v.dir.ext[k] = _
      rw [hdir]
      exact hy
    · exact frame_listed (hleft.changes.andThen (respond_changes v 13 .accepted []) (fun _ hb => hb) (by simp))
        (by simp)
  · refine control_answers hs rfl (if_neg ?_)
    rintro ⟨hm, hd⟩
    rcases hno with h | h
    · exact h hm
    · rw [hd] at h
      cases h

end Sys2Proof.Machine
end

