-- ==== Sys2Proof/Proofs/PlaceOutcome.lean ====
section
/-! SUPPORT. PLACE-DONE (R68, R69, R70, R164): the outcome recorded, the slot of a failed PLACE shut, the result
assembled, and the stream that has drained (R32). -/

namespace Sys2Proof.Machine

/-! ### Tables -/

theorem put_put {n : Nat} {α : Type} (t : Tab n α) (i : Fin n) (x y : α) : put (put t i x) i y = put t i y :=
  Vector.set_set ..

theorem put_comm {n : Nat} {α : Type} (t : Tab n α) {i j : Fin n} (h : i ≠ j) (x y : α) :
    put (put t i x) j y = put (put t j y) i x :=
  Vector.set_comm x y fun he => h (Fin.ext he)

/-! ### The match of a completion (R160, R164) -/

theorem exec_placeDone {s : State} {tg : DTag} {e : CompEntry} (hs : s.rst = none) (hl : s.link.state = .operating)
    (he : s.plc.comp[tg] = some e) (ho : e.outcome = .outstanding) :
    exec (.placeDone tg .ok) s = .next (s.placeOk tg e).settled ∧
      exec (.placeDone tg .failed) s = .next (s.placeFailed tg e).settled := by
  have hout : s.outstanding tg = some e := by
    unfold State.outstanding
    rw [he, Option.filter_some, ho]
    rfl
  have hport : ¬ s.link.state = .portWait := by rw [hl]; exact nofun
  refine ⟨(live_settled _ hs : execPlaceDone tg .ok s = _).trans ?_,
    (live_settled _ hs : execPlaceDone tg .failed s = _).trans ?_⟩
  · simp only [hport, if_false, hout]
  · simp only [hport, if_false, hout]

/-! ### The outcome recorded (R68, R69) -/

theorem recordDone_comp (s : State) (tg : DTag) (e : CompEntry) (o : PlaceOutcome) :
    (s.recordDone tg e o).plc.comp = put s.plc.comp tg (some { e with outcome := o }) := by
  unfold State.recordDone State.onExt
  dsimp only
  split <;> rfl

theorem recordDone_changes (s : State) (tg : DTag) (e : CompEntry) (o : PlaceOutcome) :
    s.changesOnly (s.recordDone tg e o) [.str, .plc, .dir] :=
  ((onPlc_changes s _).andThen (onExt_changes _ _ _) (n := [.plc, .dir]) (by simp) (by simp)).andThen
    (onCtx_changes _ _ _) (by simp) (by simp)

/-- R69: one fewer in flight in the incarnation an extent was written to. -/
def State.extentDone (s : State) (e : Extent) : State :=
  s.onExt e.slot fun x => if x.serial = e.serial then { x with inFlight := x.inFlight - 1 } else x

theorem extentDone_changes (s : State) (e : Extent) : s.changesOnly (s.extentDone e) [.dir] := onExt_changes s _ _

theorem extentDone_dir (s : State) (e : Extent) :
    (s.extentDone e).dir.rep = s.dir.rep ∧ ∀ y, s.dir.ext[e.slot] = some y → y.serial = e.serial →
      (s.extentDone e).dir.ext[e.slot] = some { y with inFlight := y.inFlight - 1 } := by
  refine ⟨(congrArg Directory.rep (onExt_dir s _ _) :), fun y hy hser => (onExt_get s _ _ _).trans ?_⟩
  rw [if_pos rfl, hy]
  exact congrArg some (if_pos hser)

/-- R50, R69: one fewer in flight, in the stream and in the incarnation of the slot. -/
theorem recordDone_counts (s : State) (tg : DTag) (e : CompEntry) (o : PlaceOutcome) :
    (∃ i, (s.recordDone tg e o).str.ctxs[e.stream] =
      { s.str.ctxs[e.stream] with inFlight := s.str.ctxs[e.stream].inFlight - 1, idle := i }) ∧
      (∀ b, b ≠ e.stream → (s.recordDone tg e o).str.ctxs[b] = s.str.ctxs[b]) ∧
      (s.recordDone tg e o).dir.rep = s.dir.rep ∧
      ∀ y, s.dir.ext[e.extent.slot] = some y → y.serial = e.extent.serial →
        (s.recordDone tg e o).dir.ext[e.extent.slot] = some { y with inFlight := y.inFlight - 1 } := by
  have hstep : s.recordDone tg e o =
      ((s.onPlc fun p => { p with comp := put p.comp tg (some { e with outcome := o }) }).extentDone e.extent).onCtx
        e.stream fun x => { x with inFlight := x.inFlight - 1 } := rfl
  obtain ⟨hrep, hext⟩ :=
    extentDone_dir (s.onPlc fun p => { p with comp := put p.comp tg (some { e with outcome := o }) }) e.extent
  have hstr : ((s.onPlc fun p => { p with comp := put p.comp tg (some { e with outcome := o }) }).extentDone
      e.extent).str = s.str := (extentDone_changes _ e.extent).1 .str (by simp)
  rw [hstep]
  generalize (s.onPlc fun p => { p with comp := put p.comp tg (some { e with outcome := o }) }).extentDone
    e.extent = u at *
  have hself := (onCtx_get u e.stream e.stream fun x => { x with inFlight := x.inFlight - 1 }).trans (if_pos rfl)
  rw [hstr] at hself
  exact ⟨⟨_, hself⟩, fun b hb => (onCtx_get u _ b _).trans ((if_neg hb).trans (by rw [hstr])), hrep, hext⟩

/-! ### The result assembled (R70) -/

/-- R34, R70: a result that joins the queue, the entries it comes from freed. -/
def State.resulted (s : State) (c : Ctx) (r : ResultRec) (g : DTag) : State :=
  ((s.countResult c r.status).onIntake fun i => { i with results := i.results ++ [r] }).onPlc (·.freeParts g)

theorem tryAssemble_room {s : State} {tg g : DTag} {y : CompEntry} {o : Option (DTag × CompEntry)}
    (hparts : s.plc.parts tg = some (g, y, o)) (hres : y.result = none) (hroom : s.intake.hasRoom = true) :
    s.tryAssemble tg =
      match assemble y (o.map (·.2)) with
      | none => s
      | some r => s.resulted y.stream r g := by
  have hkeep (st : Status) : (s.countResult y.stream st).intake = s.intake := by
    cases st <;> rfl
  unfold State.tryAssemble
  simp only [hparts, hres, hkeep, hroom, if_true]
  cases assemble y (o.map (·.2)) <;> rfl

theorem countResult_changes (s : State) (c : Ctx) (st : Status) : s.changesOnly (s.countResult c st) [.str] := by
  unfold State.countResult State.countRefused
  split
  · exact onCounters_changes s c _
  · exact onCounters_changes s c _
  · exact State.changesOnly.refl s _

/-- R34: what a result adds to the counters of its stream. -/
def Counters.resulting (n : Counters) (st : Status) : Counters :=
  match st with
  | .placed => { n with placed := min (n.placed + 1) 4294967295 }
  | .refused _ => n.refusing 1
  | .placeFailed => n

theorem countResult_ctx (s : State) (c : Ctx) (st : Status) :
    (s.countResult c st).str.ctxs[c] = { s.str.ctxs[c] with counters := s.str.ctxs[c].counters.resulting st } ∧
      ∀ b, b ≠ c → (s.countResult c st).str.ctxs[b] = s.str.ctxs[b] := by
  cases st with
  | placed =>
    exact ⟨(onCounters_get s c c _).trans (if_pos rfl), fun b hb => (onCounters_get s c b _).trans (if_neg hb)⟩
  | refused why =>
    exact ⟨(countRefused_ctx s c c).trans (if_pos rfl), fun b hb => (countRefused_ctx s c b).trans (if_neg hb)⟩
  | placeFailed => exact ⟨rfl, fun _ _ => rfl⟩

theorem resulted_changes (s : State) (c : Ctx) (r : ResultRec) (g : DTag) :
    s.changesOnly (s.resulted c r g) [.intake, .str, .plc] :=
  ((countResult_changes s c r.status).andThen (onIntake_changes _ _) (n := [.intake, .str]) (by simp)
    (by simp)).andThen (onPlc_changes _ _) (by simp) (by simp)

theorem resulted_intake (s : State) (c : Ctx) (r : ResultRec) (g : DTag) :
    (s.resulted c r g).intake.results = s.intake.results ++ [r] ∧
      (s.resulted c r g).intake.queue = s.intake.queue := by
  have hkeep : (s.countResult c r.status).intake = s.intake := (countResult_changes s c r.status).1 .intake (by simp)
  unfold State.resulted
  simp only [State.onPlc_intake, State.onIntake_intake, hkeep, and_self]

theorem resulted_ctx (s : State) (c : Ctx) (r : ResultRec) (g : DTag) :
    (s.resulted c r g).str.ctxs[c] =
      { s.str.ctxs[c] with counters := s.str.ctxs[c].counters.resulting r.status } ∧
      ∀ b, b ≠ c → (s.resulted c r g).str.ctxs[b] = s.str.ctxs[b] := countResult_ctx s c r.status

theorem resulted_comp (s : State) (c : Ctx) (r : ResultRec) (g : DTag) :
    (s.resulted c r g).plc.comp = (s.plc.freeParts g).comp := by
  have hplc : (s.countResult c r.status).plc = s.plc := (countResult_changes s c r.status).1 .plc (by simp)
  unfold State.resulted
  rw [State.onPlc_plc, State.onIntake_plc, hplc]

/-! ### A stream that has drained (R32) -/

theorem drain_kept {s : State} {c : Ctx} (h : s.str.ctxs[c].state ≠ .draining ∨ s.str.ctxs[c].inFlight ≠ 0) :
    s.drain c = s := if_neg fun ⟨hd, hf⟩ => h.elim (fun h => h hd) (fun h => h hf)

theorem drain_done {s : State} {c : Ctx} (hd : s.str.ctxs[c].state = .draining) (hf : s.str.ctxs[c].inFlight = 0) :
    s.drain c = (s.post (.drained c s.str.ctxs[c].counters)).onCtx c Context.parkedNow := if_pos ⟨hd, hf⟩

theorem drain_changes (s : State) (c : Ctx) : s.changesOnly (s.drain c) [.str, .plc, .flt] := by
  unfold State.drain
  dsimp only
  split
  · exact (onFlt_changes s _).andThen (onCtx_changes _ c _) (by simp) (by simp)
  · exact State.changesOnly.refl s _

theorem drain_comp (s : State) (c : Ctx) : (s.drain c).plc.comp = s.plc.comp := by
  unfold State.drain
  dsimp only
  split <;> rfl

theorem drain_counts (s : State) (c : Ctx) : (s.drain c).flt.counts = s.flt.counts := by
  unfold State.drain
  dsimp only
  split
  · exact post_counts s.flt _
  · rfl

theorem drain_other (s : State) {b c : Ctx} (hb : s.str.ctxs[b].state ≠ .draining) :
    (s.drain c).str.ctxs[b] = s.str.ctxs[b] := by
  unfold State.drain
  dsimp only
  split
  next h =>
    have hbc : b ≠ c := fun he => hb (he ▸ h.1)
    exact (onCtx_get _ c b _).trans (if_neg hbc)
  · rfl

/-! ### The state a PLACE-DONE assembles the result in (R68, R69) -/

/-- R68: the station after an OK, the result not yet assembled. -/
def State.doneOk (s : State) (tg : DTag) (e : CompEntry) : State :=
  (s.recordDone tg e .ok).onCounters e.stream fun n => { n with pu := sat32 n.pu e.extent.length }

/-- R69: the station after a FAILED that has been reported, its slot not yet shut. -/
def State.doneReported (s : State) (tg : DTag) (e : CompEntry) : State :=
  ((s.recordDone tg e .failed).report .placeFailed (slot := slotByte e.extent.slot)
    (stream := some e.stream)).dropTail tg e

/-- R69: the station after a FAILED, the result not yet assembled. -/
def State.doneFailed (s : State) (tg : DTag) (e : CompEntry) : State := (s.doneReported tg e).shutFailed e

theorem placeOk_eq (s : State) (tg : DTag) (e : CompEntry) :
    s.placeOk tg e = ((s.doneOk tg e).tryAssemble tg).drain e.stream := rfl

theorem placeFailed_eq (s : State) (tg : DTag) (e : CompEntry) :
    s.placeFailed tg e = (((s.doneFailed tg e).tryAssemble tg).drain e.stream).policyPass := rfl

/-- R69: a WAITING tail leaves its list refused where extent 1 has failed. -/
def CompEntry.tailAfter (e : CompEntry) (y : PlaceOutcome) : Option TailState :=
  if y = .failed ∧ e.second = false ∧ e.tail = some .waiting then some (.refused none) else e.tail

/-- What the outcome `y` of the entry `e` of a tag leaves, before the result is assembled. -/
structure State.Done (s u : State) (tg : DTag) (e : CompEntry) (y : PlaceOutcome) : Prop where
  changes : s.changesOnly u policyBlocks
  comp : u.plc.comp = put s.plc.comp tg (some { e with outcome := y, tail := e.tailAfter y })
  rep : u.dir.rep = s.dir.rep
  active : s.str.ctxs[e.stream].state ≠ .draining → u.str.ctxs[e.stream].state ≠ .draining
  counters : u.str.ctxs[e.stream].counters = { s.str.ctxs[e.stream].counters with
    pu := if y = .ok then min (s.str.ctxs[e.stream].counters.pu + e.extent.length) 4294967295
      else s.str.ctxs[e.stream].counters.pu }
  inFlight : u.str.ctxs[e.stream].inFlight = s.str.ctxs[e.stream].inFlight - 1

theorem doneOk_changes (s : State) (tg : DTag) (e : CompEntry) : s.changesOnly (s.doneOk tg e) [.str, .plc, .dir] :=
  (recordDone_changes s tg e .ok).andThen (onCounters_changes _ _ _) (by simp) (by simp)

theorem doneOk_ctx (s : State) (tg : DTag) (e : CompEntry) :
    (∃ i, (s.doneOk tg e).str.ctxs[e.stream] =
      { s.str.ctxs[e.stream] with
        inFlight := s.str.ctxs[e.stream].inFlight - 1, idle := i,
        counters := { s.str.ctxs[e.stream].counters with
          pu := min (s.str.ctxs[e.stream].counters.pu + e.extent.length) 4294967295 } }) ∧
      ∀ b, b ≠ e.stream → (s.doneOk tg e).str.ctxs[b] = s.str.ctxs[b] := by
  obtain ⟨⟨i, hself⟩, hothers, -⟩ := recordDone_counts s tg e .ok
  have hget := onCounters_get (s.recordDone tg e .ok) e.stream
  unfold State.doneOk
  generalize s.recordDone tg e .ok = u at *
  refine ⟨⟨i, (hget e.stream _).trans ((if_pos rfl).trans ?_)⟩, fun b hb => (hget b _).trans ((if_neg hb).trans
    (hothers b hb))⟩
  rw [hself]
  rfl

theorem doneOk_done (s : State) (tg : DTag) (e : CompEntry) : s.Done (s.doneOk tg e) tg e .ok := by
  obtain ⟨⟨i, hself⟩, -⟩ := doneOk_ctx s tg e
  obtain ⟨-, -, hrep, -⟩ := recordDone_counts s tg e .ok
  have htail : e.tailAfter .ok = e.tail := if_neg fun h => nomatch h.1
  exact {
    changes := (doneOk_changes s tg e).mono (by simp [policyBlocks])
    comp := by rw [htail]; exact recordDone_comp s tg e .ok
    rep := hrep
    active := fun h => by rw [hself]; exact h
    counters := by rw [hself]; rfl
    inFlight := by rw [hself] }

theorem withPending_state {x : Context} (l : List PendingEntry) (h : x.state ≠ .draining) :
    (x.withPending l).state ≠ .draining := by
  unfold Context.withPending
  dsimp only
  split
  · exact nofun
  · exact h

theorem dropTail_changes (s : State) (tg : DTag) (e : CompEntry) : s.changesOnly (s.dropTail tg e) [.str, .plc] := by
  unfold State.dropTail
  split
  · exact (onCtx_changes s _ _).andThen (onPlc_changes _ _) (by simp) (by simp)
  · exact State.changesOnly.refl s _

theorem dropTail_comp {s : State} {tg : DTag} {e y : CompEntry} (h : s.plc.comp[tg] = some y) (hy : y.tail = e.tail) :
    (s.dropTail tg e).plc.comp = put s.plc.comp tg (some { y with tail := e.tailAfter .failed }) := by
  unfold State.dropTail CompEntry.tailAfter
  by_cases hc : e.second = false ∧ e.tail = some .waiting
  · rw [if_pos hc, if_pos ⟨rfl, hc⟩]
    have hmap : (s.plc.comp[tg]).map (fun y => { y with tail := some (.refused none) }) =
        some { y with tail := some (.refused none) } := by rw [h]; rfl
    exact congrArg (fun o => put s.plc.comp tg o) hmap
  · rw [if_neg hc, if_neg fun h => hc h.2, ← hy, ← h]
    exact (Vector.set_getElem_self tg.isLt).symm

theorem dropTail_ctx (s : State) (tg : DTag) (e : CompEntry) :
    ((s.str.ctxs[e.stream]).state ≠ .draining → ((s.dropTail tg e).str.ctxs[e.stream]).state ≠ .draining) ∧
      (s.dropTail tg e).str.ctxs[e.stream].counters = s.str.ctxs[e.stream].counters ∧
      (s.dropTail tg e).str.ctxs[e.stream].inFlight = s.str.ctxs[e.stream].inFlight ∧
      (e.second = false → e.tail = some .waiting → (s.dropTail tg e).str.ctxs[e.stream].pending =
        s.str.ctxs[e.stream].pending.filter (·.headExtent.isNone)) := by
  by_cases hc : e.second = false ∧ e.tail = some .waiting
  · obtain ⟨i, hget⟩ : ∃ i, (s.dropTail tg e).str.ctxs[e.stream] =
        { s.str.ctxs[e.stream].withPending (s.str.ctxs[e.stream].pending.filter (·.headExtent.isNone)) with
          idle := i } := by
      unfold State.dropTail
      rw [if_pos hc]
      exact ⟨_, (onCtx_get s e.stream e.stream fun x =>
        x.withPending (x.pending.filter (·.headExtent.isNone))).trans (if_pos rfl)⟩
    rw [hget]
    exact ⟨withPending_state _, rfl, rfl, fun _ _ => rfl⟩
  · have hsame : s.dropTail tg e = s := if_neg hc
    rw [hsame]
    exact ⟨id, rfl, rfl, fun h1 h2 => absurd ⟨h1, h2⟩ hc⟩

theorem polices_shutFailed (s : State) (e : CompEntry) : Polices s (s.shutFailed e) := by
  unfold State.shutFailed
  split
  · exact Polices.ite (fun _ => polices_decideShut s _ _ _) fun _ => Polices.refl s
  · exact Polices.refl s

theorem doneReported_changes (s : State) (tg : DTag) (e : CompEntry) :
    s.changesOnly (s.doneReported tg e) [.str, .plc, .dir, .flt] :=
  ((recordDone_changes s tg e .failed).andThen (report_changes _ _ _ _ _ _) (n := [.str, .plc, .dir, .flt]) (by simp)
    (by simp)).andThen (dropTail_changes _ tg e) (by simp) (by simp)

/-- R68, R69: the outcome recorded, reported and not yet answered. -/
theorem doneReported_spec (s : State) (tg : DTag) (e : CompEntry) :
    (s.doneReported tg e).plc.comp =
        put s.plc.comp tg (some { e with outcome := .failed, tail := e.tailAfter .failed }) ∧
      s.counted (s.doneReported tg e) .placeFailed ∧
      (s.str.ctxs[e.stream].state ≠ .draining → (s.doneReported tg e).str.ctxs[e.stream].state ≠ .draining) ∧
      (s.doneReported tg e).str.ctxs[e.stream].counters = s.str.ctxs[e.stream].counters ∧
      (s.doneReported tg e).str.ctxs[e.stream].inFlight = s.str.ctxs[e.stream].inFlight - 1 ∧
      (e.second = false → e.tail = some .waiting → (s.doneReported tg e).str.ctxs[e.stream].pending =
        s.str.ctxs[e.stream].pending.filter (·.headExtent.isNone)) := by
  obtain ⟨⟨i, hself⟩, -⟩ := recordDone_counts s tg e .failed
  have hcomp := recordDone_comp s tg e .failed
  have hflt := (recordDone_changes s tg e .failed).1 .flt (by simp)
  unfold State.doneReported
  generalize s.recordDone tg e .failed = u at *
  have hcounted := report_counted u .placeFailed (slotByte e.extent.slot) (some e.stream) none none
  have hplc : (u.report .placeFailed (slot := slotByte e.extent.slot) (stream := some e.stream)).plc = u.plc := rfl
  have hstr : (u.report .placeFailed (slot := slotByte e.extent.slot) (stream := some e.stream)).str = u.str := rfl
  generalize u.report .placeFailed (slot := slotByte e.extent.slot) (stream := some e.stream) = v at *
  have hflt' : (v.dropTail tg e).flt = v.flt := (dropTail_changes v tg e).1 .flt (by simp)
  obtain ⟨hactive, hcount, hfl, hpend⟩ := dropTail_ctx v tg e
  have hv : v.str.ctxs[e.stream] = _ := (congrArg (fun t : Streams => t.ctxs[e.stream]) hstr).trans hself
  rw [hv] at hactive hcount hfl hpend
  refine ⟨?_, ?_, hactive, hcount, hfl, hpend⟩
  · have hget : v.plc.comp[tg] = some { e with outcome := .failed } := by
      rw [hplc, hcomp]
      exact (put_get _ _ _ _).trans (if_pos rfl)
    rw [dropTail_comp (e := e) hget rfl, hplc, hcomp, put_put]
  · exact hcounted.congr (congrArg (fun f : Faults => f.counts[Cause.placeFailed.index]) hflt.symm)
      (congrArg (fun f : Faults => f.counts[Cause.placeFailed.index]) hflt')

theorem doneReported_dir (s : State) (tg : DTag) (e : CompEntry) :
    (s.doneReported tg e).dir = (s.recordDone tg e .failed).dir :=
  (dropTail_changes _ tg e).1 .dir (by simp)

theorem doneFailed_done (s : State) (tg : DTag) (e : CompEntry) :
    s.Done (s.doneFailed tg e) tg e .failed ∧ s.counted (s.doneFailed tg e) .placeFailed ∧
      (e.second = false → e.tail = some .waiting → (s.doneFailed tg e).str.ctxs[e.stream].pending =
        s.str.ctxs[e.stream].pending.filter (·.headExtent.isNone)) := by
  obtain ⟨hcomp, hcounted, hactive, hcount, hfl, hpend⟩ := doneReported_spec s tg e
  have hchanges := doneReported_changes s tg e
  have hrep : (s.doneReported tg e).dir.rep = s.dir.rep := by
    rw [doneReported_dir]
    exact (recordDone_counts s tg e .failed).2.2.1
  unfold State.doneFailed
  generalize s.doneReported tg e = u at *
  have hpol := polices_shutFailed u e
  generalize u.shutFailed e = v at *
  have hkeep := hpol.ctx e.stream
  refine ⟨{
    changes := hchanges.andThen hpol.changesOnly (by simp [policyBlocks]) fun _ h => h
    comp := hpol.comp.trans hcomp
    rep := hpol.rep.trans hrep
    active := fun h => ?_
    counters := hkeep.counters.trans hcount
    inFlight := hkeep.inFlight.trans hfl }, ?_, fun h1 h2 => hkeep.pending.trans (hpend h1 h2)⟩
  · have hu := hactive h
    by_cases hst : u.str.ctxs[e.stream].state = .waiting ∨ u.str.ctxs[e.stream].state = .bound
    · rcases hpol.active e.stream hst with h | h | h <;> rw [h] <;> exact nofun
    · rw [not_or] at hst
      rw [hpol.still e.stream hst.1 hst.2]
      exact hu
  · exact hcounted.congr rfl (by rw [hpol.counts])

/-! ### The slot of a failed PLACE (R69, R72) -/

/-- R69, R72: the incarnation a failed extent was written to: one fewer in flight, and shut FAULT unless a
shut is decided or applied. -/
def State.faultShut (s t : State) (e : CompEntry) : Prop :=
  ∀ y, s.dir.ext[e.extent.slot] = some y → y.serial = e.extent.serial →
    ∃ z, t.dir.ext[e.extent.slot] = some z ∧ z.inFlight = y.inFlight - 1 ∧
      (y.shutDue = none → s.dir.rep.dir[e.extent.slot].isClosing = false →
        z.shutDue = some .fault ∧
          (s.mem.state = .member → s.bus.gainedFirst t.bus
            { dest := none, body := .shut e.extent.slot .fault none }))

theorem doneFailed_faultShut (s : State) (tg : DTag) (e : CompEntry) : s.faultShut (s.doneFailed tg e) e := by
  intro y hy hser
  obtain ⟨-, -, hrep, hext⟩ := recordDone_counts s tg e .failed
  rw [← doneReported_dir] at hrep hext
  have hbus : (s.doneReported tg e).bus = s.bus := (doneReported_changes s tg e).1 .bus (by simp)
  have hmem : (s.doneReported tg e).mem = s.mem := (doneReported_changes s tg e).1 .mem (by simp)
  unfold State.doneFailed
  generalize s.doneReported tg e = u at *
  have hu := hext y hy hser
  have hshut : u.shutFailed e = u.decideShut e.extent.slot .fault := by
    unfold State.shutFailed
    rw [hu]
    exact if_pos hser
  rw [hshut]
  obtain ⟨z, hz, hkept⟩ := ((polices_decideShut u e.extent.slot .fault none).ext e.extent.slot).2 _ hu
  refine ⟨z, hz, hkept.inFlight, fun hdue hclosing => ?_⟩
  have happlied : u.shutApplied e.extent.slot = false := by
    unfold State.shutApplied
    rw [hrep, hclosing, Bool.and_false]
  obtain ⟨⟨z', hz', hzdue, -⟩, hqueued⟩ := decideShut_stands hu hdue happlied
    (Queues.refl [.fault] (u.decideShut e.extent.slot .fault none))
  cases hz.symm.trans hz'
  refine ⟨hzdue, fun hm => ?_⟩
  have hgained := hqueued (hmem ▸ hm)
  rw [hbus] at hgained
  exact hgained

/-- What stands of it behind changes in other blocks and policy work. -/
theorem faultShut_later {s u v t : State} {e : CompEntry} {cs : List ShutCause} (h : s.faultShut u e)
    (hdir : v.dir = u.dir) (hbus : v.bus = u.bus) (ht : Queues cs v t) : s.faultShut t e := by
  intro y hy hser
  obtain ⟨z, hz, hfl, hshut⟩ := h y hy hser
  obtain ⟨w, hw, hkept⟩ := (ht.ext e.extent.slot).2 z (hdir ▸ hz)
  refine ⟨w, hw, hkept.inFlight.trans hfl, fun hdue hclosing => ?_⟩
  obtain ⟨hzdue, hqueued⟩ := hshut hdue hclosing
  refine ⟨(hkept.due (by rw [hzdue]; rfl)).1.trans hzdue, fun hm => ?_⟩
  have hgained := hqueued hm
  rw [← hbus] at hgained
  exact hgained.then ht.behind

/-! ### The descriptor assembled, from one entry or from two (R70) -/

theorem parts_alone {p : Placement} {tg : DTag} {y : CompEntry} (hy : p.comp[tg] = some y) (hs : y.second = false)
    (hp : y.partner = none) : p.parts tg = some (tg, y, none) := by
  simp only [Placement.parts, hy, hs, hp]

theorem parts_pair {p : Placement} {g1 g2 tg : DTag} {y1 y2 : CompEntry} (h1 : p.comp[g1] = some y1)
    (h2 : p.comp[g2] = some y2) (hs1 : y1.second = false) (hs2 : y2.second = true) (hp1 : y1.partner = some g2)
    (hp2 : y2.partner = some g1) (ht : tg = g1 ∨ tg = g2) : p.parts tg = some (g1, y1, some (g2, y2)) := by
  rcases ht with rfl | rfl
  · simp only [Placement.parts, h1, hs1, hp1, h2, Option.map_some]
  · simp only [Placement.parts, h2, hs2, hp2, h1, Option.map_some]

theorem freeParts_alone {p : Placement} {g : DTag} {y : CompEntry} (h : p.parts g = some (g, y, none)) :
    (p.freeParts g).comp = put p.comp g none := by
  simp only [Placement.freeParts, h]

theorem freeParts_pair {p : Placement} {g1 g2 : DTag} {y1 y2 : CompEntry}
    (h : p.parts g1 = some (g1, y1, some (g2, y2))) : (p.freeParts g1).comp = put (put p.comp g1 none) g2 none := by
  simp only [Placement.freeParts, h]

/-- R70: neither result is given before both extents are done. -/
theorem assemble_early {y1 y2 : CompEntry} (h : y1.outcome = .outstanding ∨ y2.outcome = .outstanding) :
    assemble y1 (some y2) = none := by
  unfold assemble
  rcases h with h | h
  · simp only [h]
  · cases h1 : y1.outcome <;> simp only [h]

theorem assemble_pair {y1 y2 : CompEntry} (h1 : y1.outcome ≠ .outstanding) (h2 : y2.outcome ≠ .outstanding) :
    assemble y1 (some y2) = some
      { tag := y1.tag, status := if y1.outcome = .failed ∨ y2.outcome = .failed then .placeFailed else .placed,
        stream := some y1.stream, extents := [y1.listed, y2.listed] } := by
  unfold assemble
  cases ho1 : y1.outcome
  case outstanding => exact absurd ho1 h1
  all_goals
    cases ho2 : y2.outcome
    case outstanding => exact absurd ho2 h2
    all_goals simp only [ho2]

/-! ### What follows the assembly (R32, R57) -/

/-- `t` comes from `v` by the drain of a stream, and perhaps a policy pass. -/
structure Wraps (v t : State) (c : Ctx) : Prop where
  changes : v.changesOnly t policyBlocks
  intake : t.intake = v.intake
  comp : t.plc.comp = v.plc.comp
  counts : t.flt.counts = v.flt.counts
  rep : t.dir.rep = v.dir.rep
  ctx : v.str.ctxs[c].state ≠ .draining → v.str.ctxs[c].KeptIn t.str.ctxs[c]

theorem wraps_drain (v : State) (c : Ctx) : Wraps v (v.drain c) c where
  changes := (drain_changes v c).mono (by simp [policyBlocks])
  intake := (drain_changes v c).1 .intake (by simp)
  comp := drain_comp v c
  counts := drain_counts v c
  rep := congrArg Directory.rep ((drain_changes v c).1 .dir (by simp))
  ctx := fun h => by rw [drain_other v h]; exact {}

theorem wraps_policyPass (v : State) (c : Ctx) : Wraps v (v.drain c).policyPass c := by
  have h := wraps_drain v c
  have hpol := polices_policyPass (v.drain c)
  exact {
    changes := h.changes.andThen hpol.changesOnly (fun _ hb => hb) (fun _ hb => hb)
    intake := hpol.intake.trans h.intake
    comp := hpol.comp.trans h.comp
    counts := hpol.counts.trans h.counts
    rep := hpol.rep.trans h.rep
    ctx := fun hd => (h.ctx hd).trans (hpol.ctx c) }

/-- R70: the result not yet given. -/
theorem answered_early {s u t : State} {tg : DTag} {e : CompEntry} {y : PlaceOutcome} (hd : s.Done u tg e y)
    (hw : Wraps u t e.stream) :
    t.settled.intake.results = s.intake.results ∧
      t.settled.plc.comp = put s.plc.comp tg (some { e with outcome := y, tail := e.tailAfter y }) ∧
      (s.str.ctxs[e.stream].state ≠ .draining →
        t.settled.str.ctxs[e.stream].counters = { s.str.ctxs[e.stream].counters with
          pu := if y = .ok then min (s.str.ctxs[e.stream].counters.pu + e.extent.length) 4294967295
            else s.str.ctxs[e.stream].counters.pu } ∧
        t.settled.str.ctxs[e.stream].inFlight = s.str.ctxs[e.stream].inFlight - 1) ∧
      s.frame t.settled policyBlocks := by
  have hintake : u.intake = s.intake := hd.changes.1 .intake (by simp [policyBlocks])
  refine ⟨by rw [settled_results, hw.intake, hintake], hw.comp.trans hd.comp, fun h => ?_,
    frame_of_changes (hd.changes.andThen hw.changes (fun _ hb => hb) fun _ hb => hb) (by simp [policyBlocks])⟩
  have hkeep := hw.ctx (hd.active h)
  exact ⟨hkeep.counters.trans hd.counters, hkeep.inFlight.trans hd.inFlight⟩

end Sys2Proof.Machine
end

