-- ==== Sys2Proof/Proofs/PlaceDone.lean ====
section
/-! SUPPORT. PLACE-DONE (R68, R69, R70): the completion of an undivided descriptor, of a head whose tail is not
issued, and of either extent of a split descriptor. -/

namespace Sys2Proof.Machine

/-! ### The result given (R34, R70) -/

/-- R70: the result given, its entries freed. -/
theorem answered_result {s u t : State} {tg g : DTag} {e : CompEntry} {y : PlaceOutcome} {r : ResultRec}
    (hd : s.Done u tg e y) (hw : Wraps (u.resulted e.stream r g) t e.stream) :
    t.settled.intake.results = s.intake.results ++ [r] ∧ t.settled.intake.queue = s.intake.queue ∧
      t.settled.plc.comp = (u.plc.freeParts g).comp ∧ (s.counted u .placeFailed → s.counted t.settled .placeFailed) ∧
      (s.str.ctxs[e.stream].state ≠ .draining →
        t.settled.str.ctxs[e.stream].counters = u.str.ctxs[e.stream].counters.resulting r.status ∧
          t.settled.str.ctxs[e.stream].pending = u.str.ctxs[e.stream].pending) ∧
      s.frame t.settled (.intake :: policyBlocks) := by
  have hchanges := resulted_changes u e.stream r g
  obtain ⟨hresults, hqueue⟩ := resulted_intake u e.stream r g
  obtain ⟨hctx, -⟩ := resulted_ctx u e.stream r g
  have hcomp := resulted_comp u e.stream r g
  generalize u.resulted e.stream r g = v at *
  have hintake : u.intake = s.intake := hd.changes.1 .intake (by simp [policyBlocks])
  have hflt : v.flt = u.flt := hchanges.1 .flt (by simp)
  refine ⟨?_, ?_, hw.comp.trans hcomp, fun hc => hc.congr rfl ?_, fun h => ?_, ?_⟩
  · rw [settled_results, hw.intake, hresults, hintake]
  · rw [settled_queue, hw.intake, hqueue, hintake]
  · rw [settled_flt, hw.counts, hflt]
  · have hactive : v.str.ctxs[e.stream].state ≠ .draining := by
      rw [hctx]
      exact hd.active h
    have hkeep := hw.ctx hactive
    rw [hctx] at hkeep
    exact ⟨hkeep.counters, hkeep.pending⟩
  · exact frame_listed ((hd.changes.andThen hchanges (n := .intake :: policyBlocks)
      (fun _ hb => List.mem_cons_of_mem _ hb) (by simp [policyBlocks])).andThen hw.changes (fun _ hb => hb)
        fun _ hb => List.mem_cons_of_mem _ hb) (by simp)

/-- R68, R69: the outcome of a PLACE recorded, assembled and wrapped up. -/
theorem exec_recorded {s : State} {tg : DTag} {e : CompEntry} (hs : s.rst = none) (hl : s.link.state = .operating)
    (he : s.plc.comp[tg] = some e) (ho : e.outcome = .outstanding) {x : CompletionOutcome} {y : PlaceOutcome}
    (hxy : x = .ok ∧ y = .ok ∨ x = .failed ∧ y = .failed) :
    ∃ u t, exec (.placeDone tg x) s = .next t.settled ∧ s.Done u tg e y ∧
      Wraps (u.tryAssemble tg) t e.stream ∧ (x = .failed → s.counted u .placeFailed) := by
  obtain ⟨hok, hfailed⟩ := exec_placeDone hs hl he ho
  rcases hxy with ⟨rfl, rfl⟩ | ⟨rfl, rfl⟩
  · exact ⟨_, _, hok, doneOk_done s tg e, wraps_drain _ _, nofun⟩
  · obtain ⟨hdone, hcounted, -⟩ := doneFailed_done s tg e
    exact ⟨_, _, hfailed, hdone, wraps_policyPass _ _, fun _ => hcounted⟩

theorem tailAfter_same {e : CompEntry} (h : e.second = true ∨ e.tail ≠ some .waiting) (y : PlaceOutcome) :
    e.tailAfter y = e.tail := by
  refine if_neg fun ⟨_, hsec, ht⟩ => ?_
  rcases h with h | h
  · rw [hsec] at h
    cases h
  · exact h ht

/-! ### The only extent, or a head (R68, R69, R70) -/

section Alone

variable {s u : State} {tg : DTag} {e : CompEntry} {y : PlaceOutcome}

theorem State.Done.get (hd : s.Done u tg e y) :
    u.plc.comp[tg] = some { e with outcome := y, tail := e.tailAfter y } := by
  rw [hd.comp]
  exact (put_get _ _ _ _).trans (if_pos rfl)

theorem State.Done.room (hd : s.Done u tg e y) (hr : s.intake.results.length < 32) (hw : s.intake.waiters = []) :
    u.intake.hasRoom = true := by
  rw [Intake.hasRoom_iff, hd.changes.1 .intake (by simp [policyBlocks])]
  exact ⟨hr, hw⟩

/-- R70: an entry without a second extent is assembled alone. -/
theorem State.Done.alone (hd : s.Done u tg e y) (hr : s.intake.results.length < 32) (hw : s.intake.waiters = [])
    (hsec : e.second = false) (hpart : e.partner = none) (hres : e.result = none) :
    u.tryAssemble tg =
        (match assemble { e with outcome := y, tail := e.tailAfter y } none with
          | none => u
          | some r => u.resulted e.stream r tg) ∧
      (u.plc.freeParts tg).comp = put s.plc.comp tg none := by
  have hparts := parts_alone hd.get hsec hpart
  refine ⟨tryAssemble_room hparts hres (hd.room hr hw), ?_⟩
  rw [freeParts_alone hparts, hd.comp, put_put]

end Alone

/-- R69, R70: a failed extent 1 whose tail has left or was never there gives PLACE-FAILED. -/
theorem assemble_failed {e : CompEntry} (h : e.tail = none ∨ ∃ why, e.tail = some (.refused why))
    (ho : e.outcome = .failed) :
    assemble e none = some
      { tag := e.tag, status := .placeFailed, stream := some e.stream, extents := [(e.extent, true)] } := by
  unfold assemble CompEntry.listed
  rcases h with h | ⟨why, h⟩
  · simp only [h, ho]
    rfl
  · simp only [h, ho]
    rfl

/-- R69, R70: a FAILED whose result can be given at once. -/
theorem failed_answered {s : State} {tg : DTag} {e : CompEntry} (hs : s.rst = none) (hl : s.link.state = .operating)
    (he : s.plc.comp[tg] = some e) (ho : e.outcome = .outstanding) (hsec : e.second = false)
    (hpart : e.partner = none) (hres : e.result = none) (hr : s.intake.results.length < 32)
    (hw : s.intake.waiters = []) (htail : e.tail = none ∨ e.tail = some .waiting ∨ ∃ why, e.tail = some (.refused why)) :
    ∃ t, exec (.placeDone tg .failed) s = .next t ∧
      t.intake.results = s.intake.results ++
        [{ tag := e.tag, status := .placeFailed, stream := some e.stream, extents := [(e.extent, true)] }] ∧
      t.plc.comp = put s.plc.comp tg none ∧ s.counted t .placeFailed ∧ s.faultShut t e ∧
      (e.tail = some .waiting → s.str.ctxs[e.stream].state ≠ .draining → t.str.ctxs[e.stream].pending =
        s.str.ctxs[e.stream].pending.filter (·.headExtent.isNone)) ∧
      t.dir.rep = s.dir.rep ∧ t.intake.queue = s.intake.queue ∧ s.frame t (.intake :: policyBlocks) := by
  obtain ⟨-, hx⟩ := exec_placeDone hs hl he ho
  rw [placeFailed_eq] at hx
  obtain ⟨hd, hcounted, hpend⟩ := doneFailed_done s tg e
  have hfault := doneFailed_faultShut s tg e
  generalize s.doneFailed tg e = u at *
  obtain ⟨hasm, hfree⟩ := hd.alone hr hw hsec hpart hres
  have hafter : e.tailAfter .failed = none ∨ ∃ why, e.tailAfter .failed = some (.refused why) := by
    rcases htail with h | h | ⟨why, h⟩
    · exact .inl ((tailAfter_same (.inr (by rw [h]; exact nofun)) _).trans h)
    · exact .inr ⟨none, if_pos ⟨rfl, hsec, h⟩⟩
    · exact .inr ⟨why, (tailAfter_same (.inr (by rw [h]; exact nofun)) _).trans h⟩
  rw [assemble_failed hafter rfl] at hasm
  dsimp only at hasm
  have hwraps := wraps_policyPass (u.tryAssemble tg) e.stream
  have hqueues : Queues [.full] ((u.tryAssemble tg).drain e.stream) ((u.tryAssemble tg).drain e.stream).policyPass :=
    queues_policyPass _ [] (by simp)
  have hdrain := drain_changes (u.tryAssemble tg) e.stream
  rw [hasm] at hx hwraps hqueues hdrain
  have hres' := resulted_changes u e.stream
    { tag := e.tag, status := .placeFailed, stream := some e.stream, extents := [(e.extent, true)] } tg
  obtain ⟨hresults, hqueue, hcomp, hcount, hctx, hframe⟩ := answered_result hd hwraps
  refine ⟨_, hx, hresults, hcomp.trans hfree, hcount hcounted, ?_, fun ht hn => (hctx hn).2.trans (hpend hsec ht),
    ?_, hqueue, hframe⟩
  · exact (faultShut_later hfault ((hdrain.1 .dir (by simp)).trans (hres'.1 .dir (by simp)))
      ((hdrain.1 .bus (by simp)).trans (hres'.1 .bus (by simp))) hqueues :)
  · exact hwraps.rep.trans ((congrArg Directory.rep (hres'.1 .dir (by simp))).trans hd.rep)

/-- R68, R70: an OK whose result can be given at once. -/
theorem ok_answered {s : State} {tg : DTag} {e : CompEntry} {r : ResultRec} (hs : s.rst = none)
    (hl : s.link.state = .operating) (he : s.plc.comp[tg] = some e) (ho : e.outcome = .outstanding)
    (hsec : e.second = false) (hpart : e.partner = none) (hres : e.result = none)
    (hr : s.intake.results.length < 32) (hw : s.intake.waiters = [])
    (hasm : assemble { e with outcome := .ok } none = some r) :
    ∃ v, exec (.placeDone tg .ok) s = .next (v.drain e.stream).settled ∧ v = (s.doneOk tg e).resulted e.stream r tg ∧
      (v.drain e.stream).settled.intake.results = s.intake.results ++ [r] ∧
      (v.drain e.stream).settled.plc.comp = put s.plc.comp tg none ∧
      (s.str.ctxs[e.stream].state ≠ .draining → (v.drain e.stream).settled.str.ctxs[e.stream].counters =
        ({ s.str.ctxs[e.stream].counters with
          pu := min (s.str.ctxs[e.stream].counters.pu + e.extent.length) 4294967295 } : Counters).resulting r.status) ∧
      (v.drain e.stream).settled.intake.queue = s.intake.queue ∧
      s.frame (v.drain e.stream).settled [.intake, .str, .plc, .dir, .flt] := by
  obtain ⟨hx, -⟩ := exec_placeDone hs hl he ho
  rw [placeOk_eq] at hx
  have hd := doneOk_done s tg e
  have hchanges := doneOk_changes s tg e
  generalize s.doneOk tg e = u at *
  obtain ⟨hu, hfree⟩ := hd.alone hr hw hsec hpart hres
  have htail : e.tailAfter .ok = e.tail := if_neg fun h => nomatch h.1
  rw [htail, hasm] at hu
  dsimp only at hu
  rw [hu] at hx
  obtain ⟨hresults, hqueue, hcomp, -, hctx, -⟩ := answered_result hd (wraps_drain (u.resulted e.stream r tg) e.stream)
  refine ⟨_, hx, rfl, hresults, hcomp.trans hfree, fun h => (hctx h).1.trans ?_, hqueue, ?_⟩
  · rw [hd.counters]
    rfl
  · exact frame_listed (((hchanges.andThen (resulted_changes u e.stream r tg) (n := [.intake, .str, .plc, .dir])
      (by simp) (by simp)).andThen (drain_changes _ _)) (by simp) (by simp)) (by simp)

/-- R68, R32: the only extent of a descriptor, written. -/
theorem placed_only {tg : DTag} {e : CompEntry} {x : Context} {s : State} (hs : s.rst = none)
    (hl : s.link.state = .operating) (he : s.plc.comp[tg] = some e) (ho : e.outcome = .outstanding)
    (hsec : e.second = false) (hpart : e.partner = none) (htail : e.tail = none) (hres : e.result = none)
    (hr : s.intake.results.length < 32) (hw : s.intake.waiters = []) (hx : s.str.ctxs[e.stream] = x) :
    ∃ t n, exec (.placeDone tg .ok) s = .next t ∧
      n = { x.counters with
        pu := min (x.counters.pu + e.extent.length) 4294967295,
        placed := min (x.counters.placed + 1) 4294967295 } ∧
      t.intake.results = s.intake.results ++
        [{ tag := e.tag, status := .placed, stream := some e.stream, extents := [(e.extent, false)] }] ∧
      t.plc.comp = put s.plc.comp tg none ∧
      (x.state ≠ .draining ∨ 1 < x.inFlight →
        t.str.ctxs[e.stream].counters = n ∧ t.str.ctxs[e.stream].inFlight = x.inFlight - 1 ∧
        t.flt = s.flt) ∧
      (x.state = .draining → x.inFlight ≤ 1 →
        t.str.ctxs[e.stream] =
          { Context.unassigned with state := .parked, key := x.key, cls := x.cls } ∧
        t.flt = s.flt.post (.drained e.stream n)) ∧
      (∀ y, s.dir.ext[e.extent.slot] = some y → y.serial = e.extent.serial →
        t.dir.ext[e.extent.slot] = some { y with inFlight := y.inFlight - 1 }) ∧
      t.dir.rep = s.dir.rep ∧ t.intake.queue = s.intake.queue ∧
      s.frame t [.intake, .str, .plc, .dir, .flt] := by
  subst hx
  have hasm : assemble { e with outcome := .ok } none =
      some { tag := e.tag, status := .placed, stream := some e.stream, extents := [(e.extent, false)] } := by
    simp only [assemble, htail, CompEntry.listed]
    rfl
  obtain ⟨v, hexec, hv, hresults, hcomp, -, hqueue, hframe⟩ := ok_answered hs hl he ho hsec hpart hres hr hw hasm
  obtain ⟨⟨i, hself⟩, -⟩ := doneOk_ctx s tg e
  have hdone := doneOk_changes s tg e
  obtain ⟨-, -, hrep, hext⟩ := recordDone_counts s tg e .ok
  have hdir : (s.doneOk tg e).dir = (s.recordDone tg e .ok).dir := rfl
  rw [← hdir] at hrep hext
  generalize s.doneOk tg e = u at *
  obtain ⟨hctx, -⟩ := resulted_ctx u e.stream
    { tag := e.tag, status := .placed, stream := some e.stream, extents := [(e.extent, false)] } tg
  have hresult := resulted_changes u e.stream
    { tag := e.tag, status := .placed, stream := some e.stream, extents := [(e.extent, false)] } tg
  rw [← hv] at hctx hresult
  rw [hself] at hctx
  have hflt : v.flt = s.flt := (hresult.1 .flt (by simp)).trans (hdone.1 .flt (by simp))
  have hvdir : (v.drain e.stream).dir = u.dir :=
    ((drain_changes v e.stream).1 .dir (by simp)).trans (hresult.1 .dir (by simp))
  have hstate : v.str.ctxs[e.stream].state = s.str.ctxs[e.stream].state := by rw [hctx]
  have hflight : v.str.ctxs[e.stream].inFlight = s.str.ctxs[e.stream].inFlight - 1 := by rw [hctx]
  refine ⟨_, _, hexec, rfl, hresults, hcomp, fun h => ?_, fun hdr hle => ?_, fun y hy hser => ?_, ?_, hqueue, hframe⟩
  · have hkept : v.drain e.stream = v := by
      refine drain_kept (h.imp (fun h => ?_) fun h => ?_)
      · rwa [hstate]
      · rw [hflight]
        omega
    rw [hkept, settled_str, settled_flt, hctx]
    exact ⟨rfl, rfl, hflt⟩
  · have hdrained : v.drain e.stream = _ := drain_done (hstate.trans hdr) (by rw [hflight]; omega)
    rw [hdrained]
    refine ⟨((onCtx_get _ e.stream e.stream _).trans (if_pos rfl)).trans ?_, ?_⟩
    · have hpost : (v.post (.drained e.stream v.str.ctxs[e.stream].counters)).str = v.str := rfl
      rw [hpost, hctx]
      simp [Context.parkedNow, idleAfter, Context.quiet, Context.unassigned]
    · change v.flt.post (.drained e.stream v.str.ctxs[e.stream].counters) = _
      rw [hflt, hctx]
      rfl
  · change (v.drain e.stream).dir.ext[e.extent.slot] = _
    rw [hvdir]
    exact hext y hy hser
  · change (v.drain e.stream).dir.rep = _
    rw [hvdir, hrep]

/-- R68, R70: an OK of a head whose tail still waits gives no result. -/
theorem ok_waits {s : State} {tg : DTag} {e : CompEntry} (hs : s.rst = none) (hl : s.link.state = .operating)
    (he : s.plc.comp[tg] = some e) (ho : e.outcome = .outstanding) (hsec : e.second = false)
    (hpart : e.partner = none) (hres : e.result = none) (hr : s.intake.results.length < 32)
    (hw : s.intake.waiters = []) (htail : e.tail = some .waiting) :
    ∃ t, exec (.placeDone tg .ok) s = .next t ∧ t.intake.results = s.intake.results ∧
      t.plc.comp = put s.plc.comp tg (some { e with outcome := .ok }) ∧
      (s.str.ctxs[e.stream].state ≠ .draining →
        t.str.ctxs[e.stream].counters = { s.str.ctxs[e.stream].counters with
          pu := min (s.str.ctxs[e.stream].counters.pu + e.extent.length) 4294967295 } ∧
        t.str.ctxs[e.stream].inFlight = s.str.ctxs[e.stream].inFlight - 1) ∧
      (∀ b : Ctx, s.str.ctxs[b].state ≠ .draining → t.str.ctxs[b].pending = s.str.ctxs[b].pending) ∧
      s.frame t [.str, .plc, .dir, .flt] := by
  obtain ⟨hx, -⟩ := exec_placeDone hs hl he ho
  rw [placeOk_eq] at hx
  have hd := doneOk_done s tg e
  have hchanges := doneOk_changes s tg e
  obtain ⟨⟨i, hself⟩, hothers⟩ := doneOk_ctx s tg e
  generalize s.doneOk tg e = u at *
  have hafter : e.tailAfter .ok = e.tail := if_neg fun h => nomatch h.1
  have hu : u.tryAssemble tg = u := by
    have hasm : assemble { e with outcome := .ok, tail := e.tailAfter .ok } none = none := by
      rw [hafter]
      simp only [assemble, htail]
    have hstep := (hd.alone hr hw hsec hpart hres).1
    rw [hasm] at hstep
    exact hstep
  rw [hu] at hx
  obtain ⟨hresults, hcomp, hctx, -⟩ := answered_early hd (wraps_drain u e.stream)
  rw [hafter] at hcomp
  refine ⟨_, hx, hresults, hcomp, hctx, fun b hb => ?_,
    frame_of_changes (hchanges.andThen (drain_changes u _) (by simp) (by simp)) (by simp)⟩
  have hpend : u.str.ctxs[b].state = s.str.ctxs[b].state ∧ u.str.ctxs[b].pending = s.str.ctxs[b].pending := by
    by_cases hbe : b = e.stream
    · rw [hbe, hself]
      exact ⟨rfl, rfl⟩
    · rw [hothers b hbe]
      exact ⟨rfl, rfl⟩
  have hkept : (u.drain e.stream).str.ctxs[b] = u.str.ctxs[b] := drain_other u (by rw [hpend.1]; exact hb)
  exact (congrArg Context.pending hkept).trans hpend.2

/-! ### Either extent of a split descriptor (R70) -/

section Pair

variable {s u : State} {g1 g2 tg : DTag} {e1 e2 e o : CompEntry} {y : PlaceOutcome}

/-- The entry of an extent, with the outcome that has come for it. -/
def CompEntry.after (e : CompEntry) (here : Prop) [Decidable here] (y : PlaceOutcome) : CompEntry :=
  if here then { e with outcome := y } else e

theorem State.Done.pair (hd : s.Done u tg e y) (hne : g1 ≠ g2) (h1 : s.plc.comp[g1] = some e1)
    (h2 : s.plc.comp[g2] = some e2) (hs2 : e2.second = true) (ht1 : e1.tail = some .issued)
    (hwhich : tg = g1 ∧ e = e1 ∧ o = e2 ∨ tg = g2 ∧ e = e2 ∧ o = e1) :
    u.plc.comp = put s.plc.comp tg (some { e with outcome := y }) ∧
      u.plc.comp[g1] = some (e1.after (tg = g1) y) ∧ u.plc.comp[g2] = some (e2.after (tg = g2) y) := by
  have htail : e.tailAfter y = e.tail := by
    rcases hwhich with ⟨-, rfl, -⟩ | ⟨-, rfl, -⟩
    · exact tailAfter_same (.inr (by rw [ht1]; exact nofun)) y
    · exact tailAfter_same (.inl hs2) y
  have hcomp := hd.comp
  rw [htail] at hcomp
  unfold CompEntry.after
  rw [hcomp]
  rcases hwhich with ⟨rfl, rfl, rfl⟩ | ⟨rfl, rfl, rfl⟩
  · rw [if_pos rfl, if_neg hne]
    exact ⟨rfl, (put_get _ _ _ _).trans (if_pos rfl), (put_get _ _ _ _).trans ((if_neg hne.symm).trans h2)⟩
  · rw [if_pos rfl, if_neg hne.symm]
    exact ⟨rfl, (put_get _ _ _ _).trans ((if_neg hne).trans h1), (put_get _ _ _ _).trans (if_pos rfl)⟩

theorem after_outcome (e : CompEntry) (here : Prop) [Decidable here] (y : PlaceOutcome) :
    (e.after here y).outcome = if here then y else e.outcome := by
  unfold CompEntry.after
  split <;> rfl

/-- But for its outcome the entry stands. -/
theorem after_eq (e : CompEntry) (here : Prop) [Decidable here] (y : PlaceOutcome) :
    e.after here y = { e with outcome := if here then y else e.outcome } := by
  unfold CompEntry.after
  split <;> rfl

theorem freed_pair {c : Tab 256 (Option CompEntry)} {x : Option CompEntry} (hwhich : tg = g1 ∨ tg = g2)
    (hne : g1 ≠ g2) : put (put (put c tg x) g1 none) g2 none = put (put c g1 none) g2 none := by
  rcases hwhich with rfl | rfl
  · rw [put_put]
  · rw [put_comm _ hne.symm, put_put]

/-- R70: what either extent of a split descriptor leads to. -/
theorem State.Done.assembles (hd : s.Done u tg e y) (hne : g1 ≠ g2) (h1 : s.plc.comp[g1] = some e1)
    (h2 : s.plc.comp[g2] = some e2) (hs1 : e1.second = false) (hs2 : e2.second = true)
    (hp1 : e1.partner = some g2) (hp2 : e2.partner = some g1) (ht1 : e1.tail = some .issued)
    (hres : e1.result = none) (hr : s.intake.results.length < 32) (hw : s.intake.waiters = [])
    (hwhich : tg = g1 ∧ e = e1 ∧ o = e2 ∨ tg = g2 ∧ e = e2 ∧ o = e1) :
    u.tryAssemble tg =
        (match assemble (e1.after (tg = g1) y) (some (e2.after (tg = g2) y)) with
          | none => u
          | some r => u.resulted e1.stream r g1) ∧
      (u.plc.freeParts g1).comp = put (put s.plc.comp g1 none) g2 none := by
  obtain ⟨hcomp, hu1, hu2⟩ := hd.pair hne h1 h2 hs2 ht1 hwhich
  have htg : tg = g1 ∨ tg = g2 := hwhich.imp (fun h => h.1) (fun h => h.1)
  have hparts {g : DTag} (hg : g = g1 ∨ g = g2) := parts_pair hu1 hu2 (by rw [after_eq]; exact hs1)
    (by rw [after_eq]; exact hs2) (by rw [after_eq]; exact hp1) (by rw [after_eq]; exact hp2) hg
  refine ⟨(tryAssemble_room (hparts htg) (by rw [after_eq]; exact hres) (hd.room hr hw)).trans ?_, ?_⟩
  · rw [show (e1.after (tg = g1) y).stream = e1.stream by rw [after_eq]]
    rfl
  · rw [freeParts_pair (hparts (.inl rfl)), hcomp]
    exact freed_pair htg hne

/-- R70: the result of a split descriptor, from the outcome that has come and the one there was. -/
theorem assemble_after (hne : g1 ≠ g2) (hy : y ≠ .outstanding) (ho : o.outcome ≠ .outstanding)
    (hwhich : tg = g1 ∧ e = e1 ∧ o = e2 ∨ tg = g2 ∧ e = e2 ∧ o = e1) :
    assemble (e1.after (tg = g1) y) (some (e2.after (tg = g2) y)) = some
      { tag := e1.tag, status := if y = .failed ∨ o.outcome = .failed then .placeFailed else .placed,
        stream := some e1.stream,
        extents :=
          [(e1.extent, if tg = g1 then y == .failed else e1.outcome == .failed),
           (e2.extent, if tg = g2 then y == .failed else e2.outcome == .failed)] } := by
  rcases hwhich with ⟨rfl, rfl, rfl⟩ | ⟨rfl, rfl, rfl⟩
  · rw [assemble_pair (by rw [after_outcome, if_pos rfl]; exact hy) (by rw [after_outcome, if_neg hne]; exact ho)]
    simp only [after_eq, CompEntry.listed, if_true, hne, if_false]
  · rw [assemble_pair (by rw [after_outcome, if_neg hne.symm]; exact ho) (by rw [after_outcome, if_pos rfl]; exact hy)]
    simp only [after_eq, CompEntry.listed, if_true, hne.symm, if_false, or_comm]

theorem assemble_after_early (hne : g1 ≠ g2) (ho : o.outcome = .outstanding)
    (hwhich : tg = g1 ∧ e = e1 ∧ o = e2 ∨ tg = g2 ∧ e = e2 ∧ o = e1) :
    assemble (e1.after (tg = g1) y) (some (e2.after (tg = g2) y)) = none := by
  rcases hwhich with ⟨rfl, -, rfl⟩ | ⟨rfl, -, rfl⟩
  · exact assemble_early (.inr (by rw [after_outcome, if_neg hne]; exact ho))
  · exact assemble_early (.inl (by rw [after_outcome, if_neg hne.symm]; exact ho))

end Pair

/-- Settles O35: a PLACE-DONE, by the entry it completes. -/
theorem placeDoneTaken : Obligations.PlaceDoneTaken := by
  refine ⟨fun tg e x s hs hl he ho hsec hpart htail hres hr hw hx => ⟨?_, ?_⟩,
    fun tg e s hs hl he ho hsec hpart hres hr hw => ⟨fun htail => ⟨?_, ?_⟩, fun why htail => ⟨?_, ?_⟩⟩,
    fun g1 g2 tg e1 e2 e o x y s hs hl hne h1 h2 hs1 hs2 hp1 hp2 ht1 hres hstr hr hw hwhich ho hxy => ?_⟩
  · exact placed_only hs hl he ho hsec hpart htail hres hr hw hx
  · obtain ⟨t, hexec, hresults, hcomp, hcount, hfault, -, hrep, hqueue, hframe⟩ :=
      failed_answered hs hl he ho hsec hpart hres hr hw (.inl htail)
    exact ⟨t, hexec, hresults, hcomp, hcount, hfault, hrep, hqueue, hframe⟩
  · exact ok_waits hs hl he ho hsec hpart hres hr hw htail
  · obtain ⟨t, hexec, hresults, hcomp, hcount, -, hpend, -, hqueue, hframe⟩ :=
      failed_answered hs hl he ho hsec hpart hres hr hw (.inr (.inl htail))
    exact ⟨t, hexec, hresults, hcomp, hcount, hpend htail, hqueue, hframe⟩
  · have hasm : assemble { e with outcome := .ok } none = some
        { tag := e.tag, status := .refused why, stream := some e.stream, extents := [(e.extent, false)] } := by
      simp only [assemble, htail, CompEntry.listed]
      rfl
    obtain ⟨v, hexec, -, hresults, hcomp, hctx, hqueue, hframe⟩ :=
      ok_answered hs hl he ho hsec hpart hres hr hw hasm
    refine ⟨_, hexec, hresults, hcomp, fun h => (hctx h).trans ?_, hqueue, hframe⟩
    change Counters.refusing _ 1 = _
    rw [Counters.refusing_one, Counters.refusing_one]
  · obtain ⟨t, hexec, hresults, hcomp, hcount, -, -, -, hqueue, hframe⟩ :=
      failed_answered hs hl he ho hsec hpart hres hr hw (.inr (.inr ⟨_, htail⟩))
    exact ⟨t, hexec, hresults, hcomp, hcount, hqueue, hframe⟩
  · have he : s.plc.comp[tg] = some e := by
      rcases hwhich with ⟨rfl, rfl, -⟩ | ⟨rfl, rfl, -⟩
      · exact h1
      · exact h2
    have hes : e.stream = e1.stream := by
      rcases hwhich with ⟨-, rfl, -⟩ | ⟨-, rfl, -⟩
      · rfl
      · exact hstr.symm
    obtain ⟨u, t, hexec, hd, hwraps, hcounted⟩ := exec_recorded hs hl he ho hxy
    obtain ⟨hcomp, -⟩ := hd.pair hne h1 h2 hs2 ht1 hwhich
    obtain ⟨hasm, hfree⟩ := hd.assembles hne h1 h2 hs1 hs2 hp1 hp2 ht1 hres hr hw hwhich
    rw [← hes] at hasm
    have hxok : x = .ok ↔ y = .ok := by
      rcases hxy with ⟨rfl, rfl⟩ | ⟨rfl, rfl⟩
      · exact ⟨fun _ => rfl, fun _ => rfl⟩
      · exact ⟨nofun, nofun⟩
    refine ⟨fun hout => ?_, fun hout => ?_⟩
    · rw [assemble_after_early hne hout hwhich] at hasm
      dsimp only at hasm
      rw [hasm] at hwraps
      obtain ⟨hresults, -, hctx, hframe⟩ := answered_early hd hwraps
      refine ⟨_, hexec, hresults, hwraps.comp.trans hcomp, fun h => (hcounted h).congr rfl (by rw [settled_flt, hwraps.counts]), fun h => ?_,
        hframe⟩
      simp only [hxok]
      simp only [hes] at hctx
      exact hctx h
    · have hy : y ≠ .outstanding := by
        rcases hxy with ⟨-, rfl⟩ | ⟨-, rfl⟩ <;> exact nofun
      rw [assemble_after hne hy hout hwhich] at hasm
      dsimp only at hasm
      rw [hasm] at hwraps
      obtain ⟨hresults, hqueue, hcomp', hcount, hctx, hframe⟩ := answered_result hd hwraps
      refine ⟨_, hexec, hresults, hcomp'.trans hfree, fun h => hcount (hcounted h), fun h hok => ?_, hqueue, hframe⟩
      have hcounters := hd.counters
      simp only [hes] at hctx hcounters
      refine (hctx h).1.trans ?_
      rw [hcounters, hxok.1 hok]
      cases hoo : o.outcome with
      | outstanding => exact absurd hoo hout
      | ok => rfl
      | failed => rfl

end Sys2Proof.Machine
end

