-- ==== Sys2Proof/Proofs/FrameReadBack.lean ====
section
/-! SUPPORT. A frame read back from its bytes (Tables 5-1 and 5-2, R79, R82), and from the line (R77, R81). -/

namespace Sys2Proof.Machine

/-! ### Fields (Table 5-2) -/

theorem byteOf_nat {n : Nat} (h : n < 256) : (byteOf n).toNat = n := by
  rw [byteOf, BitVec.toNat_ofNat]
  exact Nat.mod_eq_of_lt h

theorem stationOf_byteOf (st : Station) : stationOf (byteOf st) = some st := by
  revert st
  decide

theorem slotOf_byteOf (k : Slot) : slotOf (byteOf k) = some k := by
  revert k
  decide

theorem tagOf_byteOf (t : ReqTag) : tagOf (byteOf t) = some t := by
  revert t
  decide

/-- A requested quota with the adopt-disabled bit, as ROLL and JOIN carry them. -/
theorem quotaByte_reads (q : BitVec 4) (a : Bool) :
    (byteOf (q.toNat + 16 * a.toNat)).toNat % 16 = q.toNat ∧
      ((byteOf (q.toNat + 16 * a.toNat)).toNat / 16 % 2 == 1) = a := by
  revert q a
  decide

theorem quotaOf_toNat {q : BitVec 4} (h1 : 1 ≤ q.toNat) (h12 : q.toNat ≤ 12) : quotaOf q.toNat = some q := by
  rw [quotaOf, if_pos ⟨h1, h12⟩, BitVec.ofNat_toNat, BitVec.setWidth_eq]

theorem paramsOf_bytes (p : Params) : paramsOf p.b (byteOf (p.c.toNat / 256)) (byteOf p.c.toNat) p.p = p := by
  rw [paramsOf, ofBe16_be16]

/-- One byte of a SEAL's list. -/
theorem sealEntryOf_byteOf {e : SealEntry} (h1 : 1 ≤ e.quota.toNat) (h12 : e.quota.toNat ≤ 12) :
    sealEntryOf (byteOf (32 * e.station + 2 * e.quota.toNat + e.adoptDis.toNat)) = some e := by
  obtain ⟨st, q, a⟩ := e
  have hq := q.isLt
  have hst := st.isLt
  have ha : a.toNat ≤ 1 := Bool.toNat_le a
  have hbyte : (byteOf (32 * st + 2 * q.toNat + a.toNat)).toNat = 32 * st + 2 * q.toNat + a.toNat :=
    byteOf_nat (by omega)
  have hquota : (32 * st + 2 * q.toNat + a.toNat) / 2 % 16 = q.toNat := by omega
  have hstation : lowStation ((32 * st + 2 * q.toNat + a.toNat) / 32) = st := Fin.ext (by
    change (32 * (st : Nat) + 2 * q.toNat + a.toNat) / 32 % 8 = st
    omega)
  have hadopt : ((32 * (st : Nat) + 2 * q.toNat + a.toNat) % 2 == 1) = a := by
    cases a <;> simp <;> omega
  unfold sealEntryOf
  dsimp only at h1 h12 ⊢
  rw [hbyte, hquota, quotaOf_toNat h1 h12, hstation, hadopt]
  rfl

/-- The list of a SEAL, behind the entries read before. -/
theorem sealOf_bytes (p : Params) {l : List SealEntry}
    (h : ∀ e ∈ l, 1 ≤ e.quota.toNat ∧ e.quota.toNat ≤ 12) (acc : List SealEntry) :
    sealOf l.length
      (l.map (fun e => byteOf (32 * e.station + 2 * e.quota.toNat + e.adoptDis.toNat)) ++ p.bytes) acc =
        some (.seal (acc ++ l) p) := by
  induction l generalizing acc with
  | nil =>
    change some (Body.seal acc (paramsOf p.b (byteOf (p.c.toNat / 256)) (byteOf p.c.toNat) p.p)) = _
    rw [paramsOf_bytes, List.append_nil]
  | cons e l ih =>
    obtain ⟨h1, h12⟩ := h e List.mem_cons_self
    rw [List.length_cons, List.map_cons, List.cons_append, sealOf, sealEntryOf_byteOf h1 h12, Option.bind_some,
      ih (fun x hx => h x (List.mem_cons_of_mem _ hx)), List.append_assoc]
    rfl

theorem shutCause_code (c : ShutCause) : ShutCause.ofCode (byteOf c.code).toNat = some c := by
  cases c <;> rfl

theorem shutOutcome_code (o : ShutOutcome) : ShutOutcome.ofCode (byteOf o.code).toNat = some o := by
  cases o <;> rfl

theorem runOutcome_code (o : RunOutcome) : RunOutcome.ofCode (byteOf o.code).toNat = some o := by
  cases o <;> rfl

theorem deferReason_code (r : DeferReason) : DeferReason.ofCode (byteOf r.code).toNat = some r := by
  cases r <;> rfl

/-- The tag and requester of a RECALLED shut. -/
theorem answerByte_reads (t : ReqTag) (r : Station) :
    highTag (byteOf (16 * t + r)) = t ∧ lowStation (byteOf (16 * t + r)).toNat = r := by
  revert t r
  decide

/-- The flags of a BEACON. -/
theorem beaconByte_reads (c : Bool) (m : Mode) :
    ((byteOf (c.toNat + (match m with | .run => 0 | .hold => 2))).toNat % 2 == 1) = c ∧
      (if (byteOf (c.toNat + (match m with | .run => 0 | .hold => 2))).toNat / 2 % 2 = 1 then Mode.hold else .run) =
        m := by
  cases c <;> cases m <;> exact ⟨rfl, rfl⟩

theorem claimByte_reads (k : Slot) (kd : SlotKind) :
    Body.parse .claim [byteOf k, match kd with | .normal c => byteOf c | .mixed => byteOf 128] =
      some (.claim k kd) := by
  cases kd with
  | mixed =>
    simp only [Body.parse, slotOf_byteOf, Option.bind_some]
    rfl
  | normal c =>
    have hc : (byteOf c).toNat = c := byteOf_nat (by omega)
    have hlow : (c : Nat) / 128 ≠ 1 := by omega
    have hmod : (c : Nat) % 4 = c := by omega
    simp only [Body.parse, slotOf_byteOf, Option.bind_some, hc, hlow, if_false, hmod]

/-! ### Bodies (Table 5-2) -/

/-- Table 5-2: the body of a well-formed frame is read back from its bytes. -/
theorem parse_bodyBytes {f : Frame} (h : f.wellFormed = true) : Body.parse f.body.kind f.body.bytes = some f.body := by
  obtain ⟨sender, dest, base, body⟩ := f
  simp only [Frame.wellFormed, Bool.and_eq_true] at h
  obtain ⟨-, h⟩ := h
  refine ?body
  cases body
  case body.roll st q a p =>
    simp only [Bool.and_eq_true, decide_eq_true_eq] at h
    obtain ⟨hq, ha⟩ := quotaByte_reads q a
    change (stationOf (byteOf st)).bind _ = _
    rw [stationOf_byteOf, Option.bind_some, hq, quotaOf_toNat h.1 h.2, Option.map_some, ha, paramsOf_bytes]
  case body.join st q a p =>
    simp only [Bool.and_eq_true, decide_eq_true_eq] at h
    obtain ⟨hq, ha⟩ := quotaByte_reads q a
    change (stationOf (byteOf st)).bind _ = _
    rw [stationOf_byteOf, Option.bind_some, hq, quotaOf_toNat h.1 h.2, Option.map_some, ha, paramsOf_bytes]
  case body.seal l p =>
    simp only [Bool.and_eq_true, decide_eq_true_eq, List.all_eq_true] at h
    obtain ⟨⟨h1, h8⟩, hq⟩ := h
    have hlen : (byteOf l.length).toNat = l.length := byteOf_nat (by omega)
    change (if 1 ≤ (byteOf l.length).toNat ∧ (byteOf l.length).toNat ≤ 8 then
      sealOf (byteOf l.length).toNat _ [] else none) = _
    rw [hlen, if_pos ⟨h1, h8⟩]
    exact sealOf_bytes p hq []
  case body.beacon st g c m =>
    obtain ⟨hc, hm⟩ := beaconByte_reads c m
    change (stationOf (byteOf st)).map _ = _
    rw [stationOf_byteOf, Option.map_some, ofBe32_be32]
    exact congrArg some (congrArg₂ (Body.beacon st g) hc hm)
  case body.leave st =>
    change (stationOf (byteOf st)).map _ = _
    rw [stationOf_byteOf, Option.map_some]
  case body.absent st =>
    change (stationOf (byteOf st)).map _ = _
    rw [stationOf_byteOf, Option.map_some]
  case body.claim k kd => exact claimByte_reads k kd
  case body.shut k c a =>
    cases a with
    | none =>
      have hc : ¬ c = .recalled := by simpa using h
      change (slotOf (byteOf k)).bind _ = _
      rw [slotOf_byteOf, Option.bind_some, shutCause_code, Option.bind_some, if_neg hc]
    | some x =>
      obtain ⟨t, r⟩ := x
      have hc : c = .recalled := by simpa using h
      obtain ⟨ht, hr⟩ := answerByte_reads t r
      change (slotOf (byteOf k)).bind _ = _
      rw [slotOf_byteOf, Option.bind_some, shutCause_code, Option.bind_some, if_pos hc, ht, hr]
  case body.shutDone k o =>
    change (slotOf (byteOf k)).bind _ = _
    rw [slotOf_byteOf, Option.bind_some, shutOutcome_code, Option.map_some]
  case body.restore k =>
    change (slotOf (byteOf k)).map _ = _
    rw [slotOf_byteOf, Option.map_some]
  case body.takeover st =>
    change (stationOf (byteOf st)).map _ = _
    rw [stationOf_byteOf, Option.map_some]
  case body.takeoverEnd st o =>
    change (stationOf (byteOf st)).bind _ = _
    rw [stationOf_byteOf, Option.bind_some, runOutcome_code, Option.map_some]
  case body.recall t r g =>
    change (tagOf (byteOf t)).bind _ = _
    rw [tagOf_byteOf, Option.bind_some, stationOf_byteOf, Option.bind_some, stationOf_byteOf, Option.map_some]
  case body.defer t why =>
    change (tagOf (byteOf t)).bind _ = _
    rw [tagOf_byteOf, Option.bind_some, deferReason_code, Option.map_some]
  case body.catchupAsk t a =>
    change (tagOf (byteOf t)).bind _ = _
    rw [tagOf_byteOf, Option.bind_some, stationOf_byteOf, Option.map_some]
  case body.catchupOffer t a r =>
    change (tagOf (byteOf t)).bind _ = _
    rw [tagOf_byteOf, Option.bind_some, stationOf_byteOf, Option.bind_some, stationOf_byteOf, Option.map_some]
  case body.snapshot t p content =>
    simp only [Bool.and_eq_true, beq_iff_eq] at h
    obtain ⟨hlen, hhead⟩ := h
    cases content with
    | nil => cases hhead
    | cons x rest =>
      cases hhead
      have ht := t.isLt
      have hp := p.isLt
      have hx : (byteOf (16 * t + p)).toNat = 16 * t + p := byteOf_nat (by omega)
      have hmod : (16 * (t : Nat) + p) % 8 = p := by omega
      have htag : highTag (byteOf (16 * t + p)) = t := Fin.ext (by
        change (byteOf (16 * t + p)).toNat / 16 % 16 = t
        rw [hx]
        omega)
      have hrest : rest.length = if (p : Nat) < 6 then 45 else 16 := by
        rw [List.length_cons] at hlen
        split at hlen <;> split <;> omega
      change (if h : (byteOf (16 * t + p)).toNat % 8 < 7 then _ else none) = _
      simp only [hx, hmod, hp, dif_pos, hrest, if_true, htag]
  case body.snapshotEnd t g n sum =>
    change (tagOf (byteOf t)).map _ = _
    rw [tagOf_byteOf, Option.map_some, ofBe32_be32, ofBe16_be16]

/-- Table 5-2: no body is empty, and the longest is a part of the directory. -/
theorem bodyBytes_length {f : Frame} (h : f.wellFormed = true) :
    1 ≤ f.body.bytes.length ∧ f.body.bytes.length ≤ 46 := by
  obtain ⟨sender, dest, base, body⟩ := f
  simp only [Frame.wellFormed, Bool.and_eq_true] at h
  obtain ⟨-, h⟩ := h
  refine ?body
  cases body
  case body.seal l p =>
    simp only [Bool.and_eq_true, decide_eq_true_eq] at h
    simp only [Body.bytes, Params.bytes, be16, List.length_append, List.length_cons, List.length_nil, List.length_map]
    omega
  case body.shut k c a =>
    cases a <;> simp [Body.bytes]
  case body.snapshot t p content =>
    simp only [Bool.and_eq_true, beq_iff_eq] at h
    have hlen := h.1
    change 1 ≤ content.length ∧ content.length ≤ 46
    split at hlen <;> omega
  all_goals simp [Body.bytes, Params.bytes, be16, be32]

/-! ### The envelope (Table 5-1, R80) -/

/-- Table 5-1: the number that byte 0 carries. -/
theorem envelopeByte_nat (sender : Station) (dest : Option Station) (hasBase : Bool) :
    (envelopeByte sender dest hasBase).toNat =
      32 * sender + (match dest with | none => 16 | some d => 2 * d) + hasBase.toNat := by
  have hb : hasBase.toNat ≤ 1 := Bool.toNat_le hasBase
  have hs := sender.isLt
  refine byteOf_nat ?_
  cases dest with
  | none =>
    dsimp only
    omega
  | some d =>
    have hd := d.isLt
    dsimp only
    omega

theorem envelopeByte_reads (sender : Station) (dest : Option Station) (hasBase : Bool) :
    lowStation ((envelopeByte sender dest hasBase).toNat / 32) = sender ∧
      ((envelopeByte sender dest hasBase).toNat % 2 == 1) = hasBase ∧
      ∀ k : Kind, dest.isSome = k.addressed → destOf k (envelopeByte sender dest hasBase) = some dest := by
  have hbyte := envelopeByte_nat sender dest hasBase
  have hb : hasBase.toNat ≤ 1 := Bool.toNat_le hasBase
  have hs := sender.isLt
  generalize envelopeByte sender dest hasBase = b at *
  refine ⟨Fin.ext ?_, ?_, fun k hk => ?_⟩
  · change b.toNat / 32 % 8 = sender
    cases dest with
    | none =>
      dsimp only at hbyte
      omega
    | some d =>
      have hd := d.isLt
      dsimp only at hbyte
      omega
  · have hbit : b.toNat % 2 = hasBase.toNat := by
      cases dest <;> dsimp only at hbyte <;> omega
    rw [hbit]
    cases hasBase <;> rfl
  · unfold destOf
    cases dest with
    | none =>
      dsimp only at hbyte
      rw [if_neg (by rw [← hk]; decide), if_pos ⟨by omega, by omega⟩]
    | some d =>
      have hd := d.isLt
      dsimp only at hbyte
      have hlow : lowStation (b.toNat / 2) = d := Fin.ext (by
        change b.toNat / 2 % 8 = d
        omega)
      have haddr : k.addressed = true := hk.symm
      rw [if_pos haddr, if_pos (by omega), hlow]

/-- R82: the body behind its length, before the check value. -/
theorem parseRest_bytes {f : Frame} (h : f.wellFormed = true) (w : BitVec 16) :
    parseRest f.body.kind (byteOf f.body.bytes.length :: (f.body.bytes ++ be16 w)) = some f.body := by
  obtain ⟨-, hlen⟩ := bodyBytes_length h
  have hbyte : (byteOf f.body.bytes.length).toNat = f.body.bytes.length := byteOf_nat (by omega)
  unfold parseRest
  dsimp only
  rw [hbyte, if_pos ⟨by simp [be16], by omega⟩, List.take_left]
  exact parse_bodyBytes h

/-- R80, R82: a well-formed frame is read back from its bytes. -/
theorem parse_bytes {f : Frame} (h : f.wellFormed = true) : Frame.parse f.bytes = some f := by
  have hrest := parseRest_bytes h (checkValue f.checkedBytes)
  have hform := h
  simp only [Frame.wellFormed, Bool.and_eq_true, beq_iff_eq] at hform
  obtain ⟨⟨hbase, hdest⟩, -⟩ := hform
  obtain ⟨hsender, hbit, hdestOf⟩ := envelopeByte_reads f.sender f.dest f.base.isSome
  have hto := hdestOf f.body.kind hdest
  unfold Frame.bytes Frame.checkedBytes at *
  generalize checkValue _ = w at *
  cases hb : f.base with
  | none =>
    rw [hb] at hbase hsender hbit hto
    have hk : f.body.kind.hasBase = false := hbase.symm
    change (Kind.ofCode (byteOf f.body.kind.code).toNat).bind _ = _
    rw [Kind.code_toNat, Kind.ofCode_code, Option.bind_some, hto, Option.bind_some, hbit, hk, if_neg (by decide),
      if_neg (by decide)]
    change (parseRest f.body.kind (byteOf f.body.bytes.length :: (f.body.bytes ++ be16 w))).map _ = _
    rw [hrest, Option.map_some, hsender, ← hb]
  | some g =>
    rw [hb] at hbase hsender hbit hto
    have hk : f.body.kind.hasBase = true := hbase.symm
    change (Kind.ofCode (byteOf f.body.kind.code).toNat).bind _ = _
    rw [Kind.code_toNat, Kind.ofCode_code, Option.bind_some, hto, Option.bind_some, hbit, hk, if_neg (by simp),
      if_pos rfl]
    change (parseRest f.body.kind (byteOf f.body.bytes.length :: (f.body.bytes ++ be16 w))).map _ = _
    rw [hrest, Option.map_some, hsender, ofBe32_be32, ← hb]

theorem frameBytes_length {f : Frame} (h : f.wellFormed = true) : 6 ≤ f.bytes.length ∧ f.bytes.length ≤ 55 := by
  obtain ⟨h1, h46⟩ := bodyBytes_length h
  have hlen : f.bytes.length = 5 + (if f.base.isSome then 4 else 0) + f.body.bytes.length := by
    cases hb : f.base <;> simp [Frame.bytes, Frame.checkedBytes, be16, be32, hb] <;> omega
  split at hlen <;> omega

/-- R82: a well-formed frame's bits are judged CLEAN. -/
theorem judge_bytes {f : Frame} (h : f.wellFormed = true) : judge (f.bytes.flatMap byteBits) = .clean f := by
  obtain ⟨h6, -⟩ := frameBytes_length h
  have hagrees : checkAgrees f.bytes = true := checkAgrees_append f.checkedBytes
  unfold judge
  rw [bitsBytes_flatMap, flatMap_byteBits_length, if_pos ⟨by omega, by omega, hagrees⟩, parse_bytes h]

/-- Settles O8: a well-formed frame comes back from the line. -/
theorem frameReadsBackFromTheLine : Obligations.FrameReadsBackFromTheLine := by
  intro f h
  obtain ⟨-, h55⟩ := frameBytes_length h
  refine (receive_stuffed _ ?_).trans ?_
  · rw [flatMap_byteBits_length]
    omega
  · rw [judge_bytes h]

end Sys2Proof.Machine
end

