-- ==== Sys2Proof/Proofs/SnapshotReadBack.lean ====
section
/-! SUPPORT. A replica read back from the seven parts of its snapshot (Table 5-3). -/

namespace Sys2Proof.Machine

/-! ### Directory entries (Table 5-3) -/

/-- Table 5-3: kind and class as a number, in units of bit 36. -/
def SlotKind.field : SlotKind → Nat
  | .normal c => c
  | .mixed => 4

theorem kindBits_eq (kd : SlotKind) : DirEntry.pack.kindBits kd = kd.field * 2 ^ 36 := by
  cases kd <;> rfl

theorem SlotKind.field_le (kd : SlotKind) : kd.field ≤ 4 := by
  cases kd with
  | normal c => exact c.isLt.le
  | mixed => exact le_refl 4

theorem SlotKind.field_reads (kd : SlotKind) :
    (if kd.field / 4 = 1 then SlotKind.mixed else .normal ⟨kd.field % 4, Nat.mod_lt _ (by decide)⟩) = kd := by
  cases kd with
  | mixed => rfl
  | normal c =>
    revert c
    decide

/-- Table 5-3: the fields of an entry of 45 bits. -/
theorem entryFields {st h m low : Nat} (hst : st < 8) (hh : h < 8) (hm : m ≤ 4) (hlow : low < 2 ^ 36) {n : Nat}
    (hn : n = st * 2 ^ 42 + h * 2 ^ 39 + m * 2 ^ 36 + low) :
    n < 2 ^ 45 ∧ n / 2 ^ 42 % 8 = st ∧ n / 2 ^ 39 % 8 = h ∧ n / 2 ^ 38 % 2 = m / 4 ∧ n / 2 ^ 36 % 4 = m % 4 ∧
      n / 2 ^ 35 % 2 = low / 2 ^ 35 ∧ n / 2 ^ 32 % 8 = low / 2 ^ 32 % 8 ∧ n % 2 ^ 32 = low % 2 ^ 32 := by
  subst hn
  refine ⟨?_, ?_, ?_, ?_, ?_, ?_, ?_, ?_⟩ <;> omega

theorem snapshotCause_code (c : ShutCause) : snapshotCause c.code = c := by
  cases c <;> rfl

theorem shutCode_lt (c : ShutCause) : c.code < 8 := by
  cases c <;> decide

theorem ofNat_field (g : Gen) : BitVec.ofNat 32 (g.toNat % 2 ^ 32) = g := by
  rw [Nat.mod_eq_of_lt g.isLt, BitVec.ofNat_toNat, BitVec.setWidth_eq]

/-- Table 5-3: an entry is read back from its 45 bits. -/
theorem unpack_pack (e : DirEntry) : e.pack < 2 ^ 45 ∧ DirEntry.unpack e.pack = some e := by
  cases e with
  | unfunded => exact ⟨by decide, rfl⟩
  | free => exact ⟨by decide, rfl⟩
  | quarantined => exact ⟨by decide, rfl⟩
  | opened h k g =>
    have hg := g.isLt
    obtain ⟨hlt, hst, hh, hmix, hcl, -, -, hgen⟩ := entryFields (st := 2) (by omega) h.isLt k.field_le
      (low := g.toNat) (by omega) (n := (DirEntry.opened h k g).pack) (by rw [DirEntry.pack, kindBits_eq])
    refine ⟨hlt, ?_⟩
    unfold DirEntry.unpack
    simp only [hst, hh, hmix, hcl, hgen, k.field_reads, ofNat_field]
  | closing h k g c a =>
    have hg := g.isLt
    have hc := shutCode_lt c
    have ha := a.isLt
    obtain ⟨hlt, hst, hh, hmix, hcl, hat, hcause, hgen⟩ := entryFields (st := 3) (by omega) h.isLt k.field_le
      (low := a * 2 ^ 35 + c.code * 2 ^ 32 + g.toNat) (by omega) (n := (DirEntry.closing h k g c a).pack) (by
        rw [DirEntry.pack, kindBits_eq]
        omega)
    have hat' : (a * 2 ^ 35 + c.code * 2 ^ 32 + g.toNat) / 2 ^ 35 = a := by omega
    have hcause' : (a * 2 ^ 35 + c.code * 2 ^ 32 + g.toNat) / 2 ^ 32 % 8 = c.code := by omega
    have hgen' : (a * 2 ^ 35 + c.code * 2 ^ 32 + g.toNat) % 2 ^ 32 = g.toNat % 2 ^ 32 := by omega
    refine ⟨hlt, ?_⟩
    unfold DirEntry.unpack
    simp only [hst, hh, hmix, hcl, hat, hcause, hgen, hat', hcause', hgen', k.field_reads, ofNat_field,
      snapshotCause_code]
  | orphaned f k g a =>
    have hg := g.isLt
    have ha := a.isLt
    obtain ⟨hlt, hst, hh, hmix, hcl, hat, -, hgen⟩ := entryFields (st := 4) (by omega) f.isLt k.field_le
      (low := a * 2 ^ 35 + g.toNat) (by omega) (n := (DirEntry.orphaned f k g a).pack) (by
        rw [DirEntry.pack, kindBits_eq]
        omega)
    have hat' : (a * 2 ^ 35 + g.toNat) / 2 ^ 35 = a := by omega
    have hgen' : (a * 2 ^ 35 + g.toNat) % 2 ^ 32 = g.toNat % 2 ^ 32 := by omega
    refine ⟨hlt, ?_⟩
    unfold DirEntry.unpack
    simp only [hst, hh, hmix, hcl, hat, hgen, hat', hgen', k.field_reads, ofNat_field]

/-! ### Numbers as bytes -/

theorem bytesNat_append (l : List Byte) (b : Byte) : bytesNat (l ++ [b]) = 256 * bytesNat l + b.toNat := by
  unfold bytesNat
  rw [List.foldl_append]
  rfl

theorem bytesNat_cons (b : Byte) (l : List Byte) : bytesNat (b :: l) = b.toNat * 256 ^ l.length + bytesNat l := by
  induction l using List.reverseRecOn with
  | nil => simp [bytesNat]
  | append_singleton l c ih =>
    rw [← List.cons_append, bytesNat_append, bytesNat_append, ih, List.length_append, List.length_singleton, pow_succ]
    ring

theorem natBytes_length (n x : Nat) : (natBytes n x).length = n := by
  induction n with
  | zero => rfl
  | succ n ih => rw [natBytes, List.length_cons, ih]

/-- A number is read back from as many bytes as it needs. -/
theorem bytesNat_natBytes (n x : Nat) : bytesNat (natBytes n x) = x % 256 ^ n := by
  induction n with
  | zero => simp [natBytes, bytesNat, Nat.mod_one]
  | succ n ih =>
    have hb : (byteOf (x / 256 ^ n)).toNat = x / 256 ^ n % 256 := by
      rw [byteOf, BitVec.toNat_ofNat]
    rw [natBytes, bytesNat_cons, natBytes_length, ih, hb, pow_succ, Nat.mod_mul]
    ring

/-- The digits of a number written from its most significant one on. -/
theorem digit_reads {B : Nat} {f : Nat → Nat} (hf : ∀ j, f j < B) (n : Nat) :
    (List.range n).foldl (fun x j => x * B + f j) 0 < B ^ n ∧
      ∀ j, j < n → (List.range n).foldl (fun x j => x * B + f j) 0 / B ^ (n - 1 - j) % B = f j := by
  induction n with
  | zero => exact ⟨by simp, fun j hj => absurd hj (Nat.not_lt_zero j)⟩
  | succ n ih =>
    obtain ⟨hlt, hdigit⟩ := ih
    rw [List.range_succ, List.foldl_append, List.foldl_cons, List.foldl_nil]
    generalize (List.range n).foldl (fun x j => x * B + f j) 0 = F at *
    have hB : 0 < B := Nat.pos_of_ne_zero fun h => absurd (hf 0) (by omega)
    refine ⟨?_, fun j hj => ?_⟩
    · calc F * B + f n < F * B + B := Nat.add_lt_add_left (hf n) _
        _ = (F + 1) * B := by ring
        _ ≤ B ^ n * B := Nat.mul_le_mul_right B hlt
        _ = B ^ (n + 1) := (pow_succ B n).symm
    · by_cases hjn : j = n
      · subst hjn
        rw [Nat.add_sub_cancel, Nat.sub_self, pow_zero, Nat.div_one, Nat.add_comm, Nat.add_mul_mod_self_right,
          Nat.mod_eq_of_lt (hf j)]
      · have hj' : j < n := by omega
        have hexp : n + 1 - 1 - j = (n - 1 - j) + 1 := by omega
        have hdiv : (F * B + f n) / B = F := by
          rw [Nat.add_comm, Nat.add_mul_div_right _ _ hB, Nat.div_eq_of_lt (hf n), Nat.zero_add]
        rw [hexp, pow_succ', ← Nat.div_div_eq_div_mul, hdiv]
        exact hdigit j hj'

/-! ### The directory (parts 0 to 5) -/

/-- Table 5-3: the 45 bits a part holds for an entry. -/
def Replica.packAt (r : Replica) (i : Nat) : Nat := match r.dir[i]? with | some e => e.pack | none => 0

theorem packAt_lt (r : Replica) (i : Nat) : r.packAt i < 2 ^ 45 := by
  unfold Replica.packAt
  cases r.dir[i]? with
  | none => decide
  | some e => exact (unpack_pack e).1

theorem unpack_packAt (r : Replica) {i : Nat} (hi : i < 48) : DirEntry.unpack (r.packAt i) = r.dir[i]? := by
  unfold Replica.packAt
  rw [Vector.getElem?_eq_getElem hi]
  exact (unpack_pack _).2

theorem unpackPart_packPart (r : Replica) {k : Nat} (hk : k < 6) :
    unpackPart (packPart r k) = (List.range 8).map fun j => r.dir[8 * k + j]? := by
  obtain ⟨hlt, hdigit⟩ := digit_reads (f := fun j => r.packAt (8 * k + j)) (fun j => packAt_lt r _) 8
  have hpart : packPart r k =
      natBytes 45 ((List.range 8).foldl (fun x j => x * 2 ^ 45 + r.packAt (8 * k + j)) 0) := rfl
  rw [hpart]
  unfold unpackPart
  rw [bytesNat_natBytes]
  generalize (List.range 8).foldl (fun x j => x * 2 ^ 45 + r.packAt (8 * k + j)) 0 = F at *
  have hpow : (256 : Nat) ^ 45 = (2 ^ 45) ^ 8 := by norm_num
  rw [hpow, Nat.mod_eq_of_lt hlt]
  refine List.map_congr_left fun j hj => ?_
  have hj8 : j < 8 := List.mem_range.1 hj
  rw [pow_mul, show 7 - j = 8 - 1 - j from rfl, hdigit j hj8]
  exact unpack_packAt r (by omega)

theorem snapshotParts_dir (tag : ReqTag) (r : Replica) :
    (snapshotParts tag r).take 6 = (List.range 6).map fun k => byteOf (16 * tag + k) :: packPart r k := rfl

/-- The entries of six parts, in the order of their slots. -/
theorem entries_inOrder {α : Type} (f : Nat → α) :
    ((List.range 6).flatMap fun k => (List.range 8).map fun j => f (8 * k + j)) = (List.range 48).map f := rfl

theorem unpackParts_dir (tag : ReqTag) (r : Replica) :
    (((snapshotParts tag r).take 6).flatMap fun p => unpackPart (p.drop 1)) =
      (List.range 48).map fun i => r.dir[i]? := by
  rw [snapshotParts_dir, List.flatMap_map, ← entries_inOrder]
  refine List.flatMap_congr fun k hk => ?_
  exact unpackPart_packPart r (List.mem_range.1 hk)

theorem unpackDir_parts (tag : ReqTag) (r : Replica) : unpackDir (snapshotParts tag r) = some r.dir := by
  unfold unpackDir
  rw [unpackParts_dir]
  dsimp only
  have hsome : ((List.range 48).map fun i => r.dir[i]?).length = 48 ∧
      ((List.range 48).map fun i => r.dir[i]?).all Option.isSome = true := by
    refine ⟨by simp, List.all_eq_true.2 fun x hx => ?_⟩
    obtain ⟨i, hi, rfl⟩ := List.mem_map.1 hx
    rw [Vector.getElem?_eq_getElem (List.mem_range.1 hi)]
    rfl
  rw [if_pos hsome]
  refine congrArg some (Vector.ext fun i hi => ?_)
  rw [Vector.getElem_ofFn, List.getElem?_map, List.getElem?_range hi, Option.map_some, Vector.getElem?_eq_getElem hi]

/-! ### The roster, the runs and the parameters (part 6) -/

/-- Table 5-3: a roster byte is read back where the quota and the adopt-disabled value come together. -/
theorem rosterEntry_reads {e : RosterEntry} (h : e.quota = none ↔ e.adoptDis = none) (h0 : e.quota ≠ some 0) :
    RosterEntry.unpack e.pack = e := by
  obtain ⟨state, quota, adoptDis, failed⟩ := e
  cases quota with
  | none =>
    have ha : adoptDis = none := h.1 rfl
    subst ha
    cases state <;> cases failed <;> rfl
  | some q =>
    cases adoptDis with
    | none => exact absurd (h.2 rfl) (by simp)
    | some a =>
      have hq : q ≠ 0 := fun hq => h0 (by rw [hq])
      clear h h0
      cases state <;> revert q a failed <;> decide

theorem runNibbles_read (a b : Option Station) :
    runOfNibble ((byteOf (16 * runNibble a + runNibble b)).toNat / 16) = a ∧
      runOfNibble (byteOf (16 * runNibble a + runNibble b)).toNat = b := by
  revert a b
  decide

theorem packTail_eq {r : Replica} {p : Params} (hp : r.params = some p) :
    packTail r =
      [r.roster[0].pack, r.roster[1].pack, r.roster[2].pack, r.roster[3].pack, r.roster[4].pack, r.roster[5].pack,
        r.roster[6].pack, r.roster[7].pack, byteOf (16 * runNibble r.runs[0] + runNibble r.runs[1]),
        byteOf (16 * runNibble r.runs[2] + runNibble r.runs[3]),
        byteOf (16 * runNibble r.runs[4] + runNibble r.runs[5]),
        byteOf (16 * runNibble r.runs[6] + runNibble r.runs[7]), p.b, byteOf (p.c.toNat / 256), byteOf p.c.toNat, p.p] := by
  unfold packTail
  rw [hp]
  rfl

theorem snapshotParts_tail (tag : ReqTag) (r : Replica) :
    ((snapshotParts tag r)[6]?).map (List.drop 1) = some (packTail r) := by
  unfold snapshotParts
  rw [List.getElem?_map, List.getElem?_range (by decide), Option.map_some, Option.map_some, List.drop_one, List.tail_cons,
    if_neg (by decide)]

/-- Table 5-3: the replica that the parts describe, from its directory and the bytes of part 6. -/
theorem unpackSnapshot_eq {parts : List (List Byte)} {dir : Tab 48 DirEntry} {c : BitVec 16}
    {r0 r1 r2 r3 r4 r5 r6 r7 n0 n1 n2 n3 b p : Byte} (hdir : unpackDir parts = some dir)
    (htail : (parts[6]?).map (List.drop 1) =
      some [r0, r1, r2, r3, r4, r5, r6, r7, n0, n1, n2, n3, b, byteOf (c.toNat / 256), byteOf c.toNat, p]) (g : Gen) :
    unpackSnapshot parts g = some
      { params := some { b := b, c := c, p := p }, dir := dir,
        roster := #v[RosterEntry.unpack r0, RosterEntry.unpack r1, RosterEntry.unpack r2, RosterEntry.unpack r3,
          RosterEntry.unpack r4, RosterEntry.unpack r5, RosterEntry.unpack r6, RosterEntry.unpack r7],
        runs := #v[runOfNibble (n0.toNat / 16), runOfNibble n0.toNat, runOfNibble (n1.toNat / 16),
          runOfNibble n1.toNat, runOfNibble (n2.toNat / 16), runOfNibble n2.toNat, runOfNibble (n3.toNat / 16),
          runOfNibble n3.toNat],
        gen := g } := by
  unfold unpackSnapshot
  rw [hdir, htail]
  dsimp only
  rw [paramsOf, ofBe16_be16]

/-- The entries of a table of eight, written out. -/
theorem eight_eq {α : Type} (v : Tab 8 α) : #v[v[0], v[1], v[2], v[3], v[4], v[5], v[6], v[7]] = v := by
  refine Vector.ext fun i hi => ?_
  match i, hi with
  | 0, _ => rfl
  | 1, _ => rfl
  | 2, _ => rfl
  | 3, _ => rfl
  | 4, _ => rfl
  | 5, _ => rfl
  | 6, _ => rfl
  | 7, _ => rfl

/-- Settles O9: a replica is read back from its snapshot. -/
theorem snapshotReadsBack : Obligations.SnapshotReadsBack := by
  intro tag r hparams hroster
  obtain ⟨p, hp⟩ := Option.isSome_iff_exists.1 hparams
  have hread (i : Nat) (hi : i < 8) : RosterEntry.unpack r.roster[i].pack = r.roster[i] :=
    rosterEntry_reads (hroster ⟨i, hi⟩).1 (hroster ⟨i, hi⟩).2
  have htail := (snapshotParts_tail tag r).trans (congrArg some (packTail_eq hp))
  refine (unpackSnapshot_eq (unpackDir_parts tag r) htail r.gen).trans (congrArg some ?_)
  simp only [hread, runNibbles_read]
  rw [eight_eq r.roster, eight_eq r.runs, ← hp]

end Sys2Proof.Machine
end

