-- ==== Sys2Proof/Proofs/CatchupReplay.lean ====
section
/-! SUPPORT. The end of a catch-up attempt (R57, R133): the snapshot that its end frame completes, and the
replay of the log over it. -/

namespace Sys2Proof.Machine

/-! ### Work on the replica and the reports alone -/

/-- Work from `s` to `u` that changes the replica, the count of ignored frames, and the reports of a digest
and of an unexpected answer. -/
structure Replays (s u : State) : Prop where
  changes : s.changesOnly u [.dir, .flt]
  dir : u.dir = { s.dir with rep := u.dir.rep, ignored := u.dir.ignored }
  counts : ∀ c : Cause, c ≠ .paramMismatch → c ≠ .unexpectedAnswer →
    u.flt.counts[c.index] = s.flt.counts[c.index]

namespace Replays

theorem refl (s : State) : Replays s s := ⟨State.changesOnly.refl s _, rfl, fun _ _ _ => rfl⟩

theorem trans {s t u : State} (h : Replays s t) (g : Replays t u) : Replays s u where
  changes := h.changes.andThen g.changes (fun _ => id) (fun _ => id)
  dir := by rw [g.dir, h.dir]
  counts := fun c hp hu => (g.counts c hp hu).trans (h.counts c hp hu)

theorem ite {s t u : State} {c : Prop} [Decidable c] (h : c → Replays s t) (g : ¬ c → Replays s u) :
    Replays s (if c then t else u) := by
  by_cases hc : c
  · rw [if_pos hc]
    exact h hc
  · rw [if_neg hc]
    exact g hc

theorem setRep (s : State) (r : Replica) : Replays s (s.setRep r) :=
  ⟨(onDir_changes s _).mono (by simp), rfl, fun _ _ _ => rfl⟩

theorem countIgnored (s : State) : Replays s s.countIgnored :=
  ⟨(onDir_changes s _).mono (by simp), rfl, fun _ _ _ => rfl⟩

theorem post (s : State) (b : NoticeBody) : Replays s (s.post b) :=
  ⟨(onFlt_changes s _).mono (by simp), rfl, fun c _ _ => congrArg (·[c.index]) (post_counts s.flt b)⟩

theorem report (s : State) {c : Cause} (hc : c = .paramMismatch ∨ c = .unexpectedAnswer)
    (slot : Option Byte) (st : Option Ctx) (peer : Option Station) (kind : Option Kind) :
    Replays s (s.report c slot st peer kind) where
  changes := (report_changes s _ _ _ _ _).mono (by simp)
  dir := rfl
  counts := fun d hp hu => report_count_other s c d _ _ _ _ (by
    rcases hc with rfl | rfl
    · cases d <;> first | decide | exact absurd rfl hp
    · cases d <;> first | decide | exact absurd rfl hu)

theorem request {s u : State} (h : Replays s u) : u.dir.request = s.dir.request := by rw [h.dir]
theorem ext {s u : State} (h : Replays s u) : u.dir.ext = s.dir.ext := by rw [h.dir]
theorem mem {s u : State} (h : Replays s u) : u.mem = s.mem := h.changes.1 .mem (by simp)

end Replays

/-- R54: the reports of an application at a station that has no RECALL. -/
theorem replays_applyReports {s : State} (hn : ∀ e, s.dir.request ≠ some (.recall e)) (f : Frame) :
    Replays s (s.applyReports f) := by
  have hroster : Replays s (s.postRosterChange f.sender f.body) := by
    unfold State.postRosterChange State.postPeer
    split <;> first | exact Replays.post s _ | exact Replays.refl s
  have hdigest (u : State) : Replays u (u.reportDigest f.sender f.body) := by
    unfold State.reportDigest
    split
    · exact Replays.ite (fun _ => Replays.refl u) fun _ => Replays.report u (.inl rfl) _ _ _ _
    · exact Replays.refl u
  have hboth := hroster.trans (hdigest _)
  unfold State.applyReports State.answerOf
  generalize (s.postRosterChange f.sender f.body).reportDigest f.sender f.body = u at hboth ⊢
  split
  · refine Replays.ite (fun _ => ?_) fun _ => hboth
    unfold State.recallAnswered
    dsimp only
    split
    next e he => exact absurd (hboth.request.symm.trans he) (hn e)
    · exact hboth.trans (Replays.report u (.inr rfl) _ _ _ _)
  · exact hboth

theorem applyReports_rep (s : State) (f : Frame) : (s.applyReports f).dir.rep = s.dir.rep :=
  (((works_postRosterChange s f.sender f.body).trans (works_reportDigest _ _ _)).trans
    (works_answerOf _ _ _)).rep

/-! ### The replay (R133) -/

theorem isJoin_false_iff (b : Body) : b.isJoin = false ↔ b.kind ≠ .join := by
  cases b <;> simp [Body.isJoin, Body.kind]

/-- R133: the replay is that of the statement, and touches nothing but the replica and the reports. -/
theorem replay_replays (l : List Frame) (p : Replay) (hn : ∀ e, p.st.dir.request ≠ some (.recall e)) :
    Replays p.st (replay l p).1.st ∧
      Replica.replayed l p.st.dir.rep =
        if (replay l p).2 then some (replay l p).1.st.dir.rep else none := by
  induction l generalizing p with
  | nil => exact ⟨Replays.refl _, rfl⟩
  | cons f l ih =>
    unfold replay Replica.replayed
    by_cases hskip : f.body.isJoin = false ∧ p.st.dir.rep.isPresent f.sender = false
    · obtain ⟨hj, hp⟩ := hskip
      obtain ⟨hrep, hout⟩ := ih { p with st := p.st.countIgnored } hn
      simp only [hj, hp, Bool.not_false, Bool.and_self, if_true, (isJoin_false_iff _).1 hj, ne_eq,
        not_false_iff, and_self]
      exact ⟨(Replays.countIgnored p.st).trans hrep, hout⟩
    · have hmodel : ¬ (!f.body.isJoin && !p.st.dir.rep.isPresent f.sender) = true := by
        simpa [← Bool.not_eq_true] using hskip
      have hspec : ¬ (f.body.kind ≠ .join ∧ p.st.dir.rep.isPresent f.sender = false) := by
        rw [← isJoin_false_iff]
        exact hskip
      rw [if_neg hmodel, if_neg hspec]
      cases ha : p.st.dir.rep.applies f with
      | false => exact ⟨Replays.refl _, rfl⟩
      | true =>
        have happly := (Replays.setRep p.st (p.st.dir.rep.apply f.sender f.body)).trans
          (replays_applyReports (s := p.st.applyRep f) hn f)
        obtain ⟨hrep, hout⟩ := ih
          { st := (p.st.applyRep f).applyReports f, namedBy := namedAfter p f }
          (fun e => by rw [happly.request]; exact hn e)
        simp only [if_true]
        refine ⟨happly.trans hrep, Eq.trans ?_ hout⟩
        exact congrArg (Replica.replayed l) (applyReports_rep (p.st.applyRep f) f).symm

/-! ### The end frame of the snapshot (R133) -/

theorem exec_snapshotEnd {s : State} {f : Frame} {rest : List RxEntry} {tag : ReqTag} {g : Gen} {count : Byte}
    {sum : BitVec 16} {e : AskEntry} {n : Nat} (h : s.takes false f rest)
    (hb : f.body = .snapshotEnd tag g count sum) (hm : s.mem.state = .catchup)
    (he : s.dir.request = some (.ask e)) (hp : e.phase = .receiving f.sender n) (ht : e.tag = tag) :
    exec .snapshotEnd s = .next (s.popRx.endSnapshot f.sender n g count sum).settled := by
  have hm' : s.popRx.mem.state = .catchup := hm
  have he' : s.popRx.dir.request = some (.ask e) := he
  have htake : takeSnapshot false f s.popRx = s.popRx.endSnapshot f.sender n g count sum := by
    simp only [takeSnapshot, hm', State.snapshotFrame, he', hp, hb, ht, and_self, if_true]
  rw [exec_takes (c := .snapshotEnd) (by rw [hb]; rfl) h, hb, taken_plain (by simp), ← htake]
  rfl

theorem accepted_none {s : State} {n : Nat} {g : Gen} {count : Byte} {sum : BitVec 16}
    (h : n ≠ 7 ∨ count ≠ 7 ∨ sum ≠ snapshotSum s.dir.snap ∨ unpackSnapshot s.dir.snap g = none) :
    s.accepted n g count sum = none := by
  unfold State.accepted
  split
  next hc =>
    obtain ⟨hn, hcount, hsum⟩ := hc
    rcases h with h | h | h | h
    · exact absurd hn h
    · exact absurd hcount h
    · exact absurd hsum h
    · rw [h]
      rfl
  · rfl

theorem accepted_eq {s : State} {g : Gen} {sum : BitVec 16} {r : Replica}
    (hr : unpackSnapshot s.dir.snap g = some r) (hs : sum = snapshotSum s.dir.snap) :
    s.accepted 7 g 7 sum = if r.snapshotOk then some r else none := by
  unfold State.accepted
  rw [if_pos ⟨rfl, rfl, hs⟩, hr, Option.filter_some]

theorem endSnapshot_refused {s : State} {p : Station} {n : Nat} {g : Gen} {count : Byte} {sum : BitVec 16}
    (h : s.accepted n g count sum = none) : s.endSnapshot p n g count sum = s.attemptFail := by
  unfold State.endSnapshot
  rw [h]

theorem endSnapshot_mismatch {s : State} {p : Station} {n : Nat} {g : Gen} {count : Byte} {sum : BitVec 16}
    {r : Replica} (h : s.accepted n g count sum = some r) (hp : r.params ≠ s.mem.cfg.map (·.params)) :
    s.endSnapshot p n g count sum = (s.report .paramMismatch (peer := some p)).bar := by
  unfold State.endSnapshot
  rw [h]
  exact if_neg hp

theorem endSnapshot_install {s : State} {p : Station} {n : Nat} {g : Gen} {count : Byte} {sum : BitVec 16}
    {r : Replica} (h : s.accepted n g count sum = some r) (hp : r.params = s.mem.cfg.map (·.params)) :
    s.endSnapshot p n g count sum = s.install r := by
  unfold State.endSnapshot
  rw [h]
  exact if_pos hp

/-! ### The outcome of the replay (R133, R135, R140) -/

/-- R133: the frames of the log that a replay takes. -/
def Directory.replayFrames (d : Directory) : List Frame := (d.log.filter (·.afterPart0)).map (·.frame)

/-- R133: the installed snapshot after the replay of the log. -/
@[irreducible] def State.replayOut (s : State) (r : Replica) : Replay × Bool :=
  replay s.dir.replayFrames { st := s.setRep r, namedBy := none }

theorem replayOut_replays {s : State} (hn : ∀ e, s.dir.request ≠ some (.recall e)) (r : Replica) :
    Replays s (s.replayOut r).1.st ∧
      Replica.replayed s.dir.replayFrames r =
        if (s.replayOut r).2 then some (s.replayOut r).1.st.dir.rep else none := by
  obtain ⟨hrep, hout⟩ := replay_replays s.dir.replayFrames { st := s.setRep r, namedBy := none } hn
  unfold State.replayOut
  exact ⟨(Replays.setRep s r).trans hrep, hout⟩

theorem install_eq (s : State) (r : Replica) :
    s.install r =
      if (s.replayOut r).2 = false then (s.replayOut r).1.st.attemptFail.policyPass
      else if (s.replayOut r).1.st.dir.rep.isPresent (s.replayOut r).1.st.me then (s.replayOut r).1.st.rejoinDrive
      else (s.replayOut r).1.st.namedAbsent (s.replayOut r).1.namedBy := by
  unfold State.replayOut
  rfl

/-- R133, R135: the attempt fails at a gap, and the installed snapshot is an occasion for a policy pass. -/
theorem attemptFail_policyPass {s v : State} (hm : v.mem = s.mem) (hs : s.mem.state = .catchup)
    (hc : v.flt.counts[Cause.catchupFailed.index] = s.flt.counts[Cause.catchupFailed.index]) :
    (∀ q ∈ v.attemptFail.policyPass.bus.waiting, q.body.kind ≠ .catchupAsk) ∧
      v.attemptFail.policyPass.dir.request = none ∧ v.attemptFail.policyPass.dir.log = [] ∧
      v.attemptFail.policyPass.dir.snap = [] ∧ s.counted v.attemptFail.policyPass .catchupFailed ∧
      v.attemptFail.policyPass.mem.attempts = s.mem.attempts + 1 := by
  obtain ⟨hwait, hreq, hlog, hsnap, -, -, hcount, hatt, hless, hlast, -⟩ :=
    attemptFailed_settled (State.changesOnly.refl v [.bus])
  have hstate : v.attemptFail.mem.state ≠ .member := by
    rcases Nat.lt_or_ge v.mem.attempts 3 with h | h
    · have := (hless h).1
      rw [settled_mem, hm, hs] at this
      rw [this]
      decide
    · have := (hlast h).1
      rw [settled_mem] at this
      rw [this]
      decide
  simp only [settled_bus, settled_dir, settled_mem] at hwait hreq hlog hsnap hatt
  have hperm : v.attemptFail.recallPermission = false := by
    have hne : (v.attemptFail.mem.state == .member) = false := by simpa using hstate
    simp only [State.recallPermission, hne, Bool.false_and]
  have hp := polices_policyPass v.attemptFail
  have hbus := (silent_policyPass v.attemptFail []).bus hstate
  refine ⟨by rw [hbus]; exact hwait, (hp.request (.inr (.inr hperm))).trans hreq, hp.log.trans hlog,
    hp.snap.trans hsnap, State.counted.congr hcount hc.symm (by rw [hp.counts]; rfl), ?_⟩
  rw [hp.mem, hatt, hm]

/-- R133: work on the replica and the reports leaves the holdings. -/
theorem Replays.sameHoldings {s u : State} (h : Replays s u) : SameHoldings s u :=
  ⟨h.changes.mono (by simp), by rw [h.mem], fun k g => by simp only [State.hasHolding, h.ext]⟩

end Sys2Proof.Machine
end

