-- ==== Sys2Proof/Proofs/SettleHolding.lean ====
section
/-! SUPPORT. The holdings settled against an installed replica (R134): what the settlement of a slot makes of
its own holding, what it leaves of the others, and the tracker places it releases (R163). -/

namespace Sys2Proof.Machine

/-! ### The extension of a slot that the replica shows as this station's (R49, R100) -/

/-- R49, R100: the new extension of an OPEN slot, with its OPEN-ORDER. -/
def State.openedHolding (s : State) (k : Slot) (kd : SlotKind) (g : Gen) : State :=
  (s.setExt k (some (Ext.fresh g))).onLink fun l =>
    { l with heldOpens := l.heldOpens ++ [{ slot := k, serial := g, kind := kd }] }

/-- R49: the new extension of a CLOSING slot. -/
def State.closingHolding (s : State) (k : Slot) (g : Gen) : State :=
  (s.setExt k (some (Ext.forClose g s.dir.rep.capacity))).onDir fun d =>
    { d with closing := d.closing ++ [k] }

/-- R134: by the slot's entry in the replica. -/
theorem createHolding_cases (s : State) (k : Slot) :
    (s.createHolding k = s ∧ s.dir.rep.dir[k].holder? ≠ some s.mem.stn) ∨
    (∃ kd g, s.dir.rep.dir[k] = .opened s.mem.stn kd g ∧
      s.createHolding k = if s.mem.departing then (s.openedHolding k kd g).decideShut k .leaving
        else s.openedHolding k kd g) ∨
    ∃ kd g c a, s.dir.rep.dir[k] = .closing s.mem.stn kd g c a ∧
      s.createHolding k = s.closingHolding k g := by
  unfold State.createHolding State.openedHolding State.closingHolding State.me
  cases hr : s.dir.rep.dir[k] with
  | opened h kd g =>
    by_cases hh : h = s.mem.stn
    · subst hh
      exact .inr (.inl ⟨kd, g, rfl, if_pos rfl⟩)
    · exact .inl ⟨if_neg hh, by simpa [DirEntry.holder?] using hh⟩
  | closing h kd g c a =>
    by_cases hh : h = s.mem.stn
    · subst hh
      exact .inr (.inr ⟨kd, g, c, a, rfl, if_pos rfl⟩)
    · exact .inl ⟨if_neg hh, by simpa [DirEntry.holder?] using hh⟩
  | _ => exact .inl ⟨rfl, by simp [DirEntry.holder?]⟩

/-! ### What a slot keeps through the settlement of others and the work that follows -/

/-- The holding of slot `k` through work from `s` to `t` that is not about it. -/
structure KeepsSlot (k : Slot) (s t : State) : Prop where
  rep : t.dir.rep = s.dir.rep
  stn : t.mem.stn = s.mem.stn
  absent : s.dir.ext[k] = none → t.dir.ext[k] = none
  present : ∀ x, s.dir.ext[k] = some x → ∃ y, t.dir.ext[k] = some y ∧ x.KeptIn y ∧
    (s.shutApplied k = true → y.shutDue = x.shutDue)
  closing : k ∈ s.dir.closing → k ∈ t.dir.closing
  opens : ∀ o ∈ s.link.heldOpens, o.slot = k → o ∈ t.link.heldOpens

namespace KeepsSlot

theorem of_ext {k : Slot} {s t : State} (hrep : t.dir.rep = s.dir.rep) (hstn : t.mem.stn = s.mem.stn)
    (hext : t.dir.ext[k] = s.dir.ext[k]) (hclosing : k ∈ s.dir.closing → k ∈ t.dir.closing)
    (hopens : ∀ o ∈ s.link.heldOpens, o.slot = k → o ∈ t.link.heldOpens) : KeepsSlot k s t :=
  ⟨hrep, hstn, fun h => hext.trans h, fun x h => ⟨x, hext.trans h, {}, fun _ => rfl⟩, hclosing, hopens⟩

theorem refl (k : Slot) (s : State) : KeepsSlot k s s := of_ext rfl rfl rfl id fun _ h _ => h

theorem of_blocks {k : Slot} {s t : State} (hd : t.dir = s.dir) (hl : t.link = s.link)
    (hs : t.mem.stn = s.mem.stn) : KeepsSlot k s t :=
  of_ext (by rw [hd]) hs (by rw [hd]) (by rw [hd]; exact id) (by rw [hl]; exact fun _ h _ => h)

theorem of_polices {s t : State} (k : Slot) (h : Polices s t) : KeepsSlot k s t where
  rep := h.rep
  stn := by rw [h.mem]
  absent := (h.ext k).1
  present := fun x hx => by
    obtain ⟨y, hy, hk⟩ := (h.ext k).2 x hx
    exact ⟨y, hy, hk, fun ha => (h.noShut k x y hx ha hy).1⟩
  closing := by rw [h.closing]; exact id
  opens := by rw [h.link]; exact fun _ h _ => h

theorem shutApplied {k : Slot} {s t : State} (h : KeepsSlot k s t) (j : Slot) :
    t.shutApplied j = s.shutApplied j := by
  simp only [State.shutApplied, State.holdsSlot, State.me, h.rep, h.stn]

theorem trans {k : Slot} {s t u : State} (h : KeepsSlot k s t) (g : KeepsSlot k t u) : KeepsSlot k s u where
  rep := g.rep.trans h.rep
  stn := g.stn.trans h.stn
  absent := fun hs => g.absent (h.absent hs)
  present := fun x hx => by
    obtain ⟨y, hy, hxy, hdue⟩ := h.present x hx
    obtain ⟨z, hz, hyz, hdue'⟩ := g.present y hy
    exact ⟨z, hz, hxy.trans hyz, fun ha => (hdue' (by rw [h.shutApplied]; exact ha)).trans (hdue ha)⟩
  closing := fun hs => g.closing (h.closing hs)
  opens := fun o ho hk => g.opens o (h.opens o ho hk) hk

theorem ite {k : Slot} {s t u : State} {c : Prop} [Decidable c] (h : c → KeepsSlot k s t)
    (g : ¬ c → KeepsSlot k s u) : KeepsSlot k s (if c then t else u) := by
  by_cases hc : c
  · rw [if_pos hc]
    exact h hc
  · rw [if_neg hc]
    exact g hc

theorem foldl {α : Type} {k : Slot} {f : State → α → State} {l : List α}
    (h : ∀ s, ∀ x ∈ l, KeepsSlot k s (f s x)) (s : State) : KeepsSlot k s (l.foldl f s) := by
  induction l generalizing s with
  | nil => exact refl k s
  | cons x l ih =>
    exact (h s x (List.mem_cons_self ..)).trans
      (ih (fun t y hy => h t y (List.mem_cons_of_mem x hy)) (f s x))

theorem setExt {j k : Slot} (hj : k ≠ j) (s : State) (x : Option Ext) : KeepsSlot k s (s.setExt j x) :=
  of_ext rfl rfl ((setExt_get s j k x).trans (if_neg hj)) id fun _ h _ => h

theorem onExt {j k : Slot} (hj : k ≠ j) (s : State) (f : Ext → Ext) : KeepsSlot k s (s.onExt j f) := by
  unfold State.onExt
  split
  · exact setExt hj s _
  · exact refl k s

/-- A slot joins the closes. -/
theorem joinsCloses (j k : Slot) (s : State) :
    KeepsSlot k s (s.onDir fun d => { d with closing := d.closing ++ [j] }) :=
  of_ext rfl rfl rfl (List.mem_append_left _) fun _ h _ => h

theorem residents (k : Slot) (s : State) (l : List Ctx) : KeepsSlot k s (l.foldl State.endResidency s) :=
  of_polices k (polices_residents s l)

theorem removeHolding {j k : Slot} (hj : k ≠ j) (s : State) : KeepsSlot k s (s.removeHolding j) := by
  unfold State.removeHolding
  split
  · exact refl k s
  next x _ =>
    refine (residents k s x.residents).trans ?_
    generalize x.residents.foldl State.endResidency s = u
    refine of_ext rfl rfl ((put_get _ _ _ _).trans (if_neg hj)) (fun h => ?_) fun o ho hk => ?_
    · exact List.mem_filter.2 ⟨h, by simpa using hj⟩
    · exact List.mem_filter.2 ⟨ho, by simp [hk, hj]⟩

theorem createHolding {j k : Slot} (hj : k ≠ j) (s : State) : KeepsSlot k s (s.createHolding j) := by
  rcases createHolding_cases s j with ⟨h, -⟩ | ⟨kd, g, -, h⟩ | ⟨kd, g, c, a, -, h⟩
  · rw [h]
    exact refl k s
  · have hopened : KeepsSlot k s (s.openedHolding j kd g) :=
      (setExt hj s _).trans (of_ext rfl rfl rfl id fun o ho _ => List.mem_append_left _ ho)
    rw [h]
    exact ite (fun _ => hopened.trans (of_polices k (polices_decideShut _ _ _ _))) fun _ => hopened
  · rw [h]
    exact (setExt hj s _).trans (joinsCloses j k _)

theorem settleKept {j k : Slot} (hj : k ≠ j) (s : State) (x : Ext) : KeepsSlot k s (s.settleKept j x) := by
  unfold State.settleKept
  split
  · exact ite (fun _ => ((residents k s x.residents).trans (onExt hj _ _)).trans (joinsCloses j k _))
      fun _ => ite (fun _ => onExt hj s _) fun _ => refl k s
  all_goals exact refl k s

/-- R134: the settlement of one slot leaves the holding of another. -/
theorem settleHolding {j k : Slot} (hj : k ≠ j) (s : State) : KeepsSlot k s (s.settleHolding j) := by
  unfold State.settleHolding
  split
  · exact ite (fun _ => settleKept hj s _) fun _ => (removeHolding hj s).trans (createHolding hj _)
  · exact createHolding hj s

theorem settleOthers {k : Slot} {l : List Slot} (hk : k ∉ l) (s : State) :
    KeepsSlot k s (l.foldl State.settleHolding s) :=
  foldl (fun t _ hj => settleHolding (fun h => hk (by rw [h]; exact hj)) t) s

end KeepsSlot

/-! ### The settlement of the slot itself (R49, R100, R134) -/

theorem showsOwn_iff (s : State) (k : Slot) (g : Gen) :
    s.showsOwn k g = true ↔
      s.dir.rep.dir[k].holder? = some s.mem.stn ∧ s.dir.rep.dir[k].serial? = some g := by
  simp only [State.showsOwn, State.holdsSlot, Replica.holds, State.me, Bool.and_eq_true, beq_iff_eq]

theorem settleHolding_own {s : State} {k : Slot} {x : Ext} (hx : s.dir.ext[k] = some x)
    (ho : s.showsOwn k x.serial = true) : s.settleHolding k = s.settleKept k x := by
  simp only [State.settleHolding, hx, ho, if_true]

theorem settleHolding_lost {s : State} {k : Slot} {x : Ext} (hx : s.dir.ext[k] = some x)
    (ho : s.showsOwn k x.serial = false) : s.settleHolding k = (s.removeHolding k).createHolding k := by
  simp only [State.settleHolding, hx, ho, Bool.false_eq_true, if_false]

theorem settleHolding_absent {s : State} {k : Slot} (hx : s.dir.ext[k] = none) :
    s.settleHolding k = s.createHolding k := by
  simp only [State.settleHolding, hx]

/-- R134: an OPEN slot of this incarnation is kept as it is. -/
theorem settleHolding_opened {s : State} {k : Slot} {x : Ext} {kd : SlotKind} (hx : s.dir.ext[k] = some x)
    (hr : s.dir.rep.dir[k] = .opened s.mem.stn kd x.serial) : s.settleHolding k = s := by
  rw [settleHolding_own hx ((showsOwn_iff s k _).2 (by rw [hr]; exact ⟨rfl, rfl⟩))]
  simp only [State.settleKept, hr]

/-- R134: a SHUT applied meanwhile takes effect. -/
def State.shutTaken (s : State) (k : Slot) (x : Ext) : State :=
  ((x.residents.foldl State.endResidency s).onExt k fun y =>
    { y with shutDue := none, shutRecall := none, shutSent := false }).onDir fun d =>
    { d with closing := d.closing ++ [k] }

/-- R134: the condition on which a RETRYING applied meanwhile clears the close-report. -/
abbrev Ext.retried (x : Ext) (a : Fin 2) : Prop :=
  a = 1 ∧ x.closeReport = some .failed ∧ x.reportSent = some .retrying

theorem settleKept_closing {s : State} {k : Slot} {h : Station} {kd : SlotKind} {g : Gen} {c : ShutCause}
    {a : Fin 2} (hr : s.dir.rep.dir[k] = .closing h kd g c a) (x : Ext) :
    s.settleKept k x =
      if x.shutDue.isSome then s.shutTaken k x
      else if x.retried a then s.onExt k fun y => { y with closeReport := none, reportSent := none }
      else s := by
  unfold State.settleKept State.shutTaken
  rw [hr]

/-- R134: what a SHUT or a RETRYING applied meanwhile makes of an extension. -/
def Ext.settledClosing (x y : Ext) (a : Fin 2) : Prop :=
  y.serial = x.serial ∧ y.cursor = x.cursor ∧ y.inFlight = x.inFlight ∧ y.shutDue = none ∧
    (x.shutDue = none → y.closeReport =
      if x.retried a then none else x.closeReport)

/-- R134: a CLOSING slot of this incarnation. -/
theorem settleHolding_closing {s : State} {k : Slot} {x : Ext} {kd : SlotKind} {c : ShutCause} {a : Fin 2}
    (hx : s.dir.ext[k] = some x) (hr : s.dir.rep.dir[k] = .closing s.mem.stn kd x.serial c a) :
    (∃ y, (s.settleHolding k).dir.ext[k] = some y ∧ x.settledClosing y a) ∧
      (x.shutDue.isSome → k ∈ (s.settleHolding k).dir.closing) := by
  rw [settleHolding_own hx ((showsOwn_iff s k _).2 (by rw [hr]; exact ⟨rfl, rfl⟩))]
  rw [settleKept_closing hr]
  by_cases hd : x.shutDue.isSome
  · rw [if_pos hd]
    obtain ⟨y, hy, hk⟩ := ((polices_residents s x.residents).ext k).2 x hx
    have hext : (s.shutTaken k x).dir.ext[k] = _ := (onExt_get _ k k _).trans (if_pos rfl)
    rw [hy] at hext
    exact ⟨⟨_, hext, hk.serial, hk.cursor, hk.inFlight, rfl, fun h => by rw [h] at hd; cases hd⟩,
      fun _ => List.mem_append_right _ (List.mem_singleton.2 rfl)⟩
  · rw [if_neg hd]
    refine ⟨?_, fun h => absurd h hd⟩
    have hnone : x.shutDue = none := Option.not_isSome_iff_eq_none.1 hd
    by_cases hc : x.retried a
    · rw [if_pos hc]
      have hext : (s.onExt k fun y => { y with closeReport := none, reportSent := none }).dir.ext[k] =
          _ := (onExt_get s k k _).trans (if_pos rfl)
      rw [hx] at hext
      exact ⟨_, hext, rfl, rfl, rfl, hnone, fun _ => (if_pos hc).symm⟩
    · rw [if_neg hc]
      exact ⟨x, hx, rfl, rfl, rfl, hnone, fun _ => (if_neg hc).symm⟩

/-- R49, R134: the holding of a slot that had none of this incarnation. -/
structure Creates (k : Slot) (s t : State) : Prop where
  opened : ∀ kd g, s.dir.rep.dir[k] = .opened s.mem.stn kd g →
    ∃ y, t.dir.ext[k] = some y ∧ y.serial = g ∧ y.readiness = .awaitingOpen ∧ y.cursor = 0 ∧
      y.inFlight = 0 ∧ { slot := k, serial := g, kind := kd } ∈ t.link.heldOpens
  closing : ∀ kd g c a, s.dir.rep.dir[k] = .closing s.mem.stn kd g c a →
    ∃ y, t.dir.ext[k] = some y ∧ y.serial = g ∧ y.readiness = .ready ∧ y.cursor = s.dir.rep.capacity ∧
      y.inFlight = 0 ∧ k ∈ t.dir.closing
  other : s.dir.rep.dir[k].holder? ≠ some s.mem.stn → t.dir.ext[k] = none

theorem creates_createHolding {s : State} {k : Slot} (hn : s.dir.ext[k] = none) :
    Creates k s (s.createHolding k) := by
  rcases createHolding_cases s k with ⟨h, hh⟩ | ⟨kd, g, hr, h⟩ | ⟨kd, g, c, a, hr, h⟩
  · rw [h]
    exact ⟨fun kd g hr => absurd (by rw [hr]; rfl) hh, fun kd g c a hr => absurd (by rw [hr]; rfl) hh, fun _ => hn⟩
  · refine ⟨fun kd' g' hr' => ?_, fun _ _ _ _ hr' => (nomatch hr.symm.trans hr'),
      fun hh => absurd (by rw [hr]; rfl) hh⟩
    rw [hr] at hr'
    obtain ⟨-, rfl, rfl⟩ := DirEntry.opened.inj hr'
    have hext : (s.openedHolding k kd g).dir.ext[k] = some (Ext.fresh g) :=
      (setExt_get s k k _).trans (if_pos rfl)
    have hheld : { slot := k, serial := g, kind := kd } ∈ (s.openedHolding k kd g).link.heldOpens :=
      List.mem_append_right _ (List.mem_singleton.2 rfl)
    rw [h]
    split
    · have hp := polices_decideShut (s.openedHolding k kd g) k .leaving none
      obtain ⟨y, hy, hk⟩ := (hp.ext k).2 _ hext
      exact ⟨y, hy, hk.serial, hk.readiness, hk.cursor, hk.inFlight, by rw [hp.link]; exact hheld⟩
    · exact ⟨_, hext, rfl, rfl, rfl, rfl, hheld⟩
  · refine ⟨fun _ _ hr' => (nomatch hr.symm.trans hr'), fun kd' g' c' a' hr' => ?_,
      fun hh => absurd (by rw [hr]; rfl) hh⟩
    rw [hr] at hr'
    obtain ⟨-, rfl, rfl, rfl, rfl⟩ := DirEntry.closing.inj hr'
    rw [h]
    exact ⟨_, (setExt_get s k k _).trans (if_pos rfl), rfl, rfl, rfl, rfl,
      List.mem_append_right _ (List.mem_singleton.2 rfl)⟩

/-- R134: a slot without a holding of this incarnation. -/
theorem settleHolding_creates {s : State} {k : Slot}
    (h : ∀ x, s.dir.ext[k] = some x → s.showsOwn k x.serial = false) : Creates k s (s.settleHolding k) := by
  cases hx : s.dir.ext[k] with
  | none =>
    rw [settleHolding_absent hx]
    exact creates_createHolding hx
  | some x =>
    have hr := removes_removeHolding s k
    have hrep : (s.removeHolding k).dir.rep = s.dir.rep := by rw [hr.dir]
    have hstn : (s.removeHolding k).mem.stn = s.mem.stn := by rw [hr.changes.1 .mem (by simp)]
    obtain ⟨hopened, hclosing, hother⟩ := creates_createHolding (hr.removed k (by simp))
    rw [hrep, hstn] at hopened hclosing hother
    rw [settleHolding_lost hx (h x hx)]
    exact ⟨hopened, hclosing, hother⟩

end Sys2Proof.Machine
end

