-- ==== Sys2Proof/Proofs/SettleAll.lean ====
section
/-! SUPPORT. All holdings settled against an installed replica (R134), and the tracker places of the lost ones
released (R163). -/

namespace Sys2Proof.Machine

/-! ### The link controller through the settlement (R163) -/

/-- R100, R134: OPEN-ORDERs handed over stand behind what is held. -/
def Link.handed (l : Link) (m : List OpenOrder) : Link := { l with heldOpens := l.heldOpens ++ m }

theorem Link.handed_nil (l : Link) : l.handed [] = l := by
  rw [Link.handed, List.append_nil]

theorem Link.handed_handed (l : Link) (m n : List OpenOrder) : (l.handed m).handed n = l.handed (m ++ n) := by
  simp only [Link.handed, List.append_assoc]

/-- R163: a release of holdings, none of which they serve, leaves the OPEN-ORDERs handed over. -/
theorem Link.freed_handed (l : Link) {p : Slot → Gen → Bool} (hold : Nat) {m : List OpenOrder}
    (hm : ∀ o ∈ m, p o.slot o.serial = false) : (l.handed m).freed p hold = (l.freed p hold).handed m := by
  have hkeep : m.filter (fun o => !p o.slot o.serial) = m :=
    List.filter_eq_self.2 fun o ho => by rw [hm o ho]; rfl
  simp only [Link.handed, Link.freed, List.filter_append, hkeep]

/-- R134, R163: the link controller after the settlement of the slots that `done` picks: the tracker places of
their lost holdings are released, and the OPEN-ORDERs of the new ones stand last. -/
def State.linkSettled (s t : State) (done : Slot → Bool) : Prop :=
  ∃ m, t.link = (s.link.freed (fun k g => done k && s.loses s.dir.rep k g) s.closeTicks).handed m ∧
    ∀ o ∈ m, done o.slot = true

theorem createHolding_link (s : State) (k : Slot) :
    ∃ m, (s.createHolding k).link = s.link.handed m ∧ ∀ o ∈ m, o.slot = k := by
  rcases createHolding_cases s k with ⟨h, -⟩ | ⟨kd, g, -, h⟩ | ⟨kd, g, c, a, -, h⟩
  · exact ⟨[], by rw [h, Link.handed_nil], by simp⟩
  · have hl : (s.createHolding k).link = (s.openedHolding k kd g).link := by
      rw [h]
      split
      · exact (polices_decideShut _ _ _ _).link
      · rfl
    exact ⟨[_], hl, by simp⟩
  · exact ⟨[], by rw [h, Link.handed_nil]; rfl, by simp⟩

theorem settleKept_link (s : State) (k : Slot) (x : Ext) : (s.settleKept k x).link = s.link := by
  have honExt (u : State) (f : Ext → Ext) : (u.onExt k f).link = u.link :=
    (onExt_changes u k f).1 .link (by simp)
  unfold State.settleKept
  split
  · split
    · exact (honExt _ _).trans (polices_residents s x.residents).link
    · split
      · exact honExt s _
      · rfl
  all_goals rfl

theorem loses_eq (s : State) (k : Slot) (g : Gen) :
    s.loses s.dir.rep k g = (s.hasHolding k g && !s.showsOwn k g) := rfl

/-- R134, R163: the link controller after the settlement of one slot. -/
theorem linkSettled_settleHolding (s : State) (k : Slot) : s.linkSettled (s.settleHolding k) (· == k) := by
  cases hx : s.dir.ext[k] with
  | none =>
    have hno : (fun (j : Slot) g => (j == k) && s.loses s.dir.rep j g) = fun _ _ => false := by
      funext j g
      rw [Bool.and_eq_false_imp]
      intro hj
      rw [eq_of_beq hj, loses_eq, hasHolding_none hx, Bool.false_and]
    obtain ⟨m, hm, hslot⟩ := createHolding_link s k
    unfold State.linkSettled
    rw [settleHolding_absent hx, hno, Link.freed_none]
    exact ⟨m, hm, fun o ho => by simpa using hslot o ho⟩
  | some x =>
    cases ho : s.showsOwn k x.serial with
    | true =>
      have hno : (fun (j : Slot) g => (j == k) && s.loses s.dir.rep j g) = fun _ _ => false := by
        funext j g
        rw [Bool.and_eq_false_imp]
        intro hj
        rw [eq_of_beq hj, loses_eq, Bool.and_eq_false_imp]
        intro hg
        simp only [State.hasHolding, hx, beq_iff_eq] at hg
        rw [← hg, ho, Bool.not_true]
      unfold State.linkSettled
      rw [settleHolding_own hx ho, settleKept_link, hno, Link.freed_none]
      exact ⟨[], (Link.handed_nil _).symm, by simp⟩
    | false =>
      have hall : (fun (j : Slot) g => (j == k) && s.loses s.dir.rep j g) =
          fun j g => (j == k) && s.hasHolding j g := by
        funext j g
        cases hj : j == k with
        | false => rfl
        | true =>
          rw [eq_of_beq hj, loses_eq, Bool.true_and, Bool.true_and, Bool.and_eq_left_iff_imp]
          intro hg
          simp only [State.hasHolding, hx, beq_iff_eq] at hg
          rw [← hg, ho, Bool.not_false]
      obtain ⟨m, hm, hslot⟩ := createHolding_link (s.removeHolding k) k
      unfold State.linkSettled
      rw [settleHolding_lost hx ho, hall, ← (removes_removeHolding s k).link]
      exact ⟨m, hm, fun o ho => by simpa using hslot o ho⟩

/-! ### The blocks of the settlement -/

/-- What the settlement of the holdings may change. -/
def settleBlocks : List Block := .link :: policyBlocks

theorem policyBlocks_settle : ∀ b ∈ policyBlocks, b ∈ settleBlocks := by decide

theorem settleHolding_changes (s : State) (k : Slot) : s.changesOnly (s.settleHolding k) settleBlocks := by
  have hcreate (u : State) : u.changesOnly (u.createHolding k) settleBlocks := by
    rcases createHolding_cases u k with ⟨h, -⟩ | ⟨kd, g, -, h⟩ | ⟨kd, g, c, a, -, h⟩
    · rw [h]
      exact State.changesOnly.refl u _
    · have hopened : u.changesOnly (u.openedHolding k kd g) settleBlocks :=
        (setExt_changes u k _).andThen (onLink_changes _ _) (by decide) (by decide)
      rw [h]
      split
      · exact hopened.andThen (polices_decideShut _ _ _ _).changesOnly (fun _ => id) policyBlocks_settle
      · exact hopened
    · rw [h]
      exact (setExt_changes u k _).andThen (onDir_changes _ _) (by decide) (by decide)
  cases hx : s.dir.ext[k] with
  | none =>
    rw [settleHolding_absent hx]
    exact hcreate s
  | some x =>
    cases ho : s.showsOwn k x.serial with
    | true =>
      have hkept : s.changesOnly (s.settleKept k x) [.str, .plc, .dir] := by
        unfold State.settleKept
        split
        · split
          · exact ((residents_changes s x.residents).andThen (onExt_changes _ k _) (n := [.str, .plc, .dir])
              (by simp) (by simp)).andThen (onDir_changes _ _) (by simp) (by simp)
          · split
            · exact (onExt_changes s k _).mono (by simp)
            · exact State.changesOnly.refl s _
        all_goals exact State.changesOnly.refl s _
      rw [settleHolding_own hx ho]
      exact hkept.mono (by decide)
    | false =>
      rw [settleHolding_lost hx ho]
      exact (removes_removeHolding s k).changes.andThen (hcreate _) (by decide) (fun _ => id)

/-! ### The settlement of all slots -/

theorem KeepsSlot.hasHolding {k : Slot} {s t : State} (h : KeepsSlot k s t) (g : Gen) :
    t.hasHolding k g = s.hasHolding k g :=
  hasHolding_kept ⟨h.absent, fun x hx => by
    obtain ⟨y, hy, hk, -⟩ := h.present x hx
    exact ⟨y, hy, hk⟩⟩ g

theorem KeepsSlot.loses {k : Slot} {s t : State} (h : KeepsSlot k s t) (g : Gen) :
    t.loses t.dir.rep k g = s.loses s.dir.rep k g := by
  unfold State.loses
  rw [h.hasHolding, h.rep, h.stn]

/-- R134, R163: the link controller after the settlement of a list of slots, each named once. -/
theorem linkSettled_foldl {l : List Slot} (hl : l.Nodup) (s : State) :
    s.linkSettled (l.foldl State.settleHolding s) fun k => decide (k ∈ l) := by
  induction l generalizing s with
  | nil =>
    refine ⟨[], ?_, by simp⟩
    simp only [List.not_mem_nil, decide_false, Bool.false_and, Link.freed_none, Link.handed_nil, List.foldl_nil]
  | cons k l ih =>
    obtain ⟨hk, hnodup⟩ := List.nodup_cons.1 hl
    have hmem : (s.settleHolding k).mem = s.mem := (settleHolding_changes s k).1 .mem (by decide)
    have hticks : (s.settleHolding k).closeTicks = s.closeTicks := closeTicks_kept (by rw [hmem])
    obtain ⟨m₁, hlink₁, hm₁⟩ := linkSettled_settleHolding s k
    obtain ⟨m₂, hlink₂, hm₂⟩ := ih hnodup (s.settleHolding k)
    have hlose : (fun (j : Slot) g => decide (j ∈ l) &&
        (s.settleHolding k).loses (s.settleHolding k).dir.rep j g) =
        fun j g => decide (j ∈ l) && s.loses s.dir.rep j g := by
      funext j g
      by_cases hj : j ∈ l
      · rw [(KeepsSlot.settleHolding (fun h => hk (by rw [← h]; exact hj)) s).loses]
      · simp only [hj, decide_false, Bool.false_and]
    have hboth : (fun (j : Slot) g => ((j == k) && s.loses s.dir.rep j g) ||
        (decide (j ∈ l) && s.loses s.dir.rep j g)) = fun j g => decide (j ∈ k :: l) && s.loses s.dir.rep j g := by
      funext j g
      rw [← Bool.and_or_distrib_right]
      simp only [List.mem_cons, Bool.decide_or, Bool.beq_eq_decide_eq]
    refine ⟨m₁ ++ m₂, ?_, fun o ho => ?_⟩
    · rw [List.foldl_cons, hlink₂, hlose, hticks, hlink₁,
        Link.freed_handed _ _ fun o ho => ?_, Link.freed_freed, hboth, Link.handed_handed]
      · have hslot : o.slot = k := by simpa using hm₁ o ho
        simp only [hslot, hk, decide_false, Bool.false_and]
    · rcases List.mem_append.1 ho with h | h
      · have hslot := hm₁ o h
        simp_all
      · have hslot := hm₂ o h
        simp_all

/-- R134: every holding settled. -/
@[irreducible] def State.settleAll (s : State) : State := allSlots.foldl State.settleHolding s

theorem settleAll_changes (s : State) : s.changesOnly s.settleAll settleBlocks := by
  unfold State.settleAll
  exact State.changesOnly.foldl _ settleHolding_changes _ s

/-- R134: every slot is settled once, after and before work that is not about it. -/
theorem settleAll_slot (s : State) (k : Slot) :
    ∃ u, KeepsSlot k s u ∧ KeepsSlot k (u.settleHolding k) s.settleAll := by
  have hnodup : (allSlots : List Slot).Nodup := List.nodup_finRange 48
  obtain ⟨pre, post, hsplit⟩ := List.append_of_mem (List.mem_finRange k)
  have hl : (allSlots : List Slot) = pre ++ k :: post := hsplit
  rw [hl, List.nodup_append] at hnodup
  obtain ⟨-, hpost, hpre⟩ := hnodup
  have hk : k ∉ pre := fun h => hpre k h k (List.mem_cons_self ..) rfl
  unfold State.settleAll
  rw [hl, List.foldl_append, List.foldl_cons]
  exact ⟨_, KeepsSlot.settleOthers hk s, KeepsSlot.settleOthers (List.nodup_cons.1 hpost).1 _⟩

theorem settleAll_rep (s : State) : s.settleAll.dir.rep = s.dir.rep := by
  obtain ⟨u, hu, hv⟩ := settleAll_slot s 0
  have hstep : (u.settleHolding 0).dir.rep = u.dir.rep :=
    (KeepsSlot.settleHolding (k := 1) (by decide) u).rep
  exact hv.rep.trans (hstep.trans hu.rep)

/-- R134, R163: the link controller after the settlement. -/
theorem settledLink_settleAll (s : State) : s.settledLink s.settleAll s.dir.rep := by
  obtain ⟨m, hm, -⟩ := linkSettled_foldl (List.nodup_finRange 48) s
  have hall : (fun (k : Slot) g => decide (k ∈ List.finRange 48) && s.loses s.dir.rep k g) =
      s.loses s.dir.rep := by
    funext k g
    simp only [List.mem_finRange, decide_true, Bool.true_and]
  rw [hall] at hm
  unfold State.settleAll
  exact ⟨m, hm⟩

end Sys2Proof.Machine
end

