-- ==== Sys2Proof/Proofs/FirstEvaluation.lean ====
section
/-! SUPPORT. The first duty evaluation of a new MEMBER (R145, R147, R151): the frames it leaves, the records
without one before, and the adoptions that a failed run leaves. -/

namespace Sys2Proof.Machine

/-! ### Frames that work leaves queued -/

/-- Work that leaves the replica and the frames that `p` picks where they are queued. -/
structure Leaves (p : Replica → Body → Prop) (s t : State) : Prop where
  rep : t.dir.rep = s.dir.rep
  carries : ∀ b, p s.dir.rep b → s.bus.carries b → t.bus.carries b

namespace Leaves

variable {p : Replica → Body → Prop}

theorem refl (s : State) : Leaves p s s := ⟨rfl, fun _ _ h => h⟩

theorem trans {s t u : State} (h : Leaves p s t) (g : Leaves p t u) : Leaves p s u where
  rep := g.rep.trans h.rep
  carries := fun b hb hc => g.carries b (by rw [h.rep]; exact hb) (h.carries b hb hc)

theorem foldl {α : Type} {f : State → α → State} (h : ∀ s x, Leaves p s (f s x)) (l : List α) (s : State) :
    Leaves p s (l.foldl f s) := by
  induction l generalizing s with
  | nil => exact refl s
  | cons x l ih => exact (h s x).trans (ih _)

theorem ite {s t u : State} {c : Prop} [Decidable c] (h : Leaves p s t) (g : Leaves p s u) :
    Leaves p s (if c then t else u) := by
  split
  · exact h
  · exact g

theorem of_bus {s t : State} (hd : t.dir.rep = s.dir.rep) (hb : t.bus = s.bus) : Leaves p s t :=
  ⟨hd, fun _ _ h => by rw [hb]; exact h⟩

theorem queued {s u : State} (hd : u.dir.rep = s.dir.rep) (hb : u.bus = s.bus) (x : Body) :
    Leaves p s (u.queueFrame x) :=
  ⟨hd, fun _ _ h => Bus.carries_queue (by rw [hb]; exact h) _⟩

theorem of_queues {cs : List ShutCause} {s t : State} (h : Queues cs s t) : Leaves p s t where
  rep := h.rep
  carries := fun b _ hb => by
    obtain ⟨n, hn⟩ := h.behind
    unfold Bus.carries
    rw [hn]
    exact List.mem_append_left _ hb

end Leaves

/-- A frame that no failed run withdraws: no SHUT of an orphan. -/
def outlastsRuns (r : Replica) (b : Body) : Prop :=
  ∀ k c a, b = .shut k c a → ∀ h : Station, r.dir[k].orphanOf h = false

theorem mem_orphansOf {s : State} {h : Station} {k : Slot} (hk : k ∈ s.orphansOf h) :
    s.dir.rep.dir[k].orphanOf h = true := by
  obtain ⟨a, ha, rfl⟩ := List.mem_map.1 hk
  have := (List.mem_filter.1 ha).2
  exact (Bool.and_eq_true _ _ ▸ this).2

section
variable {p : Replica → Body → Prop}

theorem leaves_takeRun (s : State) (h : Station) : Leaves p s (s.takeRun h) := by
  unfold State.takeRun
  exact Leaves.ite (Leaves.queued (by rfl) (by rfl) _) (Leaves.refl s)

theorem leaves_takeRuns (s : State) : Leaves p s s.takeRuns := by
  unfold State.takeRuns
  exact Leaves.ite (Leaves.foldl leaves_takeRun _ s) (Leaves.refl s)

theorem leaves_adoptOne (s : State) : Leaves p s s.adoptOne := by
  unfold State.adoptOne
  repeat' split
  next => exact Leaves.queued (by rfl) (by rfl) _
  all_goals exact Leaves.refl s

theorem leaves_adoptAll (s : State) : Leaves p s s.adoptAll := by
  unfold State.adoptAll
  exact Leaves.foldl (fun x _ => leaves_adoptOne x) _ s

theorem leaves_completeRun (s : State) (h : Station) : Leaves p s (s.completeRun h) := by
  unfold State.completeRun
  split
  · exact Leaves.ite (Leaves.queued (by rfl) (by rfl) _) (Leaves.refl s)
  · exact Leaves.refl s

/-- R151: a failed run withdraws SHUTs of its orphans alone. -/
theorem leaves_failRun {h : Station} (hp : ∀ r k a, p r (.shut k .adopted a) → r.dir[k].orphanOf h = false)
    (s : State) : Leaves p s (s.failRun h) := by
  by_cases hc : ∃ d, s.mem.duty[h] = some d ∧ d.phase = .running ∧ 2 ≤ d.timeouts
  · obtain ⟨d, hd, hr, ht⟩ := hc
    rw [failRun_fails hd hr ht]
    refine ⟨rfl, fun b hb hcar => Bus.carries_queue (b := (s.runReported h d).bus) ?_ _⟩
    refine Bus.carries_withdrawUnsent (b := s.bus) hcar (Bool.eq_false_iff.2 fun hpick => ?_)
    obtain ⟨k, a, hbody, hk⟩ := (adoptsOneOf_iff _ _).1 hpick
    have horphan := mem_orphansOf hk
    rw [hp _ k a (by rw [← hbody]; exact hb)] at horphan
    cases horphan
  · push Not at hc
    rw [failRun_kept hc]
    exact Leaves.refl s

end

/-- R145: an evaluation leaves every frame that is no SHUT of an orphan. -/
theorem leaves_dutyEval (s : State) : Leaves outlastsRuns s s.dutyEval := by
  by_cases hm : s.mem.state = .member
  · rw [dutyEval_member hm]
    have hfail (u : State) (h : Station) : Leaves outlastsRuns u (u.failRun h) :=
      leaves_failRun (fun _ k a hb => hb k .adopted a rfl h) u
    exact ((((leaves_takeRuns s).trans (leaves_adoptAll _)).trans (Leaves.foldl leaves_completeRun _ _)).trans
      (Leaves.foldl hfail _ _)).trans
        (Leaves.of_bus (evaluates_testNoAdopter _).rep (testNoAdopter_cases _).1.1)
  · rw [dutyEval_idle hm]
    exact Leaves.refl s

/-! ### Records made by the evaluation (R145) -/

/-- R145: a record that an evaluation makes is QUEUED. -/
theorem dutyEval_made {s : State} {h : Station} (hd : s.mem.duty[h] = none) {d : Duty}
    (ht : s.dutyEval.mem.duty[h] = some d) : d.phase = .queued := by
  by_cases hm : s.mem.state = .member
  · have htaken : s.takeRuns.mem.duty[h] = none ∨ ∃ d, s.takeRuns.mem.duty[h] = some d ∧ d.phase = .queued := by
      have hstep (u : State) (j : Station)
          (hu : u.mem.duty[h] = none ∨ ∃ d, u.mem.duty[h] = some d ∧ d.phase = .queued) :
          (u.takeRun j).mem.duty[h] = none ∨ ∃ d, (u.takeRun j).mem.duty[h] = some d ∧ d.phase = .queued := by
        unfold State.takeRun
        split
        · by_cases hj : h = j
          · exact .inr ⟨_, (setDuty_get u j _ h).trans (if_pos hj), rfl⟩
          · have hkeep := (setDuty_get u j (some { phase := .queued, timeouts := 0, lastTimeout := none }) h).trans
              (if_neg hj)
            exact hu.imp hkeep.trans fun ⟨d, hd, hq⟩ => ⟨d, hkeep.trans hd, hq⟩
        · exact hu
      unfold State.takeRuns
      split
      · exact List.foldlRecOn (motive := fun u : State => u.mem.duty[h] = none ∨
          ∃ d, u.mem.duty[h] = some d ∧ d.phase = .queued) allStations State.takeRun (.inl hd)
          fun u hu j _ => hstep u j hu
      · exact .inl hd
    rw [dutyEval_member hm, (testNoAdopter_cases _).1.2.1] at ht
    rw [← (adoptAll_kept s.takeRuns).1] at htaken
    generalize s.takeRuns.adoptAll = u at htaken ht
    rcases htaken with hnone | ⟨e, he, hq⟩
    · have hno (v : State) (hv : v.mem.duty[h] = none) (d : Duty) (hd' : v.mem.duty[h] = some d) : False :=
        nomatch hv.symm.trans hd'
      have hcomplete := foldl_noDuty State.completeRun
        (fun v hv => completeRun_kept fun d hd' => (hno v hv d hd').elim)
        (fun v j hne => completeRun_other hne) allStations hnone
      have hfail := foldl_noDuty State.failRun (fun v hv => failRun_kept fun d hd' => (hno v hv d hd').elim)
        (fun v j hne => failRun_other hne) allStations hcomplete
      exact (hno _ hfail d ht).elim
    · have hcomplete := completeRuns_kept allStations he fun hr => nomatch hq.symm.trans hr
      have hfail := failRuns_kept allStations hcomplete fun hr => nomatch hq.symm.trans hr
      cases hfail.symm.trans ht
      exact hq
  · rw [dutyEval_idle hm, hd] at ht
    cases ht

/-- R150: a run that has not counted two timeouts goes on, or is complete. -/
theorem dutyEval_running {s : State} {h : Station} {d : Duty} (hd : s.mem.duty[h] = some d)
    (hr : d.phase = .running) (ht : d.timeouts < 2) :
    ∃ d', s.dutyEval.mem.duty[h] = some d' ∧ d'.timeouts = d.timeouts ∧
      (d'.phase = .running ∨ d'.phase = .ending .done ∧ s.dutyEval.bus.carries (.takeoverEnd h .done)) := by
  by_cases hm : s.mem.state = .member
  · obtain ⟨hd1, -, -⟩ := dutyEval_taken hd
    rw [dutyEval_member hm]
    generalize s.takeRuns.adoptAll = u at hd1 ⊢
    obtain ⟨⟨hbus, hduty, -⟩, -⟩ := testNoAdopter_cases
      (allStations.foldl State.failRun (allStations.foldl State.completeRun u))
    rw [hduty, hbus]
    by_cases hc : u.dir.rep.hasOrphan h = true ∨ ∃ a ∈ u.mem.adoption, a.former = h
    · have hkept := failRuns_kept allStations (completeRuns_kept allStations hd1 fun _ => hc) fun _ => ht
      exact ⟨d, hkept, rfl, .inl hr⟩
    · push Not at hc
      have hmem : h ∈ allStations := List.mem_finRange h
      obtain ⟨hdone, hcar⟩ := completeRuns_done hmem hd1 hr (Bool.eq_false_iff.2 hc.1) hc.2
      exact ⟨_, failRuns_kept allStations hdone fun hp => (nomatch hp), rfl,
        .inr ⟨rfl, (evaluates_failRuns allStations _).carries _ rfl hcar⟩⟩
  · rw [dutyEval_idle hm]
    exact ⟨d, hd, rfl, .inl hr⟩

/-! ### Adoptions that a failed run leaves (R151) -/

theorem Bus.carried_waits {b : Bus} {q : QFrame} (h : q ∈ b.tx ++ b.held) :
    q ∈ b.waiting ∨ b.sending.isSome ∧ b.tx.head? = some q := by
  unfold Bus.waiting
  split
  next sg x rest hs ht =>
    rw [ht] at h
    split
    · rcases List.mem_cons.1 h with rfl | hr
      · exact .inr ⟨by rw [hs]; rfl, by rw [ht]; rfl⟩
      · exact .inl hr
    · exact .inl (by rw [ht]; exact h)
  · exact .inl h

/-- R151: of the frames a withdrawal picks the one on the medium stays. -/
theorem Bus.mem_tx_withdrawUnsent {b : Bus} {p : QFrame → Bool} {q : QFrame}
    (h : q ∈ (b.withdrawUnsent p).tx) (hp : p q = true) : b.sending.isSome ∧ b.tx.head? = some q := by
  unfold Bus.withdrawUnsent at h
  split at h
  next sg x rest hs ht =>
    rcases List.mem_cons.1 h with rfl | hr
    · exact ⟨by rw [hs]; rfl, by rw [ht]; rfl⟩
    · have := (List.mem_filter.1 hr).2
      rw [hp] at this
      cases this
  next hne =>
    unfold Bus.withdraw at h
    split at h
    next sg x rest hs ht => exact absurd ht (hne sg x rest hs)
    · simp [hp] at h

/-- The SHUT of the slot of an adoption is on the medium. -/
def State.shutOnMedium (s : State) (k : Slot) : Prop :=
  s.bus.sending.isSome ∧ ∃ q x, s.bus.tx.head? = some q ∧ q.body = .shut k .adopted x

theorem Heads.shutOnMedium {s t : State} (h : Heads s t) {k : Slot} (hs : s.shutOnMedium k) : t.shutOnMedium k := by
  obtain ⟨hsend, q, x, hq, hb⟩ := hs
  exact ⟨by rw [h.sending]; exact hsend, q, x, h.head q hq (.inl hsend), hb⟩

/-- R147: every adoption of an orphan of `h` has its SHUT queued. -/
def State.adoptsQueued (s : State) (h : Station) : Prop :=
  ∀ a ∈ s.mem.adoption, a.former = h → s.dir.rep.dir[a.slot].orphanOf h = true →
    s.bus.carries (.shut a.slot .adopted none)

/-- R151: every adoption of an orphan of `h` has its SHUT on the medium. -/
def State.adoptsOnMedium (s : State) (h : Station) : Prop :=
  ∀ a ∈ s.mem.adoption, a.former = h → s.dir.rep.dir[a.slot].orphanOf h = true → s.shutOnMedium a.slot

theorem adoptsQueued_adoptOne {s : State} {h : Station} (hs : s.adoptsQueued h) : s.adoptOne.adoptsQueued h := by
  unfold State.adoptOne
  repeat' split
  next j k _ g _ =>
    intro a ha hf ho
    rcases List.mem_append.1 ha with hold | hnew
    · exact Bus.carries_queue (hs a hold hf ho) _
    · rw [List.mem_singleton.1 hnew]
      exact Bus.gained_carries (Bus.queue_gained s.bus _)
  all_goals exact hs

/-- An orphan has one former holder. -/
theorem orphanOf_unique {e : DirEntry} {h j : Station} (hh : e.orphanOf h = true) (hj : e.orphanOf j = true) :
    h = j := by
  cases e <;> simp_all [DirEntry.orphanOf]

theorem adoptsQueued_leaves {s t : State} {h : Station}
    (hl : Leaves (fun r b => ∃ k, b = .shut k .adopted none ∧ r.dir[k].orphanOf h = true) s t)
    (ha : ∀ a ∈ t.mem.adoption, a ∈ s.mem.adoption) (hs : s.adoptsQueued h) : t.adoptsQueued h := by
  intro a hmem hf ho
  rw [hl.rep] at ho
  exact hl.carries _ ⟨a.slot, rfl, ho⟩ (hs a (ha a hmem) hf ho)

theorem failRun_adoption (s : State) (j : Station) : ∀ a ∈ (s.failRun j).mem.adoption, a ∈ s.mem.adoption := by
  by_cases hc : ∃ d, s.mem.duty[j] = some d ∧ d.phase = .running ∧ 2 ≤ d.timeouts
  · obtain ⟨d, hd, hr, ht⟩ := hc
    rw [failRun_fails hd hr ht]
    exact fun a ha => List.mem_of_mem_filter ha
  · push Not at hc
    rw [failRun_kept hc]
    exact fun a ha => ha

theorem adoptsOnMedium_heads {s t : State} {h : Station} (hrep : t.dir.rep = s.dir.rep)
    (ha : ∀ a ∈ t.mem.adoption, a ∈ s.mem.adoption) (hh : Heads s t) (hs : s.adoptsOnMedium h) :
    t.adoptsOnMedium h := by
  intro a hmem hf ho
  rw [hrep] at ho
  exact hh.shutOnMedium (hs a (ha a hmem) hf ho)

/-- R151: the failure of a run drops the adoptions of its orphans, but for one whose SHUT is on the medium. -/
theorem failRun_onMedium {s : State} {h : Station} {d : Duty} (hs : s.adoptsQueued h)
    (hd : s.mem.duty[h] = some d) (hr : d.phase = .running) (ht : 2 ≤ d.timeouts) :
    (s.failRun h).adoptsOnMedium h := by
  have hheads := heads_failRun s h
  have hrep := (evaluates_failRun s h).rep
  intro a ha hf ho
  rw [hrep] at ho
  have hkept : a ∈ s.mem.adoption ∧ s.dropsAdoption h d a = false := by
    rw [failRun_fails hd hr ht] at ha
    have := List.mem_filter.1 (show a ∈ s.mem.adoption.filter fun a => !s.dropsAdoption h d a from ha)
    exact ⟨this.1, by simpa using this.2⟩
  obtain ⟨hmem, hdrop⟩ := hkept
  have hmine : (s.orphansOf h).contains a.slot = true :=
    List.contains_iff_mem.2 (List.mem_map.2 ⟨a, List.mem_filter.2
      ⟨hmem, by rw [Bool.and_eq_true]; exact ⟨beq_iff_eq.2 hf, ho⟩⟩, rfl⟩)
  refine hheads.shutOnMedium ?_
  -- the frame that stands for the adoption waits no more, or has outlasted the withdrawal
  have hcases : s.isQueued (adoptsOneOf [a.slot]) = false ∨
      ((s.runReported h d).bus.tx.any fun q => adoptsOneOf [a.slot] q.body) = true := by
    unfold State.dropsAdoption at hdrop
    rw [hmine, Bool.true_and] at hdrop
    rcases Bool.and_eq_false_iff.1 hdrop with h1 | h1
    · exact .inl h1
    · rw [Bool.not_eq_false'] at h1
      exact .inr h1
  rcases hcases with hidle | hany
  · rcases Bus.carried_waits (hs a hmem hf ho) with hwait | ⟨hsend, hhead⟩
    · refine absurd (List.any_eq_true.2 ⟨_, hwait, ?_⟩) (Bool.eq_false_iff.1 hidle)
      exact (adoptsOneOf_iff _ _).2 ⟨a.slot, none, rfl, List.mem_singleton.2 rfl⟩
    · exact ⟨hsend, _, none, hhead, rfl⟩
  · obtain ⟨q, hq, hpick⟩ := List.any_eq_true.1 hany
    obtain ⟨k, x, hb, hk⟩ := (adoptsOneOf_iff _ _).1 hpick
    rw [List.mem_singleton.1 hk] at hb
    obtain ⟨hsend, hhead⟩ := Bus.mem_tx_withdrawUnsent (b := s.bus) hq
      ((adoptsOneOf_iff _ _).2 ⟨a.slot, x, hb, List.contains_iff_mem.1 hmine⟩)
    exact ⟨hsend, q, x, hhead, hb⟩

theorem failRuns_onMedium {h : Station} {d : Duty} {l : List Station} (hl : h ∈ l) {s : State}
    (hs : s.adoptsQueued h) (hd : s.mem.duty[h] = some d) (hr : d.phase = .running) (ht : 2 ≤ d.timeouts) :
    (l.foldl State.failRun s).adoptsOnMedium h := by
  induction l generalizing s with
  | nil => cases hl
  | cons j l ih =>
    by_cases hj : h = j
    · subst hj
      have hrest : ∀ a ∈ (l.foldl State.failRun (s.failRun h)).mem.adoption, a ∈ (s.failRun h).mem.adoption :=
        List.foldlRecOn (motive := fun u : State => ∀ a ∈ u.mem.adoption, a ∈ (s.failRun h).mem.adoption) l
          State.failRun (fun _ ha => ha) fun u hu j _ a ha => hu a (failRun_adoption u j a ha)
      exact adoptsOnMedium_heads (evaluates_failRuns l _).rep hrest (Heads.foldl _ heads_failRun l _)
        (failRun_onMedium hs hd hr ht)
    · refine ih ((List.mem_cons.1 hl).resolve_left hj) ?_ ((failRun_other hj).trans hd)
      refine adoptsQueued_leaves (leaves_failRun (fun r k a ⟨i, hi, ho⟩ => ?_) s) (failRun_adoption s j) hs
      obtain ⟨rfl, -, -⟩ := Body.shut.inj hi
      exact Bool.eq_false_iff.2 fun hoj => hj (orphanOf_unique ho hoj)

/-- R151: the adoptions that an evaluation leaves for a failed run. -/
theorem dutyEval_onMedium {s : State} (hm : s.mem.state = .member) {h : Station} {d : Duty}
    (hd : s.mem.duty[h] = some d) (hr : d.phase = .running) (ht : 2 ≤ d.timeouts)
    (ho : s.dir.rep.hasOrphan h = true)
    (hno : ∀ a ∈ s.mem.adoption, s.dir.rep.dir[a.slot].orphanOf h = false) : s.dutyEval.adoptsOnMedium h := by
  have hqueued : s.takeRuns.adoptAll.adoptsQueued h := by
    have htake : s.takeRuns.adoptsQueued h := by
      intro a ha _ hoa
      rw [(takeRuns_kept hd).2] at ha
      rw [(evaluates_takeRuns s).rep, hno a ha] at hoa
      cases hoa
    unfold State.adoptAll
    exact List.foldlRecOn (motive := fun u : State => u.adoptsQueued h) (List.range 4) (fun x _ => x.adoptOne)
      htake fun u hu _ _ => adoptsQueued_adoptOne hu
  obtain ⟨hd1, -, hr1⟩ := dutyEval_taken hd
  rw [dutyEval_member hm]
  rw [← hr1] at ho
  generalize s.takeRuns.adoptAll = u at hqueued hd1 ho ⊢
  have hadopt : (allStations.foldl State.completeRun u).mem.adoption = u.mem.adoption :=
    List.foldlRecOn (motive := fun v : State => v.mem.adoption = u.mem.adoption) allStations
      State.completeRun rfl fun v hv j _ => (completeRun_adoption v j).trans hv
  have hq2 := adoptsQueued_leaves (h := h) (Leaves.foldl leaves_completeRun allStations u)
    (fun a ha => by rw [hadopt] at ha; exact ha) hqueued
  have hmem : h ∈ allStations := List.mem_finRange h
  have hfail := failRuns_onMedium hmem hq2 (completeRuns_kept allStations hd1 fun _ => .inl ho) hr ht
  obtain ⟨⟨hbus, -, hadopt'⟩, -⟩ := testNoAdopter_cases
    (allStations.foldl State.failRun (allStations.foldl State.completeRun u))
  refine adoptsOnMedium_heads (evaluates_testNoAdopter _).rep (fun a ha => ?_) (Heads.of_bus hbus) hfail
  rw [hadopt'] at ha
  exact ha

end Sys2Proof.Machine
end

