-- ==== Sys2Proof/Proofs/MemberDues.lean ====
section
/-! SUPPORT. Duty and holdings of a station that has become MEMBER again (R50, R134, R154): the records settled,
the dues queued, and what stands once the work that follows is done. -/

namespace Sys2Proof.Machine

/-! ### The record of a former holder through other work -/

/-- Every frame. -/
def anyFrame : Replica → Body → Prop := fun _ _ => True

/-- Work that leaves the duty record for `h` and every frame queued. -/
structure KeepsDuty (h : Station) (s t : State) : Prop extends Leaves anyFrame s t where
  stn : t.mem.stn = s.mem.stn
  duty : t.mem.duty[h] = s.mem.duty[h]

namespace KeepsDuty

variable {h : Station}

theorem refl (s : State) : KeepsDuty h s s := ⟨Leaves.refl s, rfl, rfl⟩

theorem trans {s t u : State} (g : KeepsDuty h s t) (f : KeepsDuty h t u) : KeepsDuty h s u :=
  ⟨g.toLeaves.trans f.toLeaves, f.stn.trans g.stn, f.duty.trans g.duty⟩

theorem of_mem {s t : State} (hl : Leaves anyFrame s t) (hm : t.mem = s.mem) : KeepsDuty h s t :=
  ⟨hl, by rw [hm], by rw [hm]⟩

theorem foldl {α : Type} {f : State → α → State} {l : List α} (hf : ∀ s, ∀ x ∈ l, KeepsDuty h s (f s x))
    (s : State) : KeepsDuty h s (l.foldl f s) := by
  induction l generalizing s with
  | nil => exact refl s
  | cons x l ih =>
    exact (hf s x (List.mem_cons_self ..)).trans
      (ih (fun t y hy => hf t y (List.mem_cons_of_mem x hy)) (f s x))

end KeepsDuty

/-! ### Duty settled (R154) -/

theorem ownTakeover_changes (s : State) (h : Station) : s.changesOnly (s.ownTakeover h) dutyBlocks :=
  (setDuty_changes s h _).andThen (onFlt_changes _ _) (fun _ => id) (by decide)

theorem settleDuty_changes (s : State) (h : Station) : s.changesOnly (s.settleDuty h) dutyBlocks := by
  unfold State.settleDuty
  split
  · split
    · exact ownTakeover_changes s h
    · split
      · exact State.changesOnly.refl s _
      · exact queue_duty (State.changesOnly.refl s _) _
      · exact ownTakeover_changes s h
  · exact setDuty_changes s h none

theorem dutiful_settleDuty (s : State) (h : Station) : Dutiful s (s.settleDuty h) := by
  unfold State.settleDuty
  split
  · split
    · exact ⟨rfl⟩
    · split <;> exact ⟨rfl⟩
  · exact ⟨rfl⟩

theorem leaves_settleDuty {p : Replica → Body → Prop} (s : State) (h : Station) : Leaves p s (s.settleDuty h) := by
  have htake : Leaves p s (s.ownTakeover h) := Leaves.of_bus rfl rfl
  unfold State.settleDuty
  split
  · split
    · exact htake
    · split
      · exact Leaves.refl s
      · exact Leaves.queued (by rfl) (by rfl) _
      · exact htake
  · exact Leaves.of_bus rfl rfl

theorem ownTakeover_duty (s : State) (h j : Station) :
    (s.ownTakeover j).mem.duty[h] =
      if h = j then some { phase := .running, timeouts := 0, lastTimeout := none } else s.mem.duty[h] :=
  setDuty_get s j _ h

theorem settleDuty_other {h j : Station} (hj : h ≠ j) (s : State) : KeepsDuty h s (s.settleDuty j) := by
  refine ⟨leaves_settleDuty s j, by rw [(dutiful_settleDuty s j).mem], ?_⟩
  have htake : (s.ownTakeover j).mem.duty[h] = s.mem.duty[h] := (ownTakeover_duty s h j).trans (if_neg hj)
  unfold State.settleDuty
  split
  · split
    · exact htake
    · split
      · rfl
      · rfl
      · exact htake
  · exact (setDuty_get s j none h).trans (if_neg hj)

/-- R154: the record for `h` once it is settled. -/
structure DutyReady (h : Station) (s t : State) : Prop where
  lost : s.dir.rep.runs[h] ≠ some s.mem.stn → t.mem.duty[h] = none
  ending : s.dir.rep.runs[h] = some s.mem.stn → ∀ d o, s.mem.duty[h] = some d → d.phase = .ending o →
    t.mem.duty[h] = some d ∧ t.bus.carries (.takeoverEnd h o)
  running : s.dir.rep.runs[h] = some s.mem.stn → ∀ d, s.mem.duty[h] = some d → d.phase = .running →
    t.mem.duty[h] = some d
  begun : s.dir.rep.runs[h] = some s.mem.stn → s.mem.duty[h] = none →
    t.mem.duty[h] = some { phase := .running, timeouts := 0, lastTimeout := none }

theorem KeepsDuty.ready {h : Station} {s t u : State} (g : KeepsDuty h t u) (f : DutyReady h s t) :
    DutyReady h s u where
  lost := fun hr => g.duty.trans (f.lost hr)
  ending := fun hr d o hd ho =>
    ⟨g.duty.trans (f.ending hr d o hd ho).1, g.carries _ trivial (f.ending hr d o hd ho).2⟩
  running := fun hr d hd ho => g.duty.trans (f.running hr d hd ho)
  begun := fun hr hd => g.duty.trans (f.begun hr hd)

theorem DutyReady.of_kept {h : Station} {s t u : State} (g : KeepsDuty h s t) (f : DutyReady h t u) :
    DutyReady h s u := by
  obtain ⟨hlost, hending, hrunning, hbegun⟩ := f
  rw [g.rep, g.stn, g.duty] at *
  exact ⟨hlost, hending, hrunning, hbegun⟩

theorem settleDuty_lost {s : State} {h : Station} (hr : s.dir.rep.runs[h] ≠ some s.mem.stn) :
    s.settleDuty h = s.setDuty h none := if_neg hr

theorem settleDuty_begins {s : State} {h : Station} (hr : s.dir.rep.runs[h] = some s.mem.stn)
    (hd : s.mem.duty[h] = none) : s.settleDuty h = s.ownTakeover h := by
  simp only [State.settleDuty, State.me, hr, if_true, hd]

theorem settleDuty_runs {s : State} {h : Station} {d : Duty} (hr : s.dir.rep.runs[h] = some s.mem.stn)
    (hd : s.mem.duty[h] = some d) (hp : d.phase = .running) : s.settleDuty h = s := by
  simp only [State.settleDuty, State.me, hr, if_true, hd, hp]

theorem settleDuty_ends {s : State} {h : Station} {d : Duty} {o : RunOutcome}
    (hr : s.dir.rep.runs[h] = some s.mem.stn) (hd : s.mem.duty[h] = some d) (hp : d.phase = .ending o) :
    s.settleDuty h = s.queueFrame (.takeoverEnd h o) := by
  simp only [State.settleDuty, State.me, hr, if_true, hd, hp]

theorem ready_settleDuty (s : State) (h : Station) : DutyReady h s (s.settleDuty h) where
  lost := fun hr => by
    rw [settleDuty_lost hr]
    exact (setDuty_get s h none h).trans (if_pos rfl)
  ending := fun hr d o hd ho => by
    rw [settleDuty_ends hr hd ho]
    exact ⟨hd, Bus.gained_carries (Bus.queue_gained s.bus _)⟩
  running := fun hr d hd ho => by rwa [settleDuty_runs hr hd ho]
  begun := fun hr hd => by
    rw [settleDuty_begins hr hd]
    exact (ownTakeover_duty s h h).trans (if_pos rfl)

/-- R154: every record settled. -/
@[irreducible] def State.settleDuties (s : State) : State := allStations.foldl State.settleDuty s

theorem settleDuties_changes (s : State) : s.changesOnly s.settleDuties dutyBlocks := by
  unfold State.settleDuties
  exact State.changesOnly.foldl _ settleDuty_changes _ s

theorem dutiful_settleDuties (s : State) : Dutiful s s.settleDuties := by
  unfold State.settleDuties
  exact Dutiful.foldl _ dutiful_settleDuty _ s

theorem ready_settleDuties (s : State) (h : Station) : DutyReady h s s.settleDuties := by
  have hnodup : (allStations : List Station).Nodup := List.nodup_finRange 8
  obtain ⟨pre, post, hsplit⟩ := List.append_of_mem (List.mem_finRange h)
  have hl : (allStations : List Station) = pre ++ h :: post := hsplit
  rw [hl, List.nodup_append] at hnodup
  obtain ⟨-, hpost, hpre⟩ := hnodup
  have hothers {l : List Station} (hn : h ∉ l) (u : State) : KeepsDuty h u (l.foldl State.settleDuty u) :=
    KeepsDuty.foldl (fun t j hj => settleDuty_other (fun he => hn (by rw [he]; exact hj)) t) u
  unfold State.settleDuties
  rw [hl, List.foldl_append, List.foldl_cons]
  exact (hothers (List.nodup_cons.1 hpost).1 _).ready
    (.of_kept (hothers (fun hm => hpre h hm h (List.mem_cons_self ..) rfl) s) (ready_settleDuty _ h))

theorem reconcileDuty_eq (s : State) :
    s.reconcileDuty = s.settleDuties.onMem fun m =>
      { m with adoption := m.adoption.filter fun a => s.shutApplied a.slot } := by
  unfold State.reconcileDuty State.settleDuties
  rfl

theorem reconcileDuty_changes (s : State) : s.changesOnly s.reconcileDuty dutyBlocks := by
  rw [reconcileDuty_eq]
  exact (settleDuties_changes s).andThen (onMem_changes _ _) (fun _ => id) (by decide)

theorem dutiful_reconcileDuty (s : State) : Dutiful s s.reconcileDuty := by
  rw [reconcileDuty_eq]
  exact (dutiful_settleDuties s).trans ⟨rfl⟩

theorem ready_reconcileDuty (s : State) (h : Station) : DutyReady h s s.reconcileDuty := by
  rw [reconcileDuty_eq]
  exact KeepsDuty.ready (t := s.settleDuties) ⟨Leaves.of_bus rfl rfl, rfl, rfl⟩ (ready_settleDuties s h)

/-- R154: an adoption that stays is that of no orphan. -/
theorem reconcileDuty_adoption (s : State) (h : Station) :
    ∀ a ∈ s.reconcileDuty.mem.adoption, s.dir.rep.dir[a.slot].orphanOf h = false := by
  rw [reconcileDuty_eq]
  intro a ha
  have happlied := (List.mem_filter.1 ha).2
  unfold State.shutApplied at happlied
  rw [Bool.and_eq_true] at happlied
  cases hk : s.dir.rep.dir[a.slot] <;> rw [hk] at happlied <;> first | rfl | exact nomatch happlied.2

/-! ### The dues of a new MEMBER (R50) -/

theorem leaves_queueDue {p : Replica → Body → Prop} (s : State) (k : Slot) : Leaves p s (s.queueDue k) := by
  have hdone : Leaves p s (s.queueShutDone k) := by
    unfold State.queueShutDone
    split
    · split
      · exact Leaves.refl s
      · exact Leaves.queued (by rfl) (by rfl) _
      · split <;> exact Leaves.queued (by rfl) (by rfl) _
    · exact Leaves.refl s
  unfold State.queueDue
  split
  · split
    · exact Leaves.queued (by rfl) (by rfl) _
    · exact hdone
  · exact Leaves.refl s

theorem queueDue_shut {s : State} {k : Slot} {x : Ext} {c : ShutCause} (hx : s.dir.ext[k] = some x)
    (hd : x.shutDue = some c) : (s.queueDue k).bus.carries (shutBody k x c) := by
  simp only [State.queueDue, hx, hd]
  exact Bus.gained_carries (Bus.queue_gained s.bus _)

theorem queueDue_done {s : State} {k : Slot} {x : Ext} {o : CloseReport} {h : Station} {kd : SlotKind} {g : Gen}
    {c : ShutCause} {a : Fin 2} (hx : s.dir.ext[k] = some x) (hd : x.shutDue = none) (ho : x.closeReport = some o)
    (hr : s.dir.rep.dir[k] = .closing h kd g c a) :
    (s.queueDue k).bus.carries
      (.shutDone k (if o = .closed then .closed else if a = 0 then .retrying else .quarantined)) := by
  simp only [State.queueDue, hx, hd]
  exact Bus.gained_carries (queueShutDone_gained hx ho hr rfl).1

/-- R50: every due queued. -/
@[irreducible] def State.queueDues (s : State) : State := allSlots.foldl State.queueDue s

theorem queueDues_changes (s : State) : s.changesOnly s.queueDues [.bus, .flt] := by
  unfold State.queueDues
  exact State.changesOnly.foldl _ queueDue_changes _ s

theorem leaves_queueDues {p : Replica → Body → Prop} (s : State) : Leaves p s s.queueDues := by
  unfold State.queueDues
  exact Leaves.foldl leaves_queueDue _ s

/-- R50: the due of a slot is read from the directory engine. -/
theorem queueDues_carries {s : State} {k : Slot} {b : Body}
    (h : ∀ u : State, u.dir = s.dir → (u.queueDue k).bus.carries b) : s.queueDues.bus.carries b := by
  obtain ⟨pre, post, hsplit⟩ := List.append_of_mem (List.mem_finRange k)
  have hl : (allSlots : List Slot) = pre ++ k :: post := hsplit
  unfold State.queueDues
  rw [hl, List.foldl_append, List.foldl_cons]
  have hdir := (State.changesOnly.foldl _ queueDue_changes pre s).1 .dir (by simp)
  exact (Leaves.foldl (p := anyFrame) leaves_queueDue post _).carries b trivial (h _ hdir)

/-! ### The work of a new MEMBER (R50, R57, R75, R138, R141, R145) -/

/-- R50, R57, R75, R138: a new MEMBER before its duty evaluation. -/
@[irreducible] def State.dueWorked (s : State) : State := s.queueDues.policyPass.evalPressure.absenceScan

theorem afterMember_eq (s : State) : s.afterMember = s.dueWorked.dutyEval.queueLeave := by
  unfold State.afterMember State.dueWorked State.queueDues
  rfl

theorem leaves_absenceScan {p : Replica → Body → Prop} (s : State) : Leaves p s s.absenceScan := by
  unfold State.absenceScan
  refine Leaves.foldl (fun x st => Leaves.ite (Leaves.refl x) ?_) _ s
  unfold State.queueAbsent
  exact Leaves.ite (Leaves.queued (by rfl) (by rfl) _) (Leaves.refl x)

/-- R57, R75: policy work of a new MEMBER, once its dues are queued. -/
theorem queues_policed (s : State) : Queues [.full, .pressure] s s.policyPass.evalPressure :=
  (queues_policyPass s [] (by simp)).trans (queues_evalPressure _ (by simp) (by simp))

theorem leaves_dueWorked {p : Replica → Body → Prop} (s : State) : Leaves p s.queueDues s.dueWorked := by
  unfold State.dueWorked
  exact (Leaves.of_queues (queues_policed s.queueDues)).trans (leaves_absenceScan _)

theorem dueWorked_mem (s : State) : s.dueWorked.mem = s.mem := by
  unfold State.dueWorked
  rw [(absenceScan_changes _).1 .mem (by simp), (queues_policed s.queueDues).mem,
    (queueDues_changes s).1 .mem (by simp)]

theorem KeepsSlot.of_changes {k : Slot} {s t : State} {l : List Block} (h : s.changesOnly t l) (hd : .dir ∉ l)
    (hl : .link ∉ l) (hs : t.mem.stn = s.mem.stn) : KeepsSlot k s t :=
  of_blocks (h.1 .dir hd) (h.1 .link hl) hs

theorem keepsSlot_dueWorked (s : State) (k : Slot) : KeepsSlot k s s.dueWorked := by
  have hdues : KeepsSlot k s s.queueDues :=
    .of_changes (queueDues_changes s) (by simp) (by simp) (by rw [(queueDues_changes s).1 .mem (by simp)])
  unfold State.dueWorked
  have hscan := absenceScan_changes s.queueDues.policyPass.evalPressure
  exact (hdues.trans (.of_polices k (queues_policed _).toPolices)).trans
    (.of_changes hscan (by simp) (by simp) (by rw [hscan.1 .mem (by simp)]))

theorem dueWorked_dir (s : State) :
    s.dueWorked.dir.log = s.dir.log ∧ s.dueWorked.dir.snap = s.dir.snap ∧
      (s.dueWorked.dir.request = s.dir.request ∨ ∃ e, s.dueWorked.dir.request = some (.recall e)) := by
  have hp := queues_policed s.queueDues
  unfold State.dueWorked
  rw [(absenceScan_changes _).1 .dir (by simp), hp.log, hp.snap, (queueDues_changes s).1 .dir (by simp)]
  refine ⟨rfl, rfl, ?_⟩
  have hasked := hp.asked
  rw [(queueDues_changes s).1 .dir (by simp)] at hasked
  exact hasked.imp_right fun ⟨e, he, _⟩ => ⟨e, he⟩

theorem dutiful_leave (s : State) : Dutiful s s.dutyEval.queueLeave :=
  (dutiful_dutyEval s).trans (dutiful_queueLeave _)

theorem keepsSlot_leave (s : State) (k : Slot) : KeepsSlot k s s.dutyEval.queueLeave :=
  .of_changes ((dutyEval_changes s).andThen (queueLeave_changes _) (n := dutyBlocks) (fun _ => id) (by decide))
    (by decide) (by decide) (by rw [(dutiful_leave s).mem])

theorem leaves_queueLeave {p : Replica → Body → Prop} (s : State) : Leaves p s s.queueLeave := by
  unfold State.queueLeave
  exact Leaves.ite (Leaves.queued (by rfl) (by rfl) _) (Leaves.refl s)

theorem keepsSlot_afterMember (s : State) (k : Slot) : KeepsSlot k s s.afterMember := by
  rw [afterMember_eq]
  exact (keepsSlot_dueWorked s k).trans (keepsSlot_leave _ k)

/-- R50: a due that is no SHUT of an orphan is queued once the work of a new MEMBER is done. -/
theorem afterMember_carries {s : State} {k : Slot} {b : Body} (hb : outlastsRuns s.dir.rep b)
    (h : ∀ u : State, u.dir = s.dir → (u.queueDue k).bus.carries b) : s.afterMember.bus.carries b := by
  have hdues : Leaves outlastsRuns s s.queueDues := leaves_queueDues s
  have hready : Leaves outlastsRuns s s.dueWorked := hdues.trans (leaves_dueWorked s)
  rw [afterMember_eq]
  refine ((leaves_dutyEval s.dueWorked).trans (leaves_queueLeave _)).carries b (by rw [hready.rep]; exact hb) ?_
  exact (leaves_dueWorked s).carries b (by rw [hdues.rep]; exact hb) (queueDues_carries h)

end Sys2Proof.Machine
end

