-- ==== Sys2Proof/Proofs/Rejoin.lean ====
section
/-! SUPPORT. The end of catch-up (R133, R134, R154): a station that its replica shows PRESENT becomes MEMBER,
its holdings, its duty and its tracker places settled. -/

namespace Sys2Proof.Machine

/-! ### The step to MEMBER (R133, R134, R154) -/

/-- R133: the attempt has ended well. -/
def State.attemptEnded (s : State) : State :=
  (s.onDir fun d => { d with request := none, log := [], snap := [] }).onMem fun m => { m with attempts := 0 }

/-- R133, R134, R154: the station in MEMBER with its holdings and its duty settled. -/
@[irreducible] def State.rejoined (s : State) : State := (s.settleAll.attemptEnded.enter .member).reconcileDuty

theorem rejoinDrive_eq (s : State) : s.rejoinDrive = s.rejoined.afterMember := by
  unfold State.rejoinDrive State.rejoined State.settleAll State.attemptEnded
  rfl

theorem settleAll_mem (s : State) : s.settleAll.mem = s.mem := (settleAll_changes s).1 .mem (by decide)

theorem rejoined_mem (s : State) : s.rejoined.mem =
    { s.mem with
      state := .member, attempts := 0, duty := s.rejoined.mem.duty, adoption := s.rejoined.mem.adoption,
      noAdopter := s.rejoined.mem.noAdopter } := by
  unfold State.rejoined
  have h := (dutiful_reconcileDuty (s.settleAll.attemptEnded.enter .member)).mem
  generalize (s.settleAll.attemptEnded.enter .member).reconcileDuty = t at h ⊢
  rw [h, enter_mem, State.attemptEnded, State.onMem_mem, State.onDir_mem, settleAll_mem]

theorem rejoined_dir (s : State) : s.rejoined.dir =
    { s.settleAll.dir with request := none, log := [], snap := [] } := by
  unfold State.rejoined
  rw [(reconcileDuty_changes _).1 .dir (by decide)]
  rfl

theorem rejoined_link (s : State) : s.rejoined.link = s.settleAll.link := by
  unfold State.rejoined
  rw [(reconcileDuty_changes _).1 .link (by decide)]
  rfl

theorem rejoined_rep (s : State) : s.rejoined.dir.rep = s.dir.rep := by
  rw [rejoined_dir]
  exact settleAll_rep s

/-- R134: what the end of catch-up may change. -/
def rejoinBlocks : List Block := [.str, .plc, .dir, .bus, .mem, .link, .flt]

theorem rejoined_changes (s : State) : s.changesOnly s.rejoined rejoinBlocks := by
  have hended (u : State) : u.changesOnly u.attemptEnded rejoinBlocks :=
    (onDir_changes u _).andThen (onMem_changes _ _) (by decide) (by decide)
  unfold State.rejoined
  exact (((settleAll_changes s).andThen (hended _) (n := rejoinBlocks) (by decide) (fun _ => id)).andThen
    (enter_changes _ _) (n := rejoinBlocks) (fun _ => id) (by decide)).andThen (reconcileDuty_changes _)
    (fun _ => id) (by decide)

theorem keepsSlot_rejoined (s : State) (k : Slot) : KeepsSlot k s.settleAll s.rejoined := by
  refine .of_ext ?_ ?_ ?_ ?_ ?_
  · rw [rejoined_dir]
  · rw [rejoined_mem, settleAll_mem]
  · rw [rejoined_dir]
  · rw [rejoined_dir]
    exact id
  · rw [rejoined_link]
    exact fun _ h _ => h

theorem ready_rejoined (s : State) (h : Station) : DutyReady h s s.rejoined := by
  have hr := ready_reconcileDuty (s.settleAll.attemptEnded.enter .member) h
  have hrep : (s.settleAll.attemptEnded.enter .member).dir.rep = s.dir.rep := settleAll_rep s
  have hmem : (s.settleAll.attemptEnded.enter .member).mem = { s.mem with state := .member, attempts := 0 } := by
    rw [enter_mem, State.attemptEnded, State.onMem_mem, State.onDir_mem, settleAll_mem]
  unfold State.rejoined
  generalize s.settleAll.attemptEnded.enter .member = u at hr hrep hmem ⊢
  obtain ⟨hlost, hending, hrunning, hbegun⟩ := hr
  rw [hrep, hmem] at hlost hending hrunning hbegun
  exact ⟨hlost, hending, hrunning, hbegun⟩

theorem rejoined_adoption (s : State) (h : Station) :
    ∀ a ∈ s.rejoined.mem.adoption, s.dir.rep.dir[a.slot].orphanOf h = false := by
  have hrep : (s.settleAll.attemptEnded.enter .member).dir.rep = s.dir.rep := settleAll_rep s
  rw [← hrep]
  unfold State.rejoined
  exact reconcileDuty_adoption _ h

/-! ### Duty once the station is MEMBER (R150, R151, R154) -/

/-- R150, R151, R154: the duty for `h` once the work of the new MEMBER is done. -/
theorem settledDuty_rejoinDrive (s : State) (h : Station) : s.settledDuty s.rejoinDrive s.dir.rep h := by
  have hready : DutyReady h s s.rejoined.dueWorked :=
    KeepsDuty.ready (.of_mem ((leaves_queueDues _).trans (leaves_dueWorked _)) (dueWorked_mem _)) (ready_rejoined s h)
  have hmem := dueWorked_mem s.rejoined
  have hstate : s.rejoined.dueWorked.mem.state = .member := by rw [hmem, rejoined_mem]
  have hrep : s.rejoined.dueWorked.dir.rep = s.dir.rep := by
    rw [((leaves_queueDues (p := anyFrame) _).trans (leaves_dueWorked _)).rep, rejoined_rep]
  have hadopt : ∀ a ∈ s.rejoined.dueWorked.mem.adoption, s.dir.rep.dir[a.slot].orphanOf h = false := by
    rw [hmem]
    exact rejoined_adoption s h
  rw [rejoinDrive_eq, afterMember_eq]
  generalize s.rejoined.dueWorked = u at hready hstate hrep hadopt ⊢
  have hduty : u.dutyEval.queueLeave.mem = u.dutyEval.mem := (queueLeave_changes _).1 .mem (by simp)
  obtain ⟨hlost, hending, hrunning, hbegun⟩ := hready
  unfold State.settledDuty
  rw [hduty]
  refine ⟨fun hr d hd => dutyEval_made (hlost hr) hd, fun hr => ⟨fun d o hd ho => ?_,
    fun d hd hp => ⟨fun ht => ?_, fun ht ho => ?_⟩, fun hd => ?_⟩⟩
  · obtain ⟨hd', hc⟩ := hending hr d o hd ho
    exact ⟨dutyEval_kept hd' fun hrun => (nomatch ho.symm.trans hrun),
      queueLeave_carries ((evaluates_dutyEval u).carries _ rfl hc)⟩
  · obtain ⟨d', hd', htime, hphase⟩ := dutyEval_running (hrunning hr d hd hp) hp ht
    exact ⟨d', hd', htime, hphase.imp_right fun ⟨hdone, hc⟩ => ⟨hdone, queueLeave_carries hc⟩⟩
  · have hd' := hrunning hr d hd hp
    rw [← hrep] at ho
    obtain ⟨hfailed, hc, -⟩ := dutyEval_failed hstate hd' hp ht (.inl ho)
    have hmedium := dutyEval_onMedium hstate hd' hp ht ho (by rw [hrep]; exact hadopt)
    refine ⟨hfailed, queueLeave_carries hc, fun a ha hf => ?_⟩
    cases horphan : s.dir.rep.dir[a.slot].orphanOf h with
    | false => exact .inl rfl
    | true =>
      refine .inr ((heads_queueLeave _).shutOnMedium (hmedium a ha hf ?_))
      rw [(evaluates_dutyEval u).rep, hrep]
      exact horphan
  · obtain ⟨d', hd', htime, hphase⟩ := dutyEval_running (hbegun hr hd) rfl (by decide)
    exact ⟨d', hd', htime, hphase.imp_right fun ⟨hdone, hc⟩ => ⟨hdone, queueLeave_carries hc⟩⟩

/-! ### Holdings once the station is MEMBER (R50, R134) -/

theorem shutApplied_closing {s : State} {k : Slot} {kd : SlotKind} {g : Gen} {c : ShutCause} {a : Fin 2}
    (hr : s.dir.rep.dir[k] = .closing s.mem.stn kd g c a) : s.shutApplied k = true := by
  simp [State.shutApplied, State.holdsSlot, Replica.holds, State.me, hr, DirEntry.holder?, DirEntry.isClosing]

/-- A due is queued for what has become of an extension. -/
theorem shutBody_kept {x y : Ext} (h : x.KeptIn y) {c : ShutCause} (hd : x.shutDue = some c) (k : Slot) :
    shutBody k y c = shutBody k x c := by
  unfold shutBody
  rw [(h.due (by rw [hd]; rfl)).2.1]

theorem outlasts_shutBody {r : Replica} {k : Slot} (hr : ∀ h : Station, r.dir[k].orphanOf h = false) (x : Ext)
    (c : ShutCause) : outlastsRuns r (shutBody k x c) := by
  intro j d a hb h
  obtain ⟨rfl, -, -⟩ := Body.shut.inj hb
  exact hr h

/-- R50, R134: a slot kept OPEN. -/
theorem rejoinDrive_opened {s : State} {k : Slot} {x : Ext} {kd : SlotKind} (hx : s.dir.ext[k] = some x)
    (hr : s.dir.rep.dir[k] = .opened s.mem.stn kd x.serial) :
    ∃ y, s.rejoinDrive.dir.ext[k] = some y ∧ x.KeptIn y ∧
      ∀ c, x.shutDue = some c → s.rejoinDrive.bus.carries (shutBody k x c) := by
  obtain ⟨u, hsu, hua⟩ := settleAll_slot s k
  obtain ⟨xu, hxu, hxk, -⟩ := hsu.present x hx
  have hru : u.dir.rep.dir[k] = .opened u.mem.stn kd xu.serial := by rw [hsu.rep, hsu.stn, hxk.serial, hr]
  rw [settleHolding_opened hxu hru] at hua
  have hkept : KeepsSlot k s s.rejoined := (hsu.trans hua).trans (keepsSlot_rejoined s k)
  obtain ⟨z, hz, hxz, -⟩ := hkept.present x hx
  obtain ⟨y, hy, hxy, -⟩ := (hkept.trans (keepsSlot_afterMember s.rejoined k)).present x hx
  rw [rejoinDrive_eq]
  refine ⟨y, hy, hxy, fun c hc => afterMember_carries (k := k) ?_ fun v hv => ?_⟩
  · rw [rejoined_rep]
    exact outlasts_shutBody (fun h => by rw [hr]; rfl) x c
  · rw [← shutBody_kept hxz hc]
    exact queueDue_shut (by rw [hv]; exact hz) ((hxz.due (by rw [hc]; rfl)).1.trans hc)

/-- R50, R105, R134: a slot kept CLOSING. -/
theorem rejoinDrive_closing {s : State} {k : Slot} {x : Ext} {kd : SlotKind} {c : ShutCause} {a : Fin 2}
    (hx : s.dir.ext[k] = some x) (hr : s.dir.rep.dir[k] = .closing s.mem.stn kd x.serial c a) :
    ∃ y, s.rejoinDrive.dir.ext[k] = some y ∧ x.settledClosing y a ∧
      (x.shutDue.isSome → k ∈ s.rejoinDrive.dir.closing) ∧
      ∀ o, x.shutDue = none → y.closeReport = some o → s.rejoinDrive.bus.carries (.shutDone k
        (if o = .closed then .closed else if a = 0 then .retrying else .quarantined)) := by
  obtain ⟨u, hsu, hua⟩ := settleAll_slot s k
  obtain ⟨xu, hxu, hxk, hdue⟩ := hsu.present x hx
  have hdueu := hdue (shutApplied_closing hr)
  have hru : u.dir.rep.dir[k] = .closing u.mem.stn kd xu.serial c a := by rw [hsu.rep, hsu.stn, hxk.serial, hr]
  obtain ⟨⟨w, hw, hserial, hcursor, hflight, hnone, hreport⟩, hcloses⟩ := settleHolding_closing hxu hru
  have hruw : (u.settleHolding k).shutApplied k = true := by
    rw [← hua.shutApplied, State.shutApplied, State.holdsSlot, State.me, settleAll_rep, settleAll_mem]
    exact shutApplied_closing hr
  have hkept : KeepsSlot k (u.settleHolding k) s.rejoined := hua.trans (keepsSlot_rejoined s k)
  have hafter := keepsSlot_afterMember s.rejoined k
  obtain ⟨z, hz, hwz, hzdue⟩ := hkept.present w hw
  obtain ⟨y, hy, hwy, hydue⟩ := (hkept.trans hafter).present w hw
  rw [rejoinDrive_eq]
  refine ⟨y, hy, ⟨hwy.serial.trans (hserial.trans hxk.serial), hwy.cursor.trans (hcursor.trans hxk.cursor),
    hwy.inFlight.trans (hflight.trans hxk.inFlight), (hydue hruw).trans hnone, fun hd => ?_⟩, fun hd => ?_,
    fun o hd ho => ?_⟩
  · have hclear := hreport (hdueu.trans hd)
    simp only [Ext.retried, hxk.closeReport, hxk.reportSent] at hclear
    exact hwy.closeReport.trans hclear
  · exact hafter.closing (hkept.closing (hcloses (by rw [hdueu]; exact hd)))
  · have hoz : z.closeReport = some o := hwz.closeReport.trans (hwy.closeReport.symm.trans ho)
    refine afterMember_carries (k := k) (fun j d b hb => nomatch hb) fun v hv => ?_
    exact queueDue_done (by rw [hv]; exact hz) ((hzdue hruw).trans hnone) hoz
      (by rw [hv, rejoined_rep]; exact hr)

/-- R49, R134: a slot without a holding of the incarnation that the replica shows. -/
theorem rejoinDrive_creates {s : State} {k : Slot}
    (h : ∀ x, s.dir.ext[k] = some x → s.showsOwn k x.serial = false) : Creates k s s.rejoinDrive := by
  obtain ⟨u, hsu, hua⟩ := settleAll_slot s k
  have hlost (xu : Ext) (hxu : u.dir.ext[k] = some xu) : u.showsOwn k xu.serial = false := by
    have hshows (g : Gen) : u.showsOwn k g = s.showsOwn k g := by
      simp only [State.showsOwn, State.holdsSlot, State.me, hsu.rep, hsu.stn]
    cases hx : s.dir.ext[k] with
    | none => exact nomatch (hsu.absent hx).symm.trans hxu
    | some x =>
      obtain ⟨y, hy, hxy, -⟩ := hsu.present x hx
      cases hy.symm.trans hxu
      rw [hshows, hxy.serial]
      exact h x hx
  obtain ⟨hopened, hclosing, hother⟩ := settleHolding_creates hlost
  rw [hsu.rep, hsu.stn] at hopened hclosing hother
  have hkept : KeepsSlot k (u.settleHolding k) s.rejoinDrive := by
    rw [rejoinDrive_eq]
    exact (hua.trans (keepsSlot_rejoined s k)).trans (keepsSlot_afterMember _ k)
  refine ⟨fun kd g hr => ?_, fun kd g c a hr => ?_, fun hn => hkept.absent (hother hn)⟩
  · obtain ⟨w, hw, hserial, hready, hcursor, hflight, hheld⟩ := hopened kd g hr
    obtain ⟨y, hy, hwy, -⟩ := hkept.present w hw
    exact ⟨y, hy, hwy.serial.trans hserial, hwy.readiness.trans hready, hwy.cursor.trans hcursor,
      hwy.inFlight.trans hflight, hkept.opens _ hheld rfl⟩
  · obtain ⟨w, hw, hserial, hready, hcursor, hflight, hcloses⟩ := hclosing kd g c a hr
    obtain ⟨y, hy, hwy, -⟩ := hkept.present w hw
    exact ⟨y, hy, hwy.serial.trans hserial, hwy.readiness.trans hready, hwy.cursor.trans hcursor,
      hwy.inFlight.trans hflight, hkept.closing hcloses⟩

/-- R50, R134: the holding of a slot once the station is MEMBER. -/
theorem settledHolding_rejoinDrive (s : State) (k : Slot) : s.settledHolding s.rejoinDrive s.dir.rep k := by
  refine ⟨fun x kd hx hr => ?_, fun x kd c a hx hr => ?_, fun hlost => ?_⟩
  · obtain ⟨y, hy, hk, hdue⟩ := rejoinDrive_opened hx hr
    exact ⟨y, hy, hk.serial, hk.readiness, hk.cursor, hk.inFlight, fun c hc =>
      ⟨(hk.due (by rw [hc]; rfl)).1.trans hc, hdue c hc⟩⟩
  · obtain ⟨y, hy, ⟨hserial, hcursor, hflight, hnone, hreport⟩, hcloses, hdone⟩ := rejoinDrive_closing hx hr
    refine ⟨y, hy, hserial, hcursor, hflight, hnone, hcloses,
      fun hd o ho => ⟨fun ⟨ha, hf, hsent⟩ => ?_, fun hn => ?_⟩⟩
    · rw [hreport hd, if_pos ⟨ha, by rw [ho, hf], hsent⟩]
    · have hy' : y.closeReport = some o := by
        rw [hreport hd, if_neg fun ⟨ha, hf, hsent⟩ => hn ⟨ha, Option.some.inj (ho.symm.trans hf), hsent⟩, ho]
      exact ⟨hy', hdone o hd hy'⟩
  · obtain ⟨hopened, hclosing, hother⟩ := rejoinDrive_creates (s := s) (k := k) fun x hx =>
      Bool.eq_false_iff.2 fun ho => by
        obtain ⟨hholder, hserial⟩ := (showsOwn_iff s k x.serial).1 ho
        exact (hlost x hx).elim (fun h => h hholder) fun h => h hserial
    exact ⟨hopened, hclosing, hother⟩

end Sys2Proof.Machine
end

