-- ==== Sys2Proof/Proofs/SnapshotEnd.lean ====
section
/-! SUPPORT. The end frame of the snapshot (R133): each of its outcomes, in the words of the statement. -/

namespace Sys2Proof.Machine

/-! ### What stands once the station is MEMBER -/

theorem rejoinDrive_changes (s : State) : s.changesOnly s.rejoinDrive rejoinBlocks := by
  rw [rejoinDrive_eq]
  exact (rejoined_changes s).andThen (afterMember_changes _) (fun _ => id) (by decide)

theorem rejoinDrive_mem (s : State) :
    s.rejoinDrive.mem.state = .member ∧ s.rejoinDrive.mem.attempts = 0 := by
  rw [rejoinDrive_eq, afterMember_eq, (dutiful_leave s.rejoined.dueWorked).mem, dueWorked_mem, rejoined_mem]
  exact ⟨rfl, rfl⟩

theorem rejoinDrive_dir (s : State) :
    s.rejoinDrive.dir.rep = s.dir.rep ∧ (∀ a, s.rejoinDrive.dir.request ≠ some (.ask a)) ∧
      s.rejoinDrive.dir.log = [] ∧ s.rejoinDrive.dir.snap = [] := by
  obtain ⟨hlog, hsnap, hreq⟩ := dueWorked_dir s.rejoined
  have hrep : s.rejoined.dueWorked.dir.rep = s.rejoined.dir.rep := (keepsSlot_dueWorked s.rejoined 0).rep
  have hdir : s.rejoined.dueWorked.dutyEval.queueLeave.dir = s.rejoined.dueWorked.dir :=
    ((queueLeave_changes _).1 .dir (by simp)).trans ((dutyEval_changes _).1 .dir (by decide))
  rw [rejoinDrive_eq, afterMember_eq, hdir, hrep, hlog, hsnap, rejoined_rep]
  have hended := rejoined_dir s
  refine ⟨rfl, fun a ha => ?_, (congrArg Directory.log hended :), (congrArg Directory.snap hended :)⟩
  rcases hreq with hsame | ⟨e, he⟩
  · exact nomatch (congrArg Directory.request hended).symm.trans (hsame.symm.trans ha)
  · exact nomatch he.symm.trans ha

theorem settledLink_rejoinDrive (s : State) : s.settledLink s.rejoinDrive s.dir.rep := by
  have hlink : s.rejoinDrive.link = s.settleAll.link := by
    rw [rejoinDrive_eq, (afterMember_changes _).1 .link (by decide), rejoined_link]
  unfold State.settledLink
  rw [hlink]
  exact settledLink_settleAll s

/-! ### The settlement read from the station before the replay -/

section
variable {s v : State} (hext : v.dir.ext = s.dir.ext) (hmem : v.mem = s.mem)
include hmem

theorem State.settledDuty.of_replayed {t : State} {r : Replica} {h : Station} (hs : v.settledDuty t r h) :
    s.settledDuty t r h := by
  unfold State.settledDuty at *
  rwa [hmem] at hs

include hext

theorem State.settledHolding.of_replayed {t : State} {r : Replica} {k : Slot} (hs : v.settledHolding t r k) :
    s.settledHolding t r k := by
  unfold State.settledHolding at *
  rwa [hmem, hext] at hs

theorem State.settledLink.of_replayed {t : State} {r : Replica} (hlink : v.link = s.link)
    (hs : v.settledLink t r) : s.settledLink t r := by
  have hloses : v.loses r = s.loses r := by
    funext k g
    simp only [State.loses, State.hasHolding, hext, hmem]
  unfold State.settledLink at *
  rwa [hloses, hlink, closeTicks_kept (s := s) (u := v) (by rw [hmem])] at hs

end

theorem SameHoldings.trans {s t u : State} (h : SameHoldings s t) (g : SameHoldings t u) : SameHoldings s u :=
  ⟨h.changes.andThen g.changes (fun _ => id) (fun _ => id), g.cfg.trans h.cfg,
    fun k x => (g.holding k x).trans (h.holding k x)⟩

/-! ### The outcomes of the installation (R133, R135, R140) -/

/-- R133: the installed snapshot with its log replayed, and what the replay leads to. -/
theorem install_cases {s : State} (hn : ∀ e, s.dir.request ≠ some (.recall e)) (r : Replica) :
    ∃ v named, Replays s v ∧
      (Replica.replayed s.dir.replayFrames r = none ∧ s.install r = v.attemptFail.policyPass ∨
        Replica.replayed s.dir.replayFrames r = some v.dir.rep ∧
          s.install r = if v.dir.rep.isPresent v.mem.stn then v.rejoinDrive else v.namedAbsent named) := by
  obtain ⟨hrep, hout⟩ := replayOut_replays hn r
  rw [install_eq]
  generalize s.replayOut r = p at hrep hout
  obtain ⟨⟨v, named⟩, complete⟩ := p
  refine ⟨v, named, hrep, ?_⟩
  cases complete with
  | false => exact .inl ⟨hout, rfl⟩
  | true => exact .inr ⟨hout, rfl⟩

/-- R133, R134, R154: the station MEMBER again, after the replay from `s` to `v`. -/
theorem rejoinDrive_settled {s v : State} (hext : v.dir.ext = s.dir.ext) (hmem : v.mem = s.mem)
    (hlink : v.link = s.link) (h : s.changesOnly v [.dir, .bus, .flt]) {t : State} (ht : t = v.rejoinDrive.settled) :
    t.mem.state = .member ∧ t.dir.rep = v.dir.rep ∧ t.mem.attempts = 0 ∧
      (∀ a, t.dir.request ≠ some (.ask a)) ∧ t.dir.log = [] ∧ t.dir.snap = [] ∧
      (∀ k : Slot, s.settledHolding t v.dir.rep k) ∧ (∀ h : Station, s.settledDuty t v.dir.rep h) ∧
      s.settledLink t v.dir.rep ∧ s.frame t rejoinBlocks := by
  obtain ⟨hstate, hatt⟩ := rejoinDrive_mem v
  obtain ⟨hrep, hreq, hlog, hsnap⟩ := rejoinDrive_dir v
  have hframe : s.frame v.rejoinDrive.settled rejoinBlocks :=
    frame_of_changes (h.andThen (rejoinDrive_changes v) (by decide) (fun _ => id)) (by decide)
  have hhold (k : Slot) := (settledHolding_rejoinDrive v k).of_replayed hext hmem
  have hduty (j : Station) := (settledDuty_rejoinDrive v j).of_replayed hmem
  have hlinked := (settledLink_rejoinDrive v).of_replayed hext hmem hlink
  generalize v.rejoinDrive = w at *
  subst ht
  exact ⟨hstate, hrep, hatt, hreq, hlog, hsnap, hhold, hduty, hlinked, hframe⟩

/-- Settles O50: what an end frame completes is refused, barred, or installed and replayed, and the replay ends
at a gap, with the station absent, or with the station MEMBER. -/
theorem snapshotEndInstalls : Obligations.SnapshotEndInstalls := by
  unfold Obligations.SnapshotEndInstalls
  intro f rest tag g count sum e n s h hb hm he hp ht
  have hexec := exec_snapshotEnd h hb hm he hp ht
  have hpop := popRx_changes s
  have hsame : SameHoldings s s.popRx := (Took.onBus s _).sameHoldings
  have hfails (ha : s.popRx.accepted n g count sum = none) :
      ∃ t, exec .snapshotEnd s = .next t ∧ s.attemptFailed t := by
    rw [endSnapshot_refused ha] at hexec
    exact ⟨_, hexec, attemptFailed_settled hpop⟩
  refine ⟨fun hbad => hfails (accepted_none (s := s.popRx) hbad), fun r hr hn hc hsum => ?_⟩
  subst hn hc
  have hacc := accepted_eq (s := s.popRx) hr hsum
  refine ⟨fun hok => hfails (by rw [hacc, hok]; rfl), fun hok hne => ?_, fun hok hpar o ho => ?_⟩
  all_goals rw [hok, if_pos rfl] at hacc
  · rw [endSnapshot_mismatch hacc hne] at hexec
    exact ⟨_, hexec, barred_settled hsame rfl _⟩
  · have hask : ∀ e, s.popRx.dir.request ≠ some (.recall e) := fun e' he' => nomatch he.symm.trans he'
    obtain ⟨v, named, hrep, hcases⟩ := install_cases hask r
    have ho' : o = Replica.replayed s.popRx.dir.replayFrames r := ho
    have hmem : v.mem = s.mem := hrep.mem
    rw [endSnapshot_install hacc hpar] at hexec
    rcases hcases with ⟨hgap, hinst⟩ | ⟨hdone, hinst⟩
    all_goals rw [hinst] at hexec
    · refine ⟨fun _ => ?_, fun r' hsome => (nomatch hgap.symm.trans (ho'.symm.trans hsome)),
        fun r' hsome => (nomatch hgap.symm.trans (ho'.symm.trans hsome))⟩
      obtain ⟨hwait, hreq, hlog, hsnap, hcount, hatt⟩ := attemptFail_policyPass hmem hm
        (hrep.counts .catchupFailed (by decide) (by decide))
      exact ⟨_, hexec, hwait, hreq, hlog, hsnap, hcount.settled rfl, hatt⟩
    · refine ⟨fun hnone => (nomatch hdone.symm.trans (ho'.symm.trans hnone)), fun r' hsome habs => ?_,
        fun r' hsome hpres => ?_⟩
      all_goals
        cases hdone.symm.trans (ho'.symm.trans hsome)
        rw [hmem] at hexec
      · rw [if_neg (by rw [habs]; decide)] at hexec
        have hcount : v.flt.counts[Cause.namedAbsent.index] = s.flt.counts[Cause.namedAbsent.index] :=
          hrep.counts .namedAbsent (by decide) (by decide)
        exact ⟨_, hexec, tookAbsent_settled (hsame.trans hrep.sameHoldings) hcount (by rw [hmem]) named⟩
      · rw [if_pos hpres] at hexec
        exact ⟨_, hexec, rejoinDrive_settled (s := s) hrep.ext hmem (hrep.changes.1 .link (by simp))
          (hpop.andThen hrep.changes (by simp) (by simp)) rfl⟩

end Sys2Proof.Machine
end
